-- ==== Sys2Proof/Word.lean ====
section
/-! DEFINITION. The word types of the module and their plainest arithmetic. The K16 is little-endian in
memory, records and registers (R6). -/

namespace Sys2Proof

/-- One byte. -/
abbrev Byte := BitVec 8

/-- Bits hi..lo of a number (R6: NAME[hi:lo], bit 0 least significant). -/
def bits (n hi lo : Nat) : Nat := (n >>> lo) % 2 ^ (hi + 1 - lo)

/-- Bit i of a number. -/
def bit (n i : Nat) : Bool := n.testBit i

/-- A Boolean as a bit. -/
def b2n (b : Bool) : Nat := if b then 1 else 0

/-- The two's complement reading of the low w bits of n. -/
def toSigned (w n : Nat) : Int :=
  let m := n % 2 ^ w
  if 2 * m < 2 ^ w then (m : Int) else (m : Int) - (2 ^ w : Nat)

/-- The low w bits of an integer, two's complement. -/
def ofSigned (w : Nat) (i : Int) : Nat := (i % ((2 ^ w : Nat) : Int)).toNat

/-- ceil (a / b). -/
def ceilDiv (a b : Nat) : Nat := (a + b - 1) / b

/-- Little-endian bytes of a number. -/
def leBytes : Nat → Nat → List Byte
  | 0, _ => []
  | k + 1, n => BitVec.ofNat 8 n :: leBytes k (n / 256)

/-- The number that little-endian bytes spell. -/
def leNat : List Byte → Nat
  | [] => 0
  | b :: bs => b.toNat + 256 * leNat bs

/-- Bytes off .. off+k-1 of a byte list as a number; bytes past the end count as 0. -/
def fieldLE (bs : List Byte) (off k : Nat) : Nat := leNat ((bs.drop off).take k)

/-- An unsigned count that stops at its largest value (R405: 32-bit counters saturate). -/
def satAdd (w a b : Nat) : Nat := min (a + b) (2 ^ w - 1)

/-- Element i of a list replaced; out of range changes nothing. -/
def updAt {α : Type} (l : List α) (i : Nat) (f : α → α) : List α := l.modify i f

end Sys2Proof
end

