-- ==== Sys2Proof/Syntax.lean ====
section
/-! DEFINITION. The commands of the module: one constructor of Instr for each row of spec/opcode_table.json,
with the operands that the outside supplies (a value written, a partner's message, a measured time, the outcome
of a test). What the spec keeps in memory (plan entries, descriptors, grain instructions, schedule words) is read
from State by the command's meaning and is no operand. -/

namespace Sys2Proof

/-- A block with a BAR0 page of its own (R395), or a compute die. -/
inductive Block where
  | module | trn | fma | frt | port (p : Nat) | col | frit | qmu | hif
  | mem (s : Nat) | nwu (d : Nat) | kln (k : Nat)
  | tsq (t : Nat) | mxa (t : Nat) | grn (t : Nat) | opc (t : Nat) | ftu (t : Nat) | sieve (t : Nat)
  | pce (t e : Nat) | cpt (t : Nat) | mrv (t : Nat)
  | dbg | mmc | sec
  | die (d : Nat)
  deriving DecidableEq, Repr

/-- A part with a rail or a thermal limit of its own (R349, R384, R389). -/
inductive Part where
  | die (d : Nat) | stack (s : Nat) | hub
  deriving DecidableEq, Repr

/-- One 50 us sample of the MMC (R385, R389): voltage in 10 mV, current in 10 mA, power in W, temperatures in degrees C of each compute die, each
stack, the hub die, the conversion stages and the coolant, and the rails in mV in the order of R384. -/
structure Sample where
  vin : Nat
  iin : Nat
  pin : Nat
  dies : List Nat
  hbms : List Nat
  hub : Nat
  conv : Nat
  inlet : Nat
  outlet : Nat
  rails : List Nat
  deriving DecidableEq, Repr

/-- The two transports of SPDM messages (R369). -/
inductive Transport where
  | doe | mctp
  deriving DecidableEq, Repr

/-- The protocols of the DOE mailbox (R316); other stands for any it does not serve. -/
inductive DoeProto where
  | discovery | spdm | secured | cdat | other
  deriving DecidableEq, Repr

/-- The registers of the configuration space that the module gives a meaning of its own, by their names in the PCIe and CXL standards (R313,
R316, R323, R325; log entry 28); other stands for every other one. -/
inductive CfgReg where
  | command | bar0 | bar0Hi | bar2 | bar2Hi | msixControl | msixTable | msixPba | dvsecCap | dvsecControl2
  | dvsec (id word : Nat) | ideControl | other
  deriving DecidableEq, Repr

/-- A fabric cell: the header fields of R263 and its data bytes. -/
structure FabCell where
  domain : Nat
  typ : Nat
  vc : Nat
  alt : Bool
  rty : Bool
  dst : Nat
  src : Nat
  /-- local offset at DST, whole bytes (its low four bits are 0 on the wire) -/
  offset : Nat
  stream : Nat
  seq : Nat
  hops : Nat
  sync : Bool
  status : Nat
  data : List Byte
  deriving DecidableEq, Repr

/-- A collective control cell's body (the control cell table of 14_collectives.md, R305). -/
structure ColCtl where
  kind : Nat
  reason : Nat
  group : Nat
  gen : Nat
  opseq : Nat
  chunk : Nat
  step : Nat
  nbrk : Nat
  word0 : Nat
  modno : Nat
  lag : Nat
  deriving DecidableEq, Repr

/-- The body of an UP or DOWN frit message (R306). -/
structure FritMsg where
  group : Nat
  gen : Nat
  opseq : Nat
  fn : Nat
  typ : Nat
  nval : Nat
  step : Nat
  ncontrib : Nat
  nexcl : Nat
  reasons : Nat
  lagMod : Nat
  vals : List Nat
  /-- excluded members: (reason, module) -/
  excl : List (Nat × Nat)
  deriving DecidableEq, Repr

/-- The commands. -/
inductive Instr where
  /-- TURN_START -/
  | turnStart
  /-- CONTEXT_SWITCH_END -/
  | contextSwitchEnd (tile : Nat)
  /-- P2_EXIT_DONE -/
  | p2ExitDone (failed : List Block)
  /-- REFRESH_SLOT_START -/
  | refreshSlotStart
  /-- REFRESH_SLOT_END -/
  | refreshSlotEnd
  /-- GUARD_BAND_START -/
  | guardBandStart
  /-- BEACON -/
  | beacon (port : Nat) (turn : Nat) (units : Nat) (guard : Nat) (delay : Nat)
  /-- HOLDOVER_ENTRY -/
  | holdoverEntry
  /-- LOCK_LOST -/
  | lockLost
  /-- TRN_LEN_WRITE -/
  | trnLenWrite (v : BitVec 32)
  /-- TRN_GUARD_WRITE -/
  | trnGuardWrite (v : BitVec 32)
  /-- TRN_APPLY_WRITE -/
  | trnApplyWrite (v : BitVec 64)
  /-- TRN_CTXBASE_WRITE -/
  | trnCtxbaseWrite (v : BitVec 64)
  /-- TRN_WHEEL_WRITE -/
  | trnWheelWrite (i : Nat) (v : BitVec 128)
  /-- TRN_WHEEL_CTL_WRITE -/
  | trnWheelCtlWrite (v : BitVec 32)
  /-- TSQ_PLAN_WR_WRITE -/
  | tsqPlanWrWrite (tile : Nat) (v : BitVec 32)
  /-- PLAN_ENTRY_ISSUE -/
  | planEntryIssue (tile : Nat)
  /-- SWEEP -/
  | sweep (tile : Nat)
  /-- SWEEP_DONE -/
  | sweepDone (tile : Nat)
  /-- LOOKUP -/
  | lookup (tile : Nat)
  /-- LOOKUP_DONE -/
  | lookupDone (tile : Nat)
  /-- RUN -/
  | run (tile : Nat)
  /-- HALT -/
  | halt (tile : Nat) (core : Nat)
  /-- ADDI -/
  | addi (tile : Nat) (core : Nat)
  /-- ALU -/
  | alu (tile : Nat) (core : Nat)
  /-- LUI -/
  | lui (tile : Nat) (core : Nat)
  /-- LDX -/
  | ldx (tile : Nat) (core : Nat)
  /-- STX -/
  | stx (tile : Nat) (core : Nat)
  /-- BR -/
  | br (tile : Nat) (core : Nat)
  /-- CSRR -/
  | csrr (tile : Nat) (core : Nat)
  /-- CSRW -/
  | csrw (tile : Nat) (core : Nat)
  /-- VLD -/
  | vld (tile : Nat) (core : Nat)
  /-- VST -/
  | vst (tile : Nat) (core : Nat)
  /-- VGATH -/
  | vgath (tile : Nat) (core : Nat)
  /-- VSCAT -/
  | vscat (tile : Nat) (core : Nat)
  /-- VBCAST -/
  | vbcast (tile : Nat) (core : Nat)
  /-- VMOVX -/
  | vmovx (tile : Nat) (core : Nat)
  /-- PLOGIC -/
  | plogic (tile : Nat) (core : Nat)
  /-- PTAIL -/
  | ptail (tile : Nat) (core : Nat)
  /-- PFLG -/
  | pflg (tile : Nat) (core : Nat)
  /-- PCNT -/
  | pcnt (tile : Nat) (core : Nat)
  /-- VARITH -/
  | varith (tile : Nat) (core : Nat)
  /-- VFMA -/
  | vfma (tile : Nat) (core : Nat)
  /-- VMINMAX -/
  | vminmax (tile : Nat) (core : Nat)
  /-- VLOGIC -/
  | vlogic (tile : Nat) (core : Nat)
  /-- VSHIFT -/
  | vshift (tile : Nat) (core : Nat)
  /-- VDIV -/
  | vdiv (tile : Nat) (core : Nat)
  /-- VCMP -/
  | vcmp (tile : Nat) (core : Nat)
  /-- VSEL -/
  | vsel (tile : Nat) (core : Nat)
  /-- VCVT -/
  | vcvt (tile : Nat) (core : Nat)
  /-- VRED -/
  | vred (tile : Nat) (core : Nat)
  /-- VSCAN -/
  | vscan (tile : Nat) (core : Nat)
  /-- TSCAN -/
  | tscan (tile : Nat) (core : Nat)
  /-- TRED -/
  | tred (tile : Nat) (core : Nat)
  /-- TBAR -/
  | tbar (tile : Nat) (core : Nat)
  /-- TILE_INSTRUCTION_JOIN -/
  | tileInstructionJoin (tile : Nat) (core : Nat)
  /-- APPLY -/
  | ftuApply (tile : Nat)
  /-- APPLY_DONE -/
  | ftuApplyDone (tile : Nat)
  /-- COPY -/
  | copy (eng : Nat)
  /-- FILL -/
  | fill (eng : Nat)
  /-- HDUMP -/
  | hdump (eng : Nat)
  /-- HLOAD -/
  | hload (eng : Nat)
  /-- COPY_START -/
  | copyStart (eng : Nat)
  /-- SIEVE_TAKE -/
  | sieveTake (eng : Nat)
  /-- PC_SHARE_START -/
  | pcShareStart (eng : Nat) (stack : Nat) (pc : Nat)
  /-- COPY_COMPLETE -/
  | copyComplete (eng : Nat)
  /-- SIEVE_TWIN_WRITE -/
  | sieveTwinWrite (tile : Nat) (off : Nat) (bytes : List Byte)
  /-- SIEVE_TSEL_WRITE -/
  | sieveTselWrite (tile : Nat) (v : BitVec 32)
  /-- SIEVE_CTL_WRITE -/
  | sieveCtlWrite (tile : Nat) (v : BitVec 32)
  /-- DEFAULT -/
  | tagDefault (tile : Nat)
  /-- CLRSTAT -/
  | tagClrstat (tile : Nat)
  /-- COLD -/
  | tagCold (tile : Nat)
  /-- MODULE_STEP_APPLY_WRITE -/
  | moduleStepApplyWrite (p : Nat) (v : BitVec 64)
  /-- NWU_CTL_WRITE -/
  | nwuCtlWrite (die : Nat) (v : BitVec 32)
  /-- HCLR -/
  | hclr (die : Nat)
  /-- KILN_RUN -/
  | kilnRun (kiln : Nat) (tile : Option Nat)
  /-- JOB_START -/
  | jobStart (kiln : Nat)
  /-- END -/
  | kEnd (kiln : Nat)
  /-- IMPORT -/
  | kImport (kiln : Nat)
  /-- IMPORT_RESUME -/
  | importResume (kiln : Nat)
  /-- EXPORT -/
  | kExport (kiln : Nat)
  /-- VOP -/
  | kVop (kiln : Nat)
  /-- DOT -/
  | kDot (kiln : Nat)
  /-- NORM -/
  | kNorm (kiln : Nat)
  /-- RECIP -/
  | kRecip (kiln : Nat)
  /-- SLOAD -/
  | kSload (kiln : Nat)
  /-- SPMV -/
  | kSpmv (kiln : Nat)
  /-- FACT -/
  | kFact (kiln : Nat)
  /-- SOLVE -/
  | kSolve (kiln : Nat)
  /-- LOOP -/
  | kLoop (kiln : Nat)
  /-- ENDLOOP -/
  | kEndloop (kiln : Nat)
  /-- TEST -/
  | kTest (kiln : Nat)
  /-- DEADLINE_MISS -/
  | deadlineMiss (kiln : Nat)
  /-- KILN_COMMIT_DONE -/
  | kilnCommitDone (kiln : Nat)
  /-- KLN_RDYCLR_WRITE -/
  | klnRdyclrWrite (kiln : Nat) (v : BitVec 32)
  /-- KILN_SOFT_RESET -/
  | kilnSoftReset (kiln : Nat)
  /-- NEIGHBOUR_HANDSHAKE -/
  | neighbourHandshake (port : Nat) (tag : Nat) (modno : Nat) (lat : Nat)
  /-- COORD_MESSAGE -/
  | coordMessage (port : Nat) (x : Nat) (y : Nat) (z : Nat) (xext : Nat) (yext : Nat) (zext : Nat)
  /-- CELL_FORWARD -/
  | cellForward (port : Nat) (cell : FabCell) (fec : Nat)
  /-- WRITE -/
  | cellWrite (cell : FabCell)
  /-- WRITE_END -/
  | cellWriteEnd (cell : FabCell)
  /-- READ -/
  | cellRead (cell : FabCell)
  /-- DATA_CELL -/
  | dataCell (cell : FabCell)
  /-- ACK -/
  | cellAck (cell : FabCell)
  /-- NACK -/
  | cellNack (cell : FabCell)
  /-- FADD -/
  | cellFadd (cell : FabCell)
  /-- FADD_RESULT -/
  | cellFaddResult (cell : FabCell)
  /-- FEC_UNCORRECTABLE -/
  | fecUncorrectable (port : Nat)
  /-- LINK_RETRY_REQUEST -/
  | linkRetryRequest (port : Nat) (first : Nat) (repeated : Bool)
  /-- REORDER_GAP_TIMEOUT -/
  | reorderGapTimeout (src : Nat) (stream : Nat)
  /-- ACK_TIMEOUT -/
  | ackTimeout (stream : Nat)
  /-- REQUEST_CREDIT_GRANT -/
  | requestCreditGrant (stream : Nat)
  /-- FETCH_ADD -/
  | fetchAdd
  /-- HUB_COPY_ITEM -/
  | hubCopyItem (n : Nat)
  /-- REDUCE -/
  | colReduce (tile : Option Nat)
  /-- BCAST -/
  | colBcast (tile : Option Nat)
  /-- ALLREDUCE -/
  | colAllreduce (tile : Option Nat)
  /-- REDSCAT -/
  | colRedscat (tile : Option Nat)
  /-- ALLGATHER -/
  | colAllgather (tile : Option Nat)
  /-- RINGPASS -/
  | colRingpass (tile : Option Nat)
  /-- FRED -/
  | colFred (tile : Option Nat)
  /-- BARRIER -/
  | colBarrier (tile : Option Nat)
  /-- COLLECTIVE_OP_START -/
  | collectiveOpStart (group : Nat)
  /-- FINITE_CHECK_DONE -/
  | finiteCheckDone (group : Nat)
  /-- OPEN -/
  | colOpen (cell : FabCell)
  /-- READY -/
  | colReady (cell : FabCell)
  /-- GRANT -/
  | colGrant (cell : FabCell)
  /-- EXCL -/
  | colExcl (cell : FabCell)
  /-- FAIL -/
  | colFail (cell : FabCell)
  /-- COLL_DATA -/
  | collData (cell : FabCell)
  /-- CHUNK_ADMIT -/
  | chunkAdmit (depth : Nat)
  /-- CHUNK_COMPLETE -/
  | chunkComplete (group : Nat) (chunk : Nat)
  /-- COLLECTIVE_DEADLINE -/
  | collectiveDeadline (group : Nat)
  /-- COLLECTIVE_OP_TIMEOUT -/
  | collectiveOpTimeout (group : Nat)
  /-- FRIT_UP -/
  | fritUp (src : Nat) (m : FritMsg)
  /-- FRIT_DOWN -/
  | fritDown (m : FritMsg)
  /-- MISS -/
  | fritMiss (group : Nat) (gen : Nat) (reason : Nat) (modno : Nat) (turn : Nat)
  /-- REFORM -/
  | fritReform (group : Nat) (gen : Nat) (turn : Nat) (removed : List Nat)
  /-- FRIT_FAIL -/
  | fritFail (group : Nat) (gen : Nat) (opseq : Nat) (status : Nat)
  /-- COL_GCMD_WRITE -/
  | colGcmdWrite (v : BitVec 64)
  /-- COL_POOL_WRITE -/
  | colPoolWrite (v : BitVec 64)
  /-- COL_POOL_APPLY -/
  | colPoolApply
  /-- CXL_LINK_UP -/
  | cxlLinkUp (rate : Nat) (width : Nat) (flit : Nat) (pcie : Bool)
  /-- LINK_RETRAIN -/
  | linkRetrain (rate : Nat) (width : Nat) (flit : Nat)
  /-- PERST_ASSERT -/
  | perstAssert
  /-- PERST_DEASSERT -/
  | perstDeassert
  /-- DOE_REQUEST -/
  | doeRequest (proto : DoeProto)
  /-- WINDOW_ENQUEUE -/
  | windowEnqueue (addr : Nat) (bytes : List Byte)
  /-- WINDOW_DEQUEUE -/
  | windowDequeue (addr : Nat) (len : Nat)
  /-- HDM_READ -/
  | hdmRead (addr : Nat) (len : Nat)
  /-- HDM_WRITE -/
  | hdmWrite (addr : Nat) (bytes : List Byte)
  /-- BIRSP -/
  | birsp (line : Nat) (modified : Bool)
  /-- BI_TIMEOUT -/
  | biTimeout (line : Nat)
  /-- RING_DRAIN -/
  | ringDrain (n : Nat)
  /-- RING_FILL -/
  | ringFill (n : Nat) (bytes : List Byte)
  /-- HIF_RING_HEAD_WRITE -/
  | hifRingHeadWrite (n : Nat) (v : BitVec 32)
  /-- HIF_RING_TAIL_WRITE -/
  | hifRingTailWrite (n : Nat) (v : BitVec 32)
  /-- MSI_X_NOTICE_EVENT -/
  | msixNoticeEvent
  /-- IDE_INTEGRITY_FAILURE -/
  | ideIntegrityFailure
  /-- FLR -/
  | flr
  /-- ENQUEUE -/
  | enqueue (producer : Nat) (q : Nat) (payload : List Byte)
  /-- DEQUEUE -/
  | dequeue (consumer : Nat) (q : Nat) (bad : List Nat)
  /-- DROP -/
  | qDrop (q : Nat)
  /-- FLUSH -/
  | qFlush (q : Nat)
  /-- STALE_TIMEOUT -/
  | staleTimeout (q : Nat)
  /-- QMU_QTO_WRITE -/
  | qmuQtoWrite (q : Nat) (v : BitVec 32)
  /-- QMU_QCFG_WRITE -/
  | qmuQcfgWrite (q : Nat) (v : BitVec 32)
  /-- ENQ -/
  | planEnq (tile : Nat)
  /-- ENQ_COMPLETE -/
  | planEnqComplete (tile : Nat)
  /-- COLD_RESET -/
  | coldReset
  /-- STAGE_POWER -/
  | stagePower (ms : Nat)
  /-- STAGE_MMC -/
  | stageMmc (ms : Nat) (failed : Nat)
  /-- STAGE_SEC -/
  | stageSec (ms : Nat) (fail : Nat)
  /-- STAGE_RAILS -/
  | stageRails (ms : Nat) (hubFault : Bool)
  /-- STAGE_HUB -/
  | stageHub (ms : Nat) (failed : List Block)
  /-- STAGE_HBM -/
  | stageHbm (ms : Nat) (failed : List Nat)
  /-- STAGE_COMPUTE -/
  | stageCompute (ms : Nat) (failed : List Block) (pairs : List Nat)
  /-- STAGE_CXL -/
  | stageCxl (ms : Nat)
  /-- STAGE_FABRIC -/
  | stageFabric (ms : Nat)
  /-- STAGE_COORD -/
  | stageCoord (ms : Nat)
  /-- STAGE_LOCK -/
  | stageLock (ms : Nat)
  /-- FABRIC_GO -/
  | fabricGo
  /-- SOLO -/
  | solo
  /-- FAB_TIMEOUT -/
  | fabTimeout (ms : Nat)
  /-- FENCE_REQUEST -/
  | fenceRequest (b : Block)
  /-- UNFENCE -/
  | unfence (b : Block)
  /-- SELF_TEST_DONE -/
  | selfTestDone (b : Block) (pass : Bool)
  /-- RAIL_FAULT -/
  | railFault (part : Part)
  /-- THERMAL_TRIP -/
  | thermalTrip (part : Part)
  /-- HBM_PHY_LOSS -/
  | hbmPhyLoss (stack : Nat)
  /-- D2D_LINK_FAILURE -/
  | d2dLinkFailure (pair : Nat)
  /-- K_RESET_REQUEST -/
  | kResetRequest
  /-- K_RESET_END -/
  | kResetEnd
  /-- T_RESET_REQUEST -/
  | tResetRequest (tile : Nat)
  /-- T_RESET_END -/
  | tResetEnd (tile : Nat)
  /-- PORT_SOFT_RESET -/
  | portSoftReset (port : Nat)
  /-- MODULE_RESET_COMMAND -/
  | moduleResetCommand
  /-- MODULE_PWR_WRITE -/
  | modulePwrWrite (v : BitVec 64)
  /-- HOT_SWAP_OPEN -/
  | hotSwapOpen
  /-- MMC_SAMPLE -/
  | mmcSample (x : Sample)
  /-- BLOCK_ENABLE_WRITE -/
  | blockEnableWrite (page : Nat) (on : Bool)
  /-- REGISTER_WRITE -/
  | registerWrite (addr : Nat) (size : Nat) (v : BitVec 64) (side : Bool)
  /-- BEGIN -/
  | secBegin
  /-- DATA -/
  | secData
  /-- VERIFY -/
  | secVerify
  /-- ACTIVATE -/
  | secActivate
  /-- CANCEL -/
  | secCancel
  /-- PREPARE_ANSWER -/
  | prepareAnswer (comp : Nat) (ready : Bool)
  /-- ACTIVATION_TIMEOUT -/
  | activationTimeout
  /-- GET_VERSION -/
  | spdmGetVersion (tr : Transport)
  /-- GET_CAPABILITIES -/
  | spdmGetCapabilities (tr : Transport)
  /-- NEGOTIATE_ALGORITHMS -/
  | spdmNegotiateAlgorithms (tr : Transport) (offered : List Nat)
  /-- GET_DIGESTS -/
  | spdmGetDigests (tr : Transport)
  /-- GET_CERTIFICATE -/
  | spdmGetCertificate (tr : Transport) (slot : Nat) (off : Nat) (len : Nat)
  /-- CHALLENGE -/
  | spdmChallenge (tr : Transport) (slot : Nat) (nonce : Nat)
  /-- GET_MEASUREMENTS -/
  | spdmGetMeasurements (tr : Transport) (index : Nat) (signed : Bool) (nonce : Nat)
  /-- KEY_EXCHANGE -/
  | spdmKeyExchange (tr : Transport) (nonce : Nat)
  /-- FINISH -/
  | spdmFinish (tr : Transport) (proof : Bool)
  /-- HEARTBEAT -/
  | spdmHeartbeat (tr : Transport)
  /-- KEY_UPDATE -/
  | spdmKeyUpdate (tr : Transport)
  /-- END_SESSION -/
  | spdmEndSession (tr : Transport)
  /-- IDE_KM -/
  | ideKm (tr : Transport)
  /-- QUERYDEVICEIDENTIFIERS -/
  | pldmQueryDeviceIdentifiers
  /-- GETFIRMWAREPARAMETERS -/
  | pldmGetFirmwareParameters
  /-- REQUESTUPDATE -/
  | pldmRequestUpdate
  /-- PASSCOMPONENTTABLE -/
  | pldmPassComponentTable (manifest : List Byte)
  /-- UPDATECOMPONENT -/
  | pldmUpdateComponent (comp : Nat)
  /-- REQUESTFIRMWAREDATA -/
  | pldmRequestFirmwareData (bytes : List Byte)
  /-- TRANSFERCOMPLETE -/
  | pldmTransferComplete
  /-- VERIFYCOMPLETE -/
  | pldmVerifyComplete
  /-- APPLYCOMPLETE -/
  | pldmApplyComplete
  /-- ACTIVATEFIRMWARE -/
  | pldmActivateFirmware
  /-- GETSTATUS -/
  | pldmGetStatus
  /-- CANCELUPDATECOMPONENT -/
  | pldmCancelUpdateComponent
  /-- CANCELUPDATE -/
  | pldmCancelUpdate
  /-- MCTP_DISCOVERY -/
  | mctpDiscovery
  /-- CXL_LINK_DROP -/
  | cxlLinkDrop
  /-- CONFIGURATION_REQUEST -/
  | configurationRequest (reg : CfgReg) (write : Option (BitVec 32))
  /-- HOST_SNOOP -/
  | hostSnoop (line : Nat)
  /-- HUB_SERVICE_FAULT -/
  | hubServiceFault (b : Block)
  /-- POWER_TRANSITION_DONE -/
  | powerTransitionDone
  /-- MB_COMMAND_COMPLETE -/
  | mbCommandComplete
  /-- CABLE_PRESENCE_CHANGE -/
  | cablePresenceChange (port : Nat) (present : Bool)
  deriving DecidableEq, Repr

end Sys2Proof
end

