-- ==== Sys2Proof/WellFormed.lean ====
section
/-! DEFINITION. Well-formed commands: unit numbers that some variant of the module has (R9, R395), fields in the widths that the wire or
the register gives them (R263, R305, R306). A meaning that meets a command that is not well formed faults or ignores it; no statement
rests on one. -/

namespace Sys2Proof

/-- A block that R395 gives a page, or a compute die. -/
def Block.wf : Block → Bool
  | .port p => decide (p < 12)
  | .mem k => decide (k < 16)
  | .nwu d | .kln d | .die d => decide (d < 4)
  | .tsq t | .mxa t | .grn t | .opc t | .ftu t | .sieve t | .cpt t | .mrv t => decide (t < 64)
  | .pce t e => decide (t < 64 ∧ e < 2)
  | .module | .trn | .fma | .frt | .col | .frit | .qmu | .hif | .dbg | .mmc | .sec => true

/-- A part of the package. -/
def Part.wf : Part → Bool
  | .die d => decide (d < 4)
  | .stack k => decide (k < 16)
  | .hub => true

/-- A cell whose header fields fit the header of R263, with up to seven 16-byte units of data. -/
def FabCell.wf (c : FabCell) : Bool :=
  decide (c.domain < 2 ^ 16 ∧ c.typ < 16 ∧ c.vc < 4 ∧ c.dst < 4096 ∧ c.src < 4096 ∧ c.offset < 2 ^ 40 ∧ c.stream < 256 ∧
    c.offset % 16 = 0 ∧ c.seq < 2 ^ 16 ∧ c.hops < 64 ∧ c.status < 256 ∧ c.data.length ≤ 112)

/-- A collective control cell with its fields in width (R305). -/
def ColCtl.wf (m : ColCtl) : Bool :=
  decide (m.kind < 256 ∧ m.reason < 256 ∧ m.group < 1024 ∧ m.gen < 2 ^ 32 ∧ m.opseq < 2 ^ 32 ∧ m.modno < 4096)

/-- A frit message with its fields in width (R306). -/
def FritMsg.wf (m : FritMsg) : Bool :=
  decide (m.group < 1024 ∧ m.gen < 2 ^ 32 ∧ m.opseq < 2 ^ 32 ∧ m.nval ≤ 4 ∧ m.vals.length ≤ 4)

/-- A sample of at most four compute dies, sixteen stacks and the rails of R384. -/
def Sample.wf (x : Sample) : Bool := decide (x.dies.length ≤ 4 ∧ x.hbms.length ≤ 16 ∧ x.rails.length ≤ 56)

/-- A well-formed command. -/
def Instr.wf : Instr → Bool
  | .turnStart => true
  | .contextSwitchEnd tile => decide (tile < 64)
  | .p2ExitDone failed => failed.all Block.wf
  | .refreshSlotStart => true
  | .refreshSlotEnd => true
  | .guardBandStart => true
  | .beacon port _ _ _ _ => decide (port < 12)
  | .holdoverEntry => true
  | .lockLost => true
  | .trnLenWrite _ => true
  | .trnGuardWrite _ => true
  | .trnApplyWrite _ => true
  | .trnCtxbaseWrite _ => true
  | .trnWheelWrite i _ => decide (i < 64)
  | .trnWheelCtlWrite _ => true
  | .tsqPlanWrWrite tile _ => decide (tile < 64)
  | .planEntryIssue tile => decide (tile < 64)
  | .sweep tile => decide (tile < 64)
  | .sweepDone tile => decide (tile < 64)
  | .lookup tile => decide (tile < 64)
  | .lookupDone tile => decide (tile < 64)
  | .run tile => decide (tile < 64)
  | .halt tile core => decide (tile < 64) && decide (core < 32)
  | .addi tile core => decide (tile < 64) && decide (core < 32)
  | .alu tile core => decide (tile < 64) && decide (core < 32)
  | .lui tile core => decide (tile < 64) && decide (core < 32)
  | .ldx tile core => decide (tile < 64) && decide (core < 32)
  | .stx tile core => decide (tile < 64) && decide (core < 32)
  | .br tile core => decide (tile < 64) && decide (core < 32)
  | .csrr tile core => decide (tile < 64) && decide (core < 32)
  | .csrw tile core => decide (tile < 64) && decide (core < 32)
  | .vld tile core => decide (tile < 64) && decide (core < 32)
  | .vst tile core => decide (tile < 64) && decide (core < 32)
  | .vgath tile core => decide (tile < 64) && decide (core < 32)
  | .vscat tile core => decide (tile < 64) && decide (core < 32)
  | .vbcast tile core => decide (tile < 64) && decide (core < 32)
  | .vmovx tile core => decide (tile < 64) && decide (core < 32)
  | .plogic tile core => decide (tile < 64) && decide (core < 32)
  | .ptail tile core => decide (tile < 64) && decide (core < 32)
  | .pflg tile core => decide (tile < 64) && decide (core < 32)
  | .pcnt tile core => decide (tile < 64) && decide (core < 32)
  | .varith tile core => decide (tile < 64) && decide (core < 32)
  | .vfma tile core => decide (tile < 64) && decide (core < 32)
  | .vminmax tile core => decide (tile < 64) && decide (core < 32)
  | .vlogic tile core => decide (tile < 64) && decide (core < 32)
  | .vshift tile core => decide (tile < 64) && decide (core < 32)
  | .vdiv tile core => decide (tile < 64) && decide (core < 32)
  | .vcmp tile core => decide (tile < 64) && decide (core < 32)
  | .vsel tile core => decide (tile < 64) && decide (core < 32)
  | .vcvt tile core => decide (tile < 64) && decide (core < 32)
  | .vred tile core => decide (tile < 64) && decide (core < 32)
  | .vscan tile core => decide (tile < 64) && decide (core < 32)
  | .tscan tile core => decide (tile < 64) && decide (core < 32)
  | .tred tile core => decide (tile < 64) && decide (core < 32)
  | .tbar tile core => decide (tile < 64) && decide (core < 32)
  | .tileInstructionJoin tile core => decide (tile < 64) && decide (core < 32)
  | .ftuApply tile => decide (tile < 64)
  | .ftuApplyDone tile => decide (tile < 64)
  | .copy eng => decide (eng < 132)
  | .fill eng => decide (eng < 132)
  | .hdump eng => decide (eng < 132)
  | .hload eng => decide (eng < 132)
  | .copyStart eng => decide (eng < 132)
  | .sieveTake eng => decide (eng < 132)
  | .pcShareStart eng stack pc => decide (eng < 132) && decide (stack < 16) && decide (pc < 32)
  | .copyComplete eng => decide (eng < 132)
  | .sieveTwinWrite tile off _ => decide (tile < 64) && decide (off < 128)
  | .sieveTselWrite tile _ => decide (tile < 64)
  | .sieveCtlWrite tile _ => decide (tile < 64)
  | .tagDefault tile => decide (tile < 64)
  | .tagClrstat tile => decide (tile < 64)
  | .tagCold tile => decide (tile < 64)
  | .moduleStepApplyWrite p _ => decide (p < 8)
  | .nwuCtlWrite die _ => decide (die < 4)
  | .hclr die => decide (die < 4)
  | .kilnRun kiln tile => decide (kiln < 4) && (tile.all fun t => decide (t < 64))
  | .jobStart kiln => decide (kiln < 4)
  | .kEnd kiln => decide (kiln < 4)
  | .kImport kiln => decide (kiln < 4)
  | .importResume kiln => decide (kiln < 4)
  | .kExport kiln => decide (kiln < 4)
  | .kVop kiln => decide (kiln < 4)
  | .kDot kiln => decide (kiln < 4)
  | .kNorm kiln => decide (kiln < 4)
  | .kRecip kiln => decide (kiln < 4)
  | .kSload kiln => decide (kiln < 4)
  | .kSpmv kiln => decide (kiln < 4)
  | .kFact kiln => decide (kiln < 4)
  | .kSolve kiln => decide (kiln < 4)
  | .kLoop kiln => decide (kiln < 4)
  | .kEndloop kiln => decide (kiln < 4)
  | .kTest kiln => decide (kiln < 4)
  | .deadlineMiss kiln => decide (kiln < 4)
  | .kilnCommitDone kiln => decide (kiln < 4)
  | .klnRdyclrWrite kiln _ => decide (kiln < 4)
  | .kilnSoftReset kiln => decide (kiln < 4)
  | .neighbourHandshake port _ modno _ => decide (port < 12) && decide (modno < 4096)
  | .coordMessage port _ _ _ _ _ _ => decide (port < 12)
  | .cellForward port cell _ => decide (port < 12) && cell.wf
  | .cellWrite cell => cell.wf
  | .cellWriteEnd cell => cell.wf
  | .cellRead cell => cell.wf
  | .dataCell cell => cell.wf
  | .cellAck cell => cell.wf
  | .cellNack cell => cell.wf
  | .cellFadd cell => cell.wf
  | .cellFaddResult cell => cell.wf
  | .fecUncorrectable port => decide (port < 12)
  | .linkRetryRequest port _ _ => decide (port < 12)
  | .reorderGapTimeout src stream => decide (src < 4096) && decide (stream < 256)
  | .ackTimeout stream => decide (stream < 256)
  | .requestCreditGrant stream => decide (stream < 256)
  | .fetchAdd => true
  | .hubCopyItem n => decide (n < 4)
  | .colReduce tile => (tile.all fun t => decide (t < 64))
  | .colBcast tile => (tile.all fun t => decide (t < 64))
  | .colAllreduce tile => (tile.all fun t => decide (t < 64))
  | .colRedscat tile => (tile.all fun t => decide (t < 64))
  | .colAllgather tile => (tile.all fun t => decide (t < 64))
  | .colRingpass tile => (tile.all fun t => decide (t < 64))
  | .colFred tile => (tile.all fun t => decide (t < 64))
  | .colBarrier tile => (tile.all fun t => decide (t < 64))
  | .collectiveOpStart group => decide (group < 1024)
  | .finiteCheckDone group => decide (group < 1024)
  | .colOpen cell => cell.wf
  | .colReady cell => cell.wf
  | .colGrant cell => cell.wf
  | .colExcl cell => cell.wf
  | .colFail cell => cell.wf
  | .collData cell => cell.wf
  | .chunkAdmit depth => decide (depth < 4)
  | .chunkComplete group chunk => decide (group < 1024) && decide (chunk < 65536)
  | .collectiveDeadline group => decide (group < 1024)
  | .collectiveOpTimeout group => decide (group < 1024)
  | .fritUp src m => decide (src < 4096) && m.wf
  | .fritDown m => m.wf
  | .fritMiss group _ _ modno _ => decide (group < 1024) && decide (modno < 4096)
  | .fritReform group _ _ removed => decide (group < 1024) && (removed.all fun m => decide (m < 4096))
  | .fritFail group _ _ _ => decide (group < 1024)
  | .colGcmdWrite _ => true
  | .colPoolWrite _ => true
  | .colPoolApply => true
  | .cxlLinkUp _ _ _ _ => true
  | .linkRetrain _ _ _ => true
  | .perstAssert => true
  | .perstDeassert => true
  | .doeRequest _ => true
  | .windowEnqueue _ _ => true
  | .windowDequeue _ _ => true
  | .hdmRead _ _ => true
  | .hdmWrite _ _ => true
  | .birsp _ _ => true
  | .biTimeout _ => true
  | .ringDrain n => decide (n < 64)
  | .ringFill n _ => decide (n < 64)
  | .hifRingHeadWrite n _ => decide (n < 64)
  | .hifRingTailWrite n _ => decide (n < 64)
  | .msixNoticeEvent => true
  | .ideIntegrityFailure => true
  | .flr => true
  | .enqueue producer q _ => decide (producer < 78) && decide (q < 4096)
  | .dequeue consumer q bad => decide (consumer < 78) && decide (q < 4096) && (bad.all fun i => decide (i < 1048576))
  | .qDrop q => decide (q < 4096)
  | .qFlush q => decide (q < 4096)
  | .staleTimeout q => decide (q < 4096)
  | .qmuQtoWrite q _ => decide (q < 4096)
  | .qmuQcfgWrite q _ => decide (q < 4096)
  | .planEnq tile => decide (tile < 64)
  | .planEnqComplete tile => decide (tile < 64)
  | .coldReset => true
  | .stagePower _ => true
  | .stageMmc _ failed => decide (failed ≤ 2)
  | .stageSec _ fail => decide (fail ≤ 3)
  | .stageRails _ _ => true
  | .stageHub _ failed => failed.all Block.wf
  | .stageHbm _ failed => (failed.all fun k => decide (k < 16))
  | .stageCompute _ failed pairs => failed.all Block.wf && (pairs.all fun d => decide (d < 4))
  | .stageCxl _ => true
  | .stageFabric _ => true
  | .stageCoord _ => true
  | .stageLock _ => true
  | .fabricGo => true
  | .solo => true
  | .fabTimeout _ => true
  | .fenceRequest b => b.wf
  | .unfence b => b.wf
  | .selfTestDone b _ => b.wf
  | .railFault part => part.wf
  | .thermalTrip part => part.wf
  | .hbmPhyLoss stack => decide (stack < 16)
  | .d2dLinkFailure pair => decide (pair < 4)
  | .kResetRequest => true
  | .kResetEnd => true
  | .tResetRequest tile => decide (tile < 64)
  | .tResetEnd tile => decide (tile < 64)
  | .portSoftReset port => decide (port < 12)
  | .moduleResetCommand => true
  | .modulePwrWrite _ => true
  | .hotSwapOpen => true
  | .mmcSample x => x.wf
  | .blockEnableWrite _ _ => true
  | .registerWrite _ _ _ _ => true
  | .secBegin => true
  | .secData => true
  | .secVerify => true
  | .secActivate => true
  | .secCancel => true
  | .prepareAnswer comp _ => decide (comp < 7)
  | .activationTimeout => true
  | .spdmGetVersion _ => true
  | .spdmGetCapabilities _ => true
  | .spdmNegotiateAlgorithms _ _ => true
  | .spdmGetDigests _ => true
  | .spdmGetCertificate _ slot off len => decide (slot < 16) && decide (off < 65536) && decide (len < 65536)
  | .spdmChallenge _ slot _ => decide (slot < 16)
  | .spdmGetMeasurements _ index _ _ => decide (index < 256)
  | .spdmKeyExchange _ _ => true
  | .spdmFinish _ _ => true
  | .spdmHeartbeat _ => true
  | .spdmKeyUpdate _ => true
  | .spdmEndSession _ => true
  | .ideKm _ => true
  | .pldmQueryDeviceIdentifiers => true
  | .pldmGetFirmwareParameters => true
  | .pldmRequestUpdate => true
  | .pldmPassComponentTable _ => true
  | .pldmUpdateComponent comp => decide (comp < 7)
  | .pldmRequestFirmwareData _ => true
  | .pldmTransferComplete => true
  | .pldmVerifyComplete => true
  | .pldmApplyComplete => true
  | .pldmActivateFirmware => true
  | .pldmGetStatus => true
  | .pldmCancelUpdateComponent => true
  | .pldmCancelUpdate => true
  | .mctpDiscovery => true
  | .cxlLinkDrop => true
  | .configurationRequest _ _ => true
  | .hostSnoop _ => true
  | .hubServiceFault b => b.wf
  | .powerTransitionDone => true
  | .mbCommandComplete => true
  | .cablePresenceChange port _ => decide (port < 12)

end Sys2Proof
end

