-- ==== Sys2Proof/Decode.lean ====
section
/-! DEFINITION. The command that a word spells by the bits of the table: no row of spec/opcode_table.json gives bits, so
no word spells one. -/

namespace Sys2Proof

/-- The command of a word of nbits bits (none: the table gives no row any bits). -/
def decodeTableWord (_nbits _w : Nat) : Option Instr := none

end Sys2Proof
end

