-- ==== Sys2Proof/Machine/Flags.lean ====
section
/-! DEFINITION. The FLAGS bits (R404), the status codes (R401) and the source kinds (R402). -/

namespace Sys2Proof.Machine

/-- A set of FLAGS bits in the layout of R404. -/
abbrev Flags := BitVec 32

namespace Fl
def none : Flags := 0
def nanIn : Flags := 1
def inv : Flags := 2
def ovf : Flags := 4
def unf : Flags := 8
def inx : Flags := 0x10
def flushed : Flags := 0x20
def empty : Flags := 0x40
def clip : Flags := 0x80
def zeroRange : Flags := 0x100
def alnLoss : Flags := 0x200
def histCold : Flags := 0x400
def zeroRun : Flags := 0x800
def excluded : Flags := 0x1000
def stepSkew : Flags := 0x2000
def warmMismatch : Flags := 0x4000
def pivotSubst : Flags := 0x8000
def rangeSat : Flags := 0x10000
def watchAlarm : Flags := 0x20000
def retried : Flags := 0x40000
def groupReformed : Flags := 0x80000
def dz : Flags := 0x100000

/-- Whether any bit of g is set in f. -/
def has (f g : Flags) : Bool := (f &&& g) ≠ 0

/-- The flag set f if b, else the empty one. -/
def cond (b : Bool) (f : Flags) : Flags := if b then f else 0

/-- The OR of a list of flag sets. -/
def any (l : List Flags) : Flags := l.foldl (· ||| ·) 0
end Fl

-- STATUS codes (R401).
namespace St
def done : Nat := 0x00
def doneEmpty : Nat := 0x01
def doneDegraded : Nat := 0x02
def badDesc : Nat := 0x10
def badAddr : Nat := 0x11
def notPresent : Nat := 0x12
def turnOverrun : Nat := 0x20
def deadlineMiss : Nat := 0x21
def unreachable : Nat := 0x30
def linkDown : Nat := 0x31
def dropped : Nat := 0x32
def abandoned : Nat := 0x40
def groupReformed : Nat := 0x41
end St

-- SRC_KIND codes (R402).
namespace Sk
def mxa : Nat := 0x1
def grn : Nat := 0x2
def pce : Nat := 0x3
def sieve : Nat := 0x4
def kln : Nat := 0x5
def col : Nat := 0x6
def frit : Nat := 0x7
def qmu : Nat := 0x8
def hif : Nat := 0x9
def nwu : Nat := 0xA
def trn : Nat := 0xB
def cpt : Nat := 0xC
def mmc : Nat := 0xD
def sec : Nat := 0xE
end Sk

end Sys2Proof.Machine
end

