-- ==== Sys2Proof/Machine/Num.lean ====
section
/-! DEFINITION. Number formats and special values (03_number_formats.md): the five floating-point formats,
their decoding and rounding, exact sums and products, integer and fixed-point narrowing. A finite value is
(-1)^neg * m * 2^e with a natural m and an integer e. -/

namespace Sys2Proof.Machine

/-- A decoded floating-point value (R42). -/
inductive Fp where
  | nan (sig : Bool)
  | inf (neg : Bool)
  | fin (neg : Bool) (m : Nat) (e : Int)
  deriving DecidableEq, Repr

/-- The parameters of a format (R42). -/
structure Fmt where
  eb : Nat
  mb : Nat
  bias : Int
  e4 : Bool
  deriving DecidableEq, Repr

def fp64 : Fmt := ⟨11, 52, 1023, false⟩
def fp32 : Fmt := ⟨8, 23, 127, false⟩
def bf16 : Fmt := ⟨8, 7, 127, false⟩
def e4m3 : Fmt := ⟨4, 3, 7, true⟩
def e5m2 : Fmt := ⟨5, 2, 15, false⟩

/-- Bits of an element. -/
def Fmt.width (f : Fmt) : Nat := 1 + f.eb + f.mb
/-- Whether the format is one of the two 8-bit formats. -/
def Fmt.is8 (f : Fmt) : Bool := f.width == 8
/-- The exponent of the least subnormal step. -/
def Fmt.minExp (f : Fmt) : Int := 1 - f.bias - f.mb
/-- The code of the largest finite magnitude (R42). -/
def Fmt.maxCode (f : Fmt) : Nat :=
  if f.e4 then 2 ^ (f.eb + f.mb) - 2 else 2 ^ (f.eb + f.mb) - 2 ^ f.mb - 1
/-- The code of the positive infinity; E4M3 has none (R42). -/
def Fmt.infCode (f : Fmt) : Nat := 2 ^ (f.eb + f.mb) - 2 ^ f.mb
/-- The canonical quiet NaN (R44). -/
def Fmt.nanCode (f : Fmt) : Nat :=
  if f.is8 then 0x7F else f.infCode + 2 ^ (f.mb - 1)
/-- The sign bit of the format at its place. -/
def Fmt.signed (f : Fmt) (neg : Bool) (mag : Nat) : Nat := if neg then 2 ^ (f.eb + f.mb) + mag else mag

/-- The value of a code (R42, R43). -/
def Fmt.decode (f : Fmt) (n : Nat) : Fp :=
  let neg := n.testBit (f.eb + f.mb)
  let ex := bits n (f.eb + f.mb - 1) f.mb
  let m := n % 2 ^ f.mb
  if f.e4 ∧ ex = 2 ^ f.eb - 1 ∧ m = 2 ^ f.mb - 1 then .nan false
  else if ¬ f.e4 ∧ ex = 2 ^ f.eb - 1 then
    (if m = 0 then .inf neg else .nan (¬ f.is8 ∧ ¬ m.testBit (f.mb - 1)))
  else if ex = 0 then .fin neg m f.minExp
  else .fin neg (2 ^ f.mb + m) (ex - f.bias - f.mb)

/-- Whether a code is a nonzero subnormal. -/
def Fmt.isSub (f : Fmt) (n : Nat) : Bool := bits n (f.eb + f.mb - 1) f.mb = 0 ∧ n % 2 ^ f.mb ≠ 0

/-- The flags that reading a value as an operand sets: NAN_IN for a NaN, INV too for a signalling one (R44). -/
def Fp.inFlags : Fp → Flags
  | .nan true => Fl.nanIn ||| Fl.inv
  | .nan false => Fl.nanIn
  | _ => 0

def Fp.isNan : Fp → Bool | .nan _ => true | _ => false
def Fp.isSig : Fp → Bool | .nan s => s | _ => false
def Fp.isInf : Fp → Bool | .inf _ => true | _ => false
def Fp.isFin : Fp → Bool | .fin .. => true | _ => false
def Fp.isZero : Fp → Bool | .fin _ m _ => m = 0 | _ => false
def Fp.neg? : Fp → Bool | .nan _ => false | .inf n => n | .fin n _ _ => n
def Fp.negate : Fp → Fp | .nan s => .nan s | .inf n => .inf !n | .fin n m e => .fin (!n) m e

/-- Rounding modes (R59, R60) and stochastic rounding with its 24-bit draw (R61). -/
inductive Rm where
  | rne | rtz | rdn | rup
  | sr (r : Nat)
  deriving DecidableEq, Repr

/-- TILE_NUM.RM (R59). -/
def Rm.ofCode : Nat → Rm
  | 0 => .rne | 1 => .rtz | 2 => .rdn | _ => .rup

/-- m * 2^e in units of 2^u, rounded to a natural number; the second component says whether it was inexact. -/
def roundUnits (rm : Rm) (neg : Bool) (m : Nat) (e u : Int) : Nat × Bool :=
  if u ≤ e then (m <<< (e - u).toNat, false)
  else
    let d := (u - e).toNat
    let q := m >>> d
    let r := m % 2 ^ d
    if r = 0 then (q, false)
    else
      let up : Bool := match rm with
        | .rne => 2 * r > 2 ^ d ∨ (2 * r = 2 ^ d ∧ q % 2 = 1)
        | .rtz => false
        | .rdn => neg
        | .rup => !neg
        | .sr x => 2 ^ 24 * r + x * 2 ^ d ≥ 2 ^ (d + 24)
      (if up then q + 1 else q, true)

/-- A rounded magnitude with the conditions of R54, R58 and R62. -/
structure Rounded where
  /-- magnitude code when neither overflowed nor flushed -/
  code : Nat
  /-- the rounded magnitude, with unbounded exponent, exceeds the largest finite value -/
  ovr : Bool
  /-- nonzero and below the least normal after rounding with unbounded exponent -/
  tiny : Bool
  inexact : Bool
  deriving DecidableEq, Repr

/-- Round a finite nonzero magnitude to a format. -/
def Fmt.roundMag (f : Fmt) (rm : Rm) (neg : Bool) (m : Nat) (e : Int) : Rounded :=
  if m = 0 then ⟨0, false, false, false⟩ else
  let top : Int := e + m.log2
  let uFree : Int := top - f.mb
  let free := roundUnits rm neg m e uFree
  -- exponent of the leading bit after the free rounding
  let topFree : Int := uFree + free.1.log2
  let tiny : Bool := topFree < 1 - f.bias
  let u : Int := max uFree f.minExp
  let r := roundUnits rm neg m e u
  let code :=
    if r.1 < 2 ^ f.mb then r.1
    else
      let t := r.1.log2
      let ex : Int := u + t + f.bias
      let mant := (r.1 >>> (t - f.mb)) % 2 ^ f.mb
      ex.toNat * 2 ^ f.mb + mant
  let ovr : Bool := topFree > (2 ^ f.eb : Int) - f.bias ∨ (code > f.maxCode)
  ⟨code, ovr, tiny, r.2⟩

/-- The result of an operation: a code and its flags. -/
abbrev FpRes := Nat × Flags

/-- Overflow result of FP64, FP32 and BF16: infinity, or max finite under directed rounding toward zero (R54). -/
def Fmt.overflowCode (f : Fmt) (rm : Rm) (neg : Bool) : Nat :=
  let toZero : Bool := match rm with
    | .rtz => true | .rdn => !neg | .rup => neg | _ => false
  f.signed neg (if toZero then f.maxCode else f.infCode)

/-- Round an exact value to FP64, FP32 or BF16 with the flags of R54 and R58. -/
def Fmt.roundFlags (f : Fmt) (rm : Rm) (ftz : Bool) (neg : Bool) (m : Nat) (e : Int) : FpRes :=
  if m = 0 then (f.signed neg 0, 0) else
  let r := f.roundMag rm neg m e
  if r.ovr then (f.overflowCode rm neg, Fl.ovf ||| Fl.inx)
  else if ftz ∧ r.tiny then (f.signed neg 0, Fl.flushed ||| Fl.unf ||| Fl.inx)
  else (f.signed neg r.code, Fl.cond (r.tiny ∧ r.inexact) Fl.unf ||| Fl.cond r.inexact Fl.inx)

/-- Encode a value that is exactly representable (used for widening, R62). -/
def Fmt.encodeExact (f : Fmt) : Fp → Nat
  | .nan _ => f.nanCode
  | .inf n => f.signed n f.infCode
  | .fin n m e => f.signed n (f.roundMag .rtz n m e).code

/-- Flush a subnormal input under FTZ (R57, R58). -/
def Fmt.flushIn (f : Fmt) (ftz : Bool) (n : Nat) : Nat × Flags :=
  if ftz ∧ f.isSub n then (f.signed (n.testBit (f.eb + f.mb)) 0, Fl.flushed) else (n, 0)

/-! Exact sums. -/

/-- A dyadic rational n * 2^e. -/
structure Dy where
  n : Int
  e : Int
  deriving DecidableEq, Repr

def Dy.zero : Dy := ⟨0, 0⟩
/-- The integer of d in units of 2^u, for u at or below d's exponent. -/
def Dy.at (d : Dy) (u : Int) : Int := d.n * (2 ^ (d.e - u).toNat : Nat)
/-- Exact sum. -/
def Dy.add (a b : Dy) : Dy :=
  if a.n = 0 then b else if b.n = 0 then a else
  let u := min a.e b.e
  ⟨a.at u + b.at u, u⟩
def Dy.sub (a b : Dy) : Dy := a.add ⟨-b.n, b.e⟩
def Dy.mul (a b : Dy) : Dy := ⟨a.n * b.n, a.e + b.e⟩
def Dy.scale (a : Dy) (k : Int) : Dy := ⟨a.n, a.e + k⟩
def Dy.abs (a : Dy) : Dy := ⟨a.n.natAbs, a.e⟩
def Dy.lt (a b : Dy) : Bool := (a.sub b).n < 0
def Dy.le (a b : Dy) : Bool := (a.sub b).n ≤ 0
def Dy.sum (l : List Dy) : Dy := l.foldl Dy.add Dy.zero
/-- The value of a finite Fp (0 for the others). -/
def Fp.dy : Fp → Dy
  | .fin n m e => ⟨if n then -(m : Int) else m, e⟩
  | _ => Dy.zero
/-- A dyadic value as a finite Fp. -/
def Dy.fp (d : Dy) : Fp := .fin (d.n < 0) d.n.natAbs d.e
def maxDy (a b : Dy) : Dy := if a.lt b then b else a

/-- Round a dyadic value to FP64, FP32 or BF16; an exact zero gets the sign z. -/
def Fmt.roundDy (f : Fmt) (rm : Rm) (ftz : Bool) (z : Bool) (d : Dy) : FpRes :=
  if d.n = 0 then (f.signed z 0, 0) else f.roundFlags rm ftz (d.n < 0) d.n.natAbs d.e

/-- The sign of an exact zero sum of two nonzero values (R54): -0 under RDN. -/
def zeroSign (rm : Rm) : Bool := match rm with | .rdn => true | _ => false

/-! IEEE 754 operations with the special cases of R54. Operands are decoded values, already flushed. -/

/-- NaN result with the operands' flags. -/
def Fmt.nanRes (f : Fmt) (fl : Flags) : FpRes := (f.nanCode, fl)

def Fmt.add (f : Fmt) (rm : Rm) (ftz : Bool) (a b : Fp) : FpRes :=
  match a, b with
  | .fin na ma ea, .fin nb mb' eb' =>
    if ma = 0 ∧ mb' = 0 then (f.signed (if na = nb then na else zeroSign rm) 0, 0)
    else f.roundDy rm ftz (zeroSign rm) ((Fp.fin na ma ea).dy.add (Fp.fin nb mb' eb').dy)
  | .nan _, _ => f.nanRes (a.inFlags ||| b.inFlags)
  | _, .nan _ => f.nanRes (a.inFlags ||| b.inFlags)
  | .inf na, .inf nb => if na = nb then (f.signed na f.infCode, 0) else f.nanRes Fl.inv
  | .inf na, _ => (f.signed na f.infCode, 0)
  | _, .inf nb => (f.signed nb f.infCode, 0)

def Fmt.sub (f : Fmt) (rm : Rm) (ftz : Bool) (a b : Fp) : FpRes := f.add rm ftz a b.negate

/-- The exact product of two values: a value, or the invalid 0 times infinity. -/
def Fp.mulExact (a b : Fp) : Fp × Flags :=
  match a, b with
  | .fin na ma ea, .fin nb mb eb => (.fin (na != nb) (ma * mb) (ea + eb), 0)
  | .nan _, _ => (.nan false, a.inFlags ||| b.inFlags)
  | _, .nan _ => (.nan false, a.inFlags ||| b.inFlags)
  | .inf na, .inf nb => (.inf (na != nb), 0)
  | .inf na, .fin nb m _ => if m = 0 then (.nan false, Fl.inv) else (.inf (na != nb), 0)
  | .fin na m _, .inf nb => if m = 0 then (.nan false, Fl.inv) else (.inf (na != nb), 0)

/-- Write a value in a format, rounding once; NaN and infinities by R54. -/
def Fmt.put (f : Fmt) (rm : Rm) (ftz : Bool) : Fp → FpRes
  | .nan _ => (f.nanCode, 0)
  | .inf n => (f.signed n f.infCode, 0)
  | .fin n m e => f.roundFlags rm ftz n m e

def Fmt.mul (f : Fmt) (rm : Rm) (ftz : Bool) (a b : Fp) : FpRes :=
  let p := a.mulExact b
  let r := f.put rm ftz p.1
  (r.1, r.2 ||| p.2)

/-- a * b + c with one rounding. -/
def Fmt.fma (f : Fmt) (rm : Rm) (ftz : Bool) (a b c : Fp) : FpRes :=
  let p := a.mulExact b
  let r := f.add rm ftz p.1 c
  (r.1, (match p.1 with | .nan _ => p.2 ||| c.inFlags | _ => r.2) ||| p.2)

/-- a / b, correctly rounded: the quotient is formed with enough bits and a sticky bit. -/
def Fmt.div (f : Fmt) (rm : Rm) (ftz : Bool) (a b : Fp) : FpRes :=
  match a, b with
  | .nan _, _ => f.nanRes (a.inFlags ||| b.inFlags)
  | _, .nan _ => f.nanRes (a.inFlags ||| b.inFlags)
  | .inf na, .inf _ => let _ := na; f.nanRes Fl.inv
  | .inf na, .fin nb _ _ => (f.signed (na != nb) f.infCode, 0)
  | .fin na _ _, .inf nb => (f.signed (na != nb) 0, 0)
  | .fin na ma ea, .fin nb mb' eb' =>
    if mb' = 0 then (if ma = 0 then f.nanRes Fl.inv else (f.signed (na != nb) f.infCode, Fl.dz))
    else if ma = 0 then (f.signed (na != nb) 0, 0)
    else
      let k := f.mb + 4 + mb'.log2 + 1
      let q := (ma <<< k) / mb'
      let st := if (ma <<< k) % mb' = 0 then 0 else 1
      f.roundFlags rm ftz (na != nb) (2 * q + st) (ea - eb' - k - 1)

/-- Square root of a natural number by fuelled bisection from the top bit: the largest r with r * r ≤ n. -/
def isqrtAux (n : Nat) : Nat → Nat → Nat
  | 0, r => r
  | k + 1, r =>
    let t := r + 2 ^ k
    isqrtAux n k (if t * t ≤ n then t else r)
def isqrt (n : Nat) : Nat := isqrtAux n (n.log2 / 2 + 1) 0

def Fmt.sqrt (f : Fmt) (rm : Rm) (ftz : Bool) : Fp → FpRes
  | .nan s => f.nanRes (Fp.nan s).inFlags
  | .inf true => f.nanRes Fl.inv
  | .inf false => (f.infCode, 0)
  | .fin n m e =>
    if m = 0 then (f.signed n 0, 0)
    else if n then f.nanRes Fl.inv
    else
      -- an even exponent and at least 2 (mb + 3) bits before the root
      let k0 := 2 * (f.mb + 4)
      let k := if (e - k0) % 2 = 0 then k0 else k0 + 1
      let m' := m <<< k
      let r := isqrt m'
      let st := if r * r = m' then 0 else 1
      f.roundFlags rm ftz false (2 * r + st) ((e - k) / 2 - 1)

/-- Order of values for max and min: -0 below +0 (R55). -/
def Fp.below (a b : Fp) : Bool :=
  match a, b with
  | .inf true, .inf true => false
  | .inf true, _ => true
  | _, .inf true => false
  | .inf false, _ => false
  | _, .inf false => true
  | .fin na ma _, .fin nb mb _ =>
    if ma = 0 ∧ mb = 0 then na && !nb else a.dy.lt b.dy
  | _, _ => false

/-- max (or min) of two codes of one format (R55). -/
def Fmt.maxMin (f : Fmt) (isMax : Bool) (a b : Nat) : FpRes :=
  let x := f.decode a
  let y := f.decode b
  if x.isNan ∨ y.isNan then (f.nanCode, x.inFlags ||| y.inFlags)
  else if isMax then (if x.below y then b else a, 0)
  else (if y.below x then b else a, 0)

/-! Conversions (R62, R63, R64). -/

/-- The overflow result of a narrowing to E4M3 or E5M2: saturate or the NaN / infinity option (R59, R62). -/
def Fmt.over8 (f : Fmt) (opt : Bool) (neg : Bool) : FpRes :=
  if opt then (if f.e4 then (f.nanCode, Fl.ovf) else (f.signed neg f.infCode, Fl.ovf ||| Fl.inx))
  else (f.signed neg f.maxCode, Fl.clip ||| Fl.inx)

/-- Narrow a value to E4M3 or E5M2, after an exact scale 2^k (R62, R63). UNF comes with a result that becomes zero, which R63 names; a tiny inexact
result that stays nonzero, for which R62's rows list no UNF and R58 would set it, sets INX alone (the model's choice, log entry 24). -/
def Fmt.narrow8 (f : Fmt) (rm : Rm) (opt : Bool) (k : Int) : Fp → FpRes
  | .nan s => (f.nanCode, (Fp.nan s).inFlags)
  | .inf n => if f.e4 then (f.nanCode, Fl.inv) else (f.signed n f.infCode, 0)
  | .fin n m e =>
    if m = 0 then (f.signed n 0, 0) else
    let r := f.roundMag rm n m (e + k)
    if r.ovr then f.over8 opt n
    else (f.signed n r.code, Fl.cond (r.code = 0) Fl.unf ||| Fl.cond r.inexact Fl.inx)

/-- Narrow a value to INT8 after an exact scale 2^k: to ±127, or to -128 .. 127 when affine (R62). -/
def narrowI8 (rm : Rm) (affine : Bool) (k : Int) : Fp → FpRes
  | .nan s => (0, (Fp.nan s).inFlags ||| Fl.nanIn ||| Fl.inv)
  | .inf n => (if n then (if affine then 0x80 else 0x81) else 0x7F, Fl.inv)
  | .fin n m e =>
    let r := roundUnits rm n m (e + k) 0
    let lim := if n ∧ affine then 128 else 127
    if r.1 > lim then (ofSigned 8 (if n then -(lim : Int) else lim), Fl.clip)
    else (ofSigned 8 (if n then -(r.1 : Int) else r.1), Fl.cond r.2 Fl.inx)

/-- Narrow a dyadic value to a w-bit two's complement integer by RNE in units of 2^u; beyond the range the extreme
and RANGE_SAT (R53). -/
def narrowFix (w : Nat) (u : Int) (d : Dy) : Int × Bool :=
  let r := (roundUnits .rne (d.n < 0) d.n.natAbs d.e u).1
  let v : Int := if d.n < 0 then -(r : Int) else r
  let hi : Int := (2 ^ (w - 1) : Nat) - 1
  let lo : Int := -((2 ^ (w - 1) : Nat) : Int)
  if v > hi then (hi, true) else if v < lo then (lo, true) else (v, false)

/-! The counter-based generator of stochastic rounding (R61). -/

/-- sr_draw of R61: 24 bits from tag, step, block and element. -/
def srDraw (tag step block elem : Nat) : Nat :=
  let m := 2 ^ 64
  let k := step % 2 ^ 32 * 2 ^ 32 + tag % 2 ^ 32
  let c := block % 2 ^ 32 * 2 ^ 12 + elem % 4096
  let z := k ^^^ (c * 0x9E3779B97F4A7C15 % m)
  let z := (z ^^^ (z >>> 30)) * 0xBF58476D1CE4E5B9 % m
  let z := (z ^^^ (z >>> 27)) * 0x94D049BB133111EB % m
  let z := z ^^^ (z >>> 31)
  z >>> 40

/-- The block scale S8: its exponent, or none for the invalid code 0xFF (R46). -/
def s8Exp (e : Nat) : Option Int := if e = 0xFF then none else some ((e : Int) - 127)

/-- The value of a narrow floating element under a block scale (R46, R48, T = 1). -/
def Fp.scaled (x : Fp) (s8 : Nat) : Fp :=
  match s8Exp s8 with
  | none => .nan false
  | some k => match x with
    | .fin n m e => .fin n m (e + k)
    | y => y

/-- The value of an integer as a finite Fp. -/
def Fp.ofInt (i : Int) (e : Int) : Fp := .fin (i < 0) i.natAbs e

/-- A quiet or signalling 1.0. -/
def Fp.one : Fp := .fin false 1 0

end Sys2Proof.Machine
end

