-- ==== Sys2Proof/Config.lean ====
section
/-! DEFINITION. What an implementation fixes, and the free values: constants without a body for every value
the spec leaves open. A claim that mentions one holds whatever it is. -/

namespace Sys2Proof

/-- The ordering code (R2). -/
inductive Variant where
  | f | l | s
  deriving DecidableEq, Repr

namespace Config

/-- What a byte of HBM that nothing has written since a class C or M reset or P3 reads as (R364: left open, and it
may differ from one read to the next, so the first argument is the model's event count). UNVERIFIED, log entry 1. -/
opaque freeHbm : Nat → Nat → BitVec 8

/-- By how many units in the last place an FTU value lies off the correctly rounded one (R141 fixes only a bound): function
number, derivative, the input's FP32 bits, and 0 (FP32) or 1 (BF16). The model uses it only within the bound of R141. With 2 or 3 it is a
derivative at -0 that R142 does not state, with 4 or 5 the sign of a zero for a negative value. Log entry 2. -/
opaque ftuSlip : Nat → Bool → Nat → Nat → Nat

/-- Grain results that R129, R132 give no value for: what (0 absolute value of the most negative integer, 1 ALU shift by
64 or more, 2 bits of x above a VMOVX element, 3 conversion to an integer type beyond its range or of a NaN or infinity,
4 its flags), the event count, the element. Log entry 9. -/
opaque grainOpen : Nat → Nat → Nat → Nat

/-- A value that a malformed kiln pattern makes a word write (R227: left open): event count and value index. Log entry 4. -/
opaque kilnOpen : Nat → Nat → Nat

/-- ECDSA P-384 verification (R371): public key, digest, signature. Log entry 7. -/
opaque ecdsaVerify : List Byte → Nat → List Byte → Bool

/-- The SHA-384 of the primary (0) and the backup (1) signing key in the SEC ROM (R371). Log entry 7. -/
opaque romKey : Nat → Nat

/-- SHA-384 (R366, R368, R372): an uninterpreted function of the bytes. Log entry 7. -/
opaque sha384 : List Byte → Nat

/-- The 384-bit seed of the physical unclonable function (R366). Log entry 7. -/
opaque pufSeed : Nat

/-- The DeviceID private key of a seed (R366). -/
opaque deviceIdKey : Nat → Nat

/-- The Alias private key of a seed and the measurement of the SEC image (R366). -/
opaque aliasKey : Nat → Nat → Nat

/-- The public key of a private key, X then Y. -/
opaque publicKey : Nat → List Byte

/-- An ECDSA signature: private key, digest. -/
opaque ecdsaSign : Nat → Nat → Nat

/-- The certificates of the Beyvon root CA and device CA (R367). -/
opaque rootCert : List Byte
opaque deviceCaCert : List Byte

/-- The DeviceID certificate, made at manufacture (R366, R367): serial number, public key. -/
opaque deviceIdCert : List Byte → List Byte → List Byte

/-- The Alias certificate (R366): signing DeviceID key, Alias public key. -/
opaque aliasCert : Nat → List Byte → List Byte

/-- The authentication code of a bank record (R370): seed, record bytes. -/
opaque recordCode : Nat → List Byte → Nat

/-- The code in the bank record as delivered. -/
opaque factoryCode : Nat

/-- The flash image of a component as delivered (R370): component number to bytes. Log entry 6. -/
opaque factoryImage : Nat → List Byte

/-- The manifest of the set of images as delivered (R371). Log entry 6. -/
opaque factoryManifest : List Byte

/-- The version of the module description record (MODULE_VARIANT.REC_VER, R15). Log entry 6. -/
opaque recordVersion : Nat

/-- The module description record of a variant (R15): the spec gives its contents and no layout. Log entry 6. -/
opaque moduleRecord : Variant → List Byte

/-- The static I3C address that SLOT_ID sets (R392 gives no mapping). Log entry 28. -/
opaque i3cAddress : Nat → Nat

/-- Lines that the snoop filter of the host interface holds (R320 gives no number). -/
opaque snoopLines : Nat

/-- Latencies and bandwidths (0 and 1 read and write latency, 2 and 3 bandwidth) of the DSLBIS entries of a stack in the CDAT: R316 names
the entries and gives no numbers (log entry 28). -/
opaque dslbis : Nat → Nat → Nat

/-- Bits of the CXL device DVSEC's capability register that R311 does not fix (log entry 28). -/
opaque dvsecBits : Nat

/-- Words of the CXL DVSECs by DVSEC ID and word (R316): their reset contents, and the bits that a write sets (log entry 28). -/
opaque dvsecWord : Nat → Nat → Nat
opaque dvsecWritable : Nat → Nat → Nat

/-- Other open values, by the event count and a number: 1 and 2 how far the word in progress of a stopped kiln job got, and whether its
flags count (log entry 14), 3 and 4 the responder's SPDM nonce and its DHE share (log entry 7). -/
opaque freeNat : Nat → Nat → Nat

end Config
end Sys2Proof
end

