-- ==== Sys2Proof/Machine/Tab.lean ====
section
/-! DEFINITION. Sparse tables: a list of (key, value) pairs in one canonical form, keys strictly rising and no
entry equal to what an unlisted key reads as. Memory, registers and every per-unit table of State are such lists. -/

namespace Sys2Proof.Machine

/-- The listed value of a key. -/
def Tab.find {α : Type} : List (Nat × α) → Nat → Option α
  | [], _ => none
  | (k, v) :: t, a => if a = k then some v else Tab.find t a

/-- The value of a key, d where it is not listed. -/
def Tab.get {α : Type} (d : α) (t : List (Nat × α)) (a : Nat) : α := (Tab.find t a).getD d

/-- Listing a value at its place. -/
def Tab.insert {α : Type} : List (Nat × α) → Nat → α → List (Nat × α)
  | [], a, v => [(a, v)]
  | (k, w) :: t, a, v =>
    if a = k then (k, v) :: t
    else if a < k then (a, v) :: (k, w) :: t
    else (k, w) :: Tab.insert t a v

/-- Removing a key. -/
def Tab.erase {α : Type} (t : List (Nat × α)) (a : Nat) : List (Nat × α) := t.filter fun e => decide (e.1 ≠ a)

/-- Writing a value: listed unless it is the default d. -/
def Tab.put {α : Type} [DecidableEq α] (d : α) (t : List (Nat × α)) (a : Nat) (v : α) : List (Nat × α) :=
  if v = d then Tab.erase t a else Tab.insert t a v

/-- Changing the value of a key. -/
def Tab.upd {α : Type} [DecidableEq α] (d : α) (t : List (Nat × α)) (a : Nat) (f : α → α) : List (Nat × α) :=
  Tab.put d t a (f (Tab.get d t a))

/-- Keys strictly rising, all at least lo. -/
def Tab.risingFrom {α : Type} : Nat → List (Nat × α) → Bool
  | _, [] => true
  | lo, (k, _) :: t => decide (lo ≤ k) && Tab.risingFrom (k + 1) t

/-- The canonical form against a default d. -/
def Tab.wf {α : Type} [DecidableEq α] (d : α) (t : List (Nat × α)) : Bool :=
  Tab.risingFrom 0 t && t.all (fun p => p.2 ≠ d)

/-- The entries whose key satisfies p. -/
def Tab.keep {α : Type} (p : Nat → Bool) (t : List (Nat × α)) : List (Nat × α) := t.filter fun e => p e.1

end Sys2Proof.Machine
end

