-- ==== Sys2Proof/Machine/State.lean ====
section
/-! DEFINITION. The state of the module, as plain data: the clock, the queue of commands, memory, registers, and
for every unit what it holds between two commands; the reasons a command can stop; the state at reset. Registers are
a sparse table of fields (Fld); what a register shows of other state is computed on a read and is not stored. -/

namespace Sys2Proof.Machine

/-- A register field: BAR0 address of its register, low bit, width, reset value. -/
structure Fld where
  addr : Nat
  lo : Nat
  wid : Nat
  rst : Nat
  deriving DecidableEq, Repr

/-! Messages to the outside, oldest first. -/

/-- What the module sends out. -/
inductive Out where
  /-- a fabric cell that leaves by a port in a clock cycle -/
  | cell (port : Nat) (c : FabCell) (at_ : Nat)
  /-- a link control message on a port: 0 handshake, 1 coordinates, 2 retry request -/
  | link (port kind : Nat) (fields : List Nat)
  /-- data returned to the host; poison marks a failed read -/
  | hostData (bytes : List Byte) (poison : Bool)
  /-- a write into host memory -/
  | hostWrite (addr : Nat) (bytes : List Byte)
  /-- a back-invalidate snoop of a 64-byte line -/
  | biSnoop (line : Nat)
  /-- an MSI-X message of a vector: the address and data of its table entry -/
  | msix (vec addr data : Nat)
  /-- a dequeued cell delivered to a consumer: payload and data word -/
  | dequeued (consumer : Nat) (payload : List Byte) (word : Nat)
  /-- an answer on a protocol: 0 SPDM, 1 PLDM, 2 MCTP, 3 DOE, 4 configuration, 5 IDE, 6 BAR0 (Unsupported Request) -/
  | reply (proto code : Nat) (fields : List Nat)
  deriving DecidableEq, Repr

/-! The tile sequencer and the units of a tile. -/

/-- A descriptor that the TSQ has issued and its unit has not yet taken (R26): UNIT, Marver address, TAG, cycle. -/
structure Issue where
  unit : Nat
  desc : Nat
  tag : Nat
  cyc : Nat
  deriving DecidableEq, Repr

/-- A held bank or file (R79, R111): what a continuing descriptor must match. -/
structure Held where
  family : Nat
  rows : Nat
  cols : Nat
  deriving DecidableEq, Repr

/-- A sweep from acceptance to posting (R69, R84 to R87). -/
structure Sweep where
  desc : List Byte
  /-- Marver offset of its descriptor -/
  place : Nat
  tag : Nat
  /-- clock cycle of acceptance -/
  acc : Nat
  /-- clock cycle in which step 0 enters the array edge -/
  edge : Nat
  /-- TILE_NUM at acceptance (R78) -/
  num : Nat
  /-- brick index at which its chain began (R214) -/
  chain : Nat
  /-- clock cycles in which one of its Marver accesses has lost the arbitration, rising (R87, R150) -/
  lost : List Nat
  /-- clock cycle after the last step, and after the last readout write, of the sweeps ahead of it that have left -/
  after : Nat
  outAfter : Nat
  /-- clock cycle after the last write cycle of each output brick, in readout order (R85) -/
  ends : List Nat
  /-- clock cycle of posting -/
  due : Nat
  /-- bank that it accumulates in, and the held partial that MXA_STATE shows while it runs (R79) -/
  bank : Nat
  held0 : Option Held
  /-- output bricks written so far, and the steps that MXA_ACTIVE has counted of it (R82, R91) -/
  written : Nat
  steps : Nat
  /-- operand bricks that another unit has overwritten after the loader read them (R412): brick key, old bytes -/
  snap : List (Nat × List Byte)
  deriving DecidableEq, Repr

/-- A CPT operation from acceptance to posting (R108, R114). -/
structure Lookup where
  desc : List Byte
  /-- Marver offset of its descriptor -/
  place : Nat
  tag : Nat
  acc : Nat
  /-- clock cycle of its first lookup, and of its last one -/
  first : Nat
  last : Nat
  num : Nat
  /-- lost Marver cycles, as in a sweep, and the clock cycle after the last lookup of the operations ahead of it that have left -/
  lost : List Nat
  after : Nat
  ends : List Nat
  due : Nat
  /-- file that it accumulates in, and the held file that CPT_STATE shows while it runs (R111) -/
  file : Nat
  held0 : Option Held
  /-- output bricks written so far, and the lookups that CPT_LOOKUPS has counted of it -/
  written : Nat
  looked : Nat
  snap : List (Nat × List Byte)
  deriving DecidableEq, Repr

/-- An FTU operation (R143, R145). -/
structure Apply where
  desc : List Byte
  /-- Marver offset of its descriptor -/
  place : Nat
  tag : Nat
  acc : Nat
  num : Nat
  /-- lost Marver cycles, as in a sweep -/
  lost : List Nat
  /-- output bricks written so far, their flags and their non-finite elements -/
  written : Nat
  flags : Flags
  nonfin : Nat
  snap : List (Nat × List Byte)
  deriving DecidableEq, Repr

/-- A share of a stream on one pseudo-channel (R155, R156). -/
structure Share where
  /-- 0 source stream, 1 destination stream, 2 present-tensor pass -/
  side : Nat
  stack : Nat
  pc : Nat
  /-- 64-byte chunks -/
  chunks : Nat
  /-- clock cycle from which its schedule counts where nothing holds the pseudo-channel -/
  base : Nat
  /-- clock cycle in which its request reaches the controller -/
  arrive : Nat
  /-- it has been seen to start after the hold ahead of it (PC_SHARE_START) -/
  started : Bool
  deriving DecidableEq, Repr

/-- A request as a pseudo-channel has it (R155): the requester is an engine by STREAM number, 132 for the COL (DEDUCED, log entry 15), or 256
for host HDM. -/
structure PcReq where
  arrive : Nat
  who : Nat
  side : Nat
  base : Nat
  chunks : Nat
  deriving DecidableEq, Repr

/-- A fault of a grain member (R126). -/
structure GFault where
  status : Nat
  core : Nat
  pc : Nat
  cyc : Nat
  deriving DecidableEq, Repr

/-- A running grain dispatch (R123 to R127). -/
structure Dispatch where
  tag : Nat
  acc : Nat
  /-- Marver offset of its descriptor, and the cycles that its read has lost (R150) -/
  place : Nat
  late : Nat
  /-- member cores, rising -/
  cores : List Nat
  /-- members that have not finished -/
  live : List Nat
  /-- retired stores of its members -/
  stores : Nat
  stall : Nat
  flags : Flags
  gfault : Option GFault
  /-- latest clock cycle at which a member finished -/
  lastEnd : Nat
  num : Nat
  /-- cycles that its present tile instruction has waited for the scan network, as counted (R137) -/
  waited : Nat
  deriving DecidableEq, Repr

/-- A memory instruction of a grain core whose slices still go to the operand cache (R122, R138). -/
structure OpcAcc where
  core : Nat
  /-- clock cycle in which its next slice asks -/
  cyc : Nat
  /-- for each slice still to come the 16-byte word of OPC that it asks for, if any, and the keys of the registers that come with it -/
  slices : List (Option Nat × List Nat)
  /-- the next instruction of the core waits for it -/
  holds : Bool
  deriving DecidableEq, Repr

/-- A staged write to the tag table (R190): tag, and either bytes at an offset or a command 0 COLD, 1 CLRSTAT, 2 DEFAULT. -/
inductive TagWrite where
  | bytes (tag off : Nat) (b : List Byte)
  | cmd (tag c : Nat)
  deriving DecidableEq, Repr

/-- A tile. -/
structure Tile where
  /-- issued descriptors not yet taken by their units -/
  issued : List Issue
  /-- the tile runs its plan in this turn (R34) -/
  running : Bool
  /-- END of the turn's plan has been reached (R27) -/
  ended : Bool
  /-- first clock cycle in which the TSQ may issue its next entry (R26) -/
  nextIssue : Nat
  /-- a context switch runs (R35, R410), and the program being loaded; its streams -/
  switching : Option Nat
  switchShares : List Share
  /-- cycles that its streams have lost at outputs on the way (R40) -/
  switchLag : Nat
  /-- sequencer bytes 0x8004 to 0x8FFF of the context, as last loaded (R409) -/
  seqState : List Byte
  sweeps : List Sweep
  mxaHeld : Option Held
  /-- accumulators by bank number: FP32 or FP64 codes, row-major over the block -/
  banks : List (Nat × List Nat)
  bankSel : Nat
  /-- first clock cycle at which the MXA accepts its next descriptor, as the descriptors that have left it allow (R84, R86) -/
  mxaNext : Nat
  /-- next brick index of the numerics watch, and the one at which the present chain began (R214) -/
  brickIdx : Nat
  chain : Nat
  /-- STEP of the tile's program at the last turn start -/
  lastStep : Nat
  lookups : List Lookup
  cptHeld : Option Held
  files : List (Nat × List Nat)
  fileSel : Nat
  cptNext : Nat
  /-- acceptance of the last CPT operation (R114) -/
  cptLast : Nat
  applies : List Apply
  ftuNext : Nat
  dispatches : List Dispatch
  opc : List OpcAcc
  /-- first clock cycle at which the scan network is free (R137) -/
  netFree : Nat
  /-- cycle of acceptance of the dispatch that the scan network carried last (R137) -/
  netPtr : Nat
  /-- engine that holds the Sieve: 0 none, 1 PCE0, 2 PCE1 (R165) -/
  sieve : Nat
  /-- first clock cycle in which a waiting copy may take the Sieve -/
  sieveFrom : Nat
  staged : List TagWrite
  deriving DecidableEq, Repr

/-- A tile at rest. -/
def tileInit : Tile :=
  { issued := [], running := false, ended := false, nextIssue := 0, switching := none, switchShares := [], switchLag := 0,
    seqState := [],
    sweeps := [], mxaHeld := none, banks := [], bankSel := 0, mxaNext := 0, brickIdx := 0, chain := 0, lastStep := 0,
    lookups := [], cptHeld := none, files := [], fileSel := 0, cptNext := 0, cptLast := 0,
    applies := [], ftuNext := 0, dispatches := [], opc := [], netFree := 0, netPtr := 0, sieve := 0, sieveFrom := 0, staged := [] }

/-- A grain core (R119, R120, R133, R134). Vector and predicate registers are 128-bit numbers. -/
structure Core where
  x : List (Nat × Nat)
  v : List (Nat × Nat)
  p : List (Nat × Nat)
  pc : Nat
  /-- per-element flags of the last flag-writing vector instruction -/
  eflags : List Flags
  flags : Flags
  step : Nat
  srtag : Nat
  /-- first clock cycle at which it issues its next instruction -/
  ready : Nat
  /-- clock cycle at which each register's result is ready: 0-31 x, 32-63 v, 64-71 p (R138) -/
  rdy : List (Nat × Nat)
  /-- tile instructions issued in this dispatch (R137) -/
  tcount : Nat
  /-- the tile instruction it waits in, as its word -/
  waiting : Option Nat
  deriving DecidableEq, Repr

/-- A core at reset: every register 0 (R364). -/
def coreInit : Core :=
  { x := [], v := [], p := [], pc := 0, eflags := [], flags := 0, step := 0, srtag := 0, ready := 0,
    rdy := [], tcount := 0, waiting := none }

/-! Punty engines. -/

/-- Statistics of a converting copy (R185), with the largest measure and whether a value decodes to nonzero or NaN
(R183). SSE is an FP64 code; measS and sseS cover the sampled blocks. -/
structure Stats where
  elems : Nat
  clip : Nat
  meas : Nat
  measS : Nat
  sse : Nat
  sseS : Nat
  nan : Nat
  zr : Nat
  amax : Dy
  nz : Bool
  deriving DecidableEq, Repr

def statsInit : Stats :=
  { elems := 0, clip := 0, meas := 0, measS := 0, sse := 0, sseS := 0, nan := 0, zr := 0, amax := Dy.zero, nz := false }

/-- A destination unit of a copy: the bytes written at each address, the scale entries, and its flags. -/
structure OutUnit where
  data : List (Nat × List Byte)
  scales : List (Nat × List Byte)
  flags : Flags
  deriving DecidableEq, Repr

/-- What a moving copy has done (R158, R159, R188): source KiB taken, their bytes and the scale entries of the bricks that end in them;
converted bytes with element flags, each block's scale bytes and flags, and the statistics; the flags of the units committed or handed
over. -/
structure CopyProg where
  taken : Nat
  src : List Byte
  scl : List (List Byte)
  out : List Byte
  els : List Flags
  blks : List (List Byte × Flags)
  st : Stats
  units : List Flags
  /-- what the next source KiB cannot be read for -/
  miss : Option Nat
  /-- what has stopped the copy (R164, R180), and the cycle in which it stopped -/
  err : Option Nat
  errAt : Nat
  deriving DecidableEq, Repr

def copyProgInit : CopyProg :=
  { taken := 0, src := [], scl := [], out := [], els := [], blks := [], st := statsInit, units := [], miss := none, err := none, errAt := 0 }

/-- A copy from acceptance to posting (R157, R165). -/
structure Copy where
  /-- its number among the copies of its engine -/
  id : Nat
  desc : List Byte
  /-- local offset of its descriptor; none for a queue item -/
  place : Option Nat
  tag : Nat
  acc : Nat
  /-- clock cycle of its start; none while held behind another -/
  start : Option Nat
  /-- cycles by which its descriptor read was late (R150) -/
  readLag : Nat
  /-- clock cycle from which lost cycles move its events beyond what readLag, sieveWait and extra hold -/
  since : Nat
  /-- checks of R163 passed -/
  going : Bool
  /-- it holds the Sieve -/
  hasSieve : Bool
  /-- clock cycle in which it took it, and the cycles it waited for it at its first unit (R165) -/
  sieveAt : Nat
  sieveWait : Nat
  /-- reference exponent, cold tag, STEP and tag entry as the copy took the Sieve (R176, R186, R195) -/
  ref : Nat
  cold : Bool
  step : Nat
  entry : BitVec 1024
  /-- cycles that a present-tensor pass added, and how many of them come from slots and waits (R188, R168) -/
  extra : Nat
  extraLag : Nat
  shares : List Share
  /-- remote request units handed to the fabric so far -/
  sent : Nat
  /-- a request unit waits for room since this cycle, and the cycles by which such waits have moved the later ones (R274) -/
  creditWait : Option Nat
  creditLag : Nat
  /-- source KiB and destination units that have crossed the package, and the cycles that they lost at outputs on the way (R40) -/
  crossR : Nat
  crossW : Nat
  linkLag : Nat
  /-- its present-tensor pass runs (R176, R188) -/
  pass : Bool
  /-- bytes received from a remote source: twice the position in the source stream, or twice the block plus 1 for its
  scale entry -/
  buf : List (Nat × List Byte)
  /-- cycle in which each KiB of a remote source has reached the engine, and that of the last acknowledgement (R276) -/
  came : List (Nat × Nat)
  heard : Nat
  /-- clock cycles in which one of its Marver accesses has lost the arbitration, rising (R150, R168) -/
  lost : List Nat
  /-- destination KiB that PCE_KIB has counted of it -/
  counted : Nat
  prog : CopyProg
  retried : Bool
  deriving DecidableEq, Repr

/-- A punty engine by STREAM number (R263): tile engine 2t + e, hub engine 128 + n. -/
structure Engine where
  copies : List Copy
  /-- clock cycle of the release point of the copy that last left (R165) -/
  release : Nat
  /-- copies accepted so far -/
  count : Nat
  deriving DecidableEq, Repr

/-- An engine at rest. -/
def engineInit : Engine := { copies := [], release := 0, count := 0 }

/-! The fabric. -/

/-- What a source holds of a (DST, STREAM): the next SEQ, and that the next cell carries SYNC (R272). -/
structure Strm where
  seq : Nat
  sync : Bool
  deriving DecidableEq, Repr

/-- A request unit that awaits its answer (R273, R274). kind: 0 write unit, 1 read unit, 2 fetch-add. -/
structure Pend where
  kind : Nat
  stream : Nat
  /-- number of the copy that it belongs to -/
  copy : Nat
  dst : Nat
  /-- SEQ of its first and of its last cell -/
  first : Nat
  last : Nat
  /-- index of the unit in its operation; TAG of a fetch-add -/
  unit : Nat
  /-- target offset of the unit's first byte -/
  base : Nat
  /-- fetch-add: the RESULT offset -/
  key : Nat
  /-- read unit: the pieces in it (key in the copy's buffer, offset, bytes), bytes before and bytes wanted -/
  parts : List (Nat × Nat × Nat)
  skip : Nat
  want : Nat
  /-- data received: offset in the unit and bytes -/
  got : List (Nat × List Byte)
  /-- clock cycle of its last cell; a fetch-add also has that of its acceptance -/
  sentAt : Nat
  acc : Nat
  deriving DecidableEq, Repr

/-- A cell at an output port (R267): its requester (0-11 input port, 12 FMA, 13 collective engine, 14 frit path), the requester that brought
it to the router (a frit cell from another module keeps its input port), the clock cycle from which it waits for a grant, or in which it left,
and the cell. -/
structure PortCell where
  req : Nat
  inp : Nat
  at_ : Nat
  cell : FabCell
  deriving DecidableEq, Repr

/-- A port (R258, R266, R267, R270, R271). Times of cell slots are in 25ths of a clock cycle: a slot takes 56 of them (R257). -/
structure PortX where
  /-- the retry buffer, oldest first -/
  buf : List PortCell
  /-- the run of failed retries -/
  fails : Nat
  /-- cells that wait for a grant -/
  wait : List PortCell
  /-- end of the last slot taken, the requester after the one granted, end of the last slot of each requester -/
  free : Nat
  ptr : Nat
  ends : List (Nat × Nat)
  /-- the FMA's unit is under way -/
  hold : Bool
  /-- domain tag of the last training -/
  tag : Nat
  /-- cells received since the last training (R270) -/
  rx : Nat
  /-- DOWN by failed retries: a class L reset of the port returns it (R271) -/
  failed : Bool
  deriving DecidableEq, Repr

def portInit : PortX :=
  { buf := [], fails := 0, wait := [], free := 0, ptr := 0, ends := [], hold := false, tag := 0, rx := 0, failed := false }

/-- The fabric memory agent and the router. -/
structure Fma where
  /-- by 4096 * stream + destination -/
  streams : List (Nat × Strm)
  pend : List Pend
  /-- expected SEQ by 256 * source + stream (R272) -/
  expect : List (Nat × Nat)
  /-- cells held for order -/
  held : List FabCell
  /-- cells of write units that have not ended -/
  parts : List FabCell
  /-- (source, stream) pairs of which a write unit was refused, until SYNC (R278) -/
  refused : List Nat
  /-- clock cycle in which the gap of a (source, stream) opened (R272) -/
  gapAt : List (Nat × Nat)
  /-- a fetch-add item that waits for room (R274), with its cycle of acceptance and the cycle up to which its wait is counted -/
  aqWait : Option (List Byte × Nat × Nat)
  ports : List (Nat × PortX)
  /-- the module is the origin, since the last training (R258) -/
  origin : Bool
  /-- bytes carried by die-to-die link l since reset (R406) -/
  links : List (Nat × Nat)
  /-- from which clock cycle an output is free (R40): 2 * l + direction for link l, 16 + unit for an output of the hub router -/
  outs : List (Nat × Nat)
  /-- NACKs that the own router gives this module's cells (R269), each with its clock cycle -/
  selfNacks : List (Nat × FabCell)
  /-- extents in force (X, Y, Z) where FRT_EXT has been written after FABRIC_GO and no port has trained since (R343) -/
  extOld : Option (Nat × Nat × Nat)
  deriving DecidableEq, Repr

def fmaInit : Fma :=
  { streams := [], pend := [], expect := [], held := [], parts := [], refused := [], gapAt := [], aqWait := none, ports := [], origin := false,
    links := [], outs := [], selfNacks := [], extOld := none }

/-! The queue manager. -/

/-- A cell in the pool: its index, 64 payload bytes, arrival number. -/
structure QCell where
  idx : Nat
  pay : List Byte
  seq : Nat
  deriving DecidableEq, Repr

/-- An item (R327, R332): its priority, the cells not yet read, the number of its cells, the clock cycle in which it
becomes readable. -/
structure QItem where
  prio : Nat
  cells : List QCell
  size : Nat
  age : Nat
  deriving DecidableEq, Repr

/-- The cells of an item that is not complete: from the host (src 4096) or from a plan descriptor (PlanEnq.part). -/
structure QPart where
  src : Nat
  prio : Nat
  cells : List QCell
  deriving DecidableEq, Repr

/-- A queue (R327 to R337). -/
structure Queue where
  /-- readable items in order of age -/
  items : List QItem
  /-- an item has had cells read and cells remain -/
  inprog : Option QItem
  parts : List QPart
  /-- cells of the present host packet that have arrived, refused ones included (R330) -/
  hostCount : Nat
  /-- the present host packet is being discarded: 0 no, 1 to QMU_HOST_DROP, 2 to QMU_DIS_DROP -/
  hostDrop : Nat
  broken : Bool
  /-- cell that holds the bad pointer, and its arrival number -/
  badCell : Nat
  badSeq : Nat
  stale : Bool
  /-- the episode has been reported -/
  reported : Bool
  /-- clock cycle from which the stale timer counts -/
  since : Nat
  deriving DecidableEq, Repr

/-- An empty queue. -/
def queueInit : Queue :=
  { items := [], inprog := none, parts := [], hostCount := 0, hostDrop := 0, broken := false, badCell := 0, badSeq := 0,
    stale := false, reported := false, since := 0 }

/-- A cell that a producer has asked to enqueue (R331, R333): kind 0 a record, 1 a cell of a host packet, 2 a cell of the plan descriptor
accepted in clock cycle plan. -/
structure EnqReq where
  producer : Nat
  queue : Nat
  prio : Nat
  pay : List Byte
  /-- clock cycle from which it asks for the port -/
  since : Nat
  kind : Nat
  plan : Nat
  deriving DecidableEq, Repr

/-- A QMU plan descriptor in progress (R338). -/
structure PlanEnq where
  tile : Nat
  tag : Nat
  /-- Marver offset of its descriptor -/
  place : Nat
  desc : List Byte
  acc : Nat
  /-- cells that have met their queue, and how many of them were enqueued -/
  sent : Nat
  good : Nat
  /-- clock cycle in which its next cell is read, but for lost Marver cycles since then; none while a cell asks for the port, and at the end -/
  read : Option Nat
  /-- clock cycles in which one of its Marver accesses has lost the arbitration, rising -/
  lost : List Nat
  /-- the item is being discarded (PKT = 1) -/
  bad : Bool
  /-- clock cycle after its last cell has met its queue -/
  due : Nat
  deriving DecidableEq, Repr

/-- The queue manager's own state. -/
structure Qmu where
  queues : List (Nat × Queue)
  /-- pool cells in use or lost, rising (R337) -/
  used : List Nat
  /-- pool cells whose link pointer fails its parity check (R337) -/
  badLinks : List Nat
  /-- cells lost beyond breaks -/
  lost : List Nat
  nextSeq : Nat
  /-- round-robin pointers of the two ports (R333) -/
  enqPtr : Nat
  deqPtr : Nat
  /-- first clock cycles in which the two ports are free (R333) -/
  enqFree : Nat
  deqFree : Nat
  /-- cells that ask for the enqueue port, oldest first -/
  waiting : List EnqReq
  plans : List PlanEnq
  /-- QMU_ENQ_WAIT has counted the cycles before this one -/
  counted : Nat
  deriving DecidableEq, Repr

/-! Kilns. -/

/-- An accepted kiln job (R222, R223, R225). -/
structure KJob where
  desc : List Byte
  tag : Nat
  acc : Nat
  /-- turns still to come before the turn of its start slot -/
  dt : Nat
  /-- clock cycle of the start slot, once its turn is over -/
  slot : Option Nat
  /-- STEP latched at acceptance (R195) -/
  step : Nat
  deriving DecidableEq, Repr

/-- What an instance of a job has left (R239, R240): its flags, the passes of its last loop and whether TEST left it,
pivot substitutions, saturations, and the warm vector to save. -/
structure KInst where
  flags : Flags
  passes : Nat
  left : Bool
  subst : Nat
  sat : Nat
  warm : List Byte
  deriving DecidableEq, Repr

def kinstInit : KInst := { flags := 0, passes := 0, left := false, subst := 0, sat := 0, warm := [] }

/-- An IMPORT stopped at a source unit that is not ready (R235): the unit, its first and last KiB, the cycle since which it waits, the waiting
cycles counted, and the cycle in which it can go on, once the last bit is set. -/
structure ImpWait where
  unit : Nat
  lo : Nat
  hi : Nat
  since : Nat
  seen : Nat
  wake : Option Nat
  deriving DecidableEq, Repr

/-- A running job: the first of its kiln (R225 to R240). -/
structure KRun where
  slot : Nat
  t0 : Nat
  /-- header of the image, and FLOOR and FRAC of the 256 classes, as read at t0 -/
  hdr : List Byte
  classes : List (Nat × Nat)
  /-- commit length CL (R237) -/
  cl : Nat
  inst : Nat
  word : Nat
  /-- clock cycle in which the word starts, or goes on -/
  cyc : Nat
  /-- the present instance has had its fill (R240) -/
  begun : Bool
  /-- clock cycle in which the kiln gives the job up unless its commit has started (R237) -/
  miss : Nat
  scal : List Dy
  /-- fractions of s0 to s15 -/
  fracs : List Nat
  /-- the open loop: index of LOOP, passes started, MAXIT -/
  loop : Option (Nat × Nat × Nat)
  cur : KInst
  done : List KInst
  waitIn : Nat
  waitPort : Nat
  imp : Option ImpWait
  /-- clock cycle in which the commit started -/
  commit : Option Nat
  /-- queued jobs that a SOFT_RESET discards once the commit in progress is complete (R242) -/
  doomed : Nat
  deriving DecidableEq, Repr

/-- A kiln engine: accepted jobs in order, the running one, the cycle of the last record, the ready bits (R235). -/
structure Kiln where
  jobs : List KJob
  run : Option KRun
  posted : Nat
  ready : Nat
  /-- the cycle after its last acceptance (R223) -/
  nextAcc : Nat
  /-- accesses of other units to its memories (R236): clock cycle and region -/
  ext : List (Nat × Nat)
  deriving DecidableEq, Repr

def kilnInit : Kiln := { jobs := [], run := none, posted := 0, ready := 0, nextAcc := 0, ext := [] }

/-! The collective engine and the frit path. -/

/-- A loaded group (R282, R283, R301). -/
structure Grp where
  gen : Nat
  nmemb : Nat
  probation : Bool
  zfmt : Nat
  failTurns : Nat
  /-- bit m: module m is a member -/
  members : Nat
  /-- operation sequence number that the next accepted operation takes -/
  opseq : Nat
  /-- the next operation is the first after a reform (R302) -/
  first : Bool
  /-- a reform removed this module -/
  removed : Bool
  /-- as keeper: a module reported LATE, its consecutive turns, and the last of them (R301) -/
  late : List (Nat × Nat × Nat)
  /-- reforms to come: GEN, apply turn and removed modules -/
  reforms : List (Nat × Nat × List Nat)
  /-- control cells (with their source) and UP messages for operations that have not started here -/
  opens : List (Nat × ColCtl)
  ups : List (Nat × FritMsg)
  deriving DecidableEq, Repr

/-- The result header (R298). excl holds (module, reason, first chunk) in ascending module. -/
structure CHdr where
  step : Nat
  seq : Nat
  gen : Nat
  contrib : Nat
  nexcl : Nat
  reasons : Nat
  excl : List (Nat × Nat × Nat)
  lagMod : Nat
  lagCc : Nat
  flags : Flags
  chunks : Nat
  deriving DecidableEq, Repr

def chdrInit : CHdr :=
  { step := 0, seq := 0, gen := 0, contrib := 0, nexcl := 0, reasons := 0, excl := [], lagMod := 0, lagCc := 0, flags := 0,
    chunks := 0 }

/-- A child in a tree: the chunks it has sent READY for, its exclusion (reason, from chunk), chunks of the result sent
down to it (one more with the header). -/
structure CChild where
  mod : Nat
  ready : Nat
  out : Option (Nat × Nat)
  sent : Nat
  deriving DecidableEq, Repr

/-- A chunk past its claim (R289): the children taken in so far, the pieces of a stream (type, offset, bytes), the
accumulator and what it stands for. -/
structure CChunk where
  c : Nat
  slots : Nat
  kids : Nat
  granted : Bool
  got : List (Nat × Nat × List Byte)
  acc : List Nat
  hdr : CHdr
  /-- own parts are still read (R295) -/
  reading : Bool
  /-- clock cycle in which each slot's last contribution has entered its pipe, and slots of the stream that arrives that have -/
  entered : List Nat
  fed : Nat
  /-- clock cycle in which the last child's contribution has been accumulated -/
  kidEnd : Nat
  /-- clock cycle of the last contribution, once all are in -/
  last : Option Nat
  /-- sent to the parent up to its last cell: that cell's SEQ and destination (R289) -/
  leaving : Option (Nat × Nat)
  /-- complete, and READY sent where there is a parent -/
  done : Bool
  deriving DecidableEq, Repr

/-- A constituent of an operation (R296): the tree of its root, the chunks in work, what has arrived from above. -/
structure CSub where
  i : Nat
  root : Nat
  opened : Bool
  /-- reason that excludes the own contribution -/
  ownOut : Option Nat
  /-- EXCL came from the parent -/
  cut : Bool
  kids : List CChild
  /-- cycle from which only children keep it from claiming -/
  waitSince : Option Nat
  lagMod : Nat
  lagCc : Nat
  /-- chunks claimed and released, and chunks of the result present here -/
  claimed : Nat
  freed : Nat
  have_ : Nat
  chunks : List CChunk
  /-- a chunk waits for its slots since this cycle -/
  waits : Option Nat
  got : List (Nat × Nat × List Byte)
  hdr : CHdr
  /-- the header is final and written -/
  closed : Bool
  deriving DecidableEq, Repr

/-- An accepted collective operation (R286 to R309). -/
structure COp where
  group : Nat
  gen : Nat
  seq : Nat
  tag : Nat
  acc : Nat
  desc : List Byte
  step : Nat
  prog : Nat
  /-- turns to come before the deadline's turn, and the deadline once that turn is over -/
  dt : Nat
  dl : Option Nat
  /-- clock cycle of its start -/
  start : Option Nat
  /-- the deadline has passed: children of a constituent begun later are late at once (R300) -/
  overdue : Bool
  /-- clock cycle in which the finite check has read every part (R297), whether it is done, with its result -/
  checkEnd : Option Nat
  checked : Bool
  badOwn : Flags
  subs : List CSub
  /-- constituents begun and finished -/
  begun : Nat
  closed : Nat
  /-- bricks written to DST, admission waits, members excluded -/
  bricks : Nat
  admWait : Nat
  nexcl : Nat
  flags : Flags
  /-- cycle of the last OPEN, GRANT or EXCL -/
  heard : Nat
  /-- its OP, FN or another field of R297 is not R's -/
  mismatch : Bool
  /-- clock cycle of its next own event: a result that is committed, a DOWN message (R307) to write -/
  wake : Option Nat
  down : Option FritMsg
  /-- RINGPASS: step 0 has begun, the own block is copied, OPEN came from the next member, chunks sent and received, pieces of the one arriving -/
  ringGo : Bool
  ringOwn : Bool
  ringReady : Bool
  ringSent : Nat
  ringHave : Nat
  ringGot : List (Nat × Nat × List Byte)
  /-- FRED and BARRIER: children excluded (module, reason), UP messages in with their cycle, UP or DOWN sent -/
  fOut : List (Nat × Nat)
  fUps : List (Nat × Nat × FritMsg)
  fSent : Bool
  deriving DecidableEq, Repr

/-- What a stream of the collective engine is for (R289, R295, R296): the finite check of a part; a part of a chunk on its way into its slots;
the chunk of a member without slots on its way to its parent; a chunk of the result sent to a member as cells of chunk index g, with the scale
entries that follow it; a copy of SRC to DST, of a chunk of a broadcast by its root, or of a ring pass. -/
inductive ColUse where
  | check (part : Nat)
  | own (sub chunk part : Nat)
  | leaf (sub chunk dst : Nat)
  | send (dst g : Nat) (scales : List Byte)
  | copy (sub : Option Nat) (chunk to_ : Nat)
  deriving DecidableEq, Repr

/-- A stream that the collective engine reads: n bytes at a local address, from a clock cycle on; KiB taken so far, cycles lost on the way to
the hub die, the bytes. -/
structure ColStream where
  id : Nat
  group : Nat
  seq : Nat
  base : Nat
  addr : Nat
  len : Nat
  shares : List Share
  done : Nat
  lag : Nat
  crossed : Bool
  buf : List Byte
  use : ColUse
  deriving DecidableEq, Repr

/-- The collective engine: loaded groups, accepted operations in order, the pools in force, pool sizes that wait. -/
structure Col where
  groups : List (Nat × Grp)
  ops : List COp
  pools : List Nat
  poolNext : Bool
  /-- clock cycles from which the accumulate pipes are free (R295) -/
  pipes : List Nat
  /-- streams under way, and how many there have been -/
  streams : List ColStream
  count : Nat
  /-- clock cycle of the last clearing write of COL_ADMWAIT -/
  cleared : Nat
  deriving DecidableEq, Repr

def colInit : Col :=
  { groups := [], ops := [], pools := [768, 768, 768, 768], poolNext := false, pipes := [0, 0, 0, 0], streams := [], count := 0, cleared := 0 }

/-! The host interface. -/

/-- A line that the host holds, as the snoop filter tracks it (R320): when it was granted, when its back-invalidate
was sent, and whether an engine has committed over it. -/
structure HLine where
  grant : Nat
  snoop : Option Nat
  stale : Bool
  deriving DecidableEq, Repr

/-- The configuration space, as far as it acts on the module (R313, R316, R323; log entry 28): BARs decoded, their bases, MSI-X enabled, all
vectors masked. -/
structure Cfg where
  decode : Bool
  bar0 : Nat
  bar2 : Nat
  msixOn : Bool
  msixMask : Bool
  /-- words of the CXL DVSECs as written, by 64 * DVSEC ID + word (R316) -/
  dvsec : List (Nat × Nat)
  /-- IDE containment mode in place of skid mode: bit 0 CXL.io, bit 1 CXL.cachemem (R324) -/
  ideMode : Nat
  deriving DecidableEq, Repr

def cfgInit : Cfg := { decode := false, bar0 := 0, bar2 := 0, msixOn := false, msixMask := false, dvsec := [], ideMode := 0 }

/-- The host interface's own state. -/
structure Hif where
  cfg : Cfg
  /-- reads that wait for room in the snoop filter: address and length, first in first out (R320) -/
  held : List (Nat × Nat)
  /-- tracked lines by local line number -/
  lines : List (Nat × HLine)
  grants : Nat
  /-- lines of host memory in the device coherency cache, least recently used first, and whether owned (R322) -/
  dcoh : List (Nat × Bool)
  /-- MSI-X table by 32-bit word, and the pending bits (R323) -/
  msix : List (Nat × Nat)
  msixPend : List Nat
  /-- DOE requests that wait for the SEC (R316) -/
  doe : List DoeProto
  deriving DecidableEq, Repr

def hifInit : Hif := { cfg := cfgInit, held := [], lines := [], grants := 0, dcoh := [], msix := [], msixPend := [], doe := [] }

/-! The security controller and the management controller. -/

/-- An SPDM session (R369). stage: 1 after KEY_EXCHANGE, 2 after FINISH. -/
structure Session where
  tr : Transport
  stage : Nat
  /-- key updates made, and whether IDE keys were set in it -/
  updates : Nat
  deriving DecidableEq, Repr

/-- What a transport has negotiated (R369): 0 nothing, 1 version, 2 capabilities, 3 algorithms. -/
structure Nego where
  doe : Nat
  mctp : Nat
  deriving DecidableEq, Repr

/-- A bank of a component in flash (R370). -/
structure Bank where
  bytes : List Byte
  /-- bytes written by DATA so far -/
  written : Nat
  valid : Bool
  deriving DecidableEq, Repr

def bankInit : Bank := { bytes := [], written := 0, valid := false }

/-- A SEC command that takes time (R374): 2 DATA, 3 VERIFY; its bytes, the path that gave it and its cycle. -/
structure SecCmd where
  cmd : Nat
  comp : Nat
  data : List Byte
  path : Nat
  since : Nat
  deriving DecidableEq, Repr

/-- The security controller (19): its flash and its running state. -/
structure Sec where
  /-- slot A images of components 1 to 6 that differ from the delivered ones, and slot B banks -/
  slotA : List (Nat × List Byte)
  slotB : List (Nat × Bank)
  /-- manifest of the running set, and of the set in the slots A, where they differ from the delivered one -/
  running : Option (List Byte)
  stored : Option (List Byte)
  /-- manifest of the set that the banks B hold since an activation -/
  prior : Option (List Byte)
  /-- manifest of the open update -/
  manifest : List Byte
  floors : List (Nat × Nat)
  /-- the floors as last measured (R368) -/
  floorsM : List (Nat × Nat)
  /-- key 0 is revoked -/
  revoked : Bool
  /-- the bank record (R370): its 32-bit write counter, the components whose slot A is physical bank 1, its authentication code (none: as delivered) -/
  writes : Nat
  bankA : List Nat
  code : Option Nat
  /-- the data window, by byte -/
  window : List (Nat × Byte)
  /-- 0 no update, 1 open, 2 verified, 3 armed, 4 committed -/
  phase : Nat
  /-- named turn and TAG of the activation -/
  turn : Nat
  tag : Nat
  cmd : Option SecCmd
  /-- components that answered READY -/
  ready : List Nat
  /-- the switch has begun, and the kilns that have yet to switch their microcode -/
  switched : Bool
  switching : List Nat
  sessions : List Session
  nego : Nego
  /-- measurement events since the last class C reset, oldest first: writes of the bank record at each -/
  log : List Nat
  /-- PLDM over the sideband: RequestUpdate seen, component in transfer -/
  pldmOpen : Bool
  pldmComp : Nat
  deriving DecidableEq, Repr

def secInit : Sec :=
  { slotA := [], slotB := [], running := none, stored := none, prior := none, manifest := [], floors := [], floorsM := [], revoked := false, writes := 0,
    bankA := [], code := none, window := [],
    phase := 0, turn := 0, tag := 0, cmd := none, ready := [], switched := false, switching := [], sessions := [],
    nego := { doe := 0, mctp := 0 }, log := [], pldmOpen := false, pldmComp := 0 }

/-- The management controller (20). Powers are in W; causes hold from one sample to the next. -/
structure Mmc where
  /-- the last samples of input power, latest first, as many as the averaging window holds -/
  powers : List Nat
  /-- a sample of the present turn lay above the peak figure -/
  peak : Bool
  low : Bool
  /-- sensors over their throttle threshold that have not fallen 3 degrees below: die d as d, stack k as 4 + k, 20 hub, 21 conversion -/
  hot : List Nat
  /-- the last sample (R385): compute dies, stacks, conversion stages, rails -/
  dies : List Nat
  hbms : List Nat
  conv : Nat
  rails : List Nat
  /-- the static address on the I3C sideband, once the MMC has booted (R392) -/
  addr : Option Nat
  /-- both banks failed: the boot ROM answers, with the part of an MMC image that has come (R346, R379) -/
  rom : Option (List Byte)
  deriving DecidableEq, Repr

def mmcInit : Mmc :=
  { powers := [], peak := false, low := false, hot := [], dies := [], hbms := [], conv := 0, rails := [], addr := none, rom := none }

/-! The turn. -/

/-- The turn controller's own state (02_the_turn.md). -/
structure Turn where
  /-- clock cycle of offset 0 -/
  start : Nat
  /-- clock cycle at which the next turn starts -/
  stop : Nat
  /-- clock cycle at which the guard band starts -/
  guardAt : Nat
  inGuard : Bool
  /-- turn for which the staged length and guard are armed (R21) -/
  arm : Option Nat
  /-- refresh slots count within this length: the one the turn starts with, or as the acquisition cuts it (R22, R32, R33) -/
  len : Nat
  /-- earlier turns that copies in flight may still count slots of, the latest first: start and length -/
  past : List (Nat × Nat)
  wheelLen : Nat
  /-- LEN values to come in the order written, each with the turn starts until it holds (R37) -/
  wheelNext : List (Nat × Nat)
  /-- entries written, each with the turn starts until the write holds, and the program and tile set in force till then (R37) -/
  wheelHold : List (Nat × Nat × Nat × Nat)
  /-- TURN_NO that the next turn takes on acquisition (R33) -/
  nextNo : Option Nat
  /-- length units and guard of the next turn, from the last beacon (R31) -/
  nextPar : Option (Nat × Nat)
  /-- a beacon has arrived in this turn -/
  beaconIn : Bool
  /-- consecutive turns with an error within 70 cc -/
  good : Nat
  /-- turns spent in HOLDOVER, and that its limit has been reported -/
  held : Nat
  lost : Bool
  /-- phase error still to be taken out by guard-band corrections -/
  slew : Int
  slotOpen : Bool
  /-- program and tile set of this turn -/
  prog : Nat
  tiles : Nat
  /-- this is a throttle turn (R387), and the turns decided ahead as throttle turns -/
  throttle : Bool
  throttleNext : List Nat
  /-- STEP resynchronisations for the next turn start: program and STEP (R194) -/
  resync : List (Nat × Nat)
  deriving DecidableEq, Repr

/-! Bring-up, fences, resets and power. -/

/-- A fence in force: the block or die, and its CAUSE (R353). -/
structure FenceRec where
  page : Nat
  cause : Nat
  deriving DecidableEq, Repr

/-- Bring-up, fence, reset and power state (17, 18). -/
structure Boot where
  /-- the module has power: the hot-swap controller is closed (R381) -/
  powered : Bool
  /-- PERST_N is asserted -/
  perst : Bool
  pwrGood : Bool
  /-- the CXL link is up -/
  linkUp : Bool
  /-- stages of R340 that have ended since the last class C or M reset, and the clock cycle at which the last one did -/
  stagesDone : List Nat
  stageAt : Nat
  /-- clock cycle of the last class C or M reset (DBG_CYCLES counts from it, R406) -/
  resetAt : Nat
  /-- page bases of fenced units, with the cause -/
  fences : List FenceRec
  /-- fenced compute dies -/
  dies : List Nat
  /-- software fence requests waiting for a turn start -/
  fenceReq : List Nat
  /-- pages of tiles and CPTs whose FENCE was written 0: the test starts at the next turn start -/
  testReq : List Nat
  /-- pages whose self-test runs, and ports that retrain to return -/
  testing : List Nat
  /-- pages that passed and return at the next turn start -/
  returning : List Nat
  /-- class T resets requested and running: tile and end cycle -/
  tReq : List Nat
  tRun : List (Nat × Nat)
  /-- class K reset running until this clock cycle -/
  kRun : Option Nat
  /-- class K or T resets in which tiles have not yet begun their first turn (R358) -/
  firstTurn : List Nat
  /-- ports whose CBL_PRSNT_N is high (R393) -/
  nocable : List Nat
  /-- P3 entered -/
  p3 : Bool
  /-- the state that a power transition in progress leads to (R360), and the clock cycle in which the last one began -/
  moving : Option Nat
  movedAt : Nat
  /-- stage 2 has verified the module description record and the firmware since the last class C reset (R15, R368) -/
  verified : Bool
  /-- the bring-up under way is that of a class C reset (R363) -/
  cRun : Bool
  /-- ms of bring-up at which FABRIC_GO was set (R343) -/
  goMs : Nat
  /-- SLOT_ID 0-2, as the baseboard straps them (R392) -/
  slotId : Nat
  deriving DecidableEq, Repr

/-! The numerics watch. -/

/-- A lane of the numerics watch (R215). -/
structure Lane where
  tile : Nat
  /-- brick index at which its chain began, and of its own position (R214) -/
  chain : Nat
  index : Nat
  bi : Nat
  bj : Nat
  /-- exact running values of the position's elements (FP8, INT8, BF16 chains) -/
  vals : List Fp
  /-- running FP64 codes of the P3/9 computation (split chains) -/
  codes : List Nat
  /-- settings of NWU_CTL at acceptance -/
  ctl : Nat
  /-- clock cycle at which the lane frees; 0 while it follows its chain -/
  freeAt : Nat
  /-- the brick that was read out for its position, to be compared as it frees: sweep descriptor, TILE_NUM, TAG, clock cycle of the sweep's
  record, output codes -/
  seen : Option (List Byte × Nat × Nat × Nat × List Nat)
  deriving DecidableEq, Repr

/-! Completion records (R18, R400). -/

/-- The fields of a completion record that its source gives. -/
structure CRec where
  tag : Nat
  status : Nat
  kind : Nat
  idx : Nat
  /-- clock cycle of posting -/
  cyc : Nat
  detail : Nat
  flags : Flags
  count : Nat
  deriving DecidableEq, Repr

/-- A record with all that its posting does (R88, R397): the NOTICE bits and counters of its unit, the page that gathers its FLAGS, the pages
that count it as an error, the queue register that names where it goes. -/
structure Posting where
  /-- page of the unit that posts it -/
  unit : Nat
  /-- Marver offset of its descriptor, whose read may still lose the arbitration (R150) -/
  read : Option Nat
  /-- its descriptor is still in the unit's checks: the NOTICE bit that ABANDONED sets instead, where a stop of the unit ends it so (R30) -/
  stop : Option Fld
  /-- clock cycle of acceptance -/
  acc : Nat
  notices : List Fld
  counts : List Fld
  flagPage : Nat
  errs : List Nat
  prod : Nat
  queue : Fld
  rec_ : CRec
  deriving DecidableEq, Repr

/-! The whole state. -/

/-- The module's state. -/
structure State where
  /-- commands waiting, first in first out -/
  pending : List Instr
  /-- CCLK cycles since the model's clock began -/
  now : Nat
  /-- count of free values drawn (the model's own field) -/
  fresh : Nat
  /-- Marver arbitration has been settled for the clock cycles before this one (the model's own field) -/
  settled : Nat
  /-- records to be posted in later cycles, in the order of R399 -/
  soon : List Posting
  /-- by page: clock cycle, SRC_INDEX and TAG of the error in FIRST_ERR (R399) -/
  firstErr : List (Nat × Nat × Nat × Nat)
  /-- messages sent to the outside, oldest first -/
  out : List Out
  /-- the ordering code in the module description record (R3) -/
  variant : Variant
  /-- memory by local offset (R161): HBM bytes once written, and every nonzero byte of the other memories -/
  mem : List Host.Cell
  /-- register fields that differ from their reset value -/
  regs : List (Nat × Nat)
  turn : Turn
  tiles : List (Nat × Tile)
  /-- grain cores, by 32 * tile + core -/
  cores : List (Nat × Core)
  /-- Sieve tag entries, by 1024 * tile + tag (R172) -/
  tags : List (Nat × BitVec 1024)
  engines : List (Nat × Engine)
  /-- requests of a pseudo-channel in the order in which it serves them, by 32 * stack + channel (R155) -/
  pcq : List (Nat × List PcReq)
  /-- lanes of the numerics watch, by 4 * die + lane -/
  lanes : List (Nat × Lane)
  kilns : List (Nat × Kiln)
  col : Col
  fma : Fma
  qmu : Qmu
  hif : Hif
  sec : Sec
  mmc : Mmc
  boot : Boot
  deriving DecidableEq, Repr

/-- Why a command cannot be the event it stands for. All are safe: the machine stops where the spec has no such event. -/
inductive Fault where
  /-- Raised by a completion or progress command where nothing of its kind is in that phase: an operation, a stage of bring-up, a reset, a timer.
  Safe: the spec has no such event. -/
  | noOperation
  /-- Raised by a grain or kiln command whose name is not the instruction at the program counter. Safe: the hardware
  executes what memory holds, and that instruction's own command says what it does. -/
  | otherInstruction
  /-- Raised by a command that names a unit, port, tile or engine that the module does not have, or a block that what it reports does not
  concern. Safe: there is no such unit. -/
  | noSuchUnit
  deriving DecidableEq, Repr

/-- Commands without a meaning. -/
inductive Refusal where
  /-- Raised by an arm of exec that has no meaning yet; safe. -/
  | notModelled (mnemonic : String)
  deriving DecidableEq, Repr

/-- The turn controller at a class C or M reset (R41): free-running at the default length, at clock cycle c. -/
def turnInit (c : Nat) : Turn :=
  { start := c, stop := c + 1750016, guardAt := c + 1745920, inGuard := false, arm := none, wheelLen := 0,
    len := 1750016, past := [], wheelNext := [], wheelHold := [], nextNo := none, nextPar := none, beaconIn := false, good := 0,
    held := 0, lost := false, slew := 0, slotOpen := false, prog := 0, tiles := 0, throttle := false, throttleNext := [],
    resync := [] }

/-- The queue manager with an empty pool. -/
def qmuInit : Qmu :=
  { queues := [], used := [], badLinks := [], lost := [], nextSeq := 0, enqPtr := 0, deqPtr := 0, enqFree := 0, deqFree := 0, waiting := [],
    plans := [], counted := 0 }

/-- Bring-up at the moment of a class C reset: stage 0, PERST_N asserted (PRESUMED, log entry 8). -/
def bootInit : Boot :=
  { powered := true, perst := true, pwrGood := false, linkUp := false, stagesDone := [], stageAt := 0, resetAt := 0, fences := [], dies := [],
    fenceReq := [], testReq := [], testing := [], returning := [], tReq := [], tRun := [], kRun := none, firstTurn := [],
    nocable := [], p3 := false, moving := none, movedAt := 0, verified := false, cRun := true, goMs := 0, slotId := 0 }

/-- The module right after a class C reset: every register at its Reset column, memory as R364 leaves it, no
command waiting, PYK-1616-F (DESIGN CHOICE, log entry 5). -/
def State.reset : State :=
  { pending := [], now := 0, fresh := 0, settled := 0, soon := [], firstErr := [], out := [], variant := .f, mem := [], regs := [], turn := turnInit 0,
    tiles := [], cores := [], tags := [], engines := [], pcq := [], lanes := [], kilns := [], col := colInit, fma := fmaInit, qmu := qmuInit, hif := hifInit,
    sec := secInit, mmc := mmcInit, boot := bootInit }

end Sys2Proof.Machine
end

