-- ==== Sys2Proof/Machine/RegMap.lean ====
section
/-! DEFINITION. The register map: every register field of the spec's register headers (R41, R59, R91, R104, R117,
R147, R169, R191, R219, R243, R281, R310, R326, R339, R353, R365, R380, R394, R397, R406) as a named Fld, and the
table of the same registers that REGISTER_WRITE and register reads go through (R7, R8, R314, R405). -/

namespace Sys2Proof.Machine

/-- Base address of page n of tile t (R9). -/
def tilePage (t n : Nat) : Nat := 0x100000 + t * 0x10000 + n * 0x1000

/-- TRN_STATE.SKEW (R41). -/
def Fd.trnStateSkew : Fld := ⟨0x1000 + 0x40, 16, 16, 0x0⟩
/-- TRN_STATE.ROLE (R41). -/
def Fd.trnStateRole : Fld := ⟨0x1000 + 0x40, 4, 2, 0x0⟩
/-- TRN_STATE.LOCK (R41). -/
def Fd.trnStateLock : Fld := ⟨0x1000 + 0x40, 2, 2, 0x0⟩
/-- TRN_LEN.UNITS (R41). -/
def Fd.trnLenUnits : Fld := ⟨0x1000 + 0x44, 0, 20, 0x6AD⟩
/-- TRN_GUARD.CC (R41). -/
def Fd.trnGuardCc : Fld := ⟨0x1000 + 0x48, 0, 17, 0x1000⟩
/-- TRN_APPLY.TURN (R41). -/
def Fd.trnApplyTurn : Fld := ⟨0x1000 + 0x50, 0, 48, 0x0⟩
/-- TRN_CUR.GUARD (R41). -/
def Fd.trnCurGuard : Fld := ⟨0x1000 + 0x58, 32, 17, 0x1000⟩
/-- TRN_CUR.UNITS (R41). -/
def Fd.trnCurUnits : Fld := ⟨0x1000 + 0x58, 0, 20, 0x6AD⟩
/-- TRN_TURN_NO.TURN (R41). -/
def Fd.trnTurnNoTurn : Fld := ⟨0x1000 + 0x60, 0, 48, 0x0⟩
/-- TRN_HOLD.TURNS (R41). -/
def Fd.trnHoldTurns : Fld := ⟨0x1000 + 0x70, 8, 8, 0x10⟩
/-- TRN_CQ.QUEUE (R41). -/
def Fd.trnCqQueue : Fld := ⟨0x1000 + 0x74, 0, 12, 0x0⟩
/-- TRN_WHEEL_CTL.LEN (R41). -/
def Fd.trnWheelCtlLen : Fld := ⟨0x1000 + 0x78, 0, 7, 0x0⟩
/-- TRN_CTXBASE.BASE (R41). -/
def Fd.trnCtxbaseBase : Fld := ⟨0x1000 + 0x80, 16, 24, 0x0⟩
/-- TRN_WHEEL.PROG (R41). -/
def Fd.trnWheelProg (i : Nat) : Fld := ⟨0x1000 + 0x100 + 16 * i, 64, 3, 0x0⟩
/-- TRN_WHEEL.TILES (R41). -/
def Fd.trnWheelTiles (i : Nat) : Fld := ⟨0x1000 + 0x100 + 16 * i, 0, 64, 0x0⟩
/-- NOTICE.REJECT (R41). -/
def Fd.nTrnReject : Fld := ⟨0x1000 + 0x10, 3, 1, 0x0⟩
/-- NOTICE.LOCK_LOST (R41). -/
def Fd.nTrnLockLost : Fld := ⟨0x1000 + 0x10, 2, 1, 0x0⟩
/-- NOTICE.LOCK_ACQUIRED (R41). -/
def Fd.nTrnLockAcquired : Fld := ⟨0x1000 + 0x10, 1, 1, 0x0⟩
/-- NOTICE.OVERRUN (R41). -/
def Fd.nTrnOverrun : Fld := ⟨0x1000 + 0x10, 0, 1, 0x0⟩
/-- TSQ_PLAN.SKIP (R41). -/
def Fd.tsqPlanSkip (t : Nat) : Fld := ⟨tilePage t 0 + 0x40, 31, 1, 0x0⟩
/-- TSQ_PLAN.WR (R41). -/
def Fd.tsqPlanWr (t : Nat) : Fld := ⟨tilePage t 0 + 0x40, 16, 11, 0x0⟩
/-- TSQ_PLAN.RD (R41). -/
def Fd.tsqPlanRd (t : Nat) : Fld := ⟨tilePage t 0 + 0x40, 0, 11, 0x0⟩
/-- TSQ_LATE.CYCLES (R41). -/
def Fd.tsqLateCycles (t : Nat) : Fld := ⟨tilePage t 0 + 0x44, 0, 32, 0x0⟩
/-- TSQ_OVERRUNS.COUNT (R41). -/
def Fd.tsqOverrunsCount (t : Nat) : Fld := ⟨tilePage t 0 + 0x48, 0, 32, 0x0⟩
/-- TSQ_PROG.PROG (R41). -/
def Fd.tsqProgProg (t : Nat) : Fld := ⟨tilePage t 0 + 0x4C, 0, 3, 0x0⟩
/-- NOTICE.REJECT (R41). -/
def Fd.nTsqReject (t : Nat) : Fld := ⟨tilePage t 0 + 0x10, 0, 1, 0x0⟩
/-- TILE_NUM.E5_OVF (R59). -/
def Fd.tileNumE5Ovf (t : Nat) : Fld := ⟨tilePage t 0 + 0x50, 4, 1, 0x0⟩
/-- TILE_NUM.E4_OVF (R59). -/
def Fd.tileNumE4Ovf (t : Nat) : Fld := ⟨tilePage t 0 + 0x50, 3, 1, 0x0⟩
/-- TILE_NUM.RM (R59). -/
def Fd.tileNumRm (t : Nat) : Fld := ⟨tilePage t 0 + 0x50, 1, 2, 0x0⟩
/-- TILE_NUM.FTZ (R59). -/
def Fd.tileNumFtz (t : Nat) : Fld := ⟨tilePage t 0 + 0x50, 0, 1, 0x0⟩
/-- MXA_CQ.QUEUE (R91). -/
def Fd.mxaCqQueue (t : Nat) : Fld := ⟨tilePage t 1 + 0x40, 0, 12, 0x0⟩
/-- MXA_STALL.CYCLES (R91). -/
def Fd.mxaStallCycles (t : Nat) : Fld := ⟨tilePage t 1 + 0x44, 0, 32, 0x0⟩
/-- MXA_OPS.COUNT (R91). -/
def Fd.mxaOpsCount (t : Nat) : Fld := ⟨tilePage t 1 + 0x48, 0, 32, 0x0⟩
/-- MXA_ACTIVE.CYCLES (R91). -/
def Fd.mxaActiveCycles (t : Nat) : Fld := ⟨tilePage t 1 + 0x50, 0, 64, 0x0⟩
/-- NOTICE.ABANDON (R91). -/
def Fd.nMxaAbandon (t : Nat) : Fld := ⟨tilePage t 1 + 0x10, 2, 1, 0x0⟩
/-- NOTICE.HELD_DROP (R91). -/
def Fd.nMxaHeldDrop (t : Nat) : Fld := ⟨tilePage t 1 + 0x10, 1, 1, 0x0⟩
/-- NOTICE.REJECT (R91). -/
def Fd.nMxaReject (t : Nat) : Fld := ⟨tilePage t 1 + 0x10, 0, 1, 0x0⟩
/-- MXA_ALN.COUNT (R104). -/
def Fd.mxaAlnCount (t : Nat) : Fld := ⟨tilePage t 1 + 0x60, 0, 32, 0x0⟩
/-- MXA_ALN_WORST.MODE (R104). -/
def Fd.mxaAlnWorstMode (t : Nat) : Fld := ⟨tilePage t 1 + 0x64, 8, 6, 0x0⟩
/-- MXA_ALN_WORST.BITS (R104). -/
def Fd.mxaAlnWorstBits (t : Nat) : Fld := ⟨tilePage t 1 + 0x64, 0, 6, 0x0⟩
/-- CPT_CQ.QUEUE (R117). -/
def Fd.cptCqQueue (t : Nat) : Fld := ⟨tilePage t 8 + 0x40, 0, 12, 0x0⟩
/-- CPT_STALL.CYCLES (R117). -/
def Fd.cptStallCycles (t : Nat) : Fld := ⟨tilePage t 8 + 0x44, 0, 32, 0x0⟩
/-- CPT_OPS.COUNT (R117). -/
def Fd.cptOpsCount (t : Nat) : Fld := ⟨tilePage t 8 + 0x48, 0, 32, 0x0⟩
/-- CPT_LOOKUPS.COUNT (R117). -/
def Fd.cptLookupsCount (t : Nat) : Fld := ⟨tilePage t 8 + 0x50, 0, 64, 0x0⟩
/-- NOTICE.ABANDON (R117). -/
def Fd.nCptAbandon (t : Nat) : Fld := ⟨tilePage t 8 + 0x10, 2, 1, 0x0⟩
/-- NOTICE.HELD_DROP (R117). -/
def Fd.nCptHeldDrop (t : Nat) : Fld := ⟨tilePage t 8 + 0x10, 1, 1, 0x0⟩
/-- NOTICE.REJECT (R117). -/
def Fd.nCptReject (t : Nat) : Fld := ⟨tilePage t 8 + 0x10, 0, 1, 0x0⟩
/-- GRN_CQ.QUEUE (R147). -/
def Fd.grnCqQueue (t : Nat) : Fld := ⟨tilePage t 2 + 0x40, 0, 12, 0x0⟩
/-- GRN_STALL.CYCLES (R147). -/
def Fd.grnStallCycles (t : Nat) : Fld := ⟨tilePage t 2 + 0x44, 0, 32, 0x0⟩
/-- GRN_OPS.COUNT (R147). -/
def Fd.grnOpsCount (t : Nat) : Fld := ⟨tilePage t 2 + 0x48, 0, 32, 0x0⟩
/-- GRN_RETIRED.COUNT (R147). -/
def Fd.grnRetiredCount (t : Nat) : Fld := ⟨tilePage t 2 + 0x50, 0, 64, 0x0⟩
/-- NOTICE.ABANDON (R147). -/
def Fd.nGrnAbandon (t : Nat) : Fld := ⟨tilePage t 2 + 0x10, 2, 1, 0x0⟩
/-- NOTICE.FAULT (R147). -/
def Fd.nGrnFault (t : Nat) : Fld := ⟨tilePage t 2 + 0x10, 1, 1, 0x0⟩
/-- NOTICE.REJECT (R147). -/
def Fd.nGrnReject (t : Nat) : Fld := ⟨tilePage t 2 + 0x10, 0, 1, 0x0⟩
/-- FTU_STALL.CYCLES (R147). -/
def Fd.ftuStallCycles (t : Nat) : Fld := ⟨tilePage t 4 + 0x44, 0, 32, 0x0⟩
/-- FTU_OPS.COUNT (R147). -/
def Fd.ftuOpsCount (t : Nat) : Fld := ⟨tilePage t 4 + 0x48, 0, 32, 0x0⟩
/-- NOTICE.ABANDON (R147). -/
def Fd.nFtuAbandon (t : Nat) : Fld := ⟨tilePage t 4 + 0x10, 1, 1, 0x0⟩
/-- NOTICE.REJECT (R147). -/
def Fd.nFtuReject (t : Nat) : Fld := ⟨tilePage t 4 + 0x10, 0, 1, 0x0⟩
/-- PCE_CQ.QUEUE (R169). -/
def Fd.pceCqQueue (e : Nat) : Fld := ⟨tilePage (e / 2) (6 + e % 2) + 0x40, 0, 12, 0x0⟩
/-- PCE_STALL.CYCLES (R169). -/
def Fd.pceStallCycles (e : Nat) : Fld := ⟨tilePage (e / 2) (6 + e % 2) + 0x44, 0, 32, 0x0⟩
/-- PCE_OPS.COUNT (R169). -/
def Fd.pceOpsCount (e : Nat) : Fld := ⟨tilePage (e / 2) (6 + e % 2) + 0x48, 0, 32, 0x0⟩
/-- PCE_KIB.COUNT (R169). -/
def Fd.pceKibCount (e : Nat) : Fld := ⟨tilePage (e / 2) (6 + e % 2) + 0x50, 0, 64, 0x0⟩
/-- NOTICE.FABRIC (R169). -/
def Fd.nPceFabric (e : Nat) : Fld := ⟨tilePage (e / 2) (6 + e % 2) + 0x10, 2, 1, 0x0⟩
/-- NOTICE.ABANDON (R169). -/
def Fd.nPceAbandon (e : Nat) : Fld := ⟨tilePage (e / 2) (6 + e % 2) + 0x10, 1, 1, 0x0⟩
/-- NOTICE.REJECT (R169). -/
def Fd.nPceReject (e : Nat) : Fld := ⟨tilePage (e / 2) (6 + e % 2) + 0x10, 0, 1, 0x0⟩
/-- MRV_LOST.CYCLES (R169). -/
def Fd.mrvLostCycles (t i : Nat) : Fld := ⟨tilePage t 9 + 0x40 + 4 * i, 0, 32, 0x0⟩
/-- MEM_SLOT_WAIT.CYCLES (R169). -/
def Fd.memSlotWaitCycles (s : Nat) : Fld := ⟨0x60000 + s * 0x1000 + 0x40, 0, 32, 0x0⟩
/-- MEM_SLOT_REQ.COUNT (R169). -/
def Fd.memSlotReqCount (s : Nat) : Fld := ⟨0x60000 + s * 0x1000 + 0x44, 0, 32, 0x0⟩
/-- MEM_PC_WAIT.CYCLES (R169). -/
def Fd.memPcWaitCycles (s : Nat) : Fld := ⟨0x60000 + s * 0x1000 + 0x48, 0, 32, 0x0⟩
/-- SIEVE_CQ.QUEUE (R191). -/
def Fd.sieveCqQueue (t : Nat) : Fld := ⟨tilePage t 5 + 0x40, 0, 12, 0x0⟩
/-- SIEVE_CTL.ZRUN_EN (R191). -/
def Fd.sieveCtlZrunEn (t : Nat) : Fld := ⟨tilePage t 5 + 0x44, 31, 1, 0x1⟩
/-- SIEVE_CTL.ZRUN_TH (R191). -/
def Fd.sieveCtlZrunTh (t : Nat) : Fld := ⟨tilePage t 5 + 0x44, 0, 16, 0x40⟩
/-- SIEVE_TSEL.TAG (R191). -/
def Fd.sieveTselTag (t : Nat) : Fld := ⟨tilePage t 5 + 0x48, 0, 10, 0x0⟩
/-- SIEVE_TCMD.DEFAULT (R191). -/
def Fd.sieveTcmdDefault (t : Nat) : Fld := ⟨tilePage t 5 + 0x4C, 2, 1, 0x0⟩
/-- SIEVE_TCMD.CLRSTAT (R191). -/
def Fd.sieveTcmdClrstat (t : Nat) : Fld := ⟨tilePage t 5 + 0x4C, 1, 1, 0x0⟩
/-- SIEVE_TCMD.COLD (R191). -/
def Fd.sieveTcmdCold (t : Nat) : Fld := ⟨tilePage t 5 + 0x4C, 0, 1, 0x0⟩
/-- SIEVE_CONVS.COUNT (R191). -/
def Fd.sieveConvsCount (t : Nat) : Fld := ⟨tilePage t 5 + 0x58, 0, 32, 0x0⟩
/-- SIEVE_COLD.COUNT (R191). -/
def Fd.sieveColdCount (t : Nat) : Fld := ⟨tilePage t 5 + 0x5C, 0, 32, 0x0⟩
/-- SIEVE_LAST_TAG.SAMPLED (R191). -/
def Fd.sieveLastTagSampled (t : Nat) : Fld := ⟨tilePage t 5 + 0x60, 16, 1, 0x0⟩
/-- SIEVE_LAST_TAG.TAG (R191). -/
def Fd.sieveLastTagTag (t : Nat) : Fld := ⟨tilePage t 5 + 0x60, 0, 10, 0x0⟩
/-- SIEVE_LAST_ELEMS.COUNT (R191). -/
def Fd.sieveLastElemsCount (t : Nat) : Fld := ⟨tilePage t 5 + 0x64, 0, 32, 0x0⟩
/-- SIEVE_LAST_CLIP.COUNT (R191). -/
def Fd.sieveLastClipCount (t : Nat) : Fld := ⟨tilePage t 5 + 0x68, 0, 32, 0x0⟩
/-- SIEVE_LAST_MEAS.COUNT (R191). -/
def Fd.sieveLastMeasCount (t : Nat) : Fld := ⟨tilePage t 5 + 0x6C, 0, 32, 0x0⟩
/-- SIEVE_LAST_SSE.SSE (R191). -/
def Fd.sieveLastSseSse (t : Nat) : Fld := ⟨tilePage t 5 + 0x70, 0, 64, 0x0⟩
/-- SIEVE_LAST_BLK.NANBLK (R191). -/
def Fd.sieveLastBlkNanblk (t : Nat) : Fld := ⟨tilePage t 5 + 0x78, 16, 16, 0x0⟩
/-- SIEVE_LAST_BLK.ZRBLK (R191). -/
def Fd.sieveLastBlkZrblk (t : Nat) : Fld := ⟨tilePage t 5 + 0x78, 0, 16, 0x0⟩
/-- NOTICE.REJECT (R191). -/
def Fd.nSieveReject (t : Nat) : Fld := ⟨tilePage t 5 + 0x10, 3, 1, 0x0⟩
/-- NOTICE.NANBLK (R191). -/
def Fd.nSieveNanblk (t : Nat) : Fld := ⟨tilePage t 5 + 0x10, 2, 1, 0x0⟩
/-- NOTICE.COLD (R191). -/
def Fd.nSieveCold (t : Nat) : Fld := ⟨tilePage t 5 + 0x10, 1, 1, 0x0⟩
/-- NOTICE.ZERO_RUN (R191). -/
def Fd.nSieveZeroRun (t : Nat) : Fld := ⟨tilePage t 5 + 0x10, 0, 1, 0x0⟩
/-- MODULE_STEP.STEP (R219). -/
def Fd.moduleStepStep (i : Nat) : Fld := ⟨0x100 + 4 * i, 0, 32, 0x0⟩
/-- MODULE_STEP_NEXT.STEP (R219). -/
def Fd.moduleStepNextStep (i : Nat) : Fld := ⟨0x120 + 4 * i, 0, 32, 0x0⟩
/-- MODULE_STEP_APPLY.ARMED (R219). -/
def Fd.moduleStepApplyArmed (i : Nat) : Fld := ⟨0x140 + 8 * i, 63, 1, 0x0⟩
/-- MODULE_STEP_APPLY.TURN (R219). -/
def Fd.moduleStepApplyTurn (i : Nat) : Fld := ⟨0x140 + 8 * i, 0, 48, 0x0⟩
/-- MODULE_STEP_STS.REJECT (R219). -/
def Fd.moduleStepStsReject : Fld := ⟨0x180, 16, 8, 0x0⟩
/-- MODULE_STEP_STS.DROPPED (R219). -/
def Fd.moduleStepStsDropped : Fld := ⟨0x180, 8, 8, 0x0⟩
/-- MODULE_STEP_STS.RESYNC (R219). -/
def Fd.moduleStepStsResync : Fld := ⟨0x180, 0, 8, 0x0⟩
/-- MODULE_STEP_RESYNCS.COUNT (R219). -/
def Fd.moduleStepResyncsCount : Fld := ⟨0x184, 0, 32, 0x0⟩
/-- NWU_CTL.EN (R219). -/
def Fd.nwuCtlEn (d : Nat) : Fld := ⟨0x70000 + d * 0x1000 + 0x40, 31, 1, 0x1⟩
/-- NWU_CTL.K (R219). -/
def Fd.nwuCtlK (d : Nat) : Fld := ⟨0x70000 + d * 0x1000 + 0x40, 16, 5, 0xC⟩
/-- NWU_CTL.ABIN_N (R219). -/
def Fd.nwuCtlAbinN (d : Nat) : Fld := ⟨0x70000 + d * 0x1000 + 0x40, 12, 4, 0xD⟩
/-- NWU_CTL.ABIN_P2 (R219). -/
def Fd.nwuCtlAbinP2 (d : Nat) : Fld := ⟨0x70000 + d * 0x1000 + 0x40, 8, 4, 0x8⟩
/-- NWU_CTL.ABIN_P3 (R219). -/
def Fd.nwuCtlAbinP3 (d : Nat) : Fld := ⟨0x70000 + d * 0x1000 + 0x40, 4, 4, 0x3⟩
/-- NWU_CTL.HCLR (R219). -/
def Fd.nwuCtlHclr (d : Nat) : Fld := ⟨0x70000 + d * 0x1000 + 0x40, 0, 1, 0x0⟩
/-- NWU_TILES.TILES (R219). -/
def Fd.nwuTilesTiles (d : Nat) : Fld := ⟨0x70000 + d * 0x1000 + 0x44, 0, 16, 0xFFFF⟩
/-- NWU_CQ.QUEUE (R219). -/
def Fd.nwuCqQueue (d : Nat) : Fld := ⟨0x70000 + d * 0x1000 + 0x48, 0, 12, 0x0⟩
/-- NWU_SAMPLED.COUNT (R219). -/
def Fd.nwuSampledCount (d : Nat) : Fld := ⟨0x70000 + d * 0x1000 + 0x4C, 0, 32, 0x0⟩
/-- NWU_SKIP.COUNT (R219). -/
def Fd.nwuSkipCount (d : Nat) : Fld := ⟨0x70000 + d * 0x1000 + 0x50, 0, 32, 0x0⟩
/-- NWU_ALARMS.COUNT (R219). -/
def Fd.nwuAlarmsCount (d : Nat) : Fld := ⟨0x70000 + d * 0x1000 + 0x54, 0, 32, 0x0⟩
/-- NWU_LAST.TILE (R219). -/
def Fd.nwuLastTile (d : Nat) : Fld := ⟨0x70000 + d * 0x1000 + 0x58, 58, 6, 0x0⟩
/-- NWU_LAST.BIN (R219). -/
def Fd.nwuLastBin (d : Nat) : Fld := ⟨0x70000 + d * 0x1000 + 0x58, 54, 4, 0x0⟩
/-- NWU_LAST.MODE (R219). -/
def Fd.nwuLastMode (d : Nat) : Fld := ⟨0x70000 + d * 0x1000 + 0x58, 50, 4, 0x0⟩
/-- NWU_LAST.POS (R219). -/
def Fd.nwuLastPos (d : Nat) : Fld := ⟨0x70000 + d * 0x1000 + 0x58, 46, 4, 0x0⟩
/-- NWU_LAST.INDEX (R219). -/
def Fd.nwuLastIndex (d : Nat) : Fld := ⟨0x70000 + d * 0x1000 + 0x58, 0, 32, 0x0⟩
/-- NWU_HIST_N.COUNT (R219). -/
def Fd.nwuHistNCount (d i : Nat) : Fld := ⟨0x70000 + d * 0x1000 + 0x80 + 4 * i, 0, 32, 0x0⟩
/-- NWU_HIST_S.COUNT (R219). -/
def Fd.nwuHistSCount (d i : Nat) : Fld := ⟨0x70000 + d * 0x1000 + 0xC0 + 4 * i, 0, 32, 0x0⟩
/-- NOTICE.REJECT (R219). -/
def Fd.nNwuReject (d : Nat) : Fld := ⟨0x70000 + d * 0x1000 + 0x10, 2, 1, 0x0⟩
/-- NOTICE.SKIP (R219). -/
def Fd.nNwuSkip (d : Nat) : Fld := ⟨0x70000 + d * 0x1000 + 0x10, 1, 1, 0x0⟩
/-- NOTICE.ALARM (R219). -/
def Fd.nNwuAlarm (d : Nat) : Fld := ⟨0x70000 + d * 0x1000 + 0x10, 0, 1, 0x0⟩
/-- KLN_CQ.QUEUE (R243). -/
def Fd.klnCqQueue (k : Nat) : Fld := ⟨0x80000 + k * 0x4000 + 0x40, 0, 12, 0x0⟩
/-- KLN_SQ.EN (R243). -/
def Fd.klnSqEn (k : Nat) : Fld := ⟨0x80000 + k * 0x4000 + 0x44, 31, 1, 0x0⟩
/-- KLN_SQ.QUEUE (R243). -/
def Fd.klnSqQueue (k : Nat) : Fld := ⟨0x80000 + k * 0x4000 + 0x44, 0, 12, 0x0⟩
/-- KLN_WAIT_IN.COUNT (R243). -/
def Fd.klnWaitInCount (k : Nat) : Fld := ⟨0x80000 + k * 0x4000 + 0x4C, 0, 32, 0x0⟩
/-- KLN_WAIT_PORT.COUNT (R243). -/
def Fd.klnWaitPortCount (k : Nat) : Fld := ⟨0x80000 + k * 0x4000 + 0x50, 0, 32, 0x0⟩
/-- KLN_JOBS.COUNT (R243). -/
def Fd.klnJobsCount (k : Nat) : Fld := ⟨0x80000 + k * 0x4000 + 0x54, 0, 32, 0x0⟩
/-- KLN_MISSES.COUNT (R243). -/
def Fd.klnMissesCount (k : Nat) : Fld := ⟨0x80000 + k * 0x4000 + 0x58, 0, 32, 0x0⟩
/-- KLN_SUBST.COUNT (R243). -/
def Fd.klnSubstCount (k : Nat) : Fld := ⟨0x80000 + k * 0x4000 + 0x5C, 0, 32, 0x0⟩
/-- KLN_SAT.COUNT (R243). -/
def Fd.klnSatCount (k : Nat) : Fld := ⟨0x80000 + k * 0x4000 + 0x60, 0, 32, 0x0⟩
/-- KLN_WARM_MISS.COUNT (R243). -/
def Fd.klnWarmMissCount (k : Nat) : Fld := ⟨0x80000 + k * 0x4000 + 0x64, 0, 32, 0x0⟩
/-- KLN_RDYCLR.COUNT (R243). -/
def Fd.klnRdyclrCount (k : Nat) : Fld := ⟨0x80000 + k * 0x4000 + 0x68, 16, 16, 0x0⟩
/-- KLN_RDYCLR.FIRST (R243). -/
def Fd.klnRdyclrFirst (k : Nat) : Fld := ⟨0x80000 + k * 0x4000 + 0x68, 0, 16, 0x0⟩
/-- KLN_FAULT.INST (R243). -/
def Fd.klnFaultInst (k : Nat) : Fld := ⟨0x80000 + k * 0x4000 + 0x70, 40, 8, 0x0⟩
/-- KLN_FAULT.STATUS (R243). -/
def Fd.klnFaultStatus (k : Nat) : Fld := ⟨0x80000 + k * 0x4000 + 0x70, 32, 8, 0x0⟩
/-- KLN_FAULT.WORD (R243). -/
def Fd.klnFaultWord (k : Nat) : Fld := ⟨0x80000 + k * 0x4000 + 0x70, 0, 17, 0x0⟩
/-- NOTICE.WARM_MISMATCH (R243). -/
def Fd.nKlnWarmMismatch (k : Nat) : Fld := ⟨0x80000 + k * 0x4000 + 0x10, 4, 1, 0x0⟩
/-- NOTICE.DEGRADED (R243). -/
def Fd.nKlnDegraded (k : Nat) : Fld := ⟨0x80000 + k * 0x4000 + 0x10, 3, 1, 0x0⟩
/-- NOTICE.MISS (R243). -/
def Fd.nKlnMiss (k : Nat) : Fld := ⟨0x80000 + k * 0x4000 + 0x10, 2, 1, 0x0⟩
/-- NOTICE.ABANDON (R243). -/
def Fd.nKlnAbandon (k : Nat) : Fld := ⟨0x80000 + k * 0x4000 + 0x10, 1, 1, 0x0⟩
/-- NOTICE.REJECT (R243). -/
def Fd.nKlnReject (k : Nat) : Fld := ⟨0x80000 + k * 0x4000 + 0x10, 0, 1, 0x0⟩
/-- FRT_DOMAIN.ORIGIN (R281). -/
def Fd.frtDomainOrigin : Fld := ⟨0x3000 + 0x40, 31, 1, 0x0⟩
/-- FRT_DOMAIN.TAG (R281). -/
def Fd.frtDomainTag : Fld := ⟨0x3000 + 0x40, 0, 16, 0x0⟩
/-- FRT_EXT.ZEXT (R281). -/
def Fd.frtExtZext : Fld := ⟨0x3000 + 0x44, 16, 7, 0x40⟩
/-- FRT_EXT.YEXT (R281). -/
def Fd.frtExtYext : Fld := ⟨0x3000 + 0x44, 8, 4, 0x8⟩
/-- FRT_EXT.XEXT (R281). -/
def Fd.frtExtXext : Fld := ⟨0x3000 + 0x44, 0, 4, 0x8⟩
/-- FRT_COORD.VALID (R281). -/
def Fd.frtCoordValid : Fld := ⟨0x3000 + 0x48, 31, 1, 0x0⟩
/-- FRT_COORD.Z (R281). -/
def Fd.frtCoordZ : Fld := ⟨0x3000 + 0x48, 6, 6, 0x0⟩
/-- FRT_COORD.Y (R281). -/
def Fd.frtCoordY : Fld := ⟨0x3000 + 0x48, 3, 3, 0x0⟩
/-- FRT_COORD.X (R281). -/
def Fd.frtCoordX : Fld := ⟨0x3000 + 0x48, 0, 3, 0x0⟩
/-- FRT_DROP_UNREACH.COUNT (R281). -/
def Fd.frtDropUnreachCount : Fld := ⟨0x3000 + 0x4C, 0, 32, 0x0⟩
/-- FRT_DROP_STRANGER.COUNT (R281). -/
def Fd.frtDropStrangerCount : Fld := ⟨0x3000 + 0x50, 0, 32, 0x0⟩
/-- FRT_DROP_BAD.COUNT (R281). -/
def Fd.frtDropBadCount : Fld := ⟨0x3000 + 0x54, 0, 32, 0x0⟩
/-- FRT_STRANGER_LOG.DOMAIN (R281). -/
def Fd.frtStrangerLogDomain : Fld := ⟨0x3000 + 0x58, 16, 16, 0x0⟩
/-- FRT_STRANGER_LOG.PORT (R281). -/
def Fd.frtStrangerLogPort : Fld := ⟨0x3000 + 0x58, 12, 4, 0x0⟩
/-- FRT_STRANGER_LOG.DST (R281). -/
def Fd.frtStrangerLogDst : Fld := ⟨0x3000 + 0x58, 0, 12, 0x0⟩
/-- FRT_TRANSIT.EN (R281). -/
def Fd.frtTransitEn (i : Nat) : Fld := ⟨0x3000 + 0x100 + 8 * i, 63, 1, 0x0⟩
/-- FRT_TRANSIT.PORTS (R281). -/
def Fd.frtTransitPorts (i : Nat) : Fld := ⟨0x3000 + 0x100 + 8 * i, 48, 12, 0x0⟩
/-- FRT_TRANSIT.DMASK (R281). -/
def Fd.frtTransitDmask (i : Nat) : Fld := ⟨0x3000 + 0x100 + 8 * i, 36, 12, 0x0⟩
/-- FRT_TRANSIT.DST (R281). -/
def Fd.frtTransitDst (i : Nat) : Fld := ⟨0x3000 + 0x100 + 8 * i, 24, 12, 0x0⟩
/-- FRT_TRANSIT.DOMAIN (R281). -/
def Fd.frtTransitDomain (i : Nat) : Fld := ⟨0x3000 + 0x100 + 8 * i, 0, 16, 0x0⟩
/-- NOTICE.ORIGIN_CONFLICT (R281). -/
def Fd.nFrtOriginConflict : Fld := ⟨0x3000 + 0x10, 4, 1, 0x0⟩
/-- NOTICE.REJECT (R281). -/
def Fd.nFrtReject : Fld := ⟨0x3000 + 0x10, 3, 1, 0x0⟩
/-- NOTICE.COORD_CONFLICT (R281). -/
def Fd.nFrtCoordConflict : Fld := ⟨0x3000 + 0x10, 2, 1, 0x0⟩
/-- NOTICE.STRANGER (R281). -/
def Fd.nFrtStranger : Fld := ⟨0x3000 + 0x10, 1, 1, 0x0⟩
/-- NOTICE.COORD_VALID (R281). -/
def Fd.nFrtCoordValid : Fld := ⟨0x3000 + 0x10, 0, 1, 0x0⟩
/-- PORT_STATE.NBR_MODNO (R281). -/
def Fd.portStateNbrModno (p : Nat) : Fld := ⟨0x10000 + p * 0x1000 + 0x40, 48, 12, 0x0⟩
/-- PORT_STATE.NBR_DOMAIN (R281). -/
def Fd.portStateNbrDomain (p : Nat) : Fld := ⟨0x10000 + p * 0x1000 + 0x40, 32, 16, 0x0⟩
/-- PORT_STATE.LAT (R281). -/
def Fd.portStateLat (p : Nat) : Fld := ⟨0x10000 + p * 0x1000 + 0x40, 16, 16, 0x0⟩
/-- PORT_STATE.STATE (R281). -/
def Fd.portStateState (p : Nat) : Fld := ⟨0x10000 + p * 0x1000 + 0x40, 0, 2, 0x0⟩
/-- PORT_FEC_CORR.COUNT (R281). -/
def Fd.portFecCorrCount (p : Nat) : Fld := ⟨0x10000 + p * 0x1000 + 0x48, 0, 64, 0x0⟩
/-- PORT_CELLS_TX.COUNT (R281). -/
def Fd.portCellsTxCount (p : Nat) : Fld := ⟨0x10000 + p * 0x1000 + 0x70, 0, 64, 0x0⟩
/-- PORT_CELLS_RX.COUNT (R281). -/
def Fd.portCellsRxCount (p : Nat) : Fld := ⟨0x10000 + p * 0x1000 + 0x78, 0, 64, 0x0⟩
/-- PORT_FEC_UNCORR.COUNT (R281). -/
def Fd.portFecUncorrCount (p : Nat) : Fld := ⟨0x10000 + p * 0x1000 + 0x50, 0, 32, 0x0⟩
/-- PORT_RETRIES.COUNT (R281). -/
def Fd.portRetriesCount (p : Nat) : Fld := ⟨0x10000 + p * 0x1000 + 0x54, 0, 32, 0x0⟩
/-- PORT_RETRY_CYC.COUNT (R281). -/
def Fd.portRetryCycCount (p : Nat) : Fld := ⟨0x10000 + p * 0x1000 + 0x58, 0, 32, 0x0⟩
/-- PORT_DOWNS.COUNT (R281). -/
def Fd.portDownsCount (p : Nat) : Fld := ⟨0x10000 + p * 0x1000 + 0x5C, 0, 32, 0x0⟩
/-- PORT_CONTEND.COUNT (R281). -/
def Fd.portContendCount (p : Nat) : Fld := ⟨0x10000 + p * 0x1000 + 0x60, 0, 32, 0x0⟩
/-- PORT_REROUTE.COUNT (R281). -/
def Fd.portRerouteCount (p : Nat) : Fld := ⟨0x10000 + p * 0x1000 + 0x64, 0, 32, 0x0⟩
/-- PORT_STRANGER.COUNT (R281). -/
def Fd.portStrangerCount (p : Nat) : Fld := ⟨0x10000 + p * 0x1000 + 0x68, 0, 32, 0x0⟩
/-- PORT_RETRY_RUN.RUN (R281). -/
def Fd.portRetryRunRun (p : Nat) : Fld := ⟨0x10000 + p * 0x1000 + 0x6C, 0, 4, 0x0⟩
/-- NOTICE.DOWN (R281). -/
def Fd.nPortDown (p : Nat) : Fld := ⟨0x10000 + p * 0x1000 + 0x10, 2, 1, 0x0⟩
/-- NOTICE.RETRY (R281). -/
def Fd.nPortRetry (p : Nat) : Fld := ⟨0x10000 + p * 0x1000 + 0x10, 1, 1, 0x0⟩
/-- NOTICE.UP (R281). -/
def Fd.nPortUp (p : Nat) : Fld := ⟨0x10000 + p * 0x1000 + 0x10, 0, 1, 0x0⟩
/-- FMA_HPCE.EN (R281). -/
def Fd.fmaHpceEn (i : Nat) : Fld := ⟨0x2000 + 0x40 + 8 * i, 63, 1, 0x0⟩
/-- FMA_HPCE.CQ (R281). -/
def Fd.fmaHpceCq (i : Nat) : Fld := ⟨0x2000 + 0x40 + 8 * i, 32, 12, 0x0⟩
/-- FMA_HPCE.SQ (R281). -/
def Fd.fmaHpceSq (i : Nat) : Fld := ⟨0x2000 + 0x40 + 8 * i, 0, 12, 0x0⟩
/-- FMA_AQ.EN (R281). -/
def Fd.fmaAqEn : Fld := ⟨0x2000 + 0x60, 63, 1, 0x0⟩
/-- FMA_AQ.CQ (R281). -/
def Fd.fmaAqCq : Fld := ⟨0x2000 + 0x60, 32, 12, 0x0⟩
/-- FMA_AQ.SQ (R281). -/
def Fd.fmaAqSq : Fld := ⟨0x2000 + 0x60, 0, 12, 0x0⟩
/-- FMA_ACK_TO.CYCLES (R281). -/
def Fd.fmaAckToCycles : Fld := ⟨0x2000 + 0x68, 0, 32, 0x100000⟩
/-- FMA_GAP_TO.CYCLES (R281). -/
def Fd.fmaGapToCycles : Fld := ⟨0x2000 + 0x6C, 0, 32, 0x10000⟩
/-- FMA_ACK_TIMEOUTS.COUNT (R281). -/
def Fd.fmaAckTimeoutsCount : Fld := ⟨0x2000 + 0x70, 0, 32, 0x0⟩
/-- FMA_REORDERED.COUNT (R281). -/
def Fd.fmaReorderedCount : Fld := ⟨0x2000 + 0x74, 0, 32, 0x0⟩
/-- FMA_REORDER_DROP.COUNT (R281). -/
def Fd.fmaReorderDropCount : Fld := ⟨0x2000 + 0x78, 0, 32, 0x0⟩
/-- FMA_NACKS.COUNT (R281). -/
def Fd.fmaNacksCount : Fld := ⟨0x2000 + 0x7C, 0, 32, 0x0⟩
/-- FMA_ORPHAN_ACKS.COUNT (R281). -/
def Fd.fmaOrphanAcksCount : Fld := ⟨0x2000 + 0x80, 0, 32, 0x0⟩
/-- FMA_CREDIT_WAIT.COUNT (R281). -/
def Fd.fmaCreditWaitCount : Fld := ⟨0x2000 + 0x84, 0, 32, 0x0⟩
/-- NOTICE.REJECT (R281). -/
def Fd.nFmaReject : Fld := ⟨0x2000 + 0x10, 3, 1, 0x0⟩
/-- NOTICE.ORPHAN (R281). -/
def Fd.nFmaOrphan : Fld := ⟨0x2000 + 0x10, 2, 1, 0x0⟩
/-- NOTICE.DROP (R281). -/
def Fd.nFmaDrop : Fld := ⟨0x2000 + 0x10, 1, 1, 0x0⟩
/-- NOTICE.TIMEOUT (R281). -/
def Fd.nFmaTimeout : Fld := ⟨0x2000 + 0x10, 0, 1, 0x0⟩
/-- COL_SQ.EN (R310). -/
def Fd.colSqEn : Fld := ⟨0x20000 + 0x40, 31, 1, 0x0⟩
/-- COL_SQ.QUEUE (R310). -/
def Fd.colSqQueue : Fld := ⟨0x20000 + 0x40, 0, 12, 0x0⟩
/-- COL_CQ.QUEUE (R310). -/
def Fd.colCqQueue : Fld := ⟨0x20000 + 0x44, 0, 12, 0x0⟩
/-- COL_ADMQ.QUEUE (R310). -/
def Fd.colAdmqQueue : Fld := ⟨0x20000 + 0x48, 0, 12, 0x0⟩
/-- COL_GRPBASE.BASE (R310). -/
def Fd.colGrpbaseBase : Fld := ⟨0x20000 + 0x50, 20, 20, 0x0⟩
/-- COL_GCMD.ARMED (R310). -/
def Fd.colGcmdArmed : Fld := ⟨0x20000 + 0x58, 63, 1, 0x0⟩
/-- COL_GCMD.GROUP (R310). -/
def Fd.colGcmdGroup : Fld := ⟨0x20000 + 0x58, 48, 10, 0x0⟩
/-- COL_GCMD.TURN (R310). -/
def Fd.colGcmdTurn : Fld := ⟨0x20000 + 0x58, 0, 48, 0x0⟩
/-- COL_POOL.P3 (R310). -/
def Fd.colPoolP3 : Fld := ⟨0x20000 + 0x60, 48, 12, 0x300⟩
/-- COL_POOL.P2 (R310). -/
def Fd.colPoolP2 : Fld := ⟨0x20000 + 0x60, 32, 12, 0x300⟩
/-- COL_POOL.P1 (R310). -/
def Fd.colPoolP1 : Fld := ⟨0x20000 + 0x60, 16, 12, 0x300⟩
/-- COL_POOL.P0 (R310). -/
def Fd.colPoolP0 : Fld := ⟨0x20000 + 0x60, 0, 12, 0x300⟩
/-- COL_LAG.MOD (R310). -/
def Fd.colLagMod : Fld := ⟨0x20000 + 0x70, 48, 12, 0x0⟩
/-- COL_LAG.CNT (R310). -/
def Fd.colLagCnt : Fld := ⟨0x20000 + 0x70, 32, 16, 0x0⟩
/-- COL_LAG.CC (R310). -/
def Fd.colLagCc : Fld := ⟨0x20000 + 0x70, 0, 32, 0x0⟩
/-- COL_SKEW_LAST.DIFF (R310). -/
def Fd.colSkewLastDiff : Fld := ⟨0x20000 + 0x78, 0, 32, 0x0⟩
/-- COL_OPTO.CYCLES (R310). -/
def Fd.colOptoCycles : Fld := ⟨0x20000 + 0x7C, 0, 32, 0x100000⟩
/-- COL_ADMWAIT.COUNT (R310). -/
def Fd.colAdmwaitCount : Fld := ⟨0x20000 + 0x80, 0, 32, 0x0⟩
/-- COL_EXCL.COUNT (R310). -/
def Fd.colExclCount : Fld := ⟨0x20000 + 0x84, 0, 32, 0x0⟩
/-- COL_SKEWS.COUNT (R310). -/
def Fd.colSkewsCount : Fld := ⟨0x20000 + 0x88, 0, 32, 0x0⟩
/-- COL_REFORMS.COUNT (R310). -/
def Fd.colReformsCount : Fld := ⟨0x20000 + 0x8C, 0, 32, 0x0⟩
/-- COL_GEN_DROP.COUNT (R310). -/
def Fd.colGenDropCount : Fld := ⟨0x20000 + 0x90, 0, 32, 0x0⟩
/-- COL_OPS.COUNT (R310). -/
def Fd.colOpsCount : Fld := ⟨0x20000 + 0x94, 0, 32, 0x0⟩
/-- NOTICE.GROUP_ERR (R310). -/
def Fd.nColGroupErr : Fld := ⟨0x20000 + 0x10, 5, 1, 0x0⟩
/-- NOTICE.LAG (R310). -/
def Fd.nColLag : Fld := ⟨0x20000 + 0x10, 4, 1, 0x0⟩
/-- NOTICE.REFORM (R310). -/
def Fd.nColReform : Fld := ⟨0x20000 + 0x10, 3, 1, 0x0⟩
/-- NOTICE.SKEW (R310). -/
def Fd.nColSkew : Fld := ⟨0x20000 + 0x10, 2, 1, 0x0⟩
/-- NOTICE.EXCLUDED (R310). -/
def Fd.nColExcluded : Fld := ⟨0x20000 + 0x10, 1, 1, 0x0⟩
/-- NOTICE.REJECT (R310). -/
def Fd.nColReject : Fld := ⟨0x20000 + 0x10, 0, 1, 0x0⟩
/-- FRIT_BEACONS.COUNT (R310). -/
def Fd.fritBeaconsCount : Fld := ⟨0x21000 + 0x40, 0, 32, 0x0⟩
/-- FRIT_OPS.COUNT (R310). -/
def Fd.fritOpsCount : Fld := ⟨0x21000 + 0x44, 0, 32, 0x0⟩
/-- FRIT_DROP.COUNT (R310). -/
def Fd.fritDropCount : Fld := ⟨0x21000 + 0x48, 0, 32, 0x0⟩
/-- FRIT_LAST_LAT.CYCLES (R310). -/
def Fd.fritLastLatCycles : Fld := ⟨0x21000 + 0x4C, 0, 32, 0x0⟩
/-- NOTICE.DROP (R310). -/
def Fd.nFritDrop : Fld := ⟨0x21000 + 0x10, 0, 1, 0x0⟩
/-- HIF_LINK.IDE (R326). -/
def Fd.hifLinkIde : Fld := ⟨0x50000 + 0x40, 12, 2, 0x0⟩
/-- HIF_LINK.FLIT (R326). -/
def Fd.hifLinkFlit : Fld := ⟨0x50000 + 0x40, 11, 1, 0x0⟩
/-- HIF_LINK.MODE (R326). -/
def Fd.hifLinkMode : Fld := ⟨0x50000 + 0x40, 10, 1, 0x0⟩
/-- HIF_LINK.WIDTH (R326). -/
def Fd.hifLinkWidth : Fld := ⟨0x50000 + 0x40, 5, 5, 0x0⟩
/-- HIF_LINK.RATE (R326). -/
def Fd.hifLinkRate : Fld := ⟨0x50000 + 0x40, 0, 5, 0x0⟩
/-- HIF_CTL.NARM (R326). -/
def Fd.hifCtlNarm : Fld := ⟨0x50000 + 0x50, 31, 1, 0x1⟩
/-- HIF_CTL.NVEC (R326). -/
def Fd.hifCtlNvec : Fld := ⟨0x50000 + 0x50, 0, 11, 0x0⟩
/-- HIF_BI_TO.CYCLES (R326). -/
def Fd.hifBiToCycles : Fld := ⟨0x50000 + 0x54, 0, 32, 0x100000⟩
/-- HIF_PARTIAL.COUNT (R326). -/
def Fd.hifPartialCount : Fld := ⟨0x50000 + 0x58, 0, 32, 0x0⟩
/-- HIF_HDM_BAD.COUNT (R326). -/
def Fd.hifHdmBadCount : Fld := ⟨0x50000 + 0x5C, 0, 32, 0x0⟩
/-- HIF_WB_DISCARD.COUNT (R326). -/
def Fd.hifWbDiscardCount : Fld := ⟨0x50000 + 0x60, 0, 32, 0x0⟩
/-- HIF_BI_TIMEOUTS.COUNT (R326). -/
def Fd.hifBiTimeoutsCount : Fld := ⟨0x50000 + 0x64, 0, 32, 0x0⟩
/-- HIF_RING_FULL.COUNT (R326). -/
def Fd.hifRingFullCount : Fld := ⟨0x50000 + 0x68, 0, 32, 0x0⟩
/-- HIF_RING_CTL.EN (R326). -/
def Fd.hifRingCtlEn (i : Nat) : Fld := ⟨0x50000 + 0x100 + 32 * i, 31, 1, 0x0⟩
/-- HIF_RING_CTL.DIR (R326). -/
def Fd.hifRingCtlDir (i : Nat) : Fld := ⟨0x50000 + 0x100 + 32 * i, 30, 1, 0x0⟩
/-- HIF_RING_CTL.ARM (R326). -/
def Fd.hifRingCtlArm (i : Nat) : Fld := ⟨0x50000 + 0x100 + 32 * i, 29, 1, 0x0⟩
/-- HIF_RING_CTL.LOG2 (R326). -/
def Fd.hifRingCtlLog2 (i : Nat) : Fld := ⟨0x50000 + 0x100 + 32 * i, 24, 5, 0x0⟩
/-- HIF_RING_CTL.QUEUE (R326). -/
def Fd.hifRingCtlQueue (i : Nat) : Fld := ⟨0x50000 + 0x100 + 32 * i, 12, 12, 0x0⟩
/-- HIF_RING_CTL.VEC (R326). -/
def Fd.hifRingCtlVec (i : Nat) : Fld := ⟨0x50000 + 0x100 + 32 * i, 0, 11, 0x0⟩
/-- HIF_RING_BASE.ADDR (R326). -/
def Fd.hifRingBaseAddr (i : Nat) : Fld := ⟨0x50000 + 0x108 + 32 * i, 6, 58, 0x0⟩
/-- HIF_RING_HEAD.ARM (R326). -/
def Fd.hifRingHeadArm (i : Nat) : Fld := ⟨0x50000 + 0x110 + 32 * i, 31, 1, 0x0⟩
/-- HIF_RING_HEAD.INDEX (R326). -/
def Fd.hifRingHeadIndex (i : Nat) : Fld := ⟨0x50000 + 0x110 + 32 * i, 0, 31, 0x0⟩
/-- HIF_RING_TAIL.ARM (R326). -/
def Fd.hifRingTailArm (i : Nat) : Fld := ⟨0x50000 + 0x114 + 32 * i, 31, 1, 0x0⟩
/-- HIF_RING_TAIL.INDEX (R326). -/
def Fd.hifRingTailIndex (i : Nat) : Fld := ⟨0x50000 + 0x114 + 32 * i, 0, 31, 0x0⟩
/-- NOTICE.IDE_FAIL (R326). -/
def Fd.nHifIdeFail : Fld := ⟨0x50000 + 0x10, 6, 1, 0x0⟩
/-- NOTICE.BI_TIMEOUT (R326). -/
def Fd.nHifBiTimeout : Fld := ⟨0x50000 + 0x10, 5, 1, 0x0⟩
/-- NOTICE.HDM_BAD (R326). -/
def Fd.nHifHdmBad : Fld := ⟨0x50000 + 0x10, 4, 1, 0x0⟩
/-- NOTICE.PARTIAL (R326). -/
def Fd.nHifPartial : Fld := ⟨0x50000 + 0x10, 3, 1, 0x0⟩
/-- NOTICE.LINK_CHANGE (R326). -/
def Fd.nHifLinkChange : Fld := ⟨0x50000 + 0x10, 2, 1, 0x0⟩
/-- NOTICE.REJECT (R326). -/
def Fd.nHifReject : Fld := ⟨0x50000 + 0x10, 1, 1, 0x0⟩
/-- QMU_QCFG.EN (R339). -/
def Fd.qmuQcfgEn (i : Nat) : Fld := ⟨0x31000 + 0x0 + 16 * i, 31, 1, 0x1⟩
/-- QMU_QCFG.HOST (R339). -/
def Fd.qmuQcfgHost (i : Nat) : Fld := ⟨0x31000 + 0x0 + 16 * i, 30, 1, 0x0⟩
/-- QMU_QCFG.HPKTM1 (R339). -/
def Fd.qmuQcfgHpktm1 (i : Nat) : Fld := ⟨0x31000 + 0x0 + 16 * i, 10, 6, 0x0⟩
/-- QMU_QCFG.HPRIO (R339). -/
def Fd.qmuQcfgHprio (i : Nat) : Fld := ⟨0x31000 + 0x0 + 16 * i, 5, 3, 0x0⟩
/-- QMU_QCFG.DEFPRIO (R339). -/
def Fd.qmuQcfgDefprio (i : Nat) : Fld := ⟨0x31000 + 0x0 + 16 * i, 0, 3, 0x0⟩
/-- QMU_QLIM.LIMIT (R339). -/
def Fd.qmuQlimLimit (i : Nat) : Fld := ⟨0x31000 + 0x4 + 16 * i, 0, 21, 0x0⟩
/-- QMU_QTO.UNITS (R339). -/
def Fd.qmuQtoUnits (i : Nat) : Fld := ⟨0x31000 + 0x8 + 16 * i, 0, 24, 0x0⟩
/-- QMU_CQ.QUEUE (R339). -/
def Fd.qmuCqQueue : Fld := ⟨0x30000 + 0x40, 0, 12, 0x0⟩
/-- QMU_QCMD.CMD (R339). -/
def Fd.qmuQcmdCmd : Fld := ⟨0x30000 + 0x44, 16, 4, 0x0⟩
/-- QMU_QCMD.QUEUE (R339). -/
def Fd.qmuQcmdQueue : Fld := ⟨0x30000 + 0x44, 0, 12, 0x0⟩
/-- QMU_ENQ_WAIT.COUNT (R339). -/
def Fd.qmuEnqWaitCount : Fld := ⟨0x30000 + 0x4C, 0, 32, 0x0⟩
/-- QMU_HOST_DROP.COUNT (R339). -/
def Fd.qmuHostDropCount : Fld := ⟨0x30000 + 0x50, 0, 32, 0x0⟩
/-- QMU_DIS_DROP.COUNT (R339). -/
def Fd.qmuDisDropCount : Fld := ⟨0x30000 + 0x54, 0, 32, 0x0⟩
/-- QMU_LOST.COUNT (R339). -/
def Fd.qmuLostCount : Fld := ⟨0x30000 + 0x58, 0, 32, 0x0⟩
/-- QMU_STALES.COUNT (R339). -/
def Fd.qmuStalesCount : Fld := ⟨0x30000 + 0x5C, 0, 32, 0x0⟩
/-- QMU_ARB_WAIT.COUNT (R339). -/
def Fd.qmuArbWaitCount : Fld := ⟨0x30000 + 0x60, 0, 32, 0x0⟩
/-- QMU_STALE_LAST.QUEUE (R339). -/
def Fd.qmuStaleLastQueue : Fld := ⟨0x30000 + 0x64, 0, 12, 0x0⟩
/-- NOTICE.PARITY (R339). -/
def Fd.nQmuParity : Fld := ⟨0x30000 + 0x10, 3, 1, 0x0⟩
/-- NOTICE.HOSTDROP (R339). -/
def Fd.nQmuHostdrop : Fld := ⟨0x30000 + 0x10, 2, 1, 0x0⟩
/-- NOTICE.STALE (R339). -/
def Fd.nQmuStale : Fld := ⟨0x30000 + 0x10, 1, 1, 0x0⟩
/-- NOTICE.REJECT (R339). -/
def Fd.nQmuReject : Fld := ⟨0x30000 + 0x10, 0, 1, 0x0⟩
/-- MODULE_STATE.READY (R353). -/
def Fd.moduleStateReady : Fld := ⟨0x1C0, 31, 1, 0x0⟩
/-- MODULE_STATE.NOSERVICE (R353). -/
def Fd.moduleStateNoservice : Fld := ⟨0x1C0, 30, 1, 0x0⟩
/-- MODULE_STATE.FABRIC (R353). -/
def Fd.moduleStateFabric : Fld := ⟨0x1C0, 29, 1, 0x0⟩
/-- MODULE_STATE.REROUTE (R353). -/
def Fd.moduleStateReroute : Fld := ⟨0x1C0, 24, 4, 0x0⟩
/-- MODULE_STATE.FAIL (R353). -/
def Fd.moduleStateFail : Fld := ⟨0x1C0, 16, 8, 0x0⟩
/-- MODULE_STATE.STAGE (R353). -/
def Fd.moduleStateStage : Fld := ⟨0x1C0, 0, 4, 0x0⟩
/-- MODULE_BOOT_CTL.FABRIC_GO (R353). -/
def Fd.moduleBootCtlFabricGo : Fld := ⟨0x1C4, 31, 1, 0x0⟩
/-- MODULE_BOOT_CTL.SOLO (R353). -/
def Fd.moduleBootCtlSolo : Fld := ⟨0x1C4, 30, 1, 0x0⟩
/-- MODULE_BOOT_CTL.FAB_TO (R353). -/
def Fd.moduleBootCtlFabTo : Fld := ⟨0x1C4, 8, 8, 0xA⟩
/-- MODULE_FENCE_LOG.TURN (R353). -/
def Fd.moduleFenceLogTurn : Fld := ⟨0x1D0, 32, 32, 0x0⟩
/-- MODULE_FENCE_LOG.CAUSE (R353). -/
def Fd.moduleFenceLogCause : Fld := ⟨0x1D0, 24, 8, 0x0⟩
/-- MODULE_FENCE_LOG.PAGE (R353). -/
def Fd.moduleFenceLogPage : Fld := ⟨0x1D0, 0, 24, 0x0⟩
/-- MODULE_FENCES.COUNT (R353). -/
def Fd.moduleFencesCount : Fld := ⟨0x1D8, 0, 32, 0x0⟩
/-- MODULE_STAGE_MS.MS (R353). -/
def Fd.moduleStageMsMs (i : Nat) : Fld := ⟨0x200 + 4 * i, 0, 32, 0x0⟩
/-- NOTICE.FAB_TIMEOUT (R353). -/
def Fd.nModuleFabTimeout : Fld := ⟨0x10, 4, 1, 0x0⟩
/-- NOTICE.REJECT (R353). -/
def Fd.nModuleReject : Fld := ⟨0x10, 3, 1, 0x0⟩
/-- NOTICE.REROUTE (R353). -/
def Fd.nModuleReroute : Fld := ⟨0x10, 2, 1, 0x0⟩
/-- NOTICE.FENCE (R353). -/
def Fd.nModuleFence : Fld := ⟨0x10, 1, 1, 0x0⟩
/-- NOTICE.READY (R353). -/
def Fd.nModuleReady : Fld := ⟨0x10, 0, 1, 0x0⟩
/-- MODULE_RESET.KBUSY (R365). -/
def Fd.moduleResetKbusy : Fld := ⟨0x240, 31, 1, 0x0⟩
/-- MODULE_RESET.K (R365). -/
def Fd.moduleResetK : Fld := ⟨0x240, 0, 1, 0x0⟩
/-- MODULE_RESETS.P3 (R365). -/
def Fd.moduleResetsP3 : Fld := ⟨0x244, 6, 1, 0x0⟩
/-- MODULE_RESETS.L (R365). -/
def Fd.moduleResetsL : Fld := ⟨0x244, 5, 1, 0x0⟩
/-- MODULE_RESETS.T (R365). -/
def Fd.moduleResetsT : Fld := ⟨0x244, 4, 1, 0x0⟩
/-- MODULE_RESETS.K (R365). -/
def Fd.moduleResetsK : Fld := ⟨0x244, 3, 1, 0x0⟩
/-- MODULE_RESETS.F (R365). -/
def Fd.moduleResetsF : Fld := ⟨0x244, 2, 1, 0x0⟩
/-- MODULE_RESETS.M (R365). -/
def Fd.moduleResetsM : Fld := ⟨0x244, 1, 1, 0x0⟩
/-- MODULE_RESETS.C (R365). -/
def Fd.moduleResetsC : Fld := ⟨0x244, 0, 1, 0x1⟩
/-- MODULE_PWR.ARMED (R365). -/
def Fd.modulePwrArmed : Fld := ⟨0x248, 63, 1, 0x0⟩
/-- MODULE_PWR.BUSY (R365). -/
def Fd.modulePwrBusy : Fld := ⟨0x248, 62, 1, 0x0⟩
/-- MODULE_PWR.STATE (R365). -/
def Fd.modulePwrState : Fld := ⟨0x248, 60, 2, 0x0⟩
/-- MODULE_PWR.TARGET (R365). -/
def Fd.modulePwrTarget : Fld := ⟨0x248, 58, 2, 0x0⟩
/-- MODULE_PWR.TURN (R365). -/
def Fd.modulePwrTurn : Fld := ⟨0x248, 0, 48, 0x0⟩
/-- SEC_MB_CMD.COMP (R380). -/
def Fd.secMbCmdComp : Fld := ⟨0xF10000 + 0x40, 37, 4, 0x0⟩
/-- SEC_MB_CMD.LEN (R380). -/
def Fd.secMbCmdLen : Fld := ⟨0xF10000 + 0x40, 24, 13, 0x0⟩
/-- SEC_MB_CMD.OFF (R380). -/
def Fd.secMbCmdOff : Fld := ⟨0xF10000 + 0x40, 4, 20, 0x0⟩
/-- SEC_MB_CMD.CMD (R380). -/
def Fd.secMbCmdCmd : Fld := ⟨0xF10000 + 0x40, 0, 4, 0x0⟩
/-- SEC_MB_STS.BUSY (R380). -/
def Fd.secMbStsBusy : Fld := ⟨0xF10000 + 0x48, 31, 1, 0x0⟩
/-- SEC_MB_STS.OWNER (R380). -/
def Fd.secMbStsOwner : Fld := ⟨0xF10000 + 0x48, 8, 2, 0x0⟩
/-- SEC_MB_STS.STATE (R380). -/
def Fd.secMbStsState : Fld := ⟨0xF10000 + 0x48, 0, 8, 0x0⟩
/-- SEC_ACT.TAG (R380). -/
def Fd.secActTag : Fld := ⟨0xF10000 + 0x50, 48, 16, 0x0⟩
/-- SEC_ACT.TURN (R380). -/
def Fd.secActTurn : Fld := ⟨0xF10000 + 0x50, 0, 48, 0x0⟩
/-- SEC_CQ.QUEUE (R380). -/
def Fd.secCqQueue : Fld := ⟨0xF10000 + 0x58, 0, 12, 0x0⟩
/-- NOTICE.ABORT (R380). -/
def Fd.nSecAbort : Fld := ⟨0xF10000 + 0x10, 2, 1, 0x0⟩
/-- NOTICE.SWITCH (R380). -/
def Fd.nSecSwitch : Fld := ⟨0xF10000 + 0x10, 1, 1, 0x0⟩
/-- NOTICE.REJECT (R380). -/
def Fd.nSecReject : Fld := ⟨0xF10000 + 0x10, 0, 1, 0x0⟩
/-- MMC_VIN.IIN (R394). -/
def Fd.mmcVinIin : Fld := ⟨0xF00000 + 0x40, 16, 16, 0x0⟩
/-- MMC_VIN.VIN (R394). -/
def Fd.mmcVinVin : Fld := ⟨0xF00000 + 0x40, 0, 16, 0x0⟩
/-- MMC_PIN.AVG (R394). -/
def Fd.mmcPinAvg : Fld := ⟨0xF00000 + 0x44, 16, 16, 0x0⟩
/-- MMC_PIN.LAST (R394). -/
def Fd.mmcPinLast : Fld := ⟨0xF00000 + 0x44, 0, 16, 0x0⟩
/-- MMC_PLIMIT.WIN (R394). -/
def Fd.mmcPlimitWin : Fld := ⟨0xF00000 + 0x48, 16, 8, 0xA⟩
/-- MMC_THR_TURNS.COUNT (R394). -/
def Fd.mmcThrTurnsCount : Fld := ⟨0xF00000 + 0x4C, 0, 32, 0x0⟩
/-- MMC_TEMP.OUTLET (R394). -/
def Fd.mmcTempOutlet : Fld := ⟨0xF00000 + 0x50, 32, 8, 0x0⟩
/-- MMC_TEMP.INLET (R394). -/
def Fd.mmcTempInlet : Fld := ⟨0xF00000 + 0x50, 24, 8, 0x0⟩
/-- MMC_TEMP.HUB (R394). -/
def Fd.mmcTempHub : Fld := ⟨0xF00000 + 0x50, 16, 8, 0x0⟩
/-- MMC_TEMP.HBM (R394). -/
def Fd.mmcTempHbm : Fld := ⟨0xF00000 + 0x50, 8, 8, 0x0⟩
/-- MMC_TEMP.DIE (R394). -/
def Fd.mmcTempDie : Fld := ⟨0xF00000 + 0x50, 0, 8, 0x0⟩
/-- NOTICE.REJECT (R394). -/
def Fd.nMmcReject : Fld := ⟨0xF00000 + 0x10, 6, 1, 0x0⟩
/-- NOTICE.COOLANT (R394). -/
def Fd.nMmcCoolant : Fld := ⟨0xF00000 + 0x10, 5, 1, 0x0⟩
/-- NOTICE.THERMAL (R394). -/
def Fd.nMmcThermal : Fld := ⟨0xF00000 + 0x10, 4, 1, 0x0⟩
/-- NOTICE.VIN_HIGH (R394). -/
def Fd.nMmcVinHigh : Fld := ⟨0xF00000 + 0x10, 3, 1, 0x0⟩
/-- NOTICE.VIN_LOW (R394). -/
def Fd.nMmcVinLow : Fld := ⟨0xF00000 + 0x10, 2, 1, 0x0⟩
/-- NOTICE.PEAK (R394). -/
def Fd.nMmcPeak : Fld := ⟨0xF00000 + 0x10, 1, 1, 0x0⟩
/-- NOTICE.PLIMIT (R394). -/
def Fd.nMmcPlimit : Fld := ⟨0xF00000 + 0x10, 0, 1, 0x0⟩
/-- BLKCTL.SOFT_RESET (R397). -/
def Fd.blkctlSoftReset (b : Nat) : Fld := ⟨b + 0x8, 31, 1, 0x0⟩
/-- BLKCTL.ENABLE (R397). -/
def Fd.blkctlEnable (b : Nat) : Fld := ⟨b + 0x8, 0, 1, 0x1⟩
/-- NOTICE_EN.EN (R397). -/
def Fd.noticeEnEn (b : Nat) : Fld := ⟨b + 0x14, 0, 32, 0x0⟩
/-- ERRCNT.COUNT (R397). -/
def Fd.errcntCount (b : Nat) : Fld := ⟨b + 0x18, 0, 32, 0x0⟩
/-- FLAGS.FLAGS (R397). -/
def Fd.flagsReg (b : Nat) : Fld := ⟨b + 0x1C, 0, 21, 0x0⟩
/-- FIRST_ERR.INFO (R397). -/
def Fd.firstErrInfo (b : Nat) : Fld := ⟨b + 0x20, 0, 64, 0x0⟩
/-- DBG_D2D_CONTEND.COUNT (R406). -/
def Fd.dbgD2dContendCount (i : Nat) : Fld := ⟨0x800000 + 0x80 + 4 * i, 0, 32, 0x0⟩
/-- DBG_HUB_CONTEND.COUNT (R406). -/
def Fd.dbgHubContendCount : Fld := ⟨0x800000 + 0xA0, 0, 32, 0x0⟩
/-- DBG_D2D_KIB.COUNT (R406). -/
def Fd.dbgD2dKibCount (i : Nat) : Fld := ⟨0x800000 + 0xC0 + 8 * i, 0, 64, 0x0⟩
/-- MMC_PLIMIT.LIMIT (R394): its reset value is the TDP of the variant (R2). -/
def Fd.mmcPlimitLimit (v : Variant) : Fld :=
  ⟨0xF00000 + 0x48, 0, 16, match v with | .f => 3200 | .l => 2900 | .s => 1700⟩

/-- Access codes (R7). -/
inductive Acc where
  | rw | ro | w1c | w1s | wo
  deriving DecidableEq, Repr

/-- A field of a register row. -/
structure RField where
  hi : Nat
  lo : Nat
  acc : Acc
  rst : Nat
  deriving DecidableEq, Repr

/-- A register of a page: offset, stride and count for a repeated one, width in bits, whether it is a counter that any
write clears (R405), its fields. -/
structure RRow where
  name : String
  off : Nat
  stride : Nat
  count : Nat
  width : Nat
  counter : Bool
  fields : List RField
  deriving DecidableEq, Repr

def RegRows.module : List RRow := [
  ⟨"MODULE_CAP_TILE", 0x40, 0, 1, 64, false, [⟨63, 0, .ro, 0x0⟩]⟩,
  ⟨"MODULE_AVAIL_TILE", 0x60, 0, 1, 64, false, [⟨63, 0, .ro, 0x0⟩]⟩,
  ⟨"MODULE_CAP_CPT", 0x48, 0, 1, 64, false, [⟨63, 0, .ro, 0x0⟩]⟩,
  ⟨"MODULE_AVAIL_CPT", 0x68, 0, 1, 64, false, [⟨63, 0, .ro, 0x0⟩]⟩,
  ⟨"MODULE_CAP_MEM", 0x50, 0, 1, 32, false, [⟨15, 0, .ro, 0x0⟩]⟩,
  ⟨"MODULE_AVAIL_MEM", 0x70, 0, 1, 32, false, [⟨15, 0, .ro, 0x0⟩]⟩,
  ⟨"MODULE_CAP_UNIT", 0x54, 0, 1, 32, false, [⟨27, 16, .ro, 0x0⟩, ⟨11, 8, .ro, 0x0⟩, ⟨7, 4, .ro, 0x0⟩, ⟨3, 0, .ro, 0x0⟩]⟩,
  ⟨"MODULE_AVAIL_UNIT", 0x74, 0, 1, 32, false, [⟨27, 16, .ro, 0x0⟩, ⟨11, 8, .ro, 0x0⟩, ⟨7, 4, .ro, 0x0⟩, ⟨3, 0, .ro, 0x0⟩]⟩,
  ⟨"MODULE_VARIANT", 0x58, 0, 1, 32, false, [⟨31, 24, .ro, 0x0⟩, ⟨23, 16, .ro, 0x0⟩, ⟨15, 0, .ro, 0x0⟩]⟩,
  ⟨"MODULE_STEP", 0x100, 4, 8, 32, false, [⟨31, 0, .ro, 0x0⟩]⟩,
  ⟨"MODULE_STEP_NEXT", 0x120, 4, 8, 32, false, [⟨31, 0, .rw, 0x0⟩]⟩,
  ⟨"MODULE_STEP_APPLY", 0x140, 8, 8, 64, false, [⟨63, 63, .ro, 0x0⟩, ⟨47, 0, .rw, 0x0⟩]⟩,
  ⟨"MODULE_STEP_STS", 0x180, 0, 1, 32, false, [⟨23, 16, .w1c, 0x0⟩, ⟨15, 8, .w1c, 0x0⟩, ⟨7, 0, .w1c, 0x0⟩]⟩,
  ⟨"MODULE_STEP_RESYNCS", 0x184, 0, 1, 32, true, [⟨31, 0, .ro, 0x0⟩]⟩,
  ⟨"MODULE_STATE", 0x1C0, 0, 1, 32, false, [⟨31, 31, .ro, 0x0⟩, ⟨30, 30, .ro, 0x0⟩, ⟨29, 29, .ro, 0x0⟩, ⟨28, 28, .ro, 0x0⟩, ⟨27, 24, .ro, 0x0⟩, ⟨23, 16, .ro, 0x0⟩, ⟨3, 0, .ro, 0x0⟩]⟩,
  ⟨"MODULE_BOOT_CTL", 0x1C4, 0, 1, 32, false, [⟨31, 31, .w1s, 0x0⟩, ⟨30, 30, .w1s, 0x0⟩, ⟨15, 8, .rw, 0xA⟩]⟩,
  ⟨"MODULE_FENCE_LOG", 0x1D0, 0, 1, 64, false, [⟨63, 32, .ro, 0x0⟩, ⟨31, 24, .ro, 0x0⟩, ⟨23, 0, .ro, 0x0⟩]⟩,
  ⟨"MODULE_FENCES", 0x1D8, 0, 1, 32, true, [⟨31, 0, .ro, 0x0⟩]⟩,
  ⟨"MODULE_STAGE_MS", 0x200, 4, 12, 32, false, [⟨31, 0, .ro, 0x0⟩]⟩,
  ⟨"NOTICE", 0x10, 0, 1, 32, false, [⟨4, 4, .w1c, 0x0⟩, ⟨3, 3, .w1c, 0x0⟩, ⟨2, 2, .w1c, 0x0⟩, ⟨1, 1, .w1c, 0x0⟩, ⟨0, 0, .w1c, 0x0⟩]⟩,
  ⟨"MODULE_RESET", 0x240, 0, 1, 32, false, [⟨31, 31, .ro, 0x0⟩, ⟨0, 0, .w1s, 0x0⟩]⟩,
  ⟨"MODULE_RESETS", 0x244, 0, 1, 32, false, [⟨6, 6, .w1c, 0x0⟩, ⟨5, 5, .w1c, 0x0⟩, ⟨4, 4, .w1c, 0x0⟩, ⟨3, 3, .w1c, 0x0⟩, ⟨2, 2, .w1c, 0x0⟩, ⟨1, 1, .w1c, 0x0⟩, ⟨0, 0, .w1c, 0x1⟩]⟩,
  ⟨"MODULE_PWR", 0x248, 0, 1, 64, false, [⟨63, 63, .ro, 0x0⟩, ⟨62, 62, .ro, 0x0⟩, ⟨61, 60, .ro, 0x0⟩, ⟨59, 58, .rw, 0x0⟩, ⟨47, 0, .rw, 0x0⟩]⟩]

def RegRows.trn : List RRow := [
  ⟨"TRN_STATE", 0x40, 0, 1, 32, false, [⟨31, 16, .ro, 0x0⟩, ⟨5, 4, .ro, 0x0⟩, ⟨3, 2, .ro, 0x0⟩]⟩,
  ⟨"TRN_LEN", 0x44, 0, 1, 32, false, [⟨19, 0, .rw, 0x6AD⟩]⟩,
  ⟨"TRN_GUARD", 0x48, 0, 1, 32, false, [⟨16, 0, .rw, 0x1000⟩]⟩,
  ⟨"TRN_APPLY", 0x50, 0, 1, 64, false, [⟨47, 0, .rw, 0x0⟩]⟩,
  ⟨"TRN_CUR", 0x58, 0, 1, 64, false, [⟨48, 32, .ro, 0x1000⟩, ⟨19, 0, .ro, 0x6AD⟩]⟩,
  ⟨"TRN_TURN_NO", 0x60, 0, 1, 64, false, [⟨47, 0, .ro, 0x0⟩]⟩,
  ⟨"TRN_CYCLE", 0x68, 0, 1, 32, false, [⟨28, 0, .ro, 0x0⟩]⟩,
  ⟨"TRN_HOLD", 0x70, 0, 1, 32, false, [⟨15, 8, .rw, 0x10⟩]⟩,
  ⟨"TRN_CQ", 0x74, 0, 1, 32, false, [⟨11, 0, .rw, 0x0⟩]⟩,
  ⟨"TRN_WHEEL_CTL", 0x78, 0, 1, 32, false, [⟨6, 0, .rw, 0x0⟩]⟩,
  ⟨"TRN_CTXBASE", 0x80, 0, 1, 64, false, [⟨39, 16, .rw, 0x0⟩]⟩,
  ⟨"TRN_WHEEL", 0x100, 16, 64, 128, false, [⟨66, 64, .rw, 0x0⟩, ⟨63, 0, .rw, 0x0⟩]⟩,
  ⟨"NOTICE", 0x10, 0, 1, 32, false, [⟨3, 3, .w1c, 0x0⟩, ⟨2, 2, .w1c, 0x0⟩, ⟨1, 1, .w1c, 0x0⟩, ⟨0, 0, .w1c, 0x0⟩]⟩]

def RegRows.tsq : List RRow := [
  ⟨"TSQ_PLAN", 0x40, 0, 1, 32, false, [⟨31, 31, .ro, 0x0⟩, ⟨26, 16, .rw, 0x0⟩, ⟨10, 0, .ro, 0x0⟩]⟩,
  ⟨"TSQ_LATE", 0x44, 0, 1, 32, true, [⟨31, 0, .ro, 0x0⟩]⟩,
  ⟨"TSQ_OVERRUNS", 0x48, 0, 1, 32, true, [⟨31, 0, .ro, 0x0⟩]⟩,
  ⟨"TSQ_PROG", 0x4C, 0, 1, 32, false, [⟨2, 0, .ro, 0x0⟩]⟩,
  ⟨"NOTICE", 0x10, 0, 1, 32, false, [⟨0, 0, .w1c, 0x0⟩]⟩,
  ⟨"TILE_NUM", 0x50, 0, 1, 32, false, [⟨4, 4, .rw, 0x0⟩, ⟨3, 3, .rw, 0x0⟩, ⟨2, 1, .rw, 0x0⟩, ⟨0, 0, .rw, 0x0⟩]⟩]

def RegRows.mxa : List RRow := [
  ⟨"MXA_CQ", 0x40, 0, 1, 32, false, [⟨11, 0, .rw, 0x0⟩]⟩,
  ⟨"MXA_STALL", 0x44, 0, 1, 32, true, [⟨31, 0, .ro, 0x0⟩]⟩,
  ⟨"MXA_OPS", 0x48, 0, 1, 32, true, [⟨31, 0, .ro, 0x0⟩]⟩,
  ⟨"MXA_ACTIVE", 0x50, 0, 1, 64, true, [⟨63, 0, .ro, 0x0⟩]⟩,
  ⟨"MXA_STATE", 0x58, 0, 1, 32, false, [⟨7, 4, .ro, 0x0⟩, ⟨3, 3, .ro, 0x0⟩, ⟨2, 1, .ro, 0x0⟩, ⟨0, 0, .ro, 0x0⟩]⟩,
  ⟨"NOTICE", 0x10, 0, 1, 32, false, [⟨2, 2, .w1c, 0x0⟩, ⟨1, 1, .w1c, 0x0⟩, ⟨0, 0, .w1c, 0x0⟩]⟩,
  ⟨"MXA_ALN", 0x60, 0, 1, 32, true, [⟨31, 0, .ro, 0x0⟩]⟩,
  ⟨"MXA_ALN_WORST", 0x64, 0, 1, 32, true, [⟨13, 8, .ro, 0x0⟩, ⟨5, 0, .ro, 0x0⟩]⟩]

def RegRows.cpt : List RRow := [
  ⟨"CPT_CQ", 0x40, 0, 1, 32, false, [⟨11, 0, .rw, 0x0⟩]⟩,
  ⟨"CPT_STALL", 0x44, 0, 1, 32, true, [⟨31, 0, .ro, 0x0⟩]⟩,
  ⟨"CPT_OPS", 0x48, 0, 1, 32, true, [⟨31, 0, .ro, 0x0⟩]⟩,
  ⟨"CPT_LOOKUPS", 0x50, 0, 1, 64, true, [⟨63, 0, .ro, 0x0⟩]⟩,
  ⟨"CPT_STATE", 0x58, 0, 1, 32, false, [⟨11, 8, .ro, 0x0⟩, ⟨7, 7, .ro, 0x0⟩, ⟨3, 3, .ro, 0x0⟩, ⟨2, 1, .ro, 0x0⟩, ⟨0, 0, .ro, 0x0⟩]⟩,
  ⟨"NOTICE", 0x10, 0, 1, 32, false, [⟨2, 2, .w1c, 0x0⟩, ⟨1, 1, .w1c, 0x0⟩, ⟨0, 0, .w1c, 0x0⟩]⟩]

def RegRows.grn : List RRow := [
  ⟨"GRN_CQ", 0x40, 0, 1, 32, false, [⟨11, 0, .rw, 0x0⟩]⟩,
  ⟨"GRN_STALL", 0x44, 0, 1, 32, true, [⟨31, 0, .ro, 0x0⟩]⟩,
  ⟨"GRN_OPS", 0x48, 0, 1, 32, true, [⟨31, 0, .ro, 0x0⟩]⟩,
  ⟨"GRN_BUSY", 0x4C, 0, 1, 32, false, [⟨31, 0, .ro, 0x0⟩]⟩,
  ⟨"GRN_RETIRED", 0x50, 0, 1, 64, true, [⟨63, 0, .ro, 0x0⟩]⟩,
  ⟨"NOTICE", 0x10, 0, 1, 32, false, [⟨2, 2, .w1c, 0x0⟩, ⟨1, 1, .w1c, 0x0⟩, ⟨0, 0, .w1c, 0x0⟩]⟩]

def RegRows.ftu : List RRow := [
  ⟨"FTU_STALL", 0x44, 0, 1, 32, true, [⟨31, 0, .ro, 0x0⟩]⟩,
  ⟨"FTU_OPS", 0x48, 0, 1, 32, true, [⟨31, 0, .ro, 0x0⟩]⟩,
  ⟨"NOTICE", 0x10, 0, 1, 32, false, [⟨1, 1, .w1c, 0x0⟩, ⟨0, 0, .w1c, 0x0⟩]⟩]

def RegRows.pce : List RRow := [
  ⟨"PCE_CQ", 0x40, 0, 1, 32, false, [⟨11, 0, .rw, 0x0⟩]⟩,
  ⟨"PCE_STALL", 0x44, 0, 1, 32, true, [⟨31, 0, .ro, 0x0⟩]⟩,
  ⟨"PCE_OPS", 0x48, 0, 1, 32, true, [⟨31, 0, .ro, 0x0⟩]⟩,
  ⟨"PCE_KIB", 0x50, 0, 1, 64, true, [⟨63, 0, .ro, 0x0⟩]⟩,
  ⟨"PCE_STATE", 0x58, 0, 1, 32, false, [⟨2, 2, .ro, 0x0⟩, ⟨1, 0, .ro, 0x0⟩]⟩,
  ⟨"NOTICE", 0x10, 0, 1, 32, false, [⟨2, 2, .w1c, 0x0⟩, ⟨1, 1, .w1c, 0x0⟩, ⟨0, 0, .w1c, 0x0⟩]⟩]

def RegRows.mrv : List RRow := [
  ⟨"MRV_LOST", 0x40, 4, 5, 32, true, [⟨31, 0, .ro, 0x0⟩]⟩]

def RegRows.mem : List RRow := [
  ⟨"MEM_SLOT_WAIT", 0x40, 0, 1, 32, true, [⟨31, 0, .ro, 0x0⟩]⟩,
  ⟨"MEM_SLOT_REQ", 0x44, 0, 1, 32, true, [⟨31, 0, .ro, 0x0⟩]⟩,
  ⟨"MEM_PC_WAIT", 0x48, 0, 1, 32, true, [⟨31, 0, .ro, 0x0⟩]⟩]

def RegRows.sieve : List RRow := [
  ⟨"SIEVE_CQ", 0x40, 0, 1, 32, false, [⟨11, 0, .rw, 0x0⟩]⟩,
  ⟨"SIEVE_CTL", 0x44, 0, 1, 32, false, [⟨31, 31, .rw, 0x1⟩, ⟨15, 0, .rw, 0x40⟩]⟩,
  ⟨"SIEVE_TSEL", 0x48, 0, 1, 32, false, [⟨9, 0, .rw, 0x0⟩]⟩,
  ⟨"SIEVE_TCMD", 0x4C, 0, 1, 32, false, [⟨2, 2, .wo, 0x0⟩, ⟨1, 1, .wo, 0x0⟩, ⟨0, 0, .wo, 0x0⟩]⟩,
  ⟨"SIEVE_STS", 0x50, 0, 1, 32, false, [⟨2, 1, .ro, 0x0⟩, ⟨0, 0, .ro, 0x0⟩]⟩,
  ⟨"SIEVE_CONVS", 0x58, 0, 1, 32, true, [⟨31, 0, .ro, 0x0⟩]⟩,
  ⟨"SIEVE_COLD", 0x5C, 0, 1, 32, true, [⟨31, 0, .ro, 0x0⟩]⟩,
  ⟨"SIEVE_LAST_TAG", 0x60, 0, 1, 32, false, [⟨16, 16, .ro, 0x0⟩, ⟨9, 0, .ro, 0x0⟩]⟩,
  ⟨"SIEVE_LAST_ELEMS", 0x64, 0, 1, 32, false, [⟨31, 0, .ro, 0x0⟩]⟩,
  ⟨"SIEVE_LAST_CLIP", 0x68, 0, 1, 32, false, [⟨31, 0, .ro, 0x0⟩]⟩,
  ⟨"SIEVE_LAST_MEAS", 0x6C, 0, 1, 32, false, [⟨31, 0, .ro, 0x0⟩]⟩,
  ⟨"SIEVE_LAST_SSE", 0x70, 0, 1, 64, false, [⟨63, 0, .ro, 0x0⟩]⟩,
  ⟨"SIEVE_LAST_BLK", 0x78, 0, 1, 32, false, [⟨31, 16, .ro, 0x0⟩, ⟨15, 0, .ro, 0x0⟩]⟩,
  ⟨"NOTICE", 0x10, 0, 1, 32, false, [⟨3, 3, .w1c, 0x0⟩, ⟨2, 2, .w1c, 0x0⟩, ⟨1, 1, .w1c, 0x0⟩, ⟨0, 0, .w1c, 0x0⟩]⟩]

def RegRows.nwu : List RRow := [
  ⟨"NWU_CTL", 0x40, 0, 1, 32, false, [⟨31, 31, .rw, 0x1⟩, ⟨20, 16, .rw, 0xC⟩, ⟨15, 12, .rw, 0xD⟩, ⟨11, 8, .rw, 0x8⟩, ⟨7, 4, .rw, 0x3⟩, ⟨0, 0, .wo, 0x0⟩]⟩,
  ⟨"NWU_TILES", 0x44, 0, 1, 32, false, [⟨15, 0, .rw, 0xFFFF⟩]⟩,
  ⟨"NWU_CQ", 0x48, 0, 1, 32, false, [⟨11, 0, .rw, 0x0⟩]⟩,
  ⟨"NWU_SAMPLED", 0x4C, 0, 1, 32, true, [⟨31, 0, .ro, 0x0⟩]⟩,
  ⟨"NWU_SKIP", 0x50, 0, 1, 32, true, [⟨31, 0, .ro, 0x0⟩]⟩,
  ⟨"NWU_ALARMS", 0x54, 0, 1, 32, true, [⟨31, 0, .ro, 0x0⟩]⟩,
  ⟨"NWU_LAST", 0x58, 0, 1, 64, false, [⟨63, 58, .ro, 0x0⟩, ⟨57, 54, .ro, 0x0⟩, ⟨53, 50, .ro, 0x0⟩, ⟨49, 46, .ro, 0x0⟩, ⟨31, 0, .ro, 0x0⟩]⟩,
  ⟨"NWU_HIST_N", 0x80, 4, 16, 32, true, [⟨31, 0, .ro, 0x0⟩]⟩,
  ⟨"NWU_HIST_S", 0xC0, 4, 16, 32, true, [⟨31, 0, .ro, 0x0⟩]⟩,
  ⟨"NOTICE", 0x10, 0, 1, 32, false, [⟨2, 2, .w1c, 0x0⟩, ⟨1, 1, .w1c, 0x0⟩, ⟨0, 0, .w1c, 0x0⟩]⟩]

def RegRows.kln : List RRow := [
  ⟨"KLN_CQ", 0x40, 0, 1, 32, false, [⟨11, 0, .rw, 0x0⟩]⟩,
  ⟨"KLN_SQ", 0x44, 0, 1, 32, false, [⟨31, 31, .rw, 0x0⟩, ⟨11, 0, .rw, 0x0⟩]⟩,
  ⟨"KLN_STATE", 0x48, 0, 1, 32, false, [⟨21, 16, .ro, 0x0⟩, ⟨11, 8, .ro, 0x0⟩, ⟨1, 0, .ro, 0x0⟩]⟩,
  ⟨"KLN_WAIT_IN", 0x4C, 0, 1, 32, true, [⟨31, 0, .ro, 0x0⟩]⟩,
  ⟨"KLN_WAIT_PORT", 0x50, 0, 1, 32, true, [⟨31, 0, .ro, 0x0⟩]⟩,
  ⟨"KLN_JOBS", 0x54, 0, 1, 32, true, [⟨31, 0, .ro, 0x0⟩]⟩,
  ⟨"KLN_MISSES", 0x58, 0, 1, 32, true, [⟨31, 0, .ro, 0x0⟩]⟩,
  ⟨"KLN_SUBST", 0x5C, 0, 1, 32, true, [⟨31, 0, .ro, 0x0⟩]⟩,
  ⟨"KLN_SAT", 0x60, 0, 1, 32, true, [⟨31, 0, .ro, 0x0⟩]⟩,
  ⟨"KLN_WARM_MISS", 0x64, 0, 1, 32, true, [⟨31, 0, .ro, 0x0⟩]⟩,
  ⟨"KLN_RDYCLR", 0x68, 0, 1, 32, false, [⟨31, 16, .wo, 0x0⟩, ⟨15, 0, .wo, 0x0⟩]⟩,
  ⟨"KLN_FAULT", 0x70, 0, 1, 64, false, [⟨47, 40, .ro, 0x0⟩, ⟨39, 32, .ro, 0x0⟩, ⟨16, 0, .ro, 0x0⟩]⟩,
  ⟨"NOTICE", 0x10, 0, 1, 32, false, [⟨4, 4, .w1c, 0x0⟩, ⟨3, 3, .w1c, 0x0⟩, ⟨2, 2, .w1c, 0x0⟩, ⟨1, 1, .w1c, 0x0⟩, ⟨0, 0, .w1c, 0x0⟩]⟩]

def RegRows.frt : List RRow := [
  ⟨"FRT_DOMAIN", 0x40, 0, 1, 32, false, [⟨31, 31, .rw, 0x0⟩, ⟨15, 0, .rw, 0x0⟩]⟩,
  ⟨"FRT_EXT", 0x44, 0, 1, 32, false, [⟨22, 16, .rw, 0x40⟩, ⟨11, 8, .rw, 0x8⟩, ⟨3, 0, .rw, 0x8⟩]⟩,
  ⟨"FRT_COORD", 0x48, 0, 1, 32, false, [⟨31, 31, .ro, 0x0⟩, ⟨11, 6, .ro, 0x0⟩, ⟨5, 3, .ro, 0x0⟩, ⟨2, 0, .ro, 0x0⟩]⟩,
  ⟨"FRT_DROP_UNREACH", 0x4C, 0, 1, 32, true, [⟨31, 0, .ro, 0x0⟩]⟩,
  ⟨"FRT_DROP_STRANGER", 0x50, 0, 1, 32, true, [⟨31, 0, .ro, 0x0⟩]⟩,
  ⟨"FRT_DROP_BAD", 0x54, 0, 1, 32, true, [⟨31, 0, .ro, 0x0⟩]⟩,
  ⟨"FRT_STRANGER_LOG", 0x58, 0, 1, 32, false, [⟨31, 16, .ro, 0x0⟩, ⟨15, 12, .ro, 0x0⟩, ⟨11, 0, .ro, 0x0⟩]⟩,
  ⟨"FRT_TRANSIT", 0x100, 8, 64, 64, false, [⟨63, 63, .rw, 0x0⟩, ⟨59, 48, .rw, 0x0⟩, ⟨47, 36, .rw, 0x0⟩, ⟨35, 24, .rw, 0x0⟩, ⟨15, 0, .rw, 0x0⟩]⟩,
  ⟨"NOTICE", 0x10, 0, 1, 32, false, [⟨4, 4, .w1c, 0x0⟩, ⟨3, 3, .w1c, 0x0⟩, ⟨2, 2, .w1c, 0x0⟩, ⟨1, 1, .w1c, 0x0⟩, ⟨0, 0, .w1c, 0x0⟩]⟩]

def RegRows.port : List RRow := [
  ⟨"PORT_STATE", 0x40, 0, 1, 64, false, [⟨59, 48, .ro, 0x0⟩, ⟨47, 32, .ro, 0x0⟩, ⟨31, 16, .ro, 0x0⟩, ⟨1, 0, .ro, 0x0⟩]⟩,
  ⟨"PORT_FEC_CORR", 0x48, 0, 1, 64, true, [⟨63, 0, .ro, 0x0⟩]⟩,
  ⟨"PORT_CELLS_TX", 0x70, 0, 1, 64, true, [⟨63, 0, .ro, 0x0⟩]⟩,
  ⟨"PORT_CELLS_RX", 0x78, 0, 1, 64, true, [⟨63, 0, .ro, 0x0⟩]⟩,
  ⟨"PORT_FEC_UNCORR", 0x50, 0, 1, 32, true, [⟨31, 0, .ro, 0x0⟩]⟩,
  ⟨"PORT_RETRIES", 0x54, 0, 1, 32, true, [⟨31, 0, .ro, 0x0⟩]⟩,
  ⟨"PORT_RETRY_CYC", 0x58, 0, 1, 32, true, [⟨31, 0, .ro, 0x0⟩]⟩,
  ⟨"PORT_DOWNS", 0x5C, 0, 1, 32, true, [⟨31, 0, .ro, 0x0⟩]⟩,
  ⟨"PORT_CONTEND", 0x60, 0, 1, 32, true, [⟨31, 0, .ro, 0x0⟩]⟩,
  ⟨"PORT_REROUTE", 0x64, 0, 1, 32, true, [⟨31, 0, .ro, 0x0⟩]⟩,
  ⟨"PORT_STRANGER", 0x68, 0, 1, 32, true, [⟨31, 0, .ro, 0x0⟩]⟩,
  ⟨"PORT_RETRY_RUN", 0x6C, 0, 1, 32, true, [⟨3, 0, .ro, 0x0⟩]⟩,
  ⟨"NOTICE", 0x10, 0, 1, 32, false, [⟨2, 2, .w1c, 0x0⟩, ⟨1, 1, .w1c, 0x0⟩, ⟨0, 0, .w1c, 0x0⟩]⟩]

def RegRows.fma : List RRow := [
  ⟨"FMA_HPCE", 0x40, 8, 4, 64, false, [⟨63, 63, .rw, 0x0⟩, ⟨43, 32, .rw, 0x0⟩, ⟨11, 0, .rw, 0x0⟩]⟩,
  ⟨"FMA_AQ", 0x60, 0, 1, 64, false, [⟨63, 63, .rw, 0x0⟩, ⟨43, 32, .rw, 0x0⟩, ⟨11, 0, .rw, 0x0⟩]⟩,
  ⟨"FMA_ACK_TO", 0x68, 0, 1, 32, false, [⟨31, 0, .rw, 0x100000⟩]⟩,
  ⟨"FMA_GAP_TO", 0x6C, 0, 1, 32, false, [⟨31, 0, .rw, 0x10000⟩]⟩,
  ⟨"FMA_ACK_TIMEOUTS", 0x70, 0, 1, 32, true, [⟨31, 0, .ro, 0x0⟩]⟩,
  ⟨"FMA_REORDERED", 0x74, 0, 1, 32, true, [⟨31, 0, .ro, 0x0⟩]⟩,
  ⟨"FMA_REORDER_DROP", 0x78, 0, 1, 32, true, [⟨31, 0, .ro, 0x0⟩]⟩,
  ⟨"FMA_NACKS", 0x7C, 0, 1, 32, true, [⟨31, 0, .ro, 0x0⟩]⟩,
  ⟨"FMA_ORPHAN_ACKS", 0x80, 0, 1, 32, true, [⟨31, 0, .ro, 0x0⟩]⟩,
  ⟨"FMA_CREDIT_WAIT", 0x84, 0, 1, 32, true, [⟨31, 0, .ro, 0x0⟩]⟩,
  ⟨"NOTICE", 0x10, 0, 1, 32, false, [⟨3, 3, .w1c, 0x0⟩, ⟨2, 2, .w1c, 0x0⟩, ⟨1, 1, .w1c, 0x0⟩, ⟨0, 0, .w1c, 0x0⟩]⟩]

def RegRows.col : List RRow := [
  ⟨"COL_SQ", 0x40, 0, 1, 32, false, [⟨31, 31, .rw, 0x0⟩, ⟨11, 0, .rw, 0x0⟩]⟩,
  ⟨"COL_CQ", 0x44, 0, 1, 32, false, [⟨11, 0, .rw, 0x0⟩]⟩,
  ⟨"COL_ADMQ", 0x48, 0, 1, 32, false, [⟨11, 0, .rw, 0x0⟩]⟩,
  ⟨"COL_GRPBASE", 0x50, 0, 1, 64, false, [⟨39, 20, .rw, 0x0⟩]⟩,
  ⟨"COL_GCMD", 0x58, 0, 1, 64, false, [⟨63, 63, .ro, 0x0⟩, ⟨57, 48, .rw, 0x0⟩, ⟨47, 0, .rw, 0x0⟩]⟩,
  ⟨"COL_POOL", 0x60, 0, 1, 64, false, [⟨59, 48, .rw, 0x300⟩, ⟨43, 32, .rw, 0x300⟩, ⟨27, 16, .rw, 0x300⟩, ⟨11, 0, .rw, 0x300⟩]⟩,
  ⟨"COL_FREE", 0x68, 0, 1, 64, false, [⟨59, 48, .ro, 0x300⟩, ⟨43, 32, .ro, 0x300⟩, ⟨27, 16, .ro, 0x300⟩, ⟨11, 0, .ro, 0x300⟩]⟩,
  ⟨"COL_LAG", 0x70, 0, 1, 64, false, [⟨59, 48, .ro, 0x0⟩, ⟨47, 32, .ro, 0x0⟩, ⟨31, 0, .ro, 0x0⟩]⟩,
  ⟨"COL_SKEW_LAST", 0x78, 0, 1, 32, false, [⟨31, 0, .ro, 0x0⟩]⟩,
  ⟨"COL_OPTO", 0x7C, 0, 1, 32, false, [⟨31, 0, .rw, 0x100000⟩]⟩,
  ⟨"COL_ADMWAIT", 0x80, 0, 1, 32, true, [⟨31, 0, .ro, 0x0⟩]⟩,
  ⟨"COL_EXCL", 0x84, 0, 1, 32, true, [⟨31, 0, .ro, 0x0⟩]⟩,
  ⟨"COL_SKEWS", 0x88, 0, 1, 32, true, [⟨31, 0, .ro, 0x0⟩]⟩,
  ⟨"COL_REFORMS", 0x8C, 0, 1, 32, true, [⟨31, 0, .ro, 0x0⟩]⟩,
  ⟨"COL_GEN_DROP", 0x90, 0, 1, 32, true, [⟨31, 0, .ro, 0x0⟩]⟩,
  ⟨"COL_OPS", 0x94, 0, 1, 32, true, [⟨31, 0, .ro, 0x0⟩]⟩,
  ⟨"COL_INFLIGHT", 0x98, 0, 1, 32, false, [⟨6, 0, .ro, 0x0⟩]⟩,
  ⟨"NOTICE", 0x10, 0, 1, 32, false, [⟨5, 5, .w1c, 0x0⟩, ⟨4, 4, .w1c, 0x0⟩, ⟨3, 3, .w1c, 0x0⟩, ⟨2, 2, .w1c, 0x0⟩, ⟨1, 1, .w1c, 0x0⟩, ⟨0, 0, .w1c, 0x0⟩]⟩]

def RegRows.frit : List RRow := [
  ⟨"FRIT_BEACONS", 0x40, 0, 1, 32, true, [⟨31, 0, .ro, 0x0⟩]⟩,
  ⟨"FRIT_OPS", 0x44, 0, 1, 32, true, [⟨31, 0, .ro, 0x0⟩]⟩,
  ⟨"FRIT_DROP", 0x48, 0, 1, 32, true, [⟨31, 0, .ro, 0x0⟩]⟩,
  ⟨"FRIT_LAST_LAT", 0x4C, 0, 1, 32, false, [⟨31, 0, .ro, 0x0⟩]⟩,
  ⟨"NOTICE", 0x10, 0, 1, 32, false, [⟨0, 0, .w1c, 0x0⟩]⟩]

def RegRows.hif : List RRow := [
  ⟨"HIF_LINK", 0x40, 0, 1, 32, false, [⟨13, 12, .ro, 0x0⟩, ⟨11, 11, .ro, 0x0⟩, ⟨10, 10, .ro, 0x0⟩, ⟨9, 5, .ro, 0x0⟩, ⟨4, 0, .ro, 0x0⟩]⟩,
  ⟨"HIF_HDM", 0x48, 0, 1, 64, false, [⟨63, 0, .ro, 0x0⟩]⟩,
  ⟨"HIF_CTL", 0x50, 0, 1, 32, false, [⟨31, 31, .w1s, 0x1⟩, ⟨10, 0, .rw, 0x0⟩]⟩,
  ⟨"HIF_BI_TO", 0x54, 0, 1, 32, false, [⟨31, 0, .rw, 0x100000⟩]⟩,
  ⟨"HIF_PARTIAL", 0x58, 0, 1, 32, true, [⟨31, 0, .ro, 0x0⟩]⟩,
  ⟨"HIF_HDM_BAD", 0x5C, 0, 1, 32, true, [⟨31, 0, .ro, 0x0⟩]⟩,
  ⟨"HIF_WB_DISCARD", 0x60, 0, 1, 32, true, [⟨31, 0, .ro, 0x0⟩]⟩,
  ⟨"HIF_BI_TIMEOUTS", 0x64, 0, 1, 32, true, [⟨31, 0, .ro, 0x0⟩]⟩,
  ⟨"HIF_RING_FULL", 0x68, 0, 1, 32, true, [⟨31, 0, .ro, 0x0⟩]⟩,
  ⟨"HIF_RING_CTL", 0x100, 32, 64, 32, false, [⟨31, 31, .rw, 0x0⟩, ⟨30, 30, .rw, 0x0⟩, ⟨29, 29, .rw, 0x0⟩, ⟨28, 24, .rw, 0x0⟩, ⟨23, 12, .rw, 0x0⟩, ⟨10, 0, .rw, 0x0⟩]⟩,
  ⟨"HIF_RING_BASE", 0x108, 32, 64, 64, false, [⟨63, 6, .rw, 0x0⟩]⟩,
  ⟨"HIF_RING_HEAD", 0x110, 32, 64, 32, false, [⟨31, 31, .w1s, 0x0⟩, ⟨30, 0, .rw, 0x0⟩]⟩,
  ⟨"HIF_RING_TAIL", 0x114, 32, 64, 32, false, [⟨31, 31, .w1s, 0x0⟩, ⟨30, 0, .rw, 0x0⟩]⟩,
  ⟨"NOTICE", 0x10, 0, 1, 32, false, [⟨6, 6, .w1c, 0x0⟩, ⟨5, 5, .w1c, 0x0⟩, ⟨4, 4, .w1c, 0x0⟩, ⟨3, 3, .w1c, 0x0⟩, ⟨2, 2, .w1c, 0x0⟩, ⟨1, 1, .w1c, 0x0⟩]⟩]

def RegRows.qcfg : List RRow := [
  ⟨"QMU_QCFG", 0x0, 16, 4096, 32, false, [⟨31, 31, .rw, 0x1⟩, ⟨30, 30, .rw, 0x0⟩, ⟨15, 10, .rw, 0x0⟩, ⟨7, 5, .rw, 0x0⟩, ⟨2, 0, .rw, 0x0⟩]⟩,
  ⟨"QMU_QLIM", 0x4, 16, 4096, 32, false, [⟨20, 0, .rw, 0x0⟩]⟩,
  ⟨"QMU_QTO", 0x8, 16, 4096, 32, false, [⟨23, 0, .rw, 0x0⟩]⟩,
  ⟨"QMU_QSTS", 0xC, 16, 4096, 32, false, [⟨31, 31, .ro, 0x0⟩, ⟨30, 30, .ro, 0x0⟩, ⟨29, 29, .ro, 0x0⟩, ⟨20, 0, .ro, 0x0⟩]⟩]

def RegRows.qmu : List RRow := [
  ⟨"QMU_CQ", 0x40, 0, 1, 32, false, [⟨11, 0, .rw, 0x0⟩]⟩,
  ⟨"QMU_QCMD", 0x44, 0, 1, 32, false, [⟨19, 16, .wo, 0x0⟩, ⟨11, 0, .wo, 0x0⟩]⟩,
  ⟨"QMU_FREE", 0x48, 0, 1, 32, false, [⟨20, 0, .ro, 0x100000⟩]⟩,
  ⟨"QMU_ENQ_WAIT", 0x4C, 0, 1, 32, true, [⟨31, 0, .ro, 0x0⟩]⟩,
  ⟨"QMU_HOST_DROP", 0x50, 0, 1, 32, true, [⟨31, 0, .ro, 0x0⟩]⟩,
  ⟨"QMU_DIS_DROP", 0x54, 0, 1, 32, true, [⟨31, 0, .ro, 0x0⟩]⟩,
  ⟨"QMU_LOST", 0x58, 0, 1, 32, true, [⟨31, 0, .ro, 0x0⟩]⟩,
  ⟨"QMU_STALES", 0x5C, 0, 1, 32, true, [⟨31, 0, .ro, 0x0⟩]⟩,
  ⟨"QMU_ARB_WAIT", 0x60, 0, 1, 32, true, [⟨31, 0, .ro, 0x0⟩]⟩,
  ⟨"QMU_STALE_LAST", 0x64, 0, 1, 32, false, [⟨11, 0, .ro, 0x0⟩]⟩,
  ⟨"NOTICE", 0x10, 0, 1, 32, false, [⟨3, 3, .w1c, 0x0⟩, ⟨2, 2, .w1c, 0x0⟩, ⟨1, 1, .w1c, 0x0⟩, ⟨0, 0, .w1c, 0x0⟩]⟩]

def RegRows.sec : List RRow := [
  ⟨"SEC_MB_CMD", 0x40, 0, 1, 64, false, [⟨40, 37, .rw, 0x0⟩, ⟨36, 24, .rw, 0x0⟩, ⟨23, 4, .rw, 0x0⟩, ⟨3, 0, .wo, 0x0⟩]⟩,
  ⟨"SEC_MB_STS", 0x48, 0, 1, 32, false, [⟨31, 31, .ro, 0x0⟩, ⟨9, 8, .ro, 0x0⟩, ⟨7, 0, .ro, 0x0⟩]⟩,
  ⟨"SEC_ACT", 0x50, 0, 1, 64, false, [⟨63, 48, .rw, 0x0⟩, ⟨47, 0, .rw, 0x0⟩]⟩,
  ⟨"SEC_CQ", 0x58, 0, 1, 32, false, [⟨11, 0, .rw, 0x0⟩]⟩,
  ⟨"SEC_VER", 0x60, 4, 6, 32, false, [⟨31, 16, .ro, 0x0⟩, ⟨15, 0, .ro, 0x0⟩]⟩,
  ⟨"NOTICE", 0x10, 0, 1, 32, false, [⟨2, 2, .w1c, 0x0⟩, ⟨1, 1, .w1c, 0x0⟩, ⟨0, 0, .w1c, 0x0⟩]⟩]

def RegRows.mmc : List RRow := [
  ⟨"MMC_VIN", 0x40, 0, 1, 32, false, [⟨31, 16, .ro, 0x0⟩, ⟨15, 0, .ro, 0x0⟩]⟩,
  ⟨"MMC_PIN", 0x44, 0, 1, 32, false, [⟨31, 16, .ro, 0x0⟩, ⟨15, 0, .ro, 0x0⟩]⟩,
  ⟨"MMC_PLIMIT", 0x48, 0, 1, 32, false, [⟨23, 16, .rw, 0xA⟩, ⟨15, 0, .rw, 0x0⟩]⟩,
  ⟨"MMC_THR_TURNS", 0x4C, 0, 1, 32, true, [⟨31, 0, .ro, 0x0⟩]⟩,
  ⟨"MMC_TEMP", 0x50, 0, 1, 64, false, [⟨39, 32, .ro, 0x0⟩, ⟨31, 24, .ro, 0x0⟩, ⟨23, 16, .ro, 0x0⟩, ⟨15, 8, .ro, 0x0⟩, ⟨7, 0, .ro, 0x0⟩]⟩,
  ⟨"NOTICE", 0x10, 0, 1, 32, false, [⟨6, 6, .w1c, 0x0⟩, ⟨5, 5, .w1c, 0x0⟩, ⟨4, 4, .w1c, 0x0⟩, ⟨3, 3, .w1c, 0x0⟩, ⟨2, 2, .w1c, 0x0⟩, ⟨1, 1, .w1c, 0x0⟩, ⟨0, 0, .w1c, 0x0⟩]⟩]

def RegRows.every : List RRow := [
  ⟨"BLKID", 0x0, 0, 1, 32, false, [⟨31, 16, .ro, 0x0⟩, ⟨15, 8, .ro, 0x0⟩, ⟨7, 0, .ro, 0x1⟩]⟩,
  ⟨"BLKCAP", 0x4, 0, 1, 32, false, [⟨0, 0, .ro, 0x0⟩]⟩,
  ⟨"BLKCTL", 0x8, 0, 1, 32, false, [⟨31, 31, .w1s, 0x0⟩, ⟨1, 1, .rw, 0x0⟩, ⟨0, 0, .rw, 0x1⟩]⟩,
  ⟨"BLKSTS", 0xC, 0, 1, 32, false, [⟨3, 3, .ro, 0x0⟩, ⟨2, 2, .ro, 0x0⟩, ⟨1, 1, .ro, 0x0⟩, ⟨0, 0, .ro, 0x0⟩]⟩,
  ⟨"NOTICE_EN", 0x14, 0, 1, 32, false, [⟨31, 0, .rw, 0x0⟩]⟩,
  ⟨"ERRCNT", 0x18, 0, 1, 32, true, [⟨31, 0, .ro, 0x0⟩]⟩,
  ⟨"FLAGS", 0x1C, 0, 1, 32, false, [⟨20, 0, .w1c, 0x0⟩]⟩,
  ⟨"FIRST_ERR", 0x20, 0, 1, 64, false, [⟨63, 0, .ro, 0x0⟩]⟩]

def RegRows.dbg : List RRow := [
  ⟨"DBG_CYCLES", 0x40, 0, 1, 64, false, [⟨63, 0, .ro, 0x0⟩]⟩,
  ⟨"DBG_D2D_CONTEND", 0x80, 4, 8, 32, true, [⟨31, 0, .ro, 0x0⟩]⟩,
  ⟨"DBG_HUB_CONTEND", 0xA0, 0, 1, 32, true, [⟨31, 0, .ro, 0x0⟩]⟩,
  ⟨"DBG_D2D_KIB", 0xC0, 8, 8, 64, true, [⟨63, 0, .ro, 0x0⟩]⟩]

end Sys2Proof.Machine
end

