-- ==== Sys2Proof/Machine/Ops.lean ====
section
/-! DEFINITION. The shared operations: reading and writing register fields, the clock, memory, the population and
fences, error bookkeeping of a page, the queue pool, and posting a completion record. Every meaning is written over
these. -/

namespace Sys2Proof.Machine

/-- The outcome of a command. -/
abbrev Res := Host.Outcome State Fault Refusal

/-- A completed command: the next state, with the count of free values advanced. -/
def ok (s : State) : Res := .next { s with fresh := s.fresh + 1 }

/-! Registers. -/

/-- The key of a field in the register table. -/
def Fld.key (f : Fld) : Nat := f.addr * 128 + f.lo

/-- The value of a register field. -/
def rd (s : State) (f : Fld) : Nat := Tab.get f.rst s.regs f.key

/-- Whether a one-bit field is 1. -/
def rdb (s : State) (f : Fld) : Bool := rd s f != 0

/-- The value of a field set, in its width. -/
def wr (s : State) (f : Fld) (v : Nat) : State := { s with regs := Tab.put f.rst s.regs f.key (v % 2 ^ f.wid) }

/-- Several fields set, in order. -/
def wrs (s : State) (l : List (Fld × Nat)) : State := l.foldl (fun s p => wr s p.1 p.2) s

/-- A counter advanced: one of up to 32 bits saturates, one of 64 bits wraps (R405). -/
def bump (s : State) (f : Fld) (n : Nat) : State :=
  wr s f (if f.wid = 64 then rd s f + n else min (rd s f + n) (2 ^ f.wid - 1))

/-- Fields returned to their reset values: those whose register address satisfies p (R354). -/
def resetRegs (s : State) (p : Nat → Bool) : State := { s with regs := Tab.keep (fun k => !p (k / 128)) s.regs }

/-! The clock. -/

/-- The clock carried forward to a cycle; it never goes back. -/
def advance (s : State) (c : Nat) : State := { s with now := max s.now c }

/-- The turn offset of a clock cycle. -/
def offsetAt (s : State) (c : Nat) : Nat := c - s.turn.start
/-- The present turn offset (TRN_CYCLE). -/
def offset (s : State) : Nat := offsetAt s s.now

/-- The current turn number (R24). -/
def turnNo (s : State) : Nat := rd s Fd.trnTurnNoTurn

/-- A message to the outside. -/
def emit (s : State) (o : Out) : State := { s with out := s.out ++ [o] }

/-! Units. -/

def tile (s : State) (t : Nat) : Tile := Tab.get tileInit s.tiles t
def setTile (s : State) (t : Nat) (x : Tile) : State := { s with tiles := Tab.put tileInit s.tiles t x }
def updTile (s : State) (t : Nat) (f : Tile → Tile) : State := setTile s t (f (tile s t))

def coreOf (s : State) (t c : Nat) : Core := Tab.get coreInit s.cores (32 * t + c)
def setCore (s : State) (t c : Nat) (x : Core) : State := { s with cores := Tab.put coreInit s.cores (32 * t + c) x }

def engine (s : State) (e : Nat) : Engine := Tab.get engineInit s.engines e
def setEngine (s : State) (e : Nat) (x : Engine) : State := { s with engines := Tab.put engineInit s.engines e x }

def kiln (s : State) (k : Nat) : Kiln := Tab.get kilnInit s.kilns k
def setKiln (s : State) (k : Nat) (x : Kiln) : State := { s with kilns := Tab.put kilnInit s.kilns k x }

/-! Population and fences (R2, R16, R347, R348). -/

def capTile (v : Variant) (t : Nat) : Bool := match v with | .s => t < 32 | _ => t < 64
def capCpt (v : Variant) (t : Nat) : Bool := match v with | .s => false | _ => t < 64
def capStack (v : Variant) (k : Nat) : Bool := match v with | .f => k < 16 | .l => k < 16 && k % 4 != 3 | .s => k < 8
def capKiln (v : Variant) (k : Nat) : Bool := match v with | .f => k < 4 | .l => false | .s => k < 2
def capDie (v : Variant) (d : Nat) : Bool := match v with | .s => d < 2 | _ => d < 4
def capPort (v : Variant) (p : Nat) : Bool := match v with | .f => p < 12 | _ => p < 8

/-- BAR0 page bases of the fence scopes (R395). -/
def stackPage (k : Nat) : Nat := 0x60000 + k * 0x1000
def nwuPage (d : Nat) : Nat := 0x70000 + d * 0x1000
def kilnPage (k : Nat) : Nat := 0x80000 + k * 0x4000
def portPage (p : Nat) : Nat := 0x10000 + p * 0x1000

/-- A fence of a scope page is in force. -/
def fencedPage (s : State) (pg : Nat) : Bool := s.boot.fences.any fun f => f.page == pg
/-- Compute die d is fenced by the hardware (R345, R349). -/
def fencedDie (s : State) (d : Nat) : Bool := s.boot.dies.contains d

def fencedTile (s : State) (t : Nat) : Bool := fencedPage s (tilePage t 0) || fencedDie s (t / 16)
def fencedCpt (s : State) (t : Nat) : Bool := fencedPage s (tilePage t 8) || fencedTile s t
def fencedStack (s : State) (k : Nat) : Bool := fencedPage s (stackPage k) || fencedDie s (k / 4)
def fencedKiln (s : State) (k : Nat) : Bool := fencedPage s (kilnPage k) || fencedDie s k
def fencedNwu (s : State) (d : Nat) : Bool := fencedPage s (nwuPage d) || fencedDie s d
def fencedPort (s : State) (p : Nat) : Bool := fencedPage s (portPage p) || fencedPage s 0x3000

/-- Present and not fenced (AVAIL, R15). -/
def availTile (s : State) (t : Nat) : Bool := capTile s.variant t && !fencedTile s t
def availCpt (s : State) (t : Nat) : Bool := capCpt s.variant t && !fencedCpt s t
def availStack (s : State) (k : Nat) : Bool := capStack s.variant k && !fencedStack s k
def availKiln (s : State) (k : Nat) : Bool := capKiln s.variant k && !fencedKiln s k
def availNwu (s : State) (d : Nat) : Bool := capDie s.variant d && !fencedNwu s d
def availPort (s : State) (p : Nat) : Bool := capPort s.variant p && !fencedPort s p

/-! Memory (R11, R121, R161). -/

def hbmTop : Nat := 0xC000000000
def tileBase (t : Nat) : Nat := 0xC000000000 + t * 0x1000000
def planBase (t : Nat) : Nat := tileBase t + 0x800000
def opcBase (t : Nat) : Nat := tileBase t + 0x900000
def ldmBase (t c : Nat) : Nat := tileBase t + 0xA00000 + c * 0x2000
def imemBase (t c : Nat) : Nat := tileBase t + 0xB00000 + c * 0x4000
def kilnBase (k : Nat) : Nat := 0xC040000000 + k * 0x4000000

/-- What a byte that is not listed reads as: a free value in HBM (R364, log entry 1), zero elsewhere. -/
def memDefault (fresh a : Nat) : BitVec 8 := if a < hbmTop then Config.freeHbm fresh a else 0

/-- A byte of memory. -/
def readByte (s : State) (a : Nat) : Byte := (Tab.find s.mem a).getD (memDefault s.fresh a)

/-- Bytes of memory in ascending address. -/
def readBytes (s : State) (a n : Nat) : List Byte := (List.range n).map fun i => readByte s (a + i)

/-- A little-endian number in memory. -/
def readLE (s : State) (a n : Nat) : Nat := leNat (readBytes s a n)

/-- A byte listed in canonical form: an HBM byte always, another byte unless it is zero. -/
def memPut (m : List Host.Cell) (a : Nat) (b : Byte) : List Host.Cell :=
  if a < hbmTop then Tab.insert m a b else Tab.put 0 m a b

/-- Bytes listed from an address on. -/
def memWrite (m : List Host.Cell) (a : Nat) : List Byte → List Host.Cell
  | [] => m
  | b :: bs => memWrite (memPut m a b) (a + 1) bs

/-- The canonical form of memory: addresses strictly rising, no zero byte listed outside HBM. -/
def memWf (m : List Host.Cell) : Bool := Tab.risingFrom 0 m && m.all fun p => decide (p.1 < hbmTop) || p.2 != 0

/-- Zeroing ranges of memory: every byte whose address satisfies p reads 0 (p holds outside HBM only). -/
def memClear (m : List Host.Cell) (p : Nat → Bool) : List Host.Cell := Tab.keep (fun a => !p a) m

/-! Local targets (R161). -/

/-- What a local offset reaches. -/
inductive Target where
  | hbm (stack : Nat)
  | marver (t : Nat)
  | plan (t : Nat)
  | cluster (t : Nat)
  | kiln (k : Nat)
  | none
  deriving DecidableEq, Repr

/-- The target of a local offset, whether or not it is present. -/
def targetOf (a : Nat) : Target :=
  if a < hbmTop then .hbm (a / 0xC00000000)
  else if a < 0xC040000000 then
    let t := (a - hbmTop) / 0x1000000
    let o := (a - hbmTop) % 0x1000000
    if o < 0x800000 then .marver t
    else if o < 0x808000 then .plan t
    else if 0x900000 ≤ o ∧ o < 0x940000 then .cluster t
    else if 0xA00000 ≤ o ∧ o < 0xA40000 then .cluster t
    else if 0xB00000 ≤ o ∧ o < 0xB80000 then .cluster t
    else .none
  else if a < 0xC050000000 then
    let k := (a - 0xC040000000) / 0x4000000
    if (a - 0xC040000000) % 0x4000000 < 0x1E00000 then .kiln k else .none
  else .none

/-- A local byte that a punty copy or a fabric access may touch: in the map, present and not fenced (R17, R163, R348). -/
def reachable (s : State) (a : Nat) : Bool :=
  match targetOf a with
  | .hbm k => availStack s k
  | .marver t | .plan t | .cluster t => availTile s t
  | .kiln k => availKiln s k
  | .none => false

/-- A local byte lies in the map, in a unit that the variant has (R17). -/
def presentAt (s : State) (a : Nat) : Bool :=
  match targetOf a with
  | .hbm k => capStack s.variant k
  | .marver t | .plan t | .cluster t => capTile s.variant t
  | .kiln k => capKiln s.variant k
  | .none => false

/-- Compute die of a local offset (R10). -/
def dieOf (a : Nat) : Nat :=
  match targetOf a with
  | .hbm k => k / 4
  | .marver t | .plan t | .cluster t => t / 16
  | .kiln k => k
  | .none => 0

/-- Extra cycles from compute die d to compute die e and back (R13, R14, R351): neighbours 36, across the hub die 152. -/
def dieRoute (s : State) (d e : Nat) : Nat :=
  if d = e then 0
  else
    let pair := if (d + 1) % 4 = e then d else if (e + 1) % 4 = d then e else 4
    if pair < 4 ∧ ¬ (rd s Fd.moduleStateReroute).testBit pair then 36 else 152

/-- The die-to-die links between dies d and e (4: the hub): link l < 4 joins die l to the hub, 4 + pair two neighbours (R14, R351, R406). -/
def linksOf (s : State) (d e : Nat) : List Nat :=
  if d = e then [] else if d = 4 then [e] else if e = 4 then [d]
  else
    let pair := if (d + 1) % 4 = e then d else if (e + 1) % 4 = d then e else 4
    if pair < 4 ∧ ¬ (rd s Fd.moduleStateReroute).testBit pair then [4 + pair] else [d, e]

/-- n bytes take an output from clock cycle c on, 1 KiB in each cycle: where an earlier transfer still has it, the cycles that they lose are
counted (R40). Transfers of one cycle go in the order in which they come to pass (the model's choice of the round-robin's order, log entry
13). -/
def takeOut (s : State) (o n c : Nat) (f : Fld) : State × Nat :=
  let free := Tab.get 0 s.fma.outs o
  (bump { s with fma := { s.fma with outs := Tab.put 0 s.fma.outs o (max c free + ceilDiv n 1024) } } f (free - c), free - c)

/-- n bytes cross link l in a direction (R406): DBG_D2D_KIB and DBG_D2D_CONTEND. -/
def crossLink (s : State) (l dir n c : Nat) : State × Nat :=
  let was := Tab.get 0 s.fma.links l
  let s := bump { s with fma := { s.fma with links := Tab.put 0 s.fma.links l (was + n) } } (Fd.dbgD2dKibCount l) ((was + n) / 1024 - was / 1024)
  takeOut s (2 * l + dir) n c (Fd.dbgD2dContendCount l)

/-- Units of the hub die that take data by an output of its router other than a fabric port (R406). -/
def hubCol : Nat := 1
def hubQmu : Nat := 2
def hubHost : Nat := 3

/-- n bytes of data go from die d to die e (4: the hub die, there to a unit of its own or, as 0, to the fabric path) from clock cycle c on: what
they cross counts them (R14, R406), and the cycles that they lose on the way (R40). -/
def carry (s : State) (d e unit n c : Nat) : State × Nat :=
  if n = 0 then (s, 0)
  else
    let r := (linksOf s d e).foldl (fun (r : State × Nat) l =>
      let x := crossLink r.1 l (if l < 4 then b2n (l == d) else b2n (l - 4 == d)) n (c + r.2)
      (x.1, r.2 + x.2)) (s, 0)
    if e ≠ 4 ∨ unit = 0 then r
    else
      let x := takeOut r.1 (16 + unit) n (c + r.2) Fd.dbgHubContendCount
      (x.1, r.2 + x.2)

/-- Marver byte range check used by the tile units (R73, R109, R144): n bytes at a lie in Marver. -/
def inMarver (a n : Nat) : Bool := a + n ≤ 0x800000

/-! Errors and flags of a page (R397). -/

/-- The error in FIRST_ERR of a page gives way to one of SRC_INDEX idx and TAG tag: there is none since the last clear, or it is of this
cycle and behind in that order (R399). -/
def firstGives (s : State) (b idx tag : Nat) : Bool :=
  rd s (Fd.errcntCount b) == 0 || match Tab.find s.firstErr b with
    | some x => x.1 == s.now && (decide (idx < x.2.1) || idx == x.2.1 && decide (tag < x.2.2))
    | none => false

/-- An error of SRC_INDEX idx and TAG tag counted on a page; info goes to FIRST_ERR when it is the first since the last clear. -/
def pageErrBy (s : State) (b idx tag info : Nat) : State :=
  let s' := if firstGives s b idx tag then
      wr { s with firstErr := Tab.insert s.firstErr b (s.now, idx, tag) } (Fd.firstErrInfo b) info
    else s
  bump s' (Fd.errcntCount b) 1

/-- The same of an error that has neither. -/
def pageErrInfo (s : State) (b info : Nat) : State := pageErrBy s b 0 0 info

/-- The FIRST_ERR layout of R91: TAG, STATUS, low 24 bits of TURN. -/
def errInfo (s : State) (tag status : Nat) : Nat := tag % 2 ^ 32 + status * 2 ^ 32 + turnNo s % 2 ^ 24 * 2 ^ 40

/-- An error in the layout of R91 counted on a page. -/
def pageErr (s : State) (b idx tag status : Nat) : State := pageErrBy s b idx tag (errInfo s tag status)

/-- The FLAGS of a record gathered on its page. -/
def pageFlags (s : State) (b : Nat) (f : Flags) : State :=
  wr s (Fd.flagsReg b) ((BitVec.ofNat 32 (rd s (Fd.flagsReg b)) ||| f).toNat)

/-- A NOTICE bit set. -/
def notice (s : State) (f : Fld) : State := wr s f 1

/-! The queue pool (R327, R331, R337). -/

/-- A queue. -/
def queue (s : State) (q : Nat) : Queue := Tab.get queueInit s.qmu.queues q
def setQueue (s : State) (q : Nat) (x : Queue) : State :=
  { s with qmu := { s.qmu with queues := Tab.put queueInit s.qmu.queues q x } }

/-- Cells that an item still holds. -/
def QItem.left (i : QItem) : Nat := i.cells.length
/-- The items of a queue that are readable in cycle c. -/
def Queue.readable (q : Queue) (c : Nat) : List QItem := q.items.filter fun i => decide (i.age ≤ c)
/-- Readable cells of a queue in cycle c (DEPTH). -/
def Queue.depth (q : Queue) (c : Nat) : Nat :=
  (match q.inprog with | some i => i.left | none => 0) + ((q.readable c).map QItem.left).sum
/-- Cells a queue holds, incomplete packets included. -/
def Queue.cells (q : Queue) : Nat :=
  (match q.inprog with | some i => i.left | none => 0) + (q.items.map QItem.left).sum + (q.parts.map fun p => p.cells.length).sum

/-- The lowest index not in a rising list, from k on. -/
def lowestFree : Nat → List Nat → Nat
  | k, [] => k
  | k, u :: us => if u = k then lowestFree (k + 1) us else k

/-- Insertion into a rising list. -/
def insertNat : List Nat → Nat → List Nat
  | [], a => [a]
  | b :: t, a => if a = b then b :: t else if a < b then a :: b :: t else b :: insertNat t a

/-- Cells of the pool. -/
def poolSize : Nat := 1048576
/-- QMU_FREE (R339). -/
def poolFree (s : State) : Nat := poolSize - s.qmu.used.length

/-- A cell taken from the pool, the lowest free one; its pointer is written anew. -/
def allocCell (s : State) (pay : List Byte) : State × QCell :=
  let i := lowestFree 0 s.qmu.used
  ({ s with qmu := { s.qmu with used := insertNat s.qmu.used i, badLinks := s.qmu.badLinks.erase i, nextSeq := s.qmu.nextSeq + 1 } },
    ⟨i, pay, s.qmu.nextSeq⟩)

/-- Cells returned to the pool. -/
def freeCells (s : State) (l : List QCell) : State :=
  { s with qmu := { s.qmu with used := s.qmu.used.filter fun i => !(l.any fun c => c.idx == i) } }

/-- Room for a cell in a queue (R331): the pool and the queue's own limit. -/
def roomIn (s : State) (q : Nat) : Bool :=
  decide (s.qmu.used.length < poolSize) &&
    (rd s (Fd.qmuQlimLimit q) == 0 || decide ((queue s q).cells < rd s (Fd.qmuQlimLimit q)))

/-- The queue accepts cells: enabled and not broken (R331, R337). -/
def accepts (s : State) (q : Nat) : Bool := rdb s (Fd.qmuQcfgEn q) && !(queue s q).broken

/-- An item put behind those that are no younger (R332). -/
def insertItem (i : QItem) : List QItem → List QItem
  | [] => [i]
  | j :: t => if i.age < j.age then i :: j :: t else j :: insertItem i t

/-- An item added; the stale timer starts in the cycle in which the queue turns non-empty (R335). -/
def addItem (s : State) (q : Nat) (i : QItem) : State :=
  let x := queue s q
  let x' := { x with items := insertItem i x.items }
  setQueue s q (if x.depth i.age = 0 then { x' with since := i.age, reported := false } else x')

/-- A payload padded to 64 bytes. -/
def pad64 (l : List Byte) : List Byte := (l ++ List.replicate 64 0).take 64

/-- A cell of a producer asks for the enqueue port from clock cycle c on (R331, R333). -/
def askEnq (s : State) (producer q prio c : Nat) (pay : List Byte) (kind plan : Nat) : State :=
  { s with qmu := { s.qmu with waiting := s.qmu.waiting ++ [⟨producer, q, prio, pad64 pay, c, kind, plan⟩] } }

/-- One cell of an engine to be enqueued as an item of its own. -/
def enqCell (s : State) (producer q prio c : Nat) (pay : List Byte) : State := askEnq s producer q prio c pay 0 0

/-- Producer numbers of R333. -/
def prodTile (t : Nat) : Nat := t
def prodKiln (k : Nat) : Nat := 64 + k
def prodCol : Nat := 68
def prodFma : Nat := 69
def prodNwu (d : Nat) : Nat := 70 + d
def prodTrn : Nat := 74
def prodHif : Nat := 75
def prodMmc : Nat := 76
def prodSec : Nat := 77

/-! Completion records (R18, R400). -/

/-- The 32 bytes of a record (R400), with the turn number turn and turn offset off. -/
def CRec.bytes (r : CRec) (turn off : Nat) : List Byte :=
  leBytes 4 r.tag ++ leBytes 1 r.status ++ leBytes 1 r.kind ++ leBytes 2 r.idx ++ leBytes 4 turn ++ leBytes 4 off ++
    leBytes 8 r.detail ++ leBytes 4 r.flags.toNat ++ leBytes 4 r.count

/-- A record posted to a queue at DEFPRIO (R330), with the turn and offset of its cycle. -/
def post (s : State) (producer q : Nat) (r : CRec) : State :=
  enqCell s producer q (rd s (Fd.qmuQcfgDefprio q)) r.cyc (r.bytes (turnNo s) (offsetAt s r.cyc))

/-- A record posted by the unit of page b: its FLAGS are gathered, and an error status is counted when err holds. -/
def postUnit (s : State) (b producer q : Nat) (err : Bool) (r : CRec) : State :=
  let s := pageFlags s b r.flags
  let s := if err then pageErr s b r.idx r.tag r.status else s
  post s producer q r

/-- A record posted with all that its posting does. -/
def postNow (s : State) (p : Posting) : State :=
  let s := p.notices.foldl notice s
  let s := p.counts.foldl (fun s f => bump s f 1) s
  let s := pageFlags s p.flagPage p.rec_.flags
  let s := p.errs.foldl (fun s b => pageErr s b p.rec_.idx p.rec_.tag p.rec_.status) s
  post s p.prod (rd s p.queue) p.rec_

/-- A posting comes before another: by its cycle, then SRC_INDEX, then TAG (R399). -/
def Posting.before (p q : Posting) : Bool :=
  decide (p.rec_.cyc < q.rec_.cyc) || p.rec_.cyc == q.rec_.cyc &&
    (decide (p.rec_.idx < q.rec_.idx) || p.rec_.idx == q.rec_.idx && decide (p.rec_.tag < q.rec_.tag))

/-- A posting in its place. -/
def insertPosting (p : Posting) : List Posting → List Posting
  | [] => [p]
  | q :: l => if p.before q then p :: q :: l else q :: insertPosting p l

/-- A record that is posted in the later cycle that it names. -/
def postLater (s : State) (p : Posting) : State := { s with soon := insertPosting p s.soon }

/-- A record posted in its cycle: now where that has come. -/
def postAt (s : State) (p : Posting) : State := if p.rec_.cyc ≤ s.now then postNow s p else postLater s p

/-- A posting of a descriptor still in its checks, ended with ABANDONED in clock cycle c by a stop of its unit (R30). -/
def Posting.abandoned (p : Posting) (c : Nat) (f : Fld) : Posting :=
  { p with stop := none, notices := [f], counts := [], errs := [p.unit]
           rec_ := { p.rec_ with status := St.abandoned, cyc := c, detail := (c - p.acc) % 2 ^ 32, flags := 0, count := 0 } }

/-- The descriptors still in the checks of the units whose page satisfies u end with ABANDONED in clock cycle c. -/
def stopChecks (s : State) (c : Nat) (u : Nat → Bool) : State :=
  let mine (p : Posting) : Bool := u p.unit && p.stop.isSome
  let l := s.soon.filter mine
  l.foldl (fun s p => match p.stop with | some f => postNow s (p.abandoned c f) | none => s)
    { s with soon := s.soon.filter fun p => !mine p }

/-- Descriptors of the unit of a page that its checks have turned away and whose record is not yet posted. -/
def inChecks (s : State) (b : Nat) : Nat := (s.soon.filter fun p => p.unit == b).length

/-- DETAIL of the tile units (R88, R115, R146): cycles to posting, non-finite elements, lost arbitration cycles. -/
def detail3 (cycles nonfin lost : Nat) : Nat :=
  cycles % 2 ^ 32 + min nonfin 0xFFFF * 2 ^ 32 + min lost 0xFFFF * 2 ^ 48

/-- Status of a rejected descriptor, or none. -/
def isReject (st : Nat) : Bool := st == St.badDesc || st == St.badAddr

/-- A lost Marver cycle counted at a port of a tile, and in the stall counter of the losing unit (R149, R150). -/
def countLoss (s : State) (t port : Nat) (stall : Fld) (n : Nat) : State := bump (bump s (Fd.mrvLostCycles t port) n) stall n

/-! Issued descriptors (R26). -/

/-- The descriptor that tile t has issued to a unit and that waits to be taken, with the tile that no longer holds it. -/
def takeIssue (s : State) (t unit : Nat) : Option (Issue × State) :=
  match (tile s t).issued.find? fun i => i.unit == unit with
  | some i => some (i, updTile s t fun x => { x with issued := x.issued.erase i })
  | none => none

end Sys2Proof.Machine
end

