-- ==== Sys2Proof/Machine/Operands.lean ====
section
/-! DEFINITION. The operand forms: the sweep descriptor and its bricks (R67 to R73), the CPT's and the FTU's descriptors (R108, R143),
exact sums with special values (R54, R76), the brick reads of an operation and what other units may overwrite under it
(R412, R90), and the one store operation for local memory. -/

namespace Sys2Proof.Machine

/-! Exact sums with special values. -/

/-- The exact sum of values (R54): NaN for a NaN term, whose own flags the caller has, NaN with INV for infinities of
both signs. The sign of a zero sum is left positive; the caller decides it. -/
def sumExact (l : List Fp) : Fp × Flags :=
  if l.any Fp.isNan then (.nan false, 0)
  else
    let p := l.any fun x => x.isInf && !x.neg?
    let n := l.any fun x => x.isInf && x.neg?
    if p && n then (.nan false, Fl.inv)
    else if p then (.inf false, 0)
    else if n then (.inf true, 0)
    else ((Dy.sum (l.map Fp.dy)).fp, 0)

/-- Bit i of TILE_NUM as captured: FTZ 0, RM 2:1, E4_OVF 3, E5_OVF 4 (R59). -/
def numFtz (num : Nat) : Bool := num.testBit 0
def numRm (num : Nat) : Rm := Rm.ofCode (bits num 2 1)
def numE4 (num : Nat) : Bool := num.testBit 3
def numE5 (num : Nat) : Bool := num.testBit 4

/-- TILE_NUM of a tile. -/
def tileNum (s : State) (t : Nat) : Nat :=
  rd s (Fd.tileNumFtz t) + 2 * rd s (Fd.tileNumRm t) + 8 * rd s (Fd.tileNumE4Ovf t) + 16 * rd s (Fd.tileNumE5Ovf t)

/-! The sweep descriptor (R69). -/

structure SweepD where
  op : Nat
  mode : Nat
  fa : Nat
  fb : Nat
  ta : Bool
  tb : Bool
  start : Nat
  readout : Bool
  outfmt : Nat
  mb : Nat
  nb : Nat
  ktail : Nat
  kblk : Nat
  kb : Nat
  aAddr : Nat
  aK : Nat
  aM : Nat
  aS : Nat
  bAddr : Nat
  bK : Nat
  bN : Nat
  bS : Nat
  cIn : Nat
  cOut : Nat
  tsa : Nat
  tsb : Nat
  /-- a reserved field is nonzero -/
  rsv : Bool
  deriving DecidableEq, Repr

/-- Word i of a descriptor. -/
def dword (d : List Byte) (i : Nat) : Nat := fieldLE d (4 * i) 4

def sweepD (d : List Byte) : SweepD :=
  let w := dword d
  let split := 8 ≤ bits (w 0) 27 24 ∧ bits (w 0) 27 24 ≤ 11
  { op := bits (w 0) 31 28, mode := bits (w 0) 27 24, fa := bits (w 0) 23 22, fb := bits (w 0) 21 20,
    ta := bit (w 0) 19, tb := bit (w 0) 18, start := bits (w 0) 17 16, readout := bit (w 0) 15,
    outfmt := bits (w 0) 14 13, mb := bits (w 1) 18 16, nb := bits (w 1) 14 12, ktail := bits (w 1) 4 0,
    kblk := bits (w 2) 27 24, kb := bits (w 2) 15 0,
    aAddr := bits (w 4) 22 0, aK := bits (w 5) 22 0, aM := bits (w 6) 22 0, aS := bits (w 7) 22 0,
    bAddr := bits (w 8) 22 0, bK := bits (w 9) 22 0, bN := bits (w 10) 22 0, bS := bits (w 11) 22 0,
    cIn := bits (w 12) 22 0, cOut := bits (w 13) 22 0, tsa := w 14, tsb := w 15,
    rsv := bits (w 0) 12 0 != 0 || bits (w 1) 31 19 != 0 || bit (w 1) 15 || bits (w 1) 11 5 != 0 ||
      bits (w 2) 31 28 != 0 || bits (w 2) 23 16 != 0 || (!split && bits (w 2) 27 24 != 0) || w 3 != 0 ||
      (List.range 10).any fun i => bits (w (4 + i)) 31 23 != 0 }

def SweepD.split (d : SweepD) : Bool := 8 ≤ d.mode && d.mode ≤ 11
/-- Passes per K-block (R97). -/
def SweepD.passes (d : SweepD) : Nat := match d.mode with | 8 => 3 | 9 => 4 | 10 => 6 | _ => 9
/-- Element sizes of A and B in bytes. -/
def SweepD.ea (d : SweepD) : Nat := if d.split then (if d.fa = 0 then 8 else 4) else if d.mode = 2 then 2 else 1
def SweepD.eb (d : SweepD) : Nat := if d.split then (if d.fb = 0 then 8 else 4) else if d.mode = 2 then 2 else 1
/-- Bytes of a scale entry of A: 1, 3 for affine INT8, none in BF16 and split modes (R71). -/
def SweepD.sa (d : SweepD) : Nat := if d.split || d.mode = 2 then 0 else if d.mode = 1 && d.fa = 1 then 3 else 1
def SweepD.sb (d : SweepD) : Nat := if d.split || d.mode = 2 then 0 else 1
/-- Bytes of an output element. -/
def SweepD.eo (d : SweepD) : Nat := match d.outfmt with | 1 => 2 | 2 => 8 | _ => 4
/-- The mode family (R73): 0 for FP8, INT8 and BF16, the MODE of a split sweep. -/
def SweepD.family (d : SweepD) : Nat := if d.split then d.mode else 0
/-- Valid elements along K (R70). -/
def SweepD.kLen (d : SweepD) : Nat := 32 * (d.kb - 1) + (if d.ktail = 0 then 32 else d.ktail)
/-- Steps (R84, R97). -/
def SweepD.steps (d : SweepD) : Nat :=
  if d.split then 32 * d.kb * d.passes else if d.mode = 2 then 16 * d.kb else 8 * d.kb
/-- Cycles from acceptance to step 0 at the edge (R84, R102). -/
def SweepD.lead (d : SweepD) : Nat := if d.split then 21 + min d.kblk d.kb * (d.ea + d.eb) else 18

/-- The checks of R73 against the held bank, in order: BAD_DESC, DONE_EMPTY, BAD_ADDR, or none when the sweep runs. -/
def SweepD.check (d : SweepD) (held : Option Held) : Option Nat :=
  let modeOk : Bool := d.mode = 0 ∨ d.mode = 1 ∨ d.mode = 2 ∨ d.split
  let fmtOk : Bool := match d.mode with
    | 0 => d.fa ≤ 1 ∧ d.fb ≤ 1
    | 1 => d.fa ≤ 1 ∧ d.fb = 0
    | 2 => d.fa = 0 ∧ d.fb = 0
    | _ => d.fa ≤ 1 ∧ d.fb ≤ 1
  let outOk : Bool := d.outfmt ≤ 2 ∧ (d.outfmt = 2 → d.split) ∧ (d.outfmt = 1 → ¬ d.split)
  let blkOk : Bool := d.split → 1 ≤ d.kblk ∧ d.kblk ≤ 4
  let heldOk : Bool := d.start = 2 → held = some ⟨d.family, d.mb, d.nb⟩
  let strOk : Bool := d.aK % (1024 * d.ea) = 0 ∧ d.aM % (1024 * d.ea) = 0 ∧ d.bK % (1024 * d.eb) = 0 ∧ d.bN % (1024 * d.eb) = 0
  if d.rsv ∨ d.op ≠ 1 ∨ ¬ modeOk ∨ ¬ fmtOk ∨ d.start = 3 ∨ ¬ outOk ∨ d.mb > 4 ∨ d.nb > 4 ∨ ¬ blkOk ∨ ¬ heldOk ∨ ¬ strOk
  then some St.badDesc
  else if d.mb = 0 ∨ d.nb = 0 ∨ d.kb = 0 then some St.doneEmpty
  else
    let aOff := (d.mb - 1) * d.aM + (d.kb - 1) * d.aK
    let bOff := (d.nb - 1) * d.bN + (d.kb - 1) * d.bK
    let bricks := d.mb * d.nb
    if ¬ inMarver (d.aAddr + aOff) (1024 * d.ea) ∨ ¬ inMarver (d.bAddr + bOff) (1024 * d.eb)
      ∨ (d.sa ≠ 0 ∧ ¬ inMarver (d.aS + d.sa * (aOff / (1024 * d.ea))) d.sa)
      ∨ (d.sb ≠ 0 ∧ ¬ inMarver (d.bS + d.sb * (bOff / (1024 * d.eb))) d.sb)
      ∨ (d.start = 1 ∧ (¬ inMarver d.cIn (bricks * 4096) ∨ d.cIn % 1024 ≠ 0))
      ∨ (d.readout ∧ (¬ inMarver d.cOut (bricks * 1024 * d.eo) ∨ d.cOut % 1024 ≠ 0))
      ∨ d.aAddr % 1024 ≠ 0 ∨ d.bAddr % 1024 ≠ 0
    then some St.badAddr
    else none

/-! Operand bricks of a sweep: Marver ranges and read cycles (R70, R71, R412). -/

/-- An operand brick: its key, data offset and length, scale entry offset and length, read cycle after acceptance. -/
structure OpBrick where
  key : Nat
  off : Nat
  len : Nat
  soff : Nat
  slen : Nat
  cyc : Nat
  deriving DecidableEq, Repr

def SweepD.aBrick (d : SweepD) (p q : Nat) : OpBrick :=
  let o := p * d.aM + q * d.aK
  let blk := q / d.kblk
  let n := min d.kblk (d.kb - blk * d.kblk)
  { key := 4 * (p * 65536 + q), off := d.aAddr + o, len := 1024 * d.ea,
    soff := d.aS + d.sa * (o / (1024 * d.ea)), slen := d.sa,
    cyc := if d.split then
        9 + blk * 32 * d.kblk * d.passes + p * n * d.ea + min p d.nb * n * d.eb + (q % d.kblk) * d.ea
      else if d.mode = 2 then 9 + 16 * q + 2 * (p + min p d.nb) else 9 + 8 * q + (p + min p d.nb) }

def SweepD.bBrick (d : SweepD) (q r : Nat) : OpBrick :=
  let o := r * d.bN + q * d.bK
  let blk := q / d.kblk
  let n := min d.kblk (d.kb - blk * d.kblk)
  { key := 4 * (r * 65536 + q) + 1, off := d.bAddr + o, len := 1024 * d.eb,
    soff := d.bS + d.sb * (o / (1024 * d.eb)), slen := d.sb,
    cyc := if d.split then
        9 + blk * 32 * d.kblk * d.passes + min (r + 1) d.mb * n * d.ea + r * n * d.eb + (q % d.kblk) * d.eb
      else if d.mode = 2 then 9 + 16 * q + 2 * (min (r + 1) d.mb + r) else 9 + 8 * q + (min (r + 1) d.mb + r) }

/-- Start brick i (row-major): read at cycle 9; R412 leaves its place up to step 0 open. -/
def SweepD.cBrick (d : SweepD) (i : Nat) : OpBrick :=
  { key := 4 * i + 2, off := d.cIn + i * 4096, len := 4096, soff := 0, slen := 0, cyc := 9 }

/-- Every operand brick of a sweep. -/
def SweepD.opBricks (d : SweepD) : List OpBrick :=
  ((List.range d.mb).flatMap fun p => (List.range d.kb).map fun q => d.aBrick p q) ++
  ((List.range d.nb).flatMap fun r => (List.range d.kb).map fun q => d.bBrick q r) ++
  (if d.start = 1 then (List.range (d.mb * d.nb)).map d.cBrick else [])

/-! The CPT descriptor (R108) and the bricks it reads. -/

structure LookD where
  op : Nat
  fmt : Nat
  tr : Bool
  start : Nat
  readout : Bool
  outBf : Bool
  b : Nat
  kg : Nat
  rg : Nat
  rtail : Nat
  ktail : Nat
  wAddr : Nat
  sAddr : Nat
  cbAddr : Nat
  xAddr : Nat
  cIn : Nat
  cOut : Nat
  ts : Nat
  rsv : Bool
  deriving DecidableEq, Repr

def lookD (d : List Byte) : LookD :=
  let w := dword d
  { op := bits (w 0) 31 28, fmt := bits (w 0) 27 26, tr := bit (w 0) 25, start := bits (w 0) 24 23,
    readout := bit (w 0) 22, outBf := bit (w 0) 21, b := bits (w 0) 20 17, kg := bits (w 1) 31 16, rg := bits (w 1) 15 0,
    rtail := bits (w 2) 14 8, ktail := bits (w 2) 6 0, wAddr := bits (w 4) 22 0, sAddr := bits (w 5) 22 0,
    cbAddr := bits (w 6) 22 0, xAddr := bits (w 7) 22 0, cIn := bits (w 8) 22 0, cOut := bits (w 9) 22 0, ts := w 10,
    rsv := bits (w 0) 16 0 != 0 || bits (w 2) 31 15 != 0 || bit (w 2) 7 || w 3 != 0 ||
      ((List.range 6).any fun i => bits (w (4 + i)) 31 23 != 0) || (List.range 5).any fun i => w (11 + i) != 0 }

/-- Code bytes of a row and of a group, codebook entries (R49, R50, R107). -/
def codeRowBytes (fmt : Nat) : Nat := match fmt with | 1 => 32 | 2 => 48 | _ => 64
def codebookLen (fmt : Nat) : Nat := match fmt with | 1 => 4 | 2 => 8 | _ => 16
def LookD.groupBytes (d : LookD) : Nat := 128 * codeRowBytes d.fmt
/-- Valid rows and K elements of the region (R105): none without a group. -/
def LookD.nRows (d : LookD) : Nat := if d.rg = 0 then 0 else 128 * (d.rg - 1) + (if d.rtail = 0 then 128 else d.rtail)
def LookD.nK (d : LookD) : Nat := if d.kg = 0 then 0 else 128 * (d.kg - 1) + (if d.ktail = 0 then 128 else d.ktail)
/-- Input and output element counts by direction. -/
def LookD.nIn (d : LookD) : Nat := if d.tr then d.nRows else d.nK
def LookD.nOut (d : LookD) : Nat := if d.tr then d.nK else d.nRows
/-- Input and output bricks (R106). -/
def LookD.inBricks (d : LookD) : Nat := ceilDiv d.nIn 32
def LookD.outBricks (d : LookD) : Nat := ceilDiv d.nOut 32
/-- Columns of an accumulator file row that the output bricks take. -/
def LookD.cols (d : LookD) : Nat := 32 * d.outBricks
def LookD.outSize (d : LookD) : Nat := if d.outBf then 2 else 4

/-- B rounded up to 1, 2, 4 or 8 (R113). -/
def LookD.bp (d : LookD) : Nat := if d.b ≤ 1 then 1 else if d.b = 2 then 2 else if d.b ≤ 4 then 4 else 8
/-- Lookup cycles, start-load cycles and readout cycles (R114). -/
def LookD.lookCc (d : LookD) : Nat := 32 * d.bp * d.rg * d.kg
def LookD.loadCc (d : LookD) : Nat := if d.start = 1 then d.outBricks * ceilDiv d.b 4 else 0
def LookD.brickCc (d : LookD) : Nat := if d.outBf then 1 else ceilDiv d.b 4
/-! The FTU descriptor (R143). -/

structure ApplyD where
  op : Nat
  fn : Nat
  der : Bool
  mul : Bool
  ifp : Bool
  ofp : Bool
  nb : Nat
  xAddr : Nat
  gAddr : Nat
  yAddr : Nat
  rsv : Bool
  deriving DecidableEq, Repr

def applyD (d : List Byte) : ApplyD :=
  let w := dword d
  { op := bits (w 0) 31 28, fn := bits (w 0) 27 24, der := bit (w 0) 23, mul := bit (w 0) 22, ifp := bit (w 0) 21,
    ofp := bit (w 0) 20, nb := bits (w 0) 15 0, xAddr := bits (w 1) 22 0, gAddr := bits (w 2) 22 0, yAddr := bits (w 3) 22 0,
    rsv := bits (w 0) 19 16 != 0 || bits (w 1) 31 23 != 0 || bits (w 2) 31 23 != 0 || bits (w 3) 31 23 != 0 ||
      (!bit (w 0) 22 && w 2 != 0) || fieldLE d 16 16 != 0 }

def ApplyD.inSize (d : ApplyD) : Nat := if d.ifp then 4 else 2
def ApplyD.outSize (d : ApplyD) : Nat := if d.ofp then 4 else 2
/-- Cycles of a brick (R145). -/
def ApplyD.cc (d : ApplyD) : Nat := if d.ifp || d.ofp then 16 else 8

/-- Bricks that a CPT operation reads (R105, R106, R114; the cycles of the groups after the first are DEDUCED, log entry 23): codes and row
scales of each group, its codebook, the input bricks, the start bricks. -/
def LookD.opBricks (d : LookD) : List OpBrick :=
  let at_ (g : Nat) : Nat := if g = 0 then 9 else 9 + d.loadCc + 32 * d.bp * g
  let per := if d.tr then d.kg else 1
  ((List.range (d.rg * d.kg)).flatMap fun g =>
    [{ key := 4 * g, off := d.wAddr + g * d.groupBytes, len := d.groupBytes, soff := d.sAddr + 128 * g, slen := 128, cyc := at_ g },
     { key := 4 * g + 1, off := d.cbAddr + g * 2 * codebookLen d.fmt, len := 2 * codebookLen d.fmt, soff := 0, slen := 0, cyc := at_ g }]) ++
  ((List.range d.inBricks).map fun j =>
    { key := 4 * j + 2, off := d.xAddr + 2048 * j, len := 2048, soff := 0, slen := 0, cyc := at_ (j / 4 * per) }) ++
  (if d.start = 1 then (List.range d.outBricks).map fun j =>
    { key := 4 * j + 3, off := d.cIn + 4096 * j, len := 4096, soff := 0, slen := 0, cyc := 9 } else [])

/-- Bricks that an FTU operation reads (R145): input brick i and its multiplier brick. -/
def ApplyD.opBricks (d : ApplyD) : List OpBrick :=
  (List.range d.nb).flatMap fun i =>
    { key := 4 * i, off := d.xAddr + i * 1024 * d.inSize, len := 1024 * d.inSize, soff := 0, slen := 0, cyc := 9 + i * d.cc } ::
      (if d.mul then
        [{ key := 4 * i + 1, off := d.gAddr + i * 1024 * d.inSize, len := 1024 * d.inSize, soff := 0, slen := 0, cyc := 9 + i * d.cc }] else [])

/-! Lost Marver cycles (R87, R150): an operation lists the clock cycles that it has lost, rising; each moves every event of the operation
that stands in it or later by one cycle. -/

/-- The clock cycle of an event that would come in clock cycle c without loss. -/
def moved (lost : List Nat) (c : Nat) : Nat := lost.foldl (fun c l => if l ≤ c then c + 1 else c) c
/-- The same where only the cycles lost from clock cycle b on count. -/
def movedFrom (lost : List Nat) (b c : Nat) : Nat := moved (lost.filter fun l => decide (b ≤ l)) c
/-- Lost cycles from clock cycle b on and before clock cycle c. -/
def lostIn (lost : List Nat) (b c : Nat) : Nat := (lost.filter fun l => decide (b ≤ l ∧ l < c)).length

/-- The cycle after the last of the cc write cycles that start in clock cycle b. -/
def runEnd (lost : List Nat) (b cc : Nat) : Nat := movedFrom lost b (b + cc - 1) + 1

/-- The ends of output bricks that are ready at the cycles given and take cc write cycles each, one at a time from clock cycle c0 on (R85,
R114). -/
def writeEnds (cc c0 : Nat) (lost : List Nat) (ready : List Nat) : List Nat :=
  (ready.foldl (fun st r => let e := runEnd lost (max r st.1) cc; (e, st.2 ++ [e])) (c0, [])).2

/-- Of operations in the order accepted, the one that posts first. -/
def firstDue {α : Type} (due : α → Nat) : List α → Option α
  | [] => none
  | x :: r => match firstDue due r with
    | none => some x
    | some y => if due x ≤ due y then some x else some y

/-- Clock cycle in which a sweep, a CPT operation or an FTU operation starts the k-th access of the read of a brick. -/
def Sweep.readAt (w : Sweep) (b : OpBrick) (k : Nat) : Nat := moved w.lost (w.acc + b.cyc + k)
def Lookup.readAt (l : Lookup) (b : OpBrick) (k : Nat) : Nat :=
  if b.cyc = 9 then moved l.lost (l.acc + 9 + k) else movedFrom l.lost l.first (l.first + (b.cyc + k) - (40 + (lookD l.desc).loadCc))
def Apply.readAt (a : Apply) (b : OpBrick) (k : Nat) : Nat := moved a.lost (a.acc + b.cyc + k)

/-- Two byte ranges meet. -/
def meets (a n b m : Nat) : Bool := a < b + m && b < a + n && n != 0 && m != 0

/-- Data and scale bytes of an operand brick as memory holds them. -/
def brickNow (s : State) (t : Nat) (b : OpBrick) : List Byte :=
  readBytes s (tileBase t + b.off) b.len ++ readBytes s (tileBase t + b.soff) b.slen

/-- What a unit read or will read of a brick: the bytes saved when another unit overwrote it, else memory. -/
def brickBytes (s : State) (t : Nat) (snap : List (Nat × List Byte)) (b : OpBrick) : List Byte :=
  match Tab.find snap b.key with
  | some l => l
  | none => brickNow s t b

/-- The same of n data bytes from byte o on, and of scale byte o. -/
def brickPart (s : State) (t : Nat) (snap : List (Nat × List Byte)) (b : OpBrick) (o n : Nat) : List Byte :=
  match Tab.find snap b.key with
  | some l => (l.drop o).take n
  | none => readBytes s (tileBase t + b.off + o) n
def brickScale (s : State) (t : Nat) (snap : List (Nat × List Byte)) (b : OpBrick) (o : Nat) : Nat :=
  match Tab.find snap b.key with
  | some l => fieldLE l (b.len + o) 1
  | none => readLE s (tileBase t + b.soff + o) 1

/-- The bricks that an operation has read and that a write of n bytes at Marver offset a replaces are saved (R90, R116, R144, R412). -/
def saveBricks (s : State) (t a n : Nat) (bricks : List OpBrick) (at_ : OpBrick → Nat) (snap : List (Nat × List Byte)) :
    List (Nat × List Byte) :=
  let hit := bricks.filter fun b => decide (at_ b < s.now) && (meets a n b.off b.len || meets a n b.soff b.slen)
  hit.foldl (fun m b => if (Tab.find m b.key).isSome then m else Tab.insert m b.key (brickNow s t b)) snap

/-- Every operation of a tile keeps what it has read where a write of n bytes at Marver offset a replaces it. -/
def saveReads (s : State) (t a n : Nat) : State :=
  let x := tile s t
  if x.sweeps.isEmpty && x.lookups.isEmpty && x.applies.isEmpty then s
  else setTile s t { x with
    sweeps := x.sweeps.map fun w => { w with snap := saveBricks s t a n (sweepD w.desc).opBricks (w.readAt · 0) w.snap }
    lookups := x.lookups.map fun l => { l with snap := saveBricks s t a n (lookD l.desc).opBricks (l.readAt · 0) l.snap }
    applies := x.applies.map fun p => { p with snap := saveBricks s t a n (applyD p.desc).opBricks (p.readAt · 0) p.snap } }

/-- The link is in the IDE insecure state: received flits are discarded and no protected traffic flows until new keys are set (R324). -/
def ideStopped (s : State) : Bool := rd s Fd.hifLinkIde == 3

/-- The lines of the snoop filter that a commit overlaps are back-invalidated (R320); in the insecure state the snoops wait for new keys. -/
def snoopLines (s : State) (a n : Nat) : State :=
  let hit (p : Nat × HLine) : Bool := meets a n (64 * p.1) 64
  let send := if ideStopped s then [] else s.hif.lines.filter fun p => hit p && p.2.snoop.isNone
  let s := send.foldl (fun s p => emit s (.biSnoop p.1)) s
  let mark (p : Nat × HLine) : Nat × HLine :=
    if hit p then (p.1, { p.2 with stale := true, snoop := if ideStopped s then p.2.snoop else some (p.2.snoop.getD s.now) }) else p
  { s with hif := { s.hif with lines := s.hif.lines.map mark } }

/-- Bytes stored at a local offset: every write of every unit to local memory. A Marver write first lets the operations of
that tile keep what they have read; a write to HBM snoops the lines that the host holds. -/
def store (s : State) (a : Nat) (bs : List Byte) : State :=
  let s' := match targetOf a with
    | .marver t => saveReads s t (a - tileBase t) bs.length
    | .hbm _ => if s.hif.lines.isEmpty then s else snoopLines s a bs.length
    | _ => s
  { s' with mem := memWrite s'.mem a bs }

/-- Another unit's access to n bytes at a local offset in clock cycle c: where it is a kiln's memory whose jobs it may stop (R236), it is kept. -/
def touchKiln (s : State) (c a n : Nat) : State :=
  match targetOf a with
  | .kiln k =>
    let x := kiln s k
    if n = 0 ∨ x.jobs.isEmpty then s
    else
      let o := a - kilnBase k
      let l := (List.range ((o + n - 1) / 2 ^ 20 + 1 - o / 2 ^ 20)).map fun i => (c, o / 2 ^ 20 + i)
      setKiln s k { x with ext := x.ext ++ l }
  | _ => s

/-- The ready bits of the KiB from lo to hi, all set. -/
def Kiln.readyAll (x : Kiln) (lo hi : Nat) : Bool :=
  let n := 2 ^ (hi + 1 - lo) - 1
  (x.ready >>> lo) &&& n == n

/-- An IMPORT that waits goes on in the cycle after the last bit is set (R235). -/
def Kiln.wake (x : Kiln) (c : Nat) : Kiln :=
  match x.run with
  | some r => match r.imp with
    | some i => if i.wake.isNone && x.readyAll i.lo i.hi then { x with run := some { r with imp := some { i with wake := some (c + 1) } } } else x
    | none => x
  | none => x

/-- A destination unit of a punty copy committed, here or from another module: it also sets the ready bit of every KiB of
kiln value memory that it touches (R235). -/
def storeUnit (s : State) (a : Nat) (bs : List Byte) : State :=
  let s := store s a bs
  match targetOf a with
  | .kiln k =>
    let o := a - kilnBase k
    if 0x1800000 ≤ o ∨ bs.isEmpty then s
    else
      let n := (o + bs.length - 1) / 1024 - o / 1024 + 1
      let x := kiln s k
      setKiln s k (({ x with ready := x.ready ||| ((2 ^ n - 1) <<< (o / 1024)) } : Kiln).wake s.now)
  | _ => s

end Sys2Proof.Machine
end

