-- ==== Sys2Proof/Machine/Fma.lean ====
section
/-! DEFINITION. The fabric memory agent and the router: own coordinates (R259, R261), the output port of a cell (R266,
R269), sending the cells of a stream (R263, R265), outstanding requests (R273, R274), published latencies (R276), and
what an access to this module's memory ends with (R262, R357). -/

namespace Sys2Proof.Machine

def fmaPage : Nat := 0x2000
def frtPage : Nat := 0x3000

/-! Coordinates (R259, R261). -/

def coordValid (s : State) : Bool := rdb s Fd.frtCoordValid
def ownX (s : State) : Nat := rd s Fd.frtCoordX
def ownY (s : State) : Nat := rd s Fd.frtCoordY
def ownZ (s : State) : Nat := rd s Fd.frtCoordZ
def ownNo (s : State) : Nat := ownZ s * 64 + ownY s * 8 + ownX s

/-- Coordinates of a module number. -/
def modX (m : Nat) : Nat := m % 8
def modY (m : Nat) : Nat := m / 8 % 8
def modZ (m : Nat) : Nat := m / 64 % 64

/-- The extents in force (R261): those of FRT_EXT, but for a write after FABRIC_GO that no port has trained since (R343). -/
def extents (s : State) : Nat × Nat × Nat := s.fma.extOld.getD (rd s Fd.frtExtXext, rd s Fd.frtExtYext, rd s Fd.frtExtZext)

/-- A module number names a module of the domain (R261). -/
def namesModule (s : State) (m : Nat) : Bool := modX m < (extents s).1 && modY m < (extents s).2.1 && modZ m < (extents s).2.2

/-- A port that carries cells of the own domain. -/
def portUp (s : State) (p : Nat) : Bool := availPort s p && rd s (Fd.portStateState p) == 2

/-! Routing (R266, R269). -/

/-- Extent, own and destination coordinate of dimension k. -/
def dimOf (s : State) (dst k : Nat) : Nat × Nat × Nat :=
  match k with
  | 0 => ((extents s).1, ownX s, modX dst)
  | 1 => ((extents s).2.1, ownY s, modY dst)
  | _ => ((extents s).2.2, ownZ s, modZ dst)

/-- Steps in + direction around a ring of extent n. -/
def ringFwd (n own dst : Nat) : Nat := (dst % n + n - own % n) % n

/-- The first dimension in which the destination differs, in the order of ALT. -/
def firstDim (s : State) (dst : Nat) (alt : Bool) : Option Nat :=
  (if alt then [2, 1, 0] else [0, 1, 2]).find? fun k => (dimOf s dst k).2.1 != (dimOf s dst k).2.2

/-- Whether the minimal way in a dimension is the + direction (a tie is). -/
def plusWay (s : State) (dst k : Nat) : Bool :=
  let d := dimOf s dst k
  let f := ringFwd d.1 d.2.1 d.2.2
  f ≤ d.1 - f

/-- The two ports of a direction, the one that R266 chooses first. -/
def pairPorts (k : Nat) (plus : Bool) (c : FabCell) : List Nat :=
  let b := 4 * k + (if plus then 0 else 2)
  if (c.src ^^^ c.dst ^^^ c.stream).testBit 0 then [b + 1, b] else [b, b + 1]

/-- The output port of a cell, its ALT bit, and whether it was rerouted; none where no port is up. -/
def routeOf (s : State) (c : FabCell) : Option (Nat × Bool × Bool) :=
  match firstDim s c.dst c.alt with
  | none => none
  | some k =>
    let ps := pairPorts k (plusWay s c.dst k) c
    match ps.find? (portUp s) with
    | some p => some (p, c.alt, p != ps.headD 0)
    | none =>
      match firstDim s c.dst true with
      | none => none
      | some k' =>
        let plus := plusWay s c.dst k'
        match (if c.alt then [] else pairPorts k' plus c).find? (portUp s) with
        | some p => some (p, true, true)
        | none => match (pairPorts k' (!plus) c).find? (portUp s) with
          | some p => some (p, true, true)
          | none => none

/-! A cell on the wire (R263). -/

/-- The header, its bits as R263 numbers them: OFFSET in 16-byte units, LEN of the data in 16-byte units. -/
def wireHeader (c : FabCell) : Nat :=
  c.status % 256 + b2n c.sync * 2 ^ 10 + ceilDiv c.data.length 16 % 8 * 2 ^ 11 + c.hops % 64 * 2 ^ 14 + c.seq % 2 ^ 16 * 2 ^ 20 +
    c.stream % 256 * 2 ^ 36 + c.offset / 16 % 2 ^ 36 * 2 ^ 44 + c.src % 4096 * 2 ^ 80 + c.dst % 4096 * 2 ^ 92 + b2n c.rty * 2 ^ 104 +
    b2n c.alt * 2 ^ 105 + c.vc % 4 * 2 ^ 106 + c.typ % 16 * 2 ^ 108 + c.domain % 2 ^ 16 * 2 ^ 112

/-- The 128 bytes of a cell. -/
def wireBytes (c : FabCell) : List Byte := leBytes 16 (wireHeader c) ++ (c.data ++ List.replicate 112 0).take 112

/-- The cell that a header and its data bytes spell. -/
def wireCell (h : Nat) (data : List Byte) : FabCell :=
  { domain := bits h 127 112, typ := bits h 111 108, vc := bits h 107 106, alt := bit h 105, rty := bit h 104, dst := bits h 103 92,
    src := bits h 91 80, offset := 16 * bits h 79 44, stream := bits h 43 36, seq := bits h 35 20, hops := bits h 19 14,
    sync := bit h 10, status := bits h 7 0, data := data.take (16 * bits h 13 11) }

/-! Output ports (R257, R267). -/

def portX (s : State) (p : Nat) : PortX := Tab.get portInit s.fma.ports p
def setPort (s : State) (p : Nat) (x : PortX) : State := { s with fma := { s.fma with ports := Tab.put portInit s.fma.ports p x } }

/-- Requester numbers of an output port: input ports 0-11, then these. -/
def reqFma : Nat := 12
def reqCol : Nat := 13
def reqFrit : Nat := 14

/-- A port's link carries cells. -/
def portLive (s : State) (p : Nat) : Bool := availPort s p && decide (2 ≤ rd s (Fd.portStateState p))

/-- A cell waits at an output port from clock cycle c on. Frit cells have buffers of their own; a cell of this module carries the tag of the
port's last training. The buffers of classes and wrap links have no stated size and never fill: a requester's cells go in order of time. -/
def portTx (s : State) (req p at_ : Nat) (c : FabCell) : State :=
  let x := portX s p
  let c := if 12 ≤ req then { c with domain := x.tag } else c
  setPort s p { x with wait := x.wait ++ [⟨if c.vc = 1 then reqFrit else req, req, at_, c⟩] }

/-- The first cell of each requester that waits. -/
def headCells (l : List PortCell) : List PortCell :=
  l.foldl (fun hs w =>
    if hs.any fun h => h.req == w.req then hs.map fun h => if h.req = w.req ∧ w.at_ < h.at_ then w else h
    else hs ++ [w]) []

/-- The next grant of a port: the start of its slot and the cell. The FMA keeps the port within a unit (R265); else the requester is the next
in turn of those that wait then. -/
def PortX.next (x : PortX) : Option (Nat × PortCell) :=
  let hs := headCells x.wait
  let hs := if x.hold ∧ hs.any (fun h => h.req == reqFma) then hs.filter fun h => h.req == reqFma else hs
  let t0 (h : PortCell) : Nat := max (25 * h.at_) x.free
  match hs with
  | [] => none
  | h :: l =>
    let t := l.foldl (fun m w => min m (t0 w)) (t0 h)
    let turn (w : PortCell) : Nat := (w.req + 15 - x.ptr) % 15
    let ready := hs.filter fun w => decide (t0 w ≤ t)
    (ready.foldl (fun m w => match m with
      | none => some w
      | some v => if turn w < turn v then some w else m) none).map fun w => (t, w)

/-- The request unit that a cell ends has left (R273). -/
def markSent (s : State) (c : FabCell) (at_ : Nat) : State :=
  { s with fma := { s.fma with
    pend := s.fma.pend.map fun q => if q.stream = c.stream ∧ q.dst = c.dst ∧ q.last = c.seq ∧ c.typ ≤ 6 then { q with sentAt := at_ } else q } }

/-- A cell leaves by a port in the slot that starts at t: it is counted, with the slots that other requesters had while it waited (R267), and
held in the retry buffer of 512 cells (R270). -/
def sendCell (s : State) (p t : Nat) (w : PortCell) : State :=
  let x := portX s p
  let at_ := t / 25
  let s := bump s (Fd.portCellsTxCount p) 1
  let s := bump s (Fd.portContendCount p) ((t - max (25 * w.at_) (Tab.get 0 x.ends w.req)) / 25)
  let buf := x.buf ++ [{ w with at_ := at_ }]
  let s := setPort s p
    { x with buf := buf.drop (buf.length - 512), wait := x.wait.erase w, free := t + 56, ptr := (w.req + 1) % 15,
             ends := Tab.insert x.ends w.req (t + 56), hold := w.req == reqFma && w.cell.typ == 0 }
  let s := if 12 ≤ w.req then markSent s w.cell at_ else s
  emit s (.cell p w.cell at_)

/-- A port sends what it can before the present cycle; one that is DOWN sends nothing. -/
def drainPort (p : Nat) : Nat → State → State
  | 0, s => s
  | fuel + 1, s => match (portX s p).next with
    | none => s
    | some g => if portLive s p ∧ g.1 / 25 < s.now then drainPort p fuel (sendCell s p g.1 g.2) else s

/-- Every port sends. -/
def drainPorts (s : State) : State :=
  (s.fma.ports.map fun q => (q.1, q.2.wait.length)).foldl (fun s q => drainPort q.1 q.2 s) s

/-- A cell dropped by the router: counted on the FRT core page (R269, R281). -/
def frtDrop (s : State) (f : Fld) : State := pageErrInfo (bump s f 1) frtPage 0

/-- A cell that a NACK can answer. -/
def isRequest (c : FabCell) : Bool := c.typ == 0 || c.typ == 1 || c.typ == 2 || c.typ == 6 || c.typ == 9

/-- NACK UNREACHABLE that this module's router gives its own cell (R269), as if it came from the cell's target. -/
def selfNack (c : FabCell) : FabCell := { c with typ := 5, src := c.dst, status := St.unreachable, data := [] }

/-- A cell of a requester is routed; where no way is left it is dropped and counted, and a request of this module is answered with NACK
UNREACHABLE (R269). -/
def routeCell (s : State) (req at_ : Nat) (c : FabCell) : State :=
  match routeOf s c with
  | some (p, alt, re) =>
    let s := if re then bump s (Fd.portRerouteCount p) 1 else s
    portTx s req p at_ { c with alt := alt }
  | none =>
    let s := frtDrop s Fd.frtDropUnreachCount
    if coordValid s ∧ c.src = ownNo s ∧ isRequest c then
      { s with fma := { s.fma with selfNacks := s.fma.selfNacks ++ [(at_, selfNack c)] } }
    else s

/-! Sending (R263, R265, R272). -/

def strmInit : Strm := { seq := 0, sync := true }
def strmKey (stream dst : Nat) : Nat := 4096 * stream + dst
def strmOf (s : State) (stream dst : Nat) : Strm := Tab.get strmInit s.fma.streams (strmKey stream dst)

/-- A cell header from this module. -/
def mkCell (s : State) (typ dst offset stream seq : Nat) (sync : Bool) (status : Nat) (data : List Byte) : FabCell :=
  { domain := rd s Fd.frtDomainTag, typ := typ, vc := 0, alt := false, rty := false, dst := dst, src := ownNo s,
    offset := offset, stream := stream, seq := seq, hops := 0, sync := sync, status := status, data := data }

/-- A request cell on a stream, at the router from clock cycle c: it takes the next SEQ, and SYNC where that is due. -/
def sendReq (s : State) (req at_ typ dst offset stream : Nat) (data : List Byte) : State :=
  let x := strmOf s stream dst
  let c := mkCell s typ dst offset stream x.seq x.sync 0 data
  let s := { s with fma := { s.fma with
    streams := Tab.put strmInit s.fma.streams (strmKey stream dst) { seq := (x.seq + 1) % 65536, sync := false } } }
  routeCell s req at_ c

/-- Bytes cut into pieces of n. -/
def chunks (n : Nat) (l : List Byte) : List (List Byte) := groupsOfBytes l.length n l
where
  groupsOfBytes : Nat → Nat → List Byte → List (List Byte)
    | 0, _, _ => []
    | _ + 1, _, [] => []
    | k + 1, n, l => l.take n :: groupsOfBytes k n (l.drop n)

/-- The cells of a write unit: each piece (target offset, bytes) cut at 112 bytes, in ascending order of the pieces (R265). -/
def unitCells (l : List (Nat × List Byte)) : List (Nat × List Byte) :=
  l.flatMap fun w => let ps := chunks 112 w.2; (List.zip (List.range ps.length) ps).map fun p => (w.1 + 112 * p.1, p.2)

/-- A write unit: WRITE cells and a WRITE_END (R265). -/
def sendWrite (s : State) (at_ dst stream : Nat) (l : List (Nat × List Byte)) : State :=
  let ps := unitCells l
  (List.zip (List.range ps.length) ps).foldl
    (fun s p => sendReq s reqFma at_ (if p.1 + 1 = ps.length then 1 else 0) dst p.2.1 stream p.2.2) s

/-- An answer cell to the sender of c (R264), at the router from clock cycle c: SEQ, STREAM and RTY are those of the request. -/
def answer (s : State) (at_ : Nat) (c : FabCell) (typ offset status : Nat) (data : List Byte) : State :=
  routeCell s reqFma at_ { mkCell s typ c.src offset c.stream c.seq false status data with rty := c.rty }

/-- NACK from a router on the way: it answers under the number of the cell's target, which is what names the stream at
the source (log entry 13). -/
def nackFor (s : State) (c : FabCell) (status : Nat) : State :=
  routeCell s reqFma (s.now + 40) { mkCell s 5 c.src c.offset c.stream c.seq false status [] with rty := c.rty, src := c.dst }

/-- NACK with a status, from the target's die. -/
def nack (s : State) (c : FabCell) (status : Nat) : State := answer s (s.now + 58) c 5 c.offset status []

/-- The next cell to a destination on a stream carries SYNC (R272). -/
def markSync (s : State) (stream dst : Nat) : State :=
  let x := strmOf s stream dst
  { s with fma := { s.fma with streams := Tab.put strmInit s.fma.streams (strmKey stream dst) { x with sync := true } } }

/-- What ends an operation before any cell leaves (R273), in its order. With MODULE_STATE.FABRIC = 0 the module serves local work only (R344);
for a valid FRT_COORD R273 names no status of that case: UNREACHABLE is the model's choice (log entry 13). -/
def remoteBlocked (s : State) (dst stream : Nat) : Option Nat :=
  if ¬ ((List.range 12).any (portUp s)) then some St.linkDown
  else if ¬ coordValid s ∨ ¬ namesModule s dst ∨ ¬ rdb s Fd.moduleStateFabric then some St.unreachable
  else if (routeOf s (mkCell s 0 dst 0 stream 0 false 0 [])).isNone then some St.linkDown
  else none

/-! Outstanding requests (R274). -/

def addPend (s : State) (p : Pend) : State := { s with fma := { s.fma with pend := s.fma.pend ++ [p] } }
def dropPends (s : State) (f : Pend → Bool) : State := { s with fma := { s.fma with pend := s.fma.pend.filter fun p => !f p } }
/-- Room for another request unit. -/
def creditFree (s : State) : Bool := s.fma.pend.length < 4096

/-! Accesses to this module's memory. -/

/-- A class K reset runs, or the module is in P2 or enters or leaves it: memories answer DROPPED (R357, R362). -/
def memoryHeld (s : State) : Bool := s.boot.kRun.isSome || rd s Fd.modulePwrState == 2 || s.boot.moving.isSome

/-- The status an access to bytes a .. a+n-1 ends with, or none: BAD_ADDR outside the map or in an absent unit (R17),
DROPPED while the memories are held, BAD_ADDR in a fenced unit. A range this short has no hole inside it. -/
def accessStatus (s : State) (a n : Nat) : Option Nat :=
  if n = 0 then none
  else if ¬ presentAt s a ∨ ¬ presentAt s (a + n - 1) then some St.badAddr
  else if memoryHeld s then some St.dropped
  else if reachable s a ∧ reachable s (a + n - 1) then none
  else some St.badAddr

end Sys2Proof.Machine
end

