-- ==== Sys2Proof/Machine/Split.lean ====
section
/-! DEFINITION. The value of a sweep: products, fused steps and FP32 accumulation of the FP8, INT8 and BF16 modes
(R74 to R77), the pieces, passes and K-block combiner of the split modes (R92 to R100), and readout (R81, R100). -/

namespace Sys2Proof.Machine

/-! Operand elements. -/

/-- An operand element: its value, and for affine INT8 its block offset, kept apart because the cell adds it as one
term of its own (R75). -/
structure Elem where
  val : Fp
  ofs : Option Fp
  deriving DecidableEq, Repr

/-- Element (r, c) of a brick in its reading orientation (R67). -/
def elemIdx (turned : Bool) (r c : Nat) : Nat := if turned then 32 * c + r else 32 * r + c

/-- Element i of a narrow or BF16 brick (R46, R48, R57): mode, format code, bytes of the brick and its scale entry, FTZ.
The second component holds the flags of a flushed BF16 operand. -/
def narrowElem (mode fmt size slen : Nat) (ftz : Bool) (bs : List Byte) (i : Nat) : Elem × Flags :=
  let code := fieldLE bs (i * size) size
  let s8 := fieldLE bs (1024 * size) 1
  match mode with
  | 0 => (⟨((if fmt = 0 then e4m3 else e5m2).decode code).scaled s8, none⟩, 0)
  | 1 => (⟨(Fp.ofInt (toSigned 8 code) 0).scaled s8,
      if slen = 3 then (if s8 = 0xFF then none else some (bf16.decode (fieldLE bs (1024 * size + 1) 2))) else none⟩, 0)
  | _ => let f := bf16.flushIn ftz code
         (⟨bf16.decode f.1, none⟩, f.2)

/-! The step of a cell (R74 to R77). -/

/-- A nonzero finite value that is subnormal in FP32 by the test of R58. -/
def tinyIn (f : Fmt) : Fp → Bool
  | .fin n m e => m != 0 && (f.roundMag .rne n m e).tiny
  | _ => false

/-- A scaled product (R75), flushed under FTZ (R77). -/
def cellProduct (ftz : Bool) (a b : Fp) : Fp × Flags :=
  let p := a.mulExact b
  if ftz && tinyIn fp32 p.1 then (.fin p.1.neg? 0 0, p.2 ||| Fl.flushed ||| Fl.unf) else p

/-- The fused sum of a step: products ps and the accumulator code acc, rounded once to FP32 by RNE. cpt says that it is a quad of the
CPT: an overflow or a flush also sets INX (R112), and a tiny inexact sum that stays sets UNF (R58), which the MXA's R74 excludes. A NaN among the
terms goes before infinities of both signs: the sum sets NAN_IN and not INV, whose conditions R112 names one at a time (the model's choice,
log entry 24). -/
def fusedStep (ftz cpt : Bool) (ps : List Fp) (acc : Nat) : Nat × Flags :=
  let a := fp32.decode acc
  let s := sumExact (ps ++ [a])
  match s.1 with
  | .nan _ => (fp32.nanCode, s.2 ||| a.inFlags)
  | .inf n => (fp32.signed n fp32.infCode, s.2)
  | .fin n m e =>
    if m = 0 then (if ps.all Fp.isZero then acc else fp32.signed false 0, s.2)
    else
      let r := fp32.roundMag .rne n m e
      if r.ovr then (fp32.signed n fp32.infCode, s.2 ||| Fl.ovf ||| Fl.cond cpt Fl.inx)
      else if ftz && r.tiny then (fp32.signed n 0, s.2 ||| Fl.flushed ||| Fl.unf ||| Fl.cond cpt Fl.inx)
      else (fp32.signed n r.code, s.2 ||| Fl.cond (cpt && r.tiny && r.inexact) Fl.unf)

/-- One step over the operand pairs of a group of consecutive k (R74, R75). -/
def cellStep (ftz : Bool) (as : List Elem) (bs : List Elem) (acc : Nat) : Nat × Flags :=
  let ps := List.zipWith (fun a b => cellProduct ftz a.val b.val) as bs
  -- the affine term of R75: the offset times the exact sum of the step's B values
  let term : List (Fp × Flags) := match as.head? with
    | some ⟨_, some o⟩ => [o.mulExact (sumExact (bs.map Elem.val)).1]
    | _ => []
  let all := ps ++ term
  if all.isEmpty then (acc, 0)
  else
    let r := fusedStep ftz false (all.map Prod.fst) acc
    (r.1, r.2 ||| Fl.any (all.map Prod.snd))

/-- A list cut into groups of g. -/
def groupsOf {α : Type} (g : Nat) : Nat → List α → List (List α)
  | 0, _ => []
  | _, [] => []
  | fuel + 1, l => l.take g :: groupsOf g fuel (l.drop g)

/-- All steps of one output element: the accumulator after them and their flags. An affine brick's offset belongs to the
whole group, since a group of 4 lies in one brick. -/
def cellRun (ftz : Bool) (g : Nat) (as bs : List Elem) (acc : Nat) : Nat × Flags :=
  (List.zip (groupsOf g as.length as) (groupsOf g bs.length bs)).foldl
    (fun st p => let r := cellStep ftz p.1 p.2 st.1; (r.1, st.2 ||| r.2)) (acc, 0)

/-! Split modes. -/

/-- Window and largest integer (R92). -/
def splitW (d : SweepD) : Nat := if d.mode ≤ 9 then 35 else 53
def splitLim (w : Nat) : Nat := if w = 35 then 2 ^ 35 - 2 ^ 17 - 1 else 2 ^ 53 - 2 ^ 35 - 2 ^ 17 - 1

/-- The scale exponent of a row with largest finite magnitude mx (R93, R94). -/
def splitScale (w : Nat) (mx : Dy) : Int :=
  if mx.n = 0 then 0
  else
    let e : Int := mx.e + mx.n.natAbs.log2 + 1
    if (Dy.lt ⟨splitLim w, 0⟩ (mx.scale (w - e))) then e + 1 else e

/-- The balanced digits of an integer, lowest first, k of them below the top one (R94). -/
def splitDigits : Nat → Int → List Int
  | 0, x => [x]
  | k + 1, x =>
    let d0 : Int := x % 2 ^ 18
    let d : Int := if d0 ≥ 2 ^ 17 then d0 - 2 ^ 18 else d0
    d :: splitDigits k ((x - d) / 2 ^ 18)

/-- The split of an element (R94, R95): pieces with the highest first, whether bits were lost, how many. -/
structure Pieces where
  p : List Int
  lost : Bool
  bits : Nat
  deriving DecidableEq, Repr

def splitElem (w : Nat) (sig : Nat) (e : Int) (x : Fp) : Pieces :=
  let np := if w = 35 then 1 else 2
  match x with
  | .fin n m ex =>
    if m = 0 then ⟨List.replicate (np + 1) 0, false, 0⟩ else
    let r := roundUnits .rne n m (ex + w - e) 0
    let top : Int := ex + m.log2
    let below : Int := (e - w) - (top - (sig - 1))
    ⟨(splitDigits np (if n then -(r.1 : Int) else r.1)).reverse, r.2,
      if r.2 then min sig below.toNat else 0⟩
  | _ => ⟨List.replicate (np + 1) 0, false, 0⟩

/-- The weighted sum of the piece products that mode keeps, in units of the lowest kept weight 2^(EA+EB-70) (P2) or
2^(EA+EB-106) (P3): orders up to 1 for P2/3, 2 for P2/4 and P3/6, 4 for P3/9 (R97, R98, R99). -/
def pieceSum (mode : Nat) (a b : List Int) : Int :=
  let maxO := match mode with | 8 => 1 | 9 => 2 | 10 => 2 | _ => 4
  let top := if mode ≤ 9 then 36 else 72
  ((List.range a.length).flatMap fun i => (List.range b.length).map fun j =>
    if i + j ≤ maxO then a.getD i 0 * b.getD j 0 * (2 ^ (top - 18 * (i + j)) : Nat) else 0).sum

/-- A row or column of one K-block: values and their pieces under the common exponent. -/
structure Line where
  vals : List Fp
  exp : Int
  pieces : List Pieces
  deriving DecidableEq, Repr

def splitLine (w sig : Nat) (vals : List Fp) : Line :=
  let mx := vals.foldl (fun m x => match x with | .fin .. => maxDy m x.dy.abs | _ => m) Dy.zero
  let e := splitScale w mx
  ⟨vals, e, vals.map (splitElem w sig e)⟩

/-- The combiner's rounding to FP64 by RNE: INX only with a flush (R99). A tiny inexact value with FTZ = 0 sets UNF without INX (the
model's choice between R99's two sentences, log entry 24). -/
def combineRound (ftz : Bool) (x : Fp) : Nat × Flags :=
  let r := fp64.put .rne ftz x
  (r.1, if Fl.has r.2 Fl.flushed then r.2 else r.2 &&& ~~~ Fl.inx)

/-- Adding the value of a K-block to the running FP64 value c (R99). With a NaN input in the block an infinity times zero still sets INV,
infinite products of both signs do not (R99 is silent on such blocks: the model's choice, log entry 24). -/
def combineBlock (mode : Nat) (ftz : Bool) (a b : Line) (c : Nat) : Nat × Flags :=
  let pairs := List.zip a.vals b.vals
  let special := pairs.filter fun p => !p.1.isFin || !p.2.isFin
  let sb : Fp × Flags :=
    if special.isEmpty then
      let t := (List.zipWith (fun x y => pieceSum mode x.p y.p) a.pieces b.pieces).sum
      ((Dy.mk t (a.exp + b.exp - (if mode ≤ 9 then 70 else 106))).fp, 0)
    else
      let ps := special.map fun p => p.1.mulExact p.2
      let q := sumExact (ps.map Prod.fst)
      (q.1, q.2 ||| Fl.any (ps.map Prod.snd))
  if sb.1.isZero then (c, sb.2)
  else
    let r := combineRound ftz sb.1
    let x := fp64.decode r.1
    let t := fp64.add .rne ftz (fp64.decode c) x
    let tf := if Fl.has t.2 Fl.flushed then t.2 else t.2 &&& ~~~ Fl.inx
    -- a NaN block value has set its own flags already
    let tf := if x.isNan then tf &&& ~~~ Fl.nanIn ||| (fp64.decode c).inFlags else tf
    (t.1, sb.2 ||| r.2 ||| tf)

/-- An element of a wide operand brick: its value after the flush of R96. -/
def wideElem (fmt : Nat) (ftz : Bool) (bs : List Byte) (i : Nat) : Fp × Flags :=
  let f := if fmt = 0 then fp64 else fp32
  let size := f.width / 8
  let r := f.flushIn ftz (fieldLE bs (i * size) size)
  (f.decode r.1, r.2)

/-! The accumulators of a sweep. -/

/-- What a sweep leaves: the accumulators row-major over 32 MB rows of 32 NB columns, the step flags of each, the count
of lossy splits and the largest lost-bit count (R95). -/
structure AccRes where
  accs : List (Nat × Flags)
  aln : Nat
  worst : Nat
  deriving DecidableEq, Repr

/-- The accumulator an element starts from (R80, R100): zero, the start brick's, or the held bank's. A split sweep widens the start
element, with the flags of a NaN (R44, R62). -/
def startAcc (s : State) (t : Nat) (sw : Sweep) (d : SweepD) (bank : List Nat) (m n : Nat) : Nat × Flags :=
  match d.start with
  | 1 =>
    let c := fieldLE (brickBytes s t sw.snap (d.cBrick ((m / 32) * d.nb + n / 32))) (4 * (32 * (m % 32) + n % 32)) 4
    if d.split then (fp64.encodeExact (fp32.decode c), (fp32.decode c).inFlags) else (c, 0)
  | 2 => (bank.getD (m * (32 * d.nb) + n) 0, 0)
  | _ => (0, 0)

/-- Column k of the A rows 32 p to 32 p + 31, as K-long lists (R67). -/
def aRow (s : State) (t : Nat) (sw : Sweep) (d : SweepD) (m : Nat) (f : List Byte → Nat → α) : List α :=
  (List.range d.kb).flatMap fun q =>
    let bs := brickBytes s t sw.snap (d.aBrick (m / 32) q)
    (List.range (if q + 1 = d.kb then d.kLen - 32 * q else 32)).map fun k => f bs (elemIdx d.ta (m % 32) k)

def bCol (s : State) (t : Nat) (sw : Sweep) (d : SweepD) (n : Nat) (f : List Byte → Nat → α) : List α :=
  (List.range d.kb).flatMap fun q =>
    let bs := brickBytes s t sw.snap (d.bBrick q (n / 32))
    (List.range (if q + 1 = d.kb then d.kLen - 32 * q else 32)).map fun k => f bs (elemIdx d.tb k (n % 32))

/-- The accumulators after a sweep of the FP8, INT8 and BF16 modes. -/
def narrowAccs (s : State) (t : Nat) (sw : Sweep) (d : SweepD) (bank : List Nat) : AccRes :=
  let ftz := numFtz sw.num
  let g := if d.mode = 2 then 2 else 4
  let rows := (List.range (32 * d.mb)).map fun m => aRow s t sw d m (narrowElem d.mode d.fa d.ea d.sa ftz)
  let cols := (List.range (32 * d.nb)).map fun n => bCol s t sw d n (narrowElem d.mode d.fb d.eb d.sb ftz)
  { accs := (List.zip (List.range rows.length) rows).flatMap fun r =>
      (List.zip (List.range cols.length) cols).map fun c =>
        let x := cellRun ftz g (r.2.map Prod.fst) (c.2.map Prod.fst) (startAcc s t sw d bank r.1 c.1).1
        (x.1, x.2 ||| Fl.any (r.2.map Prod.snd) ||| Fl.any (c.2.map Prod.snd)),
    aln := 0, worst := 0 }

/-- The accumulators after a split sweep run in the pass schedule of mode. -/
def splitAccs (s : State) (t : Nat) (sw : Sweep) (d : SweepD) (mode : Nat) (bank : List Nat) : AccRes :=
  let ftz := numFtz sw.num
  let w := if mode ≤ 9 then 35 else 53
  let blk := 32 * d.kblk
  let lines (fmt : Nat) (l : List Fp) : List Line :=
    (groupsOf blk l.length l).map (splitLine w (if fmt = 0 then 53 else 24))
  let rowsV := (List.range (32 * d.mb)).map fun m => aRow s t sw d m (wideElem d.fa ftz)
  let colsV := (List.range (32 * d.nb)).map fun n => bCol s t sw d n (wideElem d.fb ftz)
  let rows := rowsV.map fun l => (lines d.fa (l.map Prod.fst), Fl.any (l.map Prod.snd))
  let cols := colsV.map fun l => (lines d.fb (l.map Prod.fst), Fl.any (l.map Prod.snd))
  let ps := (rows ++ cols).flatMap fun l => l.1.flatMap Line.pieces
  let lost := ps.filter Pieces.lost
  { accs := (List.zip (List.range rows.length) rows).flatMap fun r =>
      (List.zip (List.range cols.length) cols).map fun c =>
        (List.zip r.2.1 c.2.1).foldl
          (fun st p => let x := combineBlock mode ftz p.1 p.2 st.1; (x.1, st.2 ||| x.2))
          (let a := startAcc s t sw d bank r.1 c.1
           (a.1, a.2 ||| r.2.2 ||| c.2.2)),
    aln := lost.length,
    worst := lost.foldl (fun m p => max m p.bits) 0 }

/-- The accumulators after a sweep. -/
def sweepAccs (s : State) (t : Nat) (sw : Sweep) (d : SweepD) (bank : List Nat) : AccRes :=
  if d.split then splitAccs s t sw d d.mode bank else narrowAccs s t sw d bank

/-- Sweeps in flight ahead of one. -/
def Tile.ahead (x : Tile) (sw : Sweep) : List Sweep := x.sweeps.filter fun w => decide (w.acc < sw.acc)

/-- What a sweep's bank holds as its first step comes: the bank as the posted sweeps left it, run on by those ahead (R79). -/
def bankFor (s : State) (t : Nat) (sw : Sweep) : List Nat :=
  (((tile s t).ahead sw).filter fun w => w.bank == sw.bank).foldl
    (fun b w => (sweepAccs s t w (sweepD w.desc) b).accs.map Prod.fst) (Tab.get [] (tile s t).banks sw.bank)

/-- The accumulators of a sweep in flight. -/
def accsOf (s : State) (t : Nat) (sw : Sweep) : AccRes := sweepAccs s t sw (sweepD sw.desc) (bankFor s t sw)

/-! Readout (R81, R100). -/

/-- The output format of OUTFMT. -/
def outFmt (o : Nat) : Fmt := match o with | 1 => bf16 | 2 => fp64 | _ => fp32

/-- v = acc * TSA * TSB, rounded once. A subnormal scale or start accumulator is not flushed under FTZ, the rounded result alone is (the
spec does not say which: the model's choice, log entry 24). -/
def readoutElem (f acc : Fmt) (rm : Rm) (ftz : Bool) (tsa tsb code : Nat) : Nat × Flags :=
  let a := acc.decode code
  let p := a.mulExact (fp32.decode tsa)
  let q := p.1.mulExact (fp32.decode tsb)
  let r := f.put rm ftz q.1
  (r.1, r.2 ||| p.2 ||| (if p.1.isNan then (fp32.decode tsb).inFlags else q.2))

/-- Output brick (bi, bj): its element codes, their flags. -/
def outBrick (d : SweepD) (num : Nat) (accs : List (Nat × Flags)) (bi bj : Nat) : List (Nat × Flags) :=
  (List.range 1024).map fun i =>
    let a := accs.getD ((32 * bi + i / 32) * (32 * d.nb) + 32 * bj + i % 32) (0, 0)
    let r := readoutElem (outFmt d.outfmt) (if d.split then fp64 else fp32) (numRm num) (numFtz num) d.tsa d.tsb a.1
    (r.1, r.2 ||| a.2)

/-- The bytes of a brick of element codes. -/
def brickOut (size : Nat) (l : List (Nat × Flags)) : List Byte := l.flatMap fun x => leBytes size x.1

/-- Elements that are NaN or infinite. -/
def nonfinite (f : Fmt) (l : List (Nat × Flags)) : Nat := (l.filter fun x => !(f.decode x.1).isFin).length

end Sys2Proof.Machine
end

