-- ==== Sys2Proof/Machine/Cpt.lean ====
section
/-! DEFINITION. The code-product table unit (06_code_product_tables.md): the schedule of an accepted operation, its values, the output
bricks it writes, its record, and what stops its operations (R116). -/

namespace Sys2Proof.Machine

def cptPage (t : Nat) : Nat := tilePage t 8

/-- Code i of a row (R49). -/
def codeAt (fmt : Nat) (row : List Byte) (i : Nat) : Nat :=
  match fmt with
  | 1 => bits (fieldLE row (i / 4) 1) (2 * (i % 4) + 1) (2 * (i % 4))
  | 2 => bits (fieldLE row (3 * (i / 8)) 3) (3 * (i % 8) + 2) (3 * (i % 8))
  | _ => bits (fieldLE row (i / 2) 1) (4 * (i % 2) + 3) (4 * (i % 2))

/-- A decoded weight (R46, R50): codebook entry times the row's scale, rounded to BF16, with flags. -/
def weightVal (entry s8 : Nat) : Nat × Flags :=
  if s8 = 0xFF then (bf16.nanCode, Fl.nanIn)
  else match bf16.decode entry with
    | .nan s => (bf16.nanCode, (Fp.nan s).inFlags)
    | .inf n => (bf16.signed n bf16.infCode, Fl.nanIn)
    | .fin n m e =>
      if m = 0 then (bf16.signed n 0, 0)
      else
        let r := bf16.roundMag .rne n m (e + ((s8 : Int) - 127))
        if r.ovr then (bf16.signed n bf16.infCode, Fl.ovf) else (bf16.signed n r.code, 0)

/-- Bricks of an operation: codes and row scales of group g, its codebook, input brick j, start brick j (the keys of opBricks). -/
def LookD.codes (d : LookD) (g : Nat) : OpBrick :=
  { key := 4 * g, off := d.wAddr + g * d.groupBytes, len := d.groupBytes, soff := d.sAddr + 128 * g, slen := 128, cyc := 0 }
def LookD.book (d : LookD) (g : Nat) : OpBrick :=
  { key := 4 * g + 1, off := d.cbAddr + g * 2 * codebookLen d.fmt, len := 2 * codebookLen d.fmt, soff := 0, slen := 0, cyc := 0 }
def LookD.input (d : LookD) (j : Nat) : OpBrick :=
  { key := 4 * j + 2, off := d.xAddr + 2048 * j, len := 2048, soff := 0, slen := 0, cyc := 0 }
def LookD.first (d : LookD) (j : Nat) : OpBrick :=
  { key := 4 * j + 3, off := d.cIn + 4096 * j, len := 4096, soff := 0, slen := 0, cyc := 0 }

/-- Weight w[n][k] as the CPT looks it up: decoded and flushed under FTZ (R105, R112), from what the operation has read (R116). -/
def cptWeight (s : State) (t : Nat) (l : Lookup) (d : LookD) (ftz : Bool) (n k : Nat) : Fp × Flags :=
  let g := (n / 128) * d.kg + k / 128
  let row := brickPart s t l.snap (d.codes g) ((n % 128) * codeRowBytes d.fmt) (codeRowBytes d.fmt)
  let s8 := brickScale s t l.snap (d.codes g) (n % 128)
  let e := leNat (brickPart s t l.snap (d.book g) (2 * codeAt d.fmt row (k % 128)) 2)
  let w := weightVal e s8
  let f := bf16.flushIn ftz w.1
  (bf16.decode f.1, w.2 ||| f.2)

/-- Input element (b, i) (R106), flushed under FTZ. -/
def cptInput (s : State) (t : Nat) (l : Lookup) (d : LookD) (ftz : Bool) (b i : Nat) : Fp × Flags :=
  let f := bf16.flushIn ftz (leNat (brickPart s t l.snap (d.input (i / 32)) (2 * (32 * b + i % 32)) 2))
  (bf16.decode f.1, f.2)

/-- A lookup value, flushed under FTZ (R112). -/
def lookupVal (ftz : Bool) (x w : Fp) : Fp × Flags :=
  let p := x.mulExact w
  if ftz && tinyIn fp32 p.1 then (.fin p.1.neg? 0 0, p.2 ||| Fl.flushed ||| Fl.unf ||| Fl.inx) else p

/-- The accumulators after an operation, row-major over B rows of the output bricks' columns, with their flags (R110, R111). A column past
the valid outputs keeps what it starts with. -/
def cptAccs (s : State) (t : Nat) (l : Lookup) (file : List Nat) : List (Nat × Flags) :=
  let d := lookD l.desc
  let ftz := numFtz l.num
  let ws := (List.range d.cols).map fun o => (List.range (if o < d.nOut then d.nIn else 0)).map fun i =>
    if d.tr then cptWeight s t l d ftz i o else cptWeight s t l d ftz o i
  (List.range d.b).flatMap fun b =>
    let xs := (List.range d.nIn).map fun i => cptInput s t l d ftz b i
    (List.zip (List.range d.cols) ws).map fun ow =>
      let acc0 := match d.start with
        | 1 => leNat (brickPart s t l.snap (d.first (ow.1 / 32)) (4 * (32 * b + ow.1 % 32)) 4)
        | 2 => file.getD (b * d.cols + ow.1) 0
        | _ => 0
      let ls := List.zipWith (fun x w => let p := lookupVal ftz x.1 w.1; (p.1, p.2 ||| x.2 ||| w.2)) xs ow.2
      (groupsOf 4 ls.length ls).foldl
        (fun st q => let r := fusedStep ftz true (q.map Prod.fst) st.1
                     (r.1, st.2 ||| r.2 ||| Fl.any (q.map Prod.snd))) (acc0, 0)

/-- The checks of R109. heldOut is the output brick count of the held file. -/
def LookD.check (d : LookD) (held : Option Held) : Option Nat :=
  let heldOk : Bool := d.start = 2 → held = some ⟨b2n d.tr, d.b, d.outBricks⟩
  if d.rsv ∨ d.op ≠ 1 ∨ d.fmt = 0 ∨ d.start = 3 ∨ d.b > 8 ∨ (¬ d.tr ∧ d.rg > 8) ∨ (d.tr ∧ d.kg > 8) ∨ ¬ heldOk then some St.badDesc
  else if d.b = 0 ∨ d.rg = 0 ∨ d.kg = 0 then some St.doneEmpty
  else
    let g := d.rg * d.kg
    if ¬ inMarver d.wAddr (g * d.groupBytes) ∨ ¬ inMarver d.sAddr (g * 128) ∨ ¬ inMarver d.cbAddr (g * 2 * codebookLen d.fmt)
      ∨ ¬ inMarver d.xAddr (d.inBricks * 2048) ∨ (d.start = 1 ∧ ¬ inMarver d.cIn (d.outBricks * 4096))
      ∨ (d.readout ∧ ¬ inMarver d.cOut (d.outBricks * 1024 * d.outSize))
      ∨ d.wAddr % 64 ≠ 0 ∨ d.sAddr % 8 ≠ 0 ∨ d.cbAddr % 8 ≠ 0 ∨ d.xAddr % 1024 ≠ 0 ∨ d.cIn % 1024 ≠ 0 ∨ d.cOut % 1024 ≠ 0
    then some St.badAddr else none

/-- A completion record of the CPT (R115), with the counters and notices of R117. -/
def cptPosting (t tag status acc cyc detail : Nat) (flags : Flags) (count : Nat) : Posting :=
  { unit := cptPage t, read := none, stop := none, acc := acc
    notices := if isReject status then [Fd.nCptReject t] else if status = St.abandoned then [Fd.nCptAbandon t] else []
    counts := if status = St.done then [Fd.cptOpsCount t] else []
    flagPage := cptPage t, errs := if isReject status || status == St.abandoned then [cptPage t] else []
    prod := prodTile t, queue := Fd.cptCqQueue t
    rec_ := { tag := tag, status := status, kind := Sk.cpt, idx := t, cyc := cyc, detail := detail, flags := flags, count := count } }

/-- The bytes of rows 0 to B - 1 of output brick j: columns past the valid outputs are +0 (R106, R111). -/
def cptBrick (d : LookD) (num : Nat) (accs : List (Nat × Flags)) (j : Nat) : List (Nat × Flags) :=
  (List.range (32 * d.b)).map fun i =>
    let o := 32 * j + i % 32
    if o < d.nOut then
      let a := accs.getD ((i / 32) * d.cols + o) (0, 0)
      let r := readoutElem (if d.outBf then bf16 else fp32) fp32 (numRm num) (numFtz num) d.ts (fp32.signed false 0x3F800000) a.1
      (r.1, r.2 ||| a.2)
    else (0, 0)

/-- Valid lookup-accumulates of an operation (CPT_LOOKUPS, R117). -/
def LookD.lookups (d : LookD) : Nat := d.b * d.nRows * d.nK

/-! The schedule (R113, R114). -/

/-- The clock cycle from which the outputs of an operation are final (R114). -/
def Lookup.ready (l : Lookup) : Nat := movedFrom l.lost l.first (l.first + (lookD l.desc).lookCc + 12)

/-- The schedule of an operation: its lookups follow its own lead and the last lookup ahead of it, which ended before clock cycle a; its bricks
are written one after another once its outputs are final (R114). Readouts of two operations may write in the same cycles: the spec gives their
one write path no order between operations (the model's choice, log entry 23). -/
def Lookup.plan (l : Lookup) (a : Nat) : Lookup :=
  let d := lookD l.desc
  let l := { l with first := max (moved l.lost (l.acc + 40 + d.loadCc)) (max l.after a) }
  let l := { l with last := runEnd l.lost l.first d.lookCc }
  let ends := if d.readout then writeEnds d.brickCc l.ready l.lost (List.replicate d.outBricks l.ready) else []
  { l with ends := ends, due := ends.getLastD l.ready }

/-- The schedules of the operations of a tile, as the cycles lost so far make them. -/
def planLookups (l : List Lookup) : List Lookup :=
  (l.foldl (fun (st : List Lookup × Nat) w => let w := w.plan st.2; (st.1 ++ [w], max st.2 w.last)) ([], 0)).1

/-- The first clock cycle at which the operation behind is accepted (R114). -/
def Lookup.next (l : Lookup) : Nat := moved l.lost (l.acc + (lookD l.desc).lookCc)

/-- An operation that leaves: those behind it keep what they waited for. -/
def leaveLookup (l : Lookup) (r : List Lookup) : List Lookup :=
  (r.filter fun v => v.acc != l.acc).map fun v => if v.acc < l.acc then v else { v with after := max v.after l.last }

/-- The operation whose lookups have not ended: the file and what it holds are as it found them (R111, R117). -/
def Tile.looking (x : Tile) (c : Nat) : Option Lookup := x.lookups.find? fun l => decide (c < l.last)

/-- Valid lookups of group g (R105). -/
def LookD.inGroup (d : LookD) (g : Nat) : Nat :=
  d.b * min 128 (d.nRows - 128 * (g / d.kg)) * min 128 (d.nK - 128 * (g % d.kg))

/-- Valid lookups made before clock cycle c (R113, R117): group after group, each in 32 B' cycles; within a group in proportion to its
cycles (the model's choice, log entry 23). -/
def Lookup.lookedBy (l : Lookup) (c : Nat) : Nat :=
  let d := lookD l.desc
  let per := 32 * d.bp
  let n := min d.lookCc (c - l.first - lostIn l.lost l.first c)
  ((List.range (n / per)).map d.inGroup).sum + n % per * d.inGroup (n / per) / per

/-! An operation in flight. -/

/-- What an operation's file holds as its first lookup comes (R111). -/
def fileFor (s : State) (t : Nat) (l : Lookup) : List Nat :=
  ((tile s t).lookups.filter fun w => decide (w.acc < l.acc) && w.file == l.file).foldl
    (fun f w => (cptAccs s t w f).map Prod.fst) (Tab.get [] (tile s t).files l.file)

/-- The accumulators of an operation in flight. -/
def lookAccs (s : State) (t : Nat) (l : Lookup) : List (Nat × Flags) := cptAccs s t l (fileFor s t l)

/-- An operation of a tile changed; operations are told apart by their acceptance. -/
def updLookup (s : State) (t : Nat) (l : Lookup) (f : Lookup → Lookup) : State :=
  updTile s t fun x => { x with lookups := x.lookups.map fun w => if w.acc = l.acc then f w else w }

/-- CPT_LOOKUPS brought to n lookups of an operation (R117). -/
def countLookup (s : State) (t : Nat) (l : Lookup) (n : Nat) : State :=
  bump (updLookup s t l fun x => { x with looked := n }) (Fd.cptLookupsCount t) (n - l.looked)

/-- The same as it stands before clock cycle c. -/
def countLookupBy (c t : Nat) (s : State) (l : Lookup) : State := countLookup s t l (l.lookedBy c)

/-- The next output brick of an operation is written (R106). -/
def writeLookup (s : State) (t : Nat) (l : Lookup) : State :=
  let d := lookD l.desc
  let out := cptBrick d l.num (lookAccs s t l) l.written
  store (updLookup s t l fun w => { w with written := l.written + 1 }) (tileBase t + d.cOut + l.written * 1024 * d.outSize)
    (brickOut d.outSize out)

/-- The record of an operation that has written n bricks (R115). -/
def lookRecord (s : State) (t : Nat) (l : Lookup) (accs : List (Nat × Flags)) (status cyc n : Nat) : State :=
  let d := lookD l.desc
  let outs := (List.range n).map (cptBrick d l.num accs)
  let flags := if status = St.done ∧ ¬ d.readout then Fl.any (accs.map Prod.snd) else Fl.any (outs.map fun b => Fl.any (b.map Prod.snd))
  postNow s (cptPosting t l.tag status l.acc cyc
    (detail3 (cyc - l.acc) ((outs.map (nonfinite (if d.outBf then bf16 else fp32))).sum) (lostIn l.lost 0 cyc)) flags n)

/-- An operation that has written its last brick, or whose outputs are final, posts DONE (R114, R115). -/
def finishLookup (s : State) (t : Nat) (l : Lookup) : State :=
  let d := lookD l.desc
  let accs := lookAccs s t l
  let s1 := countLookup s t l d.lookups
  let s2 := updTile s1 t fun x =>
    { x with lookups := leaveLookup l x.lookups
             cptNext := max x.cptNext l.next
             files := Tab.put [] x.files l.file (if d.readout then [] else accs.map Prod.fst) }
  lookRecord s2 t l accs St.done l.due l.ends.length

/-- One stopped operation (R30, R116): it keeps the bricks written and posts ABANDONED at clock cycle c. -/
def abandonLookup (t c : Nat) (s : State) (l : Lookup) : State :=
  lookRecord (countLookupBy c t s l) t l (lookAccs s t l) St.abandoned c l.written

/-- Both files and any held file of a tile discarded (R111, R116). NOTICE.HELD_DROP stays as it is: R111 sets it where an operation with INIT 0
or 1 discards a held file, and for the discard at a turn start names no notice (the model's choice, log entry 23). -/
def dropFiles (s : State) (t : Nat) : State :=
  updTile s t fun x =>
    { x with lookups := [], cptHeld := none, files := [], cptNext := 0
             fileSel := match x.looking s.now with | some l => l.file | none => x.fileSel }

/-- Every CPT operation of a tile stops at clock cycle c (R30, R116): one that is done by then posts DONE, the others ABANDONED. -/
def stopLookup (t c : Nat) (s : State) (l : Lookup) : State := if l.due ≤ c then finishLookup s t l else abandonLookup t c s l
def abandonCpt (s : State) (t c : Nat) : State := dropFiles (stopChecks ((tile s t).lookups.foldl (stopLookup t c) s) c (· == cptPage t)) t

/-! The commands. -/

/-- The first clock cycle at which the CPT accepts its next descriptor, as far as the operations ahead decide it (R114). -/
def Tile.cptFrom (x : Tile) : Nat := (x.lookups.map Lookup.next).foldl max x.cptNext

/-- The CPT has read an issued descriptor (R105 to R111, R113, R114): of a rejected or empty one the record follows at cycle 10, a running one
takes the current file. A rejected or empty operation counts as no place in the rule that the operation two places later waits for a readout
(the spec leaves it open: the model's choice, log entry 23). -/
def acceptLookup (s : State) (t : Nat) (i : Issue) : State :=
  let x := tile s t
  let bytes := readBytes s (tileBase t + i.desc) 64
  let d := lookD bytes
  match d.check x.cptHeld with
  | some st =>
    let s := updTile s t fun x => { x with cptNext := x.cptFrom.max (i.cyc + 1) }
    postLater s { cptPosting t i.tag st i.cyc (i.cyc + 10) (detail3 10 0 0) 0 0 with
      read := some i.desc, stop := some (Fd.nCptAbandon t) }
  | none =>
    let s := if d.start != 2 && x.cptHeld.isSome then notice s (Fd.nCptHeldDrop t) else s
    let l : Lookup :=
      { desc := bytes, place := i.desc, tag := i.tag, acc := i.cyc, first := 0, last := 0, num := tileNum s t, lost := [], after := 0, ends := [], due := 0,
        file := x.fileSel, held0 := if d.start = 2 then x.cptHeld else none, written := 0, looked := 0, snap := [] }
    updTile s t fun x =>
      { x with
        lookups := planLookups (x.lookups ++ [l])
        cptLast := i.cyc
        cptHeld := if d.readout then none else some ⟨b2n d.tr, d.b, d.outBricks⟩
        fileSel := if d.readout then 1 - x.fileSel else x.fileSel }

end Sys2Proof.Machine
end

