-- ==== Sys2Proof/Machine/Watch.lean ====
section
/-! DEFINITION. The numerics watch (R214 to R218): selection of output positions, the reference of a lane, the
histogram, the alarm; and the commands NWU_CTL_WRITE and HCLR. -/

namespace Sys2Proof.Machine

/-- The step word of a program (R192). -/
def stepOf (s : State) (p : Nat) : Nat := rd s (Fd.moduleStepStep p)
/-- The step word of the program a tile runs (R195). -/
def tileStep (s : State) (t : Nat) : Nat := stepOf s (rd s (Fd.tsqProgProg t))

/-- A lane of a die that is free at a clock cycle (R215). -/
def freeLane (s : State) (d c : Nat) : Option Nat :=
  (List.range 4).find? fun l => match Tab.find s.lanes (4 * d + l) with
    | none => true
    | some x => x.freeAt != 0 && decide (x.freeAt ≤ c)

/-- NWU_CTL as captured with an accepted chain (R219). -/
def nwuCtl (s : State) (d : Nat) : Nat :=
  rd s (Fd.nwuCtlAbinN d) + 16 * rd s (Fd.nwuCtlAbinP2 d) + 256 * rd s (Fd.nwuCtlAbinP3 d)

/-- Whether position j of tile t is selected (R214). -/
def selected (s : State) (t j : Nat) : Bool :=
  let d := t / 16
  availNwu s d && rdb s (Fd.nwuCtlEn d) && (rd s (Fd.nwuTilesTiles d)).testBit (t % 16) &&
    srDraw t (tileStep s t) j 0xFFF % 2 ^ rd s (Fd.nwuCtlK d) == 0

/-- One position of an accepted chain: it takes a lane, or is skipped (R214, R215). -/
def samplePosition (t chain nb c i : Nat) (s : State) : State :=
  let j := chain + i
  let d := t / 16
  if selected s t j then
    match freeLane s d c with
    | some l =>
      let x : Lane :=
        { tile := t, chain := chain, index := j, bi := i / nb, bj := i % nb, vals := [], codes := [],
          ctl := nwuCtl s d, freeAt := 0, seen := none }
      { s with lanes := Tab.insert s.lanes (4 * d + l) x }
    | none => notice (bump s (Fd.nwuSkipCount d) 1) (Fd.nNwuSkip d)
  else s

/-- Selection at acceptance of a chain's first sweep. -/
def watchAccept (s : State) (t chain mb nb c : Nat) : State :=
  (List.range (mb * nb)).foldl (fun s i => samplePosition t chain nb c i s) s

/-- The lanes of a tile that satisfy p free at once, and their positions leave no trace (R215). -/
def dropLanes (s : State) (t : Nat) (p : Lane → Bool) : State :=
  { s with lanes := s.lanes.filter fun e => !(e.2.tile == t && p e.2) }

/-- It still follows its chain. -/
def Lane.follows (l : Lane) : Bool := l.freeAt == 0

/-- The exact running value of an element after another sweep of its chain (R216). -/
def exactRun (as bs : List Elem) (v : Fp) : Fp :=
  let ps := List.zipWith (fun a b => (a.val.mulExact b.val).1) as bs
  let os := List.zipWith (fun a b => match a.ofs with | some o => (o.mulExact b.val).1 | none => .fin false 0 0) as bs
  (sumExact (v :: (ps ++ os))).1

/-- The running values of a lane after a sweep: exact sums, or the P3/9 running codes (R216). -/
def laneRun (s : State) (t : Nat) (sw : Sweep) (d : SweepD) (l : Lane) : Lane :=
  if d.split then
    let bank := (List.range 1024).map fun i =>
      if d.start = 2 then l.codes.getD i 0
      else (startAcc s t sw d [] (32 * l.bi + i / 32) (32 * l.bj + i % 32)).1
    -- the same elements through the P3/9 schedule
    let ftz := numFtz sw.num
    let blk := 32 * d.kblk
    let row (m : Nat) := (aRow s t sw d (32 * l.bi + m) (wideElem d.fa ftz)).map Prod.fst
    let col (n : Nat) := (bCol s t sw d (32 * l.bj + n) (wideElem d.fb ftz)).map Prod.fst
    let rows := (List.range 32).map fun m => (groupsOf blk (row m).length (row m)).map (splitLine 53 (if d.fa = 0 then 53 else 24))
    let cols := (List.range 32).map fun n => (groupsOf blk (col n).length (col n)).map (splitLine 53 (if d.fb = 0 then 53 else 24))
    let codes := (List.range 1024).map fun i =>
      (List.zip (rows.getD (i / 32) []) (cols.getD (i % 32) [])).foldl
        (fun c p => (combineBlock 11 ftz p.1 p.2 c).1) (bank.getD i 0)
    { l with codes := codes }
  else
    let rows := (List.range 32).map fun m =>
      (aRow s t sw d (32 * l.bi + m) (narrowElem d.mode d.fa d.ea d.sa false)).map Prod.fst
    let cols := (List.range 32).map fun n =>
      (bCol s t sw d (32 * l.bj + n) (narrowElem d.mode d.fb d.eb d.sb false)).map Prod.fst
    let vals := (List.range 1024).map fun i =>
      let v := if d.start = 2 then l.vals.getD i (.fin false 0 0)
        else fp32.decode (startAcc s t sw d [] (32 * l.bi + i / 32) (32 * l.bj + i % 32)).1
      exactRun (rows.getD (i / 32) []) (cols.getD (i % 32) []) v
    { l with vals := vals }

/-- The reference elements of a lane at readout (R216). -/
def laneRef (d : SweepD) (num : Nat) (l : Lane) : List Fp :=
  if d.split then l.codes.map fun c =>
    (outFmt d.outfmt).decode (readoutElem (outFmt d.outfmt) fp64 (numRm num) (numFtz num) d.tsa d.tsb c).1
  else l.vals.map fun v =>
    let q := ((v.mulExact (fp32.decode d.tsa)).1.mulExact (fp32.decode d.tsb)).1
    fp32.decode (fp32.put .rne false q).1

/-- The bin of an element (R217): o against r, with big the largest finite |r| of the brick. -/
def binOf (big : Dy) (o r : Fp) : Nat :=
  match o, r with
  | .nan _, .nan _ => 0
  | .inf a, .inf b => if a = b then 0 else 15
  | .fin .., .fin .. =>
    let e := (o.dy.sub r.dy).abs
    if e.n = 0 then 0
    else if big.n = 0 then 15
    else if e.lt (big.scale (-52)) then 1
    else match (List.range 13).find? fun i => e.lt (big.scale (4 * ((i : Nat) + 2 : Int) - 56)) with
      | some i => i + 2
      | none => 15
  | _, _ => 15

/-- The alarm bin of a mode (R218) under captured settings. -/
def alarmBin (mode ctl : Nat) : Nat :=
  if mode ≤ 2 then ctl % 16 else if mode ≤ 9 then ctl / 16 % 16 else if mode = 10 then ctl / 256 % 16 else 1

/-- The comparison of a read-out brick with its lane, which frees in clock cycle c (R216 to R218). An alarm's record follows that of its sweep,
which is due at clock cycle due. -/
def watchCompare (s : State) (t tag : Nat) (d : SweepD) (num c due : Nat) (l : Lane) (codes : List Nat) : State :=
  let die := t / 16
  let refs := laneRef d num l
  let outs := codes.map fun x => (outFmt d.outfmt).decode x
  let big := refs.foldl (fun m x => match x with | .fin .. => maxDy m x.dy.abs | _ => m) Dy.zero
  let bins := List.zipWith (binOf big) outs refs
  let s := (List.range 16).foldl (fun s j =>
    let n := bins.count j
    if n = 0 then s else bump s (if d.split then Fd.nwuHistSCount die j else Fd.nwuHistNCount die j) n) s
  let s := bump s (Fd.nwuSampledCount die) 1
  let worst := bins.foldl max 0
  let lim := alarmBin d.mode l.ctl
  if worst < lim then s
  else
    let pos := 4 * l.bi + l.bj
    let last := t * 2 ^ 58 + worst * 2 ^ 54 + d.mode * 2 ^ 50 + pos * 2 ^ 46 + l.index % 2 ^ 32
    let s := wrs s [(Fd.nNwuAlarm die, 1), (Fd.nwuLastTile die, t), (Fd.nwuLastBin die, worst), (Fd.nwuLastMode die, d.mode),
      (Fd.nwuLastPos die, pos), (Fd.nwuLastIndex die, l.index)]
    let s := pageErrBy (bump s (Fd.nwuAlarmsCount die) 1) (nwuPage die) die tag last
    postLater s
      { unit := nwuPage die, read := none, stop := none, acc := c, notices := [], counts := [], flagPage := nwuPage die, errs := []
        prod := prodNwu die, queue := Fd.nwuCqQueue die
        rec_ := { tag := tag, status := St.done, kind := Sk.nwu, idx := die, cyc := max c (due + 1), detail := last, flags := Fl.watchAlarm,
                  count := (bins.filter fun b => lim ≤ b).length } }

/-- A lane frees: what it saw is compared (R215). The chain's record is due where its sweep is still in flight. -/
def freeLaneNow (s : State) (k : Nat) (l : Lane) : State :=
  let s := { s with lanes := Tab.erase s.lanes k }
  match l.seen with
  | none => s
  | some (desc, num, tag, acc, codes) =>
    let due := match (tile s l.tile).sweeps.find? fun w => w.acc == acc with | some w => w.due | none => 0
    watchCompare s l.tile tag (sweepD desc) num l.freeAt due l codes

/-- The lanes that follow a sweep's chain and satisfy p, each handled in turn. -/
def eachLane (s : State) (t chain : Nat) (p : Lane → Bool) (f : State → Nat → Lane → State) : State :=
  (List.range 4).foldl (fun s i =>
    let k := 4 * (t / 16) + i
    match Tab.find s.lanes k with
    | some l => if l.tile = t ∧ l.chain = chain ∧ l.freeAt = 0 ∧ p l then f s k l else s
    | none => s) s

/-- The lanes of a chain run on with a sweep that holds its bank (R216). -/
def watchRun (s : State) (t : Nat) (sw : Sweep) (d : SweepD) : State :=
  eachLane s t sw.chain (fun _ => true) fun s' k l => { s' with lanes := Tab.insert s'.lanes k (laneRun s t sw d l) }

/-- Output brick i of a sweep has been written, its last write cycle before clock cycle c: the lane at its position runs on, keeps what was
read out, and frees 16 cycles after that write (R215, R216). -/
def watchBrick (s : State) (t : Nat) (sw : Sweep) (d : SweepD) (i c : Nat) (codes : List Nat) : State :=
  eachLane s t sw.chain (fun l => l.bi * d.nb + l.bj == i) fun s' k l =>
    let l' := ((((tile s t).ahead sw).filter fun w => w.chain == sw.chain) ++ [sw]).foldl (fun l w => laneRun s t w (sweepD w.desc) l) l
    { s' with lanes := Tab.insert s'.lanes k { l' with freeAt := c - 1 + 16, seen := some (sw.desc, sw.num, sw.tag, sw.acc, codes) } }

/-- A write to NWU_CTL: ignored whole when K or an alarm bin is out of range; HCLR clears both histograms (R219). -/
def clearHist (s : State) (die : Nat) : State :=
  (List.range 16).foldl (fun s j => wr (wr s (Fd.nwuHistNCount die j) 0) (Fd.nwuHistSCount die j) 0) s

/-- NWU_CTL_WRITE (R219). -/
def execNwuCtlWrite (die : Nat) (v : BitVec 32) (s : State) : Res :=
  if ¬ capDie s.variant die ∨ ¬ s.boot.stagesDone.contains 6 then ok s
  else
    let n := v.toNat
    if bits n 20 16 < 4 ∨ bits n 20 16 > 20 ∨ bits n 15 12 = 0 ∨ bits n 11 8 = 0 ∨ bits n 7 4 = 0 then
      ok (notice s (Fd.nNwuReject die))
    else
      let s := wrs s [(Fd.nwuCtlEn die, bits n 31 31), (Fd.nwuCtlK die, bits n 20 16), (Fd.nwuCtlAbinN die, bits n 15 12),
        (Fd.nwuCtlAbinP2 die, bits n 11 8), (Fd.nwuCtlAbinP3 die, bits n 7 4)]
      ok (if bit n 0 then clearHist s die else s)

/-- HCLR: NWU_CTL written with HCLR = 1 and its other fields as they are (R219). -/
def execHclr (die : Nat) (s : State) : Res :=
  if ¬ capDie s.variant die ∨ ¬ s.boot.stagesDone.contains 6 then ok s else ok (clearHist s die)

end Sys2Proof.Machine
end

