-- ==== Sys2Proof/Machine/Sieve.lean ====
section
/-! DEFINITION. The Sieve (09_sieve.md): tag entries, the conversion of one block, statistics, what a DONE copy changes
in its tag, staged tag writes, and the register commands of the tag table. -/

namespace Sys2Proof.Machine

def sievePage (t : Nat) : Nat := tilePage t 5

/-! Tag entries (R172 to R174). -/

/-- The default value of an entry (R174). -/
def tagDefault : BitVec 1024 :=
  BitVec.ofNat 1024 (0x03040A8000000000 + 0x3F800000 * 2 ^ 64 + 0xFF * 2 ^ 208)

def tagOf (s : State) (t n : Nat) : BitVec 1024 := Tab.get tagDefault s.tags (1024 * t + n)
def setTag (s : State) (t n : Nat) (e : BitVec 1024) : State := { s with tags := Tab.put tagDefault s.tags (1024 * t + n) e }

/-- Bytes off .. off+len-1 of an entry as a number. -/
def tf (e : BitVec 1024) (off len : Nat) : Nat := bits e.toNat (8 * (off + len) - 1) (8 * off)
/-- Those bytes replaced. -/
def tset (e : BitVec 1024) (off len v : Nat) : BitVec 1024 :=
  let old := tf e off len
  BitVec.ofNat 1024 (e.toNat - old * 2 ^ (8 * off) + v % 2 ^ (8 * len) * 2 ^ (8 * off))

def entryBytes (e : BitVec 1024) : List Byte := leBytes 128 e.toNat
def entryOf (l : List Byte) : BitVec 1024 := BitVec.ofNat 1024 (leNat (l.take 128))

/-- The configuration word (R173) with the entry's other fields. -/
structure TagE where
  sf : Nat
  df : Nat
  mode : Nat
  sr : Bool
  ovf : Bool
  srcsel : Bool
  hlen : Nat
  msh : Nat
  dyn : Nat
  ts : Nat
  cb : Nat
  cbStr : Nat
  last : Nat
  zrun : Nat
  ref : Nat
  nz : Bool
  hcount : Nat
  hhead : Nat
  rsv : Bool
  deriving DecidableEq, Repr

def tagE (e : BitVec 1024) : TagE :=
  let c := tf e 0 8
  { sf := bits c 63 60, df := bits c 59 56, mode := bits c 55 55, sr := bit c 54, ovf := bit c 53, srcsel := bit c 52,
    hlen := bits c 51 46, msh := bits c 45 43, dyn := bits c 42 37, ts := tf e 8 4, cb := bits (tf e 12 4) 22 0,
    cbStr := tf e 16 4, last := tf e 20 4, zrun := tf e 24 2, ref := tf e 26 1, nz := bit (tf e 27 1) 6,
    hcount := bits (tf e 27 1) 5 0, hhead := tf e 28 1,
    rsv := bits c 36 0 != 0 || bits (tf e 12 4) 31 23 != 0 || bits (tf e 12 4) 2 0 != 0 || bit (tf e 27 1) 7 ||
      tf e 29 3 != 0 || tf e 56 8 != 0 }

/-- HIST entry h. -/
def histOf (e : BitVec 1024) (h : Nat) : Nat := tf e (64 + 2 * (h % 32)) 2

/-! Conversion pairs (R170). -/

inductive Pair where
  | narrow | codes | rounding | widen | decoding | invalid
  deriving DecidableEq, Repr

def pairOf (sf df : Nat) : Pair :=
  if sf ≤ 2 ∧ 3 ≤ df ∧ df ≤ 5 then .narrow
  else if sf ≤ 1 ∧ 6 ≤ df ∧ df ≤ 8 then .codes
  else if (sf = 1 ∨ sf = 2) ∧ df = 0 then .rounding
  else if 3 ≤ sf ∧ sf ≤ 5 ∧ df ≤ 1 then .widen
  else if 6 ≤ sf ∧ sf ≤ 8 ∧ df = 0 then .decoding
  else .invalid

/-- Scaled narrowing pairs use and change the tag's history and statistics (R170). -/
def Pair.scaled (p : Pair) : Bool := p == .narrow || p == .codes

/-- Bits of an element in a format code of R173, and the floating-point format of codes 0 to 4. -/
def fmtBits (f : Nat) : Nat := match f with | 0 => 16 | 1 => 32 | 2 => 64 | 6 => 2 | 7 => 3 | 8 => 4 | _ => 8
def fmtOf (f : Nat) : Fmt := match f with | 0 => bf16 | 1 => fp32 | 2 => fp64 | 3 => e4m3 | _ => e5m2

/-- Bytes of source and of destination that are converted together: a brick, or a group of 128 by 128 (R170, R171). -/
def TagE.elems (c : TagE) : Nat := match pairOf c.sf c.df with | .codes | .decoding => 16384 | _ => 1024
def TagE.srcBytes (c : TagE) : Nat := c.elems * fmtBits c.sf / 8
def TagE.dstBytes (c : TagE) : Nat := c.elems * fmtBits c.df / 8
/-- The brick size that BSZ must name (R171). -/
def TagE.brick (c : TagE) : Nat := if c.sf ≥ 6 then 2048 else 1024 * fmtBits c.sf / 8
/-- Scale bytes read and written per block or group. -/
def TagE.scaleIn (c : TagE) : Nat := match pairOf c.sf c.df with | .widen => if c.sf = 5 ∧ c.mode = 1 then 3 else 1 | .decoding => 128 | _ => 0
def TagE.scaleOut (c : TagE) : Nat := match pairOf c.sf c.df with | .narrow => if c.mode = 1 then 3 else 1 | .codes => 128 | _ => 0

/-- The tag check of R170, R171 and R173 but for the history test. -/
def TagE.bad (c : TagE) : Bool :=
  let p := pairOf c.sf c.df
  c.rsv || p == .invalid || (c.mode == 1 && c.sf != 5 && c.df != 5) ||
    (c.sr && c.df != 0 && c.df != 3 && c.df != 4 && c.df != 5) ||
    (p.scaled && (c.hlen == 0 || decide (c.hlen > 32) || decide (c.hcount > 32) || decide (c.hhead > 31)))

/-! Choosing the scale (R175 to R180). -/

/-- ex(a) for a > 0 (R175): the smallest e with a ≤ Q * 2^(e - 127), limited to 0 .. 254. -/
def exOf (a q : Dy) : Nat :=
  if a.n = 0 then 0
  else
    let g : Int := (a.e + a.n.natAbs.log2) - (q.e + q.n.natAbs.log2) + 127 - 1
    let e := if a.le (q.scale (g - 127)) then g else if a.le (q.scale (g - 126)) then g + 1 else g + 2
    if e < 0 then 0 else min e.toNat 254

/-- block_exp of R177. -/
def blockExp (a q : Dy) (ref dyn : Nat) : Nat :=
  if a.n = 0 then 127
  else
    let e := exOf a q
    if ref = 0xFF then e else min (max e (ref - dyn)) ref

/-- The target magnitude Q of a brick destination. -/
def qOf (df : Nat) : Dy := match df with | 3 => ⟨448, 0⟩ | 4 => ⟨57344, 0⟩ | _ => ⟨127, 0⟩

/-- The codebook of group k of a copy: its BF16 entries, or none outside Marver (R180). -/
def codebook (s : State) (t : Nat) (c : TagE) (k : Nat) : Option (List Nat) :=
  let f := if c.df ≥ 6 then c.df else c.sf
  let n := 2 ^ (f - 4)
  let a := c.cb + k * c.cbStr
  if inMarver a (2 * n) then some ((List.range n).map fun i => readLE s (tileBase t + a + 2 * i) 2) else none

/-- cbmax: the largest magnitude among the finite entries. -/
def cbMax (cb : List Nat) : Dy :=
  cb.foldl (fun m x => match bf16.decode x with | .fin .. => maxDy m (bf16.decode x).dy.abs | _ => m) Dy.zero

/-- The code of the finite entry at the least distance from v, the lower index on a tie (R51). -/
def nearest (cb : List Nat) (v : Dy) : Nat :=
  ((List.zip (List.range cb.length) cb).foldl (fun (b : Option (Nat × Dy)) p =>
    match bf16.decode p.2 with
    | .fin .. =>
      let d := ((bf16.decode p.2).dy.sub v).abs
      match b with
      | none => some (p.1, d)
      | some (_, bd) => if d.lt bd then some (p.1, d) else b
    | _ => b) none).elim 0 Prod.fst

def maxAbs (l : List Fp) : Dy := l.foldl (fun m x => maxDy m x.dy.abs) Dy.zero
def minOf (l : List Dy) : Dy := match l with | [] => Dy.zero | x :: t => t.foldl (fun m y => if y.lt m then y else m) x
def maxOf (l : List Dy) : Dy := match l with | [] => Dy.zero | x :: t => t.foldl maxDy x

/-- The offset of an affine block: the midpoint rounded to BF16, limited to its range (R178, R179). -/
def affineOffset (d : Dy) : Nat × Bool :=
  if d.n = 0 then (0, false)
  else
    let r := bf16.roundMag .rne (d.n < 0) d.n.natAbs d.e
    (bf16.signed (d.n < 0) (if r.ovr then bf16.maxCode else r.code), r.ovr)

/-- Measure and offset of a finite block of a brick pair (R177, R179): a, o, o limited. -/
def measureOf (mode : Nat) (vals : List Fp) : Dy × Nat × Bool :=
  if mode = 1 then
    let ds := vals.map Fp.dy
    let mn := minOf ds
    let mx := maxOf ds
    let mid := (mn.add mx).scale (-1)
    let o := affineOffset mid
    let ov := (bf16.decode o.1).dy
    -- a block of -0 alone has the constant -0 (R178)
    if vals.all fun v => v.isZero && v.neg? then (Dy.zero, bf16.signed true 0, false)
    else if (mx.sub mn).n = 0 then (Dy.zero, o.1, o.2) else (maxDy (mx.sub ov) (ov.sub mn), o.1, o.2)
  else (maxAbs vals, 0, false)

/-! One block. -/

/-- What a converting copy needs of its tag and itself. -/
structure Job where
  c : TagE
  stag : Nat
  step : Nat
  ref : Nat
  bidx : Nat
  deriving DecidableEq, Repr

/-- One block's output: element codes with flags in storage order, the scale bytes, flags of the block as a whole. -/
structure Blk where
  codes : List (Nat × Flags)
  scale : List Byte
  flags : Flags
  deriving DecidableEq, Repr

/-- The elements of a source block. -/
def srcVals (sf : Nat) (bs : List Byte) : List Fp :=
  let n := fmtBits sf / 8
  (List.range (bs.length / n)).map fun i => (fmtOf sf).decode (fieldLE bs (n * i) n)

/-- Rounding mode of element i of block k (R171, R181). -/
def Job.rm (j : Job) (k i : Nat) : Rm :=
  if j.c.sr then .sr (srDraw j.stag j.step ((j.bidx + k) % 2 ^ 32) i) else .rne

/-- A narrowed element (R62, R181). -/
def narrowOne (j : Job) (k i : Nat) (v : Fp) (e : Int) : FpRes :=
  match j.c.df with
  | 3 => e4m3.narrow8 (j.rm k i) j.c.ovf e v
  | 4 => e5m2.narrow8 (j.rm k i) j.c.ovf e v
  | _ => narrowI8 (j.rm k i) (j.c.mode = 1) e v

/-- The value a narrowed code denotes under S8 e and offset o, with T = 1 (R48). -/
def narrowVal (df code : Nat) (e : Int) (o : Dy) : Fp :=
  let x : Fp := if df = 5 then Fp.ofInt (toSigned 8 code) 0 else (fmtOf df).decode code
  match x with
  | .fin n m ex => ((Fp.fin n m (ex + e)).dy.add o).fp
  | y => y

/-- A term of SSE (R185): the squared error, rounded once to FP64. -/
def sseTerm (x : Dy) (xh : Fp) : Nat :=
  match xh with
  | .fin .. => let d := x.sub xh.dy; (fp64.roundDy .rne false false (d.mul d)).1
  | .inf _ => fp64.infCode
  | .nan _ => fp64.nanCode

def addSse (a : Nat) (l : List Nat) : Nat := l.foldl (fun a t => (fp64.add .rne false (fp64.decode a) (fp64.decode t)).1) a

/-- The terms, clips and kind of a block added to the statistics (R185). -/
def Stats.addBlock (st : Stats) (bidx n clip : Nat) (terms : List Nat) (nan zr : Bool) (a : Dy) (nz : Bool) : Stats :=
  let samp := bidx % 64 == 0
  { elems := st.elems + n, clip := st.clip + clip, meas := st.meas + n, measS := st.measS + (if samp then n else 0),
    sse := addSse st.sse terms, sseS := if samp then addSse st.sseS terms else st.sseS,
    nan := st.nan + b2n nan, zr := st.zr + b2n zr, amax := maxDy st.amax a, nz := st.nz || nz }

/-- Block k of a scaled narrowing to bricks (R177 to R179, R181). -/
def narrowBlock (j : Job) (k : Nat) (bs : List Byte) (st : Stats) : Blk × Stats :=
  let vals := srcVals j.c.sf bs
  let n := vals.length
  let b := (j.bidx + k) % 2 ^ 32
  let aff : Bool := j.c.mode = 1
  if vals.any fun v => !v.isFin then
    let fl := Fl.any ((vals.filter fun v => !v.isFin).map fun v => (narrowOne j k 0 v 0).2)
    (⟨List.replicate n (if j.c.df = 5 then 0 else 0x7F, 0), 0xFF :: (if aff then [0xC0, 0x7F] else []), fl⟩,
      st.addBlock b n 0 [] true false Dy.zero true)
  else
    let m := measureOf j.c.mode vals
    let ov := (bf16.decode m.2.1).dy
    let lim := Fl.cond m.2.2 Fl.clip
    let obytes := if aff then leBytes 2 m.2.1 else []
    if m.1.n = 0 then
      let o : Dy := if aff then ov else Dy.zero
      (⟨List.replicate n (0, 0), 0x7F :: obytes, lim ||| Fl.zeroRange⟩,
        st.addBlock b n (if m.2.2 then n else 0) (vals.map fun v => sseTerm v.dy o.fp) false true Dy.zero (o.n != 0))
    else
      let e := blockExp m.1 (qOf j.c.df) j.ref j.c.dyn
      let o : Dy := if aff then ov else Dy.zero
      let r := (List.zip (List.range n) vals).map fun p =>
        narrowOne j k p.1 (if aff then (p.2.dy.sub o).fp else p.2) (127 - (e : Int))
      let xh := r.map fun q => narrowVal j.c.df q.1 ((e : Int) - 127) o
      (⟨r, leBytes 1 e ++ obytes, lim⟩,
        st.addBlock b n (r.filter fun q => Fl.has q.2 Fl.clip).length (List.zipWith (fun v x => sseTerm v.dy x) vals xh)
          false false m.1 (xh.any fun x => !x.isZero))

/-- Element (r, c) of a group among its 16 bricks in copy order (R171). -/
def groupIdx (r c : Nat) : Nat := (4 * (r / 32) + c / 32) * 1024 + 32 * (r % 32) + c % 32

/-- Group g of a conversion to codes with codebook cb (R178, R180): codes row by row, one scale per row. -/
def codeGroup (j : Job) (g : Nat) (bs : List Byte) (cb : List Nat) (st : Stats) : Blk × Stats :=
  let vals := srcVals j.c.sf bs
  let q := cbMax cb
  (List.range 128).foldl (fun (acc : Blk × Stats) r =>
    let row := (List.range 128).map fun c => vals.getD (groupIdx r c) (.fin false 0 0)
    let b := (j.bidx + 128 * g + r) % 2 ^ 32
    if row.any fun v => !v.isFin then
      let fl := Fl.any (row.map fun v => match v with | .nan _ => v.inFlags | .inf _ => Fl.inv | _ => 0)
      (⟨acc.1.codes ++ List.replicate 128 (0, 0), acc.1.scale ++ [0xFF], acc.1.flags ||| fl⟩,
        acc.2.addBlock b 128 0 [] true false Dy.zero true)
    else
      let a := maxAbs row
      let e := if a.n = 0 then 127 else blockExp a q j.ref j.c.dyn
      let cs := row.map fun v => nearest cb (v.dy.scale (127 - (e : Int)))
      let xh := cs.map fun x => bf16.decode (weightVal (cb.getD x 0) e).1
      (⟨acc.1.codes ++ cs.map (fun x => (x, 0)), acc.1.scale ++ leBytes 1 e, acc.1.flags ||| Fl.cond (a.n = 0) Fl.zeroRange⟩,
        acc.2.addBlock b 128 0 (List.zipWith (fun v x => sseTerm v.dy x) row xh) false (a.n = 0) a (xh.any fun x => !x.isZero)))
    (⟨[], [], 0⟩, st)

/-- A widened brick (R182) with its scale entry bytes. -/
def widenBlock (j : Job) (bs sc : List Byte) : Blk :=
  let s8 := fieldLE sc 0 1
  let dst := fmtOf j.c.df
  let ts := fp32.decode j.c.ts
  let one (code : Nat) : FpRes :=
    if s8 = 0xFF then (dst.nanCode, Fl.nanIn)
    else
      let q : Fp := if j.c.sf = 5 then Fp.ofInt (toSigned 8 code) 0 else (fmtOf j.c.sf).decode code
      let v := q.scaled s8
      let w : Fp × Flags := if j.c.mode = 1 then
          let o := bf16.decode (fieldLE sc 1 2)
          let x := sumExact [o, v]
          (x.1, x.2 ||| o.inFlags)
        else (v, v.inFlags)
      let p := w.1.mulExact ts
      let r := dst.put .rne false p.1
      (r.1, r.2 ||| w.2 ||| (if w.1.isNan then ts.inFlags else p.2))
  ⟨bs.map fun b => one b.toNat, [], 0⟩

/-- A decoded group (R182, R50): rows of 128 weights, written as 16 bricks in the order of R171. -/
def decodeGroup (j : Job) (bs sc : List Byte) (cb : List Nat) : Blk :=
  let rowB := codeRowBytes (j.c.sf - 5)
  let ts := fp32.decode j.c.ts
  let one (r c : Nat) : FpRes :=
    let s8 := fieldLE sc r 1
    let code := codeAt (j.c.sf - 5) ((bs.drop (r * rowB)).take rowB) c
    let entry := bf16.decode (cb.getD code 0)
    if s8 = 0xFF then (bf16.nanCode, Fl.nanIn)
    else
      let fl := Fl.cond (!entry.isFin) Fl.nanIn ||| entry.inFlags
      let p := (entry.scaled s8).mulExact ts
      let q := bf16.put .rne false p.1
      (q.1, q.2 ||| p.2 ||| fl)
  ⟨(List.range 16384).map fun i =>
      let b := i / 1024
      one (32 * (b / 4) + i % 1024 / 32) (32 * (b % 4) + i % 32), [], 0⟩

/-- A rounded brick (R182). -/
def roundBlock (j : Job) (k : Nat) (bs : List Byte) : Blk :=
  let vals := srcVals j.c.sf bs
  ⟨(List.zip (List.range vals.length) vals).map fun p =>
      let r := bf16.put (j.rm k p.1) false p.2
      (r.1, r.2 ||| p.2.inFlags), [], 0⟩

/-- Block or group k of a copy: its output, or the status that stops the copy there (R180). -/
def convBlock (s : State) (t : Nat) (j : Job) (k : Nat) (bs sc : List Byte) (st : Stats) : Except Nat (Blk × Stats) :=
  match pairOf j.c.sf j.c.df with
  | .narrow => .ok (narrowBlock j k bs st)
  | .codes => match codebook s t j.c k with
    | none => .error St.badAddr
    | some cb => if (cbMax cb).n = 0 then .error St.badDesc else .ok (codeGroup j k bs cb st)
  | .widen => .ok (widenBlock j bs sc, st)
  | .decoding => match codebook s t j.c k with
    | none => .error St.badAddr
    | some cb => .ok (decodeGroup j bs sc cb, st)
  | _ => .ok (roundBlock j k bs, st)

/-- The bytes of a block's codes. C-codes pack 4 in a byte, 8 in three, 2 in a byte (R49). -/
def packCodes (df : Nat) (l : List (Nat × Flags)) : List Byte :=
  if df ≥ 6 then
    let w := fmtBits df
    (groupsOf 8 l.length l).flatMap fun g =>
      leBytes w (((List.zip (List.range 8) g).map fun p => p.2.1 * 2 ^ (w * p.1)).sum)
  else l.flatMap fun x => leBytes (fmtBits df / 8) x.1

/-! The reference of a copy (R176). -/

/-- The exponent that covers H * 2^MSH; 0xFF when H = 0. -/
def refOf (c : TagE) (q h : Dy) : Nat := if h.n = 0 ∨ q.n = 0 then 0xFF else exOf (h.scale c.msh) q

/-- The largest of the newest history entries, or none if one of them is not a finite value with sign bit 0 (R173). -/
def histMax (e : BitVec 1024) (c : TagE) : Option Dy :=
  let hs := (List.range (min c.hcount c.hlen)).map fun i => histOf e (c.hhead + 32 - i)
  if hs.any fun h => h ≥ 0x8000 || !(bf16.decode h).isFin then none
  else some (hs.foldl (fun m h => maxDy m (bf16.decode h).dy) Dy.zero)

/-- The measure of the whole source: every block without a non-finite element (R176). -/
def passMax (c : TagE) (blocks : List (List Byte)) : Dy :=
  blocks.foldl (fun m bs =>
    let vals := srcVals c.sf bs
    let parts : List (List Fp) := match pairOf c.sf c.df with
      | .codes => (List.range 128).map fun r => (List.range 128).map fun k => vals.getD (groupIdx r k) (.fin false 0 0)
      | _ => [vals]
    parts.foldl (fun m l => if l.all Fp.isFin then maxDy m (measureOf c.mode l).1 else m) m) Dy.zero

/-! What a DONE copy changes (R183 to R185). -/

/-- A measure rounded upward to BF16, at most the BF16 maximum. -/
def upBf16 (d : Dy) : Nat :=
  if d.n = 0 then 0
  else let r := bf16.roundMag .rup false d.n.natAbs d.e; if r.ovr then bf16.maxCode else r.code

def addF64 (a b : Nat) : Nat := (fp64.add .rne false (fp64.decode a) (fp64.decode b)).1

/-- The fold of a finished step (R184): the entry with its new ZRUN, and whether the alarm fires. -/
def foldZrun (s : State) (t : Nat) (e : BitVec 1024) : BitVec 1024 × Bool :=
  let c := tagE e
  if c.nz ∨ tf e 32 4 = 0 then (tset e 24 2 0, false)
  else
    let z := min (c.zrun + 1) 0xFFFF
    (tset e 24 2 z, z == c.zrun + 1 && z == rd s (Fd.sieveCtlZrunTh t) && rdb s (Fd.sieveCtlZrunEn t))

/-- The step fields with a copy's statistics added (R185). -/
def addStats (e : BitVec 1024) (st : Stats) : BitVec 1024 :=
  let samp : Bool := st.elems > 16777216
  let e := tset e 32 4 (satAdd 32 (tf e 32 4) st.elems)
  let e := tset e 36 4 (satAdd 32 (tf e 36 4) st.clip)
  let e := tset e 40 8 (addF64 (tf e 40 8) (if samp then st.sseS else st.sse))
  let e := tset e 48 4 (satAdd 32 (tf e 48 4) (if samp then st.measS else st.meas))
  let e := tset e 52 2 (satAdd 16 (tf e 52 2) st.nan)
  tset e 54 2 (satAdd 16 (tf e 54 2) st.zr)

/-- The SIEVE_LAST registers and counters of a DONE copy (R185, R191). -/
def lastStats (s : State) (t stag : Nat) (st : Stats) : State :=
  let samp : Bool := st.elems > 16777216
  let s := wrs s [(Fd.sieveLastTagSampled t, b2n samp), (Fd.sieveLastTagTag t, stag),
    (Fd.sieveLastElemsCount t, min st.elems (2 ^ 32 - 1)), (Fd.sieveLastClipCount t, min st.clip (2 ^ 32 - 1)),
    (Fd.sieveLastMeasCount t, min (if samp then st.measS else st.meas) (2 ^ 32 - 1)),
    (Fd.sieveLastSseSse t, if samp then st.sseS else st.sse), (Fd.sieveLastBlkNanblk t, min st.nan 0xFFFF),
    (Fd.sieveLastBlkZrblk t, min st.zr 0xFFFF)]
  bump s (Fd.sieveConvsCount t) 1

/-- The alarm record of R184, posted at clock cycle cyc. -/
def zrunAlarm (s : State) (t stag z opened folded cyc : Nat) : State :=
  postAt s
    { unit := sievePage t, read := none, stop := none, acc := cyc, notices := [Fd.nSieveZeroRun t], counts := [], flagPage := sievePage t
      errs := [], prod := prodTile t, queue := Fd.sieveCqQueue t
      rec_ := { tag := stag, status := St.done, kind := Sk.sieve, idx := t, cyc := cyc, detail := opened + folded * 2 ^ 32,
                flags := Fl.zeroRun, count := z } }

/-- The tag entry after a DONE scaled narrowing copy (R183), and the flag the copy's record takes on. -/
def finishTag (s : State) (t : Nat) (j : Job) (st : Stats) (cyc : Nat) : State × Flags :=
  let e := tagOf s t j.stag
  let c := tagE e
  let amax := upBf16 st.amax
  let opens : Bool := c.hcount = 0 ∨ j.step ≠ c.last
  let f := if opens && c.hcount != 0 then foldZrun s t e else (e, false)
  let e :=
    if opens then
      let h := (c.hhead + 1) % 32
      let e := tset (tset f.1 28 1 h) (64 + 2 * h) 2 amax
      let e := tset (tset e 27 1 (min (c.hcount + 1) 32)) 20 4 j.step
      tset e 32 24 0
    else tset f.1 (64 + 2 * (c.hhead % 32)) 2 (max (histOf f.1 c.hhead) amax)
  let e := tset e 26 1 j.ref
  let e := if st.nz then tset e 27 1 (tf e 27 1 ||| 0x40) else e
  let e := addStats e st
  let s := lastStats (setTag s t j.stag e) t j.stag st
  if f.2 then (zrunAlarm s t j.stag (tf f.1 24 2) j.step c.last cyc, Fl.zeroRun) else (s, 0)

/-! Staged tag writes (R190). -/

/-- SIEVE_TCMD bits on an entry (R191): COLD, CLRSTAT, DEFAULT in that order. -/
def tagCmd (c : Nat) (e : BitVec 1024) : BitVec 1024 :=
  let e := if c.testBit 0 then
      let e := tset (tset (tset e 20 4 0) 24 2 0) 26 1 0xFF
      tset (tset (tset e 27 1 (tf e 27 1 &&& 0x80)) 28 1 0) 64 64 0
    else e
  let e := if c.testBit 1 then tset e 32 24 0 else e
  if c.testBit 2 then tagDefault else e

/-- Bytes from off on replaced. -/
def tagBytes (off : Nat) (bs : List Byte) (e : BitVec 1024) : BitVec 1024 :=
  (List.zip (List.range bs.length) bs).foldl (fun e p => tset e (off + p.1) 1 p.2.toNat) e

def applyTagWrite (t : Nat) (s : State) : TagWrite → State
  | .bytes tag off b => setTag s t tag (tagBytes off b (tagOf s t tag))
  | .cmd tag c => setTag s t tag (tagCmd c (tagOf s t tag))

/-- The Sieve is released at clock cycle c: staged writes apply in order (R190). -/
def releaseSieve (s : State) (t c : Nat) : State :=
  let s := (tile s t).staged.foldl (applyTagWrite t) s
  updTile s t fun x => { x with staged := [], sieve := 0, sieveFrom := c + 1 }

/-- A tag write: staged while a copy holds the Sieve, else at once (R190). -/
def tagWrite (s : State) (t : Nat) (w : TagWrite) : State :=
  if (tile s t).sieve ≠ 0 then updTile s t fun x => { x with staged := x.staged ++ [w] } else applyTagWrite t s w

/-- The page of a tile answers writes: the tile is present, its die is up (R340, R3). -/
def tileUp (s : State) (t : Nat) : Bool := capTile s.variant t && s.boot.stagesDone.contains 6

/-- SIEVE_TWIN_WRITE: bytes at byte offset off of the window; bytes 0 to 19 of the selected entry are writable (R190,
R191). -/
def execSieveTwinWrite (t off : Nat) (bs : List Byte) (s : State) : Res :=
  if ¬ tileUp s t then ok s
  else
    let b := bs.take (20 - off)
    ok (if b.isEmpty then s else tagWrite s t (.bytes (rd s (Fd.sieveTselTag t)) off b))

/-- SIEVE_TSEL_WRITE: ignored with NOTICE.REJECT while staged writes wait (R190). -/
def execSieveTselWrite (t : Nat) (v : BitVec 32) (s : State) : Res :=
  if ¬ tileUp s t then ok s
  else if ¬ (tile s t).staged.isEmpty then ok (notice s (Fd.nSieveReject t))
  else ok (wr s (Fd.sieveTselTag t) (bits v.toNat 9 0))

/-- SIEVE_CTL_WRITE: ignored with NOTICE.REJECT when ZRUN_TH is 0 (R190). -/
def execSieveCtlWrite (t : Nat) (v : BitVec 32) (s : State) : Res :=
  if ¬ tileUp s t then ok s
  else if bits v.toNat 15 0 = 0 then ok (notice s (Fd.nSieveReject t))
  else ok (wr (wr s (Fd.sieveCtlZrunEn t) (bits v.toNat 31 31)) (Fd.sieveCtlZrunTh t) (bits v.toNat 15 0))

/-- A SIEVE_TCMD command on the selected entry. -/
def tagCommand (t c : Nat) (s : State) : Res :=
  if ¬ tileUp s t then ok s else ok (tagWrite s t (.cmd (rd s (Fd.sieveTselTag t)) c))

/-- DEFAULT (R191). -/
def execTagDefault (t : Nat) (s : State) : Res := tagCommand t 4 s
/-- CLRSTAT (R191). -/
def execTagClrstat (t : Nat) (s : State) : Res := tagCommand t 2 s
/-- COLD (R186, R191). -/
def execTagCold (t : Nat) (s : State) : Res := tagCommand t 1 s

end Sys2Proof.Machine
end

