-- ==== Sys2Proof/Machine/ColNum.lean ====
section
/-! DEFINITION. What the collective engine computes: the tree of a group (R285), the descriptor (R286), the formats of a
contribution and the accumulation (R290 to R292), the result header (R298) and the control cell (R305). -/

namespace Sys2Proof.Machine

/-! Groups and trees (R282, R284, R285). -/

/-- Modules named by a membership bitmap, ascending. -/
def memberList (b : Nat) : List Nat := (List.range 4096).filter fun m => b.testBit m

/-- Rank of a member: members with a lower module number. -/
def rankOf (b m : Nat) : Nat := (memberList (b % 2 ^ m)).length
/-- Member of a rank. -/
def ofRank (b i : Nat) : Nat := (memberList b).getD i 0

def modNo (x y z : Nat) : Nat := z * 64 + y * 8 + x

/-- The row head of (y, z) for a root at column xr. -/
def rowHead (b xr y z : Nat) : Option Nat :=
  if b.testBit (modNo xr y z) then some (modNo xr y z)
  else ((List.range 8).map fun x => modNo x y z).find? fun m => b.testBit m

/-- The plane head of z for a root at (xr, yr). -/
def planeHead (b xr yr z : Nat) : Option Nat :=
  match rowHead b xr yr z with
  | some m => some m
  | none => (List.range 8).findSome? fun y => rowHead b xr y z

/-- The parent of a member in the tree of a root; the root has none. -/
def parentOf (b root m : Nat) : Option Nat :=
  let rh := rowHead b (modX root) (modY m) (modZ m)
  let ph := planeHead b (modX root) (modY root) (modZ m)
  if m = root then none
  else if rh ≠ some m then rh
  else if ph ≠ some m then ph
  else some root

def childrenOf (b root m : Nat) : List Nat := (memberList b).filter fun c => parentOf b root c == some m

/-- Edges from a member to the root. -/
def depthOf (b root m : Nat) : Nat :=
  match parentOf b root m with
  | none => 0
  | some p => match parentOf b root p with
    | none => 1
    | some q => match parentOf b root q with
      | none => 2
      | some _ => 3

/-- A member whose edge to its parent is an L2 edge: a plane head other than the root. -/
def onL2 (b root m : Nat) : Bool := m != root && planeHead b (modX root) (modY root) (modZ m) == some m

/-! The descriptor (R286). -/

structure ColD where
  op : Nat
  fn : Nat
  ifmt : Nat
  ofmt : Nat
  prio : Nat
  npart : Nat
  chunk : Nat
  root : Nat
  group : Nat
  nbrk : Nat
  dlDt : Nat
  dlOff : Nat
  src : Nat
  ssrc : Nat
  dst : Nat
  sdst : Nat
  hdr : Nat
  pstr : Nat
  tag : Nat
  w0 : Nat
  rsv : Bool
  deriving DecidableEq, Repr

def colD (d : List Byte) : ColD :=
  let w := dword d
  let q (o : Nat) : Nat := fieldLE d o 8
  let op := bits (w 0) 31 28
  let data : Bool := op ≠ 7
  { op := op, fn := bits (w 0) 27 25, ifmt := bits (w 0) 24 23, ofmt := bits (w 0) 22 21, prio := bits (w 0) 20 19,
    npart := bits (w 0) 18 15, chunk := if bits (w 0) 14 9 = 0 then 64 else bits (w 0) 14 9, root := bits (w 1) 27 16,
    group := bits (w 1) 9 0, nbrk := w 2, dlDt := bits (w 3) 31 29, dlOff := bits (w 3) 28 0, src := q 16, ssrc := q 24,
    dst := q 32, sdst := q 40, hdr := q 48, pstr := w 14, tag := w 15, w0 := w 0,
    rsv := bits (w 0) 8 0 != 0 || bits (w 1) 31 28 != 0 || bits (w 1) 15 10 != 0 || bits (q 48) 63 40 != 0 ||
      (data && [16, 24, 32, 40].any fun o => bits (q o) 63 40 != 0) }

/-- FRED and BARRIER run on the frit path. -/
def ColD.frit (d : ColD) : Bool := d.op == 7 || d.op == 8
/-- REDUCE, ALLREDUCE and REDSCAT reduce. -/
def ColD.reduces (d : ColD) : Bool := d.op == 1 || d.op == 3 || d.op == 4
/-- Constituents rooted at every member. -/
def ColD.perRank (d : ColD) : Bool := d.op == 4 || d.op == 5

/-- Bytes of a brick in a format. -/
def brickBytes3 (fmt : Nat) : Nat := match fmt with | 0 => 4096 | 1 => 2048 | _ => 1024
/-- Chunks of one constituent, and bricks of its chunk c (R289). -/
def ColD.nch (d : ColD) : Nat := ceilDiv d.nbrk (4 * d.chunk)
def ColD.bricksOf (d : ColD) (c : Nat) : Nat := min (4 * d.chunk) (d.nbrk - 4 * d.chunk * c)

/-! Contributions (R290 to R292). -/

/-- The elements of a brick, widened to FP32, with flags. -/
def widen32 (fmt : Nat) (bs : List Byte) (s8 : Nat) : List FpRes :=
  match fmt with
  | 0 => (List.range 1024).map fun i => (fieldLE bs (4 * i) 4, 0)
  | 1 => (List.range 1024).map fun i =>
      let v := bf16.decode (fieldLE bs (2 * i) 2)
      (fp32.encodeExact v, v.inFlags)
  | _ => (List.range 1024).map fun i =>
      let v := (e5m2.decode (fieldLE bs i 1)).scaled s8
      match v with
      | .fin n m e => fp32.roundFlags .rne false n m e
      | _ => (fp32.encodeExact v, v.inFlags)

/-- Flags a collective result carries. -/
def colFlags : Flags := Fl.nanIn ||| Fl.inv ||| Fl.ovf ||| Fl.zeroRange ||| Fl.empty

/-- A contribution combined into the accumulator (R290). -/
def combine32 (fn : Nat) (a : Nat) (v : Nat) : FpRes :=
  let r := match fn with
    | 0 => fp32.add .rne false (fp32.decode a) (fp32.decode v)
    | 1 => fp32.maxMin true a v
    | _ => fp32.maxMin false a v
  (r.1, r.2 &&& colFlags)

/-- The identity of a function (R292). -/
def ident32 (fn : Nat) : Nat := match fn with | 0 => 0 | 1 => fp32.signed true fp32.infCode | _ => fp32.infCode

/-- Elements added to an accumulator, empty before the first contribution. -/
def accumulate (fn : Nat) (acc : List Nat) (v : List FpRes) : List Nat × Flags :=
  let fv := Fl.any (v.map fun x => x.2) &&& colFlags
  if acc.isEmpty then (v.map fun x => x.1, fv)
  else
    let r := (List.zip acc v).map fun p => combine32 fn p.1 p.2.1
    (r.map fun x => x.1, Fl.any (r.map fun x => x.2) ||| fv)

/-- A brick of FP32 codes narrowed to a format (R291): bytes, scale entry, flags; a NaN that is narrowed sets its own (R44, R62). -/
def narrow3 (fmt : Nat) (l : List Nat) : List Byte × Nat × Flags :=
  match fmt with
  | 0 => (l.flatMap (leBytes 4), 0, 0)
  | 1 =>
    let r := l.map fun c => bf16.put .rne false (fp32.decode c)
    (r.flatMap fun x => leBytes 2 x.1, 0, (Fl.any (r.map fun x => x.2) &&& Fl.ovf) ||| Fl.any (l.map fun c => (fp32.decode c).inFlags))
  | _ =>
    let v := l.map fp32.decode
    if v.any fun x => !x.isFin then (List.replicate 1024 0x7F, 0xFF, Fl.any (v.map Fp.inFlags))
    else
      let a := maxAbs v
      if a.n = 0 then (List.replicate 1024 0, 127, Fl.zeroRange)
      else
        let e := exOf a ⟨57344, 0⟩
        (v.flatMap fun x => leBytes 1 (e5m2.narrow8 .rne false (127 - (e : Int)) x).1, e, 0)

/-- Codes in bricks of 1,024. -/
def bricks32 : Nat → List Nat → List (List Nat)
  | 0, _ => []
  | k + 1, l => l.take 1024 :: bricks32 k (l.drop 1024)

/-- A chunk of n bricks in a format: data bytes, scale entries, flags. -/
def encodeChunk (fmt n : Nat) (l : List Nat) : List Byte × List Byte × Flags :=
  let r := (bricks32 n l).map (narrow3 fmt)
  (r.flatMap fun x => x.1, if fmt = 2 then r.map fun x => BitVec.ofNat 8 x.2.1 else [], Fl.any (r.map fun x => x.2.2))

/-- n bricks in a format read back as FP32. -/
def decodeChunk (fmt n : Nat) (data scales : List Byte) : List FpRes :=
  (List.range n).flatMap fun i =>
    widen32 fmt ((data.drop (i * brickBytes3 fmt)).take (brickBytes3 fmt)) (fieldLE scales i 1)

/-- What the finite check finds in n bricks (R297): NAN_IN for a NaN or an S8 of 0xFF, with INV where it signals (R44), INV for an infinity. -/
def finiteFlags (fmt n : Nat) (data scales : List Byte) : Flags :=
  Fl.any ((decodeChunk fmt n data scales).map fun x =>
    match fp32.decode x.1 with
    | .nan g => (Fp.nan g).inFlags ||| x.2
    | .inf _ => if Fl.has x.2 Fl.ovf then 0 else Fl.inv
    | _ => 0)

/-! The header (R298). -/

/-- The union of exclusions, each module once with its first chunk. -/
def mergeExcl (a b : List (Nat × Nat × Nat)) : List (Nat × Nat × Nat) :=
  b.foldl (fun l e =>
    match l.find? fun x => x.1 == e.1 with
    | some x => if e.2.2 < x.2.2 then l.map fun y => if y.1 = e.1 then e else y else l
    | none => (l.filter fun x => x.1 < e.1) ++ [e] ++ (l.filter fun x => e.1 < x.1)) a

/-- An exclusion added to a header, with its flags. -/
def CHdr.exclude (h : CHdr) (m reason chunk : Nat) : CHdr :=
  if h.excl.any fun x => x.1 == m then h
  else { h with excl := mergeExcl h.excl [(m, reason, chunk)], nexcl := h.nexcl + 1, reasons := h.reasons ||| 2 ^ reason,
                flags := h.flags ||| Fl.excluded ||| Fl.cond (reason == 2) Fl.stepSkew }

/-- The header of a subtree taken into that of its parent. -/
def CHdr.join (h k : CHdr) : CHdr :=
  let e := mergeExcl h.excl k.excl
  { h with contrib := h.contrib ||| k.contrib, excl := e, nexcl := max e.length (h.nexcl + k.nexcl - (h.excl.length + k.excl.length - e.length)),
           reasons := h.reasons ||| k.reasons, flags := h.flags ||| k.flags }

/-- The header of one chunk taken into that of the operation: members count that are in every chunk. -/
def CHdr.chunk (h k : CHdr) (isFirst : Bool) : CHdr :=
  let j := h.join k
  { j with contrib := if isFirst then k.contrib else h.contrib &&& k.contrib, nexcl := max h.nexcl (max j.excl.length k.nexcl) }

def popcount (n : Nat) : Nat := ((List.range 4096).filter fun i => n.testBit i).length

/-- The 1 KiB of a header. -/
def CHdr.bytes (h : CHdr) : List Byte :=
  let r := h.reasons % 2 ^ 15 + (if 60 < h.excl.length ∨ h.excl.length < h.nexcl then 2 ^ 15 else 0)
  let l := h.excl.take 60
  leBytes 4 h.step ++ leBytes 4 h.seq ++ leBytes 4 h.gen ++ leBytes 2 (popcount h.contrib) ++ leBytes 2 h.nexcl ++ leBytes 2 r ++
    leBytes 2 h.lagMod ++ leBytes 4 h.lagCc ++ leBytes 4 h.flags.toNat ++ leBytes 4 h.chunks ++
    (l.flatMap fun e => leBytes 8 (e.1 * 2 ^ 52 + e.2.1 % 16 * 2 ^ 48 + e.2.2 % 2 ^ 32)) ++
    List.replicate (480 - 8 * l.length) 0 ++ leBytes 512 h.contrib

/-- A header read from its bytes. -/
def hdrOf (b : List Byte) : CHdr :=
  let n := fieldLE b 14 2
  { step := fieldLE b 0 4, seq := fieldLE b 4 4, gen := fieldLE b 8 4, contrib := fieldLE b 512 512, nexcl := n,
    reasons := fieldLE b 16 2 % 2 ^ 15,
    excl := (List.range (min n 60)).map fun i => let e := fieldLE b (32 + 8 * i) 8; (bits e 63 52, bits e 51 48, bits e 31 0),
    lagMod := fieldLE b 18 2, lagCc := fieldLE b 20 4, flags := BitVec.ofNat 32 (fieldLE b 24 4), chunks := fieldLE b 28 4 }

/-! Cells (R305). -/

/-- The 48-byte body of a control cell. -/
def ctlBytes (m : ColCtl) : List Byte :=
  leBytes 1 m.kind ++ leBytes 1 m.reason ++ leBytes 2 m.group ++ leBytes 4 m.gen ++ leBytes 4 m.opseq ++ leBytes 4 m.chunk ++
    leBytes 4 m.step ++ leBytes 4 m.nbrk ++ leBytes 4 m.word0 ++ leBytes 2 m.modno ++ leBytes 2 0 ++ leBytes 4 m.lag ++
    List.replicate 12 0

/-- The offset that identifies a data cell: group, chunk index, type 0 data, 1 header, 2 scale entries, byte offset. -/
def colOffset (group g typ off : Nat) : Nat := 16 * (group * 2 ^ 26 + g % 4 * 2 ^ 24 + typ * 2 ^ 20 + off)

end Sys2Proof.Machine
end

