-- ==== Sys2Proof/Machine/Channel.lean ====
section
/-! DEFINITION. Refresh slots and pseudo-channels (R22, R23, R153 to R156, R410): the turns that have slots, the requests that a
pseudo-channel serves in the order of their arrival, and the times of a stream's chunks. Times are computed when they are asked for, so that
a turn length staged later and a request that arrives earlier move what they reach. -/

namespace Sys2Proof.Machine

/-! Engines: by STREAM number, tile engine 2t + e below 128, hub engine 128 + n. -/

def engHub (e : Nat) : Bool := e ≥ 128
def engTile (e : Nat) : Nat := e / 2
def engDie (e : Nat) : Nat := if engHub e then 4 else e / 32

/-- Latency that the route from requester die d (4: hub) to compute die e adds (R13, R351). -/
def routeCc (s : State) (d e : Nat) : Nat := if d = 4 then 116 else dieRoute s d e

/-! The turns and their slots (R21, R22, R31 to R33). -/

/-- A turn as it runs: its start, the length within which its slots count, the start of the next. -/
structure Span where
  start : Nat
  len : Nat
  stop : Nat
  deriving DecidableEq, Repr

/-- Length of the k-th turn to come, as beacons, staged values and TRN_CUR now stand. -/
def comingLen (s : State) (k : Nat) : Nat :=
  match s.turn.nextPar with
  | some p => 1024 * p.1
  | none => match s.turn.arm with
    | some n => 1024 * rd s (if rd s Fd.trnStateRole ≠ 2 ∧ n ≤ turnNo s + k then Fd.trnLenUnits else Fd.trnCurUnits)
    | none => 1024 * rd s Fd.trnCurUnits

/-- The coming turn in which clock cycle c lies; turn k starts at st. -/
def comingSpan (s : State) (c : Nat) : Nat → Nat → Nat → Span
  | 0, k, st => ⟨st, comingLen s k, st + comingLen s k⟩
  | fuel + 1, k, st => if c < st + comingLen s k then ⟨st, comingLen s k, st + comingLen s k⟩ else comingSpan s c fuel (k + 1) (st + comingLen s k)

/-- The earlier turn in which clock cycle c lies; before the earliest one remembered there is no slot. -/
def pastSpan (c : Nat) : Nat → List (Nat × Nat) → Span
  | stop, [] => ⟨0, 0, stop⟩
  | stop, p :: r => if p.1 ≤ c then ⟨p.1, p.2, stop⟩ else pastSpan c p.1 r

/-- The turn in which clock cycle c lies. -/
def spanAt (s : State) (c : Nat) : Span :=
  if c < s.turn.start then pastSpan c s.turn.start s.turn.past
  else if c < s.turn.stop then ⟨s.turn.start, s.turn.len, s.turn.stop⟩
  else comingSpan s c ((c - s.turn.stop) / 16384) 1 s.turn.stop

/-- The first refresh slot start at or after clock cycle c. -/
def nextSlot (s : State) (c : Nat) : Nat :=
  let p := spanAt s c
  let j := ceilDiv (c - p.start) 6816
  if 6816 * j + 128 ≤ p.len then p.start + 6816 * j else p.stop

/-- The cycle in which the slot that clock cycle c lies in ends, or c. -/
def slotEnd (s : State) (c : Nat) : Nat :=
  let p := spanAt s c
  let o := c - p.start
  if o % 6816 < 128 ∧ 6816 * (o / 6816) + 128 ≤ p.len then c + (128 - o % 6816) else c

/-- A time moved by 128 cc for each slot that starts before it, from slot start ss on; slots from limit on do not count. -/
def slotShift (s : State) (limit : Nat) : Nat → Nat → Nat → Nat
  | 0, _, t => t
  | fuel + 1, ss, t => if ss < t ∧ ss < limit then slotShift s limit fuel (nextSlot s (ss + 1)) (t + 128) else t
def shifted (s : State) (from_ t : Nat) : Nat := slotShift s (t + 2 ^ 40) ((t - from_) / 4096 + 8) (nextSlot s from_) t

/-- An access to a stack that is part of no stream reaches its controller at clock cycle c: it waits for a slot to end, and the wait is
counted (R23, R156). -/
def hbmAccess (s : State) (stack c : Nat) : State × Nat :=
  let g := slotEnd s c
  if g = c then (s, c) else (bump (bump s (Fd.memSlotReqCount stack) 1) (Fd.memSlotWaitCycles stack) (g - c), g)

/-- The same for an access to any local offset: only HBM has slots. -/
def memAccess (s : State) (a c : Nat) : State × Nat :=
  match targetOf a with
  | .hbm k => hbmAccess s k c
  | _ => (s, c)

/-! Sides (R158). -/

structure Side where
  base : Nat
  len : Nat
  xs : Nat
  ys : Nat
  nx : Nat
  deriving DecidableEq, Repr

/-- Offset from the base of stream position p. -/
def Side.rel (d : Side) (p : Nat) : Nat :=
  let b := p / d.len
  b / d.nx * d.ys + b % d.nx * d.xs + p % d.len

/-- The contiguous pieces (stream position, address, bytes) of n stream bytes from position p. -/
def Side.segs (d : Side) : Nat → Nat → Nat → List (Nat × Nat × Nat)
  | 0, _, _ => []
  | fuel + 1, p, n =>
    if n = 0 then []
    else
      let k := min n (d.len - p % d.len)
      (p, d.base + d.rel p, k) :: Side.segs d fuel (p + k) (n - k)

/-- Pieces of a stretch; each lies in one block. -/
def Side.pieces (d : Side) (p n : Nat) : List (Nat × Nat × Nat) := d.segs (n / 64 + 2) p n

/-! Pseudo-channels (R153 to R156). -/

/-- Stack and pseudo-channel of an HBM offset. -/
def pcOf (a : Nat) : Nat × Nat := (a / 0xC00000000, a % 0xC00000000 / 1024 % 32)

def isHbm (a : Nat) : Bool := a < hbmTop

/-- A request as it is served: the cycle from which its schedule counts, that from which slots move it, the cycles it waited for a slot to
end and those for the share ahead, and the end of its hold. -/
structure Served where
  req : PcReq
  start : Nat
  from_ : Nat
  wait : Nat
  moved : Nat
  upto : Nat
  deriving DecidableEq, Repr

/-- Requests served in order on a channel held until clock cycle held (R155, R156). -/
def serveFrom (s : State) : Nat → List PcReq → List Served
  | _, [] => []
  | held, r :: l =>
    let w := slotEnd s r.arrive - r.arrive
    let free : Bool := held ≤ r.arrive
    let start := if free then r.base + w else held
    let from_ := if free then r.arrive + w else held
    let upto := shifted s from_ (start + r.chunks * 35 / 12)
    { req := r, start := start, from_ := from_, wait := w, moved := if free then 0 else held - r.base, upto := upto } ::
      serveFrom s upto l

/-- The requests of pseudo-channel k (32 * stack + channel) as they are served. -/
def served (s : State) (k : Nat) : List Served := serveFrom s 0 (Tab.get [] s.pcq k)

/-- A request in its place: by arrival, then tile engines, hub engines and host HDM by number (R155). -/
def insertReq (r : PcReq) : List PcReq → List PcReq
  | [] => [r]
  | q :: l =>
    if r.arrive < q.arrive ∨ (r.arrive = q.arrive ∧ (r.who < q.who ∨ (r.who = q.who ∧ r.side < q.side))) then r :: q :: l
    else q :: insertReq r l

/-- The collective engine's number among the requesters of a pseudo-channel: after the hub engines (DEDUCED, log entry 15). -/
def colEng : Nat := 132

/-- A share of a copy, of a context switch or of a stream of the collective engine in flight stands behind a request. -/
def ownedReq (s : State) (k : Nat) (r : PcReq) : Bool :=
  let mine (sh : Share) : Bool := 32 * sh.stack + sh.pc == k && sh.base == r.base && sh.side == r.side
  decide (r.who < 256) && ((engine s r.who).copies.any (fun c => c.shares.any mine) || (tile s (r.who / 2)).switchShares.any mine ||
    r.who == colEng && s.col.streams.any (fun x => x.shares.any mine))

/-- A channel's requests that are all past and have no stream in flight are forgotten. -/
def pcIdle (s : State) (k : Nat) : Bool := (served s k).all fun v => decide (v.upto ≤ s.now) && !ownedReq s k v.req

/-- A request enters the order of a pseudo-channel. -/
def requestPc (s : State) (k : Nat) (r : PcReq) : State :=
  { s with pcq := Tab.insert s.pcq k (insertReq r (if pcIdle s k then [] else Tab.get [] s.pcq k)) }

/-- The 64-byte chunks of a stream of n bytes: for each its KiB of the stream, stack, pseudo-channel, place in its
share. -/
def streamChunks (d : Side) (n : Nat) : List (Nat × Nat × Nat × Nat) :=
  ((List.range (n / 64)).foldl (fun (st : List (Nat × Nat) × List (Nat × Nat × Nat × Nat)) i =>
    let p := pcOf (d.base + d.rel (64 * i))
    let k := 32 * p.1 + p.2
    let c := Tab.get 0 st.1 k
    (Tab.insert st.1 k (c + 1), st.2 ++ [(i / 16, p.1, p.2, c)])) ([], [])).2

/-- The shares of a stream of engine e whose schedule counts from cycle b and whose requests are sent lead cycles later (R154). -/
def sharesOf (s : State) (lead e b side : Nat) (d : Side) (n : Nat) : List Share :=
  let ch := streamChunks d n
  (ch.foldl (fun l c => insertNat l (32 * c.2.1 + c.2.2.1)) []).map fun k =>
    { side := side, stack := k / 32, pc := k % 32, chunks := (ch.filter fun c => 32 * c.2.1 + c.2.2.1 == k).length, base := b,
      arrive := b + lead + routeCc s (engDie e) (k / 32 / 4) / 2, started := false }

/-- The requests of shares enter their channels; one that finds a slot counts once for each stack (R156). -/
def requestShares (s : State) (e : Nat) (l : List Share) : State :=
  let s := l.foldl (fun s sh => requestPc s (32 * sh.stack + sh.pc) ⟨sh.arrive, e, sh.side, sh.base, sh.chunks⟩) s
  (l.foldl (fun m sh => insertNat m sh.stack) []).foldl (fun s k =>
    if l.any fun sh => sh.stack == k && slotEnd s sh.arrive != sh.arrive then bump s (Fd.memSlotReqCount k) 1 else s) s

/-- A share as its channel serves it. -/
def servedShare (s : State) (e : Nat) (sh : Share) : Option Served :=
  (served s (32 * sh.stack + sh.pc)).find? fun v => v.req == ⟨sh.arrive, e, sh.side, sh.base, sh.chunks⟩

/-- Cycles by which the share ahead moves a share's origin (R155), and the origin. -/
def shareMoved (s : State) (e : Nat) (sh : Share) : Nat := ((servedShare s e sh).map Served.moved).getD 0
def shareOrigin (s : State) (e : Nat) (sh : Share) : Nat := ((servedShare s e sh).map Served.start).getD sh.base

/-- When chunk c of a share is in place, and when it would be without slots and waits (R154 to R156). -/
def chunkTime (s : State) (e : Nat) (sh : Share) (c : Nat) : Nat × Nat :=
  let o := 236 + c * 35 / 12 + routeCc s (engDie e) (sh.stack / 4)
  match servedShare s e sh with
  | some v => (shifted s v.from_ (v.start + o), sh.base + o)
  | none => (sh.base + o, sh.base + o)

/-- The cycle in which each KiB of a stream is complete, with and without slots and waits. -/
def streamTimes (s : State) (e : Nat) (shares : List Share) (side : Nat) (d : Side) (n : Nat) : List (Nat × Nat) :=
  let mine := shares.filter fun sh => sh.side == side
  (streamChunks d n).foldl (fun (l : List (Nat × Nat)) c =>
    let t := match mine.find? fun sh => sh.stack == c.2.1 && sh.pc == c.2.2.1 with
      | some sh => chunkTime s e sh c.2.2.2
      | none => (0, 0)
    if c.1 < l.length then l.modify c.1 fun x => (max x.1 t.1, max x.2 t.2) else l ++ [t]) []

/-- Cycles that a served request of engine e loses to slots that start before clock cycle limit, up to its last chunk (R156). -/
def slotLoss (s : State) (limit route : Nat) (v : Served) : Nat :=
  let t := v.start + 236 + (v.req.chunks - 1) * 35 / 12 + route
  if limit ≤ v.req.arrive then 0
  else v.wait + (slotShift s limit ((t - v.from_) / 4096 + 8) (nextSlot s v.from_) t - t)

/-- The MEM counters of the streams of a copy, up to clock cycle limit (R156). -/
def countStreams (s : State) (e : Nat) (shares : List Share) (limit : Nat) : State :=
  let keys := shares.foldl (fun l sh => insertNat l (4 * sh.stack + sh.side)) []
  keys.foldl (fun s k =>
    let mine := (shares.filter fun sh => 4 * sh.stack + sh.side == k).filterMap (servedShare s e)
    let w := mine.foldl (fun m v => max m (slotLoss s limit (routeCc s (engDie e) (k / 4 / 4)) v)) 0
    let p := mine.foldl (fun m v => if v.start < limit then max m v.moved else m) 0
    bump (bump s (Fd.memSlotWaitCycles (k / 4)) w) (Fd.memPcWaitCycles (k / 4)) p) s

/-- At a turn start the channels and the earlier turns that nothing in flight counts from are forgotten, and the turn that ends is kept. -/
def keepSpans (s : State) : State :=
  let q := s.pcq.filter fun p => !pcIdle s p.1
  { s with pcq := q, turn := { s.turn with past := if q.isEmpty then [] else (s.turn.start, s.turn.len) :: s.turn.past } }

end Sys2Proof.Machine
end

