-- ==== Sys2Proof/Machine/Copy.lean ====
section
/-! DEFINITION. The punty copy engines (08_tile_memory_copies.md, R280): descriptor and checks, the schedule (R166, R188), what a copy does
in a cycle of its own (source KiB taken, units converted and committed or handed over: R158 to R160, R187), the start, the Sieve, and the
ends. -/

namespace Sys2Proof.Machine

def engPage (e : Nat) : Nat := if engHub e then fmaPage else tilePage (e / 2) (6 + e % 2)

/-! The descriptor (R157). -/

structure CopyD where
  op : Nat
  conv : Nat
  sloc : Bool
  dloc : Bool
  scl : Bool
  se : Nat
  bsz : Nat
  stag : Nat
  blen : Nat
  ny : Nat
  nx : Nat
  bidx : Nat
  src : Nat
  dst : Nat
  sxs : Nat
  sys : Nat
  dxs : Nat
  dys : Nat
  ssrc : Nat
  sdst : Nat
  /-- reserved bits are nonzero: of the control words, of SRC, of the other addresses -/
  rsv : Bool
  srcHi : Bool
  deriving DecidableEq, Repr

def copyD (d : List Byte) : CopyD :=
  let w := dword d
  { op := bits (w 0) 31 28, conv := bits (w 0) 27 26, sloc := bit (w 0) 25, dloc := bit (w 0) 24, scl := bit (w 0) 23,
    se := bits (w 0) 22 22, bsz := bits (w 0) 21 20, stag := bits (w 1) 31 22, blen := bits (w 1) 10 0,
    ny := bits (w 2) 31 16, nx := bits (w 2) 15 0, bidx := w 3, src := fieldLE d 16 8, dst := fieldLE d 24 8,
    sxs := w 8, sys := w 9, dxs := w 10, dys := w 11, ssrc := fieldLE d 48 8, sdst := fieldLE d 56 8,
    rsv := bits (w 0) 19 0 != 0 || bits (w 1) 21 11 != 0 || bits (fieldLE d 24 8) 63 52 != 0 ||
      bits (fieldLE d 48 8) 63 52 != 0 || bits (fieldLE d 56 8) 63 52 != 0,
    srcHi := bits (fieldLE d 16 8) 63 52 != 0 }

def CopyD.brick (d : CopyD) : Nat := 1024 * 2 ^ d.bsz
def CopyD.esize (d : CopyD) : Nat := if d.se = 1 then 3 else 1
def CopyD.blocks (d : CopyD) : Nat := d.nx * d.ny
/-- Source bytes of the whole copy. -/
def CopyD.total (d : CopyD) : Nat := d.blocks * d.blen * 64

/-- The operation uses a source side, a destination side (R160, R187). -/
def CopyD.hasSrc (d : CopyD) : Bool := d.op == 1 || d.op == 4
def CopyD.hasDst (d : CopyD) : Bool := d.op != 4
/-- It holds the Sieve (R165, R187). -/
def CopyD.needsSieve (d : CopyD) : Bool := d.conv == 1 || d.op ≥ 3

/-- Fields that FILL, HDUMP and HLOAD do not use are reserved (R160). -/
def CopyD.unused (d : CopyD) : Bool :=
  match d.op with
  | 2 => d.sloc || d.scl || d.se != 0 || d.bsz != 0 || d.stag != 0 || d.bidx != 0 || d.sxs != 0 || d.sys != 0 ||
      d.ssrc != 0 || d.sdst != 0
  | 3 => d.sloc || d.scl || d.se != 0 || d.bsz != 0 || d.bidx != 0 || d.src != 0 || d.sxs != 0 || d.sys != 0 ||
      d.dxs != 0 || d.dys != 0 || d.ssrc != 0 || d.sdst != 0
  | 4 => d.dloc || d.scl || d.se != 0 || d.bsz != 0 || d.bidx != 0 || d.dst != 0 || d.sxs != 0 || d.sys != 0 ||
      d.dxs != 0 || d.dys != 0 || d.ssrc != 0 || d.sdst != 0
  | _ => false

/-- Check 1 of R163, with R160 and, for a hub engine, R280. -/
def CopyD.bad (d : CopyD) (hub : Bool) : Bool :=
  let a6 (n : Nat) : Bool := n % 64 != 0
  d.rsv || d.op == 0 || decide (d.op > 4) || decide (d.conv > 1) || (d.conv == 1 && d.op != 1) || decide (d.blen > 1024) ||
    (d.op != 2 && (d.srcHi || a6 d.src)) || (d.op == 1 && d.conv == 0 && d.stag != 0) || d.unused ||
    a6 d.dst || a6 d.ssrc || a6 d.sdst || a6 d.sxs || a6 d.sys || a6 d.dxs || a6 d.dys ||
    (d.scl && d.conv == 0 && [d.blen * 64, d.sxs, d.sys, d.dxs, d.dys].any fun v => v % d.brick != 0) ||
    (d.op == 1 && !d.sloc && !d.dloc) || (hub && d.needsSieve)

/-- The further conditions of HDUMP and HLOAD (R187). -/
def CopyD.badHist (d : CopyD) : Bool :=
  (d.op == 3 || d.op == 4) && (d.blen % 2 != 0 || decide (d.stag + d.blen / 2 > 1024) || decide (d.nx > 1) || decide (d.ny > 1))

/-! Sides (R158, R161). -/

/-- Whether an address is a local one: its LOC bit, or this module's number (R161, R262). -/
def sideLocal (s : State) (loc : Bool) (a : Nat) : Bool := loc || (coordValid s && a / 2 ^ 40 == ownNo s)

def CopyD.srcLocal (s : State) (d : CopyD) : Bool := sideLocal s d.sloc d.src
def CopyD.dstLocal (s : State) (d : CopyD) : Bool := sideLocal s d.dloc d.dst
def off40 (a : Nat) : Nat := a % 2 ^ 40

def CopyD.srcSide (d : CopyD) : Side := ⟨off40 d.src, d.blen * 64, d.sxs, d.sys, d.nx⟩
/-- The destination side, its block length scaled from rs source bytes to rd destination bytes (R159). -/
def CopyD.dstSide (d : CopyD) (rs rd : Nat) : Side := ⟨off40 d.dst, d.blen * 64 * rd / rs, d.dxs, d.dys, d.nx⟩

/-- What accesses made one after another end with: BAD_ADDR where one of them does, else the first status met (R17, R163). -/
def worstOf (l : List (Option Nat)) : Option Nat := if l.contains (some St.badAddr) then some St.badAddr else l.findSome? id

/-- What the accesses to a whole local side meet, block by block. -/
def sideStatus (s : State) (d : Side) (blocks : Nat) : Option Nat :=
  worstOf ((List.range blocks).map fun b => accessStatus s (d.base + d.rel (b * d.len)) d.len)
/-- The same for the scale entries, e bytes for each of n bricks of bs bytes. -/
def scaleStatus (s : State) (d : Side) (base e bs n : Nat) : Option Nat :=
  if e = 0 then none
  else worstOf ((List.range n).map fun k => accessStatus s (off40 base + e * (d.rel (k * bs) / bs)) e)

/-- The same for scale entries at base: of a code group 128 bytes each, in a row (R182). -/
def entryStatus (s : State) (d : Side) (base e bs n : Nat) : Option Nat :=
  if e = 128 then worstOf ((List.range n).map fun k => accessStatus s (off40 base + 128 * k) 128) else scaleStatus s d base e bs n

/-- Check 3 of R163 at cycle 9: both local sides of a plain copy with their scale tensors; of a converting one the source side and SSRC, by
the tag as it then stands. -/
def CopyD.addrStatus (s : State) (e : Nat) (d : CopyD) : Option Nat :=
  let t := tagE (tagOf s (engTile e) d.stag)
  let se := if d.conv == 1 then (if pairOf t.sf t.df == .invalid then 0 else t.scaleIn) else if d.scl then d.esize else 0
  let sb := if d.conv == 1 then max t.srcBytes 1 else d.brick
  worstOf
    ((if d.hasSrc && d.srcLocal s then [sideStatus s d.srcSide d.blocks, entryStatus s d.srcSide d.ssrc se sb (d.total / sb)] else []) ++
     (if d.hasDst && d.dstLocal s && d.conv == 0 then
        [sideStatus s (d.dstSide 1 1) d.blocks, scaleStatus s (d.dstSide 1 1) d.sdst se d.brick (d.total / d.brick)] else []))

/-- The remote module of a copy, or none. -/
def CopyD.remote (s : State) (d : CopyD) : Option Nat :=
  if d.hasSrc && !d.srcLocal s then some (d.src / 2 ^ 40)
  else if d.hasDst && !d.dstLocal s then some (d.dst / 2 ^ 40)
  else none

/-- The checks at cycle 9 (R163, R273): what ends the copy at cycle 10, or none. -/
def CopyD.check (s : State) (e : Nat) (d : CopyD) : Option Nat :=
  if d.bad (engHub e) ∨ d.badHist then some St.badDesc
  else if d.blen = 0 ∨ d.nx = 0 ∨ d.ny = 0 then some St.doneEmpty
  else match d.addrStatus s e with
    | some x => some x
    | none => match d.remote s with
      | some m => remoteBlocked s m e
      | none => none

/-! Records (R168, R169, R281). -/

/-- A copy's record: c counts its acceptance; late are slot and pseudo-channel cycles, lost arbitration and Sieve waits. -/
def copyPosting (e tag acc status cyc late lost : Nat) (flags : Flags) (count : Nat) : Posting :=
  let hub := engHub e
  { unit := engPage e, read := none, stop := none, acc := acc
    notices := if hub then [] else if isReject status then [Fd.nPceReject e]
      else if status = St.abandoned then [Fd.nPceAbandon e]
      else if status = St.unreachable ∨ status = St.linkDown ∨ status = St.dropped then [Fd.nPceFabric e] else []
    counts := if status = St.done ∧ ¬ hub then [Fd.pceOpsCount e] else []
    flagPage := engPage e, errs := if 0x10 ≤ status then [engPage e] else []
    prod := if hub then prodFma else prodTile (engTile e)
    queue := if hub then Fd.fmaHpceCq (e - 128) else Fd.pceCqQueue e
    rec_ := { tag := tag, status := status, kind := Sk.pce, idx := if hub then 0x8000 + (e - 128) else e, cyc := cyc
              detail := (cyc - acc) % 2 ^ 32 + min late 0xFFFF * 2 ^ 32 + min lost 0xFFFF * 2 ^ 48, flags := flags, count := count } }

/-! The schedule of a copy (R166, R188). -/

/-- The tag of a converting copy, as it stood when the copy took the Sieve. -/
def Copy.tagE (c : Copy) : TagE := Sys2Proof.Machine.tagE c.entry
def Copy.d (c : Copy) : CopyD := copyD c.desc
/-- The conversion pair of a converting copy. -/
def Copy.pair (c : Copy) : Pair := if c.d.conv = 1 then pairOf c.tagE.sf c.tagE.df else .invalid
/-- Source and destination bytes of one conversion block; 1 and 1 without a conversion. -/
def Copy.ratio (c : Copy) : Nat × Nat := if c.d.conv = 1 then (c.tagE.srcBytes, c.tagE.dstBytes) else (1, 1)
def Copy.dstTotal (c : Copy) : Nat := c.d.total * c.ratio.2 / c.ratio.1
/-- Source KiB, and destination units of 1 KiB; an HLOAD commits its source KiB. -/
def Copy.kibs (c : Copy) : Nat := ceilDiv c.d.total 1024
def Copy.units (c : Copy) : Nat := ceilDiv c.dstTotal 1024
def Copy.dside (c : Copy) : Side := c.d.dstSide c.ratio.1 c.ratio.2
/-- Cycle 0 of a copy as its later events count it: the start, later by the cycles that its descriptor read lost (R150). -/
def Copy.begun (c : Copy) : Nat := c.start.getD 0 + c.readLag
/-- The cycle from which the table of R166 counts: with the Sieve wait and a present-tensor pass. -/
def Copy.base (c : Copy) : Nat := c.begun + c.sieveWait + c.extra
/-- Lost cycles that still move its events: those that its base does not hold. -/
def Copy.losses (c : Copy) : List Nat := c.lost.filter fun l => decide (c.since ≤ l)
/-- Units that commit together: those of a conversion block with its scale bytes (R30, R188). Of a block of several KiB each KiB has a cycle of
its own under R188, and R30 leaves the block whole or untouched: the model commits it whole in the cycle of its last KiB (the model's choice
between the two, log entry 23). -/
def Copy.batch (c : Copy) : Nat := if c.d.conv = 1 then max 1 (c.tagE.dstBytes / 1024) else 1

/-- A side lies on another module. -/
def Copy.srcRemote (s : State) (c : Copy) : Bool := c.d.hasSrc && !c.d.srcLocal s
def Copy.dstRemote (s : State) (c : Copy) : Bool := c.d.hasDst && !c.d.dstLocal s

/-- The route of a side on another die (R166); an HBM side has it in its stream. -/
def sideRoute (s : State) (e a : Nat) : Nat := if isHbm a then 0 else routeCc s (engDie e) (dieOf a)

/-- KiB of a remote source that have reached the engine, in order: when. -/
def arrivals (came : List (Nat × Nat)) : Nat → Nat → Nat → List (Nat × Nat)
  | 0, _, _ => []
  | fuel + 1, j, prev => match Tab.find came j with
    | none => []
    | some t => (max t prev, max t prev) :: arrivals came fuel (j + 1) (max t prev)

/-- The source stream that a copy takes its KiB from: its first, or behind a present-tensor pass its second (R154). -/
def Copy.srcStream (c : Copy) : Nat := if c.shares.any fun sh => sh.side == 2 then 2 else 0

/-- The cycle in which each source KiB is there for the engine, with and without slots and waits, and without lost Marver cycles. Of a remote
source only the KiB that have come have one. -/
def Copy.planSource (s : State) (e : Nat) (c : Copy) : List (Nat × Nat) :=
  if ¬ c.d.hasSrc then []
  else if c.srcRemote s then arrivals c.came c.kibs 0 0
  else if isHbm c.d.srcSide.base then
    (streamTimes s e c.shares c.srcStream c.d.srcSide c.d.total).map fun t => (t.1, t.2 - c.extraLag)
  else (List.range c.kibs).map fun j =>
    let t := c.begun + c.extra + 24 + j + sideRoute s e c.d.srcSide.base
    (t, t - c.extraLag)

/-- Source KiB in order, none before its cycle in lo and one in a cycle at most. -/
def onePerCycle : Nat × Nat → List (Nat × Nat) → List (Nat × Nat)
  | _, [] => []
  | lo, p :: l =>
    let t := (max p.1 lo.1, max p.2 lo.2)
    t :: onePerCycle (t.1 + 1, t.2 + 1) l

/-- The cycle in which the engine takes each source KiB: a copy that needs the Sieve none before it holds it, and one in a cycle (R165, R188). The
worked example of 08_tile_memory_copies.md has several HBM KiB taken in one cycle; the rule goes before it (log entry 26). -/
def Copy.planTakes (s : State) (e : Nat) (c : Copy) : List (Nat × Nat) :=
  let l := c.planSource s e
  if ¬ c.hasSieve then l else onePerCycle (c.sieveAt, c.sieveAt) l

/-- The source KiB that unit i needs, as a range [lo, hi). -/
def Copy.needs (c : Copy) (i : Nat) : Nat × Nat :=
  if ¬ c.d.hasSrc then (0, 0)
  else if c.d.conv ≠ 1 then (i, min c.kibs (i + 1))
  else
    let (sb, db) := c.ratio
    let lo := 1024 * i
    let hi := min c.dstTotal (lo + 1024)
    match c.pair with
    | .widen | .rounding => (lo * sb / db / 1024, ceilDiv (hi * sb / db) 1024)
    | _ => (lo / db * sb / 1024, ceilDiv (ceilDiv hi db * sb) 1024)

/-- The cycle in which each destination unit is written or handed over, with and without slots and waits (R166, R188), as far as it is
known, without lost Marver cycles. -/
def Copy.planWrites (s : State) (e : Nat) (c : Copy) : List (Nat × Nat) :=
  let tk := c.planTakes s e
  let local_ := c.d.hasDst && !c.dstRemote s
  let hd := if local_ && isHbm c.dside.base then streamTimes s e c.shares 1 c.dside c.dstTotal else []
  let rs := if c.d.hasSrc && !c.srcRemote s then sideRoute s e c.d.srcSide.base else 0
  let rd := if local_ then sideRoute s e c.dside.base else 0
  let cv := if c.d.conv = 1 then 12 else 0
  let code : Bool := c.d.conv = 1 && c.tagE.elems = 16384
  let known := (List.range c.units).filter fun i => decide ((c.needs i).2 ≤ tk.length)
  (known.foldl (fun (st : List (Nat × Nat) × Nat × Nat) i =>
    let nd := c.needs i
    let part := (tk.drop nd.1).take (nd.2 - nd.1)
    let one (f : Nat × Nat → Nat) (base prev h : Nat) : Nat :=
      let t := part.foldl (fun m x => max m (f x)) base + cv
      let t := if code then max t (prev + 1) else t
      if hd.isEmpty then t + rd else max t (h + cv)
    let b := c.base + 24 + i + rs
    let h := hd.getD i (0, 0)
    let a := one Prod.fst b st.2.1 h.1
    let p := one Prod.snd (b - c.extraLag) st.2.2 (h.2 - c.extraLag)
    (st.1 ++ [(a, p)], a - rd, p - rd)) ([], 0, 0)).1

/-- A list of cycles moved by lost Marver cycles. -/
def delayed (lost : List Nat) (l : List (Nat × Nat)) : List (Nat × Nat) := l.map fun t => (moved lost t.1, t.2 + (moved lost t.1 - t.1))

/-- A list of cycles moved by n. -/
def laterBy (n : Nat) (l : List (Nat × Nat)) : List (Nat × Nat) := l.map fun t => (t.1 + n, t.2 + n)

/-- The same schedules with the lost Marver cycles (R150), those lost at outputs on the package (R40), and for a remote destination the waits
for room (R274). A KiB of HBM or of another module comes when it comes. -/
def Copy.takes (s : State) (e : Nat) (c : Copy) : List (Nat × Nat) :=
  let l := laterBy c.linkLag (c.planTakes s e)
  if c.srcRemote s || isHbm c.d.srcSide.base then l else delayed c.losses l
def Copy.writes (s : State) (e : Nat) (c : Copy) : List (Nat × Nat) :=
  let l := delayed c.losses (laterBy c.linkLag (c.planWrites s e))
  if c.dstRemote s then laterBy c.creditLag l else l

def lastOf (l : List (Nat × Nat)) : Nat × Nat := l.foldl (fun m x => (max m.1 x.1, max m.2 x.2)) (0, 0)

/-- The release point of a copy whose last unit has a cycle (R165). -/
def Copy.release (s : State) (e : Nat) (c : Copy) : Option Nat :=
  if ¬ c.going ∨ c.pass ∨ (c.d.needsSieve ∧ ¬ c.hasSieve) ∨ c.prog.err.isSome then none
  else
    let w := c.writes s e
    if w.length < c.units then none else some ((lastOf w).1 - 23)

/-! The units a copy writes. -/

/-- Bytes of the source stream from position p: memory, or what a remote source has sent. -/
def Copy.fetch (s : State) (c : Copy) (p n : Nat) : Except Nat (List Byte) :=
  (c.d.srcSide.pieces p n).foldl (fun acc g =>
    match acc with
    | .error x => .error x
    | .ok l =>
      if c.srcRemote s then .ok (l ++ (Tab.get [] c.buf (2 * g.1)).take g.2.2)
      else match accessStatus s g.2.1 g.2.2 with
        | some x => .error x
        | none => .ok (l ++ readBytes s g.2.1 g.2.2)) (.ok [])

/-- The address of block k's scale entries: e bytes for each brick of bs bytes beside a side; 128 for a code group. -/
def scaleAddr (d : Side) (base e bs k : Nat) : Nat :=
  if e = 128 then off40 base + 128 * k else off40 base + e * (d.rel (k * bs) / bs)

/-- Bytes of a source scale entry, and of the brick or group that it belongs to (R159, R182). -/
def Copy.scaleIn (c : Copy) : Nat × Nat :=
  if c.d.conv = 1 then (c.tagE.scaleIn, c.tagE.srcBytes) else (if c.d.scl then c.d.esize else 0, c.d.brick)

/-- Blocks of size bytes whose last byte lies in [p, p + n). -/
def endsIn (size p n : Nat) : List Nat := (List.range ((p + n) / size)).filter fun k => p < (k + 1) * size

/-- Addresses and lengths of the scale entries of the source bricks that end in [p, p + n), with the key of each in the copy's buffer. -/
def Copy.srcEntries (c : Copy) (p n : Nat) : List (Nat × Nat × Nat) :=
  let (e, bs) := c.scaleIn
  if e = 0 then [] else (endsIn bs p n).map fun k => (scaleAddr c.d.srcSide c.d.ssrc e bs k, e, 2 * k + 1)

/-- The scale entries of the source bricks that end in [p, p + n). -/
def Copy.fetchScales (s : State) (c : Copy) (p n : Nat) : Except Nat (List (List Byte)) :=
  (c.srcEntries p n).foldl (fun acc g =>
    match acc with
    | .error x => .error x
    | .ok l =>
      if c.srcRemote s then .ok (l ++ [(Tab.get [] c.buf g.2.2).take g.2.1])
      else match accessStatus s g.1 g.2.1 with
        | some x => .error x
        | none => .ok (l ++ [readBytes s g.1 g.2.1])) (.ok [])

/-- The job of a converting copy. -/
def Copy.job (c : Copy) : Job := { c := c.tagE, stag := c.d.stag, step := c.step, ref := c.ref, bidx := c.d.bidx }

/-- The next source KiB is taken, with the scale entries of the bricks that end in it (R159, R166, R188). -/
def Copy.take (s : State) (c : Copy) : Copy :=
  let p := 1024 * c.prog.taken
  let n := min 1024 (c.d.total - p)
  match c.fetch s p n, c.fetchScales s p n with
  | .ok l, .ok m => { c with prog := { c.prog with taken := c.prog.taken + 1, src := c.prog.src ++ l, scl := c.prog.scl ++ m } }
  | .error x, _ => { c with prog := { c.prog with miss := some x } }
  | _, .error x => { c with prog := { c.prog with miss := some x } }

/-- Blocks are converted until the destination holds hi bytes; what cannot be converted is the error (R180). -/
def convertTo (s : State) (e : Nat) (j : Job) (sb hi : Nat) : Nat → CopyProg → CopyProg × Option Nat
  | 0, r => (r, none)
  | fuel + 1, r =>
    if r.out.length < hi then
      let k := r.blks.length
      match convBlock s (engTile e) j k ((r.src.drop (k * sb)).take sb) (r.scl.getD k []) r.st with
      | .error x => (r, some x)
      | .ok (b, st) =>
        convertTo s e j sb hi fuel
          { r with out := r.out ++ packCodes j.c.df b.codes, els := r.els ++ b.codes.map Prod.snd,
                   blks := r.blks ++ [(b.scale, b.flags)], st := st }
    else (r, none)

/-- The bytes of unit i, the scale entries that go with it, and its flags. -/
def Copy.unit (s : State) (e : Nat) (c : Copy) (i : Nat) : OutUnit :=
  let d := c.d
  let r := c.prog
  let p := 1024 * i
  let n := min 1024 (c.dstTotal - p)
  let data : List Byte := match d.op with
    | 2 => (List.range n).map fun q => BitVec.ofNat 8 (d.src >>> (8 * ((p + q) % 8)))
    | 3 => ((List.range 8).flatMap fun t => entryBytes (tagOf s (engTile e) (d.stag + 8 * i + t))).take n
    | _ => if d.conv = 1 then (r.out.drop p).take n else (r.src.drop p).take n
  let put : List (Nat × List Byte) :=
    if d.hasDst then (c.dside.pieces p n).map fun g => (g.2.1, (data.drop (g.1 - p)).take g.2.2) else [(0, data)]
  if d.conv = 1 then
    let t := c.tagE
    let ends := endsIn c.ratio.2 p n
    let bits := fmtBits t.df
    let fl := Fl.any ((r.els.drop (p * 8 / bits)).take (n * 8 / bits)) ||| Fl.any (ends.map fun k => (r.blks.getD k ([], 0)).2)
    let sc := if t.scaleOut = 0 then [] else
      ends.map fun k => (scaleAddr c.dside d.sdst t.scaleOut 1024 k, (r.blks.getD k ([], 0)).1)
    ⟨put, sc, fl⟩
  else if d.scl then
    ⟨put, (endsIn d.brick p n).map fun k => (scaleAddr c.dside d.sdst d.esize d.brick k, r.scl.getD k []), 0⟩
  else ⟨put, [], 0⟩

/-- A block that ends in unit i is written invalid (R178): a scale byte of it is 0xFF. -/
def Copy.invalid (c : Copy) (i : Nat) : Bool :=
  c.pair.scaled && (endsIn c.ratio.2 (1024 * i) (min 1024 (c.dstTotal - 1024 * i))).any fun k =>
    let b := (c.prog.blks.getD k ([], 0)).1
    (if c.pair = .codes then b else b.take 1).any (· == 0xFF)

/-- Sieve entries replaced by a KiB of an HLOAD (R187). -/
def loadTags (s : State) (t first : Nat) (data : List Byte) : State :=
  (List.range (data.length / 128)).foldl (fun s k => setTag s t (first + k) (entryOf (data.drop (128 * k)))) s

/-! Engine bookkeeping: the copies of an engine are told apart by their number. -/

/-- Copy id of an engine. -/
def copyOf (s : State) (e id : Nat) : Option Copy := (engine s e).copies.find? fun c => c.id == id
/-- A copy replaced. -/
def setCopy (s : State) (e : Nat) (c : Copy) : State :=
  let x := engine s e
  setEngine s e { x with copies := x.copies.map fun y => if y.id = c.id then c else y }
/-- A copy leaves; a copy behind may start at the release point (R165). -/
def leave (s : State) (e id release : Nat) : State :=
  let x := engine s e
  setEngine s e { x with copies := x.copies.filter fun c => c.id != id, release := release }

/-- A copy is stopped in clock cycle cyc by what it met (R164, R180); its record follows in the next cycle. -/
def Copy.stop (c : Copy) (st cyc : Nat) : Copy := { c with prog := { c.prog with err := some st, errAt := cyc } }

/-- The shares of a copy's stream, requested at cycle 10 of schedule base b (R154). -/
def requestStream (s : State) (e b side : Nat) (d : Side) (n : Nat) : State × List Share :=
  let l := sharesOf s 10 e b side d n
  (requestShares s e l, l)

/-- The copy asks for its source as stream number side of schedule base b, where that is HBM of this module. -/
def askSource (s : State) (e b side : Nat) (c : Copy) : State × Copy :=
  if c.d.hasSrc && !c.srcRemote s && isHbm c.d.srcSide.base then
    let r := requestStream s e b side c.d.srcSide c.d.total
    (r.1, { c with shares := c.shares ++ r.2 })
  else (s, c)

/-- A copy starts to move its destination: the stream of schedule base b is requested. -/
def beginMove (s : State) (e b : Nat) (c : Copy) : State :=
  if c.d.hasDst && !c.dstRemote s && isHbm c.dside.base then
    let r := requestStream s e b 1 c.dside c.dstTotal
    setCopy r.1 e { c with going := true, shares := c.shares ++ r.2 }
  else setCopy s e { c with going := true }

/-! The Sieve of a copy (R170 to R176). -/

/-- Q for the reference: of the destination, or of the first group's codebook (R175). -/
def Copy.q (s : State) (e : Nat) (c : Copy) : Dy :=
  if c.tagE.df ≥ 6 then (match codebook s (engTile e) c.tagE 0 with | some cb => cbMax cb | none => Dy.zero) else qOf c.tagE.df

/-- The reference that a present-tensor pass gives, once it has read the whole source (R176). -/
def Copy.passRef (s : State) (e : Nat) (c : Copy) : Nat :=
  refOf c.tagE (c.q s e) (passMax c.tagE (groupsOf c.tagE.srcBytes c.prog.src.length c.prog.src))

/-- The reference from the tag: the entry's own within its step, else from history; none when a history entry is not
valid (R173, R176). -/
def Copy.tagRef (s : State) (e : Nat) (c : Copy) : Option Nat :=
  if c.step = c.tagE.last then some c.tagE.ref
  else match histMax c.entry c.tagE with
    | none => none
    | some h => some (refOf c.tagE (c.q s e) h)

/-- The pass has taken its last source KiB: the reference is formed, and the copy begins A + 4 cycles later and reads its source again as a
second stream (R154, R176, R188). -/
def endPass (s : State) (e : Nat) (c : Copy) : State :=
  let last := lastOf (c.takes s e)
  let c := { c with ref := c.passRef s e, pass := false, prog := copyProgInit, buf := [], came := [], sent := 0, creditLag := 0
                    crossR := 0, crossW := 0, linkLag := 0
                    extra := last.1 - (c.begun + c.sieveWait + 9) + 4, extraLag := last.1 - last.2, since := last.1 + 1 }
  let r := askSource s e c.base 2 c
  beginMove r.1 e c.base r.2

/-! Remote units (R162, R164, R265). -/

/-- Neighbouring ranges of bytes joined (R265). -/
def joinRuns : List (Nat × List Byte) → List (Nat × List Byte)
  | [] => []
  | x :: r => match joinRuns r with
    | y :: l => if x.1 + x.2.length = y.1 then (x.1, x.2 ++ y.2) :: l else x :: y :: l
    | [] => [x]

/-- The pieces that source KiB j of a remote source is read by: target offset, bytes, buffer key. Scale entries of blocks that end in the KiB
are pieces of their own. -/
def Copy.readPieces (c : Copy) (j : Nat) : List (Nat × Nat × Nat) :=
  let p := 1024 * j
  let n := min 1024 (c.d.total - p)
  ((c.d.srcSide.pieces p n).map fun g => (g.2.1, g.2.2, 2 * g.1)) ++ c.srcEntries p n

/-- Request units of a remote copy. -/
def Copy.requests (s : State) (c : Copy) : Nat := if c.dstRemote s then c.units else c.kibs

/-- Cycles from the engine to the router (R276). -/
def toRouter (e : Nat) : Nat := if engHub e then 40 else 58

/-- A write unit of copy id's unit i, in pieces, is handed over in clock cycle at_. -/
def sendWriteUnit (s : State) (e id dst i at_ : Nat) (l : List (Nat × List Byte)) : State :=
  if l.isEmpty then s
  else
    let l := joinRuns l
    let first := (strmOf s e dst).seq
    let t := at_ + toRouter e
    let s := sendWrite s t dst e l
    addPend s { kind := 0, stream := e, copy := id, dst := dst, first := first, last := ((strmOf s e dst).seq + 65535) % 65536, unit := i,
                base := (l.headD (0, [])).1, key := 0, parts := [], skip := 0, want := (l.map fun w => w.2.length).sum, got := [], sentAt := t, acc := at_ }

/-- A read unit of source KiB i is sent: one target range, which holds the pieces given (buffer key, offset in the range, bytes). -/
def sendReadUnit (s : State) (e id dst i at_ : Nat) (g : Nat × Nat × List (Nat × Nat × Nat)) : State :=
  let first := (strmOf s e dst).seq
  let o := g.1 / 16 * 16
  let t := at_ + toRouter e
  let s := sendReq s reqFma t 2 dst o e []
  addPend s { kind := 1, stream := e, copy := id, dst := dst, first := first, last := first, unit := i, base := o, key := 0, parts := g.2.2, skip := g.1 - o,
              want := g.2.1, got := [], sentAt := t, acc := at_ }

/-- Read pieces joined to ranges that one read unit of a KiB answers (R265). -/
def joinReads : List (Nat × Nat × Nat) → List (Nat × Nat × List (Nat × Nat × Nat))
  | [] => []
  | g :: r => match joinReads r with
    | y :: l =>
      if g.1 + g.2.1 = y.1 ∧ g.1 % 16 + g.2.1 + y.2.1 ≤ 1024 then
        (g.1, g.2.1 + y.2.1, (g.2.2, 0, g.2.1) :: y.2.2.map fun p => (p.1, p.2.1 + g.2.1, p.2.2)) :: l
      else (g.1, g.2.1, [(g.2.2, 0, g.2.1)]) :: y :: l
    | [] => [(g.1, g.2.1, [(g.2.2, 0, g.2.1)])]

/-- Units committed or handed over in one cycle: a block whole where it commits, its KiB one after another where they are sent. -/
def Copy.stride (s : State) (c : Copy) : Nat := if c.dstRemote s then 1 else c.batch

/-- Room for n more request units (R274). -/
def roomFor (s : State) (n : Nat) : Bool := s.fma.pend.length + n ≤ 4096

/-- The units of a copy that are acknowledged, up to one that is not. -/
def ackedUnits (s : State) (e : Nat) (c : Copy) : Nat :=
  ((List.range c.prog.units.length).takeWhile fun i =>
    !(s.fma.pend.any fun p => p.stream == e && p.copy == c.id && p.kind == 0 && p.unit == i)).length

/-- Units that a copy has committed (R30, R162): whole blocks only. -/
def committed (s : State) (e : Nat) (c : Copy) : Nat :=
  let n := if c.dstRemote s then ackedUnits s e c else c.prog.units.length
  if n = c.units then n else n / c.batch * c.batch

/-- PCE_KIB brought up to the units that copy id has committed (R169). -/
def countKib (s : State) (e id : Nat) : State :=
  if engHub e then s
  else match copyOf s e id with
    | none => s
    | some c =>
      let n := committed s e c
      bump (setCopy s e { c with counted := n }) (Fd.pceKibCount e) (n - c.counted)

/-! Ends. -/

/-- The tail of every end: counters, the Sieve, the release point, the outstanding answers become orphans. -/
def endCopy (s : State) (e : Nat) (c : Copy) (release sieveEnd limit : Nat) : State :=
  let s := leave s e c.id release
  let s := dropPends s fun p => p.stream == e && p.kind ≤ 1 && p.copy == c.id
  let s := countStreams s e c.shares limit
  if c.hasSieve then releaseSieve s (engTile e) sieveEnd else s

/-- A copy that stops early in clock cycle cyc with a status, its record posted at clock cycle rec: the committed units stay (R30, R164,
R167, R168, R189). A Sieve that refuses its tag counts a BAD_DESC (R191). -/
def stopCopy (s : State) (e : Nat) (c : Copy) (status cyc rec_ : Nat) (tagErr : Bool) : State :=
  let n := committed s e c
  let late := match (c.writes s e)[n - 1]? with | some t => if n = 0 then 0 else t.1 - t.2 | none => 0
  let s := endCopy s e c (cyc + 1) cyc cyc
  let flags := Fl.any (c.prog.units.take n) ||| Fl.cond c.retried Fl.retried ||| Fl.cond (c.cold && n != 0) Fl.histCold
  let p := copyPosting e c.tag c.acc status rec_ late (c.sieveWait + lostIn c.lost 0 cyc) flags n
  postAt s (if tagErr then { p with errs := p.errs ++ [sievePage (engTile e)] } else p)

/-- Cycles from the FMA to the engine (R276). -/
def engineCc (e : Nat) : Nat := if engHub e then 0 else 18

/-- A remote operation ends with a status that its FMA has found (R273, R276). -/
def failCopy (s : State) (e id status : Nat) : State :=
  match copyOf s e id with
  | none => s
  | some c => stopCopy s e c status (s.now + engineCc e) (s.now + engineCc e + 1) false

/-- A copy that has met an error posts it in the next cycle (R164, R180). -/
def postError (s : State) (e : Nat) (c : Copy) (st : Nat) : State :=
  stopCopy s e c st c.prog.errAt (c.prog.errAt + 1) (st == St.badDesc && c.d.conv == 1)

/-! What a copy does in a cycle of its own. -/

/-- It moves units. -/
def Copy.moving (c : Copy) : Bool := c.going && (!c.d.needsSieve || c.hasSieve) && c.prog.err.isNone

/-- Bytes at local addresses go between their dies and die e, towards it or from it, in clock cycle c: the most cycles that one of them loses
(R14, R40). -/
def carryAll (s : State) (e : Nat) (towards : Bool) (c : Nat) (l : List (Nat × Nat)) : State × Nat :=
  l.foldl (fun r g =>
    let x := if towards then carry r.1 (dieOf g.1) e 0 g.2 c else carry r.1 e (dieOf g.1) 0 g.2 c
    (x.1, max r.2 x.2)) (s, 0)

/-- Converted units that are about to be written: what their blocks' flags show (R178). -/
def noteInvalid (s : State) (e : Nat) (c : Copy) (k g : Nat) : State :=
  if !engHub e && (List.range g).any fun i => c.invalid (k + i) then notice s (Fd.nSieveNanblk (engTile e)) else s

/-- Units k .. k+g-1 of a copy, their bytes known and across the package, are committed in clock cycle cyc or handed to the fabric path
(R158, R162, R164, R187, R265). -/
def commitUnits (s : State) (e : Nat) (c : Copy) (k cyc : Nat) (us : List OutUnit) : State :=
  let put := us.flatMap fun u => u.data ++ u.scales
  let done := { c with prog := { c.prog with units := c.prog.units ++ us.map OutUnit.flags } }
  if c.d.op = 4 then countKib (setCopy (loadTags s (engTile e) (c.d.stag + 8 * k) (put.flatMap Prod.snd)) e done) e c.id
  else if c.dstRemote s then
    let dst := c.d.dst / 2 ^ 40
    let scl := us.flatMap OutUnit.scales
    match remoteBlocked s dst e with
    | some st => failCopy (setCopy s e c) e c.id st
    | none =>
      if ¬ roomFor s (if scl.isEmpty then 1 else 2) then setCopy s e { c with creditWait := some s.now }
      else
        let s' := sendWriteUnit (noteInvalid s e c k us.length) e c.id dst k cyc (us.flatMap OutUnit.data)
        setCopy (sendWriteUnit s' e c.id dst k cyc scl) e done
  else match worstOf (put.map fun x => accessStatus s x.1 x.2.length) with
    | some st => setCopy s e (c.stop st cyc)
    | none =>
      countKib (setCopy (put.foldl (fun s x => storeUnit (touchKiln s cyc x.1 x.2.length) x.1 x.2) (noteInvalid s e c k us.length)) e done) e c.id

/-- The next unit, or conversion block, its write cycle past: what the source has brought is converted, crosses the package, later where an
output on the way is taken (R40), and is committed. -/
def commitNext (s : State) (e : Nat) (c : Copy) : State :=
  let k := c.prog.units.length
  let g := min (c.stride s) (c.units - k)
  let cyc := s.now - 1
  if c.d.hasSrc ∧ c.prog.taken < (c.needs (k + g - 1)).2 then setCopy s e (c.stop (c.prog.miss.getD St.badAddr) cyc)
  else
    let r := if c.d.conv = 1 then convertTo s e c.job c.ratio.1 (min c.dstTotal (1024 * (k + g))) (k + g + 1) c.prog else (c.prog, none)
    let c := { c with prog := r.1 }
    match r.2 with
    | some st => setCopy s e (c.stop st cyc)
    | none =>
      let us := (List.range g).map fun i => c.unit s e (k + i)
      let put := (us.flatMap fun u => u.data ++ u.scales).map fun x => (x.1, x.2.length)
      let x : State × Nat := if k < c.crossW ∨ ¬ c.d.hasDst then (s, 0)
        else if c.dstRemote s then carry s (engDie e) 4 0 (put.map Prod.snd).sum cyc
        else carryAll s (engDie e) false cyc put
      let c := { c with crossW := max c.crossW (k + g), linkLag := c.linkLag + x.2 }
      if 0 < x.2 then setCopy x.1 e c else commitUnits x.1 e c k cyc us

/-- The next source KiB, its cycle past, crosses the package, later where an output on the way is taken (R40), and is taken; with the last one
a present-tensor pass ends. -/
def takeNext (s : State) (e : Nat) (c : Copy) : State :=
  let p := 1024 * c.prog.taken
  let n := min 1024 (c.d.total - p)
  let cyc := s.now - 1
  let all := ((c.d.srcSide.pieces p n).map fun g => (g.2.1, g.2.2)) ++ (c.srcEntries p n).map fun g => (g.1, g.2.1)
  let x : State × Nat := if c.prog.taken < c.crossR then (s, 0)
    else if c.srcRemote s then carry s 4 (engDie e) 0 (all.map Prod.snd).sum cyc
    else carryAll s (engDie e) true cyc all
  let c := { c with crossR := max c.crossR (c.prog.taken + 1), linkLag := c.linkLag + x.2 }
  if 0 < x.2 then setCopy x.1 e c
  else
    let c := c.take s
    let s := if c.srcRemote s then x.1 else all.foldl (fun s g => touchKiln s cyc g.1 g.2) x.1
    match c.prog.miss with
    | some st => setCopy s e (if c.pass then c.stop st cyc else c)
    | none => if c.pass ∧ c.kibs ≤ c.prog.taken then endPass s e c else setCopy s e c

/-- The next KiB of a remote source is asked for (R265, R274). -/
def askNext (s : State) (e : Nat) (c : Copy) : State :=
  let dst := c.d.src / 2 ^ 40
  let l := joinReads (c.readPieces c.sent)
  match remoteBlocked s dst e with
  | some st => failCopy s e c.id st
  | none =>
    if ¬ roomFor s l.length then setCopy s e { c with creditWait := some s.now }
    else setCopy (l.foldl (fun s g => sendReadUnit s e c.id dst c.sent s.now g) s) e { c with sent := c.sent + 1 }

/-- HDUMP and HLOAD conditions of the Sieve chapter (R187, R191): BLEN, NX, NY, the reserved other address. -/
def CopyD.histBad (d : CopyD) : Bool :=
  d.badHist || (d.op == 3 && d.src != 0) || (d.op == 4 && d.dst != 0)

/-- A started copy has read its descriptor (R163, R165, R166, R273): its checks turn it away, its record to follow in the next cycle, or it
asks for its source, and moves unless it waits for the Sieve. The copy behind may start at cycle 1 of one that is turned away. -/
def checkCopy (s : State) (e : Nat) (c : Copy) : State :=
  let desc := match c.place with | some a => readBytes s a 64 | none => c.desc
  let t0 := c.start.getD 0
  let c := { c with desc := desc, readLag := s.now - (t0 + 9), since := s.now }
  match c.d.check s e with
  | some st =>
    let p := copyPosting e c.tag c.acc st (s.now + 1) 0 (lostIn c.lost 0 s.now) 0 0
    let p := if st = St.badDesc ∧ ¬ engHub e ∧ c.d.histBad then { p with errs := p.errs ++ [sievePage (engTile e)] } else p
    postLater (leave s e c.id (t0 + c.readLag + 1)) { p with stop := if engHub e then none else some (Fd.nPceAbandon e) }
  | none =>
    let r := askSource s e c.begun 0 c
    if c.d.needsSieve then setCopy r.1 e { r.2 with going := true } else beginMove r.1 e c.begun r.2

/-- The events of a copy to come, each with its clock cycle: 0 a unit committed or handed over, 1 a source KiB asked for, 2 one taken, 3 the
checks. What is read or written in a cycle stands in the state from the next one on. -/
def copyEvents (s : State) (e : Nat) (c : Copy) : List (Nat × Nat) :=
  if ¬ c.going then (c.start.map fun t => (moved c.lost (t + 9), 3)).toList
  else if ¬ c.moving ∨ (engine s e).copies.any (fun x => x.creditWait.isSome) then []
  else
    let k := c.prog.units.length
    let w := if c.pass ∨ c.units ≤ k then none else (c.writes s e)[k + min (c.stride s) (c.units - k) - 1]?
    let a := if c.srcRemote s ∧ c.sent < c.kibs then some (c.begun + c.extra + 10 + c.sent + c.creditLag) else none
    let t := if c.d.hasSrc ∧ c.prog.miss.isNone then (c.takes s e)[c.prog.taken]? else none
    (t.map fun x => (x.1 + 1, 2)).toList ++ (a.map fun x => (x, 1)).toList ++ (w.map fun x => (x.1 + 1, 0)).toList

/-- One of them happens to copy id. -/
def copyStep (s : State) (e id kind : Nat) : State :=
  match copyOf s e id with
  | none => s
  | some c => match kind with
    | 0 => commitNext s e c
    | 1 => askNext s e c
    | 2 => takeNext s e c
    | _ => checkCopy s e c

/-- A running copy that has committed its last unit (R166, R188), its remote answers in (R162, R276): the cycle of its record. -/
def Copy.due (s : State) (e : Nat) (c : Copy) : Option Nat :=
  if ¬ c.moving ∨ c.pass ∨ c.prog.units.length < c.units ∨
      (s.fma.pend.any fun p => p.stream == e && p.kind ≤ 1 && p.copy == c.id) then none
  else if c.dstRemote s then some (c.heard + engineCc e + 1)
  else some ((lastOf (c.writes s e)).1 + 1)

/-- Its last output is committed by clock cycle c (R30): a remote write when it is acknowledged. -/
def Copy.doneBy (s : State) (e c : Nat) (x : Copy) : Bool :=
  match x.due s e with
  | none => false
  | some d => decide (if x.dstRemote s then x.heard < c else d ≤ c)

/-- The record of a copy that is done, posted at clock cycle due (R165, R168, R183, R189). -/
def finishCopy (s : State) (e : Nat) (c : Copy) (due : Nat) : State :=
  let last := lastOf (c.writes s e)
  let s := endCopy s e c (last.1 - 23) (due - 1) due
  let f := if c.pair.scaled then finishTag s (engTile e) c.job c.prog.st due else (s, 0)
  let flags := Fl.any c.prog.units ||| Fl.cond c.retried Fl.retried ||| Fl.cond c.cold Fl.histCold ||| f.2
  postAt f.1 (copyPosting e c.tag c.acc St.done due (last.1 - last.2) (c.sieveWait + lostIn c.lost 0 due) flags c.prog.units.length)

/-- A copy of an engine stops at clock cycle c (R164, R167): one that is done or has met an error by then says so. -/
def haltCopy (c status e : Nat) (s : State) (x : Copy) : State :=
  match x.prog.err, x.due s e with
  | some st, _ => postError s e x st
  | none, some d => if x.doneBy s e c then finishCopy s e x d else stopCopy s e x status c c false
  | none, none => stopCopy s e x status c c false

/-- An engine stops at clock cycle c with a status: the running copies keep the units committed before c, a copy behind has none. -/
def stopEngine (c status : Nat) (s : State) (e : Nat) : State := (engine s e).copies.foldl (haltCopy c status e) s

/-- Both engines of a tile stop at clock cycle c (R167). -/
def abandonPce (s : State) (t c : Nat) : State :=
  stopChecks ([2 * t, 2 * t + 1].foldl (stopEngine c St.abandoned) s) c fun p => p == engPage (2 * t) || p == engPage (2 * t + 1)

/-! Start (R165, R166). -/

/-- A descriptor is accepted by an engine at clock cycle acc (R165): it starts at once where the engine holds none. -/
def acceptCopy (s : State) (e tag acc : Nat) (place : Option Nat) (desc : List Byte) : State :=
  let x := engine s e
  let start := if x.copies.isEmpty then some (max acc x.release) else none
  let c : Copy :=
    { id := x.count, desc := desc, place := place, tag := tag, acc := acc, start := start, readLag := 0, since := 0, going := false,
      hasSieve := false, sieveAt := 0, sieveWait := 0, ref := 0, cold := false, step := 0, entry := 0, extra := 0, extraLag := 0, shares := [],
      sent := 0, creditWait := none, creditLag := 0, crossR := 0, crossW := 0, linkLag := 0, pass := false, buf := [], came := [], heard := acc, lost := [], counted := 0,
      prog := copyProgInit, retried := false }
  setEngine s e { x with copies := x.copies ++ [c], count := x.count + 1 }

/-- The four descriptor operations of a tile engine: the issued descriptor is accepted; one with a reserved OP is accepted, and rejected,
whichever command takes it. -/
def takeCopy (op e : Nat) (s : State) : Res :=
  if engHub e then .fault .noOperation
  else match takeIssue s (engTile e) (3 + e % 2) with
    | none => .fault .noOperation
    | some (i, s) =>
      let a := tileBase (engTile e) + i.desc
      let desc := readBytes s a 64
      let o := (copyD desc).op
      if o = op ∨ o = 0 ∨ 4 < o then ok (acceptCopy s e i.tag i.cyc (some a) desc) else .fault .otherInstruction

/-- A copy that took the Sieve at clock cycle `take` and fails there posts in the next cycle and releases it (R163, R173). -/
def sieveFail (s : State) (e : Nat) (c : Copy) (take st : Nat) (tagErr : Bool) : State :=
  let s := countStreams (leave s e c.id (take + 2)) e c.shares take
  let p := copyPosting e c.tag c.acc st (take + 1) 0 (c.sieveWait + lostIn c.lost 0 take) 0 0
  postAt (releaseSieve s (engTile e) take) (if tagErr then { p with errs := p.errs ++ [sievePage (engTile e)] } else p)

/-- The second part of check 3 for a converting copy (R163): the destination side and SDST, by the tag. -/
def convStatus (s : State) (c : Copy) : Option Nat :=
  if c.dstRemote s then none
  else worstOf [sideStatus s c.dside c.d.blocks, entryStatus s c.dside c.d.sdst c.tagE.scaleOut 1024 (c.d.total / c.tagE.srcBytes)]

/-- The tag checks and the reference of a converting copy that takes the Sieve at clock cycle `take` (R170 to R176); its destination is asked for
at cycle 10, or in the next cycle. -/
def sieveConvert (s : State) (e : Nat) (c : Copy) (take : Nat) : State :=
  let t := c.tagE
  let scaled := c.pair.scaled
  let cold : Bool := scaled && (t.hcount == 0 || t.srcsel)
  let hist := if scaled && !cold then c.tagRef s e else some 0
  if t.bad || c.d.scl || c.d.se != 0 || c.d.brick != t.brick || c.d.blen * 64 % t.srcBytes != 0 || hist.isNone then
    sieveFail s e c take St.badDesc true
  else match convStatus s c with
    | some st => sieveFail s e c take st false
    | none =>
      let c := { c with ref := hist.getD 0, cold := scaled && t.hcount == 0 }
      let s := if c.cold then bump (notice s (Fd.nSieveCold (engTile e))) (Fd.sieveColdCount (engTile e)) 1 else s
      if cold then setCopy s e { c with pass := true } else beginMove s e (take - 9) c

/-! Waits that count cycle by cycle (R165, R274). -/

/-- Cycles that a copy has waited for the Sieve before clock cycle cyc: from the one in which it would take its first unit (R165). -/
def Copy.waiting (s : State) (e : Nat) (c : Copy) (cyc : Nat) : Nat :=
  if c.going && c.d.needsSieve && !c.hasSieve then
    (if c.d.hasSrc then match (c.planSource s e).head? with | some t => cyc - t.1 | none => 0 else cyc - (c.begun + 24))
  else c.sieveWait

/-- The waits of a copy counted up to the present cycle: a later unit of a remote side moves with them. -/
def countWaits (e : Nat) (s : State) (c : Copy) : State :=
  let w := c.waiting s e s.now
  let s := if w = c.sieveWait then s else bump (setCopy s e { c with sieveWait := w }) (Fd.pceStallCycles e) (w - c.sieveWait)
  match c.creditWait with
  | none => s
  | some f => bump (setCopy s e { c with sieveWait := w, creditWait := some s.now, creditLag := c.creditLag + (s.now - f) })
      Fd.fmaCreditWaitCount (s.now - f)

end Sys2Proof.Machine
end

