-- ==== Sys2Proof/Machine/Plan.lean ====
section
/-! DEFINITION. Plan entries (R25 to R28): their fields, the ring of a tile, and what an entry at its head offers to a unit that several
tiles share. -/

namespace Sys2Proof.Machine

/-- STEP of a program (R195). -/
def progStep (s : State) (p : Nat) : Nat := rd s (Fd.moduleStepStep p)

/-! Plan entries (R25 to R29). -/

/-- A plan entry. -/
structure Entry where
  kind : Nat
  offset : Nat
  unit : Nat
  desc : Nat
  tag : Nat
  /-- a reserved field is nonzero -/
  rsv : Bool
  deriving DecidableEq, Repr

def entryD (l : List Byte) : Entry :=
  { kind := bits (dword l 0) 31 29, offset := bits (dword l 0) 28 0, unit := bits (dword l 1) 3 0, desc := bits (dword l 2) 22 0,
    tag := dword l 3, rsv := bits (dword l 1) 31 4 != 0 || bits (dword l 2) 31 23 != 0 }

/-- The entry that ring slot i of a tile holds. -/
def entryAt (s : State) (t i : Nat) : Entry := entryD (readBytes s (planBase t + 16 * i) 16)

def Entry.isEnd (e : Entry) : Bool := e.kind == 1 && !e.rsv

/-- Entries from slot i on, n of them, in ring order, with their slots. -/
def ringEntries (s : State) (t : Nat) : Nat → Nat → List (Nat × Entry)
  | 0, _ => []
  | n + 1, i => (i, entryAt s t i) :: ringEntries s t n ((i + 1) % 2048)

/-- Loaded entries of a ring (R28). -/
def ringCount (s : State) (t : Nat) : Nat := (rd s (Fd.tsqPlanWr t) + 2048 - rd s (Fd.tsqPlanRd t)) % 2048

/-- The clock cycle from which a tile's TSQ offers the entry at the head of its ring to the kiln of its die (UNIT 7), if it does. -/
def kilnOffer (s : State) (t : Nat) : Option Nat :=
  let x := tile s t
  if ¬ x.running ∨ x.ended ∨ x.switching.isSome ∨ s.turn.inGuard ∨ ringCount s t = 0 ∨ x.issued.any (fun i => i.unit == 7) then none
  else
    let e := entryAt s t (rd s (Fd.tsqPlanRd t))
    if e.rsv ∨ e.kind ≠ 0 ∨ e.unit ≠ 7 ∨ e.desc % 32 ≠ 0 then none else some (max x.nextIssue (s.turn.start + e.offset))

/-- Source j comes before source i in the order of turn offset c, from source (c mod 17) on: tiles of the die 0 to 15, the queue 16 (R223). -/
def kilnBefore (c j i : Nat) : Bool := decide ((j + 17 - c % 17) % 17 < (i + 17 - c % 17) % 17)

/-- The queue of kiln k offers a descriptor in clock cycle c. -/
def kilnQueueOffers (s : State) (k c : Nat) : Bool :=
  rdb s (Fd.klnSqEn k) && availKiln s k && rdb s (Fd.blkctlEnable (kilnPage k)) && decide ((queue s (rd s (Fd.klnSqQueue k))).depth c ≠ 0)

/-- No source of kiln k that offers in clock cycle c comes before source i (R223). -/
def kilnGrants (s : State) (k c i : Nat) : Bool :=
  ((List.range 16).all fun j => j == i || !kilnBefore (offsetAt s c) j i ||
    match kilnOffer s (16 * k + j) with | some o => decide (c < o) | none => true) &&
  (i == 16 || !kilnBefore (offsetAt s c) 16 i || !kilnQueueOffers s k c)

end Sys2Proof.Machine
end

