-- ==== Sys2Proof/Machine/Coll.lean ====
section
/-! DEFINITION. Collectives (14_collectives.md): groups and accepted operations, messages of the engine and of the frit path,
the pools of the crucible, MISS and the keeper, the end of an operation, acceptance, group loads and reforms. -/

namespace Sys2Proof.Machine

def colPage : Nat := 0x20000
def fritPage : Nat := 0x21000
/-- The stream of collective cells (R305). -/
def colStream : Nat := 133

/-! Groups and operations in the state. -/

def colGrp (s : State) (g : Nat) : Option Grp := Tab.find s.col.groups g
def setGrp (s : State) (g : Nat) (x : Grp) : State := { s with col := { s.col with groups := Tab.insert s.col.groups g x } }

/-- The operation of a group that runs, or runs next: the oldest accepted one (R288). -/
def firstOp (s : State) (g : Nat) : Option COp := s.col.ops.find? fun o => o.group == g
def findOp (s : State) (g gen seq : Nat) : Option COp :=
  s.col.ops.find? fun o => o.group == g && o.gen == gen && o.seq == seq
/-- The operation that replaces the one of its group and number. -/
def setOp (s : State) (o : COp) : State :=
  { s with col := { s.col with ops := s.col.ops.map fun x => if x.group = o.group ∧ x.seq = o.seq then o else x } }

def COp.d (o : COp) : ColD := colD o.desc
def membersOf (s : State) (g : Nat) : Nat := match colGrp s g with | some x => x.members | none => 0
/-- Members of a group, and this module's rank. -/
def sizeOf_ (s : State) (g : Nat) : Nat := popcount (membersOf s g)
def myRank (s : State) (g : Nat) : Nat := rankOf (membersOf s g) (ownNo s)

/-! Control cells (R305) and frit cells (R306). -/

/-- A control cell sent to a member at cycle c, and now. -/
def sendCtlAt (s : State) (c dst : Nat) (m : ColCtl) : State := sendReq s reqCol (c + 40) 9 dst 0 colStream (ctlBytes m)
def sendCtl (s : State) (dst : Nat) (m : ColCtl) : State := sendCtlAt s s.now dst m

/-- A control cell of an operation. -/
def COp.ctl (o : COp) (kind reason chunk : Nat) : ColCtl :=
  { kind := kind, reason := reason, group := o.group, gen := o.gen, opseq := o.seq, chunk := chunk, step := 0, nbrk := 0, word0 := 0,
    modno := 0, lag := 0 }

/-- A frit cell sent to a member, at the router from cycle c on with no hub traversal (R306), on VC 1; its STREAM and SEQ fields are 0. -/
def sendFrit (s : State) (c dst : Nat) (body : List Byte) : State :=
  routeCell s reqFrit c { mkCell s 8 dst 0 0 0 false 0 (body ++ List.replicate ((16 - body.length % 16) % 16) 0) with vc := 1 }

/-- The body of an UP (KIND 1) or DOWN (KIND 2) message. -/
def fritBytes (m : FritMsg) (kind : Nat) : List Byte :=
  let v := (m.vals ++ List.replicate 4 0).take 4
  let e := (m.excl.take 24 ++ List.replicate 24 (0, 0)).take 24
  leBytes 1 kind ++ [0] ++ leBytes 2 m.group ++ leBytes 4 m.gen ++ leBytes 4 m.opseq ++ leBytes 1 m.fn ++ leBytes 1 m.typ ++
    leBytes 1 m.nval ++ [0] ++ leBytes 4 m.step ++ leBytes 2 m.ncontrib ++ leBytes 2 m.nexcl ++ leBytes 2 m.reasons ++
    leBytes 2 m.lagMod ++ leBytes 4 0 ++ v.flatMap (leBytes 8) ++ e.flatMap fun x => leBytes 2 (x.1 % 16 * 4096 + x.2 % 4096)

def missBytes (g gen reason m turn : Nat) : List Byte :=
  leBytes 1 3 ++ [0] ++ leBytes 2 g ++ leBytes 4 gen ++ leBytes 2 (reason % 16 * 4096 + m % 4096) ++ leBytes 6 turn
def failBytes (g gen seq status : Nat) : List Byte :=
  leBytes 1 5 ++ [0] ++ leBytes 2 g ++ leBytes 4 gen ++ leBytes 4 seq ++ leBytes 1 status ++ [0, 0, 0]
def reformBytes (g gen turn : Nat) (removed : List Nat) : List Byte :=
  leBytes 1 4 ++ [0] ++ leBytes 2 g ++ leBytes 4 gen ++ leBytes 6 turn ++ leBytes 2 removed.length ++ removed.flatMap (leBytes 2)

/-- REFORM to a module: one cell for every 48 removed modules (R306). -/
def sendReform (s : State) (dst g gen turn : Nat) : Nat → List Nat → State
  | 0, _ => s
  | n + 1, l =>
    let s := sendFrit s s.now dst (reformBytes g gen turn (l.take 48))
    if l.length ≤ 48 then s else sendReform s dst g gen turn n (l.drop 48)

/-- A collective cell that matches no operation (R305). -/
def genDrop (s : State) : State := bump s Fd.colGenDropCount 1

/-! The keeper (R284, R301). -/

/-- A removal decided in the present turn: it joins the reform of its apply turn, or makes a new one; REFORM goes to every
member. -/
def removeMember (s : State) (g m : Nat) : State :=
  match colGrp s g with
  | none => s
  | some x =>
    let at_ := turnNo s + 2
    let gen := match x.reforms.find? fun r => r.2.1 == at_ with | some r => r.1 | none => x.gen + x.reforms.length + 1
    if x.reforms.any fun r => r.2.2.contains m then s
    else
      let reforms := if x.reforms.any fun r => r.1 == gen then
          x.reforms.map fun r => if r.1 = gen then (r.1, r.2.1, r.2.2 ++ [m]) else r
        else x.reforms ++ [(gen, at_, [m])]
      let s := setGrp s g { x with reforms := reforms }
      ((memberList x.members).filter fun k => k != ownNo s).foldl (fun s k => sendReform s k g gen at_ 1 [m]) s

/-- A report counted at the keeper. -/
def keeperMiss (s : State) (g reason m turn : Nat) : State :=
  match colGrp s g with
  | none => s
  | some x =>
    if x.probation ∨ ¬ x.members.testBit m then s
    else if reason = 4 then removeMember s g m
    else
      let e := match Tab.find x.late m with
        | some (n, t) => if t = turn then (n, t) else if t + 1 = turn then (n + 1, turn) else (1, turn)
        | none => (1, turn)
      let s := setGrp s g { x with late := Tab.insert x.late m e }
      if x.failTurns ≠ 0 ∧ x.failTurns ≤ e.1 then removeMember s g m else s

/-- A report that reaches this module as keeper, or as the member of the lowest rank that is left: a keeper of a lower rank
that could not be reached counts as DOWN. -/
def takeMiss (s : State) (g reason m turn : Nat) : State :=
  let lower := (memberList (membersOf s g)).filter fun k => k < ownNo s
  let s := keeperMiss s g reason m turn
  lower.foldl (fun s k => keeperMiss s g 4 k turn) s

/-- MISS to the member of the lowest rank that can be reached; a member that is DOWN hears nothing of itself. -/
def reportMiss (s : State) (g reason m : Nat) : State :=
  match colGrp s g with
  | none => s
  | some x =>
    match (memberList x.members).find? fun k => k == ownNo s || (remoteBlocked s k colStream).isNone && !(k == m && reason == 4) with
    | none => s
    | some k => if k = ownNo s then takeMiss s g reason m (turnNo s) else sendFrit s s.now k (missBytes g x.gen reason m (turnNo s))

/-! The pools (R293). -/

def CSub.depth (u : CSub) (b me : Nat) : Nat := depthOf b u.root me

/-- Slots of a pool that chunks hold. -/
def heldSlots (s : State) (d : Nat) : Nat :=
  (s.col.ops.flatMap fun o => o.subs.map fun u =>
    if u.depth (membersOf s o.group) (ownNo s) = d then (u.chunks.map CChunk.slots).sum else 0).sum
def poolOf (s : State) (d : Nat) : Nat := s.col.pools.getD d 0
/-- COL_FREE of a pool. -/
def freeSlots (s : State) (d : Nat) : Nat := poolOf s d - heldSlots s d

/-- The order in which a pool grants: PRIO, GROUP, chunk index. -/
def before3 (a b : Nat × Nat × Nat) : Bool := a.1 < b.1 || a.1 == b.1 && (a.2.1 < b.2.1 || a.2.1 == b.2.1 && a.2.2 < b.2.2)

/-- Index of chunk c of a constituent in its operation. -/
def COp.index (o : COp) (u : CSub) (c : Nat) : Nat := u.i * o.d.nch + c

/-- The place of a constituent's next chunk in the order of its pool. -/
def COp.place (o : COp) (u : CSub) : Nat × Nat × Nat := (o.d.prio, o.group, o.index u u.claimed)

/-- Chunks that wait at a pool. -/
def waitingAt (s : State) (d : Nat) : List (COp × CSub) :=
  s.col.ops.flatMap fun o => (o.subs.filter fun u => u.waits.isSome && u.depth (membersOf s o.group) (ownNo s) == d).map fun u => (o, u)

/-- Slots of chunk c: a member with one part and no children claims none (R289). -/
def COp.slotsOf (o : COp) (u : CSub) (c : Nat) : Nat :=
  if u.kids.isEmpty ∧ o.d.npart = 0 then 0 else ceilDiv (o.d.bricksOf c) 4

/-- What COL_ADMQ holds of a waiting chunk: its group, number and chunk index. -/
def COp.waitItem (o : COp) (u : CSub) : List Byte :=
  pad64 (leBytes 4 o.group ++ leBytes 4 o.seq ++ leBytes 4 (o.index u u.claimed))

/-- A waiting chunk's item in COL_ADMQ.QUEUE. -/
def admPut (s : State) (o : COp) (u : CSub) : State :=
  enqCell s prodCol (rd s Fd.colAdmqQueue) (7 - 2 * o.d.prio) s.now (o.waitItem u)

/-- The item leaves the queue. -/
def admTake (s : State) (o : COp) (u : CSub) : State :=
  let q := rd s Fd.colAdmqQueue
  let x := queue s q
  match x.items.find? fun i => (i.cells.map QCell.pay) == [o.waitItem u] with
  | some i => freeCells (setQueue s q { x with items := x.items.erase i }) i.cells
  | none => match s.qmu.waiting.find? fun w => w.producer == prodCol && w.pay == o.waitItem u with
    | some w => { s with qmu := { s.qmu with waiting := s.qmu.waiting.erase w } }
    | none => s

/-- Cycles that a constituent's chunk has waited for its slots until now. -/
def CSub.waited (u : CSub) (s : State) : Nat := match u.waits with | some w => s.now - w | none => 0

/-- A wait ends: its cycles are counted, and the chunk's item leaves COL_ADMQ (R293). -/
def admEnd (s : State) (o : COp) (u : CSub) : State :=
  match u.waits with
  | some w => bump (admTake s o u) Fd.colAdmwaitCount (s.now - max w s.col.cleared)
  | none => s

/-- COL_ADMWAIT as it reads now: chunks that still wait have added 1 in each cycle. -/
def admWaitNow (s : State) : Nat :=
  min (2 ^ 32 - 1) (rd s Fd.colAdmwaitCount +
    (s.col.ops.flatMap fun o => o.subs.map fun u => match u.waits with | some w => s.now - max w s.col.cleared | none => 0).sum)

/-! The end of an operation (R309). -/

/-- The record of an operation. -/
def colPosting (d : ColD) (tag status acc cyc count nexcl adm : Nat) (f : Flags) : Posting :=
  let done := status == St.done
  { unit := colPage, read := none, stop := none, acc := acc, notices := []
    counts := if done then [if d.frit then Fd.fritOpsCount else Fd.colOpsCount] else []
    flagPage := if d.frit then fritPage else colPage, errs := if 0x10 ≤ status then [colPage] else []
    prod := prodCol, queue := Fd.colCqQueue
    rec_ := { tag := tag, status := status, kind := if d.frit then Sk.frit else Sk.col, idx := d.group, cyc := cyc
              detail := min (cyc - acc) (2 ^ 32 - 1) + min nexcl 0xFFFF * 2 ^ 32 + min adm 0xFFFF * 2 ^ 48, flags := f, count := count } }

/-! Streams that the engine reads (R295). -/

def ColStream.side (x : ColStream) : Side := { base := x.addr, len := x.len, xs := 0, ys := 0, nx := 1 }
def ColStream.kibs (x : ColStream) : Nat := ceilDiv x.len 1024

/-- The clock cycle in which each KiB of a stream is in: 1 KiB per cc from Marver, on the schedule of R154 from HBM. -/
def ColStream.times (s : State) (x : ColStream) : List Nat :=
  (if x.addr < hbmTop then (streamTimes s colEng x.shares (x.id + 2) x.side x.len).map Prod.fst
    else (List.range x.kibs).map fun i => x.base + i + 1).map (· + x.lag)

/-- The clock cycle of a stream's next KiB. -/
def ColStream.next (s : State) (x : ColStream) : Option Nat := (x.times s)[x.done]?

/-- An operation reads n bytes at a local address from now on. -/
def startStream (s : State) (o : COp) (a n : Nat) (use : ColUse) : State :=
  let id := s.col.count
  let x : ColStream := { id := id, group := o.group, seq := o.seq, base := s.now, addr := a, len := n, shares := [], done := 0, lag := 0,
                         crossed := false, buf := [], use := use }
  let sh := if a < hbmTop then sharesOf s 10 colEng s.now (id + 2) x.side n else []
  let s := requestShares s colEng sh
  { s with col := { s.col with streams := s.col.streams ++ [{ x with shares := sh }], count := id + 1 } }

def setStream (s : State) (x : ColStream) : State :=
  { s with col := { s.col with streams := s.col.streams.map fun y => if y.id = x.id then x else y } }

/-- A stream is over: its stacks count it (R156). -/
def endStream (s : State) (x : ColStream) : State :=
  countStreams { s with col := { s.col with streams := s.col.streams.filter fun y => y.id != x.id } } colEng x.shares s.now

/-- The streams that satisfy p are over. -/
def endStreams (s : State) (p : ColStream → Bool) : State := (s.col.streams.filter p).foldl endStream s

def ColStream.of (x : ColStream) (o : COp) : Bool := x.group == o.group && x.seq == o.seq

/-- An operation leaves the engine, with its streams; items of its waiting chunks leave COL_ADMQ. -/
def dropOp (s : State) (o : COp) : State :=
  let s := o.subs.foldl (fun s u => admEnd s o u) s
  let s := endStreams s fun x => x.of o
  let s := match colGrp s o.group with
    | some x => setGrp s o.group { x with opens := x.opens.filter fun p => p.2.opseq != o.seq,
                                          ups := x.ups.filter fun p => p.2.opseq != o.seq }
    | none => s
  { s with col := { s.col with ops := s.col.ops.filter fun x => !(x.group == o.group && x.seq == o.seq) } }

/-- An operation ends in the present cycle with its record (R309). -/
def endOp (s : State) (o : COp) (status : Nat) : State :=
  let d := o.d
  let adm := o.admWait + (o.subs.map fun u => u.waited s).sum
  let s := dropOp s o
  let count := if d.op = 7 then (if status = St.done then d.npart else 0) else if d.op = 8 then 0 else o.bricks
  let s := if d.frit then wr s Fd.fritLastLatCycles (min (s.now - o.acc) (2 ^ 32 - 1)) else s
  postNow s (colPosting d o.tag status o.acc s.now count o.nexcl adm o.flags)

/-- Parent and children of this module in an operation: of each constituent in work. -/
def COp.neighbours (o : COp) (s : State) : List Nat :=
  let b := membersOf s o.group
  (o.subs.flatMap fun u => (match parentOf b u.root (ownNo s) with | some p => [p] | none => []) ++
    (u.kids.filter fun k => k.out.isNone).map CChild.mod).eraseDups

/-- An operation fails: FAIL goes to the neighbours in the tree, or on the frit path to every member for a RINGPASS
(R296, R305). -/
def failOp (s : State) (o : COp) (status : Nat) (except : List Nat) : State :=
  let s :=
    if o.d.op = 6 then
      ((memberList (membersOf s o.group)).filter fun m => m != ownNo s).foldl
        (fun s m => sendFrit s s.now m (failBytes o.group o.gen o.seq status)) s
    else ((o.neighbours s).filter fun m => !except.contains m).foldl (fun s m => sendCtl s m (o.ctl 4 status 0)) s
  endOp s o status

/-- Every operation of the module ends with ABANDONED (R309). -/
def abandonCol (s : State) : State :=
  { (s.col.ops.foldl (fun s o => endOp s o St.abandoned) s) with col := { s.col with ops := [] } }

/-! Deadlines (R300). -/

/-- The deadline of an operation, once its turn has come. -/
def deadlineOf (s : State) (o : COp) : Option Nat :=
  match o.dl with
  | some c => some c
  | none => if o.dt = 0 then
      let c := s.turn.start + o.d.dlOff
      if c < s.turn.stop then some c else none
    else none

/-- A turn is over: operations whose deadline lay in it know it; for the others one turn less is to come. -/
def opTurn (start stop : Nat) (o : COp) : COp :=
  if o.dl.isSome then o
  else if o.dt = 0 then { o with dl := some (min (start + o.d.dlOff) stop) }
  else { o with dt := o.dt - 1 }

/-! Acceptance (R286 to R288). -/

/-- Bytes a .. a+n-1 lie in present, unfenced HBM or in Marver of this module (R262, R287). -/
def colRange (s : State) (a n : Nat) : Bool :=
  n == 0 ||
    (if a + n ≤ hbmTop then
      (List.range 16).all fun k => availStack s k || (k + 1) * 0xC00000000 ≤ a || a + n ≤ k * 0xC00000000
    else match targetOf a, targetOf (a + n - 1) with
      | .marver t, .marver u => t == u && availTile s t
      | _, _ => false)

/-- Bytes of n bricks in a format. -/
def dataBytes (fmt n : Nat) : Nat := n * brickBytes3 fmt
/-- Bytes of their scale entries. -/
def scaleBytes (fmt n : Nat) : Nat := if fmt = 2 then n else 0

/-- Check 1 of R287. -/
def ColD.badDesc (d : ColD) (s : State) : Bool :=
  let fnOk : Bool := if d.reduces then d.fn ≤ 2 else if d.op = 7 then d.fn ≤ 4 else d.fn = 0
  let partOk : Bool := d.reduces || (if d.op = 7 then d.npart ≤ 4 else d.npart = 0)
  let rooted : Bool := !d.perRank && d.op != 6
  let pools (x : Grp) : Bool :=
    let me := ownNo s
    let roots := if d.perRank then memberList x.members else [d.root]
    !d.reduces || roots.all fun r => decide (d.chunk ≤ poolOf s (depthOf x.members r me))
  d.rsv || d.op == 0 || 8 < d.op || !fnOk || d.ifmt == 3 || d.ofmt == 3 || (d.frit && d.ofmt != 0) || !partOk ||
    (d.op == 7 && 3 ≤ d.fn && d.ifmt == 2) ||
    (match colGrp s d.group with | none => true | some x => (rooted && !x.members.testBit d.root) || !pools x) ||
    ((d.op == 2 || d.op == 5 || d.op == 6) && d.ofmt != d.ifmt) ||
    d.pstr % 1024 != 0 || (d.ifmt == 2 && !d.frit && d.pstr % 65536 != 0)

/-- Check 3 of R287. -/
def ColD.badAddr (d : ColD) (s : State) : Bool :=
  if d.frit then d.hdr % 128 != 0 || !colRange s d.hdr 128
  else
    let n := sizeOf_ s d.group
    let me := ownNo s
    let shards (mine : Bool) : Nat := if mine then n else 1
    let src : Bool := d.op ≠ 2 ∨ d.root = me
    let dst : Bool := d.op ≠ 1 ∨ d.root = me
    let nsrc := d.nbrk * shards (d.op == 4)
    let ndst := d.nbrk * shards (d.op == 5 || d.op == 6)
    d.src % 1024 != 0 || d.dst % 1024 != 0 || d.hdr % 1024 != 0 || d.ssrc % 64 != 0 || d.sdst % 64 != 0 ||
      (src && (List.range (if d.reduces then d.npart + 1 else 1)).any fun p =>
        !colRange s (d.src + p * d.pstr) (dataBytes d.ifmt nsrc) ||
        !colRange s (d.ssrc + p * d.pstr / 1024) (scaleBytes d.ifmt nsrc)) ||
      (dst && (!colRange s d.dst (dataBytes d.ofmt ndst) || !colRange s d.sdst (scaleBytes d.ofmt ndst))) ||
      !colRange s d.hdr (1024 * shards d.perRank)

/-- A part of an operation, whole: its address and bytes (R286). -/
def ColD.partSpan (d : ColD) (s : State) (p : Nat) : Nat × Nat :=
  (d.src + p * d.pstr, dataBytes d.ifmt (d.nbrk * (if d.op = 4 then sizeOf_ s d.group else 1)))

/-- The finite check reads part p of a reduction (R297). -/
def checkPart (s : State) (o : COp) (p : Nat) : State :=
  let a := o.d.partSpan s p
  startStream s o a.1 a.2 (.check p)

/-- What a descriptor ends with at acceptance, or none: DROPPED while the memories are held (R357, R362). -/
def ColD.check (d : ColD) (s : State) : Option Nat :=
  if d.badDesc s then some St.badDesc
  else if (if d.op = 7 then d.npart = 0 else d.op ≠ 8 ∧ d.nbrk = 0) then some St.doneEmpty
  else if d.badAddr s then some St.badAddr
  else if memoryHeld s then some St.dropped
  else match colGrp s d.group with
    | some x => if x.removed then some St.groupReformed else none
    | none => some St.badDesc

/-- A value of a FRED that is NaN or infinite: the finite check tests FP64 values only (R307). -/
def fredBad (d : ColD) : Flags :=
  if d.op = 7 ∧ d.ifmt = 2 then
    Fl.any (([d.src, d.ssrc, d.dst, d.sdst].take d.npart).map fun v =>
      match fp64.decode v with
      | .nan g => (Fp.nan g).inFlags
      | .inf _ => Fl.inv
      | _ => 0)
  else 0

/-- An accepted operation before anything of it has happened. -/
def newOp (s : State) (x : Grp) (d : ColD) (desc : List Byte) (tag acc prog : Nat) : COp :=
  { group := d.group, gen := x.gen, seq := x.opseq, tag := tag, acc := acc, desc := desc, step := progStep s prog, prog := prog,
    dt := d.dlDt, dl := none, start := none, overdue := false, checkEnd := if d.reduces then none else some acc, checked := !d.reduces, badOwn := fredBad d, subs := [], begun := 0, closed := 0,
    bricks := 0, admWait := 0, nexcl := 0, flags := Fl.cond x.first Fl.groupReformed, heard := acc,
    mismatch := false, wake := none, down := none, ringGo := false, ringOwn := false, ringReady := false, ringSent := 0, ringHave := 0, ringGot := [], fOut := [], fUps := [], fSent := false }

/-- A descriptor at acceptance: rejected with a record 10 cc later, or an operation of its group. A fenced COL or frit path
answers with NOT_PRESENT (R348, R408). -/
def acceptCol (s : State) (tag acc prog : Nat) (desc : List Byte) : State × Option COp :=
  let d := colD desc
  let turnAway (st : Nat) : State := postLater s (colPosting d tag st acc (acc + 10) 0 0 0 0)
  if fencedPage s colPage || fencedPage s fritPage then (turnAway St.notPresent, none)
  else match d.check s, colGrp s d.group with
  | some st, _ => (turnAway st, none)
  | none, none => (s, none)
  | none, some x =>
    let o := newOp s x d desc tag acc prog
    let s := setGrp s d.group { x with opseq := x.opseq + 1, first := false }
    let s := { s with col := { s.col with ops := s.col.ops ++ [o] } }
    (if d.reduces then checkPart s o 0 else s, some o)

/-! Loads and reforms (R282, R283, R301, R302). -/

def grpBase (s : State) (g : Nat) : Nat := rd s Fd.colGrpbaseBase * 2 ^ 20 + g * 1024

/-- The checks of R283 on a group descriptor. -/
def grpOk (s : State) (l : List Byte) : Bool :=
  let b := fieldLE l 512 512
  let n := fieldLE l 4 2
  n != 0 && n ≤ 4096 && n == popcount b && ((memberList b).all fun m => namesModule s m) && coordValid s && b.testBit (ownNo s) &&
    fieldLE l 6 1 ≤ 1 && fieldLE l 7 1 ≤ 2 && (l.drop 9 |>.take 503).all fun x => x == 0

/-- Operations of a group in flight end with GROUP_REFORMED. -/
def reformOps (s : State) (g : Nat) : State :=
  (s.col.ops.filter fun o => o.group == g).foldl (fun s o => endOp s o St.groupReformed) s

/-- A group load at a turn start. -/
def loadGroup (s : State) (g : Nat) : State :=
  let l := readBytes s (grpBase s g) 1024
  if grpOk s l then
    let s := reformOps s g
    setGrp s g { gen := fieldLE l 0 4, nmemb := fieldLE l 4 2, probation := fieldLE l 6 1 == 1, zfmt := fieldLE l 7 1,
                 failTurns := fieldLE l 8 1, members := fieldLE l 512 512, opseq := 0, first := false, removed := false, late := [],
                 reforms := [], opens := [], ups := [] }
  else
    postNow s { unit := colPage, read := none, stop := none, acc := s.now, notices := [Fd.nColGroupErr], counts := [], flagPage := colPage
                errs := [colPage], prod := prodCol, queue := Fd.colCqQueue
                rec_ := { tag := 0, status := St.badDesc, kind := Sk.col, idx := g, cyc := s.now, detail := 0, flags := 0, count := 0 } }

/-- A reform at its apply turn. -/
def applyReform (s : State) (g : Nat) (x : Grp) (r : Nat × Nat × List Nat) : State :=
  let s := reformOps s g
  let b := r.2.2.foldl (fun b m => if b.testBit m then b - 2 ^ m else b) x.members
  let a := grpBase s g
  let s := store (store (store s a (leBytes 4 r.1)) (a + 4) (leBytes 2 (popcount b))) (a + 512) (leBytes 512 b)
  let s := setGrp s g { x with gen := r.1, nmemb := popcount b, members := b, opseq := 0, first := true,
                               removed := x.removed || r.2.2.contains (ownNo s), late := x.late.filter (fun e => !r.2.2.contains e.1), opens := [], ups := [],
                               reforms := x.reforms.filter fun y => y.1 != r.1 }
  bump (notice s Fd.nColReform) Fd.colReformsCount 1

/-- The reforms of a group whose turn has come. -/
def reformGroup (turn : Nat) (s : State) (g : Nat) : State :=
  match colGrp s g with
  | none => s
  | some x => (x.reforms.filter fun r => r.2.1 ≤ turn).foldl
      (fun s r => match colGrp s g with | some y => applyReform s g y r | none => s) s

/-- What the collective engine does at the start of turn number turn; the turn before ran from start to stop. -/
def colTurn (s : State) (turn start stop : Nat) : State :=
  let s := { s with col := { s.col with ops := s.col.ops.map (opTurn start stop) } }
  let s := (s.col.groups.map Prod.fst).foldl (reformGroup turn) s
  if rdb s Fd.colGcmdArmed ∧ rd s Fd.colGcmdTurn ≤ turn then
    loadGroup (wr s Fd.colGcmdArmed 0) (rd s Fd.colGcmdGroup)
  else s

/-- COL_GCMD_WRITE (R283): a load is armed for a turn at least two ahead, or the write is ignored. -/
def execColGcmdWrite (v : BitVec 64) (s : State) : Res :=
  let n := v.toNat
  if ¬ s.boot.stagesDone.contains 4 then ok s
  else if bits n 47 0 < turnNo s + 2 then ok (notice s Fd.nColReject)
  else ok (wrs s [(Fd.colGcmdGroup, bits n 57 48), (Fd.colGcmdTurn, bits n 47 0), (Fd.colGcmdArmed, 1)])

/-- The pool sizes written take effect. -/
def applyPools (s : State) : State :=
  { s with col := { s.col with pools := [rd s Fd.colPoolP0, rd s Fd.colPoolP1, rd s Fd.colPoolP2, rd s Fd.colPoolP3], poolNext := false } }

/-- No slot of the crucible is held. -/
def noSlots (s : State) : Bool := (List.range 4).all fun d => heldSlots s d == 0

/-- COL_POOL_WRITE (R293, R310). -/
def execColPoolWrite (v : BitVec 64) (s : State) : Res :=
  let n := v.toNat
  let p (i : Nat) : Nat := bits n (16 * i + 11) (16 * i)
  let l := (List.range 4).map p
  if ¬ s.boot.stagesDone.contains 4 then ok s
  else if (l.any fun x => decide (x < 64)) ∨ 3072 < l.sum then ok (notice s Fd.nColReject)
  else
    let s := wrs s [(Fd.colPoolP0, p 0), (Fd.colPoolP1, p 1), (Fd.colPoolP2, p 2), (Fd.colPoolP3, p 3)]
    ok (if noSlots s then applyPools s else { s with col := { s.col with poolNext := true } })

/-- COL_POOL_APPLY (R310): the written sizes apply where no slot is held; before that they wait. -/
def execColPoolApply (s : State) : Res :=
  if ¬ s.col.poolNext then .fault .noOperation else ok (if noSlots s then applyPools s else s)

end Sys2Proof.Machine
end

