-- ==== Sys2Proof/Machine/CollRun.lean ====
section
/-! DEFINITION. How a data collective runs on one member (R289 to R299): constituents, claims and accumulation, READY, GRANT
and streams, the result and its header on their way down, the ring. After every event the engine makes all the progress
that it can (progress). -/

namespace Sys2Proof.Machine

/-! Constituents. -/

/-- BCAST and ALLGATHER move the result only; ALLREDUCE moves it after its REDUCE. -/
def ColD.bcast (d : ColD) : Bool := d.op == 2 || d.op == 5
def ColD.spreads (d : ColD) : Bool := d.bcast || d.op == 3
/-- Constituents of an operation. -/
def COp.nsubs (o : COp) (s : State) : Nat := if o.d.op = 6 ∨ o.d.frit then 0 else if o.d.perRank then sizeOf_ s o.group else 1

def putSub (s : State) (o : COp) (u : CSub) : State :=
  setOp s { o with subs := o.subs.map fun x => if x.i = u.i then u else x }

def kidsOf (b root me : Nat) : List CChild := (childrenOf b root me).map fun m => { mod := m, ready := 0, out := none, sent := 0 }

/-- Constituent i of an operation at its begin. -/
def newSub (s : State) (o : COp) (i : Nat) : CSub :=
  let b := membersOf s o.group
  let root := if o.d.perRank then ofRank b i else o.d.root
  { i := i, root := root, opened := false, ownOut := none, cut := false, kids := kidsOf b root (ownNo s), waitSince := none, lagMod := 0,
    lagCc := 0, claimed := 0, freed := 0, have_ := 0, chunks := [], waits := none, got := [], hdr := chdrInit, closed := false }

def CSub.isRoot (u : CSub) (s : State) : Bool := u.root == ownNo s
def CSub.parent (u : CSub) (s : State) (o : COp) : Option Nat := parentOf (membersOf s o.group) u.root (ownNo s)

/-- Members under a member k in the tree of a root. -/
def subtreeOf (b root k : Nat) : List Nat :=
  let up (m : Nat) : Nat := (parentOf b root m).getD root
  (memberList b).filter fun m => m != k && m != root && (up m == k || up m != root && (up (up m) == k || up (up m) != root && up (up (up m)) == k))

/-- A child excluded from chunk c on, with its subtree, in a header. -/
def CHdr.excludeKid (h : CHdr) (b root k reason c : Nat) : CHdr :=
  (subtreeOf b root k).foldl (fun h m => h.exclude m 5 c) (h.exclude k reason c)

/-- A parent excludes a child from a chunk on (R297, R301). -/
def excludeKid (s : State) (o : COp) (u : CSub) (k reason c : Nat) : State × CSub :=
  let u := { u with
    kids := u.kids.map fun x => if x.mod = k then { x with out := some (reason, c) } else x,
    chunks := u.chunks.map fun x => if x.granted ∧ (u.kids.map CChild.mod).getD x.kids 4096 = k then { x with granted := false, got := [], fed := 0 } else x }
  let s := bump (notice s Fd.nColExcluded) Fd.colExclCount 1
  let s := if reason = 4 then endStreams s fun x => x.of o && match x.use with | .send dst _ _ => dst == k | _ => false
    else sendCtl s k (o.ctl 3 reason (o.index u c))
  (reportMiss s o.group reason k, u)

/-- A constituent begun after the deadline: its children are late at once (R300). -/
def lateSub (s : State) (o : COp) (u : CSub) : State × CSub :=
  (u.kids.map CChild.mod).foldl (fun r k => excludeKid r.1 o r.2 k 3 0) (s, u)

/-! Local data. -/

/-- Address of the data and of the scale entries of chunk c of part p. -/
def COp.partAt (o : COp) (u : CSub) (p c : Nat) : Nat × Nat :=
  let d := o.d
  let first := (if d.op = 4 then u.i * d.nbrk else 0) + 4 * d.chunk * c
  (d.src + p * d.pstr + dataBytes d.ifmt first, d.ssrc + p * d.pstr / 1024 + first)

/-- Address of chunk c of the result. -/
def COp.dstAt (o : COp) (u : CSub) (c : Nat) : Nat × Nat :=
  let d := o.d
  let first := (if d.op = 5 then u.i * d.nbrk else 0) + 4 * d.chunk * c
  (d.dst + dataBytes d.ofmt first, d.sdst + first)

/-- Data and scale bytes of n bricks. -/
def readBricks (s : State) (fmt n : Nat) (a : Nat × Nat) : List Byte × List Byte :=
  (readBytes s a.1 (dataBytes fmt n), readBytes s a.2 (scaleBytes fmt n))

/-- Bytes written to the engine's own memory in the present cycle: what they meet, or the state and the clock cycle in which they are committed,
later by what the way and a refresh slot cost (R23, R40). -/
def colStore (s : State) (a : Nat) (bs : List Byte) : Except Nat (State × Nat) :=
  if bs.isEmpty then .ok (s, s.now)
  else match accessStatus s a bs.length with
    | some st => .error st
    | none =>
      if ¬ colRange s a bs.length then .error St.badAddr
      else
        let x := carry s 4 (dieOf a) 0 bs.length s.now
        let g := memAccess x.1 a (s.now + x.2)
        .ok (store g.1 a bs, g.2)

/-- An operation's own event is due in clock cycle c, where that is yet to come. -/
def COp.wakeAt (o : COp) (s : State) (c : Nat) : COp := if c ≤ s.now then o else { o with wake := some (max c (o.wake.getD 0)) }

/-- Bricks of the result and their scale entries written to DST and SDST (R289, R296): the operation goes on, or ends with what a unit meets
(R348). -/
def writeColBricks (s : State) (o : COp) (fmt n : Nat) (a : Nat × Nat) (data scales : List Byte) : Except State (State × COp) :=
  match colStore s a.1 (data.take (dataBytes fmt n)) with
  | .error st => .error (failOp s o st [])
  | .ok x => match colStore x.1 a.2 (scales.take (scaleBytes fmt n)) with
    | .error st => .error (failOp x.1 o st [])
    | .ok y => .ok (y.1, { o with bricks := o.bricks + n }.wakeAt s (max x.2 y.2))

/-- The own contribution is excluded, and why. -/
def COp.ownOut (o : COp) (u : CSub) : Option Nat := if o.badOwn ≠ 0 then some 1 else if o.mismatch then some 6 else u.ownOut

/-- The header of a chunk with the own contribution. -/
def COp.ownHdr (o : COp) (u : CSub) (me : Nat) : CHdr :=
  match o.ownOut u with
  | some r => let h := chdrInit.exclude me r 0; { h with flags := h.flags ||| Fl.cond (r == 1) o.badOwn }
  | none => { chdrInit with contrib := 2 ^ me }

/-! The accumulate pipes (R295). -/

/-- A contribution to a slot that may enter a pipe from cycle c on takes the one that is free first, for 64 cc; with the cycle it enters. -/
def pipeIn (s : State) (c : Nat) : State × Nat :=
  let f := s.col.pipes.foldl min (s.col.pipes.headD 0)
  let g := max c f
  ({ s with col := { s.col with pipes := s.col.pipes.erase f ++ [g + 64] } }, g)

/-- A contribution to slot j of a chunk, all there in clock cycle t, enters a pipe behind the slot's last one (R289). -/
def enterSlot (t : Nat) (r : State × CChunk) (j : Nat) : State × CChunk :=
  match r.2.entered[j]? with
  | some e =>
    let p := pipeIn r.1 (max t (e + 64))
    (p.1, { r.2 with entered := r.2.entered.set j p.2, fed := j + 1 })
  | none =>
    let p := pipeIn r.1 t
    (p.1, { r.2 with entered := r.2.entered ++ [p.2], fed := j + 1 })

/-- The contribution that arrives is there for the first n slots. -/
def enterSlots (s : State) (x : CChunk) (t n : Nat) : State × CChunk :=
  ((List.range (min n x.slots)).drop x.fed).foldl (enterSlot t) (s, x)

/-- The clock cycle in which the last contribution so far has entered its pipe. -/
def CChunk.lastIn (x : CChunk) : Nat := x.entered.foldl max 0

def putChunk (s : State) (o : COp) (u : CSub) (x : CChunk) : State :=
  putSub s o { u with chunks := u.chunks.map fun z => if z.c = x.c then x else z }

/-- Part p of chunk c is read into its slots (R295). -/
def ownPart (s : State) (o : COp) (u : CSub) (c p : Nat) : State :=
  startStream s o (o.partAt u p c).1 (dataBytes o.d.ifmt (o.d.bricksOf c)) (.own u.i c p)

/-! Streams (R265, R291, R305). -/

/-- Data of one type, from an offset in the chunk on, sent in 1 KiB units of 112-byte cells, at the router from clock cycle c on. -/
def sendFrom (s : State) (c dst group g typ off : Nat) (bs : List Byte) : State :=
  let us := chunks 1024 bs
  (List.zip (List.range us.length) us).foldl (fun s u =>
    let ps := chunks 112 u.2
    (List.zip (List.range ps.length) ps).foldl (fun s p =>
      sendReq s reqCol c 9 dst (colOffset group g typ (off + 1024 * u.1 + 112 * p.1)) colStream p.2) s) s

/-- The same of data that is there now. -/
def sendCells (s : State) (dst group g typ : Nat) (bs : List Byte) : State := sendFrom s (s.now + 40) dst group g typ 0 bs

/-- A chunk's stream to the parent has been handed over: the chunk leaves with its last cell. -/
def markLeaving (s : State) (o : COp) (u : CSub) (x : CChunk) (p : Nat) : State :=
  putChunk s o u { x with leaving := some (((strmOf s colStream p).seq + 65535) % 65536, p) }

/-- The header that goes up with a chunk. -/
def COp.upHdr (o : COp) (x : CChunk) (f : Flags) : CHdr :=
  { x.hdr with step := o.step, seq := o.seq, gen := o.gen, flags := x.hdr.flags ||| f ||| (o.flags &&& Fl.retried), chunks := o.d.nch }

/-- GRP_ZFMT of a group. -/
def zfmtOf (s : State) (g : Nat) : Nat := match colGrp s g with | some y => y.zfmt | none => 0

/-- A chunk held in slots streamed to the parent (R291): data and scale entries where anything contributed, then what it stands for. -/
def streamUp (s : State) (o : COp) (u : CSub) (p : Nat) (x : CChunk) : State :=
  let g := o.index u x.c
  let fmt := if onL2 (membersOf s o.group) u.root (ownNo s) then zfmtOf s o.group else 0
  let e := if x.acc.isEmpty then ([], [], 0) else encodeChunk fmt (o.d.bricksOf x.c) x.acc
  let s := sendCells (sendCells s p o.group g 0 e.1) p o.group g 2 e.2.1
  markLeaving (sendCells s p o.group g 1 (o.upHdr x e.2.2).bytes) o u x p

/-- The chunk of a member without slots, all read: on L1 its KiB have gone as they were read, bit for bit; on L2 it goes in GRP_ZFMT (R291). -/
def leafUp (s : State) (o : COp) (u : CSub) (p : Nat) (x : CChunk) (data : List Byte) : State :=
  let d := o.d
  let n := d.bricksOf x.c
  let g := o.index u x.c
  let scales := readBytes s (o.partAt u 0 x.c).2 (scaleBytes d.ifmt n)
  let acc := accumulate d.fn [] (decodeChunk d.ifmt n data scales)
  let z := zfmtOf s o.group
  let r := if onL2 (membersOf s o.group) u.root (ownNo s) then
      let e := encodeChunk z n acc.1
      (sendCells (sendCells s p o.group g 0 e.1) p o.group g 2 e.2.1, acc.2 ||| e.2.2)
    else (sendCells s p o.group g 2 scales, acc.2)
  markLeaving (sendCells r.1 p o.group g 1 (o.upHdr x r.2).bytes) o u x p

/-- A chunk of the result is sent from DST to a child. -/
def streamDown (s : State) (o : COp) (u : CSub) (k c : Nat) : State :=
  let n := o.d.bricksOf c
  let a := o.dstAt u c
  startStream s o a.1 (dataBytes o.d.ofmt n) (.send k (o.index u c) (readBytes s a.2 (scaleBytes o.d.ofmt n)))

/-- A chunk of the result is still on its way to a member. -/
def sendingTo (s : State) (o : COp) (k : Nat) : Bool :=
  s.col.streams.any fun x => x.of o && match x.use with | .send dst _ _ => dst == k | _ => false

/-- Local offset of the header of a constituent. -/
def COp.hdrAt (o : COp) (u : CSub) : Nat := o.d.hdr + 1024 * u.i

/-! Headers at a member (R298, R299, R303). -/

/-- A resynchronisation for the next turn start (R194): the last one for a program counts. -/
def resyncTo (s : State) (p step : Nat) : State :=
  { s with turn := { s.turn with resync := (s.turn.resync.filter fun r => r.1 != p) ++ [(p, step)] } }

/-- A member that sees a STEP other than its own (R299). -/
def stepSeen (s : State) (o : COp) (step : Nat) : State :=
  if step = o.step then s
  else resyncTo (wr (bump s Fd.colSkewsCount 1) Fd.colSkewLastDiff ((step + 2 ^ 32 - o.step) % 2 ^ 32)) o.prog step

/-- COL_LAG takes the lag of a header. -/
def lagSeen (s : State) (m cc : Nat) : State :=
  let n := if rd s Fd.colLagMod = m then min (rd s Fd.colLagCnt + 1) 0xFFFF else 1
  wrs s [(Fd.colLagMod, m), (Fd.colLagCnt, n), (Fd.colLagCc, min cc (2 ^ 32 - 1))]

/-- A header final at this module: written to HDR, and taken into the operation. -/
def closeSub (s : State) (o : COp) (u : CSub) (raw : List Byte) : State :=
  let h := hdrOf raw
  match colStore s (o.hdrAt u) raw with
  | .error st => failOp s o st []
  | .ok g =>
    let s := lagSeen (stepSeen g.1 o h.step) (h.lagMod % 4096) h.lagCc
    let s := admEnd s o u
    putSub s ({ o with nexcl := max o.nexcl h.nexcl, flags := o.flags ||| h.flags, admWait := o.admWait + u.waited s }.wakeAt s g.2)
      { u with closed := true, hdr := h, chunks := [], waits := none, got := [] }

/-- What this member's own flags give the header: a first operation after a reform (R302), repeated cells (R309). -/
def COp.headFlags (o : COp) : Flags := o.flags &&& (Fl.groupReformed ||| Fl.retried)

/-- The header that R writes. -/
def COp.rootHdr (o : COp) (u : CSub) (b : Nat) : CHdr :=
  let h := if o.d.bcast then
      let h := u.kids.foldl (fun h k => match k.out with | some (r, c) => h.excludeKid b u.root k.mod r c | none => h) chdrInit
      { h with contrib := h.excl.foldl (fun x e => if x.testBit e.1 then x - 2 ^ e.1 else x) b }
    else u.hdr
  { h with step := o.step, seq := o.seq, gen := o.gen, lagMod := u.lagMod, lagCc := u.lagCc,
           flags := h.flags ||| o.headFlags, chunks := o.d.nch }

/-! Progress. -/

/-- READY for chunk c goes to the parent; for chunk 0 with the largest lag of the subtree. -/
def sendReady (s : State) (o : COp) (u : CSub) (c : Nat) : State :=
  match u.parent s o with
  | none => s
  | some p => sendCtl s p { o.ctl 1 0 (o.index u c) with modno := if c = 0 then u.lagMod else 0, lag := if c = 0 then u.lagCc else 0 }

/-- OPEN goes to the children of a constituent that is open here; one excluded before has gone. -/
def sendOpen (s : State) (o : COp) (u : CSub) (step : Nat) : State × CSub :=
  ((u.kids.filter fun k => k.out.isNone).map CChild.mod).foldl (fun r k =>
    if (remoteBlocked r.1 k colStream).isSome then excludeKid r.1 o r.2 k 4 0
    else (sendCtl r.1 k { o.ctl 0 0 (o.index u 0) with step := step, nbrk := o.d.nbrk, word0 := o.d.w0, modno := u.root }, r.2)) (s, u)

/-- Fields of bytes 0-3 of a descriptor that OPEN's WORD0 is compared in: OP, FN, IFMT, OFMT and CHUNK. -/
def openMask : Nat := 0xFFE07E00

/-- A descriptor that follows R's in what MISMATCH compares; NPART, PRIO and the addresses stay. -/
def followRoot (desc : List Byte) (m : ColCtl) : List Byte :=
  let w0 := fieldLE desc 0 4
  let w1 := fieldLE desc 4 4
  leBytes 4 ((m.word0 &&& openMask) + (w0 - (w0 &&& openMask))) ++
    leBytes 4 (w1 - bits w1 27 16 * 2 ^ 16 + m.modno % 4096 * 2 ^ 16) ++ leBytes 4 m.nbrk ++ desc.drop 12

/-- A member takes an OPEN (R289, R297): STEP_SKEW and MISMATCH are decided, and OPEN goes on. -/
def takeOpen (s : State) (o : COp) (u : CSub) (m : ColCtl) : State :=
  let d := o.d
  let same : Bool := m.word0 &&& openMask = d.w0 &&& openMask ∧ m.nbrk = d.nbrk ∧ (d.perRank ∨ m.modno = d.root)
  let e := colD (followRoot o.desc m)
  let o := if same ∨ ¬ (e.perRank = d.perRank ∧ e.op ≠ 0 ∧ e.op < 6 ∧ (membersOf s o.group).testBit e.root) then o
    else { o with desc := followRoot o.desc m, mismatch := true }
  let root := if d.perRank then u.root else o.d.root
  let skew : Bool := o.d.reduces ∧ m.step ≠ o.step
  let s := if skew then notice s Fd.nColSkew else s
  let u := { u with opened := true, root := root, kids := if root = u.root then u.kids else kidsOf (membersOf s o.group) root (ownNo s),
                    ownOut := if skew then some 2 else if same then none else some 6 }
  let r := sendOpen s { o with heard := s.now } u m.step
  let s := putSub r.1 { o with heard := s.now } r.2
  if o.d.bcast then sendReady s o r.2 0 else s

/-- Chunks of an operation past their claim and not released. -/
def COp.inWork (o : COp) : Nat := (o.subs.map fun u => u.chunks.length).sum

/-- A constituent ahead of another one has chunks to claim: a member takes the chunks of an operation in ascending order (R289). -/
def COp.behind (o : COp) (u : CSub) : Bool :=
  o.d.reduces && o.subs.any fun v => decide (v.i < u.i) && !v.cut && !v.closed && decide (v.claimed < o.d.nch)

/-- A chunk claimed: its own parts are read, one after another, into its slots. -/
def claim (s : State) (o : COp) (u : CSub) (slots : Nat) : State :=
  let c := u.claimed
  let leaf : Bool := slots = 0 ∧ ¬ u.isRoot s
  let own : Bool := !leaf && (o.ownOut u).isNone
  let x : CChunk := { c := c, slots := slots, kids := 0, granted := false, got := [], acc := [], hdr := o.ownHdr u (ownNo s), reading := own,
                      entered := [], fed := 0, kidEnd := 0, last := if leaf ∨ (u.kids.isEmpty ∧ ¬ own) then some s.now else none,
                      leaving := none, done := leaf }
  let s := if c = 0 ∧ (o.ownOut u).isSome then bump (notice s Fd.nColExcluded) Fd.colExclCount 1 else s
  let u := { u with claimed := c + 1, waits := none, chunks := u.chunks ++ [x] }
  let s := if own then ownPart s o u c 0 else s
  let s := putSub s o u
  if leaf then sendReady s o u c else s

/-- The chunk in flight of a child: the first that has not had its contribution, else the one to be claimed next (R297). -/
def CSub.inFlight (u : CSub) (k : Nat) : Nat :=
  match (List.range u.kids.length).find? fun i => (u.kids.map CChild.mod)[i]? == some k with
  | none => u.claimed
  | some i => match u.chunks.find? fun x => x.last.isNone && decide (x.kids ≤ i) with
    | some x => x.c
    | none => u.claimed

/-- The bytes received from the start of a unit on, without a gap. -/
def assemble : Nat → List (Nat × List Byte) → List Byte → List Byte
  | 0, _, acc => acc
  | fuel + 1, got, acc =>
    match got.find? fun g => g.1 == acc.length && !g.2.isEmpty with
    | none => acc
    | some g => assemble fuel got (acc ++ g.2)

/-- The bytes of one type received from the start on. -/
def gathered (got : List (Nat × Nat × List Byte)) (typ : Nat) : List Byte :=
  let l := (got.filter fun p => p.1 == typ).map fun p => (p.2.1, p.2.2)
  assemble l.length l []

/-- A child's stream, its header in, is accumulated in the format that its length shows. -/
def absorbUp (s : State) (o : COp) (u : CSub) (x : CChunk) : State :=
  let d := o.d
  let n := d.bricksOf x.c
  let data := gathered x.got 0
  let fmt := if dataBytes 0 n ≤ data.length then 0 else if dataBytes 1 n ≤ data.length then 1 else 2
  let kh := hdrOf (gathered x.got 1)
  let r := if kh.contrib = 0 ∨ data.length < dataBytes fmt n then (x.acc, 0)
    else accumulate d.fn x.acc (decodeChunk fmt n data (gathered x.got 2))
  let hdr := x.hdr.join kh
  let e := if data.isEmpty then (s, x) else enterSlots s x s.now x.slots
  putChunk e.1 o u { e.2 with kids := x.kids + 1, granted := false, got := [], acc := r.1, fed := 0,
                              kidEnd := if data.isEmpty then x.kidEnd else e.2.lastIn + 64, hdr := { hdr with flags := hdr.flags ||| r.2 } }

/-- The format in which a child's chunk comes (R291). That a leaf has one part, as this module has, is the model's choice (log entry 15): it
moves only the cycles in which its slots enter their pipes. -/
def kidFmt (s : State) (o : COp) (u : CSub) (k : Nat) : Nat :=
  let b := membersOf s o.group
  if onL2 b u.root k then zfmtOf s o.group else if (childrenOf b u.root k).isEmpty ∧ o.d.npart = 0 then o.d.ifmt else 0

/-- Slots of a chunk of n bricks of which every byte is there, in a format. -/
def slotsThere (fmt n : Nat) (got : List (Nat × Nat × List Byte)) : Nat :=
  let bricks := (gathered got 0).length / brickBytes3 fmt
  let m := if fmt = 2 then min bricks (gathered got 2).length else bricks
  if n ≤ m then ceilDiv n 4 else m / 4

/-- The next child of a chunk: taken when its stream is there, skipped when excluded, granted when it is its turn; after the last child the
chunk has all its contributions. -/
def actChunk (s : State) (o : COp) (u : CSub) (x : CChunk) : Option State :=
  if x.last.isSome ∨ x.leaving.isSome then none
  else match u.kids[x.kids]? with
    | none => if x.reading then none else some (putChunk s o u { x with last := some (max s.now x.lastIn) })
    | some k =>
      match k.out.filter fun e => e.2 ≤ x.c with
      | some e =>
        some (putChunk s o u { x with kids := x.kids + 1, granted := false, got := [], fed := 0,
                                      hdr := x.hdr.excludeKid (membersOf s o.group) u.root k.mod e.1 e.2 })
      | none =>
        if x.granted then
          if ¬ x.reading ∧ 1024 ≤ (gathered x.got 1).length then some (absorbUp s o u x) else none
        else if (remoteBlocked s k.mod colStream).isSome then
          let r := excludeKid s o u k.mod 4 (u.inFlight k.mod)
          some (putSub r.1 o r.2)
        else some (putChunk (sendCtlAt s (max s.now x.kidEnd) k.mod (o.ctl 2 0 (o.index u x.c))) o u { x with granted := true })

/-- What goes down to a child next: a chunk of the result, or the header. -/
def actKid (s : State) (o : COp) (u : CSub) (k : CChild) : Option State :=
  let d := o.d
  let put (s : State) (n : Nat) : State :=
    putSub s o { u with kids := u.kids.map fun x => if x.mod = k.mod then { x with sent := n } else x }
  let open_ : Bool := if d.bcast then k.out.isNone && decide (0 < k.ready) else d.spreads
  let down : Bool := match k.out with | some e => e.1 == 4 | none => false
  if down ∨ d.nch < k.sent ∨ sendingTo s o k.mod then none
  else
    let data : Bool := open_ && decide (k.sent < u.have_)
    let head : Bool := u.closed && (!d.spreads || decide (d.nch ≤ k.sent) || d.bcast && k.out.isSome)
    if ¬ data ∧ ¬ head then none
    else if (remoteBlocked s k.mod colStream).isSome then
      let r := excludeKid s o u k.mod 4 k.sent
      some (putSub r.1 o r.2)
    else if data then some (put (streamDown s o u k.mod k.sent) (k.sent + 1))
    else
      let x := carry s (dieOf (o.hdrAt u)) 4 hubCol 1024 s.now
      let g := memAccess x.1 (o.hdrAt u) (s.now + x.2)
      some (put (sendFrom g.1 (g.2 + 40) k.mod o.group (o.index u (d.nch - 1)) 1 0 (readBytes s (o.hdrAt u) 1024)) (d.nch + 1))

/-- Every child is READY for a chunk or excluded. -/
def CSub.kidsReady (u : CSub) (c : Nat) : Bool := u.kids.all fun k => k.out.isSome || decide (c < k.ready)

/-- A copy of SRC to DST is under way. -/
def copying (s : State) (o : COp) (sub : Option Nat) : Bool :=
  s.col.streams.any fun x => x.of o && match x.use with | .copy i _ _ => i == sub | _ => false

/-- A constituent's next step, if it has one. -/
def actSub (s : State) (o : COp) (u : CSub) : Option State :=
  let d := o.d
  if ¬ u.opened then
    if u.isRoot s then
      let r := sendOpen s o { u with opened := true } o.step
      some (putSub r.1 o r.2)
    else match colGrp s o.group with
      | none => none
      | some x =>
        match x.opens.find? fun p => p.2.kind == 0 && p.2.opseq == o.seq && (!d.perRank || p.2.modno == u.root) with
        | none => none
        | some p => some (takeOpen (setGrp s o.group { x with opens := x.opens.erase p }) o u p.2)
  else if d.reduces ∧ ¬ u.closed ∧ u.waitSince.isNone ∧ o.checked then some (putSub s o { u with waitSince := some s.now })
  else match u.chunks.findSome? (actChunk s o u) with
    | some s' => some s'
    | none =>
      let c := u.claimed
      if d.reduces ∧ ¬ u.cut ∧ ¬ u.closed ∧ o.checked ∧ c < d.nch ∧ u.waits.isNone ∧ o.inWork < 4 ∧ ¬ o.behind u ∧ u.kidsReady c then
        let n := o.slotsOf u c
        let b := membersOf s o.group
        let p := u.depth b (ownNo s)
        if n = 0 then some (claim s o u 0)
        else if n ≤ freeSlots s p ∧ ¬ (waitingAt s p).any fun w => before3 (w.1.place w.2) (o.place u) then some (claim s o u n)
        else some (putSub (admPut s o u) o { u with waits := some s.now })
      else if d.bcast ∧ u.isRoot s ∧ u.have_ < d.nch ∧ ¬ copying s o (some u.i) then
        -- R reads SRC; it writes DST as every member does
        let c := u.have_
        some (startStream s o (d.src + dataBytes d.ifmt (4 * d.chunk * c)) (dataBytes d.ifmt (d.bricksOf c)) (.copy (some u.i) c (o.dstAt u c).1))
      else match u.kids.findSome? (actKid s o u) with
        | some s' => some s'
        | none =>
          let over_ : Bool := if d.bcast then
              decide (d.nch ≤ u.have_) && u.kids.all fun k => k.out.isSome || (decide (d.nch ≤ k.sent) && !sendingTo s o k.mod)
            else u.freed == d.nch
          if u.isRoot s ∧ ¬ u.closed ∧ over_ then some (closeSub s o u (o.rootHdr u (membersOf s o.group)).bytes)
          else if u.closed ∧ u.kids.all fun k => decide (d.nch < k.sent) || (match k.out with | some e => e.1 == 4 | none => false) then
            some (setOp s { o with subs := o.subs.filter fun x => x.i != u.i, closed := o.closed + 1 })
          else none

/-! The ring (R296). -/

def nextMember (s : State) (g : Nat) : Nat := ofRank (membersOf s g) ((myRank s g + 1) % sizeOf_ s g)
def prevMember (s : State) (g : Nat) : Nat := ofRank (membersOf s g) ((myRank s g + sizeOf_ s g - 1) % sizeOf_ s g)

/-- Addresses in DST of chunk c of the block of a rank. -/
def COp.blockAt (o : COp) (rank c : Nat) : Nat × Nat :=
  let d := o.d
  let first := rank * d.nbrk + 4 * d.chunk * c
  (d.dst + dataBytes d.ofmt first, d.sdst + first)

/-- Chunks that a member sends in a ring pass, and receives. -/
def COp.ringTotal (o : COp) (s : State) : Nat := (sizeOf_ s o.group - 1) * o.d.nch

/-- The block that chunk g of the ring belongs to, as the rank that owns it, sent (0) or received (1) by this module. -/
def ringRank (s : State) (o : COp) (g off : Nat) : Nat :=
  let n := sizeOf_ s o.group
  (myRank s o.group + 2 * n - g / o.d.nch - off) % n

/-- A member writes its own header of a ring pass. -/
def ringHdr (s : State) (o : COp) : CHdr :=
  { chdrInit with step := o.step, seq := o.seq, gen := o.gen, contrib := membersOf s o.group, flags := o.headFlags,
                  chunks := o.d.nch }

/-- A ring pass's next step: step 0 copies SRC, then chunks go on as they are here (R296). -/
def actRing (s : State) (o : COp) : Option State :=
  let d := o.d
  let n := sizeOf_ s o.group
  if ¬ o.ringGo then
    let s := startStream s o d.src (dataBytes d.ifmt d.nbrk) (.copy none 0 (o.blockAt (myRank s o.group) 0).1)
    let s := setOp s { o with ringGo := true }
    some (if n ≤ 1 then s else sendCtl s (prevMember s o.group) (o.ctl 0 0 0))
  else
    let to_ := nextMember s o.group
    if sendingTo s o to_ then none
    else if o.ringSent < o.ringTotal s then
      if ¬ o.ringReady ∨ ¬ o.ringOwn ∨ ¬ (o.ringSent < d.nch ∨ o.ringSent < o.ringHave + d.nch) then none
      else match remoteBlocked s to_ colStream with
        | some st => some (failOp s o st [])
        | none =>
          let g := o.ringSent
          let m := d.bricksOf (g % d.nch)
          let a := o.blockAt (ringRank s o g 0) (g % d.nch)
          some (startStream (setOp s { o with ringSent := g + 1 }) o a.1 (dataBytes d.ofmt m) (.send to_ g (readBytes s a.2 (scaleBytes d.ofmt m))))
    else if o.ringHave < o.ringTotal s ∨ ¬ o.ringOwn then none
    else if o.closed = 0 then
      let h := ringHdr s o
      match colStore s d.hdr h.bytes with
      | .error st => some (failOp s o st [])
      | .ok g => some (setOp (lagSeen g.1 0 0) ({ o with flags := o.flags ||| h.flags, closed := 1 }.wakeAt s g.2))
    else if o.wake.isSome then none
    else some (endOp s o St.done)

/-! Scalar operations (R307, R308). -/

/-- Two values of a FRED combined: code and flags. -/
def fredCombine (fn typ a b : Nat) : Nat × Flags :=
  let sa := toSigned 64 a
  let sb := toSigned 64 b
  match fn with
  | 0 => if typ = 2 then let r := fp64.add .rne false (fp64.decode a) (fp64.decode b); (r.1, r.2 &&& colFlags) else ((a + b) % 2 ^ 64, 0)
  | 1 => if typ = 2 then let r := fp64.maxMin false a b; (r.1, r.2 &&& colFlags)
         else if typ = 0 then (if sb < sa then b else a, 0) else (min a b, 0)
  | 2 => if typ = 2 then let r := fp64.maxMin true a b; (r.1, r.2 &&& colFlags)
         else if typ = 0 then (if sa < sb then b else a, 0) else (max a b, 0)
  | 3 => (a &&& b, 0)
  | _ => (a ||| b, 0)

/-- The identity of a function and type (R136). -/
def fredIdent (fn typ : Nat) : Nat :=
  match fn with
  | 0 => 0
  | 1 => if typ = 2 then fp64.infCode else if typ = 0 then 2 ^ 63 - 1 else 2 ^ 64 - 1
  | 2 => if typ = 2 then fp64.signed true fp64.infCode else if typ = 0 then 2 ^ 63 else 0
  | 3 => 2 ^ 64 - 1
  | _ => 0

/-- Exclusions of a frit message in ascending module, each once. -/
def fritExcl (l : List (Nat × Nat)) : List (Nat × Nat) :=
  ((mergeExcl [] (l.map fun e => (e.2, e.1, 0))).map fun e => (e.2.1, e.1))

/-- What a node passes on (R307): its own values, then those of its children in ascending order. -/
def fritCombine (s : State) (o : COp) : FritMsg × Flags :=
  let d := o.d
  let b := membersOf s o.group
  let me := ownNo s
  let fn := if d.op = 8 then 5 else d.fn
  let own : Bool := o.badOwn = 0
  let vals := [d.src, d.ssrc, d.dst, d.sdst].take d.npart
  let kids := (childrenOf b d.root me).filter fun k => !(o.fOut.any fun e => e.1 == k)
  let ms := kids.filterMap fun k => (o.fUps.find? fun p => p.1 == k).map fun p => (k, p.2.2)
  let start : Option (List Nat) × Flags := if own then (some vals, 0) else (none, 0)
  let r := ms.foldl (fun (r : Option (List Nat) × Flags) m =>
    if m.2.ncontrib = 0 then r
    else match r.1 with
      | none => (some (m.2.vals.take d.npart), r.2)
      | some v =>
        let x := (List.zip v m.2.vals).map fun p => fredCombine d.fn d.ifmt p.1 p.2
        (some (x.map Prod.fst), r.2 ||| Fl.any (x.map Prod.snd))) start
  let excl := fritExcl ((if own then [] else [(1, me)]) ++
    (o.fOut.flatMap fun e => (e.2, e.1) :: (subtreeOf b d.root e.1).map fun m => (5, m)) ++ ms.flatMap fun m => m.2.excl)
  let nexcl := b2n (!own) + (o.fOut.map fun e => 1 + (subtreeOf b d.root e.1).length).sum + (ms.map fun m => m.2.nexcl).sum
  let lastKid := (o.fUps.filter fun p => kids.contains p.1 && decide (max (o.start.getD 0) (o.acc + 10) < p.2.1)).foldl
    (fun (m : Nat × Nat × Nat) p => if m.1 ≤ p.2.1 then (p.2.1, p.1, p.2.2.lagMod) else m) (0, me, me)
  let n := b2n own + (ms.map fun m => m.2.ncontrib).sum
  ({ group := o.group, gen := o.gen, opseq := o.seq, fn := fn, typ := if d.op = 8 then 0 else d.ifmt, nval := if d.op = 8 then 0 else d.npart,
     step := o.step, ncontrib := n, nexcl := nexcl, reasons := (ms.foldl (fun r m => r ||| m.2.reasons) (excl.foldl (fun r e => r ||| 2 ^ e.1) 0)) % 2 ^ 16,
     lagMod := lastKid.2.2,
     vals := match r.1 with | some v => v | none => List.replicate d.npart (fredIdent d.fn d.ifmt),
     excl := excl }, r.2 ||| (if own then 0 else o.badOwn))

/-- A member takes the DOWN message at cycle c, R the one that it sends: DOWN goes on; the result is written, and the record posted, 21 cycles
later. -/
def takeDown (s : State) (o : COp) (m : FritMsg) (c : Nat) : State :=
  let kids := childrenOf (membersOf s o.group) o.d.root (ownNo s)
  let s := kids.foldl (fun s k => sendFrit s (if o.d.root = ownNo s then c else c + 8) k (fritBytes m 2)) s
  let f := o.flags ||| Fl.cond (m.nexcl ≠ 0) Fl.excluded ||| Fl.cond (bit m.reasons 2) Fl.stepSkew |||
    Fl.cond (m.ncontrib = 0 ∧ o.d.op = 7) Fl.empty
  setOp s { o with flags := f, nexcl := m.nexcl, down := some m, wake := some (c + 21) }

/-- The result of a scalar operation is written: the record follows when it is committed (R308, R309). -/
def writeDown (s : State) (o : COp) (m : FritMsg) : State :=
  match colStore s o.d.hdr ((fritBytes m 2 ++ List.replicate 16 0).take 128) with
  | .error st => endOp s o st
  | .ok g =>
    let s := if m.step = o.step then g.1 else notice g.1 Fd.nColSkew
    let s := stepSeen s o m.step
    let o := { o with down := none }.wakeAt s g.2
    if o.wake.isSome then setOp s o else endOp s o St.done

/-- A node whose children have all answered, or are excluded, sends UP, or DOWN at R. -/
def actFrit (s : State) (o : COp) : Option State :=
  let b := membersOf s o.group
  let kids := childrenOf b o.d.root (ownNo s)
  let kidIn (k : Nat) : Bool := (o.fOut.any fun e => e.1 == k) || o.fUps.any fun p => p.1 == k
  if o.fSent ∨ ¬ kids.all kidIn then none
  else
    let r := fritCombine s o
    let base := max (o.start.getD 0) (o.acc + 10)
    let at_ := if kids.isEmpty then base else max base s.now + 8
    let s := if o.badOwn ≠ 0 then bump (notice s Fd.nColExcluded) Fd.colExclCount 1 else s
    let o := { o with fSent := true, flags := o.flags ||| r.2 }
    match parentOf b o.d.root (ownNo s) with
    | some p => some (setOp (sendFrit s at_ p (fritBytes r.1 1)) o)
    | none => some (takeDown (setOp s o) o r.1 at_)

/-- The OPEN of an R whose OP has constituents of another kind than this member's, or none here (R297). -/
def foreignOpen (s : State) (o : COp) : Option (Nat × ColCtl) :=
  if o.subs.any CSub.opened ∨ o.mismatch then none
  else match colGrp s o.group with
    | none => none
    | some x => x.opens.find? fun p =>
        let op := bits p.2.word0 31 28
        p.2.kind == 0 && p.2.opseq == o.seq && op != 0 && decide (op < 6) && (o.d.frit || o.d.op == 6 || (op == 4 || op == 5) != o.d.perRank) &&
          x.members.testBit p.2.modno && parentOf x.members p.2.modno (ownNo s) == some p.1

/-- A member whose OP is of another kind takes part in R's operation with its own contribution excluded as MISMATCH (R297). -/
def adopt (s : State) (o : COp) (m : ColCtl) : State :=
  setOp (endStreams s fun x => x.of o)
    { o with desc := followRoot o.desc m, mismatch := true, checked := true, checkEnd := some s.now, badOwn := 0, subs := [], begun := 0, closed := 0 }

/-- An operation's next step. -/
def actOp (s : State) (o : COp) : Option State :=
  if o.start.isNone then none
  else match foreignOpen s o with
    | some p => some (adopt s o p.2)
    | none =>
      if o.d.frit then (if o.down.isSome ∨ o.wake.isSome then none else actFrit s o)
      else if o.d.op = 6 then actRing s o
      else if o.begun < o.nsubs s ∧ o.begun - o.closed < 4 then
        let u := newSub s o o.begun
        let r := if o.overdue then lateSub s o u else (s, u)
        some (setOp r.1 { o with begun := o.begun + 1, subs := o.subs ++ [r.2] })
      else match o.subs.findSome? (actSub s o) with
        | some s' => some s'
        | none => if o.closed = o.nsubs s ∧ o.begun = o.nsubs s ∧ o.wake.isNone then some (endOp s o St.done) else none

/-- The operation of a group makes the progress that it can. -/
def progressLoop (g : Nat) : Nat → State → State
  | 0, s => s
  | n + 1, s =>
    match firstOp s g with
    | none => s
    | some o => match actOp s o with
      | none => s
      | some s' => if (firstOp s' g).map COp.seq = some o.seq then progressLoop g n s' else s'

def progress (s : State) (g : Nat) : State := progressLoop g 1048576 s

/-- A child whose UP disagrees with this member's STEP or with its own message is excluded, and why. -/
def upFault (o : COp) (m : FritMsg) : Option Nat :=
  let d := o.d
  let same : Bool := if d.op = 8 then m.fn = 5 else m.fn = d.fn ∧ m.typ = d.ifmt ∧ m.nval = d.npart
  if ¬ same then some 6 else if m.step ≠ o.step then some 2 else none

/-- The oldest operation of a group starts at a cycle, with what had come for it before. -/
def startOp (s : State) (o : COp) (c : Nat) : State :=
  match colGrp s o.group with
  | none => s
  | some x =>
    let ups := (x.ups.filter fun p => p.2.opseq == o.seq).map fun p => (p.1, c, p.2)
    let ring := x.opens.any fun p => p.2.opseq == o.seq && o.d.op == 6 && p.1 == nextMember s o.group
    let bad := ups.filterMap fun p => (upFault o p.2.2).map fun r => (p.1, r)
    let s := bad.foldl (fun s _ => bump (notice s Fd.nColExcluded) Fd.colExclCount 1) s
    let o := { o with start := some c, heard := c, ringReady := o.ringReady || ring, fOut := o.fOut ++ bad,
                      fUps := o.fUps ++ ups.filter fun p => (upFault o p.2.2).isNone }
    progress (setOp s o) o.group

/-! What happens in a cycle of its own. -/

/-- An operation's own event: a result is committed, a DOWN message is written. -/
def opWake (s : State) (g seq : Nat) : State :=
  match s.col.ops.find? fun o => o.group == g && o.seq == seq with
  | none => s
  | some o =>
    let o := { o with wake := none }
    let s := setOp s o
    match o.down with
    | some m => writeDown s o m
    | none => if o.d.frit then endOp s o St.done else progress s g

/-- The operation and constituent that a stream belongs to. -/
def subOf (o : COp) (i : Nat) : Option CSub := o.subs.find? fun u => u.i == i
def chunkOf (u : CSub) (c : Nat) : Option CChunk := u.chunks.find? fun x => x.c == c

/-- A KiB of a stream, bytes bs from position p on, does what it is for. -/
def kibIn (s : State) (o : COp) (x : ColStream) (p : Nat) (bs : List Byte) : State :=
  match x.use with
  | .check _ => s
  | .own i c _ => match subOf o i with
    | none => s
    | some u => match chunkOf u c with
      | none => s
      | some y =>
        let r := enterSlots s y s.now (if x.len ≤ p + bs.length then y.slots else (p + bs.length) / (4 * brickBytes3 o.d.ifmt))
        putChunk r.1 o u r.2
  | .leaf i c dst =>
    let b := membersOf s o.group
    let l2 : Bool := (subOf o i).any fun u => onL2 b u.root (ownNo s)
    if l2 then s else sendFrom s (s.now + 40) dst o.group (match subOf o i with | some u => o.index u c | none => 0) 0 p bs
  | .send dst g _ => sendFrom s (s.now + 40) dst o.group g 0 p bs
  | .copy _ _ to_ => match colStore s (to_ + p) bs with
    | .error st => failOp s o st []
    | .ok g => setOp g.1 (o.wakeAt s g.2)

/-- A part of a chunk is in all its slots: it is accumulated, and the next one is read, or the children follow. -/
def ownIn (s : State) (o : COp) (i c p : Nat) (data : List Byte) : State :=
  match subOf o i with
  | none => s
  | some u => match chunkOf u c with
    | none => s
    | some y =>
      let d := o.d
      let n := d.bricksOf c
      let r := accumulate d.fn y.acc (decodeChunk d.ifmt n data (readBytes s (o.partAt u p c).2 (scaleBytes d.ifmt n)))
      let y := { y with acc := r.1, fed := 0, reading := decide (p < d.npart), hdr := { y.hdr with flags := y.hdr.flags ||| r.2 } }
      let s := putChunk s o u y
      if p < d.npart then ownPart s o u c (p + 1) else s

/-- The finite check has read a part (R297). -/
def checkIn (s : State) (o : COp) (p : Nat) (data : List Byte) : State :=
  let d := o.d
  let n := data.length / brickBytes3 d.ifmt
  let f := finiteFlags d.ifmt n data (readBytes s (d.ssrc + p * d.pstr / 1024) (scaleBytes d.ifmt n))
  let o := { o with badOwn := o.badOwn ||| f, checkEnd := if p < d.npart then none else some s.now }
  let s := setOp s o
  if p < d.npart then checkPart s o (p + 1) else s

/-- A copy of SRC is in DST; its scale entries follow. -/
def copyIn (s : State) (o : COp) (sub : Option Nat) (c : Nat) : State :=
  let d := o.d
  match sub with
  | none =>
    match colStore s (o.blockAt (myRank s o.group) 0).2 (readBytes s d.ssrc (scaleBytes d.ofmt d.nbrk)) with
    | .error st => failOp s o st []
    | .ok g => setOp g.1 ({ o with ringOwn := true, bricks := d.nbrk }.wakeAt s g.2)
  | some i => match subOf o i with
    | none => s
    | some u =>
      let n := d.bricksOf c
      match colStore s (o.dstAt u c).2 (readBytes s (d.ssrc + 4 * d.chunk * c) (scaleBytes d.ofmt n)) with
      | .error st => failOp s o st []
      | .ok g => putSub g.1 ({ o with bricks := o.bricks + n }.wakeAt s g.2) { u with have_ := c + 1 }

/-- A stream has been read whole. -/
def streamIn (s : State) (o : COp) (x : ColStream) : State :=
  match x.use with
  | .check p => checkIn s o p x.buf
  | .own i c p => ownIn s o i c p x.buf
  | .leaf i c dst => match subOf o i with
    | none => s
    | some u => match chunkOf u c with
      | none => s
      | some y => leafUp s o u dst y x.buf
  | .send dst g scales => sendCells s dst o.group g 2 scales
  | .copy sub c _ => copyIn s o sub c

/-- The operation of a stream, while it is held. -/
def streamOp (s : State) (x : ColStream) : Option COp := s.col.ops.find? fun o => x.of o

/-- The next KiB of stream id is in: it crosses to the hub die, later where an output on the way is taken (R40), and does its work; in memory
that it may not touch it ends the operation (R348). -/
def colKib (s : State) (id : Nat) : State :=
  match s.col.streams.find? fun x => x.id == id with
  | none => s
  | some x => match streamOp s x with
    | none => endStream s x
    | some o =>
      let p := 1024 * x.done
      let n := min 1024 (x.len - p)
      let a := x.addr + p
      let r := if x.crossed then (s, 0) else carry s (dieOf a) 4 hubCol n s.now
      if 0 < r.2 then setStream r.1 { x with crossed := true, lag := x.lag + r.2 }
      else match accessStatus r.1 a n with
        | some st => failOp r.1 o st []
        | none =>
          let bs := readBytes r.1 a n
          let x := { x with done := x.done + 1, crossed := false, buf := match x.use with | .check _ | .own _ _ _ | .leaf _ _ _ => x.buf ++ bs | _ => [] }
          let s := kibIn (setStream r.1 x) o x p bs
          match streamOp s x with
          | none => s
          | some o => if x.done < x.kibs then s else progress (streamIn (endStream s x) o x) x.group

/-- The last cell of a chunk still waits at a port (R289). -/
def stillHere (s : State) (x : CChunk) : Bool :=
  match x.leaving with
  | none => true
  | some l => s.fma.ports.any fun q => q.2.wait.any fun w =>
      w.req == reqCol && w.cell.typ == 9 && w.cell.stream == colStream && w.cell.seq == l.1 && w.cell.dst == l.2

/-- A constituent whose chunks of which the last cell has left release their slots. -/
def CSub.release (s : State) (u : CSub) : CSub :=
  let l := u.chunks.filter (stillHere s)
  { u with chunks := l, freed := u.freed + (u.chunks.length - l.length) }

/-- Chunks whose last cell has left release their slots (R289). -/
def releaseSent (s : State) : State :=
  let gone := s.col.ops.filter fun o => o.subs.any fun u => u.chunks.any fun x => !stillHere s x
  let s := { s with col := { s.col with ops := s.col.ops.map fun o => { o with subs := o.subs.map (CSub.release s) } } }
  gone.foldl (fun s o => progress s o.group) s

/-- A chunk has been handed over and has not left. -/
def leavingAny (s : State) : Bool := s.col.ops.any fun o => o.subs.any fun u => u.chunks.any fun x => x.leaving.isSome

/-! Answers and NACKs at the source (R272, R273, R297). -/

/-- An answer belongs to a request unit of a kind. -/
def seqAhead (seq e : Nat) : Nat := (seq + 65536 - e) % 65536
def Pend.fits (p : Pend) (c : FabCell) : Bool :=
  p.stream == c.stream && p.dst == c.src && decide (seqAhead c.seq p.first ≤ seqAhead p.last p.first)

/-- An answer that comes after the record. -/
def orphan (s : State) : State := bump (notice s Fd.nFmaOrphan) Fd.fmaOrphanAcksCount 1

/-- The copy of a request unit changes. -/
def updCopy (s : State) (p : Pend) (f : Copy → Copy) : State :=
  match copyOf s p.stream p.copy with | some x => setCopy s p.stream (f x) | none => s

/-- It carries RETRIED from now on. -/
def markRetried (s : State) (p : Pend) (c : FabCell) : State := if c.rty then updCopy s p fun x => { x with retried := true } else s

/-- The record of a fetch-add (R279). -/
def faddPosting (tag acc status cyc count : Nat) (f : Flags) : Posting :=
  { unit := fmaPage, read := none, stop := none, acc := acc, notices := [], counts := [], flagPage := fmaPage
    errs := if 0x10 ≤ status then [fmaPage] else [], prod := prodFma, queue := Fd.fmaAqCq
    rec_ := { tag := tag, status := status, kind := Sk.pce, idx := 0x8010, cyc := cyc, detail := (cyc - acc) % 2 ^ 32, flags := f, count := count } }

/-- An outstanding request ends its operation with a status (R273). -/
def endRequest (s : State) (p : Pend) (status : Nat) (f : Flags) : State :=
  if p.kind = 2 then postNow (dropPends s fun x => x == p) (faddPosting p.unit p.acc status s.now 0 f)
  else failCopy s p.stream p.copy status

def cellResidue (c : FabCell) : Nat := bits (c.offset / 16) 25 24

/-- The chunk of the result in flight to a child: of those sent the last one whose cells carry the residue that the NACK repeats, or
the last (R297). -/
def downFlight (o : COp) (u : CSub) (k res : Nat) : Nat :=
  let sent := min o.d.nch ((u.kids.find? fun x => x.mod == k).elim 0 CChild.sent)
  ((List.range sent).reverse.find? fun c => o.index u c % 4 == res).getD (sent - 1)

/-- A NACK on the collective stream: a child that cannot be reached is excluded as DOWN, a parent or the next member of a ring
ends the operation. -/
def collNack (s : State) (n : FabCell) : State :=
  let src := n.src
  let status := n.status
  let hit (o : COp) : Bool := o.start.isSome && !o.d.frit &&
    (if o.d.op = 6 then nextMember s o.group == src
     else o.subs.any fun u => u.parent s o == some src || u.kids.any fun k => k.mod == src && k.out.isNone)
  let ops := s.col.ops.filter hit
  if ops.isEmpty then orphan s
  else ops.foldl (fun s o =>
    if o.d.op = 6 ∨ o.subs.any fun u => u.parent s o == some src && !u.closed then failOp s o status [src]
    else
      let s := o.subs.foldl (fun s u =>
        match findOp s o.group o.gen o.seq with
        | none => s
        | some p => match p.subs.find? fun v => v.i == u.i && v.kids.any fun k => k.mod == src && k.out.isNone with
          | none => s
          | some v =>
            let e := excludeKid s p v src 4 (if p.d.reduces then v.inFlight src else downFlight p v src (cellResidue n))
            putSub e.1 p e.2) s
      progress s o.group) s

/-- A NACK reaches this module (R272, R273): the next cell on the stream carries SYNC, and the operation ends. -/
def nacked (s : State) (c : FabCell) : State :=
  let s := markSync (bump s Fd.fmaNacksCount 1) c.stream c.src
  if c.stream = colStream then collNack s c
  else match s.fma.pend.find? fun p => p.fits c with
    | none => orphan s
    | some p => endRequest (markRetried s p c) p c.status (Fl.cond c.rty Fl.retried)

/-- The first NACK of the own router (R269). -/
def takeSelfNack (s : State) : State :=
  match s.fma.selfNacks with
  | [] => s
  | p :: l => nacked { s with fma := { s.fma with selfNacks := l } } p.2

end Sys2Proof.Machine
end

