-- ==== Sys2Proof/Machine/Enq.lean ====
section
/-! DEFINITION. The enqueue port of the queue manager (R330, R331, R333, R338): cells that ask for it are granted one in a clock cycle, in
round-robin order of their producers, and meet their queues. -/

namespace Sys2Proof.Machine

/-- Cells of an incomplete item return to the pool. -/
def dropPart (s : State) (q src : Nat) : State :=
  let x := queue s q
  let l := (x.parts.filter fun p => p.src == src).flatMap QPart.cells
  freeCells (setQueue s q { x with parts := x.parts.filter fun p => p.src != src }) l

/-- A cell enqueued in cycle g and added to the incomplete item of a source; the last of n makes the item readable from the
next cycle. -/
def addPart (s : State) (q src prio n g : Nat) (pay : List Byte) : State :=
  let r := allocCell s (pad64 pay)
  let s := r.1
  let x := queue s q
  let have_ := (x.parts.filter fun p => p.src == src).flatMap QPart.cells
  let l := have_ ++ [r.2]
  let rest := x.parts.filter fun p => p.src != src
  if l.length = n then addItem (setQueue s q { x with parts := rest }) q ⟨prio, l, n, g + 1⟩
  else setQueue s q { x with parts := rest ++ [⟨src, prio, l⟩] }

/-! Plan descriptors (R338). -/

def PlanEnq.w0 (p : PlanEnq) : Nat := dword p.desc 0
def PlanEnq.prio (p : PlanEnq) : Nat := bits p.w0 27 25
def PlanEnq.pkt (p : PlanEnq) : Bool := bit p.w0 24
def PlanEnq.ncell (p : PlanEnq) : Nat := bits p.w0 22 16
def PlanEnq.queue (p : PlanEnq) : Nat := bits p.w0 11 0
def PlanEnq.src (p : PlanEnq) : Nat := bits (dword p.desc 1) 22 0

/-- Its number as the source of an incomplete item. -/
def PlanEnq.part (p : PlanEnq) : Nat := 2 ^ 20 + 64 * p.acc + p.tile

/-- The plan descriptor of a tile that was accepted in clock cycle acc. -/
def planOf (s : State) (t acc : Nat) : Option PlanEnq := s.qmu.plans.find? fun p => p.tile == t && p.acc == acc
def setPlan (s : State) (p : PlanEnq) : State :=
  { s with qmu := { s.qmu with plans := s.qmu.plans.map fun x => if x.tile = p.tile ∧ x.acc = p.acc then p else x } }

/-- The clock cycle in which its next cell is read (R338). -/
def PlanEnq.readAt (p : PlanEnq) : Option Nat := p.read.map fun c => movedFrom p.lost (if p.sent = 0 then p.acc else c) c

/-- The next cell of a plan descriptor is read; it asks for the port from the next cycle on (R338). -/
def readPlan (s : State) (p : PlanEnq) : State :=
  match p.readAt with
  | none => s
  | some c =>
    let pay := readBytes s (tileBase p.tile + p.src + 64 * p.sent) 64
    askEnq (setPlan s { p with read := none }) p.tile p.queue p.prio (c + 1) pay 2 p.acc

/-- A cell of a plan descriptor meets its queue in clock cycle g (R338); the next one is read in the same cycle, so that every cycle of a wait
moves it. -/
def planMeets (s : State) (p : PlanEnq) (g : Nat) (pay : List Byte) : State :=
  let n := p.sent + 1
  let p' := { p with sent := n, read := if n < p.ncell then some g else none, due := g + 1 }
  if p.bad || !accepts s p.queue then
    let s := bump s Fd.qmuDisDropCount 1
    let s := if p.pkt then dropPart s p.queue p.part else s
    setPlan s { p' with bad := p.pkt }
  else
    setPlan (addPart s p.queue p.part p.prio (if p.pkt then p.ncell else 1) g pay) { p' with good := p.good + 1 }

/-! Host packets (R330, R331). -/

/-- Source number of host packets. -/
def srcHost : Nat := 4096

/-- A cell from the host meets its queue in clock cycle g. -/
def hostMeets (s : State) (q g : Nat) (pay : List Byte) : State :=
  let x := queue s q
  let n := rd s (Fd.qmuQcfgHpktm1 q) + 1
  let have_ := ((x.parts.filter fun p => p.src == srcHost).flatMap QPart.cells).length
  let count (s : State) (drop : Nat) : State :=
    let y := queue s q
    setQueue s q (if x.hostCount + 1 = n then { y with hostCount := 0, hostDrop := 0 }
      else { y with hostCount := x.hostCount + 1, hostDrop := drop })
  if ¬ accepts s q then count (bump (dropPart s q srcHost) Fd.qmuDisDropCount (have_ + 1)) 2
  else if x.hostDrop = 2 then count (bump s Fd.qmuDisDropCount 1) 2
  else if x.hostDrop = 1 ∨ ¬ roomIn s q then
    count (notice (bump (dropPart s q srcHost) Fd.qmuHostDropCount (have_ + 1)) Fd.nQmuHostdrop) 1
  else count (addPart s q srcHost (rd s (Fd.qmuQcfgHprio q)) n g pay) 0

/-! Grants (R331, R333). -/

/-- The cell that each producer asks for: its oldest. -/
def enqHeads (l : List EnqReq) : List EnqReq :=
  l.foldl (fun hs w => if hs.any fun h => h.producer == w.producer then hs else hs ++ [w]) []

/-- Nothing but the port keeps a cell: it finds room, or is discarded. A cell of the host never waits for room. -/
def EnqReq.ready (s : State) (w : EnqReq) : Bool :=
  w.kind == 1 || !accepts s w.queue || roomIn s w.queue ||
    w.kind == 2 && (match planOf s w.producer w.plan with | some p => p.bad | none => true)

/-- The clock cycle of the next grant: cycles that have been counted are over. -/
def nextGrant (s : State) : Option Nat :=
  (((enqHeads s.qmu.waiting).filter (EnqReq.ready s)).foldl (fun m w => match m with
    | none => some w.since
    | some c => some (min c w.since)) none).map (max (max s.qmu.enqFree s.qmu.counted))

/-- QMU_ENQ_WAIT brought up to clock cycle c (R331): each producer whose cell finds no room adds 1 in each cycle. -/
def countEnqWait (s : State) (c : Nat) : State :=
  let l := (enqHeads s.qmu.waiting).filter fun w => !w.ready s
  let n := (l.map fun w => c - max w.since s.qmu.counted).sum
  let s := if n = 0 then s else bump s Fd.qmuEnqWaitCount n
  { s with qmu := { s.qmu with counted := max c s.qmu.counted } }

/-- A cell meets its queue in clock cycle g. -/
def meetQueue (s : State) (w : EnqReq) (g : Nat) : State :=
  match w.kind with
  | 0 =>
    if accepts s w.queue then
      let r := allocCell s w.pay
      addItem r.1 w.queue ⟨w.prio, [r.2], 1, g + 1⟩
    else bump s Fd.qmuDisDropCount 1
  | 1 => hostMeets s w.queue g w.pay
  | _ => match planOf s w.producer w.plan with
    | some p => planMeets s p g w.pay
    | none => s

/-- The port's grant of clock cycle c (R333): of the cells that ask the first in turn from the pointer on meets its queue, each other one loses
the cycle; behind the granted cell the producer's next one asks from the next cycle on. -/
def grantEnq (s : State) (c : Nat) : State :=
  let l := (enqHeads s.qmu.waiting).filter fun w => w.ready s && decide (w.since ≤ c)
  let turn (w : EnqReq) : Nat := (w.producer + 78 - s.qmu.enqPtr % 78) % 78
  let first := l.foldl (fun m w => match m with
    | none => some w
    | some v => if turn w < turn v then some w else some v) none
  match first with
  | none => s
  | some w =>
    let s := countEnqWait s (c + 1)
    let s := if l.length ≤ 1 then s else bump s Fd.qmuArbWaitCount (l.length - 1)
    let rest := (s.qmu.waiting.erase w).map fun v => if v.producer = w.producer then { v with since := max v.since (c + 1) } else v
    meetQueue { s with qmu := { s.qmu with waiting := rest, enqPtr := w.producer + 1, enqFree := c + 1 } } w c

end Sys2Proof.Machine
end

