-- ==== Sys2Proof/Machine/Ftu.lean ====
section
/-! DEFINITION. The function table unit: APPLY and APPLY_DONE (R140 to R146). The exact value of a function is computed
to some 200 bits; the table's value is that value rounded, off by a free number of last places within the bound of R141
(log entry 2). -/

namespace Sys2Proof.Machine

def ftuPage (t : Nat) : Nat := tilePage t 4

/-! Fixed-point reals: integers in units of 2^-512. -/

def fxP : Nat := 512
def fxOne : Int := (2 ^ 512 : Nat)
def fxMul (a b : Int) : Int := a * b / fxOne
def fxDiv (a b : Int) : Int := a * fxOne / b
/-- A dyadic number, dropped below 2^-512. -/
def fxOf (d : Dy) : Int :=
  let k := d.e + 512
  if 0 ≤ k then d.n * (2 ^ k.toNat : Nat) else d.n / (2 ^ (-k).toNat : Nat)
def fxDy (x : Int) : Dy := ⟨x, -512⟩

/-- Sum of z^(2k+1) / (2k+1), signs alternating for the arc tangent: p is the running power. -/
def fxAtanAux (alt : Bool) (z2 : Int) : Nat → Nat → Int → Int → Int
  | 0, _, _, acc => acc
  | n + 1, k, p, acc =>
    let term := p / (2 * k + 1 : Nat)
    fxAtanAux alt z2 n (k + 1) (fxMul p z2) (if alt && k % 2 == 1 then acc - term else acc + term)
def fxAtanh (z : Int) : Int := fxAtanAux false (fxMul z z) 170 0 z 0
def fxAtan (z : Int) : Int := fxAtanAux true (fxMul z z) 170 0 z 0

def fxLn2 : Int := 2 * fxAtanh (fxOne / 3)
def fxPi : Int := 16 * fxAtan (fxOne / 5) - 4 * fxAtan (fxOne / 239)
def fxSqrt (x : Int) : Int := (isqrt (x.toNat * 2 ^ 512) : Int)

/-- Sum of r^k / k! -/
def fxExpAux (r : Int) : Nat → Nat → Int → Int → Int
  | 0, _, _, acc => acc
  | n + 1, k, p, acc => fxExpAux r n (k + 1) (fxMul p r / (k + 1 : Nat)) (acc + p)
def fxExp (x : Int) : Int :=
  let k := x / fxLn2
  let e := fxExpAux (x - k * fxLn2) 110 0 fxOne 0
  if 0 ≤ k then e * (2 ^ k.toNat : Nat) else e / (2 ^ (-k).toNat : Nat)

/-- log (1 + u) for 0 ≤ u ≤ 1. -/
def fxLog1p (u : Int) : Int := 2 * fxAtanh (fxDiv u (2 * fxOne + u))

/-- Sum of x^(2n+1) / (2n+1)!!, the series of the normal integral. -/
def fxGaussAux (x2 : Int) : Nat → Nat → Int → Int → Int
  | 0, _, _, acc => acc
  | n + 1, k, p, acc => fxGaussAux x2 n (k + 1) (fxMul p x2 / (2 * k + 3 : Nat)) (acc + p)

def fxClamp (l x : Int) : Int := max (-(l * fxOne)) (min (l * fxOne) x)
/-- The normal density at x. -/
def fxPdf (x : Int) : Int := fxDiv (fxExp (-(fxMul x x / 2))) (fxSqrt (2 * fxPi))
/-- The normal distribution at x, |x| ≤ 20. -/
def fxCdf (x : Int) : Int := fxOne / 2 + fxMul (fxPdf x) (fxGaussAux (fxMul x x) 1200 0 x 0)
def fxSig (x : Int) : Int :=
  if 0 ≤ x then fxDiv fxOne (fxOne + fxExp (-x)) else let e := fxExp x; fxDiv e (fxOne + e)
def fxTanh (x : Int) : Int :=
  let a : Int := x.natAbs
  let e := fxExp (-(2 * a))
  let r := fxDiv (fxOne - e) (fxOne + e)
  if x < 0 then -r else r
/-- erf x for |x| ≤ 14: the normal integral at x times the root of 2, as a series of its own. -/
def fxErf (x : Int) : Int :=
  2 * fxMul (fxDiv (fxExp (-(fxMul x x))) (fxSqrt fxPi)) (fxGaussAux (2 * fxMul x x) 1200 0 x 0)

/-- n * 2^e / (m * 2^f) with a sticky last bit. -/
def ratDy (n : Int) (e : Int) (m : Nat) (f : Int) : Dy :=
  let k := 300 + m.log2
  let a := n.natAbs <<< k
  let q : Nat := 2 * (a / m) + (if a % m = 0 then 0 else 1)
  ⟨if n < 0 then -(q : Int) else q, e - f - k - 1⟩

/-- 1 / sqrt (m * 2^e) with a sticky last bit. -/
def rsqrtDy (m : Nat) (e : Int) : Dy :=
  let (m, e) := if e % 2 = 0 then (m, e) else (2 * m, e - 1)
  let k := 300 + m.log2
  let a := 2 ^ (2 * k) / m
  let r := isqrt a
  let st := if a * m = 2 ^ (2 * k) ∧ r * r = a then 0 else 1
  ⟨(2 * r + st : Nat), -e / 2 - k - 1⟩

/-- The real value of function fn or its derivative at a nonzero finite x = n * 2^e (R140), to some 200 bits. -/
def ftuReal (fn : Nat) (der : Bool) (x : Dy) : Dy :=
  let v := fxClamp 256 (fxOf x)
  let g := fxClamp 20 (fxOf x)
  let xv (y : Int) : Dy := x.mul (fxDy y)
  match fn, der with
  | 0, _ => if x.lt ⟨-256, 0⟩ then ⟨1, -400⟩ else if Dy.lt ⟨256, 0⟩ x then ⟨1, 400⟩ else fxDy (fxExp v)
  | 1, false =>
    let k : Int := x.e + x.n.natAbs.log2
    let m := fxOf ⟨x.n, x.e - k⟩
    fxDy (k * fxLn2 + fxLog1p (m - fxOne))
  | 1, true => ratDy x.n.sign 0 x.n.natAbs x.e
  | 2, false => fxDy (fxSig v)
  | 2, true => fxDy (fxMul (fxSig v) (fxSig (-v)))
  | 3, false => fxDy (fxTanh v)
  | 3, true => fxDy (fxOne - fxMul (fxTanh v) (fxTanh v))
  | 4, false => xv (fxCdf g)
  | 4, true => (fxDy (fxCdf g)).add (xv (fxPdf g))
  | 5, false => xv (fxSig v)
  | 5, true => (fxDy (fxSig v)).add (xv (fxMul (fxSig v) (fxSig (-v))))
  | 6, false =>
    let a := fxDy (fxLog1p (fxExp (-(v.natAbs : Int))))
    if x.n < 0 then a else x.add a
  | 6, true => fxDy (fxSig v)
  | 7, false => fxDy (fxErf (fxClamp 14 (fxOf x)))
  | 7, true => fxDy (2 * fxDiv (fxExp (-(fxMul g g))) (fxSqrt fxPi))
  | 8, false => ratDy x.n.sign 0 x.n.natAbs x.e
  | 8, true => ratDy (-1) 0 (x.n.natAbs * x.n.natAbs) (2 * x.e)
  | 9, false => rsqrtDy x.n.natAbs x.e
  | _, _ =>
    let r := rsqrtDy x.n.natAbs x.e
    ⟨-r.n * 2 ^ 300 / x.n, r.e - x.e - 301⟩

/-- A code of a format moved by o places along the number line; beyond the infinity it stays there. -/
def moveCode (f : Fmt) (code : Nat) (o : Int) : Nat :=
  let mag : Int := code % 2 ^ (f.eb + f.mb)
  let x : Int := (if code.testBit (f.eb + f.mb) then -mag else mag) + o
  f.signed (x < 0) (min x.natAbs f.infCode)

/-- A value h of a format stands for the exact value v within the bound of R141: less than 1 last place of v in BF16, at most 2 in FP32. -/
def ftuWithin (f : Fmt) (v : Dy) (h : Fp) : Bool :=
  let u : Int := max (v.e + v.n.natAbs.log2 - f.mb) f.minExp
  let d := (h.dy.sub v).abs
  h.isFin && (if f.mb = 7 then d.lt ⟨1, u⟩ else d.le ⟨1, u + 1⟩)

/-- The code of the table's value for the exact value v: the correctly rounded code r moved by slip, where that stays within the bound. The
sign of a zero for a negative v is not stated (log entry 2). -/
def ftuCode (f : Fmt) (v : Dy) (r : Nat) (slip : Int) (negZero : Bool) : Nat :=
  let c := moveCode f r slip
  let c := if ftuWithin f v (f.decode c) then c else r
  if c % 2 ^ (f.eb + f.mb) = 0 then f.signed (v.n < 0 && negZero) 0 else c

/-- The asymptote that a function of a bounded interval, or its derivative, has outside it (R140). The spec gives no interval; every one
ends below |x| = 256 (DESIGN CHOICE, log entry 2). -/
def ftuAsymptote (fn : Nat) (der : Bool) (neg : Bool) (x : Fp) : Option Fp :=
  let zero : Fp := .fin false 0 0
  if fn < 2 ∨ 7 < fn then none
  else if der then some (if 4 ≤ fn ∧ fn ≤ 6 ∧ ¬ neg then Fp.one else zero)
  else match fn with
    | 2 => some (if neg then zero else Fp.one)
    | 3 | 7 => some (.fin neg 1 0)
    | _ => some (if neg then zero else x)

/-- What the tables give (R141, R142): an FP32 value, or at the end of a BF16 result without MUL a BF16 value; its flags.
held is fp32 or bf16. -/
def ftuValue (held : Fmt) (fn : Nat) (der : Bool) (code : Nat) (x : Fp) : Fp × Flags :=
  let kind := if held.mb = 7 then 1 else 0
  let one : Fp := Fp.one
  let half (k : Int) : Fp := .fin false 1 k
  let z (n : Bool) : Fp := .fin n 0 0
  let rounded (d : Dy) : Fp := held.decode (held.roundDy .rne false false d).1
  match x with
  | .nan _ => (.nan false, x.inFlags)
  | .inf false =>
    (if der then (match fn with
        | 0 => .inf false | 4 => one | 5 => one | 6 => one | 8 => z true | 9 => z true | _ => z false)
      else match fn with
        | 2 => one | 3 => one | 7 => one | 8 => z false | 9 => z false | _ => .inf false, 0)
  | .inf true =>
    if fn = 1 ∨ fn = 9 then (.nan false, Fl.inv)
    else (if der then (if fn = 8 then z true else z false)
      else match fn with
        | 3 => .fin true 1 0 | 7 => .fin true 1 0 | 4 => z true | 5 => z true | 8 => z true | _ => z false, 0)
  | .fin neg m e =>
    if m = 0 then
      match fn, der with
      | 0, _ => (one, 0)
      | 1, false => (.inf true, Fl.dz)
      | 1, true => (if neg then held.decode (Config.ftuSlip fn der code (2 + kind) % 2 ^ held.width) else .inf false, Fl.dz)
      | 2, d => (half (if d then -2 else -1), 0)
      | 3, true => (one, 0)
      | 4, true => (half (-1), 0)
      | 5, true => (half (-1), 0)
      | 6, false => (rounded (fxDy fxLn2), 0)
      | 6, true => (half (-1), 0)
      | 7, true => (rounded (fxDy (2 * fxDiv fxOne (fxSqrt fxPi))), 0)
      | 8, false => (.inf neg, Fl.dz)
      | 8, true => (.inf true, Fl.dz)
      | 9, false => (.inf neg, Fl.dz)
      | 9, true => (if neg then held.decode (Config.ftuSlip fn der code (2 + kind) % 2 ^ held.width) else .inf true, Fl.dz)
      | _, _ => (z neg, 0)
    else if neg ∧ (fn = 1 ∨ fn = 9) then (.nan false, Fl.inv)
    else
      let d : Dy := ⟨if neg then -(m : Int) else m, e⟩
      -- log 1 = +0 is exact
      let far := if Dy.le ⟨256, 0⟩ d.abs then ftuAsymptote fn der neg x else none
      if fn = 1 ∧ ¬ der ∧ d.sub ⟨1, 0⟩ = ⟨0, (d.sub ⟨1, 0⟩).e⟩ then (z false, 0)
      else if far.isSome then
        let y := far.getD x
        let r := held.put .rne false y
        (held.decode r.1, r.2 &&& (Fl.ovf ||| Fl.unf))
      else
        let v := ftuReal fn der d
        let r := held.roundDy .rne false false v
        let slip : Int := if kind = 1 then (Config.ftuSlip fn der code 1 % 3 : Nat) - 1 else (Config.ftuSlip fn der code 0 % 5 : Nat) - 2
        let c := ftuCode held v r.1 slip (Config.ftuSlip fn der code (4 + kind) % 2 == 1)
        let h := held.decode c
        let tiny : Bool := match h with | .fin .. => c % 2 ^ (held.eb + held.mb) < 2 ^ held.mb | _ => false
        (h, Fl.cond h.isInf Fl.ovf ||| Fl.cond (tiny && (h.dy.sub v).n != 0) Fl.unf)

/-- The checks of R144. -/
def ApplyD.check (d : ApplyD) : Option Nat :=
  if d.rsv ∨ d.op ≠ 1 ∨ d.fn ≥ 10 then some St.badDesc
  else if d.nb = 0 then some St.doneEmpty
  else if ¬ inMarver d.xAddr (d.nb * 1024 * d.inSize) ∨ ¬ inMarver d.yAddr (d.nb * 1024 * d.outSize)
      ∨ (d.mul ∧ ¬ inMarver d.gAddr (d.nb * 1024 * d.inSize)) ∨ d.xAddr % 1024 ≠ 0 ∨ d.yAddr % 1024 ≠ 0
      ∨ d.gAddr % 1024 ≠ 0 then some St.badAddr
  else none

/-- One output element (R141 to R143): the table's value, the product with the multiplier, one rounding by RNE, flushed
under FTZ; no INX. With MUL = 1 a held f(x) that is tiny sets no UNF of its own, and one beyond FP32 sets OVF where the element is
infinite; a NaN f(x) of an invalid input is a NaN operand of the product and sets NAN_IN beside INV (the spec leaves both open: the
model's choices, log entry 2). -/
def ftuElem (d : ApplyD) (num xc gc : Nat) : Nat × Flags :=
  let ftz := numFtz num
  let fi := if d.ifp then fp32 else bf16
  let fo := if d.ofp then fp32 else bf16
  let x := fi.flushIn ftz xc
  let code := if d.ifp then x.1 else x.1 * 65536
  let v := ftuValue (if d.mul || d.ofp then fp32 else bf16) d.fn d.der code (fi.decode x.1)
  if d.mul then
    let g := fi.flushIn ftz gc
    let p := v.1.mulExact (fi.decode g.1)
    let r := fo.put .rne ftz p.1
    let own := v.2 &&& ~~~ (Fl.unf ||| Fl.cond (fo.decode r.1).isFin Fl.ovf)
    (r.1, (r.2 ||| p.2 ||| own ||| x.2 ||| g.2) &&& ~~~ Fl.inx)
  else
    let r := fo.put .rne ftz v.1
    (r.1, (r.2 ||| v.2 ||| x.2) &&& ~~~ Fl.inx)

/-- Output brick i, its element codes and flags, from what the operation has read (R144). -/
def ftuBrick (s : State) (t : Nat) (a : Apply) (i : Nat) : List (Nat × Flags) :=
  let d := applyD a.desc
  let part (key base j : Nat) : Nat :=
    leNat (brickPart s t a.snap { key := key, off := base + i * 1024 * d.inSize, len := 1024 * d.inSize, soff := 0, slen := 0, cyc := 0 }
      (j * d.inSize) d.inSize)
  (List.range 1024).map fun j => ftuElem d a.num (part (4 * i) d.xAddr j) (if d.mul then part (4 * i + 1) d.gAddr j else 0)

/-- A record of the FTU (R146), with the counters and notices of R147. -/
def ftuPosting (t tag status acc cyc detail : Nat) (flags : Flags) (count : Nat) : Posting :=
  { unit := ftuPage t, read := none, stop := none, acc := acc
    notices := if isReject status then [Fd.nFtuReject t] else if status = St.abandoned then [Fd.nFtuAbandon t] else []
    counts := if status = St.done then [Fd.ftuOpsCount t] else []
    flagPage := ftuPage t, errs := if isReject status || status == St.abandoned then [ftuPage t] else []
    prod := prodTile t, queue := Fd.grnCqQueue t
    rec_ := { tag := tag, status := status, kind := Sk.grn, idx := 0x8000 + t, cyc := cyc, detail := detail, flags := flags, count := count } }

/-! The schedule (R145). -/

/-- An event that stands at cycle o after acceptance without any loss. -/
def Apply.event (a : Apply) (o : Nat) : Nat := moved a.lost (a.acc + o)
/-- The clock cycle after the last write cycle of output brick i, and that of posting. -/
def Apply.end_ (a : Apply) (i : Nat) : Nat := a.event (26 + (i + 1) * (applyD a.desc).cc) + 1
def Apply.due (a : Apply) : Nat := a.end_ ((applyD a.desc).nb - 1)

/-- An operation of a tile changed; operations are told apart by their acceptance. -/
def updApply (s : State) (t : Nat) (a : Apply) (f : Apply → Apply) : State :=
  updTile s t fun x => { x with applies := x.applies.map fun w => if w.acc = a.acc then f w else w }

/-- The next output brick of an operation is written (R143, R144). -/
def writeApply (s : State) (t : Nat) (a : Apply) : State :=
  let d := applyD a.desc
  let b := ftuBrick s t a a.written
  let n := (b.filter fun x => !((if d.ofp then fp32 else bf16).decode x.1).isFin).length
  let s := updApply s t a fun w =>
    { w with written := a.written + 1, flags := a.flags ||| Fl.any (b.map Prod.snd), nonfin := a.nonfin + n }
  store s (tileBase t + d.yAddr + a.written * 1024 * d.outSize) (b.flatMap fun x => leBytes d.outSize x.1)

/-- The first clock cycle at which the operation behind is accepted (R145). -/
def Apply.next (a : Apply) : Nat := a.event ((applyD a.desc).nb * (applyD a.desc).cc)

/-- The record of an operation posted at clock cycle cyc (R146). -/
def applyRecord (s : State) (t : Nat) (a : Apply) (status cyc : Nat) : State :=
  postNow s (ftuPosting t a.tag status a.acc cyc (detail3 (cyc - a.acc) a.nonfin (lostIn a.lost 0 cyc)) a.flags a.written)

/-- An operation that has written its last brick posts DONE (R145, R146). -/
def finishApply (s : State) (t : Nat) (a : Apply) : State :=
  let s := updTile s t fun x => { x with applies := x.applies.filter fun w => w.acc != a.acc, ftuNext := max x.ftuNext a.next }
  applyRecord s t a St.done a.due

/-- One stopped operation: it keeps the bricks written and posts ABANDONED at clock cycle c (R146). -/
def abandonApply (t c : Nat) (s : State) (a : Apply) : State := applyRecord s t a St.abandoned c

/-- Every FTU operation of a tile stops at clock cycle c (R30, R146): one that is done by then posts DONE, the others ABANDONED. -/
def stopApply (t c : Nat) (s : State) (a : Apply) : State := if a.due ≤ c then finishApply s t a else abandonApply t c s a
def abandonFtu (s : State) (t c : Nat) : State :=
  updTile (stopChecks ((tile s t).applies.foldl (stopApply t c) s) c (· == ftuPage t)) t fun x => { x with applies := [], ftuNext := 0 }

/-! The commands. -/

/-- The first clock cycle at which the FTU accepts its next descriptor, as far as the operations ahead decide it (R145). -/
def Tile.ftuFrom (x : Tile) : Nat := (x.applies.map Apply.next).foldl max x.ftuNext

/-- The FTU has read an issued descriptor (R143 to R145): of a rejected or empty one the record follows at cycle 10. -/
def acceptApply (s : State) (t : Nat) (i : Issue) : State :=
  let bytes := readBytes s (tileBase t + i.desc) 32
  match (applyD bytes).check with
  | some st =>
    let s := updTile s t fun x => { x with ftuNext := x.ftuFrom.max (i.cyc + 1) }
    postLater s { ftuPosting t i.tag st i.cyc (i.cyc + 10) (detail3 10 0 0) 0 0 with
      read := some i.desc, stop := some (Fd.nFtuAbandon t) }
  | none =>
    let a : Apply :=
      { desc := bytes, place := i.desc, tag := i.tag, acc := i.cyc, num := tileNum s t, lost := [], written := 0, flags := 0, nonfin := 0, snap := [] }
    updTile s t fun x => { x with applies := x.applies ++ [a] }

end Sys2Proof.Machine
end

