-- ==== Sys2Proof/Machine/Matrix.lean ====
section
/-! DEFINITION. The matrix array (04_matrix_array.md, 05_split_precision.md): the schedule of an accepted sweep, the output bricks it
writes, its record, and what stops its sweeps (R83, R89). -/

namespace Sys2Proof.Machine

def mxaPage (t : Nat) : Nat := tilePage t 1

/-- A completion record of the MXA (R88), with the counters and notices of R91. -/
def mxaPosting (t tag status acc cyc detail : Nat) (flags : Flags) (count : Nat) : Posting :=
  { unit := mxaPage t, read := none, stop := none, acc := acc
    notices := if isReject status then [Fd.nMxaReject t] else if status = St.abandoned then [Fd.nMxaAbandon t] else []
    counts := if status = St.done then [Fd.mxaOpsCount t] else []
    flagPage := mxaPage t, errs := if isReject status || status == St.notPresent || status == St.abandoned then [mxaPage t] else []
    prod := prodTile t, queue := Fd.mxaCqQueue t
    rec_ := { tag := tag, status := status, kind := Sk.mxa, idx := t, cyc := cyc, detail := detail, flags := flags, count := count } }

/-! The schedule (R84 to R87, R102, R103). -/

/-- Write cycles of an output brick (R85, R103). -/
def SweepD.writeCc (d : SweepD) : Nat := 2 * d.eo

/-- The output positions in readout order. -/
def SweepD.positions (d : SweepD) : List (Nat × Nat) :=
  (List.range d.mb).flatMap fun bi => (List.range d.nb).map fun bj => (bi, bj)

/-- The clock cycle after the last step of a sweep entered the array edge. -/
def Sweep.streamed (w : Sweep) : Nat := movedFrom w.lost w.edge (w.edge + (sweepD w.desc).steps - 1) + 1

/-- The clock cycle from which output brick (bi, bj) is ready (R84, R102). -/
def Sweep.ready (w : Sweep) (bi bj : Nat) : Nat :=
  let d := sweepD w.desc
  movedFrom w.lost w.edge (w.edge + d.steps + (if d.split then 85 else 64) + 32 * (bi + bj))

/-- Steps of a sweep that entered the edge before clock cycle c (R91). -/
def Sweep.stepsBy (w : Sweep) (c : Nat) : Nat := min (sweepD w.desc).steps (c - w.edge - lostIn w.lost w.edge c)

/-- The first clock cycle at which the sweep behind is accepted (R84, R86). -/
def Sweep.next (w : Sweep) : Nat := moved w.lost (w.acc + (sweepD w.desc).steps)

/-- The schedule of a sweep: step 0 follows its own lead and the last step ahead of it, which ended before clock cycle a (R84, R86, R102);
its bricks are written one after another behind the readout ahead of it, which ended before clock cycle b (R85), and its record follows the
last of them. -/
def Sweep.plan (w : Sweep) (a b : Nat) : Sweep :=
  let d := sweepD w.desc
  let w := { w with edge := max (moved w.lost (w.acc + d.lead)) (max w.after a) }
  let ends := if d.readout then writeEnds d.writeCc (max w.outAfter b) w.lost (d.positions.map fun p => w.ready p.1 p.2) else []
  { w with ends := ends, due := if d.readout then ends.getLastD 0 else w.ready (d.mb - 1) (d.nb - 1) }

/-- The schedules of the sweeps of a tile, as the cycles lost so far make them. -/
def planSweeps (l : List Sweep) : List Sweep :=
  (l.foldl (fun (st : List Sweep × Nat × Nat) w =>
    let w := w.plan st.2.1 st.2.2
    (st.1 ++ [w], max st.2.1 w.streamed, if (sweepD w.desc).readout then w.due else st.2.2)) ([], 0, 0)).1

/-- A sweep that leaves: those behind it keep what they waited for. -/
def leaveSweep (w : Sweep) (l : List Sweep) : List Sweep :=
  (l.filter fun v => v.acc != w.acc).map fun v => if v.acc < w.acc then v else
    { v with after := max v.after w.streamed, outAfter := if (sweepD w.desc).readout then max v.outAfter w.due else v.outAfter }

/-- A sweep accepted behind those of a tile. -/
def newSweep (x : Tile) (bytes : List Byte) (tag acc num chain : Nat) (place : Nat) : Sweep :=
  { desc := bytes, place := place, tag := tag, acc := acc, edge := 0, num := num, chain := chain, lost := [], after := 0, outAfter := 0, ends := [],
    due := 0, bank := x.bankSel, held0 := if (sweepD bytes).start = 2 then x.mxaHeld else none, written := 0, steps := 0, snap := [] }

/-- The sweep whose steps still enter the array: bank and held partial are as it found them until the cycle after its last step has
entered (R79, R91; the spec says 'after a sweep' and not at which of its events: the model's choice, log entry 23). -/
def Tile.streaming (x : Tile) (c : Nat) : Option Sweep := x.sweeps.find? fun w => decide (c < w.streamed)

/-! MXA_ALN (R95, R104). -/

/-- MXA_ALN and MXA_ALN_WORST after n lossy splits of which the worst lost w bits. -/
def alnUpdate (s : State) (t mode n w : Nat) : State :=
  let s := bump s (Fd.mxaAlnCount t) n
  if rd s (Fd.mxaAlnWorstBits t) < w then wr (wr s (Fd.mxaAlnWorstBits t) w) (Fd.mxaAlnWorstMode t) mode else s

/-- The lossy splits of the K-blocks that a stopped split sweep has committed by clock cycle c (R104): those that brick (0, 0) has combined,
with the splits of every row and column (what a K-block's commit is the spec does not say: the model's choice, log entry 23). -/
def alnCommitted (s : State) (t : Nat) (sw : Sweep) (c : Nat) : Nat × Nat :=
  let d := sweepD sw.desc
  let per := 32 * d.kblk * d.passes
  let n := ((List.range (ceilDiv d.kb d.kblk)).filter fun b => decide (min ((b + 1) * per) d.steps ≤ sw.stepsBy (c - 85))).length
  if n = 0 then (0, 0)
  else
    let r := splitAccs s t sw { d with kb := min d.kb (n * d.kblk), ktail := if n * d.kblk < d.kb then 0 else d.ktail } d.mode []
    (r.aln, r.worst)

/-! A sweep in flight. -/

/-- A sweep of a tile changed; sweeps are told apart by their acceptance. -/
def updSweep (s : State) (t : Nat) (sw : Sweep) (f : Sweep → Sweep) : State :=
  updTile s t fun x => { x with sweeps := x.sweeps.map fun w => if w.acc = sw.acc then f w else w }

/-- MXA_ACTIVE brought to n steps of a sweep (R91). -/
def countSweep (s : State) (t : Nat) (sw : Sweep) (n : Nat) : State :=
  bump (updSweep s t sw fun x => { x with steps := n }) (Fd.mxaActiveCycles t) (n - sw.steps)

/-- The same as it stands before clock cycle c. -/
def countSweepBy (c : Nat) (t : Nat) (s : State) (sw : Sweep) : State := countSweep s t sw (sw.stepsBy c)

/-- The output bricks of a sweep in readout order: codes with their flags. -/
def sweepOuts (d : SweepD) (num : Nat) (accs : List (Nat × Flags)) : List (List (Nat × Flags)) :=
  d.positions.map fun p => outBrick d num accs p.1 p.2

/-- The next output brick of a sweep is written, its last write cycle past (R70, R82, R85, R216). -/
def writeSweep (s : State) (t : Nat) (sw : Sweep) : State :=
  let d := sweepD sw.desc
  let i := sw.written
  let out := (sweepOuts d sw.num (accsOf s t sw).accs).getD i []
  let s' := watchBrick s t sw d i (sw.ends.getD i 0) (out.map Prod.fst)
  store (updSweep s' t sw fun w => { w with written := i + 1 }) (tileBase t + d.cOut + i * 1024 * d.eo) (brickOut d.eo out)

/-- The record of a sweep that has written n bricks, of all that it was to write (R88). ALN_LOSS of a stopped split sweep stands where a
brick is written and any split of the sweep was lossy (the model's choice between R95 and R30, log entry 23). -/
def sweepRecord (s : State) (t : Nat) (sw : Sweep) (r : AccRes) (status cyc n : Nat) : State :=
  let d := sweepD sw.desc
  let outs := if d.readout then (sweepOuts d sw.num r.accs).take n else []
  let whole : Bool := status == St.done
  let aln := Fl.cond (d.split && r.aln != 0 && (whole || n != 0)) Fl.alnLoss
  let flags := if whole && !d.readout then Fl.any (r.accs.map Prod.snd) else Fl.any (outs.map fun b => Fl.any (b.map Prod.snd))
  postNow s (mxaPosting t sw.tag status sw.acc cyc
    (detail3 (cyc - sw.acc) ((outs.map (nonfinite (outFmt d.outfmt))).sum) (lostIn sw.lost 0 cyc)) (aln ||| flags) n)

/-- A sweep that has written its last brick, or whose last cell is final, posts DONE (R85, R88, R95). -/
def finishSweep (s : State) (t : Nat) (sw : Sweep) : State :=
  let d := sweepD sw.desc
  let r := accsOf s t sw
  let s1 := if d.readout then s else watchRun s t sw d
  let s2 := countSweep s1 t sw d.steps
  let s3 := updTile s2 t fun x =>
    { x with sweeps := leaveSweep sw x.sweeps
             mxaNext := max x.mxaNext sw.next
             banks := Tab.put [] x.banks sw.bank (if d.readout then [] else r.accs.map Prod.fst) }
  let s4 := if d.split then alnUpdate s3 t d.mode r.aln r.worst else s3
  sweepRecord s4 t sw r St.done sw.due sw.ends.length

/-- One stopped sweep (R30, R89): it keeps the bricks written and posts ABANDONED at clock cycle c. -/
def abandonSweep (t c : Nat) (s : State) (sw : Sweep) : State :=
  let d := sweepD sw.desc
  let r := accsOf s t sw
  let s1 := countSweepBy c t s sw
  let a := if d.split then alnCommitted s t sw c else (0, 0)
  let s2 := if d.split then alnUpdate s1 t d.mode a.1 a.2 else s1
  sweepRecord (dropLanes s2 t fun l => l.chain == sw.chain) t sw r St.abandoned c sw.written

/-- The banks and held partials of a tile discarded (R83, R89). -/
def dropBanks (s : State) (t : Nat) : State :=
  let s := dropLanes s t Lane.follows
  updTile s t fun x =>
    { x with sweeps := [], mxaHeld := none, banks := [], mxaNext := 0
             bankSel := match x.streaming s.now with | some w => w.bank | none => x.bankSel }

/-- Every sweep of a tile stops at clock cycle c (R30, R89): one that is done by then posts DONE, the others ABANDONED. -/
def stopSweep (t c : Nat) (s : State) (w : Sweep) : State := if w.due ≤ c then finishSweep s t w else abandonSweep t c s w
def abandonMxa (s : State) (t c : Nat) : State :=
  dropBanks (stopChecks ((tile s t).sweeps.foldl (stopSweep t c) s) c (· == mxaPage t)) t

/-! The commands. -/

/-- The first clock cycle at which the MXA accepts its next descriptor, as far as the sweeps ahead decide it (R84, R86). -/
def Tile.mxaFrom (x : Tile) : Nat := (x.sweeps.map Sweep.next).foldl max x.mxaNext

/-- The MXA has read an issued descriptor (R69 to R73, R79, R83, R84, R214): of a rejected or empty one the record follows at cycle 10, and the
next is accepted from cycle 1 in all three cases (R84 states it for DONE_EMPTY: the model's choice for the others, log entry 23); a running
one takes the current bank, and the watch selects its positions. Of 64 bytes that begin in the last 32 of Marver the rest are those of plan
memory behind it (the model's choice, log entry 23). -/
def acceptSweep (s : State) (t : Nat) (i : Issue) : State :=
  let x := tile s t
  let bytes := readBytes s (tileBase t + i.desc) 64
  let d := sweepD bytes
  match d.check x.mxaHeld with
  | some st =>
    let s := updTile s t fun x => { x with mxaNext := x.mxaFrom.max (i.cyc + 1) }
    postLater s { mxaPosting t i.tag st i.cyc (i.cyc + 10) (detail3 10 0 0) 0 0 with
      read := some i.desc, stop := some (Fd.nMxaAbandon t) }
  | none =>
    let drop := d.start != 2 && x.mxaHeld.isSome
    let s := if drop then dropLanes (notice s (Fd.nMxaHeldDrop t)) t fun l => l.follows && l.chain == x.chain else s
    let chain := if d.start = 2 then x.chain else x.brickIdx
    let sw := newSweep x bytes i.tag i.cyc (tileNum s t) chain i.desc
    let s := if d.start = 2 then s else watchAccept s t chain d.mb d.nb i.cyc
    updTile s t fun x =>
      { x with
        sweeps := planSweeps (x.sweeps ++ [sw])
        chain := chain
        brickIdx := if d.start = 2 then x.brickIdx else x.brickIdx + d.mb * d.nb
        mxaHeld := if d.readout then none else some ⟨d.family, d.mb, d.nb⟩
        bankSel := if d.readout then 1 - x.bankSel else x.bankSel }

end Sys2Proof.Machine
end

