-- ==== Sys2Proof/Machine/Settle.lean ====
section
/-! DEFINITION. What happens in cycles of its own: the Marver arbitration (R148 to R151), output bricks written, source KiB taken, units
committed or handed over (R85, R114, R145, R166, R188), lanes of the watch freed (R215), records posted, cells sent. settle lets everything
due by the present cycle happen, in order of time. -/

namespace Sys2Proof.Machine

/-! Marver arbitration (R148 to R151). -/

/-- An access to the Marver of a tile: its port, its operation (0 sweep, 1 CPT operation, 2 FTU operation, 3 copy, 6 a descriptor turned away,
7 a dispatch, 8 a QMU plan descriptor; with its cycle of acceptance or number), the clock cycle in which it is requested, the ranges that it reaches, and of the brick
that it is part of the range and the cycle of the first access. -/
structure MrvAcc where
  port : Nat
  unit : Nat
  id : Nat
  cyc : Nat
  reach : List (Nat × Nat)
  first : Nat
  brick : Nat × Nat
  deriving DecidableEq, Repr

/-- The banks of n bytes at Marver offset a, as a mask (R148). -/
def bankMask (a n : Nat) : Nat := (List.range ((a + n + 63) / 64 - a / 64)).foldl (fun m i => m ||| 2 ^ ((a / 64 + i) % 64)) 0
def MrvAcc.banks (x : MrvAcc) : Nat := x.reach.foldl (fun m r => m ||| bankMask r.1 r.2) 0

/-- The place of a port in the order of clock cycle offset off (R150). -/
def portRank (off p : Nat) : Nat := (p + 5 - off % 5) % 5

/-- Port q holds a line of its brick, begun in an earlier cycle, that p asks for (R151). -/
def MrvAcc.holds (off : Nat) (q p : MrvAcc) : Bool :=
  decide (q.first < q.cyc) && p.reach.any (fun r => meets r.1 r.2 q.brick.1 q.brick.2) &&
    (decide (q.first < p.first) || q.first == p.first && decide (portRank off q.port < portRank off p.port))

/-- Access p loses the cycle to access q (R150, R151). Accesses of one port do not meet: the spec orders ports only (the model's choice, log
entry 11). -/
def MrvAcc.beats (off : Nat) (q p : MrvAcc) : Bool :=
  q.cyc == p.cyc && q.port != p.port &&
    (q.holds off p || !p.holds off q && q.banks &&& p.banks != 0 && decide (portRank off q.port < portRank off p.port))

/-- The accesses of a brick of n bytes at Marver offset a, width bytes each, the k-th in the cycle given. -/
def brickAccs (port unit id width a n : Nat) (at_ : Nat → Nat) : List MrvAcc :=
  (List.range (ceilDiv n width)).map fun k => ⟨port, unit, id, at_ k, [(a + width * k, min width (n - width * k))], at_ 0, (a, n)⟩

/-- The last n cycles before clock cycle e that are not lost. -/
def cyclesBefore (lost : List Nat) : Nat → Nat → Nat → List Nat
  | 0, _, _ => []
  | _, _, 0 => []
  | fuel + 1, e, n + 1 => if lost.contains (e - 1) then cyclesBefore lost fuel (e - 1) (n + 1) else cyclesBefore lost fuel (e - 1) n ++ [e - 1]

/-- The write of an output brick of n bytes at Marver offset a, which ends before clock cycle e (R85). -/
def writeAccs (unit id a n e : Nat) (lost : List Nat) : List MrvAcc :=
  let l := cyclesBefore lost (n / 512 + lost.length) e (n / 512)
  brickAccs 2 unit id 512 a n fun k => l.getD k 0

/-- A descriptor is read. -/
def descAcc (port unit id cyc a n : Nat) : MrvAcc := ⟨port, unit, id, cyc, [(a, n)], cyc, (a, n)⟩

/-- The accesses of a sweep (R84, R85, R102, R149). Scale entries come with the first line of their brick (the model's choice, log entry 11). -/
def Sweep.accs (w : Sweep) : List MrvAcc :=
  let d := sweepD w.desc
  descAcc 0 0 w.acc (moved w.lost w.acc) w.place 64 ::
    (d.opBricks.flatMap fun b => brickAccs 0 0 w.acc 1024 b.off b.len (w.readAt b)) ++
    (List.zip (List.range w.ends.length) w.ends).flatMap fun p => writeAccs 0 w.acc (d.cOut + p.1 * 1024 * d.eo) (1024 * d.eo) p.2 w.lost

/-- The accesses of a CPT operation (R113, R114). -/
def Lookup.accs (l : Lookup) : List MrvAcc :=
  let d := lookD l.desc
  descAcc 1 1 l.acc (moved l.lost l.acc) l.place 64 ::
    (d.opBricks.flatMap fun b => brickAccs 1 1 l.acc 512 b.off b.len (l.readAt b)) ++
    (List.zip (List.range l.ends.length) l.ends).flatMap fun p =>
      writeAccs 1 l.acc (d.cOut + p.1 * 1024 * d.outSize) (512 * d.brickCc) p.2 l.lost

/-- The accesses of an FTU operation (R145). -/
def Apply.accs (a : Apply) : List MrvAcc :=
  let d := applyD a.desc
  descAcc 1 2 a.acc (moved a.lost a.acc) a.place 32 ::
    (d.opBricks.flatMap fun b => brickAccs 1 2 a.acc 512 b.off b.len (a.readAt b)) ++
    (List.range d.nb).flatMap fun i => writeAccs 2 a.acc (d.yAddr + i * 1024 * d.outSize) (1024 * d.outSize) (a.end_ i) a.lost

/-- The ranges of a stretch of a side that lie in the Marver of tile t. -/
def Side.inTile (d : Side) (t p n : Nat) : List (Nat × Nat) :=
  (d.pieces p n).filterMap fun g => if targetOf g.2.1 = .marver t then some (g.2.1 - tileBase t, g.2.2) else none

/-- The accesses of a copy to the Marver of its own tile, from clock cycle lo on: a KiB in one cycle (R149, R166). An engine of another tile
or of the hub goes by no port of R149 (the model's choice, log entry 11). -/
def Copy.accs (s : State) (e lo : Nat) (c : Copy) : List MrvAcc :=
  let t := engTile e
  let port := 3 + e % 2
  let one (cyc p n : Nat) (d : Side) : Option MrvAcc :=
    match d.inTile t p n with
    | [] => none
    | r :: l => if cyc < lo then none else some ⟨port, 3, c.id, cyc, r :: l, cyc, r⟩
  match c.start with
  | none => []
  | some st =>
    (match c.place with | some a => [descAcc port 3 c.id (moved c.lost st) (a - tileBase t) 64] | none => []) ++
      (if ¬ c.moving then [] else
        let tk := if c.d.hasSrc && !c.srcRemote s then c.takes s e else []
        let w := if c.d.hasDst && !c.dstRemote s && !c.pass then c.writes s e else []
        ((List.zip (List.range tk.length) tk).filterMap fun p => one p.2.1 (1024 * p.1) (min 1024 (c.d.total - 1024 * p.1)) c.d.srcSide) ++
        (List.zip (List.range w.length) w).filterMap fun p => one p.2.1 (1024 * p.1) (min 1024 (c.dstTotal - 1024 * p.1)) c.dside)

/-- The accesses of descriptors of a tile that have been turned away (R84, R114, R124, R145, R338). -/
def Posting.accs (t : Nat) (p : Posting) : List MrvAcc :=
  match p.read with
  | none => []
  | some a => if p.unit / 0x10000 = tilePage t 0 / 0x10000 ∨ (p.rec_.kind = Sk.qmu ∧ p.rec_.idx = t) then
      [descAcc (if p.unit = mxaPage t then 0 else 1) 6 p.acc (p.rec_.cyc - 10) a (if p.unit = mxaPage t ∨ p.unit = cptPage t then 64 else 32)] else []

/-- The accesses of a QMU plan descriptor (R338). R149 names no port for them: they go by AUX (the model's choice, log entry 11). -/
def PlanEnq.accs (p : PlanEnq) : List MrvAcc :=
  (if p.sent = 0 then [descAcc 1 8 p.acc (moved p.lost p.acc) p.place 32] else []) ++
    match p.readAt with | some c => [descAcc 1 8 p.acc c (p.src + 64 * p.sent) 64] | none => []

/-- Every access to the Marver of tile t requested from clock cycle lo on and before clock cycle hi. -/
def tileAccs (s : State) (t lo hi : Nat) : List MrvAcc :=
  let x := tile s t
  ((x.sweeps.flatMap Sweep.accs) ++ (x.lookups.flatMap Lookup.accs) ++ (x.applies.flatMap Apply.accs) ++
    (x.dispatches.map fun d => descAcc 1 7 d.acc (d.acc + d.late) d.place 32) ++ (s.soon.flatMap (Posting.accs t)) ++
    ((s.qmu.plans.filter fun p => p.tile == t).flatMap PlanEnq.accs) ++
    [2 * t, 2 * t + 1].flatMap fun e => (engine s e).copies.flatMap (Copy.accs s e lo)).filter fun a => decide (lo ≤ a.cyc ∧ a.cyc < hi)

/-- The accesses that lose a cycle. -/
def losers (s : State) (l : List MrvAcc) : List MrvAcc := l.filter fun p => l.any fun q => q.beats (offsetAt s p.cyc) p

/-- The first clock cycle before hi in which an access to the Marver of tile t loses. -/
def firstLoss (s : State) (t hi : Nat) : Option Nat :=
  (losers s (tileAccs s t s.settled hi)).foldl (fun m a => match m with | none => some a.cyc | some c => some (min c a.cyc)) none

/-- A cycle added to those that an operation has lost. -/
def addLost (l : List Nat) (k : Nat) : List Nat := if l.contains k then l else l ++ [k]

/-- The stall counter of a losing operation (R150). The GRN's counts its descriptor read (R150 names none for it: the model's choice, log entry
11). -/
def MrvAcc.stall (t : Nat) (a : MrvAcc) : Fld :=
  if a.port = 0 then Fd.mxaStallCycles t
  else if 3 ≤ a.port then Fd.pceStallCycles (2 * t + (a.port - 3))
  else match a.unit with
    | 0 => Fd.mxaStallCycles t
    | 1 => Fd.cptStallCycles t
    | 2 => Fd.ftuStallCycles t
    | _ => Fd.grnStallCycles t

/-- A descriptor turned away whose read loses a cycle: its record and the next acceptance of its unit are a cycle later. -/
def losePosting (s : State) (t : Nat) (p : Posting) : State :=
  let n := p.rec_.cyc - 9 - p.acc
  let grn : Bool := p.unit == tilePage t 2
  let qmu : Bool := p.rec_.kind == Sk.qmu
  let late := { p with rec_ := { p.rec_ with
    cyc := p.rec_.cyc + 1, detail := if qmu then p.rec_.detail else p.rec_.detail + 1 + (if grn then 2 ^ 50 else 2 ^ 48) } }
  let s := updTile { s with soon := insertPosting late (s.soon.erase p) } t fun x =>
    if p.unit = mxaPage t then { x with mxaNext := max x.mxaNext (p.acc + 1 + n) }
    else if p.unit = cptPage t then { x with cptNext := max x.cptNext (p.acc + 1 + n) }
    else if p.unit = ftuPage t then { x with ftuNext := max x.ftuNext (p.acc + 1 + n) } else x
  if qmu then s
  else bump s (if p.unit = mxaPage t then Fd.mxaStallCycles t else if p.unit = cptPage t then Fd.cptStallCycles t
    else if p.unit = ftuPage t then Fd.ftuStallCycles t else Fd.grnStallCycles t) 1

/-- The members of a dispatch whose descriptor read loses a cycle start a cycle later. -/
def loseDispatch (s : State) (t : Nat) (d : Dispatch) : State :=
  let s := d.cores.foldl (fun s c => setCore s t c { coreOf s t c with ready := (coreOf s t c).ready + 1 }) s
  updTile s t fun x => { x with dispatches := x.dispatches.map fun e => if e.acc = d.acc then { e with late := e.late + 1, stall := e.stall + 1 } else e }

/-- An access to the Marver of tile t loses its cycle (R150): its port counts it, and its operation, once for each cycle, is later by 1 cc in
all that follows. -/
def loseOne (t : Nat) (s : State) (a : MrvAcc) : State :=
  let s := bump s (Fd.mrvLostCycles t a.port) 1
  let k := a.cyc
  let x := tile s t
  let once (l : List Nat) (s' : State) : State := if l.contains k then s else bump s' (a.stall t) 1
  match a.unit with
  | 0 => match x.sweeps.find? fun w => w.acc == a.id with
    | some w => once w.lost (updTile s t fun x =>
        { x with sweeps := planSweeps (x.sweeps.map fun w => if w.acc = a.id then { w with lost := addLost w.lost k } else w) })
    | none => s
  | 1 => match x.lookups.find? fun l => l.acc == a.id with
    | some l => once l.lost (updTile s t fun x =>
        { x with lookups := planLookups (x.lookups.map fun l => if l.acc = a.id then { l with lost := addLost l.lost k } else l) })
    | none => s
  | 2 => match x.applies.find? fun p => p.acc == a.id with
    | some p => once p.lost (updApply s t p fun p => { p with lost := addLost p.lost k })
    | none => s
  | 3 => match copyOf s (2 * t + (a.port - 3)) a.id with
    | some c => once c.lost (setCopy s (2 * t + (a.port - 3)) { c with lost := addLost c.lost k })
    | none => s
  | 6 => match s.soon.find? fun p => (p.accs t).contains a with
    | some p => losePosting s t p
    | none => s
  | 7 => match x.dispatches.find? fun d => d.acc == a.id with
    | some d => bump (loseDispatch s t d) (Fd.grnStallCycles t) 1
    | none => s
  | _ => match planOf s t a.id with
    | some p => setPlan s { p with lost := addLost p.lost k }
    | none => s

/-- The accesses to the Marver of tile t that lose clock cycle k do. -/
def loseCycle (s : State) (t k : Nat) : State := (losers s (tileAccs s t k (k + 1))).foldl (loseOne t) { s with settled := k }

/-! Operand cache (R122). -/

/-- The place of a core in the order of a clock cycle of turn offset off. -/
def coreRank (off c : Nat) : Nat := (c + 32 - off % 32) % 32

/-- The word of OPC that an access asks for. -/
def OpcAcc.word (a : OpcAcc) : Option Nat := match a.slices.head? with | some (some w, _) => some w | _ => none

/-- An access loses the cycle: the first in order that asks for a word of its bank asks for another word. Accesses to one word do not meet,
stores too (the model's choice, log entry 11). -/
def OpcAcc.loses (off : Nat) (l : List OpcAcc) (a : OpcAcc) : Bool :=
  match a.word with
  | none => false
  | some w =>
    let bank := l.filter fun b => match b.word with | some v => v % 32 == w % 32 | none => false
    bank.any fun b => b.word != some w && bank.all fun x => decide (coreRank off b.core ≤ coreRank off x.core)

/-- The access goes on in the next cycle: with the same slice where it lost, else with the next one. -/
def OpcAcc.next (lost : Bool) (a : OpcAcc) : OpcAcc := { a with cyc := a.cyc + 1, slices := if lost then a.slices else a.slices.drop 1 }

/-- A lost cycle delays the slice and every later one of the access by 1 cc, and the core's next instruction where that waits for the access
(R122, R139). -/
def loseOpc (t : Nat) (s : State) (a : OpcAcc) : State :=
  let k := coreOf s t a.core
  let k := (a.slices.flatMap Prod.snd).foldl (fun k r => { k with rdy := Tab.put 0 k.rdy r (Tab.get 0 k.rdy r + 1) }) k
  let s := setCore s t a.core { k with ready := k.ready + b2n a.holds }
  updTile (bump s (Fd.grnStallCycles t) 1) t fun x =>
    { x with dispatches := x.dispatches.map fun d => if d.cores.contains a.core then { d with stall := d.stall + 1 } else d }

/-- The operand cache of tile t in clock cycle k. -/
def opcCycle (s : State) (t k : Nat) : State :=
  let l := (tile s t).opc.filter fun a => decide (a.cyc ≤ k)
  let s' := updTile s t fun x => { x with
    opc := (x.opc.map fun a => if a.cyc ≤ k then a.next (a.loses (offsetAt s k) l) else a).filter fun a => !a.slices.isEmpty }
  (l.filter fun a => a.loses (offsetAt s k) l).foldl (loseOpc t) s'

/-! The scan network (R137). -/

/-- The clock cycle in which the last live member has issued its tile instruction, or, where that is later, the last other member has finished
(the model's choice, log entry 10). -/
def joinStart (s : State) (t : Nat) (d : Dispatch) : Nat :=
  d.live.foldl (fun m p => max m (coreOf s t p).ready) d.lastEnd

/-- Every live member of a dispatch waits in a tile instruction. -/
def joined (s : State) (t : Nat) (d : Dispatch) : Bool := !d.live.isEmpty && d.live.all fun p => (coreOf s t p).waiting.isSome

/-- The cycle in which the scan network can take a dispatch's instruction. -/
def netGrant (s : State) (t : Nat) (d : Dispatch) : Nat := max (joinStart s t d) (tile s t).netFree

/-- The cycles that a dispatch of tile t has waited for the network before clock cycle c are counted. -/
def countNet (c t : Nat) (s : State) (d : Dispatch) : State :=
  let n := min c (netGrant s t d) - joinStart s t d
  if joined s t d ∧ d.waited < n then
    updTile (bump s (Fd.grnStallCycles t) (n - d.waited)) t fun x => { x with
      dispatches := x.dispatches.map fun e => if e.acc = d.acc then { e with stall := e.stall + (n - e.waited), waited := n } else e }
  else s

/-! Input waits of the kilns (R235). -/

/-- The cycles that kiln k's IMPORT has waited before clock cycle c are counted. -/
def countImport (c : Nat) (s : State) (k : Nat) : State :=
  let x := kiln s k
  match x.run with
  | some r => match r.imp with
    | some i =>
      let n := min (min c (i.wake.getD c)) r.miss - i.since - i.seen
      if n = 0 then s
      else setKiln (bump s (Fd.klnWaitInCount k) n) k { x with run := some { r with waitIn := r.waitIn + n, imp := some { i with seen := i.seen + n } } }
    | none => s
  | none => s

/-! Events. -/

/-- An event due in a clock cycle: an output brick of sweep (0), CPT operation (1) or FTU operation (2) id of tile idx, an event of a copy of
engine idx (3; id holds the copy's number and its kind), accesses of tile idx that have lost the cycle before (4), a lane of the watch that
frees (5), a record posted (6), a grant of the enqueue port in the cycle before (7), a cell of the plan descriptor of tile idx read (8), the cycle before in
the operand cache of tile idx (9), a KiB of stream idx of the collective engine (10), a cell that port idx has sent while a chunk leaves (11),
an event of the operation of group idx and sequence number id (12), a NACK of the own router (13), a chunk whose cells are gone (14). -/
structure Due where
  at_ : Nat
  unit : Nat
  idx : Nat
  id : Nat
  deriving DecidableEq, Repr

/-- A record due is posted unless the guard band has come over a descriptor in the checks of a tile unit (R30); it does not stop a kiln. -/
def Posting.goes (s : State) (p : Posting) : Bool := p.stop.isNone || decide (p.unit < 0x100000) || decide (p.rec_.cyc < s.turn.guardAt)

/-- The next brick of each operation of a tile. -/
def tileDues (t : Nat) (x : Tile) : List Due :=
  (x.sweeps.filterMap fun w => (w.ends[w.written]?).map fun c => ⟨c, 0, t, w.acc⟩) ++
  (x.lookups.filterMap fun l => (l.ends[l.written]?).map fun c => ⟨c, 1, t, l.acc⟩) ++
  x.applies.filterMap fun a => if a.written < (applyD a.desc).nb then some ⟨a.end_ a.written, 2, t, a.acc⟩ else none

/-- The next events of the copies of every engine: what is read before what is written. -/
def copyDues (s : State) : List Due :=
  let l : List Due := s.engines.flatMap fun p => p.2.copies.flatMap fun c => (copyEvents s p.1 c).map fun x => ⟨x.1, 3, p.1, 4 * c.id + x.2⟩
  (l.filter fun d => d.id % 4 == 3) ++ (l.filter fun d => d.id % 4 == 2) ++ l.filter fun d => decide (d.id % 4 < 2)

/-- The next events of the collective engine. -/
def colDues (s : State) : List Due :=
  (s.col.streams.filterMap fun x => (x.next s).map fun c => (⟨c, 10, x.id, 0⟩ : Due)) ++
  (s.col.ops.filterMap fun o => o.wake.map fun c => ⟨c, 12, o.group, o.seq⟩) ++
  (s.fma.selfNacks.head?.map fun p => (⟨p.1, 13, 0, 0⟩ : Due)).toList ++
  (if ¬ leavingAny s then []
    else if s.col.ops.any fun o => o.subs.any fun u => u.chunks.any fun x => !stillHere s x then [⟨s.settled, 14, 0, 0⟩]
    else s.fma.ports.filterMap fun p => if portLive s p.1 then p.2.next.map fun g => ⟨g.1 / 25 + 1, 11, p.1, 0⟩ else none)

/-- The next event of everything that is under way, up to clock cycle c. -/
def allDues (s : State) (c : Nat) : List Due :=
  ((nextGrant s).map fun k => (⟨k + 1, 7, 0, k⟩ : Due)).toList ++
  (s.tiles.filterMap fun p => (firstLoss s p.1 c).map fun k => ⟨k + 1, 4, p.1, k⟩) ++
  (s.tiles.flatMap fun p => p.2.opc.map fun a => ⟨a.cyc + 1, 9, p.1, a.cyc⟩) ++
  (s.qmu.plans.filterMap fun p => p.readAt.map fun k => ⟨k + 1, 8, p.tile, p.acc⟩) ++ copyDues s ++
  (s.tiles.flatMap fun p => tileDues p.1 p.2) ++
  (s.lanes.filterMap fun p => if p.2.seen.isSome then some ⟨p.2.freeAt, 5, p.1, 0⟩ else none) ++
  ((s.soon.find? (Posting.goes s)).map fun p => (⟨p.rec_.cyc, 6, 0, 0⟩ : Due)).toList ++ colDues s

/-- The guard band stops the operations of tiles: none of their events comes after it starts, and none of their checks ends in it (R30); a hub
engine goes on (R280). -/
def Due.inTime (s : State) (d : Due) : Bool :=
  decide (5 ≤ d.unit ∧ d.unit ≠ 9) || d.unit == 3 && engHub d.idx || decide (d.at_ < s.turn.guardAt) ||
    d.at_ == s.turn.guardAt && !(d.unit == 3 && d.id % 4 == 3)

/-- The first of the events, the earlier listed one where two are due in one cycle. -/
def nextDue (s : State) (c : Nat) : Option Due := firstDue Due.at_ ((allDues s c).filter (Due.inTime s))

/-- An event happens. -/
def runDue (s : State) (d : Due) : State :=
  match d.unit with
  | 0 => match (tile s d.idx).sweeps.find? fun w => w.acc == d.id with | some w => writeSweep s d.idx w | none => s
  | 1 => match (tile s d.idx).lookups.find? fun l => l.acc == d.id with | some l => writeLookup s d.idx l | none => s
  | 2 => match (tile s d.idx).applies.find? fun a => a.acc == d.id with | some a => writeApply s d.idx a | none => s
  | 3 => copyStep s d.idx (d.id / 4) (d.id % 4)
  | 4 => loseCycle s d.idx d.id
  | 5 => match Tab.find s.lanes d.idx with | some l => freeLaneNow s d.idx l | none => s
  | 6 => match s.soon.find? (Posting.goes s) with | some p => postNow { s with soon := s.soon.erase p } p | none => s
  | 7 => grantEnq s d.id
  | 9 => opcCycle s d.idx d.id
  | 10 => colKib s d.idx
  | 11 => releaseSent (drainPort d.idx 1 s)
  | 12 => opWake s d.idx d.id
  | 13 => takeSelfNack s
  | 14 => releaseSent s
  | _ => match planOf s d.idx d.id with | some p => readPlan s p | none => s

/-- Every event due by clock cycle c happens in its own cycle, as many as fuel admits. -/
def runDues (c : Nat) : Nat → State → State
  | 0, s => s
  | fuel + 1, s => match nextDue s c with
    | none => s
    | some d => if c < d.at_ then s else runDues c fuel (runDue { s with now := d.at_ } d)

/-- The counters of a tile's operations as they stand before clock cycle c. -/
def countTile (c : Nat) (s : State) (t : Nat) : State :=
  let s := (tile s t).sweeps.foldl (countSweepBy c t) s
  let s := (tile s t).dispatches.foldl (countNet c t) s
  (tile s t).lookups.foldl (countLookupBy c t) s

/-- More events than a run can see: what bounds the search for the next one (the model's own number). -/
def dueCount : Nat := 2 ^ 64

/-- The cycles that a fetch-add has waited for room (R274). -/
def countAqWait (s : State) : State :=
  match s.fma.aqWait with
  | none => s
  | some w => bump { s with fma := { s.fma with aqWait := some (w.1, w.2.1, s.now) } } Fd.fmaCreditWaitCount (s.now - w.2.2)

/-- The waits of every copy and of the atomic unit counted. -/
def countAllWaits (s : State) : State :=
  let s := countAqWait s
  s.engines.foldl (fun s p => p.2.copies.foldl (fun s c => match copyOf s p.1 c.id with | some c => countWaits p.1 s c | none => s) s) s

/-- Everything due by the present cycle has happened. -/
def settle (s : State) : State :=
  let c := s.now
  let s := { runDues c dueCount s with now := c, settled := c }
  countEnqWait (drainPorts (countAllWaits ((List.range 4).foldl (countImport c) ((s.tiles.map Prod.fst).foldl (countTile (min c s.turn.guardAt)) s)))) c

/-- The clock carried forward to a cycle, with all that happens until then. -/
def settleTo (s : State) (c : Nat) : State := settle (advance s c)

end Sys2Proof.Machine
end

