-- ==== Sys2Proof/Machine/Queue.lean ====
section
/-! DEFINITION. The queue manager (16_queue_manager.md): host packets, dequeues, DROP and FLUSH with the pointer check, the
stale timer, producers that wait, and plan descriptors. -/

namespace Sys2Proof.Machine

def qmuPage : Nat := 0x30000

/-! The list of a queue (R337): its cells in the order of their arrival. -/

/-- A cell put at its place by arrival number. -/
def insertCell (c : QCell) : List QCell → List QCell
  | [] => [c]
  | d :: t => if c.seq < d.seq then c :: d :: t else d :: insertCell c t

/-- Every cell of a queue, incomplete packets included, from the head to the tail. -/
def Queue.list (q : Queue) : List QCell :=
  let l := (match q.inprog with | some i => i.cells | none => []) ++ (q.items.map QItem.cells).flatten ++
    (q.parts.map QPart.cells).flatten
  l.foldl (fun a c => insertCell c a) []

/-- The cells that a walk from the head reaches before it follows a bad pointer, and whether it meets one. The tail
cell has no pointer to follow. -/
def walkCells (bad : List Nat) : List QCell → List QCell × Bool
  | [] => ([], false)
  | [c] => ([c], false)
  | c :: t => if bad.contains c.idx then ([c], true) else let r := walkCells bad t; (c :: r.1, r.2)

/-- A walk that takes cell c follows the pointers of the cells up to c itself. -/
def reaches (bad : List Nat) (l : List QCell) (c : QCell) : Bool :=
  !((l.dropLast).any fun d => decide (d.seq ≤ c.seq) && bad.contains d.idx)

/-- A queue becomes broken (R337). -/
def breakQueue (s : State) (q : Nat) : State :=
  let x := queue s q
  let (i, n) := match (walkCells s.qmu.badLinks x.list).1.getLast? with | some c => (c.idx, c.seq) | none => (0, 0)
  let s := setQueue s q { x with broken := true, badCell := i, badSeq := n }
  pageErrInfo (notice s Fd.nQmuParity) qmuPage (q * 2 ^ 52 + i)

/-- A cell from the host asks for the port: a window write or a ring entry (R330). -/
def hostEnq (s : State) (q : Nat) (pay : List Byte) : State := askEnq s prodHif q 0 s.now pay 1 0

/-- ENQUEUE (R330, R331, R333): a cell of a producer asks for the enqueue port; the HIF's cells form host packets, every other producer's are
records. It meets its queue in the cycle in which the port is granted. -/
def execEnqueue (producer q : Nat) (payload : List Byte) (s : State) : Res :=
  if 78 ≤ producer ∨ 4096 ≤ q then .fault .noSuchUnit
  else ok (if producer = prodHif then hostEnq s q payload else enqCell s producer q (rd s (Fd.qmuQcfgDefprio q)) s.now payload)

/-! Dequeues (R328, R329, R332). -/

/-- The data word of a cell read from queue q. -/
def dataWord (q : Nat) (sop eop : Bool) (prio remain depth : Nat) : Nat :=
  2 ^ 63 + b2n sop * 2 ^ 62 + b2n eop * 2 ^ 61 + prio * 2 ^ 56 + q * 2 ^ 44 + remain * 2 ^ 32 + depth
/-- The data word of an empty read. -/
def emptyWord (q : Nat) (err : Bool) : Nat := b2n err * 2 ^ 60 + q * 2 ^ 44

/-- The item that a dequeue in cycle c takes from: the one in progress, else the oldest readable one of the highest
priority. -/
def Queue.next (x : Queue) (c : Nat) : Option QItem :=
  match x.inprog with
  | some i => some i
  | none =>
    let top := (x.readable c).foldl (fun m i => max m i.prio) 0
    (x.readable c).find? fun i => i.prio == top

/-- The stale timer of a queue read in cycle g (R335). -/
def Queue.restart (x : Queue) (g : Nat) : Queue :=
  { x with stale := false, reported := false,
           since := if x.depth g = 0 then (match x.items with | i :: _ => i.age | [] => g) else g }

/-- The dequeue port is granted to a consumer (R333): one cell in a clock cycle, the lost ones counted. Requests of one cycle are granted in the
order of their commands (the model's choice where round-robin order says otherwise, log entry 12). -/
def grantDeq (s : State) (consumer : Nat) : State :=
  let g := max s.now s.qmu.deqFree
  let s := settleTo (bump s Fd.qmuArbWaitCount (g - s.now)) g
  { s with qmu := { s.qmu with deqPtr := consumer + 1, deqFree := g + 1 } }

/-- A cell read from a queue: its payload and data word; the payload of an empty read is 0. -/
def deqCell (s : State) (consumer q : Nat) : State × List Byte × Nat :=
  let s := grantDeq s consumer
  let x := queue s q
  let none_ (s : State) (err : Bool) : State × List Byte × Nat := (s, List.replicate 64 0, emptyWord q err)
  if x.broken then none_ s true
  else match x.next s.now with
    | none => none_ s false
    | some i =>
      match i.cells with
      | [] => none_ s false
      | c :: rest =>
        if ¬ reaches s.qmu.badLinks x.list c then none_ (breakQueue s q) true
        else
          let x := { x with
            items := if x.inprog.isSome then x.items else x.items.erase i,
            inprog := if rest.isEmpty then none else some { i with cells := rest } }
          let s := freeCells (setQueue s q (x.restart s.now)) [c]
          (s, c.pay, dataWord q (decide (i.cells.length = i.size)) rest.isEmpty i.prio rest.length (x.depth s.now))

/-- A dequeue by an engine: the cell and its data word reach it 6 cc after the grant (R333). -/
def engineDeq (s : State) (consumer q : Nat) : State × List Byte × Nat :=
  let r := deqCell s consumer q
  (settleTo r.1 (r.1.now + 6), r.2)

/-- A dequeue that took no cell, r being the state after it: it counts as an event only where it found a bad pointer (R337). -/
def emptyRead (s r : State) (q : Nat) : Res :=
  if (queue r q).broken ∧ ¬ (queue s q).broken then ok r else .fault .noOperation

/-- DEQUEUE (R332): the cell goes to its consumer; the host receives 56 payload bytes and the data word. The MMC and the SEC
do not dequeue (R333). bad names the pool cells whose link pointers have come to fail their parity check since the last command (R337). -/
def execDequeue (consumer q : Nat) (bad : List Nat) (s : State) : Res :=
  if prodMmc ≤ consumer ∨ 4096 ≤ q then .fault .noSuchUnit
  else
    let hit := bad.filter fun i => s.qmu.used.contains i
    let r := deqCell { s with qmu := { s.qmu with badLinks := hit.foldl insertNat s.qmu.badLinks } } consumer q
    let pay := if consumer = prodHif then r.2.1.take 56 ++ leBytes 8 r.2.2 else r.2.1
    ok (emit r.1 (.dequeued consumer pay r.2.2))

/-! DROP and FLUSH (R336, R337). -/

/-- The remaining cells of the item in progress are discarded, as far as the pointers lead. -/
def dropItem (s : State) (q : Nat) : State :=
  let x := queue s q
  match x.inprog with
  | none => s
  | some i =>
    if x.broken then s
    else
      let l := i.cells.takeWhile fun c => reaches s.qmu.badLinks x.list c
      let bad := decide (l.length < i.cells.length)
      if ¬ bad then freeCells (setQueue s q { x with inprog := none }) l
      else
        -- the cell that holds the bad pointer is reached, and goes too when it is one of the item's
        let w := (walkCells s.qmu.badLinks x.list).1.getLast?
        let l := match w with | some c => if i.cells.contains c ∧ ¬ l.contains c then l ++ [c] else l | none => l
        let s := breakQueue s q
        let y := queue s q
        let left := i.cells.filter fun c => !l.contains c
        freeCells (setQueue s q { y with inprog := if left.isEmpty then none else some { i with cells := left } }) l

/-- DROP, as a QMU_QCMD command (R334, R336): it goes before the enqueues of its own cycle, which are not yet granted. -/
def execQDrop (q : Nat) (s : State) : Res :=
  if 4096 ≤ q then .fault .noSuchUnit
  else if ¬ s.boot.stagesDone.contains 4 then ok s
  else ok (dropItem s q)

/-- Every cell of a queue is discarded; those beyond a break are lost (R336, R337). The count of a host packet goes on (R330); the
cells that a packet hit by a flush still has to come are discarded as host cells (DESIGN CHOICE, log entry 12). -/
def flushQueue (s : State) (q : Nat) : State :=
  let x := queue s q
  let w := if x.broken then (x.list.filter fun c => decide (c.seq ≤ x.badSeq), true) else walkCells s.qmu.badLinks x.list
  let s := if w.2 ∧ ¬ x.broken then breakQueue s q else s
  let lost := x.list.filter fun c => !w.1.contains c
  let s := freeCells s w.1
  let s := bump s Fd.qmuLostCount lost.length
  let s := { s with qmu := { s.qmu with lost := lost.foldl (fun a c => insertNat a c.idx) s.qmu.lost,
                                        plans := s.qmu.plans.map fun p =>
                                          if p.queue = q ∧ p.pkt ∧ 0 < p.sent ∧ p.sent < p.ncell then { p with bad := true } else p } }
  setQueue s q { queueInit with hostCount := x.hostCount, hostDrop := if x.hostCount ≠ 0 ∧ x.hostDrop = 0 then 1 else x.hostDrop }

/-- FLUSH, as a QMU_QCMD command (R336). -/
def execQFlush (q : Nat) (s : State) : Res :=
  if 4096 ≤ q then .fault .noSuchUnit
  else if ¬ s.boot.stagesDone.contains 4 then ok s
  else ok (flushQueue s q)

/-- The stale timer of a queue runs out (R335). -/
def execStaleTimeout (q : Nat) (s : State) : Res :=
  let u := rd s (Fd.qmuQtoUnits q)
  let s := if (queue s q).depth (max s.now (queue s q).since) = 0 then settleTo s (s.now + 1) else s
  let x := queue s q
  if 4096 ≤ q ∨ u = 0 ∨ x.depth (max s.now x.since) = 0 ∨ x.reported then .fault .noOperation
  else
    let s := settleTo s (x.since + 1024 * u)
    let y := queue s q
    if y.depth s.now = 0 ∨ y.since ≠ x.since then .fault .noOperation
    else
    let s := setQueue s q { y with stale := true, reported := true }
    ok (bump (wr (notice s Fd.nQmuStale) Fd.qmuStaleLastQueue q) Fd.qmuStalesCount 1)

/-! Queue configuration. -/

/-- QMU_QTO (R335): a running timer restarts from the write. -/
def execQmuQtoWrite (q : Nat) (v : BitVec 32) (s : State) : Res :=
  if 4096 ≤ q then .fault .noSuchUnit
  else if ¬ s.boot.stagesDone.contains 4 then ok s
  else
    let s := wr s (Fd.qmuQtoUnits q) v.toNat
    let x := queue s q
    ok (if x.depth s.now = 0 then s else setQueue s q { x with since := s.now })

/-- QMU_QCFG (R330, R331): a change of the packet settings discards an incomplete host packet. -/
def execQmuQcfgWrite (q : Nat) (v : BitVec 32) (s : State) : Res :=
  if 4096 ≤ q then .fault .noSuchUnit
  else if ¬ s.boot.stagesDone.contains 4 then ok s
  else
    let n := v.toNat
    let x := queue s q
    let change : Bool := decide (bits n 15 10 ≠ rd s (Fd.qmuQcfgHpktm1 q)) || decide (bits n 7 5 ≠ rd s (Fd.qmuQcfgHprio q))
    let s := if change ∧ x.hostCount ≠ 0 then
        let k := ((x.parts.filter fun p => p.src == srcHost).flatMap QPart.cells).length
        let s := notice (bump (dropPart s q srcHost) Fd.qmuHostDropCount k) Fd.nQmuHostdrop
        setQueue s q { queue s q with hostCount := 0, hostDrop := 0 }
      else s
    ok (wrs s [(Fd.qmuQcfgEn q, n / 2 ^ 31), (Fd.qmuQcfgHost q, n / 2 ^ 30), (Fd.qmuQcfgHpktm1 q, n / 2 ^ 10),
      (Fd.qmuQcfgHprio q, n / 2 ^ 5), (Fd.qmuQcfgDefprio q, n)])

/-! Plan descriptors (R338). -/

/-- The record of a plan descriptor: counted on the QMU page from BAD_DESC on. R400 gives it no DETAIL, so DETAIL is 0 (DEDUCED, log entry 12). -/
def planPosting (t tag status acc cyc count : Nat) : Posting :=
  { unit := qmuPage, read := none, stop := none, acc := acc, notices := [], counts := [], flagPage := qmuPage
    errs := if 0x10 ≤ status then [qmuPage] else [], prod := prodTile t, queue := Fd.qmuCqQueue
    rec_ := { tag := tag, status := status, kind := Sk.qmu, idx := t, cyc := cyc, detail := 0, flags := 0, count := count } }

/-- ENQ (R338): the QMU accepts a plan descriptor of a tile and checks it; of one turned away the record follows at cycle 10, of another cell 0
is read then. -/
def execPlanEnq (t : Nat) (s : State) : Res :=
  match takeIssue s t 9 with
  | none => .fault .noOperation
  | some (i, s) =>
    let d := readBytes s (tileBase t + i.desc) 32
    let p : PlanEnq :=
      { tile := t, tag := i.tag, place := i.desc, desc := d, acc := i.cyc, sent := 0, good := 0, read := some (i.cyc + 10), lost := [], bad := false,
        due := 0 }
    let w := p.w0
    let a := dword d 1
    let rsv : Bool := bits w 31 28 != 1 || bit w 23 || bits w 15 12 != 0 || bits a 31 23 != 0 || fieldLE d 8 24 != 0
    let no (st : Nat) : Res := ok (postLater s { planPosting t i.tag st i.cyc (i.cyc + 10) 0 with read := some i.desc })
    if rsv ∨ 64 < p.ncell then no St.badDesc
    else if p.ncell = 0 then no St.doneEmpty
    else if ¬ inMarver p.src (64 * p.ncell) ∨ p.src % 64 ≠ 0 then no St.badAddr
    else ok { s with qmu := { s.qmu with plans := s.qmu.plans ++ [p] } }

/-- The clock goes on, event by event, until every cell of a plan descriptor has met its queue, or one waits for room. -/
def drivePlan (t acc : Nat) : Nat → State → State
  | 0, s => s
  | fuel + 1, s => match planOf s t acc with
    | none => s
    | some p =>
      if p.ncell ≤ p.sent then s
      else match p.readAt with
        | some c => drivePlan t acc fuel (settleTo s (c + 1))
        | none => match (enqHeads s.qmu.waiting).find? fun w => w.producer == t with
          | none => s
          | some w => if w.ready s then drivePlan t acc fuel (settleTo s (s.now + 1)) else s

/-- ENQ_COMPLETE (R338): the last cell of the tile's plan descriptor has met its queue. The record follows in the next cycle. -/
def execPlanEnqComplete (t : Nat) (s : State) : Res :=
  match s.qmu.plans.find? fun p => p.tile == t with
  | none => match s.soon.find? fun p => p.rec_.kind == Sk.qmu && p.rec_.idx == t with
    | none => .fault .noOperation
    | some p => ok (settleTo s p.rec_.cyc)
  | some p0 =>
    let s := drivePlan t p0.acc (80 * p0.ncell + 80 * s.qmu.waiting.length + 80) s
    match planOf s t p0.acc with
    | none => .fault .noOperation
    | some p =>
      if p.sent < p.ncell then .fault .noOperation
      else
        let s := settleTo { s with qmu := { s.qmu with plans := s.qmu.plans.erase p } } p.due
        let n := if p.pkt ∧ p.bad then 0 else p.good
        ok (postNow s (planPosting t p.tag (if n = p.ncell then St.done else St.dropped) p.acc (max p.due s.now) n))

end Sys2Proof.Machine
end

