-- ==== Sys2Proof/Machine/Fabric.lean ====
section
/-! DEFINITION. The Aznos fabric (13_aznos_fabric.md): port training and coordinates, the router, link retry, order and
commit at the target, answers at the source, remote fetch-add, and the hub copy engines. -/

namespace Sys2Proof.Machine

/-! The router (R266, R269, R275). -/

/-- The port by which the lowest matching transit entry sends a stranger; none where there is none. -/
def transitPort (s : State) (c : FabCell) : Option Nat :=
  let hit (i : Nat) : Bool := rdb s (Fd.frtTransitEn i) && rd s (Fd.frtTransitDomain i) == c.domain &&
    c.dst &&& rd s (Fd.frtTransitDmask i) == rd s (Fd.frtTransitDst i) &&& rd s (Fd.frtTransitDmask i)
  match (List.range 64).find? hit with
  | none => none
  | some i => (List.range 12).find? fun p => (rd s (Fd.frtTransitPorts i)).testBit p && portLive s p

/-- A stranger is forwarded, or dropped and logged with its input port. -/
def forwardStranger (s : State) (port : Nat) (c : FabCell) : State :=
  match transitPort s c with
  | some p => portTx s port p s.now c
  | none =>
    let s := frtDrop (bump s (Fd.portStrangerCount port) 1) Fd.frtDropStrangerCount
    notice (wrs s [(Fd.frtStrangerLogDomain, c.domain), (Fd.frtStrangerLogPort, port), (Fd.frtStrangerLogDst, c.dst)])
      Fd.nFrtStranger

/-- An own-domain cell from a requester is forwarded; with no way left it is dropped, and a request of another module is answered with NACK
UNREACHABLE. -/
def forwardOwn (s : State) (req : Nat) (c : FabCell) : State :=
  let s' := routeCell s req s.now c
  if (routeOf s c).isNone ∧ isRequest c ∧ coordValid s ∧ c.src ≠ ownNo s then nackFor s' c St.unreachable else s'

/-- A cell of a port that is taken out of service is routed again (R269, R271). -/
def reroute (tag : Nat) (s : State) (w : PortCell) : State :=
  if w.cell.domain ≠ tag then forwardStranger s (w.inp % 12) w.cell else forwardOwn s w.inp w.cell

/-- A port leaves service; the cells that it held go other ways. failed: only a class L reset trains it again (R271). -/
def portOff (s : State) (p : Nat) (failed : Bool) (l : List PortCell) : State :=
  let x := portX s p
  l.foldl (reroute x.tag) (setPort s p { portInit with tag := x.tag, failed := failed })

/-! Ports and coordinates (R258 to R260). -/

/-- A port goes DOWN (R271, R281): the cells given are routed again, and it stays DOWN until a class L reset where failed holds. -/
def portDownWith (s : State) (p : Nat) (failed : Bool) (l : List PortCell) : State :=
  let s := wr s (Fd.portStateState p) 0
  portOff (pageErrInfo (bump (notice s (Fd.nPortDown p)) (Fd.portDownsCount p) 1) (portPage p) 0) p failed l

/-- A port goes DOWN with the cells that wait at it. -/
def portDown (s : State) (p : Nat) : State := portDownWith s p true (portX s p).wait

/-- The coordinates and the extents sent on a port. -/
def sendCoords (s : State) (p : Nat) : State :=
  emit s (.link p 1 [ownX s, ownY s, ownZ s, (extents s).1, (extents s).2.1, (extents s).2.2])

/-- The module takes coordinates (R259): they are sent on every UP port, and every stream starts with SYNC (R272). -/
def takeCoords (s : State) (x y z : Nat) : State :=
  let s := wrs s [(Fd.frtCoordX, x), (Fd.frtCoordY, y), (Fd.frtCoordZ, z), (Fd.frtCoordValid, 1)]
  let s := notice s Fd.nFrtCoordValid
  let s := { s with fma := { s.fma with streams := s.fma.streams.map fun p => (p.1, { p.2 with sync := true }) } }
  ((List.range 12).filter (portUp s)).foldl sendCoords s

/-- The coordinates that a message from (x, y, z) on a port implies: one step along the port's direction. -/
def impliedCoords (port x y z xe ye ze : Nat) : Nat × Nat × Nat :=
  let step (n v : Nat) : Nat := if port / 2 % 2 = 1 then (v + 1) % n else (v + n - 1) % n
  match port / 4 with
  | 0 => (step xe x, y, z)
  | 1 => (x, step ye y, z)
  | _ => (x, y, step ze z)

/-- A fenced port that retrains to return is back in service (R350). -/
def returnPort (s : State) (p : Nat) : State :=
  if s.boot.testing.contains (portPage p) then
    { s with boot := { s.boot with testing := s.boot.testing.filter fun x => x != portPage p
                                   fences := s.boot.fences.filter fun f => f.page != portPage p } }
  else s

/-- FRT_DOMAIN.ORIGIN takes effect at a training (R258); a module that is the origin no more is free-running until a beacon locks it. -/
def trainOrigin (s : State) : State :=
  let on := rdb s Fd.frtDomainOrigin
  let s := if s.fma.origin ∧ ¬ on ∧ rd s Fd.trnStateRole = 1 then wr s Fd.trnStateRole 0 else s
  { s with fma := { s.fma with origin := on } }

/-- NEIGHBOUR_HANDSHAKE (R256, R258): training of a port ends; TAG and ORIGIN take effect, and after stage 8 a module that becomes the
origin takes its coordinates at once. A port that does not train answers no handshake. -/
def execNeighbourHandshake (port tag modno lat : Nat) (s : State) : Res :=
  if 12 ≤ port ∨ ¬ capPort s.variant port then .fault .noSuchUnit
  else if rd s (Fd.portStateState port) ≠ 1 ∨ (fencedPort s port ∧ ¬ s.boot.testing.contains (portPage port)) then ok s
  else
    let s := returnPort s port
    let own := rd s Fd.frtDomainTag
    let s := emit s (.link port 0 [own, ownNo s])
    let s := setPort { s with fma := { s.fma with extOld := none } } port { portInit with tag := own }
    let s := wrs s [(Fd.portStateState port, if tag % 65536 = own then 2 else 3), (Fd.portStateNbrDomain port, tag),
      (Fd.portStateNbrModno port, modno), (Fd.portStateLat port, lat)]
    let s := trainOrigin (notice s (Fd.nPortUp port))
    ok (if s.boot.stagesDone.contains 8 ∧ s.fma.origin ∧ ¬ (coordValid s ∧ ownNo s = 0) then takeCoords (wr s Fd.trnStateRole 1) 0 0 0
      else if portUp s port ∧ coordValid s then sendCoords s port else s)

/-- COORD_MESSAGE (R259, R260): only an UP port takes one, and one whose extents R261 does not allow is discarded. -/
def execCoordMessage (port x y z xe ye ze : Nat) (s : State) : Res :=
  if 12 ≤ port then .fault .noSuchUnit
  else if ¬ portUp s port ∨ xe = 0 ∨ ye = 0 ∨ ze = 0 then ok s
  else
    let c := impliedCoords port x y z xe ye ze
    if s.fma.origin then
      ok (if c = (0, 0, 0) then s else portDown (notice s Fd.nFrtOriginConflict) port)
    else if coordValid s then
      ok (if c = (ownX s, ownY s, ownZ s) then s else portDown (notice s Fd.nFrtCoordConflict) port)
    else
      ok (takeCoords (wrs { s with fma := { s.fma with extOld := none } } [(Fd.frtExtXext, xe), (Fd.frtExtYext, ye), (Fd.frtExtZext, ze)]) c.1 c.2.1 c.2.2)

/-- A frit cell dropped (R306, R310). -/
def fritDrop (s : State) : State := pageErrInfo (bump (notice s Fd.nFritDrop) Fd.fritDropCount 1) fritPage 0

/-- CELL_FORWARD (R266, R269, R270, R275): the router takes a data or frit cell from an input port; fec codewords were corrected since the
last cell. A cell for this module is only counted here: its own command follows. No cell comes by a port that is DOWN or trains, and none in
P3 (R360). -/
def execCellForward (port : Nat) (c : FabCell) (fec : Nat) (s : State) : Res :=
  if 12 ≤ port ∨ ¬ availPort s port then .fault .noSuchUnit
  else if ¬ portLive s port ∨ s.boot.p3 then ok s
  else
    let s := bump (bump s (Fd.portCellsRxCount port) 1) (Fd.portFecCorrCount port) fec
    let x := portX s port
    let s := setPort s port { x with rx := x.rx + 1 }
    let h := { c with hops := c.hops + 1 }
    if c.typ = 10 then ok s
    else if 10 < c.typ then ok (frtDrop s Fd.frtDropBadCount)
    else if c.domain ≠ x.tag then
      ok (if 63 ≤ h.hops then frtDrop s Fd.frtDropBadCount else forwardStranger s port h)
    -- a beacon is for every module that it reaches (R31)
    else if c.typ = 8 ∧ fieldLE c.data 0 1 = 0 then ok s
    else if 63 ≤ h.hops then
      let s := frtDrop s Fd.frtDropBadCount
      ok (if isRequest c ∧ coordValid s then nackFor s c St.dropped else s)
    else if coordValid s ∧ c.dst = ownNo s then
      -- no command follows for a frit cell of a reserved KIND (R306)
      ok (if c.typ = 8 ∧ 5 < fieldLE c.data 0 1 then fritDrop s else s)
    else if ¬ coordValid s then ok (frtDrop s Fd.frtDropUnreachCount)
    else ok (forwardOwn s port h)

/-! Link retry (R270, R271). -/

/-- FEC_UNCORRECTABLE: the receiver discards the cells and asks for the first of them again: the one after those received since the
training. A port that carries no cells receives no codeword. -/
def execFecUncorrectable (port : Nat) (s : State) : Res :=
  if 12 ≤ port ∨ ¬ availPort s port then .fault .noSuchUnit
  else if ¬ portLive s port then ok s
  else ok (emit (pageErrInfo (bump s (Fd.portFecUncorrCount port) 1) (portPage port) 0) (.link port 2 [(portX s port).rx]))

/-! Order at the target (R272). -/

def srcKey (c : FabCell) : Nat := 256 * c.src + c.stream

/-- The tag of cells of the own domain: that of an UP port's last training. -/
def ownTag (s : State) (d : Nat) : Bool := (List.range 12).any fun p => portUp s p && (portX s p).tag == d

/-- A cell delivered to this module: CELL_FORWARD has taken it from a port of its domain, before its last hop. -/
def delivered (s : State) (c : FabCell) : Bool :=
  !s.boot.p3 && coordValid s && ownTag s c.domain && c.dst == ownNo s && decide (c.seq < 65536) && decide (c.hops < 62)

def setExpect (s : State) (k n : Nat) : State :=
  { s with fma := { s.fma with expect := Tab.insert s.fma.expect k (n % 65536) } }

/-- Cells of a (source, stream) held for order, in the order of their SEQ after the expected one. -/
def heldOf (s : State) (k : Nat) : List FabCell := s.fma.held.filter fun c => srcKey c == k

/-- The cells of a (source, stream) are dropped from the reorder store. -/
def dropHeld (s : State) (k : Nat) : State :=
  { s with fma := { s.fma with held := s.fma.held.filter fun c => srcKey c != k,
                               gapAt := Tab.erase s.fma.gapAt k } }

/-- Held cells that have come in order: they leave the store. -/
def drainHeld (k : Nat) : Nat → State → State × List FabCell
  | 0, s => (s, [])
  | fuel + 1, s =>
    let e := Tab.get 0 s.fma.expect k
    match (heldOf s k).find? fun c => c.seq == e with
    | none =>
      -- the gap that is left, if any, opens now
      let s := if (heldOf s k).isEmpty then { s with fma := { s.fma with gapAt := Tab.erase s.fma.gapAt k } }
        else { s with fma := { s.fma with gapAt := Tab.insert s.fma.gapAt k s.now } }
      (s, [])
    | some c =>
      let s := setExpect { s with fma := { s.fma with held := s.fma.held.erase c } } k (e + 1)
      let r := drainHeld k fuel s
      (r.1, c :: r.2)

/-- A gap that does not close: the held cells of a (source, stream) are dropped, each answered with NACK DROPPED, and
the write unit they belong to is not committed. -/
def closeGap (s : State) (k : Nat) (l : List FabCell) : State :=
  let e := Tab.get 0 s.fma.expect k
  let top := l.foldl (fun m c => max m (seqAhead c.seq e)) 0
  let s := setExpect (dropHeld s k) k (e + top + 1)
  let s := { s with fma := { s.fma with refused := insertNat s.fma.refused k,
                                        parts := s.fma.parts.filter fun c => srcKey c != k } }
  let s := bump (notice s Fd.nFmaDrop) Fd.fmaReorderDropCount l.length
  l.foldl (fun s c => nack s c St.dropped) s

/-- Cells of the reorder store. -/
def reorderCells : Nat := 8192

/-- The request cells that an arriving one lets the target apply, in order. -/
def letIn (s : State) (c : FabCell) : State × List FabCell :=
  let k := srcKey c
  let take (s : State) : State × List FabCell :=
    let s := setExpect s k (c.seq + 1)
    let r := drainHeld k ((heldOf s k).length + 1) s
    (r.1, c :: r.2)
  match Tab.find s.fma.expect k with
  | none => take s
  | some e =>
    if c.sync then
      let n := (heldOf s k).length
      let s := if n = 0 then s else bump (notice s Fd.nFmaDrop) Fd.fmaReorderDropCount n
      let s := dropHeld s k
      take { s with fma := { s.fma with refused := s.fma.refused.filter fun x => x != k,
                                        parts := s.fma.parts.filter fun c => srcKey c != k } }
    else if c.seq = e then take s
    else if 32768 ≤ seqAhead c.seq e ∨ (heldOf s k).any (fun h => h.seq == c.seq) then
      (bump s Fd.fmaReorderDropCount 1, [])
    else if reorderCells ≤ s.fma.held.length then (closeGap s k (heldOf s k ++ [c]), [])
    else
      let s := bump s Fd.fmaReorderedCount 1
      let gap := if (heldOf s k).isEmpty then Tab.insert s.fma.gapAt k s.now else s.fma.gapAt
      ({ s with fma := { s.fma with held := s.fma.held ++ [c], gapAt := gap } }, [])

/-! Requests at the target (R264, R265, R273, R278, R279). -/

/-- The unit that a WRITE_END closes is committed whole and acknowledged, or refused. -/
def commitUnit (s : State) (c : FabCell) : State :=
  let k := srcKey c
  let cells := (s.fma.parts.filter fun p => srcKey p == k) ++ [c]
  let s := { s with fma := { s.fma with parts := s.fma.parts.filter fun p => srcKey p != k } }
  let c := { c with rty := cells.any FabCell.rty }
  let met (p : FabCell) : Option Nat := accessStatus s p.offset p.data.length
  let status : Option (Nat × FabCell) := if s.fma.refused.contains k then some (St.dropped, c)
    else match worstOf (cells.map met) with
      | none => none
      | some st => (cells.find? fun p => met p == some st).map fun p => (st, { p with rty := c.rty })
  match status with
  | some (st, p) => nack { s with fma := { s.fma with refused := insertNat s.fma.refused k } } p st
  | none =>
    let x := carry s 4 (dieOf c.offset) 0 (cells.map fun p => p.data.length).sum s.now
    let s := cells.foldl (fun s p => storeUnit (touchKiln s s.now p.offset p.data.length) p.offset p.data) x.1
    let g := memAccess s c.offset (s.now + x.2)
    answer g.1 (g.2 + (if isHbm c.offset then 40 else 12) + 58) c 4 c.offset 0 []

/-- A read unit is answered with DATA cells of up to 112 bytes. It ends where the memory it starts in ends. -/
def answerRead (s : State) (c : FabCell) : State :=
  match accessStatus s c.offset 16 with
  | some st => nack s c st
  | none =>
    let n := 16 * ((List.range 64).takeWhile fun i => reachable s (c.offset + 16 * i)).length
    let ps := chunks 112 (readBytes s c.offset n)
    let x := carry s (dieOf c.offset) 4 0 n s.now
    let g := memAccess (touchKiln x.1 s.now c.offset n) c.offset (s.now + x.2)
    let t := g.2 + (if isHbm c.offset then 180 else 14) + 58
    (List.zip (List.range ps.length) ps).foldl (fun s p => answer s t c 3 (c.offset + 112 * p.1) 0 p.2) g.1

/-- The target word of a fetch-add lies in HBM or Marver (R262). -/
def faddTarget (a : Nat) : Bool :=
  match targetOf a with
  | .hbm _ => true
  | .marver _ => true
  | _ => false

/-- The fetch-add of one word: the old value, and the state with the sum. -/
def faddWord (s : State) (a addend : Nat) : Nat × State :=
  let w := readLE s a 8
  (w, store s a (leBytes 8 ((w + addend) % 2 ^ 64)))

/-- A fetch-add at the target. -/
def answerFadd (s : State) (c : FabCell) : State :=
  if ¬ faddTarget c.offset ∨ c.offset % 8 ≠ 0 then nack s c St.badAddr
  else match accessStatus s c.offset 8 with
    | some st => nack s c st
    | none =>
      let x := carry s 4 (dieOf c.offset) 0 8 s.now
      let r := faddWord x.1 c.offset (fieldLE c.data 0 8)
      let g := memAccess r.2 c.offset (s.now + x.2)
      answer g.1 (g.2 + (if isHbm c.offset then 60 else 12) + 58) c 7 c.offset 0 (leBytes 16 r.1)

/-- A request cell takes effect. -/
def applyRequest (s : State) (c : FabCell) : State :=
  match c.typ with
  | 0 => { s with fma := { s.fma with parts := s.fma.parts ++ [c] } }
  | 1 => commitUnit s c
  | 2 => answerRead s c
  | 6 => answerFadd s c
  | _ => s

/-- A request cell of type t arrives at the target's FMA: it and the cells it lets pass take effect in order. A cell that is not delivered to
this module does nothing here. -/
def request (t : Nat) (c : FabCell) (s : State) : Res :=
  if c.typ ≠ t then .fault .otherInstruction
  else if ¬ delivered s c then ok s
  else
    let r := letIn s c
    ok (r.2.foldl applyRequest r.1)

/-- WRITE (R264, R272). -/
def execCellWrite (c : FabCell) (s : State) : Res := request 0 c s
/-- WRITE_END (R264, R272, R278). -/
def execCellWriteEnd (c : FabCell) (s : State) : Res := request 1 c s
/-- READ (R264, R272). -/
def execCellRead (c : FabCell) (s : State) : Res := request 2 c s
/-- FADD (R279). -/
def execCellFadd (c : FabCell) (s : State) : Res := request 6 c s

/-- REORDER_GAP_TIMEOUT (R272). -/
def execReorderGapTimeout (src stream : Nat) (s : State) : Res :=
  let k := 256 * src + stream
  match Tab.find s.fma.gapAt k with
  | none => .fault .noOperation
  | some g =>
    let s := settleTo s (g + rd s Fd.fmaGapToCycles)
    ok (closeGap s k (heldOf s k))

/-! Answers at the source (R273). -/

/-- An answer cell of type t that is delivered: f. -/
def answered (t : Nat) (c : FabCell) (s : State) (f : State → Res) : Res :=
  if c.typ ≠ t then .fault .otherInstruction else if ¬ delivered s c then ok s else f s

/-- ACK (R264, R276, R277): a write unit is acknowledged. -/
def execCellAck (c : FabCell) (s : State) : Res :=
  answered 4 c s fun s => match s.fma.pend.find? fun p => p.kind == 0 && p.fits c && p.last == c.seq with
    | none => ok (orphan s)
    | some p =>
      let s := updCopy (markRetried (dropPends s fun x => x == p) p c) p fun x => { x with heard := s.now }
      ok (countKib s p.stream p.copy)

/-- The pieces of a complete read unit, each under its key. -/
def Pend.pieces (p : Pend) (bs : List Byte) : List (Nat × List Byte) := p.parts.map fun g => (g.1, (bs.drop (p.skip + g.2.1)).take g.2.2)

/-- DATA_CELL (R264, R265): read data arrives; a complete unit goes to the copy that asked for it. -/
def execDataCell (c : FabCell) (s : State) : Res :=
  answered 3 c s fun s => match s.fma.pend.find? fun p => p.kind == 1 && p.fits c with
    | none => ok (orphan s)
    | some p =>
      let p' := { p with got := p.got ++ [(c.offset - p.base, c.data)] }
      let s := markRetried s p c
      let bs := assemble p'.got.length p'.got []
      if bs.length < p.skip + p.want then
        ok { s with fma := { s.fma with pend := s.fma.pend.map fun x => if x = p then p' else x } }
      else
        let s := dropPends s fun x => x == p
        let whole := !(s.fma.pend.any fun q => q.kind == 1 && q.stream == p.stream && q.copy == p.copy && q.unit == p.unit)
        ok (updCopy s p fun x => { x with
          buf := x.buf ++ p.pieces bs, came := if whole then Tab.insert x.came p.unit (s.now + engineCc p.stream) else x.came })

/-- The old value of a fetch-add is written to RESULT from clock cycle c on: the record follows when it is committed (R23, R279), or what the
write meets (R348, R357). -/
def faddResult (s : State) (tag acc key old c : Nat) (f : Flags) : State :=
  match accessStatus s key 8 with
  | some st => postAt s (faddPosting tag acc st c 0 f)
  | none =>
    let x := carry s 4 (dieOf key) 0 8 c
    let g := memAccess x.1 key (c + x.2)
    postAt (store g.1 key (leBytes 8 old)) (faddPosting tag acc St.done g.2 1 f)

/-- FADD_RESULT (R279): the old value is written to RESULT, and the record follows. -/
def execCellFaddResult (c : FabCell) (s : State) : Res :=
  answered 7 c s fun s => match s.fma.pend.find? fun p => p.kind == 2 && p.fits c with
    | none => ok (orphan s)
    | some p => ok (faddResult (dropPends s fun x => x == p) p.unit p.acc p.key (fieldLE c.data 0 8) s.now (Fl.cond c.rty Fl.retried))

/-- The oldest request unit of a stream, with the state in which it has stayed without an answer for FMA_ACK_TO cycles since its last cell
left; where the cell leaves meanwhile, the time counts from there (R273). -/
def ackDue (stream : Nat) : Nat → State → Option (State × Pend)
  | 0, _ => none
  | fuel + 1, s => match s.fma.pend.find? fun p => p.stream == stream with
    | none => none
    | some p =>
      let s := settleTo s (p.sentAt + rd s Fd.fmaAckToCycles)
      match s.fma.pend.find? fun p => p.stream == stream with
      | none => none
      | some q => if q = p then some (s, p) else ackDue stream fuel s

/-- ACK_TIMEOUT (R273): the oldest request unit of a stream stays without an answer. -/
def execAckTimeout (stream : Nat) (s : State) : Res :=
  match ackDue stream (s.fma.pend.length + 4) s with
  | none => .fault .noOperation
  | some r => ok (endRequest (bump (notice r.1 Fd.nFmaTimeout) Fd.fmaAckTimeoutsCount 1) r.2 St.dropped 0)

/-! Remote fetch-add (R279) and the room of R274. -/

/-- A fetch-add leaves for its target. -/
def sendFadd (s : State) (item : List Byte) (acc : Nat) : State :=
  let a := fieldLE item 0 8
  let dst := a / 2 ^ 40
  let first := (strmOf s 132 dst).seq
  let s := sendReq s reqFma (s.now + 40) 6 dst (off40 a) 132 (leBytes 8 (fieldLE item 8 8) ++ List.replicate 8 0)
  addPend s { kind := 2, stream := 132, copy := 0, dst := dst, first := first, last := first, unit := fieldLE item 24 4, base := off40 a,
              key := off40 (fieldLE item 16 8), parts := [], skip := 0, want := 8, got := [], sentAt := s.now + 40, acc := acc }

/-- REQUEST_CREDIT_GRANT (R274): a request unit that waited for room is sent; without room it waits on. What R273 ends meanwhile ends there. -/
def execRequestCreditGrant (stream : Nat) (s : State) : Res :=
  let s := settle s
  if stream = 132 then
    match s.fma.aqWait with
    | none => .fault .noOperation
    | some w =>
      if ¬ creditFree s then ok s
      else
        let s := { s with fma := { s.fma with aqWait := none } }
        match remoteBlocked s (fieldLE w.1 0 8 / 2 ^ 40) 132 with
        | some st => ok (postNow s (faddPosting (fieldLE w.1 24 4) w.2.1 st s.now 0 0))
        | none => ok (sendFadd s w.1 w.2.1)
  else match (engine s stream).copies.find? fun c => c.creditWait.isSome with
    | none => .fault .noOperation
    | some c => if ¬ creditFree s then ok s else ok (settle (setCopy s stream { c with creditWait := none }))

/-- The checks of a fetch-add item, in order (R279): of the addresses one that is nowhere ends it before one that is held (R17). -/
def faddCheck (s : State) (item : List Byte) : Option Nat :=
  let a := fieldLE item 0 8
  let r := fieldLE item 16 8
  let own := sideLocal s false a
  if bits a 63 52 ≠ 0 ∨ bits r 63 40 ≠ 0 ∨ fieldLE item 28 4 ≠ 0 then some St.badDesc
  else if ¬ faddTarget (off40 a) ∨ a % 8 ≠ 0 ∨ ¬ faddTarget r ∨ r % 8 ≠ 0 then some St.badAddr
  else match worstOf [accessStatus s r 8, if own then accessStatus s (off40 a) 8 else none] with
    | some st => some st
    | none => if own then none else remoteBlocked s (a / 2 ^ 40) 132

/-- A fetch-add on this module's own memory (R279). -/
def localFadd (s : State) (item : List Byte) : State :=
  let a := off40 (fieldLE item 0 8)
  let x := carry s 4 (dieOf a) 0 8 s.now
  let g := memAccess x.1 a (s.now + x.2)
  let w := faddWord g.1 a (fieldLE item 8 8)
  faddResult w.2 (fieldLE item 24 4) s.now (off40 (fieldLE item 16 8)) w.1 (g.2 + (if a < hbmTop then 60 else 12)) 0

/-- FETCH_ADD (R279): the atomic unit takes an item from FMA_AQ.SQ, performs a local one, and sends a remote one. An item
of several cells is dropped as R336 lays down for the other engines. -/
def execFetchAdd (s : State) : Res :=
  if ¬ rdb s Fd.fmaAqEn ∨ s.fma.aqWait.isSome then .fault .noOperation
  else
    let q := rd s Fd.fmaAqSq
    let r := engineDeq s prodFma q
    if ¬ bit r.2.2 63 then emptyRead s r.1 q
    else
      let item := r.2.1.take 32
      let s := if bit r.2.2 61 then r.1 else dropItem r.1 q
      let turnAway (st : Nat) : Res := ok (postNow s (faddPosting (fieldLE item 24 4) s.now st s.now 0 0))
      if ¬ bit r.2.2 61 then turnAway St.badDesc
      else match faddCheck s item with
        | some st => turnAway st
        | none =>
          if sideLocal s false (fieldLE item 0 8) then ok (localFadd s item)
          else if creditFree s then ok (sendFadd s item s.now)
          else ok { s with fma := { s.fma with aqWait := some (item, s.now, s.now) } }

/-- Descriptors that hub engine n holds, those in its checks included. -/
def hubHeld (s : State) (n : Nat) : Nat :=
  (engine s (128 + n)).copies.length + (s.soon.filter fun p => p.unit == fmaPage && p.rec_.idx == 0x8000 + n).length

/-- HUB_COPY_ITEM (R280): hub engine n takes a copy descriptor from its queue. An item of several cells is rejected, and
its other cells are dropped. -/
def execHubCopyItem (n : Nat) (s : State) : Res :=
  if 4 ≤ n then .fault .noSuchUnit
  else if ¬ rdb s (Fd.fmaHpceEn n) ∨ 2 ≤ hubHeld s n then .fault .noOperation
  else
    let q := rd s (Fd.fmaHpceSq n)
    let r := engineDeq s prodFma q
    if ¬ bit r.2.2 63 then emptyRead s r.1 q
    else if bit r.2.2 61 then ok (acceptCopy r.1 (128 + n) 0 r.1.now none r.2.1)
    else ok (postLater (dropItem r.1 q) (copyPosting (128 + n) 0 s.now St.badDesc (s.now + 10) 0 0 0 0))

end Sys2Proof.Machine
end

