-- ==== Sys2Proof/Machine/CollRows.lean ====
section
/-! DEFINITION. The commands of collectives: acceptance and start, the cells of the engine, admission and completion of
chunks, deadlines, frit messages, and the NACK cell, which can also end a collective (14_collectives.md, R272, R273). -/

namespace Sys2Proof.Machine

/-! Acceptance and start (R286 to R288). -/

/-- An operation accepted; the first of its group starts at once. -/
def acceptAndStart (s : State) (tag acc prog : Nat) (desc : List Byte) : Res :=
  let r := acceptCol s tag acc prog desc
  match r.2 with
  | none => ok r.1
  | some o => ok (if (firstOp r.1 o.group) = some o then startOp r.1 o acc else r.1)

/-- Accepted operations not yet posted (COL_INFLIGHT), those in their checks included. -/
def colHeld (s : State) : Nat := s.col.ops.length + inChecks s colPage

/-- A descriptor is taken from a tile's plan entry of UNIT 8, or from COL_SQ.QUEUE. Reserved OP codes may come with any of the
commands. With 64 operations held it waits (R288). -/
def takeCol (op : Nat) (t : Option Nat) (s : State) : Res :=
  let fits (d : ColD) : Bool := d.op == op || d.op == 0 || 8 < d.op
  if 64 ≤ colHeld s then ok s
  else match t with
    | some t =>
      if 64 ≤ t then .fault .noSuchUnit
      else match takeIssue s t 8 with
        | none => .fault .noOperation
        | some (i, s) =>
          let desc := readBytes s (tileBase t + i.desc) 64
          if ¬ fits (colD desc) then .fault .otherInstruction
          else acceptAndStart s i.tag i.cyc (rd s (Fd.tsqProgProg t)) desc
    | none =>
      if ¬ rdb s Fd.colSqEn ∨ (¬ fencedPage s colPage ∧ ¬ rdb s (Fd.blkctlEnable colPage)) then .fault .noOperation
      else
        let q := rd s Fd.colSqQueue
        let r := engineDeq s prodCol q
        let d := colD r.2.1
        if ¬ bit r.2.2 63 then emptyRead s r.1 q
        else if ¬ fits d then .fault .otherInstruction
        else if bit r.2.2 61 then acceptAndStart r.1 d.tag r.1.now s.turn.prog r.2.1
        else ok (postLater (dropItem r.1 q) (colPosting d d.tag St.badDesc r.1.now (r.1.now + 10) 0 0 0 0))

/-- REDUCE (R289). -/
def execColReduce (t : Option Nat) (s : State) : Res := takeCol 1 t s
/-- BCAST (R296). -/
def execColBcast (t : Option Nat) (s : State) : Res := takeCol 2 t s
/-- ALLREDUCE (R296). -/
def execColAllreduce (t : Option Nat) (s : State) : Res := takeCol 3 t s
/-- REDSCAT (R296). -/
def execColRedscat (t : Option Nat) (s : State) : Res := takeCol 4 t s
/-- ALLGATHER (R296). -/
def execColAllgather (t : Option Nat) (s : State) : Res := takeCol 5 t s
/-- RINGPASS (R296). -/
def execColRingpass (t : Option Nat) (s : State) : Res := takeCol 6 t s
/-- FRED (R307). -/
def execColFred (t : Option Nat) (s : State) : Res := takeCol 7 t s
/-- BARRIER (R307). -/
def execColBarrier (t : Option Nat) (s : State) : Res := takeCol 8 t s

/-- COLLECTIVE_OP_START (R288): the next operation of a group starts; one that runs goes on. -/
def execCollectiveOpStart (group : Nat) (s : State) : Res :=
  match firstOp s group with
  | none => .fault .noOperation
  | some o => ok (if o.start.isSome then s else startOp s o (max s.now o.acc))

/-- Time goes on until what the streams of an operation read satisfies done, as far as they lead. -/
def driveOp (g seq : Nat) (done : State → COp → Bool) : Nat → State → State
  | 0, s => s
  | fuel + 1, s => match s.col.ops.find? fun o => o.group == g && o.seq == seq with
    | none => s
    | some o =>
      if done s o then s
      else match (s.col.streams.filter fun x => x.of o).filterMap (ColStream.next s) with
        | [] => s
        | c :: l => driveOp g seq done fuel (settleTo s (max (s.now + 1) (l.foldl min c)))

/-- FINITE_CHECK_DONE (R297): every part has been read once. -/
def execFiniteCheckDone (group : Nat) (s : State) : Res :=
  match s.col.ops.find? fun o => o.group == group && !o.checked with
  | none => .fault .noOperation
  | some o =>
    let s := driveOp group o.seq (fun _ o => o.checkEnd.isSome) dueCount s
    match s.col.ops.find? fun x => x.group == group && x.seq == o.seq with
    | none => ok s
    | some o => ok (if o.checkEnd.isSome then progress (setOp s { o with checked := true }) group else s)

/-! Cells (R305). -/

/-- A control cell: a body of 48 bytes at OFFSET 0, where no data cell has one so short. -/
def isCtl (c : FabCell) : Bool := c.offset == 0 && c.data.length == 48

/-- The control cell that a body spells. -/
def ctlOf (b : List Byte) : ColCtl :=
  { kind := fieldLE b 0 1, reason := fieldLE b 1 1, group := fieldLE b 2 2 % 1024, gen := fieldLE b 4 4, opseq := fieldLE b 8 4,
    chunk := fieldLE b 12 4, step := fieldLE b 16 4, nbrk := fieldLE b 20 4, word0 := fieldLE b 24 4, modno := fieldLE b 28 2 % 4096,
    lag := fieldLE b 32 4 }

/-- A piece of a stream. -/
def pieceOf (c : FabCell) : Nat × Nat × List Byte :=
  let o := c.offset / 16
  (bits o 23 20, bits o 19 0, c.data)

/-- A piece of a child's stream for a chunk: the slots that are complete enter their pipes as their last cell comes, behind this module's own
parts (R295); with the header in, it is accumulated. -/
def takeUp (s : State) (o : COp) (u : CSub) (x : CChunk) (p : Nat × Nat × List Byte) : State :=
  let x := { x with got := x.got ++ [p] }
  let k := (u.kids.map CChild.mod).getD x.kids 4096
  if x.reading ∨ p.1 = 1 then putChunk s o u x
  else
    let r := enterSlots s x s.now (slotsThere (kidFmt s o u k) (o.d.bricksOf x.c) x.got)
    putChunk r.1 o u r.2

/-- What arrives from the parent: a chunk of the result goes to DST, the header to HDR. -/
def takeFromParent (s : State) (o : COp) (u : CSub) (p : Nat × Nat × List Byte) : State :=
  let u := { u with got := u.got ++ [p] }
  let d := o.d
  if p.1 = 1 then
    let h := gathered u.got 1
    if h.length < 1024 then putSub s o u else closeSub s o u h
  else
    let n := d.bricksOf u.have_
    let data := gathered u.got 0
    let scales := gathered u.got 2
    if data.length < dataBytes d.ofmt n ∨ scales.length < scaleBytes d.ofmt n then putSub s o u
    else
      match writeColBricks s o d.ofmt n (o.dstAt u u.have_) data scales with
      | .error s => s
      | .ok r => putSub r.1 r.2 { u with have_ := u.have_ + 1, got := [] }

/-- A chunk of a ring pass. -/
def takeRing (s : State) (o : COp) (p : Nat × Nat × List Byte) : State :=
  let got := o.ringGot ++ [p]
  let d := o.d
  let g := o.ringHave
  let n := d.bricksOf (g % d.nch)
  let data := gathered got 0
  let scales := gathered got 2
  if data.length < dataBytes d.ofmt n ∨ scales.length < scaleBytes d.ofmt n then setOp s { o with ringGot := got }
  else
    match writeColBricks s o d.ofmt n (o.blockAt (ringRank s o g 1) (g % d.nch)) data scales with
    | .error s => s
    | .ok r => setOp r.1 { r.2 with ringGot := [], ringHave := g + 1 }

/-- The chunk of a constituent whose stream a source sends now. -/
def upChunk (o : COp) (u : CSub) (src res : Nat) : Option CChunk :=
  u.chunks.find? fun x => x.granted && ((u.kids.map CChild.mod)[x.kids]? == some src) && o.index u x.c % 4 == res

/-- A constituent takes a piece of the given type from its parent. -/
def fromParent (s : State) (o : COp) (u : CSub) (src res typ : Nat) : Bool :=
  let d := o.d
  u.parent s o == some src && !u.closed &&
    (if typ = 1 then o.index u (d.nch - 1) % 4 == res && (!d.spreads || u.cut || u.have_ == d.nch)
     else d.spreads && decide (u.have_ < d.nch) && o.index u u.have_ % 4 == res)

/-- A data, header or scale cell reaches the engine. -/
def collCell (s : State) (c : FabCell) : State :=
  let g := bits (c.offset / 16) 35 26
  let p := pieceOf c
  let res := cellResidue c
  match (firstOp s g).filter fun o => o.start.isSome && !o.d.frit with
  | none => genDrop s
  | some o =>
    let o := { o with flags := o.flags ||| Fl.cond c.rty Fl.retried }
    if o.d.op = 6 then
      if prevMember s g = c.src ∧ o.ringHave < o.ringTotal s ∧ o.ringHave % 4 = res then
        progress (takeRing s o p) g
      else genDrop s
    else match o.subs.findSome? fun u => (upChunk o u c.src res).map fun x => (u, x) with
      | some r => progress (takeUp s o r.1 r.2 p) g
      | none => match o.subs.find? fun u => fromParent s o u c.src res p.1 with
        | some u => progress (takeFromParent s o u p) g
        | none => genDrop s

/-- The constituent that a chunk index names, where it is in work. -/
def COp.subAt (o : COp) (chunk : Nat) : Option CSub :=
  let i := if o.d.perRank then chunk / max o.d.nch 1 else 0
  o.subs.find? fun u => u.i == i
def COp.chunkAt (o : COp) (chunk : Nat) : Nat := if o.d.perRank then chunk % max o.d.nch 1 else chunk

/-- READY from a child (R289, R303). -/
def onReady (s : State) (o : COp) (src : Nat) (m : ColCtl) : State :=
  match o.subAt m.chunk with
    | none => genDrop s
    | some u =>
      let c := o.chunkAt m.chunk
      match u.kids.find? fun k => k.mod == src with
      | none => genDrop s
      | some k =>
        if k.out.isSome then s
        else
          let mine := match u.waitSince with | some w => s.now - w | none => 0
          let worse (a b : Nat × Nat) : Nat × Nat := if a.2 < b.2 then b else a
          let lag := if c = 0 then worse (worse (u.lagMod, u.lagCc) (m.modno, m.lag)) (src, mine) else (u.lagMod, u.lagCc)
          putSub s o { u with kids := u.kids.map fun x => if x.mod = src then { x with ready := max x.ready (c + 1) } else x,
                              lagMod := lag.1, lagCc := lag.2 }

/-- GRANT from the parent: the chunk is streamed, from its slots, or from SRC where it has none; its slots are released once its last cell has
left (R289). -/
def onGrant (s : State) (o : COp) (src : Nat) (m : ColCtl) : State :=
  match o.subAt m.chunk with
  | none => genDrop s
  | some u =>
    let c := o.chunkAt m.chunk
    match u.chunks.find? fun x => x.c == c && x.done && !x.granted with
    | none => genDrop s
    | some x =>
      if u.parent s o ≠ some src then genDrop s
      else
        let o := { o with heard := s.now }
        let x := { x with granted := true }
        if 0 < x.slots then streamUp s o u src x
        else if (o.ownOut u).isSome then markLeaving (sendCells s src o.group (o.index u c) 1 (o.upHdr x 0).bytes) o u x src
        else startStream (putChunk s o u x) o (o.partAt u 0 c).1 (dataBytes o.d.ifmt (o.d.bricksOf c)) (.leaf u.i c src)

/-- EXCL from the parent: the member sends nothing of the chunk named or a later one, and its children are excluded from there on as
UPSTREAM (R297). -/
def onExcl (s : State) (o : COp) (src : Nat) (m : ColCtl) : State :=
  match o.subAt m.chunk with
  | none => genDrop s
  | some u =>
    if u.parent s o ≠ some src then genDrop s
    else
      let c := o.chunkAt m.chunk
      let s := admEnd s o u
      let s := (u.kids.filter fun k => k.out.isNone).foldl (fun s k => sendCtl s k.mod (o.ctl 3 5 m.chunk)) s
      let kids := u.kids.map fun k => if k.out.isNone then { k with out := some (5, c) } else k
      putSub s { o with heard := s.now, admWait := o.admWait + u.waited s } { u with cut := true, waits := none, chunks := u.chunks.filter fun x => x.c < c, kids := kids }

/-- What a control cell does to an operation that has started. -/
def onCtl (s : State) (o : COp) (src : Nat) (m : ColCtl) : State :=
  match m.kind with
  | 1 => onReady s o src m
  | 2 => onGrant s o src m
  | 3 => onExcl s o src m
  | 4 => failOp s o m.reason [src]
  | _ => s

/-- An OPEN is kept for an operation that can still take it, also one not accepted yet (R289). -/
def keepCtl (s : State) (src : Nat) (m : ColCtl) : State :=
  match colGrp s m.group with
  | none => genDrop s
  | some x => setGrp s m.group { x with opens := x.opens ++ [(src, m)] }

/-- A control cell reaches the engine. -/
def ctlCell (s : State) (src : Nat) (m : ColCtl) : State :=
  match colGrp s m.group with
  | none => genDrop s
  | some x =>
    if x.gen ≠ m.gen then genDrop s
    else match findOp s m.group m.gen m.opseq with
      | some o =>
        if m.kind = 0 ∧ o.d.op = 6 ∧ bits m.word0 31 28 = 0 then
          if o.start.isNone then progress (keepCtl s src m) m.group
          else if nextMember s m.group = src then progress (setOp s { o with ringReady := true, heard := s.now }) m.group else genDrop s
        else if m.kind = 0 then (if o.d.frit ∧ bits m.word0 31 28 = 0 then genDrop s else progress (keepCtl s src m) m.group)
        else if o.d.frit then genDrop s
        else if o.start.isSome then progress (onCtl s o src m) m.group
        else if m.kind = 4 then failOp s o m.reason [src]
        else genDrop s
      | none => if x.opseq ≤ m.opseq ∧ m.kind = 0 then keepCtl s src m else genDrop s

/-- A cell of the collective stream, in its order, reaches the engine. -/
def applyColl (s : State) (c : FabCell) : State := if isCtl c then ctlCell s c.src (ctlOf c.data) else collCell s c

/-- A cell of the collective stream arrives: it and the cells it lets pass take effect in order (R272). A cell that is not delivered to this
module does nothing here. -/
def collRow (fits : FabCell → Bool) (c : FabCell) (s : State) : Res :=
  if c.typ ≠ 9 ∨ c.stream ≠ colStream ∨ ¬ fits c then .fault .otherInstruction
  else if ¬ delivered s c then ok s
  else
    let r := letIn s c
    ok (r.2.foldl applyColl r.1)

/-- A control cell of a kind arrives. -/
def ctlRow (kind : Nat) (c : FabCell) (s : State) : Res := collRow (fun c => isCtl c && (ctlOf c.data).kind == kind) c s

/-- COLL_DATA (R305): a data, header or scale cell. A control cell of a reserved KIND, which no other command brings, does nothing. -/
def execCollData (c : FabCell) (s : State) : Res := collRow (fun c => !isCtl c || decide (4 < (ctlOf c.data).kind)) c s

/-- OPEN (R289, R305). -/
def execColOpen (c : FabCell) (s : State) : Res := ctlRow 0 c s
/-- READY (R289, R303). -/
def execColReady (c : FabCell) (s : State) : Res := ctlRow 1 c s
/-- GRANT (R289). -/
def execColGrant (c : FabCell) (s : State) : Res := ctlRow 2 c s
/-- EXCL (R297). -/
def execColExcl (c : FabCell) (s : State) : Res := ctlRow 3 c s
/-- FAIL (R296, R305). -/
def execColFail (c : FabCell) (s : State) : Res := ctlRow 4 c s

/-! Admission and completion (R289, R293, R295). -/

/-- CHUNK_ADMIT (R293): the first waiting chunk of a pool takes its slots, once they are free; an operation has at most 4 chunks past their
claim (R289). Else it waits on. -/
def execChunkAdmit (depth : Nat) (s : State) : Res :=
  let l := waitingAt s depth
  match l.find? fun w => !l.any fun v => before3 (v.1.place v.2) (w.1.place w.2) with
  | none => .fault .noOperation
  | some w =>
    let o := w.1
    let u := w.2
    let n := o.slotsOf u u.claimed
    if freeSlots s depth < n ∨ 4 ≤ o.inWork then ok s
    else ok (progress (claim (admEnd s o u) { o with admWait := o.admWait + u.waited s } u n) o.group)

/-- R writes a complete chunk to DST in OFMT and releases its slots. -/
def writeResult (s : State) (o : COp) (u : CSub) (x : CChunk) : State :=
  let d := o.d
  let n := d.bricksOf x.c
  let none_ := x.acc.isEmpty
  let acc := if none_ then List.replicate (1024 * n) (ident32 d.fn) else x.acc
  let e := encodeChunk d.ofmt n acc
  let h := { x.hdr with flags := x.hdr.flags ||| e.2.2 ||| Fl.cond none_ Fl.empty }
  match writeColBricks s o d.ofmt n (o.dstAt u x.c) e.1 e.2.1 with
  | .error s => s
  | .ok r =>
    let freed := u.freed + 1
    putSub r.1 r.2 { u with chunks := u.chunks.filter (fun y => y.c != x.c), freed := freed, hdr := u.hdr.chunk h (u.freed == 0),
                            have_ := if d.op = 3 ∧ freed = d.nch then d.nch else u.have_ }

/-- CHUNK_COMPLETE (R289, R295): 64 cycles after a chunk's last contribution. A chunk that still waits for one is not complete. -/
def execChunkComplete (group chunk : Nat) (s : State) : Res :=
  match firstOp s group with
  | none => .fault .noOperation
  | some o =>
    let find (o : COp) : Option (CSub × CChunk) :=
      (o.subAt chunk).bind fun u => (u.chunks.find? fun x => x.c == o.chunkAt chunk && !x.done).map fun x => (u, x)
    let last (o : COp) : Option Nat := (find o).bind fun x => x.2.last
    if (find o).isNone then .fault .noOperation
    else
      let s := driveOp group o.seq (fun _ o => (last o).isSome || (find o).isNone) dueCount s
      match firstOp s group with
      | none => ok s
      | some p => match last p with
        | none => ok s
        | some t =>
          let s := settleTo s (t + 64)
          match (firstOp s group).bind fun o => (find o).map fun x => (o, x) with
          | none => ok s
          | some (o, u, x) =>
            let s := if u.isRoot s then writeResult s o u x
              else sendReady (putChunk s o u { x with done := true }) o u x.c
            ok (progress s group)

/-! Deadlines (R300). -/

/-- A scalar operation excludes the children whose UP has not come. -/
def lateFrit (s : State) (o : COp) : State :=
  let kids := childrenOf (membersOf s o.group) o.d.root (ownNo s)
  let late := kids.filter fun k => !(o.fUps.any fun p => p.1 == k) && !(o.fOut.any fun e => e.1 == k)
  let out := late.map fun k => (k, if (remoteBlocked s k colStream).isSome then 4 else 3)
  let s := out.foldl (fun s e => reportMiss (bump (notice s Fd.nColExcluded) Fd.colExclCount 1) o.group e.2 e.1) s
  setOp s { o with fOut := o.fOut ++ out }

/-- Children of every constituent begun that are not READY for its pending chunk. -/
def lateKids (o : COp) : List (CSub × Nat) :=
  o.subs.flatMap fun u =>
    if u.cut ∨ u.closed ∨ (o.d.reduces ∧ o.d.nch ≤ u.claimed) then []
    else (u.kids.filter fun k => k.out.isNone && decide (k.ready ≤ (if o.d.reduces then u.claimed else 0))).map fun k => (u, k.mod)

/-- COLLECTIVE_DEADLINE (R300, R301): children without READY are excluded as LATE, those of a constituent not begun when it begins; in
PROBATION only the notice is set. An operation that has not started, or whose turn has not come, has no deadline yet. -/
def execCollectiveDeadline (group : Nat) (s : State) : Res :=
  match firstOp s group, colGrp s group with
  | some o, some x =>
    match deadlineOf s o with
    | none => ok s
    | some t =>
      if o.start.isNone then ok s
      else
        let s := settleTo s t
        match firstOp s group with
        | none => ok s
        | some o =>
        let fritLate : Bool := o.d.frit ∧ !o.fSent ∧ (childrenOf x.members o.d.root (ownNo s)).any fun k =>
          !(o.fUps.any fun p => p.1 == k) && !(o.fOut.any fun e => e.1 == k)
        if x.probation then ok (if fritLate ∨ ¬ (lateKids o).isEmpty then notice s Fd.nColLag else s)
        else if o.d.frit then ok (progress (lateFrit s o) group)
        else
          let s := setOp s { o with overdue := true }
          let s := (lateKids o).foldl (fun s p =>
            match (firstOp s group).bind fun o => (o.subs.find? fun u => u.i == p.1.i).map fun u => (o, u) with
            | none => s
            | some r =>
              let e := excludeKid s r.1 r.2 p.2 3 (if r.1.d.reduces then r.2.claimed else 0)
              putSub e.1 r.1 e.2) s
          ok (progress s group)
  | _, _ => .fault .noOperation

/-- COLLECTIVE_OP_TIMEOUT (R300): a member that has heard nothing for COL_OPTO cycles past its deadline gives up; R, or one whose deadline is
to come, waits. -/
def execCollectiveOpTimeout (group : Nat) (s : State) : Res :=
  match firstOp s group with
  | none => .fault .noOperation
  | some o =>
    let d := o.d
    let rootOnly : Bool := ¬ d.perRank ∧ d.op ≠ 6 ∧ d.root = ownNo s
    match deadlineOf s o with
    | none => ok s
    | some t =>
      if rootOnly ∨ o.start.isNone then ok s
      else
        let s := settleTo s (max t o.heard + rd s Fd.colOptoCycles)
        match firstOp s group with
        | none => ok s
        | some p => ok (if p.seq ≠ o.seq ∨ p.heard ≠ o.heard then s
            else if d.frit then endOp s p St.unreachable else failOp s p St.unreachable [])

/-! Frit messages (R306 to R308). -/

/-- FRIT_UP (R307). -/
def execFritUp (src : Nat) (m : FritMsg) (s : State) : Res :=
  match colGrp s m.group with
  | none => ok (fritDrop s)
  | some x =>
    if x.gen ≠ m.gen then ok (fritDrop s)
    else match findOp s m.group m.gen m.opseq with
      | none => if x.opseq ≤ m.opseq then ok (setGrp s m.group { x with ups := x.ups ++ [(src, m)] }) else ok (fritDrop s)
      | some o =>
        if ¬ o.d.frit ∨ o.fSent ∨ ¬ (childrenOf x.members o.d.root (ownNo s)).contains src then ok (fritDrop s)
        else if o.start.isNone then ok (setGrp s m.group { x with ups := x.ups ++ [(src, m)] })
        else match upFault o m with
          | some r =>
            let s := bump (notice s Fd.nColExcluded) Fd.colExclCount 1
            ok (progress (setOp s { o with fOut := o.fOut ++ [(src, r)] }) m.group)
          | none => ok (progress (setOp s { o with fUps := o.fUps ++ [(src, s.now, m)] }) m.group)

/-- FRIT_DOWN (R307, R308): the result is written and forwarded, and the record follows 21 cycles later. -/
def execFritDown (m : FritMsg) (s : State) : Res :=
  match findOp s m.group m.gen m.opseq with
  | none => ok (fritDrop s)
  | some o => if ¬ o.d.frit ∨ o.start.isNone ∨ o.d.root = ownNo s ∨ o.down.isSome ∨ o.wake.isSome then ok (fritDrop s) else ok (takeDown s o m s.now)

/-- MISS (R301). -/
def execFritMiss (group gen reason modno turn : Nat) (s : State) : Res :=
  match colGrp s group with
  | none => ok (fritDrop s)
  | some x => if x.gen ≠ gen then ok (fritDrop s) else ok (takeMiss s group reason modno turn)

/-- REFORM (R301): the reform waits for its turn; further cells of one GEN add modules. -/
def execFritReform (group gen turn : Nat) (removed : List Nat) (s : State) : Res :=
  match colGrp s group with
  | none => ok (fritDrop s)
  | some x =>
    if gen ≤ x.gen then ok (fritDrop s)
    else
      let l := if x.reforms.any fun r => r.1 == gen then
          x.reforms.map fun r => if r.1 = gen then (r.1, r.2.1, r.2.2 ++ removed) else r
        else x.reforms ++ [(gen, turn, removed)]
      ok (setGrp s group { x with reforms := l })

/-- FRIT_FAIL (R296, R306): the operation ends with the STATUS named. -/
def execFritFail (group gen opseq status : Nat) (s : State) : Res :=
  match findOp s group gen opseq with
  | none => ok (fritDrop s)
  | some o => ok (endOp s o status)

/-! NACK (R272, R273, R297). -/

/-- NACK (R272, R273). -/
def execCellNack (c : FabCell) (s : State) : Res :=
  answered 5 c s fun s => ok (nacked s c)

/-! Link retry (R270, R271). -/

/-- The retry buffer's cells from index first on are sent again with RTY, in slots one after another; later cells move by the retry's cost
(R270). -/
def resend (s : State) (port first : Nat) (x : PortX) : State :=
  let cost := 4 * rd s (Fd.portStateLat port) + 48
  let again := (List.zip (List.range x.buf.length) (x.buf.drop first)).map fun p =>
    { p.2 with at_ := s.now + 56 * p.1 / 25, cell := { p.2.cell with rty := true } }
  let s := setPort s port { x with buf := x.buf.take first ++ again, free := max x.free (25 * s.now) + 25 * cost }
  let s := bump (bump (notice s (Fd.nPortRetry port)) (Fd.portRetriesCount port) 1) (Fd.portRetryCycCount port) cost
  again.foldl (fun s c => emit (bump s (Fd.portCellsTxCount port) 1) (.cell port c.cell c.at_)) s

/-- LINK_RETRY_REQUEST (R270, R271): the neighbour asks again from cell `first` of the retry buffer; a repeated request is
a failed retry, and the eighth in a row takes the port DOWN. A cell that the buffer does not hold, or a port that is DOWN, resends nothing. -/
def execLinkRetryRequest (port first : Nat) (repeated : Bool) (s : State) : Res :=
  if 12 ≤ port ∨ ¬ availPort s port then .fault .noSuchUnit
  else
    let x := portX s port
    if ¬ portLive s port ∨ x.buf.length ≤ first then ok s
    else
      let fails := if repeated then x.fails + 1 else 0
      let s := wr s (Fd.portRetryRunRun port) (max (rd s (Fd.portRetryRunRun port)) fails)
      if fails < 8 then ok (resend s port first { x with fails := fails })
      else
        ok (portDownWith s port true (x.buf ++ x.wait))

end Sys2Proof.Machine
end

