-- ==== Sys2Proof/Machine/Grain.lean ====
section
/-! DEFINITION. The grain cores: dispatch and faults (R123 to R127), registers and operand timing (R119, R130, R138,
R139), and the scalar, memory, predicate and control instructions of R129. A grain command executes the instruction at
the program counter of its core; a word with a reserved OP faults the member whichever command names the core. -/

namespace Sys2Proof.Machine

def grnPage (t : Nat) : Nat := tilePage t 2

/-! Registers (R119). -/

def Core.rx (k : Core) (i : Nat) : Nat := if i = 0 then 0 else Tab.get 0 k.x i
def Core.rv (k : Core) (i : Nat) : Nat := Tab.get 0 k.v i
def Core.rp (k : Core) (i : Nat) : Nat := if i = 0 then 2 ^ 128 - 1 else Tab.get 0 k.p i
/-- Writes to x0 and p0 are discarded. -/
def Core.wx (k : Core) (i v : Nat) : Core := if i = 0 then k else { k with x := Tab.put 0 k.x i (v % 2 ^ 64) }
def Core.wv (k : Core) (i v : Nat) : Core := { k with v := Tab.put 0 k.v i (v % 2 ^ 128) }
def Core.wp (k : Core) (i v : Nat) : Core := if i = 0 then k else { k with p := Tab.put 0 k.p i (v % 2 ^ 128) }

/-- Element i, of sz bytes, of the group that starts at vn. -/
def Core.elem (k : Core) (start sz i : Nat) : Nat := (k.rv (start + i * sz / 16) >>> (8 * (i * sz % 16))) % 2 ^ (8 * sz)

/-- Registers from start on written with elements of sz bytes, the last one padded with zeros. -/
def Core.wElems (k : Core) (start sz : Nat) (l : List Nat) : Core :=
  let bs := l.flatMap (leBytes sz)
  (List.range (ceilDiv bs.length 16)).foldl (fun k r => k.wv (start + r) (fieldLE bs (16 * r) 16)) k

/-! Types (R128). -/

/-- Bytes of an element. -/
def tySize (ty : Nat) : Nat := match ty with | 0 => 1 | 1 => 2 | 2 => 4 | 3 => 8 | 4 => 2 | 5 => 4 | _ => 8
def tyIsFp (ty : Nat) : Bool := 4 ≤ ty && ty ≤ 6
def tyFmt (ty : Nat) : Fmt := match ty with | 4 => bf16 | 5 => fp32 | _ => fp64
def grpOf (g : Nat) : Nat := 2 ^ g

/-! Result timing (R138): register keys 0-31 x, 32-63 v, 64-71 p. -/

def kx (i : Nat) : Nat := i
def kv (i : Nat) : Nat := 32 + i
def kp (i : Nat) : Nat := 64 + i

def Core.setRdy (k : Core) (key c : Nat) : Core := { k with rdy := Tab.put 0 k.rdy key c }
/-- Group results: register s ready at c + s * gap. -/
def Core.setRdys (k : Core) (start n c gap : Nat) : Core :=
  (List.range n).foldl (fun k s => k.setRdy (kv (start + s)) (c + s * gap)) k
/-- The first cycle in which the core may issue an instruction whose sources (key, slack) are ready by slack cycles
after it. -/
def Core.issueAt (k : Core) (src : List (Nat × Nat)) : Nat :=
  src.foldl (fun c r => max c (Tab.get 0 k.rdy r.1 - r.2)) k.ready
/-- The registers of a group as sources, slice s needed at s * gap. -/
def srcGroup (start n gap : Nat) : List (Nat × Nat) := (List.range n).map fun s => (kv (start + s), s * gap)

/-! Dispatches. -/

/-- A record of the grain cluster (R127, R147). -/
def grnPosting (t tag status acc cyc detail : Nat) (flags : Flags) (count : Nat) : Posting :=
  { unit := grnPage t, read := none, stop := none, acc := acc
    notices := if isReject status then [] else if status = St.abandoned then [Fd.nGrnAbandon t] else []
    counts := if status = St.done then [Fd.grnOpsCount t] else []
    flagPage := grnPage t, errs := if isReject status || status == St.abandoned then [grnPage t] else []
    prod := prodTile t, queue := Fd.grnCqQueue t
    rec_ := { tag := tag, status := status, kind := Sk.grn, idx := t, cyc := cyc, detail := detail, flags := flags, count := count } }

/-- DETAIL of a dispatch (R127). -/
def Dispatch.detail (d : Dispatch) (cyc : Nat) : Nat :=
  min d.stall 0x3FFF * 2 ^ 50 + (match d.gfault with
    | some f => 2 ^ 49 + f.core % 32 * 2 ^ 44 + f.pc % 4096 * 2 ^ 32
    | none => 0) + (cyc - d.acc) % 2 ^ 32

/-- The dispatch that core c of tile t is a live member of. -/
def dispatchOf (s : State) (t c : Nat) : Option Dispatch := (tile s t).dispatches.find? fun d => d.live.contains c

def updDispatch (s : State) (t acc : Nat) (f : Dispatch → Dispatch) : State :=
  updTile s t fun x => { x with dispatches := x.dispatches.map fun d => if d.acc = acc then f d else d }

/-- The deciding fault: the earlier one, the lower core in one cycle (R126). -/
def earlier (a : Option GFault) (b : GFault) : GFault :=
  match a with
  | none => b
  | some x => if b.cyc < x.cyc ∨ (b.cyc = x.cyc ∧ b.core < x.core) then b else x

/-- A dispatch with no live member posts its record in the cycle after the last finish (R125). -/
def closeDispatch (s : State) (t acc : Nat) : State :=
  match (tile s t).dispatches.find? fun d => d.acc == acc with
  | some d =>
    if d.live.isEmpty then
      let s := updTile s t fun x => { x with dispatches := x.dispatches.filter fun e => e.acc != acc }
      let st := match d.gfault with | some f => f.status | none => St.done
      postAt s (grnPosting t d.tag st d.acc (d.lastEnd + 1) (d.detail (d.lastEnd + 1)) d.flags d.stores)
    else s
  | none => s

/-- A member finishes at clock cycle cyc, by HALT or by a fault (R125, R126). -/
def finishMember (s : State) (t c cyc : Nat) (fault : Option Nat) : State :=
  match dispatchOf s t c with
  | none => s
  | some d =>
    let k := coreOf s t c
    let s := match fault with | some _ => notice s (Fd.nGrnFault t) | none => s
    let s := updDispatch s t d.acc fun d =>
      { d with live := d.live.erase c, flags := d.flags ||| k.flags, lastEnd := max d.lastEnd cyc,
               gfault := match fault with | some st => some (earlier d.gfault ⟨st, c, k.pc, cyc⟩) | none => d.gfault }
    closeDispatch s t d.acc

/-- Cores of a member mask. -/
def maskCores (m : Nat) : List Nat := (List.range 32).filter m.testBit

/-- The dispatch descriptor (R123). -/
structure RunD where
  op : Nat
  entry : Nat
  cores : Nat
  arg : Nat
  rsv : Bool
  deriving DecidableEq, Repr

def runD (d : List Byte) : RunD :=
  { op := bits (dword d 0) 31 28, entry := bits (dword d 0) 11 0, cores := dword d 1, arg := fieldLE d 8 8,
    rsv := bits (dword d 0) 27 12 != 0 || fieldLE d 16 16 != 0 }

/-- A descriptor that the GRN cannot accept yet (R124, order 3): a member runs already, or 4 dispatches run. -/
def RunD.blocked (d : RunD) (x : Tile) : Bool :=
  !d.rsv && d.op == 1 && d.cores != 0 &&
    (decide (4 ≤ x.dispatches.length) || x.dispatches.any fun e => e.cores.any d.cores.testBit)

/-- A member at acceptance (R125): rank x1, member count x2, ARG x3. -/
def startMember (s : State) (t c rank n acc : Nat) (d : RunD) : State :=
  let k := coreOf s t c
  let k := ((k.wx 1 rank).wx 2 n).wx 3 d.arg
  setCore s t c { k with pc := d.entry, eflags := [], flags := 0, step := 0, srtag := 0, ready := acc + 12, rdy := [],
                         tcount := 0, waiting := none }

/-- A descriptor that the GRN's checks turn away: its record comes at cycle 10 (R124, R125). -/
def rejectRun (s : State) (t : Nat) (i : Issue) (status : Nat) : State :=
  postLater s { grnPosting t i.tag status i.cyc (i.cyc + 10) 10 0 0 with
    notices := if status = St.badDesc then [Fd.nGrnReject t] else [], read := some i.desc, stop := some (Fd.nGrnAbandon t) }

/-- RUN (R123 to R125): the issued dispatch is read, checked, and its members start; one that the GRN cannot accept yet waits in its TSQ
entry (R124, order 3). -/
def execRun (t : Nat) (s : State) : Res :=
  match takeIssue (settle s) t 1 with
  | none => .fault .noOperation
  | some (i, s') =>
    let d := runD (readBytes s' (tileBase t + i.desc) 32)
    if d.rsv ∨ d.op ≠ 1 then ok (rejectRun s' t i St.badDesc)
    else if d.cores = 0 then ok (rejectRun s' t i St.doneEmpty)
    else if d.blocked (tile s' t) then ok s
    else
      let cs := maskCores d.cores
      let x : Dispatch :=
        { tag := i.tag, acc := i.cyc, place := i.desc, late := 0, cores := cs, live := cs, stores := 0, stall := 0, flags := 0, gfault := none,
          lastEnd := i.cyc, num := tileNum s' t, waited := 0 }
      let s' := updTile s' t fun y =>
        { y with dispatches := y.dispatches ++ [x], opc := y.opc.filter fun a => !cs.contains a.core }
      ok ((List.zip (List.range cs.length) cs).foldl (fun s p => startMember s t p.2 p.1 cs.length i.cyc d) s')

/-- Every dispatch of a tile stopped at clock cycle c (R126): members that run or wait stop, ABANDONED is posted, for a descriptor still in its
checks too (R30). -/
def abandonGrn (s : State) (t c : Nat) : State :=
  let s := (tile s t).dispatches.foldl (fun s d =>
    let fl := d.live.foldl (fun f m => f ||| (coreOf s t m).flags) d.flags
    let s := d.live.foldl (fun s m => setCore s t m { coreOf s t m with waiting := none }) s
    let s := updTile s t fun x => { x with dispatches := x.dispatches.filter fun e => e.acc != d.acc }
    postNow s (grnPosting t d.tag St.abandoned d.acc c (d.detail c) fl d.stores)) s
  stopChecks (updTile s t fun x => { x with opc := [] }) c fun u => u == grnPage t

/-! One instruction. -/

/-- What an instruction sees: the state, tile and core numbers, its dispatch, its core and its word. -/
structure GIn where
  s : State
  t : Nat
  c : Nat
  d : Dispatch
  k : Core
  w : Nat
  deriving DecidableEq, Repr

/-- What an instruction does when it does not fault: the core's registers with their ready cycles and its next pc, the
bytes stored, its issue cycle, the first cycle of the next issue, and the words of OPC that its slices ask for with the registers that come
with them; holds: the next issue waits for them. -/
structure Eff where
  core : Core
  next : Nat
  t0 : Nat
  ready : Nat
  stores : List (Nat × List Byte) := []
  isStore : Bool := false
  slices : List (Option Nat × List Nat) := []
  holds : Bool := false
  deriving DecidableEq, Repr

/-- The outcome of an instruction: a fault, its effect, HALT, or that the word is another instruction's. -/
inductive GOut where
  | fault (status t0 : Nat)
  | go (e : Eff)
  | halt (t0 : Nat)
  | other (t0 : Nat)
  deriving DecidableEq, Repr

/-- The issue cycle. -/
def GOut.t0 : GOut → Nat
  | .fault _ t0 => t0
  | .go e => e.t0
  | .halt t0 => t0
  | .other t0 => t0

/-- The OP values with a meaning (R129). -/
def grainOp (op : Nat) : Bool :=
  op ≤ 8 || (0x10 ≤ op && op ≤ 0x15) || (0x18 ≤ op && op ≤ 0x1B) || (0x20 ≤ op && op ≤ 0x31) || (0x38 ≤ op && op ≤ 0x3C)

/-- The instruction at the program counter (R121). -/
def grainWord (s : State) (t c : Nat) : Nat := readLE s (imemBase t c + 4 * (coreOf s t c).pc) 4

/-- A member faults (R126): the clock goes on to the issue cycle. From the guard band start on no member issues (R30). -/
def grainFault (s : State) (t c status t0 : Nat) : Res :=
  if s.turn.guardAt ≤ t0 then ok s else ok (finishMember (settleTo s t0) t c t0 (some status))

/-- What an instruction that did not fault leaves in its issue cycle: registers, stores in order, counters (R127, R147), and what its slices
ask of the operand cache (R122). -/
def grainRetire (s : State) (t c : Nat) (d : Dispatch) (e : Eff) : State :=
  let s := setCore s t c { e.core with pc := e.next % 4096, ready := e.ready }
  let s := e.stores.foldl (fun s p => store s p.1 p.2) s
  let s := bump s (Fd.grnRetiredCount t) 1
  let s := if e.slices.any fun p => p.1.isSome then
      updTile s t fun x => { x with opc := x.opc ++ [⟨c, e.t0, e.slices, e.holds⟩] }
    else s
  updDispatch s t d.acc fun d => { d with stores := d.stores + b2n e.isStore }

/-- The state after an instruction that did not fault: what was due by its issue cycle has happened. -/
def grainDone (s : State) (t c : Nat) (d : Dispatch) (e : Eff) : State := grainRetire (settleTo s e.t0) t c d e

/-- An instruction that did not fault: it issues, and a store retires in its last issue cycle (R138), unless the guard band stops its
core before that (R30). -/
def grainGo (s : State) (t c : Nat) (d : Dispatch) (e : Eff) : Res :=
  if s.turn.guardAt ≤ e.t0 ∨ (e.isStore ∧ s.turn.guardAt < e.ready) then ok s else ok (grainDone s t c d e)

/-- A member finishes by HALT (R125). -/
def grainHalt (s : State) (t c t0 : Nat) : Res :=
  if s.turn.guardAt ≤ t0 then ok s else ok (finishMember (bump (settleTo s t0) (Fd.grnRetiredCount t) 1) t c t0 none)

/-- What the instruction at the pc of a core does: a word with a reserved OP faults whichever instruction is asked for. -/
def grainOut (mine : Nat → Bool) (f : GIn → GOut) (i : GIn) : GOut :=
  if ¬ grainOp (bits i.w 31 26) then .fault St.badDesc i.k.ready
  else if ¬ mine (bits i.w 31 26) then .other i.k.ready
  else f i

/-- What an instruction of core c of tile t sees. -/
def grainIn (s : State) (t c : Nat) (d : Dispatch) : GIn := ⟨s, t, c, d, coreOf s t c, grainWord s t c⟩

/-- The clock carried to the cycle in which core c issues its instruction; a cycle that an earlier access loses on the way moves it (R122). -/
def grainAt (t c : Nat) (f : GIn → GOut) : Nat → State → State
  | 0, s => s
  | n + 1, s => match dispatchOf s t c with
    | none => s
    | some d =>
      let t0 := (f (grainIn s t c d)).t0
      if s.turn.guardAt ≤ t0 ∨ (t0 ≤ s.now ∧ s.settled = s.now) then s else grainAt t c f n (settleTo s t0)

/-- The frame of every grain instruction: the member must be live and not waiting, and the word at its pc must be the
command's instruction. -/
def grainExec (t c : Nat) (mine : Nat → Bool) (f : GIn → GOut) (s : State) : Res :=
  match dispatchOf s t c with
  | none => .fault .noOperation
  | some _ =>
    if (coreOf s t c).waiting.isSome then .fault .noOperation
    else
      let s := grainAt t c (grainOut mine f) 4096 s
      match dispatchOf s t c with
      | none => ok s
      | some d => match grainOut mine f (grainIn s t c d) with
        | .fault st t0 => grainFault s t c st t0
        | .go e => grainGo s t c d e
        | .halt t0 => grainHalt s t c t0
        | .other _ => .fault .otherInstruction

/-- A scalar result: xd written at t0, ready lat cycles later; the next instruction issues in the next cycle. A discarded write to x0 or p0
has a ready cycle too, which a later reader of it waits for (the model's choice, log entry 10). -/
def scalarGo (i : GIn) (src : List (Nat × Nat)) (xd v lat : Nat) : GOut :=
  let t0 := i.k.issueAt src
  .go { core := (i.k.wx xd v).setRdy (kx xd) (t0 + lat), next := i.k.pc + 1, t0 := t0, ready := t0 + 1 }

/-- Formats S and I (R128). -/
def fD (w : Nat) : Nat := bits w 25 21
def fA (w : Nat) : Nat := bits w 20 16
def fB (w : Nat) : Nat := bits w 15 11
def imm16 (w : Nat) : Int := toSigned 16 (bits w 15 0)
/-- xa plus a signed immediate, modulo 2^64. -/
def addImm (a : Nat) (i : Int) : Nat := ofSigned 64 ((a : Int) + i)

/-- HALT (R125, R129): the member finishes; a nonzero operand bit faults. -/
def execHalt (t c : Nat) (s : State) : Res :=
  grainExec t c (· == 0) (fun i => if i.w ≠ 0 then .fault St.badDesc i.k.ready else .halt i.k.ready) s

/-- ADDI (R129). -/
def execAddi (t c : Nat) (s : State) : Res :=
  grainExec t c (· == 0x01) (fun i => scalarGo i [(kx (fA i.w), 0)] (fD i.w) (addImm (i.k.rx (fA i.w)) (imm16 i.w)) 1) s

/-- The value of an ALU instruction (R129). A shift by 64 or more has no stated value: it is free (log entry 9). -/
def aluVal (ev fn a b : Nat) : Nat :=
  let sh (v : Nat) : Nat := if b < 64 then v else Config.grainOpen 1 ev fn % 2 ^ 64
  match fn with
  | 0 => (a + b) % 2 ^ 64
  | 1 => ofSigned 64 ((a : Int) - b)
  | 2 => a &&& b
  | 3 => a ||| b
  | 4 => a ^^^ b
  | 5 => sh (a <<< b % 2 ^ 64)
  | 6 => sh (a >>> b)
  | 7 => sh (ofSigned 64 (toSigned 64 a >>> b))
  | 8 => b2n (toSigned 64 a < toSigned 64 b)
  | 9 => b2n (a < b)
  | 10 => a * b % 2 ^ 64
  | _ => ofSigned 64 (toSigned 64 a * toSigned 64 b / 2 ^ 64)

/-- ALU (R129). -/
def execAlu (t c : Nat) (s : State) : Res :=
  grainExec t c (· == 0x02) (fun i =>
    let fn := bits i.w 10 0
    if fn > 11 then .fault St.badDesc i.k.ready
    else scalarGo i [(kx (fA i.w), 0), (kx (fB i.w), 0)] (fD i.w) (aluVal i.s.fresh fn (i.k.rx (fA i.w)) (i.k.rx (fB i.w)))
      (if fn ≥ 10 then 3 else 1)) s

/-- LUI (R129). -/
def execLui (t c : Nat) (s : State) : Res :=
  grainExec t c (· == 0x03) (fun i => scalarGo i [] (fD i.w) (ofSigned 64 (imm16 i.w * 65536)) 1) s

/-! Core addresses (R121). -/

/-- The local offset of n bytes at a core address, or none outside LDM and OPC. -/
def coreAddr (t c a n : Nat) : Option Nat :=
  if a + n ≤ 0x2000 then some (ldmBase t c + a)
  else if 0x100000 ≤ a ∧ a + n ≤ 0x140000 then some (opcBase t + (a - 0x100000))
  else none

/-- Whether a core address lies in OPC, where accesses can lose bank cycles (R122). -/
def inOpc (a : Nat) : Bool := 0x100000 ≤ a && a < 0x140000
/-- Load latency by address (R139). -/
def loadLat (a : Nat) : Nat := if inOpc a then 4 else 2

/-- The 16-byte word of OPC at a core address (R122). -/
def opcWord (a : Nat) : Option Nat := if inOpc a then some (a / 16) else none

/-- LDX (R129, R126): a lost cycle delays its result, not the core's next issue (the model's choice, log entry 10). -/
def execLdx (t c : Nat) (s : State) : Res :=
  grainExec t c (· == 0x04) (fun i =>
    let a := addImm (i.k.rx (fA i.w)) (imm16 i.w)
    let t0 := i.k.issueAt [(kx (fA i.w), 0)]
    match coreAddr t c a 8 with
    | none => .fault St.badAddr t0
    | some o =>
      if a % 8 ≠ 0 then .fault St.badAddr t0
      else .go { core := (i.k.wx (fD i.w) (readLE i.s o 8)).setRdy (kx (fD i.w)) (t0 + loadLat a),
                 next := i.k.pc + 1, t0 := t0, ready := t0 + 1, slices := [(opcWord a, [kx (fD i.w)])] }) s

/-- STX (R129, R126): its last issue cycle, and the next issue, come later by a lost cycle (the model's choice, log entry 10). -/
def execStx (t c : Nat) (s : State) : Res :=
  grainExec t c (· == 0x05) (fun i =>
    let a := addImm (i.k.rx (fA i.w)) (imm16 i.w)
    let t0 := i.k.issueAt [(kx (fA i.w), 0), (kx (fD i.w), 0)]
    match coreAddr t c a 8 with
    | none => .fault St.badAddr t0
    | some o =>
      if a % 8 ≠ 0 then .fault St.badAddr t0
      else .go { core := i.k, next := i.k.pc + 1, t0 := t0, ready := t0 + 1,
                 stores := [(o, leBytes 8 (i.k.rx (fD i.w)))], isStore := true, slices := [(opcWord a, [])], holds := true }) s

/-- The condition of BR (R129). -/
def brTaken (k : Core) (cond xa xb : Nat) : Bool :=
  let a := k.rx xa
  let b := k.rx xb
  match cond with
  | 0 => a == b
  | 1 => a != b
  | 2 => toSigned 64 a < toSigned 64 b
  | 3 => toSigned 64 b ≤ toSigned 64 a
  | 4 => a < b
  | 5 => b ≤ a
  | 6 => k.rp (xa % 8) != 0
  | _ => k.rp (xa % 8) == 0

/-- BR (R129, R138): a taken branch issues its target 3 cc later. The offset counts from the branch (PRESUMED, log
entry 10). -/
def execBr (t c : Nat) (s : State) : Res :=
  grainExec t c (· == 0x06) (fun i =>
    let xa := bits i.w 25 21
    let xb := bits i.w 20 16
    let cond := bits i.w 15 13
    let t0 := i.k.issueAt (if cond ≥ 6 then [(kp (xa % 8), 0)] else [(kx xa, 0), (kx xb, 0)])
    let taken := brTaken i.k cond xa xb
    let target := (((i.k.pc : Int) + toSigned 13 (bits i.w 12 0)) % 4096).toNat
    .go { core := i.k, next := if taken then target else i.k.pc + 1, t0 := t0,
          ready := if taken then t0 + 3 else t0 + 1 }) s

/-- The value of a CSR (R134) in clock cycle t0; none for a reserved number. -/
def csrRead (i : GIn) (n t0 : Nat) : Option Nat :=
  match n with
  | 0 => some i.k.flags.toNat
  | 1 => some i.c
  | 2 => some i.t
  | 3 => some (turnNo i.s % 2 ^ 32)
  | 4 => some (offsetAt i.s t0)
  | 5 => some i.k.step
  | 6 => some i.k.srtag
  | _ => none

/-- CSRR (R129, R134). -/
def execCsrr (t c : Nat) (s : State) : Res :=
  grainExec t c (· == 0x07) (fun i =>
    match csrRead i (bits i.w 15 0) i.k.ready with
    | none => .fault St.badDesc i.k.ready
    | some v => scalarGo i [] (fD i.w) v 1) s

/-- CSRW (R129, R134): FLAGS clears by ones; read-only and reserved CSRs fault. -/
def execCsrw (t c : Nat) (s : State) : Res :=
  grainExec t c (· == 0x08) (fun i =>
    let v := i.k.rx (fA i.w)
    let t0 := i.k.issueAt [(kx (fA i.w), 0)]
    let fin (k : Core) : GOut := .go { core := k, next := i.k.pc + 1, t0 := t0, ready := t0 + 1 }
    match bits i.w 15 0 with
    | 0 => fin { i.k with flags := i.k.flags &&& ~~~ (BitVec.ofNat 32 v) }
    | 5 => fin { i.k with step := v % 2 ^ 32 }
    | 6 => fin { i.k with srtag := v % 1024 }
    | _ => .fault St.badDesc i.k.ready) s

/-! Vector loads and stores (R129, R130). -/

/-- The fields of formats M, V, R (R128): destination or first operand, sources, predicate, type, group, Z. -/
structure VF where
  d : Nat
  a : Nat
  b : Nat
  pg : Nat
  ty : Nat
  g : Nat
  z : Bool
  sub : Nat
  deriving DecidableEq, Repr

def fmtV (w : Nat) : VF :=
  { d := bits w 25 21, a := bits w 20 16, b := bits w 15 11, pg := bits w 10 8, ty := bits w 7 5, g := grpOf (bits w 4 3),
    z := bit w 2, sub := bits w 1 0 }
def fmtM (w : Nat) : VF :=
  { d := bits w 25 21, a := bits w 20 16, b := 0, pg := bits w 15 13, ty := bits w 10 8, g := grpOf (bits w 12 11),
    z := bit w 7, sub := 0 }

/-- Element size and number of elements (R119). -/
def VF.sz (f : VF) : Nat := tySize f.ty
def VF.n (f : VF) : Nat := 16 / f.sz * f.g
/-- The TYPE is reserved, or a group start is not a multiple of g. -/
def VF.bad (f : VF) (starts : List Nat) : Bool := f.ty == 7 || starts.any fun x => x % f.g != 0
/-- Element i is active (R130). -/
def VF.act (f : VF) (k : Core) (i : Nat) : Bool := (k.rp f.pg).testBit i
/-- Active element indices. -/
def VF.active (f : VF) (k : Core) : List Nat := (List.range f.n).filter (f.act k)
/-- What an inactive element of the destination is written as. -/
def VF.idle (f : VF) (k : Core) (i : Nat) : Nat := if f.z then 0 else k.elem f.d f.sz i

/-- The base address of a VLD or VST. -/
def memBase (i : GIn) (f : VF) : Nat := addImm (i.k.rx f.a) (toSigned 7 (bits i.w 6 0) * 16)

/-- The checks of a VLD or VST (R126, R130). -/
def vmemBad (t c a : Nat) (f : VF) (k : Core) : Bool :=
  a % 16 != 0 || (f.active k).any fun j => (coreAddr t c (a + j * f.sz) f.sz).isNone

/-- Some active element of a VLD or VST lies in OPC. -/
def vmemOpc (a : Nat) (f : VF) (k : Core) : Bool := (f.active k).any fun j => inOpc (a + j * f.sz)

/-- Latency of a VLD (R139): from OPC where an active element, or with none the base, lies there. -/
def vldLat (a : Nat) (f : VF) (k : Core) : Nat := if vmemOpc a f k ∨ inOpc a then 4 else 2

/-- The words of OPC that the slices of a VLD or VST ask for: of those with an active element there. -/
def vmemSlices (a : Nat) (f : VF) (k : Core) (regs : Bool) : List (Option Nat × List Nat) :=
  (List.range f.g).map fun s =>
    (if (f.active k).any fun j => j * f.sz / 16 == s && inOpc (a + j * f.sz) then some (a / 16 + s) else none, if regs then [kv (f.d + s)] else [])

/-- VLD (R129, R130, R138, R139): the cycles that a slice loses delay it and every later slice, not the core's next issue (the model's choice,
log entry 10). -/
def execVld (t c : Nat) (s : State) : Res :=
  grainExec t c (· == 0x10) (fun i =>
    let f := fmtM i.w
    let a := memBase i f
    let t0 := i.k.issueAt [(kx f.a, 0), (kp f.pg, 0)]
    if f.bad [f.d] then .fault St.badDesc i.k.ready
    else if vmemBad t c a f i.k then .fault St.badAddr t0
    else
      let vals := (List.range f.n).map fun j =>
        if f.act i.k j then (match coreAddr t c (a + j * f.sz) f.sz with | some o => readLE i.s o f.sz | none => 0)
        else f.idle i.k j
      .go { core := (i.k.wElems f.d f.sz vals).setRdys f.d f.g (t0 + vldLat a f i.k) 1,
            next := i.k.pc + 1, t0 := t0, ready := t0 + f.g, slices := vmemSlices a f i.k true }) s

/-- VST (R129, R130): its last slice issues after the cycles that its slices lose. -/
def execVst (t c : Nat) (s : State) : Res :=
  grainExec t c (· == 0x11) (fun i =>
    let f := fmtM i.w
    let a := memBase i f
    let t0 := i.k.issueAt ([(kx f.a, 0), (kp f.pg, 0)] ++ srcGroup f.d f.g 1)
    if f.bad [f.d] then .fault St.badDesc i.k.ready
    else if vmemBad t c a f i.k then .fault St.badAddr t0
    else
      .go { core := i.k, next := i.k.pc + 1, t0 := t0, ready := t0 + f.g,
            stores := (f.active i.k).filterMap fun j =>
              (coreAddr t c (a + j * f.sz) f.sz).map fun o => (o, leBytes f.sz (i.k.elem f.d f.sz j)),
            isStore := true, slices := vmemSlices a f i.k false, holds := true }) s

/-- Registers of the index group of a gather or scatter: n indices of 4 bytes. -/
def VF.idxRegs (f : VF) : Nat := max 1 (f.n * 4 / 16)
/-- The address of element j of a gather or scatter; the I32 index is signed (DEDUCED, log entry 10). -/
def idxAddr (i : GIn) (f : VF) (j : Nat) : Nat :=
  addImm (i.k.rx f.a) (toSigned 32 (i.k.elem f.b 4 j) * f.sz)
def idxBad (i : GIn) (f : VF) : Bool :=
  (f.active i.k).any fun j => decide (idxAddr i f j % f.sz ≠ 0) || (coreAddr i.t i.c (idxAddr i f j) f.sz).isNone
/-- The words of OPC that the active elements js of a gather or scatter ask for, one a cycle; with regs the registers of a gather's result that come with
each: from its slice up to the next element's. -/
def idxSlices (i : GIn) (f : VF) (regs : Bool) : List Nat → List (Option Nat × List Nat)
  | [] => []
  | j :: js =>
    let upTo := match js with | [] => f.g | n :: _ => n * f.sz / 16
    (opcWord (idxAddr i f j), if regs then (List.range (upTo - j * f.sz / 16)).map fun r => kv (f.d + j * f.sz / 16 + r) else []) ::
      idxSlices i f regs js

/-- VGATH (R129, R130, R138, R139). -/
def execVgath (t c : Nat) (s : State) : Res :=
  grainExec t c (· == 0x12) (fun i =>
    let f := fmtV i.w
    let t0 := i.k.issueAt ([(kx f.a, 0), (kp f.pg, 0)] ++ srcGroup f.b f.idxRegs 1)
    if f.bad [f.d] ∨ f.b % f.idxRegs ≠ 0 ∨ f.sub ≠ 0 then .fault St.badDesc i.k.ready
    else if idxBad i f then .fault St.badAddr t0
    else
      let vals := (List.range f.n).map fun j =>
        if f.act i.k j then (match coreAddr t c (idxAddr i f j) f.sz with | some o => readLE i.s o f.sz | none => 0)
        else f.idle i.k j
      let l := 4 + (f.active i.k).length
      .go { core := (i.k.wElems f.d f.sz vals).setRdys f.d f.g (t0 + l) 1, next := i.k.pc + 1, t0 := t0, ready := t0 + l,
            slices := idxSlices i f true (f.active i.k), holds := true }) s

/-- VSCAT (R129, R130, R138, R139): ascending elements, so a later one wins. -/
def execVscat (t c : Nat) (s : State) : Res :=
  grainExec t c (· == 0x13) (fun i =>
    let f := fmtV i.w
    let t0 := i.k.issueAt ([(kx f.a, 0), (kp f.pg, 0)] ++ srcGroup f.b f.idxRegs 1 ++ srcGroup f.d f.g 1)
    if f.bad [f.d] ∨ f.b % f.idxRegs ≠ 0 ∨ f.sub ≠ 0 then .fault St.badDesc i.k.ready
    else if idxBad i f then .fault St.badAddr t0
    else
      .go { core := i.k, next := i.k.pc + 1, t0 := t0, ready := t0 + max 1 (f.active i.k).length,
            stores := (f.active i.k).filterMap fun j =>
              (coreAddr t c (idxAddr i f j) f.sz).map fun o => (o, leBytes f.sz (i.k.elem f.d f.sz j)),
            isStore := true, slices := idxSlices i f false (f.active i.k), holds := true }) s

/-- A vector result without flags, element by element: slices in consecutive cycles (R138). -/
def vecGo (i : GIn) (f : VF) (src : List (Nat × Nat)) (lat : Nat) (val : Nat → Nat) : GOut :=
  let t0 := i.k.issueAt ((kp f.pg, 0) :: src)
  let vals := (List.range f.n).map fun j => if f.act i.k j then val j else f.idle i.k j
  .go { core := (i.k.wElems f.d f.sz vals).setRdys f.d f.g (t0 + lat) 1, next := i.k.pc + 1, t0 := t0, ready := t0 + f.g }

/-- VBCAST (R129). -/
def execVbcast (t c : Nat) (s : State) : Res :=
  grainExec t c (· == 0x14) (fun i =>
    let f := fmtV i.w
    if f.bad [f.d] ∨ f.sub ≠ 0 then .fault St.badDesc i.k.ready
    else vecGo i f [(kx f.a, 0)] 1 fun _ => i.k.rx f.a % 2 ^ (8 * f.sz)) s

/-- VMOVX (R129): it takes one issue cycle, as in the example of R139. The bits of xd above the element are not stated and are free (log entry 9). An inactive element leaves
xd, or with Z writes 0 (R130). It leaves the per-element flag sets as they are: it computes no element (the model's choice, log entry 10). -/
def execVmovx (t c : Nat) (s : State) : Res :=
  grainExec t c (· == 0x15) (fun i =>
    let f := fmtV i.w
    let e := i.k.rx f.b
    let t0 := i.k.issueAt ([(kx f.b, 0), (kp f.pg, 0)] ++ srcGroup f.a f.g 0)
    if f.bad [f.a] ∨ f.sub ≠ 0 then .fault St.badDesc i.k.ready
    else if f.n ≤ e then .fault St.badDesc t0
    else
      let w := 2 ^ (8 * f.sz)
      let v := i.k.elem f.a f.sz e + (if f.sz = 8 then 0 else Config.grainOpen 2 i.s.fresh e % (2 ^ 64 / w) * w)
      let v := if f.act i.k e then v else if f.z then 0 else i.k.rx f.d
      .go { core := (i.k.wx f.d v).setRdy (kx f.d) (t0 + 1), next := i.k.pc + 1, t0 := t0, ready := t0 + 1 }) s

/-! Predicates (R129). -/

/-- The lowest set bit of a number below 2^n. -/
def lowBit (p n : Nat) : Nat := match (List.range n).find? p.testBit with | some i => 2 ^ i | none => 0

/-- A predicate result: bits from n up are 0 (R119). -/
def predGo (i : GIn) (src : List (Nat × Nat)) (pd n v : Nat) : GOut :=
  let t0 := i.k.issueAt src
  .go { core := (i.k.wp pd (v % 2 ^ n)).setRdy (kp pd) (t0 + 2), next := i.k.pc + 1, t0 := t0, ready := t0 + 1 }

/-- Element count of formats P and PX. -/
def nOf (ty g : Nat) : Nat := 16 / tySize ty * grpOf g

/-- PLOGIC (R129), over the bits below n. -/
def execPlogic (t c : Nat) (s : State) : Res :=
  grainExec t c (· == 0x18) (fun i =>
    let w := i.w
    let n := nOf (bits w 13 11) (bits w 10 9)
    let a := i.k.rp (bits w 22 20) % 2 ^ n
    let b := i.k.rp (bits w 19 17) % 2 ^ n
    if bits w 13 11 = 7 ∨ bits w 8 0 ≠ 0 then .fault St.badDesc i.k.ready
    else
      let v := match bits w 16 14 with
        | 0 => a &&& b
        | 1 => a ||| b
        | 2 => a ^^^ b
        | 3 => a &&& (2 ^ n - 1 - b)
        | 4 => 2 ^ n - 1 - a
        | 5 => lowBit a n
        | 6 => 2 ^ n - 1
        | _ => 0
      predGo i [(kp (bits w 22 20), 0), (kp (bits w 19 17), 0)] (bits w 25 23) n v) s

/-- Bits i below n for which f holds. -/
def predOf (n : Nat) (f : Nat → Bool) : Nat := ((List.range n).map fun i => if f i then 2 ^ i else 0).sum

/-- PTAIL (R129): signed compare of xa + i with xb; the sum wraps modulo 2^64. -/
def execPtail (t c : Nat) (s : State) : Res :=
  grainExec t c (· == 0x19) (fun i =>
    let w := i.w
    let n := nOf (bits w 12 10) (bits w 9 8)
    if bits w 12 10 = 7 ∨ bits w 7 0 ≠ 0 then .fault St.badDesc i.k.ready
    else
      let a := i.k.rx (bits w 22 18)
      let b := toSigned 64 (i.k.rx (bits w 17 13))
      predGo i [(kx (bits w 22 18), 0), (kx (bits w 17 13), 0)] (bits w 25 23) n
        (predOf n fun j => toSigned 64 (a + j) < b)) s

/-- PFLG (R129, R133): flag F of each element of the last flag-writing vector instruction. -/
def execPflg (t c : Nat) (s : State) : Res :=
  grainExec t c (· == 0x1A) (fun i =>
    let w := i.w
    let n := nOf (bits w 12 10) (bits w 9 8)
    if bits w 12 10 = 7 ∨ bits w 7 0 ≠ 0 ∨ bits w 17 13 ≠ 0 then .fault St.badDesc i.k.ready
    else predGo i [] (bits w 25 23) n (predOf n fun j => (i.k.eflags.getD j 0).toNat.testBit (bits w 22 18))) s

/-- PCNT (R129): set bits of p[22:20] among the first n, into the x register named in [17:13]. -/
def execPcnt (t c : Nat) (s : State) : Res :=
  grainExec t c (· == 0x1B) (fun i =>
    let w := i.w
    let n := nOf (bits w 12 10) (bits w 9 8)
    if bits w 12 10 = 7 ∨ bits w 7 0 ≠ 0 then .fault St.badDesc i.k.ready
    else
      let p := i.k.rp (bits w 22 20)
      scalarGo i [(kp (bits w 22 20), 0)] (bits w 17 13) ((List.range n).filter p.testBit).length 2) s

end Sys2Proof.Machine
end

