-- ==== Sys2Proof/Machine/GrainVec.lean ====
section
/-! DEFINITION. The vector arithmetic of the grain cores: element operations with their flags (R131, R133), conversions
(R132, R62, R63), reductions and scans in their fixed order (R135, R136), and the tile instructions (R137). -/

namespace Sys2Proof.Machine

/-- The flags that elements keep (R133). -/
def elemFlags : Flags :=
  Fl.nanIn ||| Fl.inv ||| Fl.ovf ||| Fl.unf ||| Fl.inx ||| Fl.flushed ||| Fl.empty ||| Fl.clip ||| Fl.rangeSat ||| Fl.dz

/-- An element-flag set replaces the old one and joins the sticky FLAGS CSR (R133). -/
def Core.setFlags (k : Core) (l : List Flags) : Core :=
  let l := l.map (· &&& elemFlags)
  { k with eflags := l, flags := k.flags ||| Fl.any l }

/-- An FP operand element, flushed under FTZ (R57, R58). -/
def fpIn (i : GIn) (ty code : Nat) : Fp × Flags :=
  let r := (tyFmt ty).flushIn (numFtz i.d.num) code
  ((tyFmt ty).decode r.1, r.2)

/-- A vector result with flags: values and flag sets of the active elements; gap is the cycles from slice to slice. -/
def flagGo (i : GIn) (f : VF) (src : List (Nat × Nat)) (lat gap : Nat) (val : Nat → Nat × Flags) : GOut :=
  let t0 := i.k.issueAt ((kp f.pg, 0) :: src)
  let r := (List.range f.n).map fun j => if f.act i.k j then val j else (f.idle i.k j, 0)
  .go { core := ((i.k.wElems f.d f.sz (r.map Prod.fst)).setRdys f.d f.g (t0 + lat) gap).setFlags (r.map Prod.snd),
        next := i.k.pc + 1, t0 := t0, ready := t0 + f.g * gap }

/-- Latency of an FP operation (R139). -/
def fpLat (ty : Nat) : Nat := if ty = 4 then 3 else 4

/-- Element j of a group as a signed integer. -/
def intAt (k : Core) (start sz j : Nat) : Int := toSigned (8 * sz) (k.elem start sz j)

/-- VARITH (R129, R131). -/
def execVarith (t c : Nat) (s : State) : Res :=
  grainExec t c (· == 0x20) (fun i =>
    let f := fmtV i.w
    let w := 8 * f.sz
    let rm := numRm i.d.num
    let ftz := numFtz i.d.num
    if f.bad [f.d, f.a, f.b] ∨ f.sub = 3 then .fault St.badDesc i.k.ready
    else flagGo i f (srcGroup f.a f.g 1 ++ srcGroup f.b f.g 1)
      (if tyIsFp f.ty then fpLat f.ty else if f.sub = 2 then 3 else 1) 1 fun j =>
        if tyIsFp f.ty then
          let a := fpIn i f.ty (i.k.elem f.a f.sz j)
          let b := fpIn i f.ty (i.k.elem f.b f.sz j)
          let r := match f.sub with
            | 0 => (tyFmt f.ty).add rm ftz a.1 b.1
            | 1 => (tyFmt f.ty).sub rm ftz a.1 b.1
            | _ => (tyFmt f.ty).mul rm ftz a.1 b.1
          (r.1, r.2 ||| a.2 ||| b.2)
        else
          let a := intAt i.k f.a f.sz j
          let b := intAt i.k f.b f.sz j
          (ofSigned w (match f.sub with | 0 => a + b | 1 => a - b | _ => a * b), 0)) s

/-- VFMA (R129, R131): one rounding. -/
def execVfma (t c : Nat) (s : State) : Res :=
  grainExec t c (· == 0x21) (fun i =>
    let f := fmtV i.w
    let rm := numRm i.d.num
    let ftz := numFtz i.d.num
    if f.bad [f.d, f.a, f.b] ∨ f.sub = 3 then .fault St.badDesc i.k.ready
    else flagGo i f (srcGroup f.a f.g 1 ++ srcGroup f.b f.g 1 ++ srcGroup f.d f.g 1)
      (if tyIsFp f.ty then fpLat f.ty else 3) 1 fun j =>
        if tyIsFp f.ty then
          let a := fpIn i f.ty (i.k.elem f.a f.sz j)
          let b := fpIn i f.ty (i.k.elem f.b f.sz j)
          let d := fpIn i f.ty (i.k.elem f.d f.sz j)
          let r := (tyFmt f.ty).fma rm ftz (if f.sub = 2 then a.1.negate else a.1) b.1 (if f.sub = 1 then d.1.negate else d.1)
          (r.1, r.2 ||| a.2 ||| b.2 ||| d.2)
        else
          let p := intAt i.k f.a f.sz j * intAt i.k f.b f.sz j
          let d := intAt i.k f.d f.sz j
          (ofSigned (8 * f.sz) (match f.sub with | 0 => p + d | 1 => p - d | _ => d - p), 0)) s

/-- VMINMAX (R129, R55): min, max, absolute value. The absolute value of the most negative integer has no stated value
(log entry 9). -/
def execVminmax (t c : Nat) (s : State) : Res :=
  grainExec t c (· == 0x22) (fun i =>
    let f := fmtV i.w
    let w := 8 * f.sz
    if f.bad (if f.sub = 2 then [f.d, f.a] else [f.d, f.a, f.b]) ∨ f.sub = 3 then .fault St.badDesc i.k.ready
    else flagGo i f (srcGroup f.a f.g 1 ++ (if f.sub = 2 then [] else srcGroup f.b f.g 1))
      (if tyIsFp f.ty then fpLat f.ty else 1) 1 fun j =>
        if tyIsFp f.ty then
          let fm := tyFmt f.ty
          let a := fm.flushIn (numFtz i.d.num) (i.k.elem f.a f.sz j)
          let b := fm.flushIn (numFtz i.d.num) (i.k.elem f.b f.sz j)
          if f.sub = 2 then
            (if (fm.decode a.1).isNan then fm.nanCode else a.1 % 2 ^ (fm.eb + fm.mb), a.2 ||| (fm.decode a.1).inFlags)
          else
            let r := fm.maxMin (f.sub = 1) a.1 b.1
            (r.1, r.2 ||| a.2 ||| b.2)
        else
          let a := intAt i.k f.a f.sz j
          let b := intAt i.k f.b f.sz j
          if f.sub = 2 ∧ 2 * a = -((2 ^ w : Nat) : Int) then (Config.grainOpen 0 i.s.fresh j % 2 ^ w, 0)
          else (ofSigned w (match f.sub with | 0 => min a b | 1 => max a b | _ => a.natAbs), 0)) s

/-- VLOGIC (R129): bitwise on any TYPE. -/
def execVlogic (t c : Nat) (s : State) : Res :=
  grainExec t c (· == 0x23) (fun i =>
    let f := fmtV i.w
    if f.bad [f.d, f.a, f.b] then .fault St.badDesc i.k.ready
    else vecGo i f (srcGroup f.a f.g 1 ++ srcGroup f.b f.g 1) 1 fun j =>
      let a := i.k.elem f.a f.sz j
      let b := i.k.elem f.b f.sz j
      match f.sub with
      | 0 => a &&& b
      | 1 => a ||| b
      | 2 => a ^^^ b
      | _ => a &&& (2 ^ (8 * f.sz) - 1 - b)) s

/-- VSHIFT (R129): integer TYPE only, amounts modulo the width. -/
def execVshift (t c : Nat) (s : State) : Res :=
  grainExec t c (· == 0x24) (fun i =>
    let f := fmtV i.w
    let w := 8 * f.sz
    if f.bad [f.d, f.a, f.b] ∨ tyIsFp f.ty ∨ f.sub = 3 then .fault St.badDesc i.k.ready
    else vecGo i f (srcGroup f.a f.g 1 ++ srcGroup f.b f.g 1) 1 fun j =>
      let a := i.k.elem f.a f.sz j
      let n := i.k.elem f.b f.sz j % w
      match f.sub with
      | 0 => a <<< n % 2 ^ w
      | 1 => a >>> n
      | _ => ofSigned w (toSigned w a >>> n)) s

/-- VDIV (R129, R139): correctly rounded; slices follow one another unpipelined. -/
def execVdiv (t c : Nat) (s : State) : Res :=
  grainExec t c (· == 0x25) (fun i =>
    let f := fmtV i.w
    let rm := numRm i.d.num
    let ftz := numFtz i.d.num
    let l := match f.ty with | 4 => 8 | 5 => 12 | _ => 20
    if f.bad (if f.sub = 1 then [f.d, f.a] else [f.d, f.a, f.b]) ∨ ¬ tyIsFp f.ty ∨ f.sub > 1 then .fault St.badDesc i.k.ready
    else flagGo i f (srcGroup f.a f.g l ++ (if f.sub = 1 then [] else srcGroup f.b f.g l)) l l fun j =>
      let a := fpIn i f.ty (i.k.elem f.a f.sz j)
      if f.sub = 1 then
        let r := (tyFmt f.ty).sqrt rm ftz a.1
        (r.1, r.2 ||| a.2)
      else
        let b := fpIn i f.ty (i.k.elem f.b f.sz j)
        let r := (tyFmt f.ty).div rm ftz a.1 b.1
        (r.1, r.2 ||| a.2 ||| b.2)) s

/-- The compare of two elements (R129, R131): EQ is quiet, LT and LE of a NaN give 0 with INV, unordered sets NAN_IN; a signalling NaN
sets INV beside NAN_IN under EQ and unordered (R44). R131 names INV alone for LT and LE: they set no NAN_IN (the model's choice, log entry 10). -/
def cmpElem (i : GIn) (f : VF) (j : Nat) : Bool × Flags :=
  if tyIsFp f.ty then
    let a := fpIn i f.ty (i.k.elem f.a f.sz j)
    let b := fpIn i f.ty (i.k.elem f.b f.sz j)
    let nan := a.1.isNan || b.1.isNan
    let sig := a.1.isSig || b.1.isSig
    let fl := a.2 ||| b.2
    let zz := a.1.isZero && b.1.isZero
    let eq := !nan && (zz || (!a.1.below b.1 && !b.1.below a.1))
    match f.sub with
    | 0 => (eq, fl ||| Fl.cond sig (Fl.nanIn ||| Fl.inv))
    | 1 => (!nan && !zz && a.1.below b.1, fl ||| Fl.cond nan Fl.inv)
    | 2 => (!nan && (eq || a.1.below b.1), fl ||| Fl.cond nan Fl.inv)
    | _ => (nan, fl ||| Fl.cond nan Fl.nanIn ||| Fl.cond sig Fl.inv)
  else
    let a := intAt i.k f.a f.sz j
    let b := intAt i.k f.b f.sz j
    (match f.sub with | 0 => a == b | 1 => a < b | 2 => a ≤ b | _ => false, 0)

/-- VCMP (R129, R131): an inactive element keeps its predicate bit, or with Z is 0 (R130). -/
def execVcmp (t c : Nat) (s : State) : Res :=
  grainExec t c (· == 0x26) (fun i =>
    let f := fmtV i.w
    if f.bad [f.a, f.b] ∨ bits f.d 4 3 ≠ 0 then .fault St.badDesc i.k.ready
    else
      let t0 := i.k.issueAt ([(kp f.pg, 0)] ++ srcGroup f.a f.g 1 ++ srcGroup f.b f.g 1)
      let r := (List.range f.n).map fun j =>
        if f.act i.k j then cmpElem i f j else (!f.z && (i.k.rp f.d).testBit j, 0)
      .go { core := ((i.k.wp f.d (predOf f.n fun j => (r.getD j (false, 0)).1)).setRdy (kp f.d) (t0 + f.g + 1)).setFlags
              (r.map Prod.snd),
            next := i.k.pc + 1, t0 := t0, ready := t0 + f.g }) s

/-- VSEL (R129): vd ← pg ? va : vb, Z ignored. -/
def execVsel (t c : Nat) (s : State) : Res :=
  grainExec t c (· == 0x27) (fun i =>
    let f := fmtV i.w
    if f.bad [f.d, f.a, f.b] ∨ f.sub ≠ 0 then .fault St.badDesc i.k.ready
    else
      let t0 := i.k.issueAt ([(kp f.pg, 0)] ++ srcGroup f.a f.g 1 ++ srcGroup f.b f.g 1)
      let vals := (List.range f.n).map fun j => if f.act i.k j then i.k.elem f.a f.sz j else i.k.elem f.b f.sz j
      .go { core := (i.k.wElems f.d f.sz vals).setRdys f.d f.g (t0 + 1) 1, next := i.k.pc + 1, t0 := t0,
            ready := t0 + f.g }) s

/-! Conversions (R132). -/

/-- Destination kinds of VCVT by OP - 0x28. -/
def cvtSize (k : Nat) : Nat := match k with | 0 => 1 | 1 => 2 | 2 => 4 | 3 => 8 | 4 => 2 | 5 => 4 | 6 => 8 | 7 => 1 | 8 => 1 | _ => 8

/-- The conversion fields of xb (R132). -/
structure CvtX where
  block : Nat
  rsv : Nat
  elem : Nat
  frac : Nat
  k : Int
  deriving DecidableEq, Repr

def cvtX (n : Nat) : CvtX :=
  { block := bits n 63 32, rsv := bits n 31 28, elem := bits n 27 16, frac := bits n 15 8, k := toSigned 8 (bits n 7 0) }

/-- A float result of a conversion, with the input's NaN flags (R62). -/
def cvtPut (f : Fmt) (rm : Rm) (ftz : Bool) (v : Fp) : FpRes :=
  let r := f.put rm ftz v
  (r.1, r.2 ||| v.inFlags)

/-- An integer result of more than 8 bits: rounded; NaN, infinity and a value beyond the type are free, with their flags
(log entry 9). -/
def cvtInt (i : GIn) (j w : Nat) (rm : Rm) (v : Fp) : FpRes :=
  let free : FpRes := (Config.grainOpen 3 i.s.fresh j % 2 ^ w, BitVec.ofNat 32 (Config.grainOpen 4 i.s.fresh j))
  match v with
  | .fin n m e =>
    let r := roundUnits rm n m e 0
    let x : Int := if n then -(r.1 : Int) else r.1
    if -((2 ^ (w - 1) : Nat) : Int) ≤ x ∧ x < (2 ^ (w - 1) : Nat) then (ofSigned w x, Fl.cond r.2 Fl.inx) else free
  | .inf _ => free
  | .nan g => (free.1, free.2 ||| (Fp.nan g).inFlags)

/-- A FIX40 result, sign-extended to 64 bits (R53, R62). -/
def cvtFix (frac : Nat) (v : Fp) : FpRes :=
  match v with
  | .nan g => (0, (Fp.nan g).inFlags ||| Fl.inv)
  | .inf n => (ofSigned 64 (if n then -((2 ^ 39 : Nat) : Int) else ((2 ^ 39 : Nat) : Int) - 1), Fl.inv)
  | .fin n m e =>
    let r := narrowFix 40 (-(frac : Int)) ⟨if n then -(m : Int) else m, e⟩
    (ofSigned 64 r.1, if r.2 then Fl.rangeSat else Fl.cond (roundUnits .rne n m e (-(frac : Int))).2 Fl.inx)

/-- Conversion of element j: source code to destination kind kd (R62, R63, R132). -/
def cvtElem (i : GIn) (f : VF) (kd : Nat) (x : CvtX) (j code : Nat) : FpRes :=
  let ftz := numFtz i.d.num
  let rm : Rm := if kd = 9 then .rne
    else if f.sub = 1 then .sr (srDraw i.k.srtag i.k.step x.block ((x.elem + j) % 4096))
    else numRm i.d.num
  let fp8src := f.sub ≥ 2
  let narrowDst : Bool := kd = 0 || kd = 7 || kd = 8
  let src : Fp × Flags :=
    if fp8src then ((if f.sub = 2 then e4m3 else e5m2).decode code, 0)
    else if tyIsFp f.ty then fpIn i f.ty code
    else (Fp.ofInt (toSigned (8 * f.sz) code) 0, 0)
  let narrowSrc : Bool := fp8src || f.ty = 0
  let fpDst : Bool := 4 ≤ kd ∧ kd ≤ 8
  -- the exact scale: 2^K widening, 2^-K narrowing, 2^-FRAC from an integer to a float
  let e : Int := (if narrowDst then (if kd = 0 ∧ f.ty = 0 ∧ ¬ fp8src then 0 else -x.k) else if narrowSrc then x.k else 0)
    - (if fpDst ∧ ¬ tyIsFp f.ty ∧ ¬ fp8src then (x.frac : Int) else 0)
  let v : Fp := match src.1 with | .fin n m ex => .fin n m (ex + e) | y => y
  let rm8 : Rm := if fp8src then .rne else rm
  let r : FpRes := match kd with
    | 0 => narrowI8 rm false 0 v
    | 1 => cvtInt i j 16 rm v
    | 2 => cvtInt i j 32 rm v
    | 3 => cvtInt i j 64 rm v
    | 4 => cvtPut bf16 rm ftz v
    | 5 => cvtPut fp32 rm ftz v
    | 6 => cvtPut fp64 rm ftz v
    | 7 => e4m3.narrow8 rm8 (numE4 i.d.num) 0 v
    | 8 => e5m2.narrow8 rm8 (numE5 i.d.num) 0 v
    | _ => cvtFix x.frac v
  (r.1, r.2 ||| src.2)

/-- VCVT (R129, R132). -/
def execVcvt (t c : Nat) (s : State) : Res :=
  grainExec t c (fun op => 0x28 ≤ op && op ≤ 0x31) (fun i =>
    let f := fmtV i.w
    let kd := bits i.w 31 26 - 0x28
    let x := cvtX (i.k.rx f.b)
    let ds := cvtSize kd
    let wide := max f.sz ds
    let n := 16 / wide * f.g
    let sg := max 1 (f.g * f.sz / wide)
    let dg := max 1 (f.g * ds / wide)
    let narrowing : Bool := kd = 0 || kd = 7 || kd = 8
    let fracBad : Bool := if kd = 9 then x.frac > 38 else 4 ≤ kd && kd ≤ 8 && !tyIsFp f.ty && f.sub < 2 && x.frac > 63
    let t0 := i.k.issueAt ([(kx f.b, 0), (kp f.pg, 0)] ++ srcGroup f.a sg (if sg = dg then 1 else 0))
    if f.ty = 7 ∨ f.a % sg ≠ 0 ∨ f.d % dg ≠ 0 ∨ (f.sub ≥ 2 ∧ f.ty ≠ 0) ∨ (f.sub = 1 ∧ ¬ (narrowing ∨ kd = 4))
      then .fault St.badDesc i.k.ready
    else if x.rsv ≠ 0 ∨ fracBad ∨ (narrowing ∧ x.k = -128) then .fault St.badDesc t0
    else
      let r := (List.range n).map fun j =>
        if f.act i.k j then cvtElem i f kd x j (i.k.elem f.a f.sz j)
        else (if f.z then 0 else i.k.elem f.d ds j, 0)
      let k := i.k.wElems f.d ds (r.map Prod.fst)
      let k := if sg = dg then k.setRdys f.d dg (t0 + 3) 1 else k.setRdys f.d dg (t0 + 3) 0
      .go { core := k.setFlags (r.map Prod.snd), next := i.k.pc + 1, t0 := t0, ready := t0 + f.g }) s

/-! Reductions and scans (R135, R136). -/

/-- The fields of format R (R128). -/
structure RF where
  f : VF
  fn : Nat
  ps : Nat
  x : Bool
  deriving DecidableEq, Repr

def fmtR (w : Nat) : RF :=
  { f := { d := bits w 25 21, a := bits w 20 16, b := 0, pg := bits w 9 7, ty := bits w 6 4, g := grpOf (bits w 3 2),
           z := bit w 1, sub := 0 },
    fn := bits w 15 13, ps := bits w 12 10, x := bit w 0 }

/-- The combine of FN on codes of TYPE (R135, R136): lower position on the left. -/
def combine (num fn ty a b : Nat) : Nat × Flags :=
  let w := 8 * tySize ty
  if fn = 4 then (a &&& b, 0)
  else if fn = 5 then (a ||| b, 0)
  else if tyIsFp ty then
    let fm := tyFmt ty
    match fn with
    | 0 => fm.add (numRm num) (numFtz num) (fm.decode a) (fm.decode b)
    | 1 => fm.mul (numRm num) (numFtz num) (fm.decode a) (fm.decode b)
    | 2 => fm.maxMin true a b
    | _ => fm.maxMin false a b
  else
    let x := toSigned w a
    let y := toSigned w b
    (ofSigned w (match fn with | 0 => x + y | 1 => x * y | 2 => max x y | _ => min x y), 0)

/-- The identity of FN in TYPE (R136). -/
def identity (fn ty : Nat) : Nat :=
  let w := 8 * tySize ty
  match fn with
  | 0 => 0
  | 1 => if tyIsFp ty then (tyFmt ty).encodeExact Fp.one else 1
  | 2 => if tyIsFp ty then (tyFmt ty).signed true (tyFmt ty).infCode else 2 ^ (w - 1)
  | 3 => if tyIsFp ty then (tyFmt ty).infCode else 2 ^ (w - 1) - 1
  | 4 => 2 ^ w - 1
  | _ => 0

/-- A combine with a possibly empty side (R135): flags join. -/
def combineOpt (num fn ty : Nat) (a b : Option Nat × Flags) : Option Nat × Flags :=
  match a.1, b.1 with
  | none, _ => (b.1, a.2 ||| b.2)
  | _, none => (a.1, a.2 ||| b.2)
  | some x, some y => let r := combine num fn ty x y; (some r.1, r.2 ||| a.2 ||| b.2)

/-- The aligned block [p, p + 2^k) of R135. -/
def scanBlock (num fn ty : Nat) (el : Nat → Option Nat × Flags) : Nat → Nat → Option Nat × Flags
  | 0, p => el p
  | k + 1, p => combineOpt num fn ty (scanBlock num fn ty el k p) (scanBlock num fn ty el k (p + 2 ^ k))

/-- The largest k below 8 with p mod 2^k = 0 and p + 2^k ≤ e1. -/
def blockAt (p e1 : Nat) : Nat := (((List.range 8).filter fun k => p % 2 ^ k == 0 && decide (p + 2 ^ k ≤ e1)).getLast?).getD 0

/-- Positions p up to but without e1, left to right (R135); fuel bounds the blocks. -/
def scanRange (num fn ty : Nat) (el : Nat → Option Nat × Flags) : Nat → Nat → Nat → Option Nat × Flags → Option Nat × Flags
  | 0, _, _, acc => acc
  | fuel + 1, p, e1, acc =>
    if e1 ≤ p then acc
    else
      let k := blockAt p e1
      scanRange num fn ty el fuel (p + 2 ^ k) e1 (combineOpt num fn ty acc (scanBlock num fn ty el k p))

/-- range(s, e) of R135, with e1 = e + 1. -/
def rangeVal (num fn ty : Nat) (el : Nat → Option Nat × Flags) (s e1 : Nat) : Option Nat × Flags :=
  scanRange num fn ty el (e1 - s) s e1 (none, 0)

/-- The start of the segment of position j (R135). -/
def segStart (seg : Nat → Bool) : Nat → Nat
  | 0 => 0
  | j + 1 => if seg (j + 1) then j + 1 else segStart seg j

/-- Element j of a group as a position: on an FP type, where the operation is arithmetic, flushed, and canonical for a NaN with its flags
(R44). -/
def posOf (k : Core) (num fn ty start sz j : Nat) : Option Nat × Flags :=
  let code := k.elem start sz j
  if tyIsFp ty && fn != 4 && fn != 5 then
    let x := (tyFmt ty).decode code
    let r := (tyFmt ty).flushIn (numFtz num) code
    (some (if x.isNan then (tyFmt ty).nanCode else r.1), r.2 ||| x.inFlags)
  else (some code, 0)

/-- ceil(log2 n). -/
def clog2 (n : Nat) : Nat := if n ≤ 1 then 0 else (n - 1).log2 + 1

/-- Latency of VRED and VSCAN (R139): M goes by TYPE, for a BF16 sum written as FP32 (X = 1) too (the model's choice, log entry 10). -/
def redLat (fn ty g n : Nat) : Nat :=
  if tyIsFp ty && fn ≤ 1 then g + 1 + (if ty = 4 then 3 else 4) * clog2 n else 2 + g + clog2 n

/-- The index of a maximum or minimum (R55): the first NaN, else the lowest index of the extreme. -/
def argOf (i : GIn) (r : RF) : Nat × Flags :=
  let f := r.f
  let idx := f.active i.k
  let val (j : Nat) : Fp × Flags :=
    if tyIsFp f.ty then fpIn i f.ty (i.k.elem f.a f.sz j) else (Fp.ofInt (intAt i.k f.a f.sz j) 0, 0)
  let fl := Fl.any (idx.map fun j => (val j).2 ||| (val j).1.inFlags)
  match idx.find? fun j => (val j).1.isNan with
  | some j => (j, fl)
  | none => match idx with
    | [] => (0xFFFFFFFF, Fl.empty)
    | j0 :: rest =>
      (rest.foldl (fun b j =>
        let better := if r.fn = 6 then (val b).1.below (val j).1 else (val j).1.below (val b).1
        if better then j else b) j0, fl)

/-- VRED (R129, R135, R136). -/
def execVred (t c : Nat) (s : State) : Res :=
  grainExec t c (· == 0x38) (fun i =>
    let r := fmtR i.w
    let f := r.f
    let num := i.d.num
    let widens : Bool := r.fn = 0 && (f.ty = 4 || f.ty ≤ 2)
    if f.bad [f.a] ∨ (r.x ∧ ¬ widens) then .fault St.badDesc i.k.ready
    else
      let ty' := if r.x then (if f.ty = 4 then 5 else 3) else f.ty
      let el (j : Nat) : Option Nat × Flags :=
        if f.act i.k j then
          let p := posOf i.k num r.fn f.ty f.a f.sz j
          if r.x then (p.1.map fun code => if f.ty = 4 then fp32.encodeExact (bf16.decode code)
            else ofSigned 64 (toSigned (8 * f.sz) code), p.2)
          else p
        else (none, 0)
      let t0 := i.k.issueAt ([(kp f.pg, 0)] ++ srcGroup f.a f.g 0)
      let res : Nat × Flags :=
        if r.fn ≥ 6 then argOf i r
        else
          let v := rangeVal num r.fn ty' el 0 f.n
          let code := v.1.getD (identity r.fn ty')
          (if tyIsFp ty' then code else ofSigned 64 (toSigned (8 * tySize ty') code), v.2 ||| Fl.cond v.1.isNone Fl.empty)
      .go { core := ((i.k.wx f.d res.1).setRdy (kx f.d) (t0 + redLat r.fn f.ty f.g f.n)).setFlags
              (res.2 :: List.replicate (f.n - 1) 0),
            next := i.k.pc + 1, t0 := t0, ready := t0 + f.g }) s

/-- VSCAN (R129, R135, R136). -/
def execVscan (t c : Nat) (s : State) : Res :=
  grainExec t c (· == 0x39) (fun i =>
    let r := fmtR i.w
    let f := r.f
    if f.bad [f.d, f.a] ∨ r.fn > 5 then .fault St.badDesc i.k.ready
    else
      let el (j : Nat) : Option Nat × Flags :=
        if f.act i.k j then posOf i.k i.d.num r.fn f.ty f.a f.sz j else (none, 0)
      let seg (j : Nat) : Bool := r.ps != 0 && (i.k.rp r.ps).testBit j
      let t0 := i.k.issueAt ([(kp f.pg, 0), (kp r.ps, 0)] ++ srcGroup f.a f.g 0)
      let vals := (List.range f.n).map fun j =>
        if f.act i.k j then
          let v := rangeVal i.d.num r.fn f.ty el (segStart seg j) (if r.x then j else j + 1)
          (v.1.getD (identity r.fn f.ty), v.2)
        else (f.idle i.k j, 0)
      .go { core := ((i.k.wElems f.d f.sz (vals.map Prod.fst)).setRdys f.d f.g (t0 + redLat r.fn f.ty f.g f.n) 0).setFlags
              (vals.map Prod.snd),
            next := i.k.pc + 1, t0 := t0, ready := t0 + f.g }) s

/-! Tile instructions (R137). -/

/-- A member issues a tile instruction and waits: its word is kept, ready holds the issue cycle. -/
def tileIssue (i : GIn) (src : List (Nat × Nat)) : GOut :=
  let t0 := i.k.issueAt src
  .go { core := { i.k with waiting := some i.w, tcount := i.k.tcount + 1 }, next := i.k.pc, t0 := t0, ready := t0 }

/-- The retired counter of a tile instruction counts at its completion, not at its issue. -/
def unretire (t : Nat) (s0 : State) : Res → Res
  | .next s => .next (wr s (Fd.grnRetiredCount t) (rd s0 (Fd.grnRetiredCount t)))
  | r => r

/-- TSCAN (R129, R137). -/
def execTscan (t c : Nat) (s : State) : Res :=
  unretire t s (grainExec t c (· == 0x3A) (fun i =>
    let r := fmtR i.w
    if r.f.bad [r.f.d, r.f.a] ∨ r.fn > 5 then .fault St.badDesc i.k.ready
    else tileIssue i ([(kp r.f.pg, 0), (kp r.ps, 0)] ++ srcGroup r.f.a r.f.g 0)) s)

/-- TRED (R129, R137): X must be 0. -/
def execTred (t c : Nat) (s : State) : Res :=
  unretire t s (grainExec t c (· == 0x3B) (fun i =>
    let r := fmtR i.w
    if r.f.bad [r.f.d, r.f.a] ∨ r.fn > 5 ∨ r.x then .fault St.badDesc i.k.ready
    else tileIssue i ([(kp r.f.pg, 0)] ++ srcGroup r.f.a r.f.g 0)) s)

/-- TBAR (R129, R137): all other bits 0. -/
def execTbar (t c : Nat) (s : State) : Res :=
  unretire t s (grainExec t c (· == 0x3C) (fun i =>
    if bits i.w 25 0 ≠ 0 then .fault St.badDesc i.k.ready else tileIssue i []) s)

/-- What joined instructions must agree in (R137): OP, FN, TYPE, G, X, and whether ps is 0. -/
def joinKey (w : Nat) : List Nat :=
  let r := fmtR w
  [bits w 31 26, r.fn, r.f.ty, r.f.g, b2n r.x, b2n (r.ps == 0)]

/-- Position p (a core number) of element j in a joined scan or reduction: empty for a core outside the live members or
inactive there (R135, R137). -/
def joinPos (s : State) (t : Nat) (d : Dispatch) (j p : Nat) : Option Nat × Flags :=
  if d.live.contains p then
    let k := coreOf s t p
    match k.waiting with
    | some w =>
      let r := fmtR w
      if r.f.act k j then posOf k d.num r.fn r.f.ty r.f.a r.f.sz j else (none, 0)
    | none => (none, 0)
  else (none, 0)

/-- Whether core p starts a segment at element j. -/
def joinSeg (s : State) (t : Nat) (d : Dispatch) (j p : Nat) : Bool :=
  d.live.contains p &&
    (let k := coreOf s t p
     match k.waiting with
     | some w => (fmtR w).ps != 0 && (k.rp (fmtR w).ps).testBit j
     | none => false)

/-- A member's core after its joined instruction, w unless it waits with a word of its own, completes at clock cycle fin (R135 to R137).
Registers, predicate and Z are those of the member's own word. TRED gives every member the same group, at every position. -/
def joinCore (s : State) (t c : Nat) (d : Dispatch) (w fin : Nat) : Core :=
  let k := coreOf s t c
  let w := k.waiting.getD w
  let r := fmtR w
  let f := r.f
  let k' := { k with waiting := none, pc := (k.pc + 1) % 4096, ready := fin }
  match bits w 31 26 with
  | 0x3C => k'
  | 0x3B =>
    let vals := (List.range f.n).map fun j =>
      let v := rangeVal d.num r.fn f.ty (joinPos s t d j) 0 32
      (v.1.getD (identity r.fn f.ty), v.2 ||| Fl.cond v.1.isNone Fl.empty)
    ((k'.wElems f.d f.sz (vals.map Prod.fst)).setRdys f.d f.g fin 0).setFlags (vals.map Prod.snd)
  | _ =>
    let vals := (List.range f.n).map fun j =>
      if f.act k j then
        let v := rangeVal d.num r.fn f.ty (joinPos s t d j) (segStart (joinSeg s t d j) c) (if r.x then c else c + 1)
        (v.1.getD (identity r.fn f.ty), v.2)
      else (f.idle k j, 0)
    ((k'.wElems f.d f.sz (vals.map Prod.fst)).setRdys f.d f.g fin 0).setFlags (vals.map Prod.snd)

/-- Dispatch a comes before b in the round-robin order after the one that p names. -/
def netBefore (p a b : Nat) : Bool := if a ≤ p then b ≤ p && a < b else b ≤ p || a < b

/-- No other dispatch that waits is granted the network before d (R137): an earlier one, or of two in one cycle the next in turn. -/
def netFirst (s : State) (t : Nat) (d : Dispatch) : Bool :=
  (tile s t).dispatches.all fun e => e.acc == d.acc || !joined s t e || decide (netGrant s t d < netGrant s t e) ||
    netGrant s t d == netGrant s t e && netBefore (tile s t).netPtr d.acc e.acc

/-- TILE_INSTRUCTION_JOIN (R137): every live member of the dispatch of core c waits; the instruction completes in all of
them 13 + g cycles after the last issue, plus the wait for the scan network, which takes dispatches in turn; a mismatch faults them all. Where the
guard band comes first, or another dispatch is granted the network before it, the members wait on. -/
def execTileInstructionJoin (t c : Nat) (s : State) : Res :=
  match dispatchOf s t c with
  | none => .fault .noOperation
  | some d =>
    let ws := d.live.filterMap fun p => (coreOf s t p).waiting
    if ws.length ≠ d.live.length then .fault .noOperation
    else
      let w := ws.headD 0
      let start := joinStart s t d
      if ws.any fun v => joinKey v != joinKey w then
        if s.turn.guardAt ≤ start then ok s
        else
          let s := d.live.foldl (fun s p => setCore s t p { coreOf s t p with waiting := none }) (settleTo s start)
          ok (d.live.foldl (fun s p => finishMember s t p start (some St.badDesc)) s)
      else
        let fin := netGrant s t d + 13 + (fmtR w).f.g
        if s.turn.guardAt ≤ fin ∨ ¬ netFirst s t d then ok s
        else
          let s := settleTo s fin
          let s' := d.live.foldl (fun s' p => setCore s' t p (joinCore s t p d w fin)) s
          let s' := updTile s' t fun x => { x with netFree := fin, netPtr := d.acc }
          let s' := bump s' (Fd.grnRetiredCount t) d.live.length
          ok (updDispatch s' t d.acc fun d => { d with waited := 0 })

end Sys2Proof.Machine
end

