-- ==== Sys2Proof/Machine/KilnNum.lean ====
section
/-! DEFINITION. The schedule words of a kiln (R228 to R233): the word format, its checks (R230), fixed-point arithmetic
with one narrowing (R53, R231), and what each word writes and costs. -/

namespace Sys2Proof.Machine

/-! The word (R228). -/

structure KW where
  op : Nat
  sub : Nat
  ia : Bool
  ib : Bool
  ic : Bool
  id : Bool
  ca : Nat
  cb : Nat
  cc : Nat
  cd : Nat
  n : Nat
  a : Nat
  b : Nat
  c : Nat
  d : Nat
  imm : Nat
  rsv : Bool
  deriving DecidableEq, Repr

def kword (bs : List Byte) : KW :=
  let w := dword bs
  { op := bits (w 0) 31 26, sub := bits (w 0) 25 22, ia := bit (w 0) 21, ib := bit (w 0) 20, ic := bit (w 0) 19,
    id := bit (w 0) 18, ca := bits (w 1) 31 24, cb := bits (w 1) 23 16, cc := bits (w 1) 15 8, cd := bits (w 1) 7 0,
    n := bits (w 2) 23 0, a := bits (w 3) 22 0, b := bits (w 4) 22 0, c := bits (w 5) 22 0, d := bits (w 6) 22 0,
    imm := w 7,
    rsv := bits (w 0) 17 0 != 0 || bits (w 2) 31 24 != 0 || [3, 4, 5, 6].any fun i => bits (w i) 31 23 != 0 }

/-- SUB values of an operation: those below the bound are defined (R229). -/
def KW.subs (w : KW) : Nat :=
  match w.op with
  | 0x00 => 1 | 0x01 => 4 | 0x02 => 2 | 0x08 => 12 | 0x09 => 1 | 0x0A => 1 | 0x0B => 2 | 0x0C => 1
  | 0x10 => 4 | 0x11 => 1 | 0x12 => 16 | 0x18 => 1 | 0x19 => 1 | 0x1A => 2 | _ => 0

/-- Bits of IMM that an operation uses. -/
def KW.immBits (w : KW) : Nat :=
  match w.op with
  | 0x08 => 4 | 0x09 => 4 | 0x0A => 4 | 0x0C => 4 | 0x10 => 16 | 0x11 => 16 | 0x12 => 16 | 0x18 => 8 | 0x1A => 16 | _ => 0

/-- Operations for which N is reserved (R228). -/
def KW.noN (w : KW) : Bool := w.op ≥ 0x10 || w.op == 0

/-- The word is refused before it runs (R228, R230): a reserved operation, SUB, IMM bit or field; a destination that is not
instance-relative. -/
def KW.bad (w : KW) : Bool :=
  w.rsv || decide (w.subs ≤ w.sub) || decide (2 ^ w.immBits ≤ w.imm) || (w.noN && w.n != 0) ||
    (w.op == 0x11 && (!w.ia || w.id || w.d != 0)) ||
    ([0x01, 0x02, 0x08, 0x0B, 0x10, 0x12].contains w.op && !w.id)

/-! Fixed-point arithmetic (R52, R53, R231). -/

/-- Where a word runs: the state, the kiln, the instance area, the image (as offset in the kiln's window), the classes and
the scalars. -/
structure KC where
  s : State
  k : Nat
  area : Nat
  img : Nat
  patOff : Nat
  npat : Nat
  classes : List (Nat × Nat)
  scal : List Dy
  fracs : List Nat

def KC.frac (x : KC) (c : Nat) : Nat := (x.classes.getD c (0, 0)).2
/-- The floor of a class, as a stored value (R221). -/
def KC.floor (x : KC) (c : Nat) : Nat := max (x.classes.getD c (0, 0)).1 1

/-- A stored value of a class. -/
def fixVal (f : Nat) (n : Int) : Dy := ⟨n, -(f : Int)⟩

/-- An exact total, however fine its own fraction, held in the 96-bit accumulator at fraction f; beyond it the extreme of its sign. -/
def acc96 (f : Nat) (d : Dy) : Dy × Bool :=
  if (Dy.mk (2 ^ 95) (-(f : Int))).le d then (⟨2 ^ 95 - 1, -(f : Int)⟩, true)
  else if d.lt ⟨-2 ^ 95, -(f : Int)⟩ then (⟨-2 ^ 95, -(f : Int)⟩, true)
  else (d, false)

/-- A value narrowed to a class of fraction f. -/
def fixTo (f : Nat) (d : Dy) : Int × Bool := narrowFix 40 (-(f : Int)) d

/-- An accumulated total at fraction fa narrowed to fraction f. -/
def fixSum (fa f : Nat) (d : Dy) : Int × Bool :=
  let a := acc96 fa d
  let r := fixTo f a.1
  (r.1, a.2 || r.2)

/-- A quotient of naturals rounded to nearest, ties to even. -/
def divRne (n d : Nat) : Nat :=
  let q := n / d
  let r := n % d
  if 2 * r > d ∨ (2 * r = d ∧ q % 2 = 1) then q + 1 else q

/-- An integer held within 40 bits. -/
def clamp40 (i : Int) : Int × Bool :=
  if 2 ^ 39 ≤ i then (2 ^ 39 - 1, true) else if i < -2 ^ 39 then (-2 ^ 39, true) else (i, false)

/-- num / den rounded once to fraction f; den is not 0. -/
def fixDiv (f : Nat) (num den : Dy) : Int × Bool :=
  let e := num.e - den.e + f
  let q := divRne (num.n.natAbs * 2 ^ e.toNat) (den.n.natAbs * 2 ^ (-e).toNat)
  clamp40 (if (num.n < 0) = (den.n < 0) then (q : Int) else -(q : Int))

/-- 1 / sqrt a rounded once to fraction f, a positive. -/
def fixRsqrt (f : Nat) (a : Dy) : Int × Bool :=
  -- the square of the result, in units of 2^-2f, is num / den
  let e := 2 * (f : Int) - a.e
  let num := 2 ^ e.toNat
  let den := a.n.natAbs * 2 ^ (-e).toNat
  let m := isqrt (num / den)
  let up : Bool := decide (den * (2 * m + 1) ^ 2 < 4 * num) || (decide (den * (2 * m + 1) ^ 2 = 4 * num) && m % 2 == 1)
  clamp40 (if up then m + 1 else m)

/-! What a word does. -/

/-- The effect of a word that writes values: window offsets and bytes, cost, flags, counts, a scalar with its fraction. -/
structure WEff where
  writes : List (Nat × List Byte) := []
  cost : Nat
  flags : Flags := 0
  subst : Nat := 0
  sat : Nat := 0
  scal : Option (Nat × Dy × Nat) := none

abbrev KRes := Except Nat WEff

/-- Bytes of value memory and the end of schedule memory, in the window. -/
def valueEnd : Nat := 0x1800000
def schedEnd : Nat := 0x1C00000

/-- Window offset of element 0 of an operand of n elements; BAD_ADDR where one lies beyond value memory. -/
def KC.span (x : KC) (rel : Bool) (idx n size : Nat) : Except Nat Nat :=
  let a := (if rel then x.area else 0) + size * idx
  if n ≠ 0 ∧ valueEnd < a + size * n then .error St.badAddr else .ok a

def KC.bytes (x : KC) (a n : Nat) : List Byte := readBytes x.s (kilnBase x.k + a) n

/-- n values from a window offset. -/
def KC.vals (x : KC) (a n : Nat) : List Int :=
  (List.range n).map fun j => toSigned 40 (readLE x.s (kilnBase x.k + a + 5 * j) 5)

/-- An operand's values in its class. -/
def KC.load (x : KC) (rel : Bool) (idx n cls : Nat) : Except Nat (List Dy) := do
  let a ← x.span rel idx n 5
  return (x.vals a n).map (fixVal (x.frac cls))

/-- n u32 numbers of a pattern table. -/
def KC.table (x : KC) (off n : Nat) : Except Nat (List Nat) :=
  if n ≠ 0 ∧ schedEnd < x.img + off + 4 * n then .error St.badAddr
  else .ok ((List.range n).map fun i => readLE x.s (kilnBase x.k + x.img + off + 4 * i) 4)

/-- Values written from a window offset on. -/
def putVals (a : Nat) (l : List Int) : List (Nat × List Byte) :=
  (List.zip (List.range l.length) l).map fun p => (a + 5 * p.1, leBytes 5 (ofSigned 40 p.2))

def satFlag (n : Nat) : Flags := Fl.cond (n != 0) Fl.rangeSat

/-- Results with their saturations, written from a window offset. -/
def putFixed (a cost : Nat) (l : List (Int × Bool)) : WEff :=
  let n := (l.filter fun p => p.2).length
  { writes := putVals a (l.map fun p => p.1), cost := cost, flags := satFlag n, sat := n }

/-- Elements j of IMPORT from window offset a, lo ≤ j < hi (R229, R233): value, flags, saturated. -/
def KC.importVals (x : KC) (w : KW) (a lo hi : Nat) : List (Int × Flags × Bool) :=
  let f := x.frac w.cd
  (List.range (hi - lo)).map fun i =>
    let c := readLE x.s (kilnBase x.k + a + 8 * (lo + i)) 8
    if w.sub % 2 = 1 then let r := clamp40 (toSigned 64 c); (r.1, 0, r.2)
    else match fp64.decode c with
      | .nan sg => (0, (Fp.nan sg).inFlags ||| Fl.nanIn ||| Fl.inv, false)
      | .inf neg => (if neg then -2 ^ 39 else 2 ^ 39 - 1, Fl.inv, true)
      | v => let r := fixTo f v.dy; (r.1, 0, r.2)

/-- Elements lo to hi of IMPORT written to window offset d. -/
def KC.importEff (x : KC) (w : KW) (a d lo hi : Nat) : WEff :=
  let l := x.importVals w a lo hi
  let n := (l.filter fun p => p.2.2).length
  { writes := putVals (d + 5 * lo) (l.map fun p => p.1), cost := 0, flags := Fl.any (l.map fun p => p.2.1) ||| satFlag n, sat := n }

/-- EXPORT (R229). -/
def KC.exportEff (x : KC) (w : KW) : KRes := do
  let a ← x.span w.ia w.a w.n 5
  let d ← x.span w.id w.d w.n 8
  let f := x.frac w.ca
  let enc (v : Int) : List Byte := leBytes 8 (if w.sub = 1 then ofSigned 64 v else fp64.encodeExact (Fp.ofInt v (-(f : Int))))
  let l := x.vals a w.n
  return { writes := (List.zip (List.range l.length) l).map fun p => (d + 8 * p.1, enc p.2), cost := 8 + ceilDiv w.n 64 }

/-- VOP on one element (R229, R231): the exact result and the accumulator fraction. -/
def KC.vop (x : KC) (w : KW) (a b c : Dy) : Dy × Nat :=
  let fa := x.frac w.ca
  let fb := x.frac w.cb
  let fc := x.frac w.cc
  let k := w.imm % 16
  let s := x.scal.getD k Dy.zero
  let fs := x.fracs.getD k 0
  match w.sub with
  | 0 => (a, fa)
  | 1 => (a.add b, max fa fb)
  | 2 => (a.sub b, max fa fb)
  | 3 => (a.mul b, fa + fb)
  | 4 => ((a.mul b).add c, max (fa + fb) fc)
  | 5 => (c.sub (a.mul b), max (fa + fb) fc)
  | 6 => (if b.lt a then b else a, max fa fb)
  | 7 => (if a.lt b then b else a, max fa fb)
  | 8 => (let m := if a.lt b then b else a; if c.lt m then c else m, max (max fa fb) fc)
  | 9 => (a.abs, fa)
  | 10 => (s, fs)
  | _ => (a.mul s, fa + fs)

/-- VOP (R229). -/
def KC.vopEff (x : KC) (w : KW) : KRes := do
  let usesB := 1 ≤ w.sub ∧ w.sub ≤ 8
  let usesC := w.sub = 4 ∨ w.sub = 5 ∨ w.sub = 8
  let z := List.replicate w.n Dy.zero
  let a ← if w.sub = 10 then .ok z else x.load w.ia w.a w.n w.ca
  let b ← if usesB then x.load w.ib w.b w.n w.cb else .ok z
  let c ← if usesC then x.load w.ic w.c w.n w.cc else .ok z
  let d ← x.span w.id w.d w.n 5
  let l := (List.zip a (List.zip b c)).map fun p =>
    let r := x.vop w p.1 p.2.1 p.2.2
    fixSum r.2 (x.frac w.cd) r.1
  return putFixed d (6 + ceilDiv w.n 128) l

/-- A scalar set; a total beyond 96 bits saturates. -/
def scalEff (k f : Nat) (d : Dy) (cost : Nat) : WEff :=
  let r := acc96 f d
  { cost := cost, scal := some (k, r.1, f), flags := Fl.cond r.2 Fl.rangeSat, sat := b2n r.2 }

/-- DOT (R229). -/
def KC.dotEff (x : KC) (w : KW) : KRes := do
  let a ← x.load w.ia w.a w.n w.ca
  let b ← x.load w.ib w.b w.n w.cb
  return scalEff (w.imm % 16) (x.frac w.ca + x.frac w.cb) (Dy.sum ((List.zip a b).map fun p => p.1.mul p.2)) (12 + ceilDiv w.n 128)

/-- NORM (R229). -/
def KC.normEff (x : KC) (w : KW) : KRes := do
  let a ← x.load w.ia w.a w.n w.ca
  return scalEff (w.imm % 16) (x.frac w.ca) (a.foldl (fun m v => maxDy m v.abs) Dy.zero) (10 + ceilDiv w.n 128)

/-- SLOAD (R229). -/
def KC.sloadEff (x : KC) (w : KW) : KRes := do
  let a ← x.load w.ia w.a 1 w.ca
  return scalEff (w.imm % 16) (x.frac w.ca) (a.headD Dy.zero) 4

/-- RECIP on one value (R229, R233): result, flags, saturated. -/
def recipOne (sub f : Nat) (a : Dy) : Int × Flags × Bool :=
  if a.n = 0 then (2 ^ 39 - 1, Fl.dz, true)
  else if sub = 0 then let r := fixDiv f ⟨1, 0⟩ a; (r.1, 0, r.2)
  else if a.n < 0 then (0, Fl.inv, false)
  else let r := fixRsqrt f a; (r.1, 0, r.2)

/-- RECIP (R229). -/
def KC.recipEff (x : KC) (w : KW) : KRes := do
  let a ← x.load w.ia w.a w.n w.ca
  let d ← x.span w.id w.d w.n 5
  let l := a.map (recipOne w.sub (x.frac w.cd))
  let n := (l.filter fun p => p.2.2).length
  return { writes := putVals d (l.map fun p => p.1), cost := 14 + ceilDiv w.n 4, flags := Fl.any (l.map fun p => p.2.1) ||| satFlag n,
           sat := n }

/-! Patterns (R227). -/

structure Pat where
  rows : Nat
  nnz : Nat
  cols : Nat
  ptr : List Nat
  idx : List Nat
  /-- FIRST, NCOL, MACS, LNNZ of each level -/
  lvl : List (Nat × Nat × Nat × Nat)
  deriving DecidableEq, Repr

/-- Directory entry p, of the kind that the word needs. -/
def KC.pat (x : KC) (p kind : Nat) : Except Nat Pat := do
  let e := x.bytes (x.img + x.patOff + 32 * p) 32
  let d := dword e
  if x.npat ≤ p then throw St.badDesc
  if d 0 ≠ kind then throw St.badDesc
  let ptr ← x.table (d 3) (d 1 + 1)
  let idx ← x.table (d 4) (d 2)
  let lv ← if kind = 1 then x.table (d 5) (4 * d 6) else .ok []
  let g (i j : Nat) : Nat := lv.getD (4 * i + j) 0
  return { rows := d 1, nnz := d 2, cols := d 7, ptr := ptr, idx := idx,
           lvl := (List.range (lv.length / 4)).map fun i => (g i 0, g i 1, g i 2, g i 3) }

/-- Entries of row (or column) i. -/
def Pat.ents (p : Pat) (i : Nat) : List Nat :=
  let a := p.ptr.getD i 0
  (List.range (p.ptr.getD (i + 1) 0 - a)).map fun j => a + j

/-- Starts in order from 0 to NNZ. -/
def Pat.startsOk (p : Pat) : Bool :=
  p.ptr.headD 0 == 0 && p.ptr.getLastD 0 == p.nnz && (List.zip p.ptr (p.ptr.drop 1)).all fun q => decide (q.1 ≤ q.2)

/-- Levels that cover the columns in pivot order from c on. -/
def coverOk (n : Nat) : Nat → List (Nat × Nat × Nat × Nat) → Bool
  | c, [] => c == n
  | c, l :: t => l.1 == c && coverOk n (c + l.2.1) t

/-- A factor pattern that has every property R227 names; one that lacks any leaves the written values open. -/
def Pat.factorOk (p : Pat) : Bool :=
  p.rows == p.cols && p.startsOk && coverOk p.rows 0 p.lvl &&
    (List.range p.rows).all fun c =>
      match p.ents c with
      | [] => false
      | d :: t => p.idx.getD d 0 == c && t.all fun e => decide (c < p.idx.getD e 0) && decide (p.idx.getD e 0 < p.rows)

/-- Two ranges of values meet. -/
def overlap5 (a n b m : Nat) : Bool := meets a (5 * n) b (5 * m)

/-- What a word writes over a malformed pattern: free values at its destination, and free RANGE_SAT and PIVOT_SUBST. -/
def openEff (s : State) (d n cost : Nat) (fact : Bool) : WEff :=
  let v (i : Nat) : Nat := Config.kilnOpen s.fresh i
  { writes := putVals d ((List.range n).map fun i => toSigned 40 (v i)), cost := cost,
    flags := Fl.cond (bit (v n) 0) Fl.rangeSat ||| Fl.cond (fact && bit (v n) 1) Fl.pivotSubst,
    sat := if bit (v n) 0 then v (n + 1) % 2 ^ 32 else 0, subst := if fact && bit (v n) 1 then v (n + 2) % 2 ^ 32 else 0 }

/-- SPMV (R229). -/
def KC.spmvEff (x : KC) (w : KW) : KRes := do
  let p ← x.pat (w.imm % 65536) 0
  let tr := w.sub % 2 = 1
  let addC := w.sub / 2 = 1
  let top := p.idx.foldl (fun m i => max m (i + 1)) 0
  let nin := if tr then p.rows else max p.cols top
  let nout := if tr then max p.cols top else p.rows
  let nval := p.ptr.foldl max p.nnz
  let at_ (rel : Bool) (i : Nat) : Nat := (if rel then x.area else 0) + 5 * i
  let da := at_ w.id w.d
  if overlap5 da nout (at_ w.ia w.a) p.nnz ∨ overlap5 da nout (at_ w.ib w.b) nin ∨
    (addC ∧ overlap5 da nout (at_ w.ic w.c) nout) then throw St.badDesc
  let m ← x.load w.ia w.a nval w.ca
  let b ← x.load w.ib w.b nin w.cb
  let c ← if addC then x.load w.ic w.c nout w.cc else .ok (List.replicate nout Dy.zero)
  let d ← x.span w.id w.d nout 5
  let cost := 10 + ceilDiv p.nnz 128 + ceilDiv p.rows 128
  if ¬ p.startsOk then return openEff x.s d nout cost false
  let prod (e i : Nat) : Dy := (m.getD e Dy.zero).mul (b.getD i Dy.zero)
  let f := if addC then max (x.frac w.ca + x.frac w.cb) (x.frac w.cc) else x.frac w.ca + x.frac w.cb
  let total (o : Nat) : Dy :=
    if tr then Dy.sum ((List.range p.rows).flatMap fun i =>
      (p.ents i).filterMap fun e => if p.idx.getD e 0 = o then some (prod e i) else none)
    else Dy.sum ((p.ents o).map fun e => prod e (p.idx.getD e 0))
  -- beyond COLS only the addresses that an index forms take part (R227)
  let outs := (List.range nout).filter fun o => !tr || decide (o < p.cols) || p.idx.contains o
  let l := outs.map fun o => (o, fixSum f (x.frac w.cd) ((c.getD o Dy.zero).add (total o)))
  let sat := (l.filter fun r => r.2.2).length
  return { writes := l.map fun r => (d + 5 * r.1, leBytes 5 (ofSigned 40 r.2.1)), cost := cost, flags := satFlag sat, sat := sat }

/-! FACT (R231). -/

/-- A factorisation in progress: exact working values, what is written, substitutions, saturations. -/
structure KFact where
  work : List Dy
  out : List Int
  subst : Nat
  sat : Nat

/-- Column j is eliminated: its pivot, its part of L, and the updates of the stored positions after it. -/
def KC.factCol (x : KC) (w : KW) (p : Pat) (r : KFact) (j : Nat) : KFact :=
  match p.ents j with
  | [] => r
  | s :: rest =>
    let fa := x.frac w.ca
    let fb := x.frac w.cb
    let f := fa + fb
    let d0 := fixSum f fb (r.work.getD s Dy.zero)
    let fl := x.floor w.cb
    let low : Bool := d0.1.natAbs < fl
    let dj := fixVal fb (if low then (if d0.1 < 0 then -(fl : Int) else fl) else d0.1)
    let inv := fixDiv (x.frac w.cd) ⟨1, 0⟩ dj
    let ls := rest.map fun e =>
      let a := acc96 f (r.work.getD e Dy.zero)
      let q := fixDiv fa a.1 dj
      (e, q.1, a.2 || q.2)
    let out := ls.foldl (fun o l => o.set l.1 l.2.1) (r.out.set s inv.1)
    let upd (o : List Dy) (a b : Nat × Int × Bool) : List Dy :=
      -- the position of row a in column b, if the pattern stores it
      if p.idx.getD a.1 0 < p.idx.getD b.1 0 then o
      else match (p.ents (p.idx.getD b.1 0)).find? fun e => p.idx.getD e 0 == p.idx.getD a.1 0 with
        | none => o
        | some t => o.set t ((o.getD t Dy.zero).sub (((fixVal fa a.2.1).mul (fixVal fa b.2.1)).mul dj))
    { work := ls.foldl (fun o b => ls.foldl (fun o a => upd o a b) o) r.work, out := out,
      subst := r.subst + b2n low,
      sat := r.sat + b2n d0.2 + b2n inv.2 + (ls.filter fun l => l.2.2).length }

/-- FACT (R229, R231). -/
def KC.factEff (x : KC) (w : KW) : KRes := do
  let p ← x.pat (w.imm % 65536) 1
  let nval := p.ptr.foldl max p.nnz
  let a ← x.span w.ia w.a nval 5
  let cost := 12 + (p.lvl.map fun l => 16 + ceilDiv l.2.2.1 128).sum
  if ¬ p.factorOk then return openEff x.s a nval cost true
  let v := x.vals a nval
  let r := (List.range p.rows).foldl (x.factCol w p) { work := v.map (fixVal (x.frac w.ca)), out := v, subst := 0, sat := 0 }
  return { writes := putVals a r.out, cost := cost, flags := satFlag r.sat ||| Fl.cond (r.subst != 0) Fl.pivotSubst,
           subst := r.subst, sat := r.sat }

/-! SOLVE (R232). -/

/-- A vector of stage results in class CD, and the saturations so far. -/
abbrev KVec := List Dy × Nat

/-- Results of a stage collected, in class fraction f. -/
def stage (f : Nat) (n : Nat) (l : List (Int × Bool)) : KVec :=
  (l.map fun p => fixVal f p.1, n + (l.filter fun p => p.2).length)

/-- A scaling by r or c (1 where there is none). -/
def KC.scaling (x : KC) (w : KW) (sc : Option (List Dy)) (fin : Nat) (v : KVec) : KVec :=
  match sc with
  | none => v
  | some r => stage (x.frac w.cd) v.2 ((List.zip r v.1).map fun p => fixSum (x.frac w.cc + fin) (x.frac w.cd) (p.1.mul p.2))

/-- L^-1 v: each result is narrowed before later rows use it. -/
def KC.lower (x : KC) (w : KW) (p : Pat) (l : List Dy) (fin : Nat) (v : KVec) : KVec :=
  let fd := x.frac w.cd
  (List.range p.rows).foldl (fun y j =>
    let r := fixSum (max (x.frac w.ca + fd) fin) fd (y.1.getD j Dy.zero)
    let yj := fixVal fd r.1
    let rest := (p.ents j).drop 1
    (rest.foldl (fun o e =>
      let i := p.idx.getD e 0
      o.set i ((o.getD i Dy.zero).sub ((l.getD e Dy.zero).mul yj))) (y.1.set j yj), y.2 + b2n r.2)) v

/-- L^-T v. -/
def KC.upper (x : KC) (w : KW) (p : Pat) (l : List Dy) (fin : Nat) (v : KVec) : KVec :=
  let fd := x.frac w.cd
  (List.range p.rows).reverse.foldl (fun y j =>
    let t := Dy.sum (((p.ents j).drop 1).map fun e => (l.getD e Dy.zero).mul (y.1.getD (p.idx.getD e 0) Dy.zero))
    let r := fixSum (max (x.frac w.ca + fd) fin) fd ((y.1.getD j Dy.zero).sub t)
    (y.1.set j (fixVal fd r.1), y.2 + b2n r.2)) v

/-- D^-1 times v. -/
def KC.diagonal (x : KC) (w : KW) (p : Pat) (dinv : List Dy) (fin : Nat) (v : KVec) : KVec :=
  stage (x.frac w.cd) v.2 ((List.range p.rows).map fun j =>
    fixSum (x.frac w.cb + fin) (x.frac w.cd) ((dinv.getD j Dy.zero).mul (v.1.getD j Dy.zero)))

/-- SOLVE (R229, R232). -/
def KC.solveEff (x : KC) (w : KW) : KRes := do
  let p ← x.pat (w.imm % 65536) 1
  let n := p.rows
  let part := w.sub % 4
  let trans := w.sub / 4 % 2 = 1
  let scaled := w.sub / 8 = 1
  let nval := p.ptr.foldl max p.nnz
  let at_ (rel : Bool) (i : Nat) : Nat := (if rel then x.area else 0) + 5 * i
  let da := at_ w.id w.d
  if overlap5 da n (at_ w.ia w.a) p.nnz ∨ overlap5 da n (at_ w.ib w.b) n ∨ (scaled ∧ overlap5 da n (at_ w.ic w.c) (2 * n))
  then throw St.badDesc
  let a ← x.span w.ia w.a nval 5
  let b ← x.load w.ib w.b n w.cb
  let rc ← if scaled then x.load w.ic w.c (2 * n) w.cc else .ok []
  -- the L stages work at the rows that the indices name (R227, R230)
  let d ← x.span w.id w.d (if part = 2 ∨ n = 0 then n else p.idx.foldl (fun m i => max m (i + 1)) n) 5
  let lst := 6 + (p.lvl.map fun l => 5 + ceilDiv l.2.2.2 128).sum
  let dg := 6 + ceilDiv n 128
  let sc := if scaled then dg else 0
  let cost := match part with | 0 => 2 * lst + dg + 2 * sc | 1 => lst + sc | 2 => dg | _ => lst + sc
  if ¬ p.factorOk then return openEff x.s d n cost false
  let v := x.vals a nval
  let l := v.map (fixVal (x.frac w.ca))
  let dinv := (List.range n).map fun j => fixVal (x.frac w.cb) (v.getD (p.ptr.getD j 0) 0)
  let r := if scaled then some (if trans then rc.drop n else rc.take n) else none
  let c := if scaled then some (if trans then rc.take n else rc.drop n) else none
  let fb := x.frac w.cb
  let fd := x.frac w.cd
  let f1 := if scaled then fd else fb
  let y : KVec := match part with
    | 0 => x.scaling w c fd (x.upper w p l fd (x.diagonal w p dinv fd (x.lower w p l f1 (x.scaling w r fb (b, 0)))))
    | 1 => x.lower w p l f1 (x.scaling w r fb (b, 0))
    | 2 => x.diagonal w p dinv fb (b, 0)
    | _ => x.scaling w c fd (x.upper w p l fb (b, 0))
  return { writes := putVals d (y.1.map fun q => q.at (-(fd : Int))), cost := cost, flags := satFlag y.2, sat := y.2 }

/-! Regions (R220, R236). -/

/-- The 1 MiB regions that n bytes from a window offset touch. -/
def regionsOf (a n : Nat) : List Nat := if n = 0 then [] else (List.range ((a + n - 1) / 2 ^ 20 + 1 - a / 2 ^ 20)).map fun i => a / 2 ^ 20 + i

/-- The regions of an operand of n elements. -/
def KC.regs (x : KC) (rel : Bool) (idx n size : Nat) : List Nat := regionsOf ((if rel then x.area else 0) + size * idx) (size * n)

/-- The regions that a word holds while it runs: of its operands, its destination, its pattern tables and itself, at window offset own. -/
def KC.occupied (x : KC) (w : KW) (own : Nat) : List Nat :=
  let A (n : Nat) := x.regs w.ia w.a n 5
  let B (n : Nat) := x.regs w.ib w.b n 5
  let C (n : Nat) := x.regs w.ic w.c n 5
  let D (n : Nat) := x.regs w.id w.d n 5
  let e := dword (x.bytes (x.img + x.patOff + 32 * (w.imm % 65536)) 32)
  let tables := regionsOf (x.img + x.patOff + 32 * (w.imm % 65536)) 32 ++ regionsOf (x.img + e 3) (4 * (e 1 + 1)) ++
    regionsOf (x.img + e 4) (4 * e 2) ++ regionsOf (x.img + e 5) (16 * e 6)
  let rows := e 1
  let cols := e 7
  regionsOf own 32 ++ match w.op with
    | 0x01 => x.regs w.ia w.a w.n 8 ++ D w.n
    | 0x02 => A w.n ++ x.regs w.id w.d w.n 8
    | 0x08 => (if w.sub = 10 then [] else A w.n) ++ (if 1 ≤ w.sub ∧ w.sub ≤ 8 then B w.n else []) ++
        (if w.sub = 4 ∨ w.sub = 5 ∨ w.sub = 8 then C w.n else []) ++ D w.n
    | 0x09 => A w.n ++ B w.n
    | 0x0A => A w.n
    | 0x0B => A w.n ++ D w.n
    | 0x0C => A 1
    | 0x10 =>
      let tr := w.sub % 2 = 1
      -- an index at or beyond COLS takes part at the address that it forms (R227)
      let far := match x.pat (w.imm % 65536) 0 with | .ok p => p.idx.filter fun i => decide (cols ≤ i) | .error _ => []
      let side (rel : Bool) (v : Nat) := x.regs rel v cols 5 ++ far.flatMap fun i => x.regs rel (v + i) 1 5
      tables ++ A (e 2) ++ (if tr then B rows else side w.ib w.b) ++ (if tr then side w.id w.d else D rows) ++
        (if w.sub / 2 = 1 then (if tr then side w.ic w.c else C rows) else [])
    | 0x11 => tables ++ A (e 2)
    | 0x12 => tables ++ A (e 2) ++ B rows ++ D rows ++ (if w.sub / 8 = 1 then C (2 * rows) else [])
    | _ => []

/-- The effect of a word that is neither a control word nor an IMPORT. -/
def KC.eff (x : KC) (w : KW) : KRes :=
  match w.op with
  | 0x02 => x.exportEff w
  | 0x08 => x.vopEff w
  | 0x09 => x.dotEff w
  | 0x0A => x.normEff w
  | 0x0B => x.recipEff w
  | 0x0C => x.sloadEff w
  | 0x10 => x.spmvEff w
  | 0x11 => x.factEff w
  | 0x12 => x.solveEff w
  | _ => .error St.badDesc

end Sys2Proof.Machine
end

