-- ==== Sys2Proof/Machine/SecBase.lean ====
section
/-! DEFINITION. Firmware sets of the security controller (19_security_update.md): manifests (R371, R372), floors, measurements
(R368), update records (R377), and the switch of an activation (R376). -/

namespace Sys2Proof.Machine

def secPage : Nat := 0xF10000
def setSec (s : State) (x : Sec) : State := { s with sec := x }

/-! The manifest (R371, R372). -/

/-- A field of the entry of component c. -/
def entryField (m : List Byte) (c off n : Nat) : Nat := fieldLE m (64 * c + off) n
def entrySame (m : List Byte) (c : Nat) : Bool := bit (entryField m c 1 1) 0
def entrySrec (m : List Byte) (c : Nat) : Nat := entryField m c 2 2
def entrySrecMin (m : List Byte) (c : Nat) : Nat := entryField m c 4 2
def entrySvn (m : List Byte) (c : Nat) : Nat := entryField m c 6 2
def entryBuild (m : List Byte) (c : Nat) : Nat := entryField m c 8 4
def entrySize (m : List Byte) (c : Nat) : Nat := entryField m c 12 4
def entryDigest (m : List Byte) (c : Nat) : Nat := entryField m c 16 48

/-- Bank size of a component in bytes (R370). -/
def bankBytes (c : Nat) : Nat := match c with | 2 | 6 => 0x200000 | 3 => 0x800000 | _ => 0x400000

def components : List Nat := [1, 2, 3, 4, 5, 6]

/-- The manifest of the running set, and that of the slots A. -/
def runningManifest (s : State) : List Byte := s.sec.running.getD Config.factoryManifest
def storedManifest (s : State) : List Byte := s.sec.stored.getD Config.factoryManifest

/-- The slot A image of a component. -/
def imageA (s : State) (c : Nat) : List Byte := (Tab.find s.sec.slotA c).getD (Config.factoryImage c)
/-- The slot B bank of a component. -/
def bankB (s : State) (c : Nat) : Bank := Tab.get bankInit s.sec.slotB c
/-- The anti-rollback floor of a component (R373). -/
def floorOf (s : State) (c : Nat) : Nat := Tab.get 0 s.sec.floors c

/-! Measurements (R368). -/

/-- The module description record as the SEC measures it (R15). -/
def recordBytes (s : State) : List Byte := Config.moduleRecord s.variant

/-- A measurement block, 1 to 9. -/
def measurement (s : State) (i : Nat) : Nat :=
  if i ≤ 6 then entryDigest (runningManifest s) i
  else if i = 7 then Config.sha384 (runningManifest s)
  else if i = 8 then Config.sha384 (recordBytes s)
  else Config.sha384 (components.flatMap fun c => leBytes 2 (Tab.get 0 s.sec.floorsM c))

/-- The floors measured (R368): at a boot of the SEC, and at the turn of an activation. -/
def measureFloors (s : State) : State := setSec s { s.sec with floorsM := s.sec.floors }

/-! The bank record (R370). -/

/-- Its contents but the authentication code: write counter, physical bank of each slot A, floors, revocation of key 0. -/
def bankRecord (x : Sec) : List Byte :=
  leBytes 4 x.writes ++ (components.map fun c => BitVec.ofNat 8 (b2n (x.bankA.contains c))) ++
    (components.flatMap fun c => leBytes 2 (Tab.get 0 x.floors c)) ++ leBytes 1 (b2n x.revoked)

/-- The record written in one step: the counter goes on by 1 and the code follows the new contents. A counter at its largest value stays there
(the model's choice, log entry 7). -/
def writeRecord (s : State) (x : Sec) : State :=
  let x := { x with writes := min (x.writes + 1) (2 ^ 32 - 1) }
  setSec s { x with code := some (Config.recordCode Config.pufSeed (bankRecord x)) }

/-- The names of the banks swapped: slot A of every component is its other physical bank. -/
def swapBanks (l : List Nat) : List Nat := components.filter fun c => !l.contains c

/-- A measurement event in the log of the last 256. -/
def logEvent (s : State) : State :=
  let l := s.sec.log ++ [s.sec.writes]
  setSec s { s.sec with log := l.drop (l.length - 256) }

/-! The state of an update (R374, R377). -/

/-- STATE and OWNER of SEC_MB_STS follow the update; an error code is shown in place of the phase. -/
def showState (s : State) (st owner : Nat) : State := wrs s [(Fd.secMbStsState, st), (Fd.secMbStsOwner, owner)]

/-- An update command that ends in an error STATE is counted (R380), the STATE in place of a record's STATUS (the model's choice, log entry 7). -/
def secError (s : State) (st : Nat) : State := pageErr (wr s Fd.secMbStsState st) secPage 0 0 st

/-- An update is over: no owner, nothing armed. -/
def closeUpdate (s : State) : State :=
  showState (setSec s { s.sec with phase := 0, cmd := none, ready := [], switched := false, switching := [], pldmOpen := false,
                                   pldmComp := 0 }) 0 0

/-- The record of an update, with the named turn. -/
def secRecord (s : State) (status count reason comp : Nat) : State :=
  let r : CRec := { tag := s.sec.tag, status := status, kind := Sk.sec, idx := 0, cyc := s.now, detail := reason + comp * 256, flags := 0,
                    count := count }
  let s := pageFlags s secPage 0
  let s := if 0x10 ≤ status then pageErr (notice s Fd.nSecAbort) secPage 0 r.tag status else s
  let q := rd s Fd.secCqQueue
  enqCell s prodSec q (rd s (Fd.qmuQcfgDefprio q)) r.cyc (r.bytes s.sec.turn (offsetAt s r.cyc))

/-- An update ends with an ABANDONED record: nothing is switched. -/
def abandonUpdate (s : State) (reason comp : Nat) : State := closeUpdate (secRecord s St.abandoned 0 reason comp)

/-! The switch (R376). -/

/-- When every component has switched the record follows. -/
def switchEnd (s : State) : State :=
  if s.sec.switched ∧ s.sec.switching.isEmpty then closeUpdate (secRecord s St.done 6 0 0) else s

/-- The switch at a turn start: every component but the kilns that run a job. -/
def beginSwitch (s : State) : State :=
  let busy := (List.range 4).filter fun k => (kiln s k).run.isSome
  let s := setSec s { s.sec with running := s.sec.stored, switched := true, switching := busy }
  switchEnd (logEvent (measureFloors (notice s Fd.nSecSwitch)))

/-- The running job of a kiln has ended: its microcode switches when one is due. -/
def kilnSwitch (s : State) (k : Nat) : State :=
  if s.sec.switching.contains k then
    switchEnd (setSec s { s.sec with switching := s.sec.switching.filter fun x => x != k })
  else s

end Sys2Proof.Machine
end

