-- ==== Sys2Proof/Machine/Kiln.lean ====
section
/-! DEFINITION. The kiln engines (11_kiln_engines.md): job descriptors and their checks, the start slot, the words of an
instance, input waits, the deadline, the commit, warm start, and what stops a job. -/

namespace Sys2Proof.Machine

/-! The job descriptor (R222). -/

structure JobD where
  op : Nat
  warm : Bool
  save : Bool
  ni : Nat
  startDt : Nat
  startOff : Nat
  budget : Nat
  tag : Nat
  sched : Nat
  instBase : Nat
  instStr : Nat
  outSrc : Nat
  outLen : Nat
  outDst : Nat
  outStr : Nat
  stsDst : Nat
  wsAddr : Nat
  wsStr : Nat
  rsv : Bool
  deriving DecidableEq, Repr

def jobD (d : List Byte) : JobD :=
  let w := dword d
  { op := bits (w 0) 31 28, warm := bit (w 0) 27, save := bit (w 0) 26, ni := bits (w 0) 25 20, startDt := bits (w 0) 19 16,
    startOff := bits (w 1) 28 0, budget := w 2, tag := w 3, sched := bits (w 4) 21 0, instBase := bits (w 5) 14 0,
    instStr := bits (w 6) 14 0, outSrc := bits (w 7) 23 0, outLen := bits (w 8) 23 0, outDst := bits (w 9) 24 0,
    outStr := bits (w 10) 24 0, stsDst := bits (w 11) 24 0, wsAddr := bits (w 12) 20 0, wsStr := bits (w 13) 20 0,
    rsv := bits (w 0) 15 0 != 0 || bits (w 1) 31 29 != 0 || bits (w 4) 31 22 != 0 || bits (w 5) 31 15 != 0 ||
      bits (w 6) 31 15 != 0 || bits (w 7) 31 24 != 0 || bits (w 8) 31 24 != 0 || bits (w 9) 31 25 != 0 ||
      bits (w 10) 31 25 != 0 || bits (w 11) 31 25 != 0 || bits (w 12) 31 21 != 0 || bits (w 13) 31 21 != 0 ||
      fieldLE d 56 8 != 0 }

/-- Window offset of the area, output, status word and slot of instance i. -/
def JobD.area (d : JobD) (i : Nat) : Nat := (d.instBase + i * d.instStr) * 1024
def JobD.out (d : JobD) (i : Nat) : Nat := d.outDst + i * d.outStr
def JobD.sts (d : JobD) (i : Nat) : Nat := d.stsDst + 16 * i
def JobD.slot (d : JobD) (i : Nat) : Nat := schedEnd + d.wsAddr + i * d.wsStr

/-- The warm-start store, in the window. -/
def warmEnd : Nat := 0x1E00000

/-- The checks of R224, in order, for a turn length of len cycles. -/
def JobD.check (d : JobD) (len : Nat) : Option Nat :=
  let is := List.range d.ni
  if d.rsv ∨ d.op ≠ 1 ∨ d.budget = 0 ∨ len ≤ d.startOff then some St.badDesc
  else if d.ni = 0 then some St.doneEmpty
  else if d.sched % 64 ≠ 0 ∨ d.outSrc % 8 ≠ 0 ∨ d.outLen % 8 ≠ 0 ∨ d.outDst % 8 ≠ 0 ∨ d.outStr % 8 ≠ 0 ∨ d.stsDst % 16 ≠ 0 ∨
    d.wsAddr % 64 ≠ 0 ∨ d.wsStr % 64 ≠ 0 ∨ valueEnd + d.sched + 64 > schedEnd ∨
    is.any (fun i => decide (valueEnd ≤ d.area i) || (d.outLen != 0 && (decide (valueEnd < d.area i + d.outSrc + d.outLen) ||
      decide (valueEnd < d.out i + d.outLen))) || decide (valueEnd < d.sts i + 16) || decide (warmEnd < d.slot i + 64))
  then some St.badAddr
  else none

/-! Records (R241, R243). -/

/-- The record of a job, or of a descriptor that the kiln turns away; base is the cycle from which DETAIL counts. -/
def klnPosting (k tag status acc cyc base count : Nat) (f : Flags) (wIn wPort : Nat) : Posting :=
  { unit := kilnPage k, read := none, stop := none, acc := acc
    notices := if isReject status then [Fd.nKlnReject k] else if status = St.abandoned then [Fd.nKlnAbandon k]
      else if status = St.deadlineMiss then [Fd.nKlnMiss k] else if status = St.doneDegraded then [Fd.nKlnDegraded k] else []
    counts := if status = St.deadlineMiss then [Fd.klnMissesCount k]
      else if status = St.doneDegraded ∨ status = St.done then [Fd.klnJobsCount k] else []
    flagPage := kilnPage k
    errs := if isReject status || status == St.abandoned || status == St.deadlineMiss then [kilnPage k] else []
    prod := prodKiln k, queue := Fd.klnCqQueue k
    rec_ := { tag := tag, status := status, kind := Sk.kln, idx := k, cyc := cyc
              detail := min (cyc - base) (2 ^ 32 - 1) + min wIn 0xFFFF * 2 ^ 32 + min wPort 0xFFFF * 2 ^ 48, flags := f, count := count } }

def KRun.allFlags (r : KRun) : Flags := Fl.any (r.done.map KInst.flags) ||| r.cur.flags

/-- The first job of a kiln leaves with a status, at a cycle; microcode that is due switches then (R376). -/
def endJob (s : State) (k status cyc count : Nat) : State :=
  let x := kiln s k
  match x.jobs, x.run with
  | j :: rest, some r =>
    let s := setKiln s k { x with jobs := rest, run := none, posted := cyc }
    let p := klnPosting k j.tag status r.slot cyc r.slot count r.allFlags r.waitIn r.waitPort
    kilnSwitch (postAt s { p with stop := if cyc ≤ s.now then none else some (Fd.nKlnAbandon k) }) k
  | _, _ => s

/-! Acceptance (R223, R224). -/

/-- Jobs that a kiln holds. -/
def kilnRoom (s : State) (k : Nat) : Bool := (kiln s k).jobs.length < 8

/-- A descriptor checked at acceptance; the kiln accepts one in a cycle (R223). -/
def acceptJob (s : State) (k tag acc step : Nat) (desc : List Byte) : Res :=
  let s := setKiln s k { kiln s k with nextAcc := max (kiln s k).nextAcc (acc + 1) }
  let d := jobD desc
  match d.check (1024 * rd s Fd.trnCurUnits) with
  | some st => ok (postLater s (klnPosting k tag st acc (acc + 10) acc 0 0 0 0))
  | none =>
    let x := kiln s k
    ok (setKiln s k { x with jobs := x.jobs ++ [{ desc := desc, tag := tag, acc := acc, dt := d.startDt, slot := none, step := step }] })

/-- KILN_RUN (R223, R224): the kiln accepts the descriptor that a tile of its die issued, or one from KLN_SQ.QUEUE, at the earliest in the
cycle after the last acceptance. With 8 jobs held, or in a cycle in which another source is granted, it waits. A fenced
kiln answers a queue item with NOT_PRESENT (R348). -/
def execKilnRun (k : Nat) (t : Option Nat) (s : State) : Res :=
  if 4 ≤ k ∨ ¬ capKiln s.variant k then .fault .noSuchUnit
  else match t with
    | some t =>
      if t / 16 ≠ k then .fault .noOperation
      else match takeIssue s t 7 with
        | none => .fault .noOperation
        | some (i, s') =>
          if ¬ kilnRoom s k then ok s
          else acceptJob s' k i.tag i.cyc (progStep s' (rd s' (Fd.tsqProgProg t))) (readBytes s' (tileBase t + i.desc) 64)
    | none =>
      if ¬ rdb s (Fd.klnSqEn k) ∨ (availKiln s k ∧ ¬ rdb s (Fd.blkctlEnable (kilnPage k))) ∨ memoryHeld s then .fault .noOperation
      else
        let s := settleTo s (kiln s k).nextAcc
        if ¬ kilnRoom s k ∨ (availKiln s k ∧ ¬ kilnGrants s k s.now 16) then ok s else
        let q := rd s (Fd.klnSqQueue k)
        let r := engineDeq s (prodKiln k) q
        if ¬ bit r.2.2 63 then emptyRead s r.1 q
        else
          let one := bit r.2.2 61
          let s := if one then r.1 else dropItem r.1 q
          let tag := (jobD r.2.1).tag
          let no (st : Nat) : Res := ok (postLater s (klnPosting k tag st s.now (s.now + 10) s.now 0 0 0 0))
          if ¬ availKiln s k then no St.notPresent
          else if ¬ one then no St.badDesc
          else acceptJob s k tag s.now (progStep s s.turn.prog) r.2.1

/-! Start (R225, R226). -/

/-- The cycle of a job's start slot, once it is fixed: its place in the present turn, or the first cycle after it. -/
def startSlot (s : State) (j : KJob) : Option Nat :=
  match j.slot with
  | some c => some c
  | none => if j.dt = 0 then
      let c := s.turn.start + (jobD j.desc).startOff
      if c < s.turn.stop then some c else none
    else none

/-- A turn is over: jobs whose turn it was know their slot; for the others one turn less is to come. -/
def jobTurn (start stop : Nat) (j : KJob) : KJob :=
  if j.slot.isSome then j
  else if j.dt = 0 then { j with slot := some (min (start + (jobD j.desc).startOff) stop) }
  else { j with dt := j.dt - 1 }

def kilnTurn (s : State) (start stop : Nat) : State :=
  { s with kilns := s.kilns.map fun p => (p.1, { p.2 with jobs := p.2.jobs.map (jobTurn start stop) }) }

/-- Fields of the image header (R226). -/
def hdrField (h : List Byte) (off : Nat) : Nat := fieldLE h off 4
def hdrFprint (h : List Byte) : Nat := fieldLE h 0 8
def hdrWords (h : List Byte) : Nat := hdrField h 12
def hdrWsLen (h : List Byte) : Nat := hdrField h 20
def hdrWsScr (h : List Byte) : Nat := hdrField h 24
def hdrClassOff (h : List Byte) : Nat := hdrField h 28
def hdrPatOff (h : List Byte) : Nat := hdrField h 32
def hdrNpat (h : List Byte) : Nat := hdrField h 36
def hdrWordOff (h : List Byte) : Nat := hdrField h 40

/-- FLOOR and FRAC of a class entry, none where R221 refuses it. -/
def classEntry (n : Nat) : Option (Nat × Nat) :=
  if bits n 63 47 ≠ 0 ∨ bits n 7 6 ≠ 0 ∨ 38 < bits n 5 0 then none else some (bits n 47 8, bits n 5 0)

/-- The checks of R226 on an image at window offset img. -/
def imageCheck (d : JobD) (img : Nat) (h : List Byte) (classes : List (Option (Nat × Nat))) : Option Nat :=
  let n := hdrWsLen h
  if hdrFprint h = 0 ∨ hdrWords h = 0 ∨ 419417 < n ∨ fieldLE h 44 20 ≠ 0 then some St.badDesc
  else if hdrClassOff h % 8 ≠ 0 ∨ hdrPatOff h % 32 ≠ 0 ∨ hdrWordOff h % 32 ≠ 0 ∨ schedEnd < img + hdrClassOff h + 2048 ∨
    (hdrNpat h ≠ 0 ∧ schedEnd < img + hdrPatOff h + 32 * hdrNpat h) ∨ schedEnd < img + hdrWordOff h + 32 * hdrWords h ∨
    ((d.warm || d.save) && n != 0 && (List.range d.ni).any fun i => decide (warmEnd < d.slot i + 64 + 5 * n)) then some St.badAddr
  else if classes.any Option.isNone then some St.badDesc
  else none

/-- CL (R237). -/
def commitLen (d : JobD) (wsLen : Nat) : Nat :=
  d.ni * (ceilDiv d.outLen 1024 + 1 + (if d.save then ceilDiv (64 + 5 * wsLen) 1024 else 0))

def setRun (s : State) (k : Nat) (r : KRun) : State := setKiln s k { kiln s k with run := some r }

/-- The job ends at a word of an instance (R230): KLN_FAULT names both, and the record follows in the next cycle. -/
def faultJob (s : State) (k : Nat) (r : KRun) (status : Nat) : State :=
  let s := wrs s [(Fd.klnFaultWord k, r.word), (Fd.klnFaultStatus k, status), (Fd.klnFaultInst k, r.inst)]
  endJob (settleTo (setRun s k r) (r.cyc + 1)) k status (r.cyc + 1) 0

/-- Bytes written in a kiln's window. -/
def kstore (s : State) (k : Nat) (l : List (Nat × List Byte)) : State :=
  l.foldl (fun s p => store s (kilnBase k + p.1) p.2) s

/-! Port conflicts (R236). -/

/-- Clock cycles from lo up to hi in which another unit meets one of these regions. -/
def portMeets (s : State) (k lo hi : Nat) (regs : List Nat) : Nat :=
  ((((kiln s k).ext.filter fun p => decide (lo ≤ p.1 ∧ p.1 < hi) && regs.contains p.2).map Prod.fst).foldl insertNat []).length

/-- What holds these regions from clock cycle lo on for cost cycles stops in each cycle in which they are met: the state at its end, and the
port waits. It is followed no further than clock cycle limit. -/
def portRun (k lo cost limit : Nat) (regs : List Nat) : Nat → State → Nat → State × Nat
  | 0, s, w => (s, w)
  | fuel + 1, s, w =>
    let s := settleTo s (min limit (lo + cost + w))
    let n := portMeets s k lo (min limit (lo + cost + w)) regs
    if n = w ∨ limit < lo + cost + w then (s, n) else portRun k lo cost limit regs fuel s n

/-- The waits counted, and the accesses before clock cycle c forgotten. -/
def portDone (s : State) (k c wait : Nat) : State :=
  let s := bump s (Fd.klnWaitPortCount k) wait
  setKiln s k { kiln s k with ext := (kiln s k).ext.filter fun p => decide (c ≤ p.1) }

/-- Enough rounds for any wait within a job's time. -/
def portFuel (lo limit : Nat) : Nat := limit - lo + 2

/-- The present instance starts in its cycle: its warm vector is filled (R240), its scalars are 0. The fill goes no further than clock cycle
limit. -/
def fillInst (s : State) (k : Nat) (d : JobD) (r : KRun) (limit : Nat) : State :=
  let n := hdrWsLen r.hdr
  let a := d.area r.inst + 5 * hdrWsScr r.hdr
  let r := { r with begun := true, word := 0, loop := none, cur := kinstInit, scal := [], fracs := [] }
  let len := ceilDiv (5 * n) 1024
  if limit ≤ r.cyc then s
  else
    let s := settleTo s r.cyc
    if n ≠ 0 ∧ valueEnd < a + 5 * n then faultJob s k r St.badAddr
    else
      let slot := kilnBase k + d.slot r.inst
      let hit : Bool := readLE s slot 8 == hdrFprint r.hdr && readLE s (slot + 8) 4 == n
      let cold : Bool := d.warm && n != 0 && !hit
      let bs := if d.warm ∧ hit then readBytes s (slot + 64) (5 * n) else List.replicate (5 * n) 0
      let s := if n = 0 then s else kstore s k [(a, bs.take (1024 * (limit - r.cyc)))]
      let s := if cold then bump (notice s (Fd.nKlnWarmMismatch k)) (Fd.klnWarmMissCount k) 1 else s
      let p := portRun k r.cyc len limit (regionsOf a (5 * n) ++ (if d.warm ∧ n ≠ 0 then regionsOf (d.slot r.inst) (64 + 5 * n) else []))
        (portFuel r.cyc limit) s 0
      let fin := r.cyc + len + p.2
      setRun (portDone p.1 k fin p.2) k
        { r with cyc := fin, waitPort := r.waitPort + p.2, cur := { kinstInit with flags := Fl.cond cold Fl.warmMismatch } }

/-- The fill of kiln k's present instance, as far as it comes before clock cycle limit, where it has not been. -/
def beginInst (s : State) (k limit : Nat) : State :=
  match (kiln s k).run, (kiln s k).jobs with
  | some r, j :: _ => if r.begun ∨ r.commit.isSome then s else fillInst s k (jobD j.desc) r (min limit r.miss)
  | _, _ => s

/-- JOB_START (R225, R226): the first job starts at the later of its slot and the last record; before its slot it does not. -/
def execJobStart (k : Nat) (s : State) : Res :=
  if 4 ≤ k ∨ ¬ capKiln s.variant k then .fault .noSuchUnit
  else
    let x := kiln s k
    match x.run, x.jobs with
    | none, j :: _ =>
      match startSlot s j with
      | none => ok s
      | some slot =>
        let d := jobD j.desc
        let t0 := max slot (max x.posted j.acc)
        let s := settleTo s t0
        let img := valueEnd + d.sched
        let h := readBytes s (kilnBase k + img) 64
        let cl := (List.range 256).map fun c => classEntry (readLE s (kilnBase k + img + hdrClassOff h + 8 * c) 8)
        let len := commitLen d (hdrWsLen h)
        let r : KRun :=
          { slot := slot, t0 := t0, hdr := h, classes := cl.map fun c => c.getD (0, 0), cl := len, inst := 0, word := 0, cyc := t0 + 24,
            begun := false, miss := max (slot + d.budget + 1 - len) (t0 + 10), scal := [], fracs := [], loop := none, cur := kinstInit,
            done := [], waitIn := 0, waitPort := 0, imp := none, commit := none, doomed := 0 }
        let p := portRun k t0 1 (t0 + 10) (regionsOf img 64 ++ regionsOf (img + hdrClassOff h) 2048) 16 s 0
        let r := { r with cyc := r.cyc + p.2, waitPort := p.2 }
        let s := setRun (portDone p.1 k (t0 + 1) p.2) k r
        match imageCheck d img h cl with
        | some st => ok (endJob s k st (t0 + 10) 0)
        | none => ok s
    | _, _ => .fault .noOperation

/-! Words (R229). -/

/-- Where the present word of a run works. -/
def kcOf (s : State) (k : Nat) (d : JobD) (r : KRun) : KC :=
  { s := s, k := k, area := d.area r.inst, img := valueEnd + d.sched, patOff := hdrPatOff r.hdr, npat := hdrNpat r.hdr,
    classes := r.classes, scal := r.scal, fracs := r.fracs }

/-- Word i of the image. -/
def wordAt (s : State) (k : Nat) (d : JobD) (r : KRun) (i : Nat) : KW :=
  kword (readBytes s (kilnBase k + valueEnd + d.sched + hdrWordOff r.hdr + 32 * i) 32)

/-- The index of the first ENDLOOP from word i on. -/
def findEndloop (s : State) (k : Nat) (d : JobD) (r : KRun) (i : Nat) : Option Nat :=
  (((List.range (hdrWords r.hdr - i)).map fun j => i + j).find? fun j => (wordAt s k d r j).op == 0x19)

/-- The effect of a finished word on the run: flags, counts and a scalar. -/
def KRun.add (r : KRun) (e : WEff) : KRun :=
  let set {α : Type} (z : α) (l : List α) (i : Nat) (v : α) : List α := ((l ++ List.replicate 16 z).take 16).set i v
  { r with
    cur := { r.cur with flags := r.cur.flags ||| e.flags, subst := r.cur.subst + e.subst, sat := r.cur.sat + e.sat },
    scal := (match e.scal with | some c => set Dy.zero r.scal c.1 c.2.1 | none => r.scal),
    fracs := (match e.scal with | some c => set 0 r.fracs c.1 c.2.2 | none => r.fracs) }

/-- The counters of a word's substitutions and saturations. -/
def countEff (s : State) (k : Nat) (e : WEff) : State :=
  bump (bump s (Fd.klnSubstCount k) e.subst) (Fd.klnSatCount k) e.sat

/-- The regions that the present word of a run holds. -/
def heldRegions (s : State) (k : Nat) (d : JobD) (r : KRun) : List Nat :=
  (kcOf s k d r).occupied (wordAt s k d r r.word) (valueEnd + d.sched + hdrWordOff r.hdr + 32 * r.word)

/-- The present word of run r takes cost cycles and its port waits. -/
def wordRun (s : State) (k : Nat) (d : JobD) (r : KRun) (cost : Nat) : State × Nat :=
  let p := portRun k r.cyc cost r.miss (heldRegions s k d r) (portFuel r.cyc r.miss) s 0
  (portDone p.1 k (r.cyc + cost + p.2) p.2, p.2)

/-! IMPORT and its units (R229, R235). -/

/-- Ready bits from first on cleared. -/
def clearReady (s : State) (k first count : Nat) : State :=
  let x := kiln s k
  let m := ((2 ^ count - 1) <<< first) % 2 ^ 24576
  setKiln s k { x with ready := x.ready ^^^ (x.ready &&& m) }

/-- Source units from u on are tested, read and cleared one by one, each in its own cycle, until one is not ready, which the run then waits
for, or clock cycle limit comes: the state, the run, and the unit reached. A unit of 128 elements takes 2 cc (the model's choice, log entry
14). -/
def importUnits (k : Nat) (d : JobD) (w : KW) (a dst limit : Nat) : Nat → Nat → State → KRun → State × KRun × Nat
  | 0, u, s, r => (s, r, u)
  | fuel + 1, u, s, r =>
    let last := ceilDiv w.n 128
    if last ≤ u ∨ limit ≤ r.cyc then (s, r, u)
    else
      let s := settleTo s r.cyc
      let hi := min w.n (128 * (u + 1))
      let k0 := (a + 1024 * u) / 1024
      let k1 := (a + 8 * hi - 1) / 1024
      if ¬ (kiln s k).readyAll k0 k1 then (s, { r with imp := some ⟨u, k0, k1, r.cyc, 0, none⟩ }, u)
      else
        let e := (kcOf s k d r).importEff w a dst (128 * u) hi
        -- with SUB[1] the KiB that no later unit reads are cleared
        let upto := if u + 1 = last then k1 + 1 else (a + 1024 * (u + 1)) / 1024
        let s := countEff (kstore s k e.writes) k e
        let s := if 2 ≤ w.sub then clearReady s k k0 (upto - k0) else s
        let cost := ceilDiv (hi - 128 * u) 64
        let p := portRun k r.cyc cost limit (heldRegions s k d r) (portFuel r.cyc limit) s 0
        importUnits k d w a dst limit fuel (u + 1) (portDone p.1 k (r.cyc + cost + p.2) p.2)
          { r.add e with cyc := r.cyc + cost + p.2, waitPort := r.waitPort + p.2 }

/-! Stops (R237, R242). -/

/-- What the word in progress had done when the kiln stops at cycle c: a free part of its writes, in order, and its flags or
not (log entry 14); an IMPORT the units that it had read. -/
def partWord (s : State) (k : Nat) (d : JobD) (r : KRun) (c : Nat) : State × KRun :=
  if c ≤ r.cyc ∨ ¬ r.begun ∨ r.imp.isSome ∨ r.commit.isSome ∨ hdrWords r.hdr ≤ r.word then (s, r)
  else
    let w := wordAt s k d r r.word
    let x := kcOf s k d r
    let n := Config.freeNat s.fresh 1
    if w.bad then (s, r)
    else if w.op = 0x01 then
      match x.span w.ia w.a w.n 8, x.span w.id w.d w.n 5 with
      | .ok a, .ok dst => let p := importUnits k d w a dst c (ceilDiv w.n 128) 0 s r; (p.1, p.2.1)
      | _, _ => (s, r)
    else match x.eff w with
      | .error _ => (s, r)
      | .ok e =>
        let s := kstore s k (e.writes.take (n % (e.writes.length + 1)))
        let on := bit (Config.freeNat s.fresh 2) 0
        (s, { r with cur := { r.cur with flags := r.cur.flags ||| Fl.cond on e.flags } })

/-- The running job stops at cycle c with a status: the waits of its present word are counted. -/
def stopJob (s : State) (k status c : Nat) : State :=
  let s := beginInst s k c
  let x := kiln s k
  match x.run, x.jobs with
  | some r, j :: _ =>
    let d := jobD j.desc
    let p := partWord s k d r c
    let r := p.2
    let s := countImport c (setRun p.1 k r) k
    let w := if r.imp.isSome ∨ hdrWords r.hdr ≤ r.word then 0 else portMeets s k r.cyc c (heldRegions s k d r)
    let s := portDone s k c w
    match (kiln s k).run with
    | some r => endJob (setRun s k { r with waitPort := r.waitPort + w }) k status c 0
    | none => s
  | _, _ => s

/-- The kiln gives its job up in the cycle in which the commit can no longer end by the deadline (R237). -/
def missJob (s : State) (k : Nat) (r : KRun) : State := stopJob (settleTo s r.miss) k St.deadlineMiss r.miss

/-- The present word of run r0 ends; the run goes on with r, at word next, unless the deadline comes first: s0 is the state in which the word
started. -/
def nextWord (s0 s : State) (k : Nat) (d : JobD) (r0 r : KRun) (cost next : Nat) : Res :=
  let p := wordRun s k d r0 cost
  let fin := r0.cyc + cost + p.2
  if r0.miss < fin then ok (missJob s0 k r0)
  else ok (setRun p.1 k { r with word := next, cyc := fin, waitPort := r.waitPort + p.2 })

/-- The frame of every word command: the running word of the kiln, if its operation is `op`. A reserved operation, and a run
past the last word, end the job whichever command names it, and so does a deadline that comes before the word. -/
def kilnWord (op k : Nat) (s : State) (f : State → JobD → KRun → KW → Res) : Res :=
  if 4 ≤ k ∨ ¬ capKiln s.variant k then .fault .noSuchUnit
  else
    match (kiln s k).run, (kiln s k).jobs with
    | some r, _ :: _ =>
      if r.commit.isSome ∨ r.imp.isSome then .fault .noOperation
      else
        let s := beginInst s k r.miss
        match (kiln s k).run, (kiln s k).jobs with
        | some r, j :: _ =>
          let d := jobD j.desc
          if r.miss ≤ r.cyc then ok (missJob s k r)
          else
            let s := settleTo s r.cyc
            if hdrWords r.hdr ≤ r.word then ok (faultJob s k r St.badDesc)
            else
              let w := wordAt s k d r r.word
              if w.subs = 0 then ok (faultJob s k r St.badDesc)
              else if w.op ≠ op then .fault .otherInstruction
              else if w.bad then ok (faultJob s k r St.badDesc)
              else f s d r w
        | _, _ => ok s
    | _, _ => .fault .noOperation

/-- A word that computes: its values are written, and the next word follows. -/
def computeWord (op k : Nat) (s : State) : Res :=
  kilnWord op k s fun s d r w =>
    match (kcOf s k d r).eff w with
    | .error st => ok (faultJob s k r st)
    | .ok e => nextWord s (countEff (kstore s k e.writes) k e) k d r (r.add e) e.cost (r.word + 1)

/-- EXPORT. -/
def execKExport (k : Nat) (s : State) : Res := computeWord 0x02 k s
/-- VOP. -/
def execKVop (k : Nat) (s : State) : Res := computeWord 0x08 k s
/-- DOT. -/
def execKDot (k : Nat) (s : State) : Res := computeWord 0x09 k s
/-- NORM. -/
def execKNorm (k : Nat) (s : State) : Res := computeWord 0x0A k s
/-- RECIP. -/
def execKRecip (k : Nat) (s : State) : Res := computeWord 0x0B k s
/-- SLOAD. -/
def execKSload (k : Nat) (s : State) : Res := computeWord 0x0C k s
/-- SPMV. -/
def execKSpmv (k : Nat) (s : State) : Res := computeWord 0x10 k s
/-- FACT (R231). -/
def execKFact (k : Nat) (s : State) : Res := computeWord 0x11 k s
/-- SOLVE (R232). -/
def execKSolve (k : Nat) (s : State) : Res := computeWord 0x12 k s

/-- LOOP (R229): MAXIT passes of the words up to ENDLOOP; none skips them. -/
def execKLoop (k : Nat) (s : State) : Res :=
  kilnWord 0x18 k s fun s d r w =>
    let n := w.imm % 256
    if r.loop.isSome then ok (faultJob s k r St.badDesc)
    else if n ≠ 0 then
      nextWord s s k d r { r with loop := some (r.word, 1, n), cur := { r.cur with passes := 1, left := false } } 1 (r.word + 1)
    else match findEndloop s k d r (r.word + 1) with
      | none => ok (faultJob s k { r with word := hdrWords r.hdr } St.badDesc)
      | some e => nextWord s s k d r { r with cur := { r.cur with passes := 0, left := false } } 1 (e + 1)

/-- ENDLOOP (R229): the next pass, or past the loop. -/
def execKEndloop (k : Nat) (s : State) : Res :=
  kilnWord 0x19 k s fun s d r _ =>
    match r.loop with
    | none => ok (faultJob s k r St.badDesc)
    | some (i, p, n) =>
      if p < n then nextWord s s k d r { r with loop := some (i, p + 1, n), cur := { r.cur with passes := p + 1 } } 2 (i + 1)
      else nextWord s s k d r { r with loop := none } 2 (r.word + 1)

/-- TEST (R229): leaves the loop when s_a ≤ s_b and, with SUB 0, s_c ≤ s_d. -/
def execKTest (k : Nat) (s : State) : Res :=
  kilnWord 0x1A k s fun s d r w =>
    let v (i : Nat) : Dy := r.scal.getD (w.imm / 16 ^ i % 16) Dy.zero
    if r.loop.isNone then ok (faultJob s k r St.badDesc)
    else if (v 0).le (v 1) ∧ (w.sub = 1 ∨ (v 2).le (v 3)) then
      match findEndloop s k d r (r.word + 1) with
      | none => ok (faultJob s k { r with word := hdrWords r.hdr } St.badDesc)
      | some e => nextWord s s k d r { r with loop := none, cur := { r.cur with left := true } } 3 (e + 1)
    else nextWord s s k d r r 3 (r.word + 1)

/-! IMPORT (R229, R235). -/

/-- IMPORT goes on from unit u in the run's cycle: it ends, stops at a unit that is not ready, or the deadline comes. -/
def importFrom (k : Nat) (d : JobD) (w : KW) (u : Nat) (s : State) (r : KRun) : Res :=
  let x := kcOf s k d r
  match x.span w.ia w.a w.n 8, x.span w.id w.d w.n 5 with
  | .ok a, .ok dst =>
    let p := importUnits k d w a dst r.miss (ceilDiv w.n 128) u s r
    let s := setRun p.1 k p.2.1
    if p.2.1.imp.isSome then ok s
    else if p.2.2 < ceilDiv w.n 128 then ok (missJob s k p.2.1)
    else nextWord s s k d p.2.1 p.2.1 8 (r.word + 1)
  | _, _ => ok (faultJob s k r St.badAddr)

/-- IMPORT (R229, R233, R235). -/
def execKImport (k : Nat) (s : State) : Res :=
  kilnWord 0x01 k s fun s d r w => importFrom k d w 0 s r

/-- IMPORT_RESUME (R235): the word goes on in the cycle after the last missing bit is set; until then it waits on. -/
def execImportResume (k : Nat) (s : State) : Res :=
  if 4 ≤ k ∨ ¬ capKiln s.variant k then .fault .noSuchUnit
  else
    match (kiln s k).run with
    | some r =>
      match r.imp with
      | none => .fault .noOperation
      | some i =>
        let s := settleTo s ((i.wake).getD s.now)
        match (kiln s k).run, (kiln s k).jobs with
        | some r, j :: _ => match r.imp with
          | some ⟨u, _, _, _, _, some c⟩ =>
            if r.miss ≤ c then ok (missJob s k r)
            else
              let d := jobD j.desc
              importFrom k d (wordAt s k d r r.word) u s { r with cyc := c, imp := none }
          | _ => ok s
        | _, _ => ok s
    | none => .fault .noOperation

/-! The end of an instance and the commit (R237 to R240). -/

/-- END (R225, R229): the next instance follows, or the commit. -/
def execKEnd (k : Nat) (s : State) : Res :=
  kilnWord 0x00 k s fun s0 d r _ =>
    let p := wordRun s0 k d r 1
    let fin := r.cyc + 1 + p.2
    let s := p.1
    let n := hdrWsLen r.hdr
    let warm := if d.save then readBytes s (kilnBase k + d.area r.inst + 5 * hdrWsScr r.hdr) (5 * n) else []
    let r' := { r with cyc := fin, done := r.done ++ [{ r.cur with warm := warm }], cur := kinstInit, waitPort := r.waitPort + p.2,
                       inst := r.inst + 1 }
    if r.miss < fin + (if r.inst + 1 = d.ni then 1 else 0) then ok (missJob s0 k r)
    else if r.inst + 1 = d.ni then ok (setRun s k { r' with commit := some fin })
    else ok (setRun s k { r' with begun := false })

/-- The status word of an instance (R239). -/
def KInst.status (i : KInst) : List Byte :=
  leBytes 4 i.flags.toNat ++ leBytes 2 (min i.passes 0xFFFF) ++ leBytes 1 (b2n i.left) ++ [0] ++
    leBytes 4 (min i.subst (2 ^ 32 - 1)) ++ leBytes 4 (min i.sat (2 ^ 32 - 1))

/-- Flags that make an instance degraded (R234). -/
def degradedMask : Flags := Fl.pivotSubst ||| Fl.rangeSat ||| Fl.inv ||| Fl.dz

/-- The commit's writes for instance i (R238, R240). -/
def commitInst (k : Nat) (d : JobD) (r : KRun) (s : State) (p : Nat × KInst) : State :=
  let i := p.1
  let s := kstore s k [(d.out i, readBytes s (kilnBase k + d.area i + d.outSrc) d.outLen), (d.sts i, p.2.status)]
  let n := hdrWsLen r.hdr
  if d.save ∧ n ≠ 0 then
    kstore s k [(d.slot i + 64, p.2.warm), (d.slot i + 8, leBytes 4 n ++ List.replicate 52 0), (d.slot i, leBytes 8 (hdrFprint r.hdr))]
  else s

/-- The regions that a commit holds. -/
def commitRegions (d : JobD) (n : Nat) : List Nat :=
  (List.range d.ni).flatMap fun i => regionsOf (d.area i + d.outSrc) d.outLen ++ regionsOf (d.out i) d.outLen ++ regionsOf (d.sts i) 16 ++
    (if d.save ∧ n ≠ 0 then regionsOf (d.slot i) (64 + 5 * n) else [])

/-- A commit from clock cycle c runs with its port waits (R236, R238). -/
def commitRun (s : State) (k : Nat) (r : KRun) (c : Nat) : State × Nat :=
  let d := match (kiln s k).jobs with | j :: _ => jobD j.desc | [] => jobD []
  let p := portRun k c r.cl (c + 2 * r.cl) (commitRegions d (hdrWsLen r.hdr)) (r.cl + 2) s 0
  (setRun (portDone p.1 k (c + r.cl + p.2) p.2) k { r with waitPort := r.waitPort + p.2 }, p.2)

/-- The commit of the first job ends at a cycle. -/
def finishCommit (s : State) (k cyc : Nat) : State :=
  let x := kiln s k
  match x.run, x.jobs with
  | some r, j :: _ =>
    let d := jobD j.desc
    let s := (List.zip (List.range r.done.length) r.done).foldl (commitInst k d r) s
    let bad := r.done.any fun i => Fl.has i.flags degradedMask
    endJob s k (if bad then St.doneDegraded else St.done) cyc d.ni
  | _, _ => s

/-- A queued job is discarded with ABANDONED (R242). -/
def dropJob (k c : Nat) (s : State) (j : KJob) : State :=
  let base := match startSlot s j with | some b => min b c | none => c
  postNow s (klnPosting k j.tag St.abandoned j.acc c base 0 0 0 0)

/-- KILN_COMMIT_DONE (R238, R241): jobs that a SOFT_RESET discards during the commit follow its record (R242). -/
def execKilnCommitDone (k : Nat) (s : State) : Res :=
  if 4 ≤ k ∨ ¬ capKiln s.variant k then .fault .noSuchUnit
  else match (kiln s k).run with
    | none => .fault .noOperation
    | some r =>
      match r.commit with
      | none => .fault .noOperation
      | some c =>
        let p := commitRun s k r c
        let cyc := c + r.cl + p.2
        let s := finishCommit p.1 k cyc
        let js := (kiln s k).jobs
        ok ((js.take r.doomed).foldl (dropJob k cyc) (setKiln s k { kiln s k with jobs := js.drop r.doomed }))

/-- DEADLINE_MISS (R237): the commit can no longer end by D. -/
def execDeadlineMiss (k : Nat) (s : State) : Res :=
  if 4 ≤ k ∨ ¬ capKiln s.variant k then .fault .noSuchUnit
  else
    let x := kiln s k
    match x.run, x.jobs with
    | some r, _ :: _ => if r.commit.isSome then .fault .noOperation else ok (missJob s k r)
    | _, _ => .fault .noOperation

/-- A kiln stops at cycle c (R242): a commit in progress completes first, the running job, one in the checks of its image too, and the queued ones
post ABANDONED. -/
def abandonKiln (s : State) (k c : Nat) : State :=
  let s := stopChecks s c fun u => u == kilnPage k
  let x := kiln s k
  match x.run with
  | some r =>
    let p := match r.commit with | some m => commitRun s k r m | none => (s, 0)
    let c' := match r.commit with | some m => max c (m + r.cl + p.2) | none => c
    let s := match r.commit with | some m => finishCommit p.1 k (m + r.cl + p.2) | none => stopJob s k St.abandoned c
    let js := (kiln s k).jobs
    js.foldl (dropJob k c') (setKiln s k { kiln s k with jobs := [], posted := c' })
  | none => x.jobs.foldl (dropJob k c) (if x.jobs.isEmpty then s else setKiln s k { x with jobs := [], posted := c })

/-- KILN_SOFT_RESET (R242): a commit in progress completes first. -/
def execKilnSoftReset (k : Nat) (s : State) : Res :=
  if 4 ≤ k then .fault .noSuchUnit
  else if ¬ capKiln s.variant k ∨ ¬ s.boot.stagesDone.contains 6 then ok s
  else match (kiln s k).run with
    | some r =>
      if r.commit.isSome then ok (setRun s k { r with doomed := (kiln s k).jobs.length - 1 })
      else ok (abandonKiln s k s.now)
    | none => ok (abandonKiln s k s.now)

/-- KLN_RDYCLR (R235): ready bits from FIRST on are cleared. -/
def execKlnRdyclrWrite (k : Nat) (v : BitVec 32) (s : State) : Res :=
  if 4 ≤ k then .fault .noSuchUnit
  else if ¬ capKiln s.variant k ∨ ¬ s.boot.stagesDone.contains 6 then ok s
  else ok (clearReady s k (bits v.toNat 15 0) (bits v.toNat 31 16))

end Sys2Proof.Machine
end

