-- ==== Sys2Proof/Machine/Host.lean ====
section
/-! DEFINITION. The host attachment (15_host_attachment.md): the CXL link, configuration and DOE, queue windows, host-managed
memory and its snoop filter, rings in host memory and the device coherency cache, MSI-X, IDE and function-level reset. -/

namespace Sys2Proof.Machine

def hifPage : Nat := 0x50000

/-! Link (R311, R312). -/

/-- A stage of bring-up has ended (R340). -/
def stageEnded (s : State) (k : Nat) : Bool := s.boot.stagesDone.contains k

/-- The host reaches the module over the link. -/
def hostUp (s : State) : Bool := s.boot.linkUp && !s.boot.p3
/-- CXL.mem and CXL.cache are there. -/
def cxlUp (s : State) : Bool := hostUp s && !rdb s Fd.hifLinkMode

/-- A class C or M reset is under way: requests of narrower ones are ignored until READY (R363). -/
def bringUp (s : State) : Bool := !rdb s Fd.moduleStateReady && !rdb s Fd.moduleStateNoservice

/-- What the host sends reaches the HIF only over a link that is up; it is discarded in the insecure state (R324). -/
def fromHost (s : State) (up : Bool) (k : Res) : Res := if ¬ up ∨ ideStopped s then ok s else k

/-- An access to a BAR: while the function does not decode its BARs it is an Unsupported Request (R313, R325; PRESUMED, log entry 28). -/
def barAccess (s : State) (k : Res) : Res :=
  fromHost s (hostUp s) (if s.hif.cfg.decode then k else ok (emit s (.reply 6 1 [])))

def rateOk (r w f : Nat) : Bool := 1 ≤ r && r ≤ 3 && (w == 16 || w == 8 || w == 4) && f ≤ 1

/-- CXL_LINK_UP (R311, R342): the HIF trains from the later of the end of stage 4 and the deassertion of PERST_N, not in NOSERVICE or P3, and at no
other rate or width. -/
def execCxlLinkUp (rate width flit : Nat) (pcie : Bool) (s : State) : Res :=
  if s.boot.linkUp ∨ s.boot.perst ∨ ¬ stageEnded s 4 ∨ rdb s Fd.moduleStateNoservice ∨ s.boot.p3 ∨ ¬ rateOk rate width flit then ok s
  else
    let s := wrs s [(Fd.hifLinkRate, rate), (Fd.hifLinkWidth, width), (Fd.hifLinkFlit, flit), (Fd.hifLinkMode, b2n pcie)]
    ok { s with boot := { s.boot with linkUp := true } }

/-- LINK_RETRAIN (R312): settings are kept; a new rate or width is a notice. -/
def execLinkRetrain (rate width flit : Nat) (s : State) : Res :=
  if ¬ s.boot.linkUp ∨ ¬ rateOk rate width flit then ok s
  else
    let s := if rate ≠ rd s Fd.hifLinkRate ∨ width ≠ rd s Fd.hifLinkWidth then notice s Fd.nHifLinkChange else s
    ok (wrs s [(Fd.hifLinkRate, rate), (Fd.hifLinkWidth, width), (Fd.hifLinkFlit, flit)])

/-- The link is down; everything else stays (R312). -/
def linkDown (s : State) : State :=
  let s := wrs s [(Fd.hifLinkRate, 0), (Fd.hifLinkWidth, 0)]
  { s with boot := { s.boot with linkUp := false } }

/-- CXL_LINK_DROP (R312). -/
def execCxlLinkDrop (s : State) : Res := ok (if s.boot.linkUp then linkDown s else s)

/-! MSI-X (R323). The vector control word resets to masked, as the PCIe standard has it. -/

def msixWord (s : State) (i : Nat) : Nat := (Tab.find s.hif.msix i).getD (b2n (i % 4 == 3))
/-- A vector is masked: by its own bit, by the function mask, or while MSI-X is not enabled (PRESUMED, log entry 28). -/
def vecMasked (s : State) (v : Nat) : Bool := (msixWord s (4 * v + 3)).testBit 0 || s.hif.cfg.msixMask || !s.hif.cfg.msixOn

/-- The message of a vector, as its table entry has it. -/
def msixOut (s : State) (v : Nat) : Out := .msix v (msixWord s (4 * v) + 2 ^ 32 * msixWord s (4 * v + 1)) (msixWord s (4 * v + 2))

/-- A vector sent, or made pending while it is masked. -/
def sendMsix (s : State) (v : Nat) : State :=
  if vecMasked s v then { s with hif := { s.hif with msixPend := insertNat s.hif.msixPend v } } else emit s (msixOut s v)

/-- A pending vector that is no longer masked goes out. -/
def releaseMsix (s : State) (v : Nat) : State :=
  if ¬ vecMasked s v ∧ s.hif.msixPend.contains v then
    emit { s with hif := { s.hif with msixPend := s.hif.msixPend.filter fun x => x != v } } (msixOut s v)
  else s

/-- A word of the MSI-X table written: a pending vector goes out when its mask is cleared. -/
def setMsixWord (s : State) (i v : Nat) : State :=
  let s := { s with hif := { s.hif with msix := Tab.put (b2n (i % 4 == 3)) s.hif.msix i v } }
  if i % 4 = 3 then releaseMsix s (i / 4) else s

/-! Configuration space and BARs (R313, R316, R342). -/

/-- Sizes of the two BARs (R313). -/
def bar0Size : Nat := 2 ^ 26
def bar2Size : Nat := 2 ^ 28

def setCfg (s : State) (c : Cfg) : State := { s with hif := { s.hif with cfg := c } }

/-- HIF_HDM.SIZE (R317). -/
def hdmSize (s : State) : Nat := match s.variant with | .s => 0x6000000000 | _ => 0xC000000000

/-- A word of a CXL DVSEC (R316): as written in the bits that a write sets, else as the device has it. -/
def dvsecAt (s : State) (id w : Nat) : Nat := (Tab.find s.hif.cfg.dvsec (64 * id + w)).getD (Config.dvsecWord id w % 2 ^ 32)

/-- What a configuration read returns. A BAR is 64-bit and non-prefetchable: the type bits of its low word are 0100. -/
def cfgRead (s : State) (r : CfgReg) : Nat :=
  let c := s.hif.cfg
  match r with
  | .command => b2n c.decode * 2
  | .bar0 => c.bar0 % 2 ^ 32 + 4
  | .bar0Hi => c.bar0 / 2 ^ 32
  | .bar2 => c.bar2 % 2 ^ 32 + 4
  | .bar2Hi => c.bar2 / 2 ^ 32
  | .msixControl => b2n c.msixOn * 2 ^ 31 + b2n c.msixMask * 2 ^ 30 + 2047 * 2 ^ 16
  | .msixTable => 0x58000
  | .msixPba => 0x51000
  | .dvsecCap => 7 + Config.dvsecBits % 2 ^ 13 * 8
  | .dvsecControl2 => 0
  -- the size of the HDM range is that of R317
  | .dvsec 0 6 => hdmSize s / 2 ^ 32
  | .dvsec 0 7 => hdmSize s % 2 ^ 32 + Config.dvsecWord 0 7 % 2 ^ 28
  | .dvsec id w => dvsecAt s id w
  | .ideControl => c.ideMode
  | .other => 0

/-- A base address written by halves: the bits below the BAR's size stay 0. -/
def barWrite (size old half v : Nat) : Nat :=
  let n := if half = 0 then old / 2 ^ 32 * 2 ^ 32 + v else v * 2 ^ 32 + old % 2 ^ 32
  n - n % size

/-- A configuration write. Vectors that were pending go out when MSI-X or the function is unmasked; the write-back-and-invalidate control
empties the device coherency cache (R325). -/
def cfgWrite (s : State) (r : CfgReg) (v : Nat) : State :=
  let c := s.hif.cfg
  match r with
  | .command => setCfg s { c with decode := bit v 1 }
  | .bar0 => setCfg s { c with bar0 := barWrite bar0Size c.bar0 0 v }
  | .bar0Hi => setCfg s { c with bar0 := barWrite bar0Size c.bar0 1 v }
  | .bar2 => setCfg s { c with bar2 := barWrite bar2Size c.bar2 0 v }
  | .bar2Hi => setCfg s { c with bar2 := barWrite bar2Size c.bar2 1 v }
  | .msixControl =>
    let s := setCfg s { c with msixOn := bit v 31, msixMask := bit v 30 }
    s.hif.msixPend.foldl releaseMsix s
  | .dvsecControl2 => if bit v 1 then { s with hif := { s.hif with dcoh := [] } } else s
  | .dvsec id w =>
    let m := Config.dvsecWritable id w % 2 ^ 32
    setCfg s { c with dvsec := Tab.insert c.dvsec (64 * id + w) ((dvsecAt s id w &&& (2 ^ 32 - 1 - m)) ||| (v &&& m)) }
  | .ideControl => setCfg s { c with ideMode := v % 4 }
  | .msixTable | .msixPba | .dvsecCap | .other => s

/-- CONFIGURATION_REQUEST (R342): retried until stage 6 has ended, then a read or a write. -/
def execConfigurationRequest (r : CfgReg) (w : Option (BitVec 32)) (s : State) : Res :=
  fromHost s (hostUp s) (
    if ¬ stageEnded s 6 then ok (emit s (.reply 4 1 []))
    else match w with
      | none => ok (emit s (.reply 4 0 [cfgRead s r]))
      | some v => ok (emit (cfgWrite s r v.toNat) (.reply 4 0 [])))

/-- The SEC carries out a mailbox command (R380). -/
def secBusy (s : State) : Bool := rdb s Fd.secMbStsBusy

/-- The present stacks, which the CDAT lists (R316, R317). -/
def cdatStacks (s : State) : List Nat := (List.range 16).filter (capStack s.variant)

/-- The CDAT (R316): for each present stack its DSMAS entry (handle, base, length) and the latencies and bandwidths of its DSLBIS entries. -/
def cdat (s : State) : List Nat :=
  (cdatStacks s).flatMap fun k => [k, k * 0xC00000000, 0xC00000000] ++ (List.range 4).map (Config.dslbis k)

/-- DOE_REQUEST (R316): the HIF serves discovery and CDAT; a message for the SEC goes to it, or waits while it is busy. -/
def execDoeRequest (p : DoeProto) (s : State) : Res :=
  fromHost s (hostUp s) (
    if ¬ stageEnded s 6 then ok (emit s (.reply 4 1 []))
    else match p with
      | .discovery => ok (emit s (.reply 3 0 [0, 1, 2, 3]))
      | .cdat => ok (emit s (.reply 3 3 (cdat s)))
      | .spdm | .secured =>
        if secBusy s then ok { s with hif := { s.hif with doe := s.hif.doe ++ [p] } }
        else ok (emit s (.reply 3 (if p = .spdm then 1 else 2) []))
      | .other => ok s)

/-- Requests that waited in the mailbox go to the SEC once it is free. -/
def serveDoe (s : State) : State :=
  let l := s.hif.doe
  l.foldl (fun s p => emit s (.reply 3 (if p = .spdm then 1 else 2) [])) { s with hif := { s.hif with doe := [] } }

/-! Queue windows (R315). -/

/-- The queue whose window a BAR2 offset lies in, and the offset within the window (R313). -/
def windowAt (addr : Nat) : Nat × Nat := (addr / 0x10000, addr % 0x10000)

/-- WINDOW_ENQUEUE (R315, R330): a write in BAR2. At window offset 0x0000 64 bytes are a cell and fewer are discarded; elsewhere nothing happens,
as to bytes behind the 64. -/
def execWindowEnqueue (addr : Nat) (bytes : List Byte) (s : State) : Res :=
  let w := windowAt addr
  if bar2Size ≤ addr then .fault .noSuchUnit
  else barAccess s (
    if 0x40 ≤ w.2 ∨ bytes.isEmpty then ok s
    else if bytes.length < 64 ∨ w.2 ≠ 0 then ok (bump (notice s Fd.nHifPartial) Fd.hifPartialCount 1)
    else ok (hostEnq s w.1 (bytes.take 64)))

/-- WINDOW_DEQUEUE (R315, R332): a read in BAR2. At window offset 0x1000 64 bytes take a cell; any other read, and what lies behind the 64 bytes,
returns 0. -/
def execWindowDequeue (addr len : Nat) (s : State) : Res :=
  let w := windowAt addr
  if bar2Size ≤ addr then .fault .noSuchUnit
  else barAccess s (
    if len < 64 ∨ w.2 ≠ 0x1000 then ok (emit s (.hostData (List.replicate len 0) false))
    else
      let r := deqCell s prodHif w.1
      ok (emit r.1 (.hostData (r.2.1.take 56 ++ leBytes 8 r.2.2 ++ List.replicate (len - 64) 0) false)))

/-- Some NOTICE bit that its NOTICE_EN enables is 1; the queue configuration pages have no header (R395). -/
def noticeEvent (s : State) : Bool :=
  s.regs.any fun r => r.1 / 128 % 4096 == 0x10 && !(decide (0x31000 ≤ r.1 / 128) && decide (r.1 / 128 < 0x41000)) && r.2 != 0 &&
    (rd s (Fd.noticeEnEn (r.1 / 128 - 0x10))).testBit (r.1 % 128)

/-- MSI_X_NOTICE_EVENT (R323): NVEC is sent when it is armed, and NARM clears. -/
def execMsixNoticeEvent (s : State) : Res :=
  if ¬ noticeEvent s then .fault .noOperation
  else if ¬ rdb s Fd.hifCtlNarm ∨ ¬ hostUp s ∨ ideStopped s then ok s
  else ok (sendMsix (wr s Fd.hifCtlNarm 0) (rd s Fd.hifCtlNvec))

/-! Host-managed device memory (R317 to R320). -/

/-- An access that falls in a hole. -/
def hdmBad (s : State) (a : Nat) : State :=
  pageErrInfo (bump (notice s Fd.nHifHdmBad) Fd.hifHdmBadCount 1) hifPage a

/-- An access meets memory that answers. -/
def hdmOk (s : State) (a : Nat) : Bool := availStack s (a / 0xC00000000) && !memoryHeld s

/-- A request for one line at its pseudo-channel (R155, R156, R318): its waits for a refresh slot to end and for the shares ahead of it are
counted. -/
def hdmShare (s : State) (a : Nat) : State :=
  let p := pcOf a
  let k := 32 * p.1 + p.2
  let s := if slotEnd s s.now ≠ s.now then bump s (Fd.memSlotReqCount p.1) 1 else s
  let s := requestPc s k ⟨s.now, 256, 0, s.now, 1⟩
  match ((served s k).filter fun v => v.req == ⟨s.now, 256, 0, s.now, 1⟩).getLast? with
  | none => s
  | some v =>
    bump (bump s (Fd.memSlotWaitCycles p.1) (slotLoss s (s.now + 2 ^ 40) 0 v)) (Fd.memPcWaitCycles p.1) v.moved

/-- The filter has room for another line. -/
def filterRoom (s : State) : Bool := decide (s.hif.lines.length < max 1 Config.snoopLines)

/-- The line that a full filter back-invalidates before it grants another (R320): the least recently granted one that no
snoop is out for; where every line is snooped already, the next answer makes the room. -/
def evictLine (s : State) : State :=
  let free := s.hif.lines.filter fun p => p.2.snoop.isNone
  match free.foldl (fun (m : Option (Nat × HLine)) p => match m with
      | none => some p
      | some q => if p.2.grant < q.2.grant then some p else some q) none with
    | none => s
    | some p =>
      emit { s with hif := { s.hif with lines := Tab.insert s.hif.lines p.1 { p.2 with snoop := some s.now } } } (.biSnoop p.1)

/-- The host holds a line from now on. -/
def grantLine (s : State) (line : Nat) : State :=
  let x : HLine := match Tab.find s.hif.lines line with
    | some h => { h with grant := s.hif.grants }
    | none => { grant := s.hif.grants, snoop := none, stale := false }
  { s with hif := { s.hif with lines := Tab.insert s.hif.lines line x, grants := s.hif.grants + 1 } }

/-- An access of 1 to 64 bytes inside one line of the HDM range. -/
def hdmAccess (s : State) (a n : Nat) : Bool := n ≠ 0 && a / 64 == (a + n - 1) / 64 && decide (a + n ≤ hdmSize s)

/-- A read served: a hole reads poison; else the host holds the line, whose data cross to the host interface (R40). -/
def hdmServe (s : State) (a n : Nat) : State :=
  if ¬ hdmOk s a then emit (hdmBad s a) (.hostData (List.replicate n 0) true)
  else emit (carry (grantLine (hdmShare s a) (a / 64)) (dieOf a) 4 hubHost n s.now).1 (.hostData (readBytes s a n) false)

/-- HDM_READ (R317, R319, R320): with the filter full the read waits for a line to be given up. The decoder claims no access outside its range, and
a request reaches no more than one line. -/
def execHdmRead (a n : Nat) (s : State) : Res :=
  if ¬ hdmAccess s a n then ok s
  else fromHost s (cxlUp s) (
    if ¬ hdmOk s a ∨ (Tab.find s.hif.lines (a / 64)).isSome ∨ filterRoom s then ok (hdmServe s a n)
    else
      let s := evictLine s
      ok { s with hif := { s.hif with held := s.hif.held ++ [(a, n)] } })

/-- HDM_WRITE (R317, R319, R320): a write of a line over which an engine has committed since it was granted is a late
write-back and is discarded. -/
def execHdmWrite (a : Nat) (bytes : List Byte) (s : State) : Res :=
  if ¬ hdmAccess s a bytes.length then ok s
  else fromHost s (cxlUp s) (
    if ¬ hdmOk s a then ok (hdmBad s a)
    else if ((Tab.find s.hif.lines (a / 64)).map HLine.stale).getD false then ok (bump s Fd.hifWbDiscardCount 1)
    else
      let s := (carry (hdmShare s a) 4 (dieOf a) 0 bytes.length s.now).1
      ok { s with mem := memWrite s.mem a bytes })

/-- Reads that waited for room in the filter are served while there is some; none in the insecure state. -/
def serveHeld : List (Nat × Nat) → State → State
  | [], s => { s with hif := { s.hif with held := [] } }
  | p :: l, s =>
    if ideStopped s then { s with hif := { s.hif with held := p :: l } }
    else if (Tab.find s.hif.lines (p.1 / 64)).isSome ∨ filterRoom s then serveHeld l (hdmServe s p.1 p.2)
    else { s with hif := { s.hif with held := p :: l } }

/-- A line is no longer tracked, and a read that waited for its room is served. -/
def untrack (s : State) (line : Nat) : State :=
  serveHeld s.hif.held { s with hif := { s.hif with lines := Tab.erase s.hif.lines line } }

/-- With new keys the snoops that commits in the insecure state owe are sent, and reads that waited are served (R320, R324). -/
def sendOwedSnoops (s : State) : State :=
  let owed (p : Nat × HLine) : Bool := p.2.stale && p.2.snoop.isNone
  let s := (s.hif.lines.filter owed).foldl (fun s p => emit s (.biSnoop p.1)) s
  serveHeld s.hif.held { s with hif := { s.hif with
    lines := s.hif.lines.map fun p => if owed p then (p.1, { p.2 with snoop := some s.now }) else p } }

/-- BIRSP (R320): the host answers a back-invalidate; a line returned modified after an engine's commit is discarded. -/
def execBirsp (line : Nat) (modified : Bool) (s : State) : Res :=
  if ideStopped s then ok s
  else match Tab.find s.hif.lines line with
  | none => .fault .noOperation
  | some h =>
    if h.snoop.isNone then .fault .noOperation
    else
      let s := if modified ∧ h.stale then bump s Fd.hifWbDiscardCount 1 else s
      ok (untrack s line)

/-- BI_TIMEOUT (R320). -/
def execBiTimeout (line : Nat) (s : State) : Res :=
  match (Tab.find s.hif.lines line).bind HLine.snoop with
  | none => .fault .noOperation
  | some t =>
    let s := settleTo s (t + rd s Fd.hifBiToCycles)
    ok (untrack (pageErrInfo (bump (notice s Fd.nHifBiTimeout) Fd.hifBiTimeoutsCount 1) hifPage 0) line)

/-! Rings and the device coherency cache (R321, R322). -/

def ringMod : Nat := 2 ^ 31
def ringUsed (s : State) (n : Nat) : Nat := (rd s (Fd.hifRingTailIndex n) + ringMod - rd s (Fd.hifRingHeadIndex n)) % ringMod
def ringSize (s : State) (n : Nat) : Nat := 2 ^ rd s (Fd.hifRingCtlLog2 n)
/-- Host address of ring entry i. -/
def ringEntry (s : State) (n i : Nat) : Nat := rd s (Fd.hifRingBaseAddr n) * 64 + 64 * (i % ringSize s n)

/-- Lines of the 4 MiB cache. -/
def dcohLines : Nat := 65536

/-- A line of host memory used: the most recent one; the least recent one leaves a full cache. -/
def touchLine (s : State) (line : Nat) (own : Bool) : State :=
  let l := (s.hif.dcoh.filter fun p => p.1 != line) ++ [(line, own)]
  { s with hif := { s.hif with dcoh := l.drop (l.length - dcohLines) } }

/-- HOST_SNOOP (R322): a line leaves the cache; one that is not there is answered with no effect. -/
def execHostSnoop (line : Nat) (s : State) : Res :=
  fromHost s (cxlUp s) (ok { s with hif := { s.hif with dcoh := s.hif.dcoh.filter fun p => p.1 != line } })

/-- The ring's message, when it is armed (R323). -/
def ringMessage (s : State) (n : Nat) : State :=
  if rdb s (Fd.hifRingCtlArm n) then sendMsix (wr s (Fd.hifRingCtlArm n) 0) (rd s (Fd.hifRingCtlVec n)) else s

/-- RING_DRAIN (R321 to R323): a cell of a to-host ring's queue goes to host memory; a full ring stalls. Entries wait in their queues while there is
no CXL link (R312), or no protected traffic. -/
def execRingDrain (n : Nat) (s : State) : Res :=
  if 64 ≤ n then .fault .noSuchUnit
  else if ¬ rdb s (Fd.hifRingCtlEn n) ∨ rdb s (Fd.hifRingCtlDir n) then .fault .noOperation
  else if ¬ cxlUp s ∨ ideStopped s then ok s
  else
    let q := rd s (Fd.hifRingCtlQueue n)
    let r := deqCell s prodHif q
    if ¬ bit r.2.2 63 then emptyRead s r.1 q
    else if ringUsed s n = ringSize s n then ok (bump s Fd.hifRingFullCount 1)
    else
      let s := r.1
      let t := rd s (Fd.hifRingTailIndex n)
      let a := ringEntry s n t
      let s := emit (touchLine s (a / 64) true) (.hostWrite a (r.2.1.take 56 ++ leBytes 8 r.2.2))
      ok (ringMessage (wr s (Fd.hifRingTailIndex n) ((t + 1) % ringMod)) n)

/-- RING_FILL (R321, R322, R331): the entry at HEAD of a from-host ring, as host memory holds it, goes to the queue; a refused one stays
in the ring. -/
def execRingFill (n : Nat) (bytes : List Byte) (s : State) : Res :=
  if 64 ≤ n then .fault .noSuchUnit
  else if ¬ rdb s (Fd.hifRingCtlEn n) ∨ ¬ rdb s (Fd.hifRingCtlDir n) ∨ ringUsed s n = 0 then .fault .noOperation
  else if ¬ cxlUp s ∨ ideStopped s then ok s
  else
    let h := rd s (Fd.hifRingHeadIndex n)
    let q := rd s (Fd.hifRingCtlQueue n)
    let s := settle (touchLine s (ringEntry s n h / 64) false)
    if accepts s q ∧ ¬ roomIn s q ∧ (queue s q).hostDrop = 0 then ok s
    else ok (wr (hostEnq s q bytes) (Fd.hifRingHeadIndex n) ((h + 1) % ringMod))

/-- HEAD n written: the count of a to-host ring, with ARM in bit 31 (R321, R323). -/
def writeHead (s : State) (n v : Nat) : State :=
  if ¬ stageEnded s 4 ∨ rdb s (Fd.hifRingCtlDir n) then s
  else
    let new := v % ringMod
    if ringUsed s n < (new + ringMod - rd s (Fd.hifRingHeadIndex n)) % ringMod then notice s Fd.nHifReject
    else
      let s := wr s (Fd.hifRingHeadIndex n) new
      if ¬ bit v 31 then s
      else
        let s := wr s (Fd.hifRingCtlArm n) 1
        if ringUsed s n ≠ 0 ∧ rdb s (Fd.hifRingCtlEn n) then ringMessage s n else s

/-- TAIL n written: the count of a from-host ring (R321). -/
def writeTail (s : State) (n v : Nat) : State :=
  if ¬ stageEnded s 4 ∨ ¬ rdb s (Fd.hifRingCtlDir n) then s
  else
    let new := v % ringMod
    if ringSize s n < (new + ringMod - rd s (Fd.hifRingHeadIndex n)) % ringMod then notice s Fd.nHifReject
    else wr s (Fd.hifRingTailIndex n) new

/-- HIF_RING_HEAD_WRITE (R321, R323): the host's count of a to-host ring. -/
def execHifRingHeadWrite (n : Nat) (v : BitVec 32) (s : State) : Res :=
  if 64 ≤ n then .fault .noSuchUnit else ok (if ideStopped s then s else writeHead s n v.toNat)

/-- HIF_RING_TAIL_WRITE (R321): the host's count of a from-host ring. -/
def execHifRingTailWrite (n : Nat) (v : BitVec 32) (s : State) : Res :=
  if 64 ≤ n then .fault .noSuchUnit else ok (if ideStopped s then s else writeTail s n v.toNat)

/-! IDE (R324) and function-level reset (R325). -/

/-- IDE_INTEGRITY_FAILURE (R324): the insecure state, a notice and a sideband event, in skid and in containment mode alike; only a link that
runs under keys is checked. -/
def execIdeIntegrityFailure (s : State) : Res :=
  if ¬ hostUp s ∨ rd s Fd.hifLinkIde ≠ 2 then .fault .noOperation
  else
    let s := pageErrInfo (notice (wr s Fd.hifLinkIde 3) Fd.nHifIdeFail) hifPage 0
    ok (emit s (.reply 5 0 []))

/-- Registers of reset class F: the common header of the HIF page, HIF_CTL and the rings. -/
def classF (a : Nat) : Bool := hifPage ≤ a && (a < hifPage + 0x40 || a == hifPage + 0x50 || hifPage + 0x100 ≤ a) && a < hifPage + 0x1000

/-- A queue belongs to the host: by its configuration, or bound to an enabled ring (R321). -/
def hostOwned (s : State) (q : Nat) : Bool :=
  rdb s (Fd.qmuQcfgHost q) || (List.range 64).any fun n => rdb s (Fd.hifRingCtlEn n) && rd s (Fd.hifRingCtlQueue n) == q

/-- FLR (R325, R363): ignored while a class C or M reset brings the module up. -/
def execFlr (s : State) : Res :=
  if ¬ hostUp s ∨ bringUp s then ok s
  else
    let s := settle s
    let qs := (s.qmu.queues.map Prod.fst).filter (hostOwned s)
    let s := qs.foldl flushQueue s
    let s := wr (resetRegs s classF) Fd.moduleResetsF 1
    -- BAR decoding, MSI-X and the mailbox's waiting requests are CXL.io state; host cells on their way to a queue are discarded
    ok { s with hif := { s.hif with cfg := cfgInit, msix := [], msixPend := [], doe := [] }
                qmu := { s.qmu with waiting := s.qmu.waiting.filter fun w => w.producer != prodHif } }

end Sys2Proof.Machine
end

