-- ==== Sys2Proof/Machine/Sec.lean ====
section
/-! DEFINITION. The security controller's commands (19_security_update.md): updates over the mailbox and over PLDM, SPDM, IDE key
management and MCTP discovery. -/

namespace Sys2Proof.Machine

/-- The SEC runs: stage 2 has ended without a failure, or the module has left service with the SEC powered (R346). -/
def secUp (s : State) : Bool := s.boot.powered && stageEnded s 2

/-! The phases of an update (R374, R375). path: 1 mailbox, 2 PLDM. -/

/-- What a manifest ends BEGIN with (R371, R372), or none. -/
def manifestFault (s : State) (m : List Byte) : Option Nat :=
  let run := runningManifest s
  let entryOk (c : Nat) : Bool :=
    entryField m c 0 1 == c && entryField m c 1 1 ≤ 1 && entrySize m c != 0 && entrySize m c ≤ bankBytes c &&
      (!entrySame m c || (entrySrec m c == entrySrec run c && entrySvn m c == entrySvn run c && entrySize m c == entrySize run c &&
        entryDigest m c == entryDigest run c))
  let headOk : Bool := m.length == 640 && fieldLE m 0 4 == 0x4D465950 && fieldLE m 4 2 == 1 && fieldLE m 6 1 == 6 &&
    fieldLE m 16 4 == 640 && bits (fieldLE m 12 2) 15 3 == 0 && fieldLE m 14 2 == 0 && fieldLE m 20 44 == 0
  let key := fieldLE m 7 1
  let pub := (m.drop 448).take 96
  let variant := match s.variant with | .f => 0 | .l => 1 | .s => 2
  if ¬ headOk ∨ ¬ components.all entryOk then some 0x11
  else if 1 < key ∨ Config.sha384 pub ≠ Config.romKey key ∨ ¬ Config.ecdsaVerify pub (Config.sha384 (m.take 544)) ((m.drop 544).take 96) ∨
      (key = 0 ∧ s.sec.revoked) then some 0x10
  else if ¬ bit (fieldLE m 12 2) variant then some 0x12
  else none

def owner (s : State) : Nat := if s.sec.phase = 0 then 0 else rd s Fd.secMbStsOwner

/-- The command cannot run on this path now: 0x16 where the other path owns the update. -/
def pathFault (s : State) (path : Nat) : Option Nat := if owner s ≠ 0 ∧ owner s ≠ path then some 0x16 else none

/-- BEGIN with a manifest (R374). -/
def beginUpdate (s : State) (path : Nat) (m : List Byte) : State :=
  match pathFault s path with
  | some st => secError s st
  | none =>
    if 3 ≤ s.sec.phase then secError s 0x13
    else match manifestFault s m with
      | some st =>
        let s := setSec s { s.sec with phase := 0, slotB := [] }
        secError (showState s st 0) st
      | none => showState (setSec s { s.sec with phase := 1, manifest := m, slotB := [], cmd := none, ready := [] }) 1 path

/-- A DATA chunk accepted or refused with BAD_SEQ (R374, R380); a chunk accepted is in the bank when the command completes. -/
def dataChunk (s : State) (path comp off : Nat) (data : List Byte) : State :=
  let m := s.sec.manifest
  match pathFault s path with
  | some st => secError s st
  | none =>
    if s.sec.phase ≠ 1 ∨ comp = 0 ∨ 6 < comp ∨ data.isEmpty ∨ 4096 < data.length ∨ entrySame m comp ∨
        off ≠ (bankB s comp).written ∨ entrySize m comp < off + data.length then secError s 0x13
    else
      let s := wr s Fd.secMbStsBusy 1
      setSec s { s.sec with cmd := some { cmd := 2, comp := comp, data := data, path := path, since := s.now } }

/-- VERIFY (R374). -/
def verifyUpdate (s : State) (path : Nat) : State :=
  match pathFault s path with
  | some st => secError s st
  | none =>
    if s.sec.phase ≠ 1 then secError s 0x13
    else
      let s := wr s Fd.secMbStsBusy 1
      setSec s { s.sec with cmd := some { cmd := 3, comp := 0, data := [], path := path, since := s.now } }

/-- Cycles of a flash write of n bytes, and of hashing n bytes (R374), at 1.75 cycles for each ns. -/
def flashCycles (comp n : Nat) : Nat := if comp = 1 then n * 875 else n * 875 / 4
def hashCycles (n : Nat) : Nat := n * 35 / 4

/-- The outcome of VERIFY: SAME images are copied, images hashed, floors checked. -/
def verifyResult (s : State) : State :=
  let m := s.sec.manifest
  let banks := components.map fun c =>
    (c, if entrySame m c then { bytes := imageA s c, written := entrySize m c, valid := false } else bankB s c)
  let s := setSec s { s.sec with slotB := banks }
  let hashOk (p : Nat × Bank) : Bool := p.2.written == entrySize m p.1 && Config.sha384 (p.2.bytes.take (entrySize m p.1)) == entryDigest m p.1
  if ¬ banks.all hashOk then secError s 0x14
  else if components.any fun c => decide (entrySvn m c < floorOf s c) then secError s 0x15
  else wr (setSec s { s.sec with phase := 2 }) Fd.secMbStsState 2

/-- The SEC command in progress ends: the flash write of DATA, or VERIFY; waiting DOE requests are served. -/
def endCommand (s : State) : State :=
  match s.sec.cmd with
  | none => s
  | some c =>
    let n := if c.cmd = 2 then flashCycles c.comp c.data.length
      else hashCycles (components.map (entrySize s.sec.manifest)).sum
    let s := wr (settleTo s (c.since + n)) Fd.secMbStsBusy 0
    let s := setSec s { s.sec with cmd := none }
    let s := if c.cmd = 2 then
        let b := bankB s c.comp
        let b : Bank := { bytes := b.bytes.take b.written ++ c.data, written := b.written + c.data.length, valid := false }
        wr (setSec s { s.sec with slotB := Tab.put bankInit s.sec.slotB c.comp b }) Fd.secMbStsState 1
      else verifyResult s
    serveDoe s

/-- MB_COMMAND_COMPLETE (R374). -/
def execMbCommandComplete (s : State) : Res := if s.sec.cmd.isNone then .fault .noOperation else ok (endCommand s)

/-- ACTIVATE for a turn with a TAG (R375): PREPARE goes to every component. -/
def activateUpdate (s : State) (path turn tag : Nat) : State :=
  match pathFault s path with
  | some st => secError s st
  | none =>
    if s.sec.phase ≠ 2 ∨ turn < turnNo s + 2 then secError s 0x13
    else wr (setSec s { s.sec with phase := 3, turn := turn, tag := tag, ready := [] }) Fd.secMbStsState 3

/-- CANCEL in any phase before the switch (R374); with no update open there is nothing to end. -/
def cancelUpdate (s : State) (path : Nat) : State :=
  match pathFault s path with
  | some st => secError s st
  | none =>
    if s.sec.phase = 0 then showState (if path = 2 then setSec s { s.sec with pldmOpen := false, pldmComp := 0 } else s) 0 0
    else if s.sec.switched then secError s 0x13
    else closeUpdate (setSec (wr s Fd.secMbStsBusy 0) { s.sec with slotB := if s.sec.phase = 4 then s.sec.slotB else [] })

/-- The bank record is written: floors rise, the banks change names, and the set waits for its switch (R370, R373, R375). -/
def commitUpdate (s : State) : State :=
  let m := s.sec.manifest
  let newA := components.map fun c => (c, (bankB s c).bytes)
  let newB := components.map fun c => (c, ({ bytes := imageA s c, written := (imageA s c).length, valid := true } : Bank))
  let floors := components.foldl (fun f c => Tab.put 0 f c (max (floorOf s c) (entrySvn m c))) s.sec.floors
  let s := writeRecord s { s.sec with phase := 4, slotA := newA, slotB := newB, stored := some m, prior := some (storedManifest s), floors := floors,
                                      revoked := s.sec.revoked || fieldLE m 7 1 == 1, bankA := swapBanks s.sec.bankA }
  wr s Fd.secMbStsState 4

/-- A class K reset, P2 or a power transition is under way (R378). -/
def heldUp (s : State) : Bool := memoryHeld s || rdb s Fd.modulePwrBusy

/-- The clock cycle in which turn n will start, at the present turn length. -/
def turnStart (s : State) (n : Nat) : Nat := s.turn.stop + (n - turnNo s - 1) * 1024 * rd s Fd.trnCurUnits

/-- Clock cycles of a power transition (R360): into P2, out of it, into P3. -/
def transitionCc (dest st : Nat) : Nat := if dest = 3 then 87500000 else if dest = 2 then 3500000 else if st = 2 then 542500000 else 0

/-- The reset or transition under way will not be over when turn n starts (R378). P2 lasts, but for an armed transition out of it that ends by
then. -/
def spansTurn (s : State) (n : Nat) : Bool :=
  let c := turnStart s n
  let leaves : Bool := rdb s Fd.modulePwrArmed && decide (rd s Fd.modulePwrTarget ≠ 2) &&
    decide (turnStart s (rd s Fd.modulePwrTurn) + transitionCc (rd s Fd.modulePwrTarget) 2 ≤ c)
  (match s.boot.kRun with | some k => decide (c < k) | none => false) ||
    (match s.boot.moving with
      | some d => decide (c < s.boot.movedAt + transitionCc d (rd s Fd.modulePwrState)) || d == 2 && !leaves
      | none => rd s Fd.modulePwrState == 2 && !leaves)

/-- PREPARE_ANSWER (R375, R378): a component whose new image does not take its running state record answers FAIL, whatever the operand says; with
the last READY the SEC commits, unless a reset or power transition that spans the turn is in the way. -/
def execPrepareAnswer (comp : Nat) (ready : Bool) (s : State) : Res :=
  let m := s.sec.manifest
  let run := entrySrec (runningManifest s) comp
  if s.sec.phase ≠ 3 ∨ comp = 0 ∨ 6 < comp ∨ s.sec.ready.contains comp then .fault .noOperation
  -- answers from the guard band of turn TURN - 1 on come too late: the time-out ends the update
  else if s.sec.turn ≤ turnNo s ∨ (turnNo s + 1 = s.sec.turn ∧ s.turn.guardAt ≤ s.now) then ok (abandonUpdate s 2 comp)
  else if ¬ ready ∨ ¬ (entrySrecMin m comp ≤ run ∧ run ≤ entrySrec m comp) then ok (abandonUpdate s 1 comp)
  else
    let s := setSec s { s.sec with ready := insertNat s.sec.ready comp }
    ok (if s.sec.ready.length < 6 then s else if heldUp s && spansTurn s s.sec.turn then abandonUpdate s 3 0 else commitUpdate s)

/-- ACTIVATION_TIMEOUT (R375): not every component is READY at the guard band of turn TURN - 1. -/
def execActivationTimeout (s : State) : Res :=
  if s.sec.phase ≠ 3 ∨ turnNo s + 1 < s.sec.turn then .fault .noOperation
  else
    let s := if turnNo s + 1 = s.sec.turn then settleTo s s.turn.guardAt else s
    ok (abandonUpdate s 2 ((components.find? fun c => !s.sec.ready.contains c).getD 0))

/-! The mailbox (R374, R380). -/

/-- Bytes of the data window. -/
def windowBytes (s : State) (n : Nat) : List Byte := (List.range n).map fun i => Tab.get 0 s.sec.window i

/-- A mailbox command: ignored while another is in progress, and while the page does not answer (R341). -/
def mailbox (s : State) (f : State → State) : Res :=
  ok (if ¬ secUp s then s else if secBusy s then notice s Fd.nSecReject else f s)

def mailboxData (s : State) : State :=
  dataChunk s 1 (rd s Fd.secMbCmdComp) (16 * rd s Fd.secMbCmdOff) (windowBytes s (rd s Fd.secMbCmdLen))

/-- BEGIN with the manifest in the data window. -/
def execSecBegin (s : State) : Res := mailbox s fun s => beginUpdate s 1 (windowBytes s 640)
/-- DATA with COMP, OFF and LEN of SEC_MB_CMD; LEN above 4,096 or 0 gives BAD_SEQ. -/
def execSecData (s : State) : Res := mailbox s mailboxData
/-- VERIFY. -/
def execSecVerify (s : State) : Res := mailbox s fun s => verifyUpdate s 1
/-- ACTIVATE with SEC_ACT. -/
def execSecActivate (s : State) : Res := mailbox s fun s => activateUpdate s 1 (rd s Fd.secActTurn) (rd s Fd.secActTag)
/-- CANCEL. -/
def execSecCancel (s : State) : Res := mailbox s fun s => cancelUpdate s 1

/-- A write of SEC_MB_CMD: its fields are kept, and CMD says which command runs. -/
def mbCmdWrite (s : State) (v : Nat) : State :=
  let s := wrs s [(Fd.secMbCmdComp, bits v 40 37), (Fd.secMbCmdLen, bits v 36 24), (Fd.secMbCmdOff, bits v 23 4)]
  if secBusy s then notice s Fd.nSecReject
  else match bits v 3 0 with
    | 1 => beginUpdate s 1 (windowBytes s 640)
    | 2 => mailboxData s
    | 3 => verifyUpdate s 1
    | 4 => activateUpdate s 1 (rd s Fd.secActTurn) (rd s Fd.secActTag)
    | 5 => cancelUpdate s 1
    | _ => notice s Fd.nSecReject

/-! SPDM (R367 to R369). Answers are reply 0 with the request's number, or 0x7F with an error: 1 InvalidRequest, 3 Busy,
4 UnexpectedRequest, 7 UnsupportedRequest. -/

def negoOf (s : State) (t : Transport) : Nat := match t with | .doe => s.sec.nego.doe | .mctp => s.sec.nego.mctp
def setNego (s : State) (t : Transport) (n : Nat) : State :=
  setSec s { s.sec with nego := match t with | .doe => { s.sec.nego with doe := n } | .mctp => { s.sec.nego with mctp := n } }
def sessionOf (s : State) (t : Transport) : Option Session := s.sec.sessions.find? fun x => x.tr == t
def setSession (s : State) (x : Session) : State :=
  setSec s { s.sec with sessions := s.sec.sessions.map fun y => if y.tr = x.tr then x else y }

/-- The transport carries messages to the SEC. -/
def trUp (s : State) (t : Transport) : Bool := secUp s && (match t with | .doe => hostUp s && !ideStopped s && stageEnded s 6 | .mctp => s.mmc.rom.isNone)

/-- A request on a transport; over DOE it waits in the mailbox while the SEC carries out a command (R316). Without a way to the SEC none
arrives. -/
def spdm (s : State) (t : Transport) (f : State → State) : Res :=
  ok (if ¬ trUp s t then s else f (if t = .doe ∧ secBusy s then endCommand s else s))
def spdmOk (s : State) (code : Nat) (l : List Nat) : State := emit s (.reply 0 code l)
def spdmErr (s : State) (e : Nat) : State := emit s (.reply 0 0x7F [e])

/-- A request that comes after the negotiation of algorithms. -/
def afterNego (s : State) (t : Transport) (f : State → State) : State := if negoOf s t < 3 then spdmErr s 4 else f s

/-! Identity (R366, R367). -/

/-- The DeviceID key pair: it follows the seed alone. -/
def deviceKey : Nat := Config.deviceIdKey Config.pufSeed
def devicePublic : List Byte := Config.publicKey deviceKey
/-- Serial number of the DeviceID certificate: the first 20 bytes of the SHA-384 of its public key. -/
def deviceSerial : List Byte := leBytes 20 (Config.sha384 devicePublic)

/-- The Alias key pair: it follows the measurement of the running SEC image too. -/
def aliasPrivate (s : State) : Nat := Config.aliasKey Config.pufSeed (entryDigest (runningManifest s) 2)

/-- The chain in slot 0: root CA, device CA, DeviceID and Alias certificates. -/
def certChain (s : State) : List Byte :=
  Config.rootCert ++ Config.deviceCaCert ++ Config.deviceIdCert deviceSerial devicePublic ++
    Config.aliasCert deviceKey (Config.publicKey (aliasPrivate s))

/-- Its digest. -/
def chainDigest (s : State) : Nat := Config.sha384 (certChain s)

/-- A signature of the module over a list of numbers of up to 384 bits. -/
def signed (s : State) (l : List Nat) : Nat := Config.ecdsaSign (aliasPrivate s) (Config.sha384 (l.flatMap (leBytes 48)))

/-- Bytes of the largest message (R369). -/
def spdmMax : Nat := 4096

/-- GET_VERSION: SPDM 1.3; the negotiation starts again. -/
def execSpdmGetVersion (t : Transport) (s : State) : Res := spdm s t fun s => spdmOk (setNego s t 1) 0x04 [0x13]

/-- The capability flags of SPDM 1.3 for what R369 supports (bits as in the standard, PRESUMED, log entry 7): CERT, CHAL, MEAS with signature,
ENCRYPT, MAC, KEY_EX, HBEAT, KEY_UPD. -/
def spdmCaps : Nat := 2 ^ 1 + 2 ^ 2 + 2 * 2 ^ 3 + 2 ^ 6 + 2 ^ 7 + 2 ^ 9 + 2 ^ 13 + 2 ^ 14

/-- GET_CAPABILITIES: the flags, and the largest message. -/
def execSpdmGetCapabilities (t : Transport) (s : State) : Res :=
  spdm s t fun s => if negoOf s t < 1 then spdmErr s 4 else spdmOk (setNego s t 2) 0x61 [spdmCaps, spdmMax]

/-- NEGOTIATE_ALGORITHMS: of the algorithms offered (0 ECDSA P-384, 1 SHA-384, 2 DHE secp384r1, 3 AES-256-GCM, 4 SPDM key schedule) those
supported are chosen; none is UnsupportedRequest. -/
def execSpdmNegotiateAlgorithms (t : Transport) (offered : List Nat) (s : State) : Res :=
  spdm s t fun s =>
    let l := (List.range 5).filter offered.contains
    if negoOf s t < 2 then spdmErr s 4 else if l.isEmpty then spdmErr s 7 else spdmOk (setNego s t 3) 0x63 l

/-- GET_DIGESTS. -/
def execSpdmGetDigests (t : Transport) (s : State) : Res :=
  spdm s t fun s => afterNego s t fun s => spdmOk s 0x01 [chainDigest s]

/-- GET_CERTIFICATE: only slot 0 holds a chain (R367); len of its bytes from off on, as far as they go and a message takes them. -/
def execSpdmGetCertificate (t : Transport) (slot off len : Nat) (s : State) : Res :=
  spdm s t fun s => afterNego s t fun s =>
    if slot ≠ 0 then spdmErr s 1
    else
      let l := ((certChain s).drop off).take (min len spdmMax)
      spdmOk s 0x02 (((certChain s).length - off - l.length) :: l.map BitVec.toNat)

/-- The responder's nonce, a free value. -/
def nonceOf (s : State) : Nat := Config.freeNat s.fresh 3

/-- CHALLENGE: the chain digest, a nonce, and a signature over both nonces and the digest. -/
def execSpdmChallenge (t : Transport) (slot nonce : Nat) (s : State) : Res :=
  spdm s t fun s => afterNego s t fun s =>
    if slot ≠ 0 then spdmErr s 1
    else spdmOk s 0x03 [chainDigest s, nonceOf s, signed s [0x83, slot, nonce, chainDigest s, nonceOf s]]

/-- GET_MEASUREMENTS (R368): index 0 asks for their number, 0xFF for all nine; a signed answer ends with a nonce and a signature over the
request and the answer. -/
def execSpdmGetMeasurements (t : Transport) (index : Nat) (sign : Bool) (nonce : Nat) (s : State) : Res :=
  spdm s t fun s => afterNego s t fun s =>
    let l := if index = 0 then [9] else if index = 0xFF then (List.range 9).map fun i => measurement s (i + 1) else [measurement s index]
    let sig := if sign then [nonceOf s, signed s ([0xE0, index, nonce] ++ l ++ [nonceOf s])] else []
    if index ≤ 9 ∨ index = 0xFF then spdmOk s 0x60 (l ++ sig) else spdmErr s 1

/-- KEY_EXCHANGE: at most two sessions, one for each transport; the answer holds the responder's share and a signature over both sides'. -/
def execSpdmKeyExchange (t : Transport) (nonce : Nat) (s : State) : Res :=
  spdm s t fun s => afterNego s t fun s =>
    let share := Config.freeNat s.fresh 4
    if 2 ≤ s.sec.sessions.length ∨ (sessionOf s t).isSome then spdmErr s 3
    else spdmOk (setSec s { s.sec with sessions := s.sec.sessions ++ [{ tr := t, stage := 1, updates := 0 }] }) 0x64
      [share, signed s [0xE4, nonce, share]]

/-- FINISH: where the requester's proof does not verify the handshake ends with DecryptError (PRESUMED from SPDM 1.3, log entry 7). -/
def execSpdmFinish (t : Transport) (proof : Bool) (s : State) : Res :=
  spdm s t fun s => match sessionOf s t with
    | some x =>
      if x.stage ≠ 1 then spdmErr s 4
      else if ¬ proof then spdmErr (setSec s { s.sec with sessions := s.sec.sessions.filter fun y => y.tr != t }) 6
      else spdmOk (setSession s { x with stage := 2 }) 0x65 []
    | none => spdmErr s 4

/-- A request inside a secured session. -/
def inSession (s : State) (t : Transport) (f : State → Session → State) : State :=
  match sessionOf s t with
  | some x => if x.stage = 2 then f s x else spdmErr s 4
  | none => spdmErr s 4

/-- HEARTBEAT. -/
def execSpdmHeartbeat (t : Transport) (s : State) : Res := spdm s t fun s => inSession s t fun s _ => spdmOk s 0x68 []
/-- KEY_UPDATE. -/
def execSpdmKeyUpdate (t : Transport) (s : State) : Res :=
  spdm s t fun s => inSession s t fun s x => spdmOk (setSession s { x with updates := x.updates + 1 }) 0x69 []
/-- END_SESSION. -/
def execSpdmEndSession (t : Transport) (s : State) : Res :=
  spdm s t fun s => inSession s t fun s _ =>
    spdmOk (setSec s { s.sec with sessions := s.sec.sessions.filter fun x => x.tr != t }) 0x6C []

/-- IDE_KM (R324, R369): inside a secured session on the DOE transport only. Keys are set, the next message starts their use,
and later ones refresh them. With new keys the snoops that waited in the insecure state are sent. -/
def execIdeKm (t : Transport) (s : State) : Res :=
  spdm s t fun s =>
    if t ≠ .doe then spdmErr s 7
    else inSession s t fun s _ =>
      let n := match rd s Fd.hifLinkIde with | 1 => 2 | 2 => 2 | _ => 1
      sendOwedSnoops (emit (wr s Fd.hifLinkIde n) (.reply 5 n []))

/-! PLDM for firmware update (R379). Answers are reply 1 with the command's number and a completion code. -/

def pldmOk (s : State) (cmd : Nat) (l : List Nat) : State := emit s (.reply 1 cmd (0 :: l))
def pldmErr (s : State) (cmd code : Nat) : State := emit s (.reply 1 cmd [code])

/-- What the MMC's boot ROM does with a command of an update once both banks have failed, l having come of the image: a complete image goes to the
bank that failed first, which is slot A, and the MMC reboots, in stage 1 (R346, R379). -/
def romStep (s : State) (cmd : Nat) (arg l : List Byte) : State :=
  let img (x : Option (List Byte)) : State := { s with mmc := { s.mmc with rom := x } }
  match cmd with
  | 0x10 | 0x1C | 0x1D => pldmOk (img (some [])) cmd []
  | 0x15 =>
    if 1024 < arg.length ∨ bankBytes 1 < l.length + arg.length then pldmErr s cmd 0x80 else pldmOk (img (some (l ++ arg))) cmd []
  | 0x16 =>
    if l.isEmpty then pldmErr s cmd 0x80
    else
      let s := pldmOk (img none) cmd []
      setSec s { s.sec with slotA := Tab.insert s.sec.slotA 1 l }
  | _ => pldmOk s cmd []

/-- A PLDM command on the sideband: the MMC serves it once it runs, or its boot ROM does; before that nothing answers. -/
def sideband (s : State) (cmd : Nat) (arg : List Byte) (f : State → State) : Res :=
  ok (match s.mmc.rom with
    | some l => romStep s cmd arg l
    | none => if s.boot.powered ∧ stageEnded s 1 then f s else s)

/-- A command of an update that PLDM runs: its answer carries the STATE that it ends in. -/
def pldmStep (s : State) (cmd : Nat) (arg : List Byte) (f : State → State) : Res :=
  sideband s cmd arg fun s =>
    if ¬ secUp s ∨ ¬ s.sec.pldmOpen then pldmErr s cmd 0x80
    else if secBusy s then pldmErr s cmd 0x16
    else
      let s := f s
      pldmOk s cmd [rd s Fd.secMbStsState]

/-- QueryDeviceIdentifiers: MODULE_VARIANT. -/
def execPldmQueryDeviceIdentifiers (s : State) : Res :=
  sideband s 0x01 [] fun s => pldmOk s 0x01 [match s.variant with | .f => 0 | .l => 1 | .s => 2, Config.recordVersion]
/-- GetFirmwareParameters: for each component the running BUILD and SVN and whether slot B holds a valid image. -/
def execPldmGetFirmwareParameters (s : State) : Res :=
  sideband s 0x02 [] fun s => pldmOk s 0x02
    (components.flatMap fun c => [entryBuild (runningManifest s) c, entrySvn (runningManifest s) c, b2n (bankB s c).valid])
/-- RequestUpdate: refused while the mailbox owns an update. -/
def execPldmRequestUpdate (s : State) : Res :=
  sideband s 0x10 [] fun s =>
    if ¬ secUp s then pldmErr s 0x10 0x80
    else if owner s = 1 then pldmErr s 0x10 0x16
    else pldmOk (setSec s { s.sec with pldmOpen := true, pldmComp := 0 }) 0x10 []
/-- PassComponentTable: the manifest, as component 0x0000, is passed first; it opens the update. -/
def execPldmPassComponentTable (m : List Byte) (s : State) : Res :=
  pldmStep s 0x13 m fun s =>
    let s' := beginUpdate s 2 m
    setSec s' { s'.sec with pldmOpen := true }
/-- UpdateComponent. -/
def execPldmUpdateComponent (comp : Nat) (s : State) : Res :=
  pldmStep s 0x14 [] fun s => if comp = 0 ∨ 6 < comp ∨ s.sec.phase ≠ 1 then secError s 0x13 else setSec s { s.sec with pldmComp := comp }
/-- RequestFirmwareData: a block of at most 1,024 bytes arrives and is written behind what the bank holds. -/
def execPldmRequestFirmwareData (bytes : List Byte) (s : State) : Res :=
  pldmStep s 0x15 bytes fun s =>
    if 1024 < bytes.length then secError s 0x13 else dataChunk s 2 s.sec.pldmComp (bankB s s.sec.pldmComp).written bytes
/-- TransferComplete: the component's transfer is over. -/
def execPldmTransferComplete (s : State) : Res := pldmStep s 0x16 [] fun s => setSec s { s.sec with pldmComp := 0 }
/-- VerifyComplete. -/
def execPldmVerifyComplete (s : State) : Res := pldmStep s 0x17 [] fun s => verifyUpdate s 2
/-- ApplyComplete: an update that has verified is ready to be activated. -/
def execPldmApplyComplete (s : State) : Res := pldmStep s 0x18 [] fun s => if s.sec.phase = 2 then s else secError s 0x13
/-- ActivateFirmware: for the turn 400 ahead. -/
def execPldmActivateFirmware (s : State) : Res :=
  pldmStep s 0x1A [] fun s => activateUpdate s 2 (turnNo s + 400) (rd s Fd.secActTag)
/-- GetStatus. -/
def execPldmGetStatus (s : State) : Res := sideband s 0x1B [] fun s => pldmOk s 0x1B [s.sec.phase, rd s Fd.secMbStsState]
/-- CancelUpdateComponent. -/
def execPldmCancelUpdateComponent (s : State) : Res := pldmStep s 0x1C [] fun s => cancelUpdate s 2
/-- CancelUpdate. -/
def execPldmCancelUpdate (s : State) : Res := pldmStep s 0x1D [] fun s => cancelUpdate s 2

/-- MCTP_DISCOVERY (R379, R392): the MMC, or its boot ROM, answers at its static address. -/
def execMctpDiscovery (s : State) : Res :=
  ok (if s.boot.powered ∧ (stageEnded s 1 ∨ s.mmc.rom.isSome) then emit s (.reply 2 0 (s.mmc.addr.toList)) else s)

end Sys2Proof.Machine
end

