-- ==== Sys2Proof/Machine/Units.lean ====
section
/-! DEFINITION. The commands of the matrix array, the CPT, the FTU and the punty engines: SWEEP, SWEEP_DONE, LOOKUP, LOOKUP_DONE, APPLY,
APPLY_DONE, COPY, FILL, HDUMP, HLOAD, COPY_START, SIEVE_TAKE, PC_SHARE_START, COPY_COMPLETE. -/

namespace Sys2Proof.Machine

/-- SWEEP (R69 to R73, R79, R83, R84, R214): the descriptor that the plan issued is accepted. -/
def execSweep (t : Nat) (s : State) : Res :=
  match takeIssue (settle s) t 0 with
  | none => .fault .noOperation
  | some (i, s) => ok (acceptSweep s t i)

/-- The clock goes on to the clock cycle in which the first of a tile's operations is due, as losses on the way move it; none where there is no
operation, or where the guard band comes first (R30), which a hub engine does not know. -/
def driveDue (hub : Bool) (due : State → Option Nat) : Nat → State → Option State
  | 0, _ => none
  | fuel + 1, s => match due s with
    | none => none
    | some d =>
      if ¬ hub ∧ s.turn.guardAt < d then none
      else if d ≤ s.now then some s
      else driveDue hub due fuel (settleTo s d)

/-- The cycle in which the first of the operations is due. -/
def dueOf {α : Type} (due : α → Nat) (l : List α) : Option Nat := (firstDue due l).map due

/-- No operation of a unit completes, but of a descriptor that its checks have turned away the record is posted in its cycle (R84, R114, R145,
R163, R338). -/
def doneChecks (p : Posting → Bool) (s : State) : Res :=
  match s.soon.find? fun x => p x && x.goes s with
  | none => .fault .noOperation
  | some x => ok (settleTo s x.rec_.cyc)

/-- SWEEP_DONE (R74 to R82, R85, R88, R95, R98 to R100): the sweep of the tile that is due first completes. -/
def execSweepDone (t : Nat) (s : State) : Res :=
  match driveDue false (fun s => dueOf Sweep.due (tile s t).sweeps) (2 ^ 20) s with
  | none => doneChecks (fun p => p.unit == mxaPage t) s
  | some s => match firstDue Sweep.due (tile s t).sweeps with
    | none => .fault .noOperation
    | some w => ok (finishSweep s t w)

/-- LOOKUP (R105 to R111, R113, R114): the issued descriptor is accepted. -/
def execLookup (t : Nat) (s : State) : Res :=
  match takeIssue (settle s) t 6 with
  | none => .fault .noOperation
  | some (i, s) => ok (acceptLookup s t i)

/-- LOOKUP_DONE (R106, R110 to R112, R114, R115): the operation of the tile that is due first completes. -/
def execLookupDone (t : Nat) (s : State) : Res :=
  match driveDue false (fun s => dueOf Lookup.due (tile s t).lookups) (2 ^ 20) s with
  | none => doneChecks (fun p => p.unit == cptPage t) s
  | some s => match firstDue Lookup.due (tile s t).lookups with
    | none => .fault .noOperation
    | some l => ok (finishLookup s t l)

/-- APPLY (R143 to R145): the issued descriptor is accepted. -/
def execFtuApply (t : Nat) (s : State) : Res :=
  match takeIssue (settle s) t 2 with
  | none => .fault .noOperation
  | some (i, s) => ok (acceptApply s t i)

/-- APPLY_DONE (R141 to R146): the operation of the tile that is due first completes. -/
def execFtuApplyDone (t : Nat) (s : State) : Res :=
  match driveDue false (fun s => dueOf Apply.due (tile s t).applies) (2 ^ 20) s with
  | none => doneChecks (fun p => p.unit == ftuPage t) s
  | some s => match firstDue Apply.due (tile s t).applies with
    | none => .fault .noOperation
    | some a => ok (finishApply s t a)

/-- COPY (R157 to R166): the issued descriptor is accepted. -/
def execCopy (e : Nat) (s : State) : Res := takeCopy 1 e (settle s)
/-- FILL (R160). -/
def execFill (e : Nat) (s : State) : Res := takeCopy 2 e (settle s)
/-- HDUMP (R160, R187). -/
def execHdump (e : Nat) (s : State) : Res := takeCopy 3 e (settle s)
/-- HLOAD (R160, R187). -/
def execHload (e : Nat) (s : State) : Res := takeCopy 4 e (settle s)

/-- The clock cycle in which the copy held behind starts (R165): the later of its acceptance and the release point of the copy ahead, which
may have left. -/
def startOf (s : State) (e : Nat) : Option (Copy × Nat) :=
  let x := engine s e
  match x.copies with
  | [c] => if c.start.isSome then none else some (c, max c.acc x.release)
  | [a, c] => if c.start.isSome then none else (a.release s e).map fun r => (c, max c.acc r)
  | _ => none

/-- COPY_START (R165): the copy held behind starts, once the release point of the copy ahead has come, as delays on the way move it. -/
def execCopyStart (e : Nat) (s : State) : Res :=
  match driveDue (engHub e) (fun s => (startOf s e).map Prod.snd) (2 ^ 20) s with
  | none => .fault .noOperation
  | some s => match startOf s e with
    | none => .fault .noOperation
    | some (c, t0) => ok (setCopy s e { c with start := some t0 })

/-- SIEVE_TAKE (R165, R173, R176, R187): the engine's first started copy without it takes the Sieve of its tile once it is free. -/
def execSieveTake (e : Nat) (s : State) : Res :=
  if engHub e then .fault .noSuchUnit
  else
    let t := engTile e
    let s := match (engine s e).copies.find? fun c => !c.going && c.start.isSome with
      | some c => settleTo s (moved c.lost (c.start.getD 0 + 9))
      | none => s
    if (tile s t).sieve ≠ 0 then .fault .noOperation
    else
      let s := settleTo s (tile s t).sieveFrom
      match (engine s e).copies.find? fun c => c.going && c.d.needsSieve && !c.hasSieve with
      | none => .fault .noOperation
      | some c =>
        let s := updTile s t fun x => { x with sieve := 1 + e % 2 }
        let c := { c with hasSieve := true, sieveAt := s.now, entry := tagOf s t c.d.stag, step := tileStep s t }
        ok (if c.d.conv = 1 then sieveConvert s e c s.now else beginMove s e (s.now - 9) c)

/-- PC_SHARE_START (R155): a share of a copy of the engine that a share ahead has moved starts as that hold ends. -/
def execPcShareStart (e stack pc : Nat) (s : State) : Res :=
  let mine (s : State) (sh : Share) : Bool := !sh.started && sh.stack == stack && sh.pc == pc && shareMoved s e sh != 0
  match (engine s e).copies.findSome? fun c => c.shares.find? (mine s) with
  | none => .fault .noOperation
  | some sh =>
    let s := settleTo s (shareOrigin s e sh)
    match (engine s e).copies.find? fun c => c.shares.contains sh with
    | none => .fault .noOperation
    | some c => ok (setCopy s e { c with shares := c.shares.map fun x => if x = sh then { x with started := true } else x })

/-- The clock cycle to which the copies of an engine have something to do: an event of one, its record. -/
def copyNext (s : State) (e : Nat) : Option Nat :=
  (engine s e).copies.foldl (fun m c =>
    let l := (copyEvents s e c).map Prod.fst ++ (if c.prog.err.isSome then [c.prog.errAt + 1] else []) ++ (c.due s e).toList
    l.foldl (fun m x => match m with | none => some x | some y => some (min x y)) m) none

/-- A copy of the engine whose record can be posted by now. -/
def copyReady (s : State) (e : Nat) : Option Copy :=
  (engine s e).copies.find? fun c => (c.prog.err.isSome && decide (c.prog.errAt < s.now)) ||
    match c.due s e with | some d => decide (d ≤ s.now) | none => false

/-- What an engine's copies do up to the first record happens, each event in its cycle; of a tile engine none in the guard band. -/
def driveCopy (e : Nat) : Nat → State → Option (State × Copy)
  | 0, _ => none
  | fuel + 1, s => match copyReady s e with
    | some c => some (s, c)
    | none => match copyNext s e with
      | none => none
      | some x => if !engHub e && decide (s.turn.guardAt < x) then none else driveCopy e fuel (settleTo s (max x (s.now + 1)))

/-- COPY_COMPLETE (R166, R168, R183, R188): a copy of the engine commits its last unit, or meets what stops it, and posts. A remote copy
completes when every answer is in (R162). -/
def execCopyComplete (e : Nat) (s : State) : Res :=
  let s := settle s
  match driveCopy e (2 * dueCount) s with
  | none =>
    let s := match copyNext s e with
      | some c => if engHub e ∨ c < s.turn.guardAt then settleTo s c else s
      | none => s
    doneChecks (fun p => p.unit == engPage e && p.rec_.kind == Sk.pce && p.rec_.idx == (if engHub e then 0x8000 + (e - 128) else e)) s
  | some (s, c) => match c.prog.err, c.due s e with
    | some st, _ => ok (postError s e c st)
    | none, some d => ok (finishCopy s e c d)
    | none, none => .fault .noOperation

end Sys2Proof.Machine
end

