-- ==== Sys2Proof/Machine/Fence.lean ====
section
/-! DEFINITION. What stops work from outside: the guard band, fences and resets of a tile, a kiln, a port or the module (R29, R30,
R345 to R351, R354 to R359, R364), and the commands FENCE_REQUEST, UNFENCE, SELF_TEST_DONE and the faults that fence. -/

namespace Sys2Proof.Machine

def modulePage : Nat := 0
def trnPage : Nat := 0x1000
def mmcPage : Nat := 0xF00000
def tsqPage (t : Nat) : Nat := tilePage t 0

/-! Blocks and their pages (R395, R396). -/

/-- Every page with a common header, by its base. -/
def blockPage : Block → Nat
  | .module => 0 | .trn => 0x1000 | .fma => 0x2000 | .frt => 0x3000 | .port p => portPage p | .col => 0x20000 | .frit => 0x21000
  | .qmu => 0x30000 | .hif => 0x50000 | .mem s => stackPage s | .nwu d => nwuPage d | .kln k => kilnPage k
  | .tsq t => tilePage t 0 | .mxa t => tilePage t 1 | .grn t => tilePage t 2 | .opc t => tilePage t 3 | .ftu t => tilePage t 4
  | .sieve t => tilePage t 5 | .pce t e => tilePage t (6 + e % 2) | .cpt t => tilePage t 8 | .mrv t => tilePage t 9
  | .dbg => 0x800000 | .mmc => 0xF00000 | .sec => 0xF10000 | .die d => 0xFFFFF0 + d

/-- The tile of a tile page. -/
def blockTile : Block → Option Nat
  | .tsq t | .mxa t | .grn t | .opc t | .ftu t | .sieve t | .pce t _ | .mrv t => some t
  | _ => none

/-- The unit of a block is present (R15). -/
def blockPresent (s : State) (b : Block) : Bool :=
  match b with
  | .port p => capPort s.variant p
  | .mem k => capStack s.variant k
  | .nwu d | .die d => capDie s.variant d
  | .kln k => capKiln s.variant k
  | .cpt t => capCpt s.variant t
  | b => match blockTile b with | some t => capTile s.variant t | none => true

/-- The stage at whose end a page answers fully (R341). -/
def blockStage : Block → Nat
  | .mmc | .sec => 2
  | .mem _ => 5
  | .nwu _ | .kln _ | .cpt _ | .die _ => 6
  | b => if (blockTile b).isSome then 6 else 4

/-- A page that takes writes. -/
def blockUp (s : State) (b : Block) : Bool := blockPresent s b && s.boot.powered && stageEnded s (blockStage b)

/-- The page of the fence scope of a block (R347), none where FENCE has no effect. -/
def fenceScope (b : Block) : Option Nat :=
  match blockTile b with
  | some t => some (tilePage t 0)
  | none => match b with
    | .cpt _ | .mem _ | .kln _ | .nwu _ | .port _ | .frt | .col | .frit => some (blockPage b)
    | _ => none

/-- The block of a fence scope page. -/
def scopeBlock (pg : Nat) : Block :=
  if 0x100000 ≤ pg then
    let t := (pg - 0x100000) / 0x10000
    if pg % 0x10000 = 0x8000 then .cpt t else .tsq t
  else if 0x80000 ≤ pg then .kln ((pg - 0x80000) / 0x4000)
  else if 0x70000 ≤ pg then .nwu ((pg - 0x70000) / 0x1000)
  else if 0x60000 ≤ pg then .mem ((pg - 0x60000) / 0x1000)
  else if pg = 0x21000 then .frit
  else if pg = 0x20000 then .col
  else if 0x10000 ≤ pg then .port ((pg - 0x10000) / 0x1000)
  else .frt

/-! A tile's work stops (R30, R356). -/

/-- A record of the Sieve as a plan unit (R25, R402). -/
def sievePosting (t tag status acc cyc : Nat) : Posting :=
  { unit := sievePage t, read := none, stop := none, acc := acc, notices := [], counts := [], flagPage := sievePage t, errs := [sievePage t]
    prod := prodTile t, queue := Fd.sieveCqQueue t
    rec_ := { tag := tag, status := status, kind := Sk.sieve, idx := t, cyc := cyc, detail := (cyc - acc) % 2 ^ 32, flags := 0, count := 0 } }

/-- The record of an entry that its unit has not begun, by the UNIT of the entry; acc is the cycle of its issue. -/
def unitPosting (t unit tag status acc cyc : Nat) : Option Posting :=
  match unit with
  | 0 => some (mxaPosting t tag status acc cyc (detail3 (cyc - acc) 0 0) 0 0)
  | 1 => some (grnPosting t tag status acc cyc ((cyc - acc) % 2 ^ 32) 0 0)
  | 2 => some (ftuPosting t tag status acc cyc (detail3 (cyc - acc) 0 0) 0 0)
  | 3 | 4 => some (copyPosting (2 * t + (unit - 3)) tag acc status cyc 0 0 0 0)
  | 5 => some (sievePosting t tag status acc cyc)
  | 6 => some (cptPosting t tag status acc cyc (detail3 (cyc - acc) 0 0) 0 0)
  | 7 => some (klnPosting (t / 16) tag status acc cyc acc 0 0 0 0)
  | _ => none

/-- Descriptors issued to units that p names, and not yet taken, end with ABANDONED at cycle c. -/
def dropIssues (p : Nat → Bool) (s : State) (t c : Nat) : State :=
  let mine := (tile s t).issued.filter fun i => p i.unit
  let s := updTile s t fun x => { x with issued := x.issued.filter fun i => !p i.unit }
  mine.foldl (fun s i => match unitPosting t i.unit i.tag St.abandoned i.cyc c with | some p => postNow s p | none => s) s

/-- Every operation of a tile's own units stops at cycle c; what the kiln, COL and QMU have accepted runs on (R27, R29). -/
def abandonTile (s : State) (t c : Nat) : State :=
  let s := abandonPce s t c
  let s := abandonMxa s t c
  let s := abandonCpt s t c
  let s := abandonFtu s t c
  let s := abandonGrn s t c
  dropIssues (fun u => u < 7) s t c

/-- The tile runs no plan from here on. -/
def stopPlan (s : State) (t : Nat) : State := updTile s t fun x => { x with running := false, ended := false, switching := none, switchShares := [], switchLag := 0 }

/-! Resets of parts (R354 to R359, R364). -/

/-- Register addresses of a tile's pages that a class T reset returns: all but SIEVE_CTL. -/
def tileRegs (t a : Nat) : Bool := decide (tilePage t 0 ≤ a ∧ a < tilePage t 10 ∧ a ≠ tilePage t 5 + 0x44)
/-- Register addresses of a kiln's page. -/
def kilnRegs (k a : Nat) : Bool := decide (kilnPage k ≤ a ∧ a < kilnPage k + 0x1000)

/-- A plain class T reset: registers and the TSQ, the grain cores' registers; memories and tags stay. Work that other units
have accepted from the tile stays theirs. -/
def resetTile (s : State) (t : Nat) : State :=
  let s := resetRegs s (tileRegs t)
  let s := { s with cores := s.cores.filter fun p => p.1 / 32 != t }
  updTile s t fun x => { tileInit with issued := x.issued.filter fun i => decide (7 ≤ i.unit) }

/-- The tests of a tile leave its memories zero and its tag table at its defaults (R174, R357). -/
def wipeTile (s : State) (t : Nat) : State :=
  { s with mem := memClear s.mem fun a => decide (tileBase t ≤ a ∧ a < tileBase t + 0x1000000)
           tags := s.tags.filter fun p => p.1 / 1024 != t }

/-- The tests of a kiln leave its memories zero and its ready bits clear (R350, R357). -/
def wipeKiln (s : State) (k : Nat) : State :=
  let s := { s with mem := memClear s.mem fun a => decide (kilnBase k ≤ a ∧ a < kilnBase k + 0x4000000) }
  setKiln s k { kiln s k with ready := 0 }

/-- A class L reset of a port (R359): its page returns to reset, the cells that wait at it go other ways, and it trains again when a cable is
there. -/
def resetPort (s : State) (p : Nat) : State :=
  let s := resetRegs s fun a => decide (portPage p ≤ a ∧ a < portPage p + 0x1000)
  let s := portOff (if s.boot.nocable.contains p then s else wr s (Fd.portStateState p) 1) p false (portX s p).wait
  wr s Fd.moduleResetsL 1

/-- What holds no power or is cleared whole: every unit of the package, and its memories (R364). -/
def unitsOff (s : State) : State :=
  { s with mem := [], tiles := [], cores := [], tags := [], engines := [], pcq := [], lanes := [], kilns := [], col := colInit,
           fma := fmaInit, qmu := qmuInit, hif := hifInit, turn := turnInit s.now, soon := [] }

/-- Registers that a class M reset keeps: MODULE_RESETS, SIEVE_CTL, the MMC and SEC pages (R364). -/
def keptByM (a : Nat) : Bool :=
  decide (a = 0x244 ∨ 0xF00000 ≤ a ∨ (0x100000 ≤ a ∧ a < 0x500000 ∧ a % 0x10000 = 0x5044))

/-- What an update comes to at a class C or M reset or an entry to P3 (R378): an open one ends without a record, its slot B invalid. -/
def endUpdate (s : State) : State :=
  let x := s.sec
  if x.phase = 0 then s
  else closeUpdate (setSec (wr s Fd.secMbStsBusy 0) { x with slotB := if x.phase < 4 then [] else x.slotB })

/-- The SEC at a class C or M reset: sessions end as well (R369), and the boot runs the set in the slots A (R378). -/
def secReset (s : State) : State :=
  let s := endUpdate s
  setSec s { s.sec with sessions := [], nego := { doe := 0, mctp := 0 }, running := s.sec.stored }

/-- Every scope of bring-up below stage 3 forgotten. -/
def bootFrom (b : Boot) (done : List Nat) : Boot :=
  { bootInit with powered := b.powered, perst := b.perst, nocable := b.nocable, slotId := b.slotId, verified := b.verified, cRun := false
                  stagesDone := done }

/-- A class M reset (R355, R356, R364): from stage 3 on, the MMC and the SEC running; where stage 2 has verified nothing since the last class C reset
its checks are made again (R15: without a verified record the module stays below READY; log entry 21). A class K or T reset that it takes over is
recorded too (R363). At an exit from P3 SIEVE_CTL takes its default too. -/
def resetM (s : State) : State :=
  let p3 := s.boot.p3
  let k := if s.boot.verified then 3 else 2
  let s := if s.boot.kRun.isSome then wr s Fd.moduleResetsK 1 else s
  let s := if !s.boot.tRun.isEmpty || s.boot.testing.any fun pg => decide (0x100000 ≤ pg) then wr s Fd.moduleResetsT 1 else s
  let s := resetRegs (unitsOff (secReset s)) fun a => !keptByM a || (p3 && decide (0x100000 ≤ a ∧ a < 0x500000))
  let s := wrs s [(Fd.moduleStateStage, k), (Fd.moduleResetsM, 1)]
  let s := if p3 then wr s Fd.moduleResetsP3 1 else s
  { s with boot := { bootFrom s.boot (List.range k) with resetAt := s.now } }

/-- Everything at a class C reset but the flash of the SEC (R364): the SEC boots the set in its slots A. -/
def resetC (s : State) : State :=
  let s := resetRegs (unitsOff (secReset s)) fun _ => true
  { s with boot := { bootFrom s.boot [] with powered := true, verified := false, cRun := true, resetAt := s.now }, mmc := mmcInit,
           sec := { s.sec with running := s.sec.stored, log := [], window := [] } }

/-! Service (R346). -/

/-- A compute die keeps an available tile and an available stack when the scopes in also are fenced too. -/
def serviceWith (s : State) (also : List Nat) : Bool :=
  (List.range 4).any fun d =>
    ((List.range 16).any fun i => availTile s (16 * d + i) && !also.contains (tilePage (16 * d + i) 0)) &&
      (List.range 4).any fun i => availStack s (4 * d + i) && !also.contains (stackPage (4 * d + i))

/-- The module leaves service (R346): only the MMC and the SEC stay, on the sideband. -/
def noService (s : State) (code : Nat) : State :=
  let s := wrs s [(Fd.moduleStateReady, 0), (Fd.moduleStateNoservice, 1), (Fd.moduleStateFail, code)]
  let s := linkDown (unitsOff s)
  { s with boot := { s.boot with pwrGood := false, cRun := false, stagesDone := [0, 1, 2], fenceReq := [], testReq := [], testing := [], returning := [],
                                 tReq := [], tRun := [], kRun := none, moving := none } }

/-- NOSERVICE with code 5 where the last service die is gone. -/
def checkService (s : State) : State := if serviceWith s [] then s else noService s 5

/-! Fences (R348, R353). -/

/-- The log of a fence. -/
def fenceLog (s : State) (pg cause : Nat) : State :=
  let s := bump (notice s Fd.nModuleFence) Fd.moduleFencesCount 1
  wrs s [(Fd.moduleFenceLogPage, pg), (Fd.moduleFenceLogCause, cause), (Fd.moduleFenceLogTurn, turnNo s)]

def addFence (s : State) (pg cause : Nat) : State :=
  { s with boot := { s.boot with fences := s.boot.fences ++ [⟨pg, cause⟩] } }

/-- The work of a fenced unit ends at clock cycle c (R348). The plan of a fenced tile goes on to its end of the turn: later entries meet
NOT_PRESENT (R408). -/
def fenceWork (s : State) (b : Block) (c : Nat) : State :=
  match b with
  | .cpt t => dropIssues (fun u => u == 6) (abandonCpt s t c) t c
  | .kln k =>
    let s := abandonKiln s k c
    (List.range 16).foldl (fun s i =>
      let t := 16 * k + i
      let mine := (tile s t).issued.filter fun j => j.unit == 7
      let s := updTile s t fun x => { x with issued := x.issued.filter fun j => j.unit != 7 }
      mine.foldl (fun s j => postNow s (klnPosting k j.tag St.abandoned j.cyc c j.cyc 0 0 0 0)) s) s
  | .nwu d => { s with lanes := s.lanes.filter fun l => l.1 / 4 != d }
  | .port p => if rd s (Fd.portStateState p) = 0 then s else portDown s p
  | .frt => ((List.range 12).filter fun p => rd s (Fd.portStateState p) != 0).foldl portDown s
  | .col | .frit => abandonCol s
  | .mem _ => s
  | b => match blockTile b with
    | some t =>
      let s := abandonTile s t c
      if (tile s t).switching.isSome then stopPlan s t else s
    | none => s

/-- A scope is fenced now, for a cause (R348). A copy of another unit that touches it stops at its first unit from there on (R164). -/
def fenceNow (s : State) (pg cause : Nat) : State :=
  if fencedPage s pg then s
  else
    let c := s.now
    let s := settle s
    let s := fenceLog (addFence (fenceWork s (scopeBlock pg) c) pg cause) pg cause
    { s with boot := { s.boot with fenceReq := s.boot.fenceReq.filter fun x => x != pg } }

/-- The scopes on a compute die: its tiles, stacks, kiln and watch. -/
def dieScopes (s : State) (d : Nat) : List Nat :=
  ((List.range 16).filter fun i => capTile s.variant (16 * d + i)).map (fun i => tilePage (16 * d + i) 0) ++
    ((List.range 4).filter fun i => capStack s.variant (4 * d + i)).map (fun i => stackPage (4 * d + i)) ++
    (if capKiln s.variant d then [kilnPage d] else []) ++ [nwuPage d]

/-- A die is fenced: its parts with CAUSE 5, then the die itself (R345, R349, R353). -/
def fenceDie (s : State) (d cause : Nat) : State :=
  if fencedDie s d then s
  else
    let s := (dieScopes s d).foldl (fun s pg => fenceNow s pg 5) s
    fenceLog { s with boot := { s.boot with dies := insertNat s.boot.dies d } } (0xFFFFF0 + d) cause

/-- A block that fails a test or a training is fenced (R345): with the COL, the frit path or the router go all ports. -/
def fenceBlock (cause : Nat) (s : State) (b : Block) : State :=
  match b with
  | .die d => fenceDie s d cause
  | .col | .frit | .frt =>
    ((List.range 12).filter (capPort s.variant)).foldl (fun s p => fenceNow s (portPage p) cause) (fenceNow s (blockPage b) cause)
  | b => match fenceScope b with
    | some pg => if blockPresent s b then fenceNow s pg cause else s
    | none => s

/-- A fence ends (R350). -/
def liftFence (s : State) (pg : Nat) : State :=
  { s with boot := { s.boot with fences := s.boot.fences.filter fun f => f.page != pg
                                 returning := s.boot.returning.filter fun x => x != pg } }

/-- The compute dies are off: P2, or a transition into or out of it (R362). -/
def inP2 (s : State) : Bool := rd s Fd.modulePwrState == 2 || s.boot.moving.isSome

/-- FENCE_REQUEST (R347, R348): taken up at the next turn start; ignored where the page has no fence, or where it would leave the
module below the minimum service set. -/
def execFenceRequest (b : Block) (s : State) : Res :=
  match fenceScope b with
  | none => ok s
  | some pg =>
    if ¬ blockUp s b then ok s
    else if fencedPage s pg then
      ok { s with boot := { s.boot with testReq := s.boot.testReq.filter fun x => x != pg, testing := s.boot.testing.filter fun x => x != pg,
                                        returning := s.boot.returning.filter fun x => x != pg } }
    else if ¬ serviceWith s (pg :: s.boot.fenceReq) then ok (notice s Fd.nModuleReject)
    else ok { s with boot := { s.boot with fenceReq := insertNat s.boot.fenceReq pg } }

/-- What a FENCE = 0 starts on a fenced scope (R350); during a class K reset a unit of the compute dies returns with it (R363). -/
def startReturn (s : State) (b : Block) (pg : Nat) : State :=
  let b0 := s.boot
  match b with
  | .mem _ => s
  | .nwu _ => { s with boot := { b0 with returning := insertNat b0.returning pg } }
  | .port p => let s := resetPort s p
    { s with boot := { s.boot with testing := insertNat s.boot.testing pg } }
  | .frt | .col | .frit => { s with boot := { b0 with testing := insertNat b0.testing pg } }
  | .kln k =>
    if inP2 s then notice s Fd.nModuleReject
    else if s.boot.kRun.isSome then { s with boot := { b0 with returning := insertNat b0.returning pg } }
    else
      let s := wipeKiln s k
      { s with boot := { s.boot with testing := insertNat s.boot.testing pg } }
  | _ =>
    if inP2 s then notice s Fd.nModuleReject
    else if s.boot.kRun.isSome then { s with boot := { b0 with returning := insertNat b0.returning pg } }
    else { s with boot := { b0 with testReq := insertNat b0.testReq pg } }

/-- The unit lies on a compute die that the hardware has fenced. -/
def onFencedDie (s : State) (b : Block) : Bool :=
  match b with
  | .cpt t => fencedDie s (t / 16)
  | .mem k => fencedDie s (k / 4)
  | .kln d | .nwu d => fencedDie s d
  | b => match blockTile b with | some t => fencedDie s (t / 16) | none => false

/-- FENCE = 0 asks for a class T or L reset of the unit (R350, R355). -/
def asksReset (b : Block) : Bool := match b with | .port _ | .cpt _ => true | b => (blockTile b).isSome

/-- UNFENCE (R350, R363): FENCE = 0 on a page. A unit of a die that the hardware fenced stays; while the module comes up from a class C or M reset
the resets that it asks for are ignored. -/
def execUnfence (b : Block) (s : State) : Res :=
  match fenceScope b with
  | none => ok s
  | some pg =>
    if ¬ blockUp s b ∨ (bringUp s ∧ asksReset b) then ok s
    else if ¬ fencedPage s pg then ok { s with boot := { s.boot with fenceReq := s.boot.fenceReq.filter fun x => x != pg } }
    else if onFencedDie s b then ok s
    else ok (startReturn s b pg)

/-- SELF_TEST_DONE (R350): a unit that passes returns at the next turn start; one that fails stays fenced. -/
def execSelfTestDone (b : Block) (pass : Bool) (s : State) : Res :=
  match fenceScope b with
  | none => .fault .noOperation
  | some pg =>
    if ¬ s.boot.testing.contains pg then .fault .noOperation
    else
      let s := { s with boot := { s.boot with testing := s.boot.testing.filter fun x => x != pg } }
      let s := match blockTile (scopeBlock pg) with
        | some t =>
          let s := wr s Fd.moduleResetsT 1
          { s with boot := { s.boot with firstTurn := insertNat s.boot.firstTurn t } }
        | none => match b with | .cpt _ => wr s Fd.moduleResetsT 1 | _ => s
      ok (if pass then { s with boot := { s.boot with returning := insertNat s.boot.returning pg } } else s)

/-! Faults (R345, R349, R351, R384, R389). -/

/-- A trip or a rail fault counted by the MMC; FIRST_ERR names the part (R394). -/
def mmcError (s : State) (pg : Nat) : State := pageErrInfo s mmcPage pg

/-- The part has power: the rails of the hub die and the stacks from stage 3, those of the compute dies from stage 6. A part without it is watched
by nothing: a fault of it has no effect. -/
def railOn (s : State) (from_ : Nat) : Bool :=
  s.boot.powered && !s.boot.p3 && !rdb s Fd.moduleStateNoservice && stageEnded s (from_ - 1)

/-- RAIL_FAULT (R349, R384). -/
def execRailFault (part : Part) (s : State) : Res :=
  match part with
  | .die d =>
    if ¬ capDie s.variant d then .fault .noSuchUnit
    else if ¬ railOn s 6 then ok s
    else ok (checkService (fenceDie (mmcError s (0xFFFFF0 + d)) d 3))
  | .stack k =>
    if ¬ capStack s.variant k then .fault .noSuchUnit
    else if ¬ railOn s 3 then ok s
    else ok (checkService (fenceNow (mmcError s (stackPage k)) (stackPage k) 3))
  | .hub => if ¬ railOn s 3 then ok s else ok (noService (mmcError s 0) 3)

/-- THERMAL_TRIP (R349, R389). -/
def execThermalTrip (part : Part) (s : State) : Res :=
  match part with
  | .die d =>
    if ¬ capDie s.variant d then .fault .noSuchUnit
    else if ¬ railOn s 6 then ok s
    else ok (checkService (fenceDie (mmcError s (0xFFFFF0 + d)) d 4))
  | .stack k =>
    if ¬ capStack s.variant k then .fault .noSuchUnit
    else if ¬ railOn s 3 then ok s
    else ok (checkService (fenceNow (mmcError s (stackPage k)) (stackPage k) 2))
  | .hub => if ¬ railOn s 3 then ok s else ok (noService (mmcError s 0) 3)

/-- HBM_PHY_LOSS (R349). -/
def execHbmPhyLoss (k : Nat) (s : State) : Res :=
  if ¬ capStack s.variant k then .fault .noSuchUnit
  else if ¬ railOn s 6 then ok s
  else ok (checkService (fenceNow s (stackPage k) 2))

/-- The link of a pair of neighbouring dies has failed (R351). -/
def reroutePair (s : State) (d : Nat) : State :=
  let r := rd s Fd.moduleStateReroute
  notice (if r.testBit d then s else wr s Fd.moduleStateReroute (r + 2 ^ d)) Fd.nModuleReroute

/-- D2D_LINK_FAILURE (R351). -/
def execD2dLinkFailure (d : Nat) (s : State) : Res :=
  if 4 ≤ d ∨ ¬ capDie s.variant d ∨ ¬ capDie s.variant ((d + 1) % 4) then .fault .noSuchUnit
  else if ¬ railOn s 6 then ok s
  else ok (reroutePair s d)

/-- HUB_SERVICE_FAULT (R346, R349): a fault of a block of the minimum service set. -/
def execHubServiceFault (b : Block) (s : State) : Res :=
  if b ≠ .hif ∧ b ≠ .fma ∧ b ≠ .trn ∧ b ≠ .qmu then .fault .noSuchUnit
  else if ¬ railOn s 5 then ok s
  else ok (noService s 4)

end Sys2Proof.Machine
end

