-- ==== Sys2Proof/Machine/Boot.lean ====
section
/-! DEFINITION. Bring-up (17_bring_up.md), the resets and power states that act at once (18_resets_power_states.md), PERST_N, and
the management controller (20_power_thermal_mechanical.md). -/

namespace Sys2Proof.Machine

/-! The management controller (R386, R387). -/

/-- A NOTICE bit of the MMC page, with its PLDM event when it turns 1 (R385). -/
def mmcNotice (s : State) (f : Fld) (on : Bool) : State :=
  if ¬ on then s else if rdb s f then s else emit (notice s f) (.reply 1 0x100 [f.lo])

/-- The MMC's decision at the start of turn n (R386, R387). Turn numbers wrap (R24): a turn named ahead counts until it comes. -/
def throttleTurn (s : State) (n : Nat) : State :=
  let m := s.mmc
  let avg := decide (rd s (Fd.mmcPlimitLimit s.variant) < rd s Fd.mmcPinAvg)
  let later := avg || m.low || !m.hot.isEmpty
  let s := mmcNotice s Fd.nMmcPlimit avg
  let s := mmcNotice s Fd.nMmcPeak m.peak
  let s := mmcNotice s Fd.nMmcVinLow m.low
  let s := mmcNotice s Fd.nMmcThermal (!m.hot.isEmpty)
  let on := (m.peak || s.turn.throttleNext.contains n) && decide (rd s Fd.modulePwrState ≤ 1) && s.boot.moving.isNone && !s.boot.p3
  let s := if on then bump s Fd.mmcThrTurnsCount 1 else s
  let ahead (k : Nat) : Bool := k != n && decide ((k + 2 ^ 48 - n) % 2 ^ 48 ≤ 2)
  { s with mmc := { m with peak := false }
           turn := { s.turn with throttle := on, throttleNext := s.turn.throttleNext.filter ahead ++
             (if later then [(n + 2) % 2 ^ 48] else []) } }

/-! Stages (R340 to R346). -/

/-- The module is in stage k. -/
def inStage (s : State) (k : Nat) : Bool :=
  s.boot.powered && !s.boot.p3 && !rdb s Fd.moduleStateNoservice && rd s Fd.moduleStateStage == k && !stageEnded s k

/-- Stage k has ended at ms. -/
def finishStage (s : State) (k ms : Nat) : State :=
  let s := wr s (Fd.moduleStageMsMs k) ms
  { s with boot := { s.boot with stagesDone := s.boot.stagesDone ++ [k], stageAt := s.now } }

def enterStage (s : State) (k : Nat) : State := wr s Fd.moduleStateStage k

/-- The module is the origin of its domain (R258, R259). -/
def isOrigin (s : State) : Bool := s.fma.origin && coordValid s

/-- READY (R344, stage 11). FABRIC stays 0 where the COL, the frit path or the router has failed its test (R345). -/
def enterReady (s : State) (ms : Nat) : State :=
  let locked : Bool := isOrigin s || rd s Fd.trnStateLock == 2
  let sound := !s.boot.fences.any fun f => f.cause != 0 && (f.page == colPage || f.page == fritPage || f.page == frtPage)
  let s := wrs (finishStage (enterStage s 11) 11 ms) [(Fd.moduleStateReady, 1), (Fd.moduleStateFabric, b2n (coordValid s && locked && sound))]
  notice { s with boot := { s.boot with cRun := false } } Fd.nModuleReady

/-- Stage 8 starts: every port with a cable trains (R256, R343, R393). -/
def enterFabric (s : State) : State :=
  let ps := (List.range 12).filter fun p => availPort s p && !s.boot.nocable.contains p && rd s (Fd.portStateState p) == 0
  ps.foldl (fun s p => wr s (Fd.portStateState p) 1) (enterStage s 8)

/-- The origin takes (0,0,0) (R259). -/
def originCoords (s : State) : State :=
  let s := trainOrigin s
  if s.fma.origin ∧ ¬ coordValid s then takeCoords (wr s Fd.trnStateRole 1) 0 0 0 else s

/-- COLD_RESET (R355, R364). -/
def execColdReset (s : State) : Res := ok (resetC s)

/-- STAGE_POWER. -/
def execStagePower (ms : Nat) (s : State) : Res :=
  if ¬ inStage s 0 then .fault .noOperation else ok (enterStage (finishStage s 0 ms) 1)

/-- The MMC boots the image in its bank B, which is slot A from then on (R370); the bank record follows at its next write (the model's choice,
log entry 7). -/
def bootOtherMmc (s : State) : State :=
  setSec s { s.sec with slotA := Tab.insert s.sec.slotA 1 (bankB s 1).bytes
                        slotB := Tab.put bankInit s.sec.slotB 1 { bytes := imageA s 1, written := (imageA s 1).length, valid := false }
                        bankA := if s.sec.bankA.contains 1 then s.sec.bankA.filter (fun c => c != 1) else insertNat s.sec.bankA 1 }

/-- STAGE_MMC (R340, R346, R379, R392): failed banks did not boot; a bank B that is not valid never boots (R374). With no bank left the boot ROM
answers and stage 1 goes on. -/
def execStageMmc (ms failed : Nat) (s : State) : Res :=
  if ¬ inStage s 1 ∨ s.mmc.rom.isSome then .fault .noOperation
  else
    let s := { s with mmc := { s.mmc with addr := some (Config.i3cAddress s.boot.slotId) } }
    ok (if failed = 0 then enterStage (finishStage s 1 ms) 2
      else if failed = 1 ∧ (bankB s 1).valid then enterStage (finishStage (bootOtherMmc s) 1 ms) 2
      else { s with mmc := { s.mmc with rom := some [] } })

/-- The set in the banks B can run: every bank is valid and none lies below its floor (R373, R378). -/
def otherSetOk (s : State) : Bool :=
  match s.sec.prior with
  | none => false
  | some m => components.all fun c => (bankB s c).valid && decide (floorOf s c ≤ entrySvn m c)

/-- The other set is booted: the banks change names, and the record says so (R370, R378). -/
def bootOther (s : State) : State :=
  let a := components.map fun c => (c, (bankB s c).bytes)
  let b := components.map fun c => (c, ({ bytes := imageA s c, written := (imageA s c).length, valid := false } : Bank))
  writeRecord s { s.sec with slotA := a, slotB := b, stored := s.sec.prior, running := s.sec.prior, prior := none, bankA := swapBanks s.sec.bankA }

/-- STAGE_SEC (R15, R345, R366, R368, R378). fail: 0 none, 1 the module description record, 2 a firmware measurement, 3 the PUF or
the bank record. -/
def execStageSec (ms fail : Nat) (s : State) : Res :=
  if ¬ inStage s 2 ∨ 3 < fail then .fault .noOperation
  else if fail = 1 then ok (noService s 1)
  else if fail = 3 ∨ (fail = 2 ∧ ¬ otherSetOk s) then ok (noService s 2)
  else
    let s := if fail = 2 then bootOther (notice s Fd.nModuleReject) else s
    let s := logEvent (measureFloors { s with boot := { s.boot with verified := true } })
    ok (enterStage (finishStage s 2 ms) 3)

/-- STAGE_RAILS (R345). -/
def execStageRails (ms : Nat) (hubFault : Bool) (s : State) : Res :=
  if ¬ inStage s 3 then .fault .noOperation
  else if hubFault then ok (noService (mmcError s 0) 3)
  else
    let s := enterStage (finishStage s 3 ms) 4
    ok { s with boot := { s.boot with pwrGood := true } }

/-- STAGE_HUB (R340, R345, R387): the hub blocks are up and the TRN runs free from here; the samples of turn 0 count from its start. -/
def execStageHub (ms : Nat) (failed : List Block) (s : State) : Res :=
  let vital (b : Block) : Bool := b == .hif || b == .fma || b == .trn || b == .qmu
  if ¬ failed.all (fun b => vital b || b == .col || b == .frit || b == .frt) then .fault .noSuchUnit
  else if ¬ inStage s 4 then .fault .noOperation
  else if failed.any vital then ok (noService s 4)
  else
    let s := enterStage (finishStage s 4 ms) 5
    ok (throttleTurn (failed.foldl (fenceBlock 1) { s with turn := turnInit s.now, mmc := { s.mmc with peak := false } }) 0)

/-- Stage k ends and the next one starts, but where the module has left service. -/
def passStage (s : State) (k ms : Nat) : State := if serviceWith s [] then enterStage (finishStage s k ms) (k + 1) else noService s 5

/-- STAGE_HBM (R345): stacks that failed both attempts are fenced. -/
def execStageHbm (ms : Nat) (failed : List Nat) (s : State) : Res :=
  if ¬ failed.all (capStack s.variant) then .fault .noSuchUnit
  else if ¬ inStage s 5 then .fault .noOperation
  else ok (passStage (failed.foldl (fun s k => fenceNow s (stackPage k) 2) s) 5 ms)

/-- A block that stage 6 tests. -/
def stage6Block (s : State) (b : Block) : Bool :=
  match b with
  | .tsq _ | .cpt _ | .kln _ | .nwu _ | .die _ => blockPresent s b
  | _ => false

/-- STAGE_COMPUTE (R345, R351): units that failed their tests are fenced, and pairs whose link failed its training are rerouted. A die
in the list failed the training of its link to the hub die. -/
def execStageCompute (ms : Nat) (failed : List Block) (pairs : List Nat) (s : State) : Res :=
  if ¬ failed.all (stage6Block s) ∨ ¬ pairs.all (fun d => d < 4 && capDie s.variant d && capDie s.variant ((d + 1) % 4)) then .fault .noSuchUnit
  else if ¬ inStage s 6 then .fault .noOperation
  else
    let s := failed.foldl (fun s b => fenceBlock (match b with | .die _ => 2 | _ => 1) s b) s
    let s := pairs.foldl reroutePair s
    ok (passStage { s with boot := { s.boot with firstTurn := (List.range 64).filter (capTile s.variant) } } 6 ms)

/-- STAGE_CXL (R342, R343). -/
def execStageCxl (ms : Nat) (s : State) : Res :=
  let solo := rdb s Fd.moduleBootCtlSolo
  let go := rdb s Fd.moduleBootCtlFabricGo
  if ¬ inStage s 7 ∨ ¬ (s.boot.linkUp ∨ solo ∨ go) then .fault .noOperation
  else
    let s := finishStage s 7 ms
    ok (if solo then enterReady s ms else if go then enterFabric s else s)

/-- What remains of stages 8 to 10 ends at ms without having been reached (R343). -/
def fabTimeout (s : State) (ms : Nat) : State :=
  let s := notice (originCoords s) Fd.nModuleFabTimeout
  enterReady (([8, 9, 10].filter fun k => !stageEnded s k).foldl (fun s k => finishStage s k ms) s) ms

/-- The ms of bring-up at which FAB_TO expires, counted from FABRIC_GO (R343). -/
def fabLimit (s : State) : Nat := s.boot.goMs + 1000 * rd s Fd.moduleBootCtlFabTo

/-- A stage of 8 to 10 ends at ms as next says, unless FAB_TO has expired before. -/
def fabStage (s : State) (ms : Nat) (next : State → State) : State := if fabLimit s < ms then fabTimeout s (fabLimit s) else next s

/-- STAGE_FABRIC (R256, R340): every present, unfenced port is UP or FOREIGN. -/
def execStageFabric (ms : Nat) (s : State) : Res :=
  if ¬ inStage s 8 ∨ ¬ ((List.range 12).filter (availPort s)).all (fun p => decide (2 ≤ rd s (Fd.portStateState p))) then
    .fault .noOperation
  else ok (fabStage s ms fun s => originCoords (enterStage (finishStage s 8 ms) 9))

/-- STAGE_COORD (R259, R340). -/
def execStageCoord (ms : Nat) (s : State) : Res :=
  if ¬ inStage s 9 ∨ ¬ coordValid s then .fault .noOperation else ok (fabStage s ms fun s => enterStage (finishStage s 9 ms) 10)

/-- STAGE_LOCK (R340, R344). -/
def execStageLock (ms : Nat) (s : State) : Res :=
  if ¬ inStage s 10 ∨ ¬ (isOrigin s ∨ rd s Fd.trnStateLock = 2) then .fault .noOperation
  else ok (fabStage s ms fun s => enterReady (finishStage s 10 ms) ms)

/-- The MODULE page takes writes (R341). -/
def hubUp (s : State) : Bool := s.boot.powered && stageEnded s 4

/-- The ms of bring-up by the clock: the end of the last stage, and the cycles since. -/
def bringUpMs (s : State) : Nat :=
  rd s (Fd.moduleStageMsMs (s.boot.stagesDone.foldl max 0)) + (s.now - s.boot.stageAt) / 1750000

/-- FABRIC_GO (R343, R353): FAB_TO counts from it. After SOLO the bit is stored and starts nothing. -/
def execFabricGo (s : State) : Res :=
  if ¬ hubUp s then ok s
  else
    let first := !rdb s Fd.moduleBootCtlFabricGo && !rdb s Fd.moduleBootCtlSolo
    let s := if first then { s with boot := { s.boot with goMs := bringUpMs s } } else s
    let s := wr s Fd.moduleBootCtlFabricGo 1
    ok (if first ∧ stageEnded s 7 ∧ rd s Fd.moduleStateStage = 7 then enterFabric s else s)

/-- SOLO (R343, R353): ignored once FABRIC_GO is 1. -/
def execSolo (s : State) : Res :=
  if ¬ hubUp s ∨ rdb s Fd.moduleBootCtlFabricGo then ok s
  else
    let s := wr s Fd.moduleBootCtlSolo 1
    ok (if stageEnded s 7 ∧ rd s Fd.moduleStateStage = 7 then
      enterReady s (bringUpMs s) else s)

/-- FAB_TIMEOUT (R343): FAB_TO has expired, and what remains of stages 8 to 10 ends at once. -/
def execFabTimeout (ms : Nat) (s : State) : Res :=
  if ¬ (inStage s 8 ∨ inStage s 9 ∨ inStage s 10) ∨ ms < fabLimit s then .fault .noOperation else ok (fabTimeout s ms)

/-! Resets that act at once, and requests of those that wait for a turn start (R355, R363, R365). -/

/-- MODULE_RESET_COMMAND: a class M reset by the MMC, which also leaves P3 and NOSERVICE (R346, R355, R360). Without an MMC that runs there is
nobody to command it, and while a class C reset comes up it is ignored (R363). -/
def execModuleResetCommand (s : State) : Res :=
  if ¬ s.boot.powered ∨ ¬ stageEnded s 1 ∨ (bringUp s ∧ ¬ s.boot.p3 ∧ s.boot.cRun) then ok s else ok (resetM s)

/-- PERST_ASSERT (R342, R360): before stage 4 ends it holds the link down; afterwards it starts a class M reset, that of a class C bring-up
included (R342 says so; R363 would ignore it: log entry 21). In P3 the reset waits for the deassertion; NOSERVICE stays. -/
def execPerstAssert (s : State) : Res :=
  if s.boot.perst then ok s
  else
    let s := { s with boot := { s.boot with perst := true } }
    ok (if s.boot.p3 ∨ rdb s Fd.moduleStateNoservice ∨ ¬ hubUp s then s else resetM s)

/-- PERST_DEASSERT (R342, R360). -/
def execPerstDeassert (s : State) : Res :=
  if ¬ s.boot.perst then ok s
  else
    let s := { s with boot := { s.boot with perst := false } }
    ok (if s.boot.p3 then resetM s else s)

/-- K_RESET_REQUEST (R355, R363, R365). A request of a class below M is ignored while the module comes up. -/
def execKResetRequest (s : State) : Res :=
  if ¬ hubUp s ∨ bringUp s then ok s else if inP2 s then ok (notice s Fd.nModuleReject) else ok (wr s Fd.moduleResetK 1)

/-- T_RESET_REQUEST (R355, R363). -/
def execTResetRequest (t : Nat) (s : State) : Res :=
  if ¬ blockUp s (.tsq t) ∨ bringUp s ∨ s.boot.kRun.isSome then ok s
  else if inP2 s then ok (notice s Fd.nModuleReject)
  else ok { s with boot := { s.boot with tReq := insertNat s.boot.tReq t } }

/-- PORT_SOFT_RESET (R355, R359, R363): a fenced port stays DOWN. -/
def execPortSoftReset (p : Nat) (s : State) : Res :=
  if ¬ blockUp s (.port p) ∨ bringUp s then ok s
  else
    let s := resetPort s p
    ok (if fencedPort s p ∧ ¬ s.boot.testing.contains (portPage p) then wr s (Fd.portStateState p) 0 else s)

/-- MODULE_PWR_WRITE (R360): a write that leaves TURN as it was sets TARGET only; another one arms the transition. -/
def execModulePwrWrite (v : BitVec 64) (s : State) : Res :=
  let n := v.toNat
  let turn := bits n 47 0
  if ¬ hubUp s then ok s
  else if turn = rd s Fd.modulePwrTurn then ok (wr s Fd.modulePwrTarget (bits n 59 58))
  else if turn < turnNo s + 2 then ok (notice s Fd.nModuleReject)
  else ok (wrs s [(Fd.modulePwrTarget, bits n 59 58), (Fd.modulePwrTurn, turn), (Fd.modulePwrArmed, 1)])

/-- POWER_TRANSITION_DONE (R360): the entry into P2, or into P3, ends. -/
def execPowerTransitionDone (s : State) : Res :=
  match s.boot.moving with
  | some 2 =>
    let s := wrs s [(Fd.modulePwrState, 2), (Fd.modulePwrBusy, 0)]
    ok { s with boot := { s.boot with moving := none } }
  | some 3 => ok { wr s Fd.modulePwrBusy 0 with boot := { s.boot with moving := none } }
  | _ => .fault .noOperation

/-- What a turn of tests leaves of the compute dies at the exit from P2 (R364). -/
def computeReset (s : State) : State :=
  let s := (List.range 64).foldl (fun s t => wipeTile (resetTile s t) t) s
  let s := (List.range 4).foldl (fun s k => wipeKiln (resetRegs s (kilnRegs k)) k) s
  { s with boot := { s.boot with firstTurn := (List.range 64).filter (capTile s.variant), tRun := [], tReq := [] } }

/-- The compute dies come back from P2: their registers and the MEM pages at reset, no lane and no hold, the state that was asked for. -/
def leaveP2 (s : State) : State :=
  let dest := if s.boot.moving = some 1 then 1 else 0
  let s := resetRegs (computeReset s) fun a => decide (0x60000 ≤ a ∧ a < 0x80000)
  let s := wrs s [(Fd.modulePwrState, dest), (Fd.modulePwrBusy, 0)]
  { s with boot := { s.boot with moving := none }, lanes := [], pcq := [] }

/-- P2_EXIT_DONE (R360, R364): the stage 6 tests have run; units that failed are fenced. -/
def execP2ExitDone (failed : List Block) (s : State) : Res :=
  match s.boot.moving with
  | some 0 | some 1 =>
    if ¬ failed.all (stage6Block s) then .fault .noSuchUnit
    else if rd s Fd.modulePwrState ≠ 2 then .fault .noOperation
    else
      ok (checkService (failed.foldl (fun s b => fenceBlock (match b with | .die _ => 2 | _ => 1) s b) (leaveP2 s)))
  | _ => .fault .noOperation

/-- K_RESET_END (R355, R357): the reset ends 43,750,000 cc after its start. -/
def execKResetEnd (s : State) : Res :=
  match s.boot.kRun with
  | none => .fault .noOperation
  | some c =>
    let s := wrs (settleTo s c) [(Fd.moduleResetKbusy, 0), (Fd.moduleResetsK, 1)]
    ok { s with boot := { s.boot with kRun := none } }

/-! Power input and the management controller (R381 to R394). -/

/-- HOT_SWAP_OPEN (R381, R382): everything loses power; a controller that is open stays so. -/
def execHotSwapOpen (s : State) : Res :=
  if ¬ s.boot.powered then ok s
  else
    let s := resetC s
    ok { s with boot := { s.boot with powered := false } }

/-- A sensor with its throttle threshold and hysteresis (R389): it counts from the threshold until it falls 3 degrees below. -/
def hotNow (old : List Nat) (i v from_ : Nat) : Bool := decide (from_ ≤ v) || (old.contains i && decide (from_ < v + 3))

/-- TDP and the peak figure of the variant (R383). -/
def tdp (v : Variant) : Nat := match v with | .f => 3200 | .l => 2900 | .s => 1700
def peakFigure (v : Variant) : Nat := match v with | .f => 3600 | .l => 3260 | .s => 1910

/-- The sensors of a sample with a throttle threshold (R389): number, temperature, threshold. -/
def throttleSensors (x : Sample) : List (Nat × Nat × Nat) :=
  ((List.zip (List.range 4) x.dies).map fun p => (p.1, p.2, 95)) ++ ((List.zip (List.range 16) x.hbms).map fun p => (4 + p.1, p.2, 90)) ++
    [(20, x.hub, 95), (21, x.conv, 110)]

/-- MMC_SAMPLE (R381, R385, R387, R389, R390). An MMC that does not run takes none. -/
def execMmcSample (x : Sample) (s : State) : Res :=
  if ¬ s.boot.powered ∨ ¬ stageEnded s 1 then ok s
  else
    let m := s.mmc
    let pw := (x.pin :: m.powers).take (200 * rd s Fd.mmcPlimitWin)
    let hot := ((throttleSensors x).filter fun h => hotNow m.hot h.1 h.2.1 h.2.2).map Prod.fst
    let low := decide (x.vin < 5100)
    let s := wrs s [(Fd.mmcVinVin, x.vin), (Fd.mmcVinIin, x.iin), (Fd.mmcPinLast, x.pin), (Fd.mmcPinAvg, pw.sum / pw.length),
      (Fd.mmcTempDie, x.dies.foldl max 0), (Fd.mmcTempHbm, x.hbms.foldl max 0), (Fd.mmcTempHub, x.hub), (Fd.mmcTempInlet, x.inlet),
      (Fd.mmcTempOutlet, x.outlet)]
    let s := { s with mmc := { m with powers := pw, peak := m.peak || decide (peakFigure s.variant < x.pin), low := low, hot := hot,
                                      dies := x.dies, hbms := x.hbms, conv := x.conv, rails := x.rails } }
    let s := mmcNotice s Fd.nMmcVinLow low
    let s := mmcNotice s Fd.nMmcVinHigh (decide (6000 < x.vin))
    let s := mmcNotice s Fd.nMmcThermal (!hot.isEmpty)
    ok (mmcNotice s Fd.nMmcCoolant (decide (40 < x.inlet)))

/-- CABLE_PRESENCE_CHANGE (R271, R393): without a cable a port is DOWN and does not train; a cable put in lets it train once stage 8 has
started, but for a port that failed retries took DOWN: that one needs a class L reset. -/
def execCablePresenceChange (p : Nat) (present : Bool) (s : State) : Res :=
  if 12 ≤ p ∨ ¬ capPort s.variant p then .fault .noSuchUnit
  else if present then
    let s := { s with boot := { s.boot with nocable := s.boot.nocable.filter fun x => x != p } }
    let trains := rd s (Fd.portStateState p) == 0 && !(portX s p).failed && availPort s p && decide (8 ≤ rd s Fd.moduleStateStage) &&
      rdb s Fd.moduleBootCtlFabricGo && !rdb s Fd.moduleBootCtlSolo && hubUp s
    ok (if trains then wr s (Fd.portStateState p) 1 else s)
  else
    let s := { s with boot := { s.boot with nocable := insertNat s.boot.nocable p } }
    ok (match rd s (Fd.portStateState p) with
      | 0 => s
      | 1 => portOff (wr s (Fd.portStateState p) 0) p false (portX s p).wait
      | _ => portDownWith s p false (portX s p).wait)

end Sys2Proof.Machine
end

