-- ==== Sys2Proof/Machine/Turn.lean ====
section
/-! DEFINITION. The turn (02_the_turn.md): plan entries, context switches, the guard band, turn lock, the registers of the TRN and
the TSQ, and what happens at a turn start (R21, R34 to R37, R192 to R196, R348 to R363, R376, R387). -/

namespace Sys2Proof.Machine

/-! Records of the TRN and the TSQ (R19, R26, R402). -/

/-- A record of a tile's TSQ, counted on the TRN page and on its own (R41). -/
def tsqRecord (s : State) (t tag status cyc detail count : Nat) : State :=
  let s := pageErr (pageErr s trnPage t tag status) (tsqPage t) t tag status
  post s (prodTile t) (rd s Fd.trnCqQueue)
    { tag := tag, status := status, kind := Sk.trn, idx := t, cyc := cyc, detail := detail, flags := 0, count := count }

/-- A TRN register write is rejected (R19). -/
def rejectTrn (s : State) : State :=
  let s := pageErr (notice s Fd.nTrnReject) trnPage 0xFFFF 0 St.badDesc
  post s prodTrn (rd s Fd.trnCqQueue)
    { tag := 0, status := St.badDesc, kind := Sk.trn, idx := 0xFFFF, cyc := s.now, detail := 0, flags := 0, count := 0 }

/-! Plan entries (R25 to R29). -/

/-- The loaded entries, oldest first. -/
def loaded (s : State) (t : Nat) : List (Nat × Entry) := ringEntries s t (ringCount s t) (rd s (Fd.tsqPlanRd t))

/-- RD one slot on. -/
def nextRd (s : State) (t : Nat) : State := wr s (Fd.tsqPlanRd t) (rd s (Fd.tsqPlanRd t) + 1)

/-- In P1 and in a throttle turn every tile is idle and its ring keeps its entries (R361, R386). -/
def ringKept (s : State) : Bool := rd s Fd.modulePwrState == 1 || s.turn.throttle

/-- While SKIP = 1 loaded entries are discarded, up to the next END (R29). -/
def skipEntries (s : State) (t : Nat) : State :=
  if ¬ rdb s (Fd.tsqPlanSkip t) then s
  else match (loaded s t).find? fun p => p.2.isEnd with
    | some p => wr (wr s (Fd.tsqPlanRd t) (p.1 + 1)) (Fd.tsqPlanSkip t) 0
    | none => wr s (Fd.tsqPlanRd t) (rd s (Fd.tsqPlanWr t))

/-- TSQ_PLAN_WR_WRITE (R28, R29, R361): a write that only adds entries is taken. -/
def execTsqPlanWrWrite (t : Nat) (v : BitVec 32) (s : State) : Res :=
  if ¬ tileUp s t then ok s
  else
    let w := bits v.toNat 26 16
    let n := (w + 2048 - rd s (Fd.tsqPlanRd t)) % 2048
    if n < ringCount s t then ok (notice s (Fd.nTsqReject t))
    else
      let s := wr s (Fd.tsqPlanWr t) w
      ok (if ringKept s then s else skipEntries s t)

/-- Page of the unit of an entry whose ENABLE counts (R398). -/
def enablePage (t unit : Nat) : Option Nat :=
  match unit with
  | 0 => some (tilePage t 1) | 1 => some (tilePage t 2) | 2 => some (tilePage t 4) | 3 => some (tilePage t 6)
  | 4 => some (tilePage t 7) | 6 => some (tilePage t 8) | 7 => some (kilnPage (t / 16)) | 8 => some colPage | _ => none

/-- Descriptors issued to the kiln of die d that it has not yet read. -/
def kilnIssues (s : State) (d : Nat) : Nat :=
  ((List.range 16).map fun i => ((tile s (16 * d + i)).issued.filter fun j => j.unit == 7).length).sum
/-- The same for the COL. -/
def colIssues (s : State) : Nat := (s.tiles.map fun p => (p.2.issued.filter fun j => j.unit == 8).length).sum

/-- The first cycle at which a unit can accept a descriptor, or none while another has to move first (R86, R114, R124, R145, R165,
R223, R288, R398). Descriptors that the checks have turned away count until their records. A sweep waits for the readout two places ahead where the
sweep between hands over a bank as well, else for none (R86 leaves open what a sweep with READOUT = 0 between them does: the model's choice, log entry
23); a CPT operation always waits for it (R114). -/
def acceptFrom (s : State) (t unit desc : Nat) : Option Nat :=
  let x := tile s t
  let off := match enablePage t unit with | some pg => !fencedPage s pg && !rdb s (Fd.blkctlEnable pg) | none => false
  if off || (unit < 9 && x.issued.any fun i => i.unit == unit) then none
  else match unit with
    | 0 => if x.sweeps.length + inChecks s (mxaPage t) < 3 ∧ (x.sweeps.filter fun w => (sweepD w.desc).readout).length < 2 then some x.mxaFrom
      else none
    | 1 => if (runD (readBytes s (tileBase t + desc) 32)).blocked x then none else some 0
    | 2 => if x.applies.length + inChecks s (ftuPage t) < 2 then some x.ftuFrom else none
    | 3 => if (engine s (2 * t)).copies.length + inChecks s (engPage (2 * t)) < 2 then some 0 else none
    | 4 => if (engine s (2 * t + 1)).copies.length + inChecks s (engPage (2 * t + 1)) < 2 then some 0 else none
    | 6 =>
      if x.lookups.length + inChecks s (cptPage t) < 3 ∧ ¬ x.lookups.any (fun l => (lookD l.desc).readout && l.acc != x.cptLast) then some x.cptFrom
      else none
    | 7 => if (kiln s (t / 16)).jobs.length + inChecks s (kilnPage (t / 16)) + kilnIssues s (t / 16) < 8 then some (kiln s (t / 16)).nextAcc else none
    | 8 => if s.col.ops.length + colIssues s < 64 then some 0 else none
    | _ => some 0

/-- The unit of an entry is absent (1) or fenced (2), else 0 (R17, R348, R408). -/
def unitState (s : State) (t unit : Nat) : Nat :=
  if unit = 6 then (if ¬ capCpt s.variant t then 1 else if fencedCpt s t then 2 else 0)
  else if unit = 7 then (if ¬ capKiln s.variant (t / 16) then 1 else if fencedKiln s (t / 16) then 2 else 0)
  else if unit < 6 ∧ fencedTile s t then 2
  else 0

/-- The NOT_PRESENT record of an entry at cycle c: from the TSQ for an absent unit, by the unit's own queue, at cycle 10
like the unit's other check outcomes (log entry 17), for a fenced one (R408). -/
def notPresent (s : State) (t : Nat) (e : Entry) (c : Nat) : State :=
  if unitState s t e.unit = 1 then
    post s (prodTile t) (rd s Fd.trnCqQueue)
      { tag := e.tag, status := St.notPresent, kind := if e.unit = 6 then Sk.cpt else Sk.kln, idx := if e.unit = 6 then t else t / 16,
        cyc := c, detail := 0, flags := 0, count := 0 }
  else match unitPosting t e.unit e.tag St.notPresent c (c + 10) with
    | some p => postLater s p
    | none => s

/-- An entry that the TSQ turns away with BAD_DESC (R26). -/
def badEntry (s : State) (e : Entry) : Bool :=
  e.rsv || e.kind != 0 || decide (9 < e.unit ∨ e.desc % 32 ≠ 0 ∨ s.turn.guardAt ≤ s.turn.start + e.offset)

/-- The entry at the head of a tile's ring, as its slot holds it now (R28). -/
def headEntry (s : State) (t : Nat) : Entry := entryAt s t (rd s (Fd.tsqPlanRd t))

/-- The TSQ of a tile has an entry to act on. -/
def tsqRuns (s : State) (t : Nat) : Bool :=
  let x := tile s t
  x.running && !x.ended && x.switching.isNone && !s.turn.inGuard && ringCount s t != 0

/-- The clock cycle in which a tile's TSQ acts on the entry at the head of its ring, as things stand (R26): none while its unit has to move first. -/
def headDue (s : State) (t : Nat) : Option Nat :=
  if ¬ tsqRuns s t then none
  else
    let e := headEntry s t
    let c0 := max s.now (tile s t).nextIssue
    if e.isEnd ∨ badEntry s e then some c0
    else
      let a := if unitState s t e.unit ≠ 0 then some 0 else acceptFrom s t e.unit e.desc
      a.map (max (max c0 (s.turn.start + e.offset)))

/-- An ISSUE entry is issued in the present cycle, with the cycles that it is late (R26). The kiln takes one source in a cycle (R223). -/
def issueEntry (s : State) (t : Nat) (e : Entry) : State :=
  let c := s.now
  let absent := unitState s t e.unit != 0
  let s := if e.unit = 7 ∧ ¬ absent then setKiln s (t / 16) { kiln s (t / 16) with nextAcc := c + 1 } else s
  let s := bump (nextRd s t) (Fd.tsqLateCycles t) (c - (s.turn.start + e.offset))
  let s := updTile s t fun x => { x with nextIssue := c + 1 }
  if absent then notPresent s t e c
  else updTile s t fun x => { x with issued := x.issued ++ [{ unit := e.unit, desc := e.desc, tag := e.tag, cyc := c }] }

/-- The TSQ acts in the present cycle on the entry at the head of its ring. -/
def actHead (s : State) (t : Nat) : Res :=
  let e := headEntry s t
  if e.isEnd then ok (updTile (nextRd s t) t fun x => { x with ended := true })
  else if badEntry s e then ok (updTile (tsqRecord (nextRd s t) t e.tag St.badDesc s.now 0 0) t fun x => { x with nextIssue := s.now + 1 })
  else if e.unit = 7 ∧ unitState s t 7 = 0 ∧ ¬ kilnGrants s (t / 16) s.now (t % 16) then .fault .noOperation
  else ok (issueEntry s t e)

/-- PLAN_ENTRY_ISSUE (R25 to R28): the TSQ of a tile acts on the next entry of its ring, as the slot holds it in that cycle. -/
def execPlanEntryIssue (t : Nat) (s : State) : Res :=
  match driveDue false (fun s => headDue s t) (2 ^ 20) (settle s) with
  | none => .fault .noOperation
  | some s => if s.turn.guardAt ≤ s.now then .fault .noOperation else actHead s t

/-! Context switches (R35, R409 to R411). -/

/-- The context area of a program for a tile. -/
def ctxAt (s : State) (p t : Nat) : Nat := rd s Fd.trnCtxbaseBase * 0x10000 + (p * 64 + t) * 0x10000
/-- The area lies in HBM, on a present and unfenced stack. -/
def ctxOk (s : State) (a : Nat) : Bool := decide (a + 0x10000 ≤ hbmTop) && availStack s (a / 0xC00000000)

/-- The register files of a core as the image holds them. -/
def coreImage (k : Core) : List Byte :=
  ((List.range 32).flatMap fun i => leBytes 8 (k.rx i)) ++ ((List.range 32).flatMap fun i => leBytes 16 (k.rv i)) ++
    (List.range 8).flatMap fun i => leBytes 16 (k.rp i)

/-- TSQ_PLAN in its register layout. -/
def planWord (s : State) (t : Nat) : Nat :=
  rd s (Fd.tsqPlanSkip t) * 2 ^ 31 + rd s (Fd.tsqPlanWr t) * 2 ^ 16 + rd s (Fd.tsqPlanRd t)

/-- The image that a save writes (R409). The sequencer bytes 0x8004 to 0x8FFF are saved as last loaded, zeros before any load: how turns
change them the spec does not say (the model's choice, log entry 20). -/
def ctxImage (s : State) (t : Nat) : List Byte :=
  let st := (tile s t).seqState
  readBytes s (planBase t) 0x8000 ++ leBytes 4 (planWord s t) ++ (if st.isEmpty then List.replicate 0xFFC 0 else st) ++
    (List.range 32).flatMap fun c => coreImage (coreOf s t c)

/-- A core with its register files from an image. -/
def loadCore (k : Core) (l : List Byte) : Core :=
  let k := (List.range 32).foldl (fun k i => k.wx i (fieldLE l (8 * i) 8)) k
  let k := (List.range 32).foldl (fun k i => k.wv i (fieldLE l (256 + 16 * i) 16)) k
  (List.range 8).foldl (fun k i => k.wp i (fieldLE l (768 + 16 * i) 16)) k

/-- A load of an image (R409). -/
def loadCtx (s : State) (t prog : Nat) (l : List Byte) : State :=
  let s := { s with mem := memWrite s.mem (planBase t) (l.take 0x8000) }
  let w := fieldLE l 0x8000 4
  let s := wrs s [(Fd.tsqPlanSkip t, bits w 31 31), (Fd.tsqPlanWr t, bits w 26 16), (Fd.tsqPlanRd t, bits w 10 0), (Fd.tsqProgProg t, prog)]
  let s := updTile s t fun x => { x with seqState := (l.drop 0x8004).take 0xFFC }
  (List.range 32).foldl (fun s c => setCore s t c (loadCore (coreOf s t c) ((l.drop (0x9000 + 896 * c)).take 896))) s

/-- A stream of a switch, requested at offset 0 (R410): the save as side 0, the load as side 1. -/
def switchStream (s : State) (t side a : Nat) : List Share := sharesOf s 0 (2 * t) s.turn.start side ⟨a, 65536, 0, 0, 1⟩ 65536

/-- The cycle in which a switch to a program ends: after the load's last unit, at least offset 3,072 (R410). -/
def ctxSwitchEnd (s : State) (t prog : Nat) : Nat :=
  let l := streamTimes s (2 * t) (tile s t).switchShares 1 ⟨ctxAt s prog t, 65536, 0, 0, 1⟩ 65536
  max (l.foldl (fun m x => max m x.1) 0 + (tile s t).switchLag + 1) (s.turn.start + 3072)

/-- The bytes of a saved context cross from tile t's die to its stack's. -/
def carrySave (s : State) (t : Nat) (save : Option Nat) (c : Nat) : State × Nat :=
  match save with
  | some a => carry s (t / 16) (dieOf a) 0 65536 c
  | none => (s, 0)

/-- A switch starts, or is refused because an area cannot be reached (R35, R358, R411). -/
def startSwitch (s : State) (t prog : Nat) : State :=
  let first := s.boot.firstTurn.contains t
  let save := if first then none else some (ctxAt s (rd s (Fd.tsqProgProg t)) t)
  let load := ctxAt s prog t
  if ctxOk s load && (match save with | some a => ctxOk s a | none => true) then
    -- the streams cross to and from the stack's die from the end of slot 0 on (R14, R23)
    let c := s.turn.start + 128
    let k := (match save with | some a => switchStream s t 0 a | none => [])
    let l := switchStream s t 1 load
    let x := carrySave (requestShares (requestShares s (2 * t) k) (2 * t) l) t save c
    let y := carry x.1 (dieOf load) (t / 16) 0 65536 c
    updTile y.1 t fun v => { v with running := true, switching := some prog, switchShares := k ++ l, switchLag := max x.2 y.2 }
  else tsqRecord s t 0 St.badAddr s.now 0 0

/-- A switch ends: the outgoing context is saved and the incoming one loaded; with an empty ring or SKIP = 1 the tile is idle. -/
def endSwitch (s : State) (t : Nat) : State :=
  match (tile s t).switching with
  | none => s
  | some prog =>
    let c := ctxSwitchEnd s t prog
    let s := countStreams s (2 * t) (tile s t).switchShares c
    let s := if s.boot.firstTurn.contains t then s else store s (ctxAt s (rd s (Fd.tsqProgProg t)) t) (ctxImage s t)
    let s := loadCtx s t prog (readBytes s (ctxAt s prog t) 0x10000)
    let s := { s with boot := { s.boot with firstTurn := s.boot.firstTurn.filter fun x => x != t } }
    let runs := !rdb s (Fd.tsqPlanSkip t) && ringCount s t != 0
    updTile s t fun x => { x with switching := none, switchShares := [], switchLag := 0, nextIssue := c, running := runs }

/-- CONTEXT_SWITCH_END (R35, R410). -/
def execContextSwitchEnd (t : Nat) (s : State) : Res :=
  match driveDue false (fun s => (tile s t).switching.map (ctxSwitchEnd s t)) (2 ^ 20) s with
  | none => .fault .noOperation
  | some s => ok (endSwitch s t)

/-! The guard band (R29, R30, R32). -/

/-- Every entry before the reached END is finished by clock cycle c (R27, R30). -/
def planDone (s : State) (t c : Nat) : Bool :=
  let x := tile s t
  x.ended && x.sweeps.all (fun w => decide (w.due ≤ c)) && x.lookups.all (fun l => decide (l.due ≤ c)) && x.applies.all (fun a => decide (a.due ≤ c)) &&
    x.dispatches.isEmpty && !(x.issued.any fun i => i.unit < 7) &&
    !(s.soon.any fun p => p.stop.isSome && p.unit / 0x10000 == tilePage t 0 / 0x10000) &&
    [2 * t, 2 * t + 1].all fun e => (engine s e).copies.all fun y => y.prog.err.isSome || y.doneBy s e c

/-- Late cycles of the entry that waits at the head of the ring, up to the guard band (R26). -/
def headLate (s : State) (t : Nat) : Nat :=
  let e := headEntry s t
  if ringCount s t = 0 ∨ e.kind ≠ 0 ∨ (tile s t).ended then 0 else s.turn.guardAt - (s.turn.start + e.offset)

/-- TURN_OVERRUN of a tile at cycle c, and its ring (R29). -/
def overrun (s : State) (t c : Nat) : State :=
  let l := loaded s t
  let cut := l.takeWhile fun p => !p.2.isEnd
  let open_ := cut.filter fun p => p.2.kind == 0
  let first (d : Nat) : Nat := match open_.head? with | some p => p.1 | none => d
  let s := bump s (Fd.tsqLateCycles t) (headLate s t)
  let rec_ (s : State) (count detail : Nat) : State :=
    bump (notice (tsqRecord s t 0 St.turnOverrun c detail count) Fd.nTrnOverrun) (Fd.tsqOverrunsCount t) 1
  if (tile s t).ended then rec_ s 0 ((rd s (Fd.tsqPlanRd t) + 2047) % 2048)
  else match l[cut.length]? with
    | some p => rec_ (wr s (Fd.tsqPlanRd t) (p.1 + 1)) open_.length (first p.1)
    | none =>
      let w := rd s (Fd.tsqPlanWr t)
      rec_ (wrs s [(Fd.tsqPlanRd t, w), (Fd.tsqPlanSkip t, 1)]) open_.length (0x800 + first w)

/-- An END at the head of the ring is reached as soon as the TSQ may act. -/
def reachEnd (s : State) (t : Nat) : State :=
  let x := tile s t
  if x.running ∧ ¬ x.ended ∧ ringCount s t ≠ 0 ∧ x.nextIssue < s.turn.guardAt ∧ (headEntry s t).isEnd then
    updTile (nextRd s t) t fun x => { x with ended := true }
  else s

/-- One tile at the guard band: an unfinished plan overruns, and its operations stop. -/
def guardTile (c : Nat) (s : State) (t : Nat) : State :=
  let s := reachEnd (endSwitch s t) t
  let s := if (tile s t).running ∧ ¬ planDone s t c then overrun s t c else s
  stopPlan (abandonTile s t c) t

/-- The guard band of the present turn starts: plans and tile operations end, and the phase is corrected by at most 64 cc. -/
def guardBand (s : State) : State :=
  let c := max s.now s.turn.guardAt
  let s := settleTo s c
  let s := (s.tiles.map Prod.fst).foldl (guardTile c) s
  let lock := rd s Fd.trnStateLock
  let k : Int := if lock = 1 ∨ lock = 2 then max (-64) (min 64 s.turn.slew) else 0
  { s with turn := { s.turn with inGuard := true, guardAt := c, stop := max (c + 1) (((s.turn.stop : Int) + k).toNat), slew := s.turn.slew - k
                                 held := if lock = 3 then s.turn.held + 1 else s.turn.held } }

/-- GUARD_BAND_START (R29, R30, R32). -/
def execGuardBandStart (s : State) : Res :=
  if ¬ hubUp s ∨ s.turn.inGuard then .fault .noOperation else ok (guardBand s)

/-! Refresh slots (R22, R23). -/

/-- REFRESH_SLOT_START (R22): the next slot of the turn. -/
def execRefreshSlotStart (s : State) : Res :=
  let c := if slotEnd s s.now ≠ s.now then s.now else nextSlot s s.now
  if ¬ hubUp s ∨ s.turn.slotOpen ∨ s.turn.stop ≤ c then .fault .noOperation
  else
    let s := settleTo s c
    ok { s with turn := { s.turn with slotOpen := true } }

/-- REFRESH_SLOT_END (R22). -/
def execRefreshSlotEnd (s : State) : Res :=
  if ¬ s.turn.slotOpen then .fault .noOperation
  else
    let s := settleTo s (slotEnd s s.now)
    ok { s with turn := { s.turn with slotOpen := false } }

/-! Turn lock (R31 to R33). -/

/-- The body of a BEACON (R306). -/
def beaconBytes (turn units guard delay : Nat) : List Byte :=
  leBytes 2 0 ++ leBytes 6 turn ++ leBytes 4 (units % 2 ^ 20) ++ leBytes 4 (guard % 2 ^ 17) ++ leBytes 4 delay ++ leBytes 12 0

/-- The frit cell of a beacon for the neighbour at a port (R306): TYPE 8 on VC 1. Its DST is the neighbour's number, which no rule states: a beacon is
for every module that it reaches (the model's choice, log entry 15). -/
def beaconCell (s : State) (p turn units guard delay : Nat) : FabCell :=
  { mkCell s 8 (rd s (Fd.portStateNbrModno p)) 0 0 0 false 0 (beaconBytes turn units guard delay) with vc := 1 }

/-- A beacon is passed on (R31, R306): by the first UP port of every direction but that of the port it came by, with the hop's latency
added, and with no traversal of the hub. -/
def sendBeacon (s : State) (from_ : Option Nat) (turn units guard delay : Nat) : State :=
  let ports := (List.range 6).filterMap fun d => if from_.map (· / 2) = some d then none else [2 * d, 2 * d + 1].find? (portUp s)
  ports.foldl (fun s p => portTx s reqFrit p s.now (beaconCell s p turn units guard (delay + rd s (Fd.portStateLat p)))) s

/-- TRN_STATE.SKEW of a phase error. -/
def skewOf (e : Int) : Nat := ofSigned 16 (max (-32768) (min 32767 e))

/-- The first beacon on leaving FREE (R33): the turn in progress ends where the announced one starts. -/
def acquire (s : State) (turn units guard delay : Nat) : State :=
  let stop := s.now + units * 1024 - delay
  let g := if s.turn.inGuard then s.turn.guardAt else max s.now (stop - rd s Fd.trnCurGuard)
  let s := wrs s [(Fd.trnStateLock, 1), (Fd.trnStateRole, 2)]
  { s with turn := { s.turn with stop := max (s.now + 1) stop, len := max (s.now + 1) stop - s.turn.start, guardAt := g, nextNo := some turn, nextPar := some (units, guard), beaconIn := true } }

/-- A beacon in ACQUIRE, LOCKED or HOLDOVER (R32, R33): it sets what the next turn runs with, and the phase error. -/
def track (s : State) (turn units guard delay : Nat) : State :=
  let e : Int := ((s.now + 1024 * rd s Fd.trnCurUnits : Nat) : Int) - delay - s.turn.stop
  let lock := rd s Fd.trnStateLock
  let good := if -70 ≤ e ∧ e ≤ 70 then s.turn.good + 1 else 0
  let s := wr s Fd.trnStateSkew (skewOf e)
  let s := if lock = 2 then s
    else if lock = 1 ∧ 4 ≤ good then notice (wr s Fd.trnStateLock 2) Fd.nTrnLockAcquired
    else wr s Fd.trnStateLock 1
  { s with turn := { s.turn with nextNo := some turn, nextPar := some (units, guard), beaconIn := true, good := good, held := 0, lost := false, slew := e } }

/-- A beacon's length and guard band are valid (R19, R20). -/
def parOk (units guard : Nat) : Bool :=
  decide (16 ≤ units ∧ units ≤ 524288 ∧ guard % 256 = 0 ∧ 1024 ≤ guard ∧ guard ≤ 65536 ∧ 2 * guard ≤ units * 1024)

/-- BEACON (R31 to R33, R260, R306): counted, and refused by an origin; the first one of a turn is passed on and followed. After SOLO the TRN
stays FREE (R343). By a port that is not UP none comes. -/
def execBeacon (port turn units guard delay : Nat) (s : State) : Res :=
  if 12 ≤ port then .fault .noSuchUnit
  else if ¬ portUp s port ∨ s.boot.p3 then ok s
  else
    let s := bump s Fd.fritBeaconsCount 1
    if fencedPage s fritPage ∨ ¬ parOk units guard ∨ s.now + units * 1024 < delay then ok (fritDrop s)
    else if s.fma.origin then ok (portDown (notice s Fd.nFrtOriginConflict) port)
    else if s.turn.beaconIn then ok s
    else
      let s := sendBeacon s (some port) turn units guard delay
      ok (if rdb s Fd.moduleBootCtlSolo then { s with turn := { s.turn with beaconIn := true } }
        else if rd s Fd.trnStateLock = 0 then acquire s turn units guard delay else track s turn units guard delay)

/-- No beacon for one turn (R33). -/
def enterHoldover (s : State) : State :=
  let s := wr s Fd.trnStateLock 3
  { s with turn := { s.turn with good := 0, held := 0, lost := false, slew := 0 } }

/-- HOLDOVER_ENTRY (R33): the guard band finds a turn without a beacon. -/
def execHoldoverEntry (s : State) : Res :=
  let lock := rd s Fd.trnStateLock
  if (lock ≠ 1 ∧ lock ≠ 2) ∨ s.turn.beaconIn ∨ ¬ s.turn.inGuard then .fault .noOperation else ok (enterHoldover s)

/-- LOCK_LOST (R33): the groups treat the module as having missed its deadline. -/
def execLockLost (s : State) : Res :=
  if rd s Fd.trnStateLock ≠ 3 ∨ s.turn.lost ∨ s.turn.held < rd s Fd.trnHoldTurns then .fault .noOperation
  else
    let s := notice s Fd.nTrnLockLost
    let due (o : COp) : COp := { o with dl := some (min s.now (o.dl.getD s.now)) }
    ok { s with turn := { s.turn with lost := true }, col := { s.col with ops := s.col.ops.map due } }

/-! Registers of the TRN and of the step words (R19 to R21, R34 to R37, R193, R411). -/

/-- A follower's length, guard band and apply writes are rejected (R21). -/
def follower (s : State) : Bool := rd s Fd.trnStateRole == 2

/-- TRN_LEN_WRITE (R19, R20). -/
def execTrnLenWrite (v : BitVec 32) (s : State) : Res :=
  let n := bits v.toNat 19 0
  if ¬ hubUp s then ok s
  else if follower s ∨ n < 16 ∨ 524288 < n ∨ n * 1024 < 2 * rd s Fd.trnGuardCc then ok (rejectTrn s)
  else ok (wr s Fd.trnLenUnits n)

/-- TRN_GUARD_WRITE (R20). -/
def execTrnGuardWrite (v : BitVec 32) (s : State) : Res :=
  let n := bits v.toNat 16 0
  if ¬ hubUp s then ok s
  else if follower s ∨ ¬ parOk (rd s Fd.trnLenUnits) n then ok (rejectTrn s)
  else ok (wr s Fd.trnGuardCc n)

/-- TRN_APPLY_WRITE (R21). -/
def execTrnApplyWrite (v : BitVec 64) (s : State) : Res :=
  let n := bits v.toNat 47 0
  if ¬ hubUp s then ok s
  else if follower s ∨ n < turnNo s + 2 then ok (rejectTrn s)
  else
    let s := wr s Fd.trnApplyTurn n
    ok { s with turn := { s.turn with arm := some n } }

/-- TRN_CTXBASE_WRITE (R411). -/
def execTrnCtxbaseWrite (v : BitVec 64) (s : State) : Res :=
  let n := bits v.toNat 39 16
  if ¬ hubUp s then ok s
  else if hbmTop < n * 0x10000 + 0x2000000 then ok (rejectTrn s)
  else ok (wr s Fd.trnCtxbaseBase n)

/-- TRN_WHEEL_WRITE (R17, R37): an entry that names an absent tile is rejected. -/
def execTrnWheelWrite (i : Nat) (v : BitVec 128) (s : State) : Res :=
  if 64 ≤ i then .fault .noSuchUnit
  else if ¬ hubUp s then ok s
  else
    let n := v.toNat
    if (List.range 64).any fun t => (bits n 63 0).testBit t && !capTile s.variant t then ok (rejectTrn s)
    else
      -- it holds from a turn that starts at least one turn later
      let h := (i, if offset s = 0 then 1 else 2, rd s (Fd.trnWheelProg i), rd s (Fd.trnWheelTiles i))
      let s := wrs s [(Fd.trnWheelProg i, bits n 66 64), (Fd.trnWheelTiles i, bits n 63 0)]
      ok { s with turn := { s.turn with wheelHold := s.turn.wheelHold ++ [h] } }

/-- TRN_WHEEL_CTL_WRITE (R37): LEN reads back at once and holds from the second turn after the write. -/
def execTrnWheelCtlWrite (v : BitVec 32) (s : State) : Res :=
  let n := bits v.toNat 6 0
  if ¬ hubUp s then ok s
  else if 64 < n then ok (rejectTrn s)
  else
    let s := wr s Fd.trnWheelCtlLen n
    ok { s with turn := { s.turn with wheelNext := s.turn.wheelNext ++ [(2, n)] } }

/-- Bit p of an 8-bit status field set. -/
def setStep (s : State) (f : Fld) (p : Nat) : State := wr s f (rd s f ||| 2 ^ p)

/-- MODULE_STEP_APPLY_WRITE (R193). -/
def execModuleStepApplyWrite (p : Nat) (v : BitVec 64) (s : State) : Res :=
  let n := bits v.toNat 47 0
  if 8 ≤ p then .fault .noSuchUnit
  else if ¬ hubUp s then ok s
  else if n < turnNo s + 2 then ok (setStep s Fd.moduleStepStsReject p)
  else ok (wrs s [(Fd.moduleStepApplyTurn p, n), (Fd.moduleStepApplyArmed p, 1)])

/-! The turn start. -/

/-- The step word of a program at the start of turn n (R193, R194): a resynchronisation wins over a staged value. -/
def stepTurn (n : Nat) (s : State) (p : Nat) : State :=
  let armed : Bool := rdb s (Fd.moduleStepApplyArmed p) && rd s (Fd.moduleStepApplyTurn p) == n
  match s.turn.resync.find? fun r => r.1 == p with
  | some r =>
    let s := bump (setStep (wr s (Fd.moduleStepStep p) r.2) Fd.moduleStepStsResync p) Fd.moduleStepResyncsCount 1
    if armed then setStep (wr s (Fd.moduleStepApplyArmed p) 0) Fd.moduleStepStsDropped p else s
  | none =>
    if armed then wrs s [(Fd.moduleStepStep p, rd s (Fd.moduleStepNextStep p)), (Fd.moduleStepApplyArmed p, 0)] else s

def stepsTurn (s : State) (n : Nat) : State :=
  let s := (List.range 8).foldl (stepTurn n) s
  { s with turn := { s.turn with resync := [] } }

/-- Length and guard band of turn n (R21, R31): from the beacon for a follower, else staged values whose arm names the turn. -/
def applyLength (s : State) (n : Nat) : State :=
  let set (s : State) (u g : Nat) : State := wrs s [(Fd.trnCurUnits, u), (Fd.trnCurGuard, g)]
  let s := if ¬ follower s ∧ s.turn.arm = some n then
      let s := set s (rd s Fd.trnLenUnits) (rd s Fd.trnGuardCc)
      { s with turn := { s.turn with arm := none } }
    else s
  match s.turn.nextPar with
  | some p => set s p.1 p.2
  | none => s

/-- The timer of turn n, which starts at cycle c. -/
def startTimer (s : State) (n c : Nat) : State :=
  let s := applyLength (wr (advance (keepSpans s) c) Fd.trnTurnNoTurn n) n
  let len := 1024 * rd s Fd.trnCurUnits
  { s with turn := { s.turn with start := c, len := len, stop := c + len, guardAt := c + len - rd s Fd.trnCurGuard, inGuard := false, nextNo := none,
                                 nextPar := none, beaconIn := false, slotOpen := false } }

/-- A turn that ends without a beacon leaves HOLDOVER, where HOLDOVER_ENTRY has not said so in its guard band (R33). -/
def holdTurn (s : State) : State :=
  let lock := rd s Fd.trnStateLock
  if (lock = 1 ∨ lock = 2) ∧ ¬ s.turn.beaconIn then enterHoldover s else s

/-- The wheel of turn n: LEN in force, program and tile set (R34, R37). Of an entry the value in force is that which the oldest write still
to come will replace, else what the register shows. -/
def wheelTurn (s : State) (n : Nat) : State :=
  let next := s.turn.wheelNext.map fun p => (p.1 - 1, p.2)
  let len := next.foldl (fun l p => if p.1 = 0 then p.2 else l) s.turn.wheelLen
  let hold := (s.turn.wheelHold.map fun h => (h.1, h.2.1 - 1, h.2.2)).filter fun h => h.2.1 != 0
  let i := n % len
  let e := match hold.find? fun h => h.1 == i with
    | some h => h.2.2
    | none => (rd s (Fd.trnWheelProg i), rd s (Fd.trnWheelTiles i))
  { s with turn := { s.turn with
      wheelLen := len, wheelNext := next.filter fun p => p.1 != 0, wheelHold := hold
      prog := if len = 0 then 0 else e.1, tiles := if len = 0 then 2 ^ 64 - 1 else e.2 } }

/-- The copies of a hub engine that touch this module's memory stop at clock cycle c with a status. -/
def stopOwn (c status : Nat) (s : State) (e : Nat) : State :=
  ((engine s e).copies.filter fun x => (x.d.hasSrc && !x.srcRemote s) || (x.d.hasDst && !x.dstRemote s)).foldl (haltCopy c status e) s

/-- A class K reset starts at cycle c (R242, R355 to R357, R363, R364): kilns stop, accesses under way end with DROPPED, the tiles and
kilns return to reset with their memories zero. A collective or frit operation touches the module's memory, its header at least; of the copies of
the hub engines those that touch only other modules go on. A narrower reset under way is taken over. -/
def startK (s : State) (c : Nat) : State :=
  let took := !s.boot.tRun.isEmpty || s.boot.testing.any fun pg => decide (0x100000 ≤ pg)
  let s := ([0, 1, 2, 3].filter (capKiln s.variant)).foldl (fun s k => fenceWork s (.kln k) c) s
  let s := ((List.range 64).filter (capTile s.variant)).foldl (fun s t => stopPlan (abandonTile s t c) t) s
  let s := [128, 129, 130, 131].foldl (stopOwn c St.dropped) s
  let s := s.col.ops.foldl (fun s o => if o.d.frit then endOp s o St.dropped else failOp s o St.dropped []) s
  let s := computeReset s
  let s := if took then wr s Fd.moduleResetsT 1 else s
  let s := wrs s [(Fd.moduleResetK, 0), (Fd.moduleResetKbusy, 1)]
  { s with boot := { s.boot with kRun := some (c + 43750000), testReq := [], testing := s.boot.testing.filter fun pg => decide (pg < 0x80000)
                                 returning := (s.boot.testReq ++ s.boot.testing.filter fun pg => decide (0x80000 ≤ pg)).foldl insertNat s.boot.returning } }

/-- A plain class T reset of a tile starts at cycle c. -/
def startT (c : Nat) (s : State) (t : Nat) : State :=
  let s := resetTile (abandonTile s t c) t
  { s with boot := { s.boot with tRun := s.boot.tRun ++ [(t, c + 4096)], firstTurn := insertNat s.boot.firstTurn t } }

/-- A test of a fenced tile or CPT starts (R350, R355). -/
def startTest (s : State) (pg : Nat) : State :=
  match scopeBlock pg with
  | .cpt t => updTile (dropFiles (resetRegs s fun a => decide (tilePage t 8 ≤ a ∧ a < tilePage t 9)) t) t fun x => { x with fileSel := 0 }
  | .tsq t => wipeTile (resetTile s t) t
  | _ => s

/-- Fences and resets that take effect at a turn start at cycle c (R346 to R348, R350, R355): a fence that would now leave the module below the
minimum service set is not taken; a tile, CPT or kiln returns after a class K reset. -/
def resetsTurn (s : State) (c : Nat) : State :=
  let s := (s.boot.returning.filter fun pg => s.boot.kRun.isNone || decide (pg < 0x80000)).foldl liftFence s
  let s := s.boot.fenceReq.foldl (fun s pg => if serviceWith s [pg] then fenceNow s pg 0 else notice s Fd.nModuleReject) s
  let s := { s with boot := { s.boot with fenceReq := [] } }
  if rdb s Fd.moduleResetK then startK s c
  else
    let s := s.boot.tReq.foldl (startT c) { s with boot := { s.boot with tReq := [] } }
    let s := s.boot.testReq.foldl startTest s
    { s with boot := { s.boot with testing := s.boot.testReq.foldl insertNat s.boot.testing, testReq := [] } }

/-- Entry to P2 at cycle c (R362): what touches the module's memories ends with ABANDONED. -/
def enterP2 (s : State) (c : Nat) : State :=
  let s := ([0, 1, 2, 3].filter (capKiln s.variant)).foldl (fun s k => fenceWork s (.kln k) c) s
  let s := ((List.range 64).filter (capTile s.variant)).foldl (fun s t => stopPlan (abandonTile s t c) t) s
  let s := [128, 129, 130, 131].foldl (stopOwn c St.abandoned) s
  let s := s.col.ops.foldl (fun s o => endOp s o St.abandoned) s
  let s := (s.fma.pend.filter fun p => p.kind == 2).foldl (fun s p => endRequest s p St.abandoned 0) s
  let s := match s.fma.aqWait with
    | some w => postNow { s with fma := { s.fma with aqWait := none } } (faddPosting (fieldLE w.1 24 4) w.2.1 St.abandoned c 0 0)
    | none => s
  { s with boot := { s.boot with moving := some 2, movedAt := c } }

/-- Entry to P3 at cycle c (R356, R360): only the MMC and the SEC keep their rails; every port is DOWN. READY reads 0 from here on (the model's choice,
log entry 21). -/
def enterP3 (s : State) (c : Nat) : State :=
  let s := linkDown (unitsOff (endUpdate s))
  let s := (List.range 12).foldl (fun s p => wr s (Fd.portStateState p) 0) s
  let s := wrs s [(Fd.moduleStateReady, 0), (Fd.modulePwrBusy, 1)]
  { s with boot := { bootFrom s.boot [0, 1, 2] with p3 := true, moving := some 3, movedAt := c } }

/-- A test of a tile or a CPT is under way. -/
def testingTile (s : State) : Bool := s.boot.testing.any fun pg => decide (0x100000 ≤ pg)

/-- An armed power transition at the start of turn n, which starts at cycle c (R360, R363). -/
def powerTurn (s : State) (n c : Nat) : State :=
  if ¬ rdb s Fd.modulePwrArmed ∨ n < rd s Fd.modulePwrTurn ∨ s.boot.kRun.isSome ∨ ¬ s.boot.tRun.isEmpty ∨ testingTile s ∨
      s.boot.moving.isSome then s
  else
    let st := rd s Fd.modulePwrState
    let dest := rd s Fd.modulePwrTarget
    let s := wr s Fd.modulePwrArmed 0
    if dest = st then s
    else if dest = 3 then enterP3 s c
    else if dest = 2 then enterP2 (wr s Fd.modulePwrBusy 1) c
    else if st = 2 then
      let s := wr s Fd.modulePwrBusy 1
      { s with boot := { s.boot with moving := some dest, movedAt := c } }
    else wr s Fd.modulePwrState dest

/-- A committed update switches at its turn, or at the first turn start after a reset or transition that spans it (R376, R378). -/
def firmwareTurn (s : State) (n : Nat) : State :=
  if s.sec.phase = 4 ∧ s.sec.turn ≤ n ∧ ¬ s.sec.switched ∧ ¬ heldUp s then beginSwitch s else s

/-- The tile can serve in this turn: present, unfenced, and in no reset. -/
def serves (s : State) (t : Nat) : Bool :=
  availTile s t && stageEnded s 6 && s.boot.kRun.isNone && !inP2 s && !s.boot.p3 && !(s.boot.tRun.any fun p => p.1 == t)

/-- The tile runs its program in this turn (R34, R361, R386). -/
def active (s : State) (t : Nat) : Bool :=
  serves s t && s.turn.tiles.testBit t && rd s Fd.modulePwrState == 0 && !s.turn.throttle

/-- The step mirror (R196). -/
def writeMirror (s : State) (t prog : Nat) : State :=
  let l := leBytes 4 (rd s (Fd.moduleStepStep prog)) ++ leBytes 4 (turnNo s) ++ leBytes 4 prog ++ List.replicate 52 0
  { s with mem := memWrite s.mem (tileBase t + 0x93FFC0) l }

/-- A tile's plan starts: a switch where its program differs, else the plan when its ring holds one (R27, R29, R35, R358). Entries loaded with SKIP = 1
while the tile was idle under R361 are discarded by now (the model's choice, log entry 20). -/
def startPlan (s : State) (t : Nat) : State :=
  let first := s.boot.firstTurn.contains t
  if ¬ active s t then s
  else if (first ∧ s.turn.wheelLen ≠ 0) ∨ (¬ first ∧ s.turn.prog ≠ rd s (Fd.tsqProgProg t)) then startSwitch s t s.turn.prog
  else
    let s := skipEntries { s with boot := { s.boot with firstTurn := s.boot.firstTurn.filter fun x => x != t } } t
    let runs := !rdb s (Fd.tsqPlanSkip t) && ringCount s t != 0
    updTile s t fun x => { x with running := runs }

/-- One tile at a turn start: held banks and files go (R83, R111), the plan starts, the mirror is written, and the brick index restarts
when the STEP of its program changed (R214). -/
def tileTurn (s : State) (t : Nat) : State :=
  let s := dropFiles (dropBanks s t) t
  let s := updTile s t fun x => { x with running := false, ended := false, switching := none, switchShares := [], switchLag := 0, nextIssue := s.turn.start }
  let s := startPlan s t
  let prog := if active s t ∧ ((tile s t).running ∨ (tile s t).switching.isSome) then s.turn.prog else rd s (Fd.tsqProgProg t)
  let step := rd s (Fd.moduleStepStep prog)
  let s := updTile s t fun x => { x with brickIdx := if x.lastStep = step then x.brickIdx else 0, lastStep := step }
  if serves s t then writeMirror s t prog else s

/-- The origin's beacon for the next turn (R31, R343), by its ports that are UP. -/
def originBeacon (s : State) (n : Nat) : State :=
  if ¬ s.fma.origin then s
  else
    let m := (n + 1) % 2 ^ 48
    let p := if s.turn.arm = some m then (rd s Fd.trnLenUnits, rd s Fd.trnGuardCc) else (rd s Fd.trnCurUnits, rd s Fd.trnCurGuard)
    sendBeacon s none m p.1 p.2 0

/-- TURN_START (R24): at the end of the turn timer the next turn begins. -/
def execTurnStart (s : State) : Res :=
  if ¬ hubUp s then .fault .noOperation
  else
    let s := if s.turn.inGuard then s else guardBand s
    let c := s.turn.stop
    let old := s.turn
    let n := old.nextNo.getD ((turnNo s + 1) % 2 ^ 48)
    let s := settleTo s c
    let s := startTimer (kilnTurn (holdTurn s) old.start old.stop) n c
    let s := powerTurn (resetsTurn s c) n c
    if s.boot.p3 then ok s
    else
      let s := throttleTurn (stepsTurn (wheelTurn s n) n) n
      let s := colTurn (firmwareTurn s n) n old.start old.stop
      let s := ((List.range 64).filter (capTile s.variant)).foldl tileTurn s
      ok (originBeacon s n)

/-- T_RESET_END (R196, R355): 4,096 cc after its start; the mirror follows. -/
def execTResetEnd (t : Nat) (s : State) : Res :=
  match s.boot.tRun.find? fun p => p.1 == t with
  | none => .fault .noOperation
  | some p =>
    let s := wr (settleTo s p.2) Fd.moduleResetsT 1
    let s := { s with boot := { s.boot with tRun := s.boot.tRun.filter fun q => q.1 != t } }
    ok (if serves s t then writeMirror s t (rd s (Fd.tsqProgProg t)) else s)

end Sys2Proof.Machine
end

