-- ==== Sys2Proof/Machine/RegWrite.lean ====
section
/-! DEFINITION. BLOCK_ENABLE_WRITE and REGISTER_WRITE: the pages of BAR0 and what a write does to their registers (21_register_pages.md, R7, R8,
R314, R396 to R399, R405). A write goes to every register it overlaps, at its lowest address first. -/

namespace Sys2Proof.Machine

/-! Pages (R395). -/

/-- The block whose page with a common header starts at p. -/
def pageBlock (p : Nat) : Option Block :=
  if 0x100000 ≤ p ∧ p < 0x500000 then
    let t := (p - 0x100000) / 0x10000
    match p / 0x1000 % 16 with
    | 0 => some (.tsq t) | 1 => some (.mxa t) | 2 => some (.grn t) | 3 => some (.opc t) | 4 => some (.ftu t) | 5 => some (.sieve t)
    | 6 => some (.pce t 0) | 7 => some (.pce t 1) | 8 => some (.cpt t) | 9 => some (.mrv t) | _ => none
  else if 0x80000 ≤ p ∧ p < 0x90000 then if p % 0x4000 = 0 then some (.kln ((p - 0x80000) / 0x4000)) else none
  else if 0x70000 ≤ p ∧ p < 0x74000 then some (.nwu ((p - 0x70000) / 0x1000))
  else if 0x60000 ≤ p ∧ p < 0x70000 then some (.mem ((p - 0x60000) / 0x1000))
  else if 0x10000 ≤ p ∧ p < 0x1C000 then some (.port ((p - 0x10000) / 0x1000))
  else match p with
    | 0 => some .module | 0x1000 => some .trn | 0x2000 => some .fma | 0x3000 => some .frt | 0x20000 => some .col | 0x21000 => some .frit
    | 0x30000 => some .qmu | 0x50000 => some .hif | 0x800000 => some .dbg | 0xF00000 => some .mmc | 0xF10000 => some .sec | _ => none

/-- The registers of a block's page beyond the common header. -/
def blockRows : Block → List RRow
  | .module => RegRows.module | .trn => RegRows.trn | .fma => RegRows.fma | .frt => RegRows.frt | .port _ => RegRows.port
  | .col => RegRows.col | .frit => RegRows.frit | .qmu => RegRows.qmu | .hif => RegRows.hif | .mem _ => RegRows.mem
  | .nwu _ => RegRows.nwu | .kln _ => RegRows.kln | .tsq _ => RegRows.tsq | .mxa _ => RegRows.mxa | .grn _ => RegRows.grn
  | .ftu _ => RegRows.ftu | .sieve _ => RegRows.sieve | .pce _ _ => RegRows.pce | .cpt _ => RegRows.cpt | .mrv _ => RegRows.mrv
  | .dbg => RegRows.dbg | .mmc => RegRows.mmc | .sec => RegRows.sec | .opc _ | .die _ => []

/-! ENABLE (R398). -/

/-- The pages on which ENABLE acts. -/
def hasEnable : Block → Bool
  | .mxa _ | .grn _ | .ftu _ | .pce _ _ | .cpt _ | .kln _ | .col => true
  | _ => false

/-- ENABLE of a page set: it takes effect in the next cycle. -/
def setEnable (s : State) (b : Block) (on : Bool) : State :=
  if hasEnable b ∧ blockUp s b then settleTo (wr s (Fd.blkctlEnable (blockPage b)) (b2n on)) (s.now + 1) else s

/-- BLOCK_ENABLE_WRITE: page is the base address of a page. -/
def execBlockEnableWrite (page : Nat) (on : Bool) (s : State) : Res :=
  match pageBlock page with
  | some b => ok (setEnable s b on)
  | none => ok s

/-! A write of one register. -/

/-- A command's effect as part of a write: a stop cannot come from here, since the register exists. -/
def effect (s : State) (r : Res) : State := match r with | .next t => t | _ => s

/-- A write as one register sees it: the written bits, their values, and the whole value with the RW bits that were not written as
they stand and all others 0 (R314). -/
structure RegW where
  mask : Nat
  bits : Nat
  whole : Nat
  deriving DecidableEq, Repr

def RField.fld (f : RField) (a : Nat) : Fld := ⟨a, f.lo, f.hi - f.lo + 1, f.rst⟩
def RField.mask (f : RField) : Nat := 2 ^ (f.hi + 1) - 2 ^ f.lo

/-- The field of a register at address a in this module: the reset value of MMC_PLIMIT.LIMIT is the TDP of the variant (R394). -/
def fieldAt (s : State) (a : Nat) (f : RField) : Fld :=
  if a = 0xF00048 ∧ f.lo = 0 then Fd.mmcPlimitLimit s.variant else f.fld a

/-- The register r at address a sees a write of size bytes of v at address w. -/
def regW (s : State) (r : RRow) (a w size v : Nat) : RegW :=
  let m := if a ≤ w then (2 ^ (8 * size) - 1) * 2 ^ (8 * (w - a)) else (2 ^ (8 * size) - 1) / 2 ^ (8 * (a - w))
  let n := if a ≤ w then v % 2 ^ (8 * size) * 2 ^ (8 * (w - a)) else v % 2 ^ (8 * size) / 2 ^ (8 * (a - w))
  let m := m % 2 ^ r.width
  let n := n % 2 ^ r.width
  let keep := (r.fields.filter fun f => f.acc == .rw).foldl
    (fun k f => k ||| (rd s (fieldAt s a f) * 2 ^ f.lo &&& (2 ^ r.width - 1 - m))) 0
  { mask := m, bits := n, whole := n ||| keep }

/-- A field by its access code (R7); W1S and WO fields act through writeSpecial. -/
def writeField (a : Nat) (x : RegW) (s : State) (f : RField) : State :=
  match f.acc with
  | .rw => wr s (f.fld a) (bits x.whole f.hi f.lo)
  | .w1c => wr s (f.fld a) (bits (rd s (f.fld a) * 2 ^ f.lo &&& (2 ^ (f.hi + 1) - 1 - (x.bits &&& f.mask))) f.hi f.lo)
  | .ro | .w1s | .wo => s

/-- A register without an action of its own: any write clears a counter whole (R405). -/
def writePlain (s : State) (r : RRow) (a : Nat) (x : RegW) : State :=
  if r.counter then r.fields.foldl (fun s f => wr s (f.fld a) 0) s else r.fields.foldl (writeField a x) s

/-- BLKCTL (R397): the bits that the write covers. -/
def writeBlkctl (s : State) (b : Block) (x : RegW) : State :=
  let s := if x.mask.testBit 0 ∧ hasEnable b ∧ rdb s (Fd.blkctlEnable (blockPage b)) ≠ x.bits.testBit 0 then
    setEnable s b (x.bits.testBit 0) else s
  let s := if ¬ x.mask.testBit 1 then s
    else effect s (if x.bits.testBit 1 then execFenceRequest b s else execUnfence b s)
  if ¬ x.bits.testBit 31 then s
  else match b with
    | .port p => effect s (execPortSoftReset p s)
    | .kln k => effect s (execKilnSoftReset k s)
    | .cpt t => effect s (execTResetRequest t s)
    | b => match blockTile b with | some t => effect s (execTResetRequest t s) | none => s

/-- A 32-bit value that may not be 0: a write of 0 is ignored with a notice. -/
def writeNonzero (s : State) (f n : Fld) (v : Nat) : State := if v % 2 ^ f.wid = 0 then notice s n else wr s f v

/-- MODULE_BOOT_CTL (R353): with FAB_TO = 0 the write is ignored. -/
def writeBootCtl (s : State) (x : RegW) : State :=
  if bits x.whole 15 8 = 0 then notice s Fd.nModuleReject
  else
    let s := wr s Fd.moduleBootCtlFabTo (bits x.whole 15 8)
    let s := if bit x.bits 31 then effect s (execFabricGo s) else s
    if bit x.bits 30 then effect s (execSolo s) else s

/-- HIF_RING_CTL (R321, R326): DIR keeps its value while EN = 1; with LOG2 out of range the write is ignored. -/
def writeRingCtl (s : State) (n v : Nat) : State :=
  if bits v 28 24 < 4 ∨ 15 < bits v 28 24 then notice s Fd.nHifReject
  else
    let s := if rdb s (Fd.hifRingCtlEn n) then s else wr s (Fd.hifRingCtlDir n) (bits v 30 30)
    wrs s [(Fd.hifRingCtlEn n, bits v 31 31), (Fd.hifRingCtlArm n, bits v 29 29), (Fd.hifRingCtlLog2 n, bits v 28 24),
      (Fd.hifRingCtlQueue n, bits v 23 12), (Fd.hifRingCtlVec n, bits v 10 0)]

/-- FRT_EXT (R281, R343): read-only except on the origin; ignored with an extent out of range. After FABRIC_GO the extents in force stay until a port
trains. -/
def writeExt (s : State) (v : Nat) : State :=
  let z := bits v 22 16
  let y := bits v 11 8
  let x := bits v 3 0
  if ¬ rdb s Fd.frtDomainOrigin then s
  else if z = 0 ∨ 64 < z ∨ y = 0 ∨ 8 < y ∨ x = 0 ∨ 8 < x then notice s Fd.nFrtReject
  else
    let s := if rdb s Fd.moduleBootCtlFabricGo then { s with fma := { s.fma with extOld := some (extents s) } } else s
    wrs s [(Fd.frtExtZext, z), (Fd.frtExtYext, y), (Fd.frtExtXext, x)]

/-- MMC_PLIMIT (R394). -/
def writePlimit (s : State) (v : Nat) : State :=
  let l := bits v 15 0
  if bits v 23 16 = 0 ∨ l < 500 ∨ tdp s.variant < l then mmcNotice s Fd.nMmcReject true
  else wrs s [(Fd.mmcPlimitWin, bits v 23 16), (Fd.mmcPlimitLimit s.variant, l)]

/-- QMU_QCMD (R336). -/
def writeQcmd (s : State) (v : Nat) : State :=
  match bits v 19 16 with
  | 1 => effect s (execQDrop (bits v 11 0) s)
  | 2 => effect s (execQFlush (bits v 11 0) s)
  | _ => notice s Fd.nQmuReject

/-- A register with an action or a check of its own, by its block, offset and index; none for every other one. -/
def writeSpecial (s : State) (b : Block) (off i : Nat) (x : RegW) : Option State :=
  let v := x.whole
  let v32 := BitVec.ofNat 32 v
  let v64 := BitVec.ofNat 64 v
  match b with
  | .module => match off with
    | 0x140 => some (effect s (execModuleStepApplyWrite i v64 s))
    | 0x1C4 => some (writeBootCtl s x)
    | 0x240 => some (if bit x.bits 0 then effect s (execKResetRequest s) else s)
    | 0x248 => some (effect s (execModulePwrWrite v64 s))
    | _ => none
  | .trn => match off with
    | 0x44 => some (effect s (execTrnLenWrite v32 s))
    | 0x48 => some (effect s (execTrnGuardWrite v32 s))
    | 0x50 => some (effect s (execTrnApplyWrite v64 s))
    | 0x70 => some (if bits v 15 8 = 0 then rejectTrn s else wr s Fd.trnHoldTurns (bits v 15 8))
    | 0x78 => some (effect s (execTrnWheelCtlWrite v32 s))
    | 0x80 => some (effect s (execTrnCtxbaseWrite v64 s))
    | 0x100 => some (effect s (execTrnWheelWrite i (BitVec.ofNat 128 v) s))
    | _ => none
  | .tsq t => if off = 0x40 then some (effect s (execTsqPlanWrWrite t v32 s)) else none
  | .sieve t => match off with
    | 0x44 => some (effect s (execSieveCtlWrite t v32 s))
    | 0x48 => some (effect s (execSieveTselWrite t v32 s))
    | 0x4C => some (if bits x.bits 2 0 = 0 then s else effect s (tagCommand t (bits x.bits 2 0) s))
    | _ => none
  | .nwu d => if off = 0x40 then some (effect s (execNwuCtlWrite d v32 s)) else none
  | .kln k => if off = 0x68 then some (effect s (execKlnRdyclrWrite k v32 s)) else none
  | .frt => if off = 0x44 then some (writeExt s v) else none
  | .fma => match off with
    | 0x68 => some (writeNonzero s Fd.fmaAckToCycles Fd.nFmaReject v)
    | 0x6C => some (writeNonzero s Fd.fmaGapToCycles Fd.nFmaReject v)
    | _ => none
  | .col => match off with
    | 0x58 => some (effect s (execColGcmdWrite v64 s))
    | 0x60 => some (effect s (execColPoolWrite v64 s))
    | 0x7C => some (writeNonzero s Fd.colOptoCycles Fd.nColReject v)
    | 0x80 => some (wr { s with col := { s.col with cleared := s.now } } Fd.colAdmwaitCount 0)
    | _ => none
  | .qmu => match off with
    | 0x44 => some (writeQcmd s v)
    | _ => none
  | .hif => match off with
    | 0x50 => some (wrs s ((Fd.hifCtlNvec, bits v 10 0) :: if bit x.bits 31 then [(Fd.hifCtlNarm, 1)] else []))
    | 0x54 => some (writeNonzero s Fd.hifBiToCycles Fd.nHifReject v)
    | 0x100 => some (writeRingCtl s i v)
    | 0x110 => some (writeHead s i v)
    | 0x114 => some (writeTail s i v)
    | _ => none
  | .mmc => if off = 0x48 then some (writePlimit s v) else none
  | .sec => if off = 0x40 ∧ bit x.mask 0 then some (mbCmdWrite s v) else none
  | _ => none

/-- One register of the page of block b. The common header comes first (R397). -/
def writeReg (s : State) (b : Block) (r : RRow) (i : Nat) (w size v : Nat) : State :=
  let p := blockPage b
  let a := p + r.off + r.stride * i
  let x := regW s r a w size v
  match r.off with
  | 0x8 => writeBlkctl s b x
  | 0x18 => wr (wr s (Fd.errcntCount p) 0) (Fd.firstErrInfo p) 0
  | _ => match writeSpecial s b r.off i x with
    | some t => t
    | none => writePlain s r a x

/-! The access (R314). -/

/-- Instances of a row that the bytes from o on, n of them, overlap. -/
def rowHits (r : RRow) (o n : Nat) : List (RRow × Nat) :=
  let i := if r.stride = 0 then 0 else (o - r.off) / r.stride
  ([i, i + 1].filter fun j => decide (j < r.count ∧ r.off + r.stride * j < o + n ∧ o < r.off + r.stride * j + r.width / 8)).map
    fun j => (r, j)

/-- Registers that an access overlaps, the lower address first; there are at most two. -/
def hits (rows : List RRow) (o n : Nat) : List (RRow × Nat) :=
  match rows.flatMap fun r => rowHits r o n with
  | [x, y] => if x.1.off + x.1.stride * x.2 ≤ y.1.off + y.1.stride * y.2 then [x, y] else [y, x]
  | l => l

/-- A write to a page with a common header; SIEVE_TWIN is its bytes. -/
def writePage (s : State) (b : Block) (o size v : Nat) : State :=
  let twin : Option Nat := match b with | .sieve t => if 0x100 ≤ o ∧ o < 0x180 then some t else none | _ => none
  match twin with
  | some t => effect s (execSieveTwinWrite t (o - 0x100) (leBytes size v) s)
  | none => (hits (RegRows.every ++ blockRows b) o size).foldl (fun s h => writeReg s b h.1 h.2 (blockPage b + o) size v) s

/-- A write to the queue configuration pages. -/
def writeQueueCfg (s : State) (w size v : Nat) : State :=
  (hits RegRows.qcfg (w - 0x31000) size).foldl (fun s h =>
    let q := h.2
    let a := 0x31000 + h.1.off + 16 * q
    let x := regW s h.1 a w size v
    match h.1.off with
    | 0x0 => effect s (execQmuQcfgWrite q (BitVec.ofNat 32 x.whole) s)
    | 0x4 => writePlain s h.1 a x
    | 0x8 => effect s (execQmuQtoWrite q (BitVec.ofNat 32 x.whole) s)
    | _ => s) s

/-- A write to the MSI-X table (R323), by its 32-bit words. -/
def writeMsix (s : State) (w size v : Nat) : State :=
  let o := w - 0x58000
  let word (s : State) (i : Nat) : State :=
    let bytes := (List.range 4).map fun j =>
      let k := 4 * i + j
      if o ≤ k ∧ k < o + size then v / 256 ^ (k - o) % 256 else msixWord s i / 256 ^ j % 256
    setMsixWord s i (bytes.foldr (fun b n => n * 256 + b) 0)
  (List.range ((size + 3) / 4)).foldl (fun s j => word s (o / 4 + j)) s

/-- A write to the SEC data window. -/
def writeWindow (s : State) (w size v : Nat) : State :=
  let put (t : List (Nat × Byte)) (p : Nat × Byte) : List (Nat × Byte) := Tab.put 0 t (w - 0xF11000 + p.1) p.2
  setSec s { s.sec with window := (List.zip (List.range size) (leBytes size v)).foldl put s.sec.window }

/-- A write of size bytes of n at an address of the register pages (R314, R341, R396). Pages of absent units, reserved pages and pages that are not up
ignore it. -/
def writeAt (s : State) (addr size n : Nat) : State :=
  if 0x31000 ≤ addr ∧ addr < 0x41000 then (if blockUp s .qmu then writeQueueCfg s addr size n else s)
  else if 0x58000 ≤ addr ∧ addr < 0x60000 then (if blockUp s .hif then writeMsix s addr size n else s)
  else if 0xF11000 ≤ addr ∧ addr < 0xF12000 then (if blockUp s .sec then writeWindow s addr size n else s)
  else match pageBlock (addr - addr % 0x1000) with
    | none => s
    | some b => if blockUp s b then writePage s b (addr % 0x1000) size n else s

/-- REGISTER_WRITE: a write at a BAR0 address by the host, over the link, or by the MMC for the sideband, which needs none and which answers as soon as
the MMC runs (R314, R341, R342). -/
def execRegisterWrite (addr size : Nat) (v : BitVec 64) (side : Bool) (s : State) : Res :=
  let k : Res :=
    if ¬ (size = 1 ∨ size = 2 ∨ size = 4 ∨ size = 8) ∨ addr % size ≠ 0 then ok (emit s (.reply (if side then 1 else 6) 1 [addr]))
    else ok (writeAt s addr size v.toNat)
  if side then (if s.boot.powered ∧ stageEnded s 1 then k else ok s) else barAccess s k

end Sys2Proof.Machine
end

