-- ==== Sys2Proof/Machine/Dispatch.lean ====
section
/-! DEFINITION. The meaning of every command: one arm, one call. -/

namespace Sys2Proof.Machine

def exec (i : Instr) (s : State) : Host.Outcome State Fault Refusal :=
  match i with
  | .turnStart => Sys2Proof.Machine.execTurnStart s
  | .contextSwitchEnd tile => Sys2Proof.Machine.execContextSwitchEnd tile s
  | .p2ExitDone failed => Sys2Proof.Machine.execP2ExitDone failed s
  | .refreshSlotStart => Sys2Proof.Machine.execRefreshSlotStart s
  | .refreshSlotEnd => Sys2Proof.Machine.execRefreshSlotEnd s
  | .guardBandStart => Sys2Proof.Machine.execGuardBandStart s
  | .beacon port turn units guard delay => Sys2Proof.Machine.execBeacon port turn units guard delay s
  | .holdoverEntry => Sys2Proof.Machine.execHoldoverEntry s
  | .lockLost => Sys2Proof.Machine.execLockLost s
  | .trnLenWrite v => Sys2Proof.Machine.execTrnLenWrite v s
  | .trnGuardWrite v => Sys2Proof.Machine.execTrnGuardWrite v s
  | .trnApplyWrite v => Sys2Proof.Machine.execTrnApplyWrite v s
  | .trnCtxbaseWrite v => Sys2Proof.Machine.execTrnCtxbaseWrite v s
  | .trnWheelWrite ix v => Sys2Proof.Machine.execTrnWheelWrite ix v s
  | .trnWheelCtlWrite v => Sys2Proof.Machine.execTrnWheelCtlWrite v s
  | .tsqPlanWrWrite tile v => Sys2Proof.Machine.execTsqPlanWrWrite tile v s
  | .planEntryIssue tile => Sys2Proof.Machine.execPlanEntryIssue tile s
  | .sweep tile => Sys2Proof.Machine.execSweep tile s
  | .sweepDone tile => Sys2Proof.Machine.execSweepDone tile s
  | .lookup tile => Sys2Proof.Machine.execLookup tile s
  | .lookupDone tile => Sys2Proof.Machine.execLookupDone tile s
  | .run tile => Sys2Proof.Machine.execRun tile s
  | .halt tile core => Sys2Proof.Machine.execHalt tile core s
  | .addi tile core => Sys2Proof.Machine.execAddi tile core s
  | .alu tile core => Sys2Proof.Machine.execAlu tile core s
  | .lui tile core => Sys2Proof.Machine.execLui tile core s
  | .ldx tile core => Sys2Proof.Machine.execLdx tile core s
  | .stx tile core => Sys2Proof.Machine.execStx tile core s
  | .br tile core => Sys2Proof.Machine.execBr tile core s
  | .csrr tile core => Sys2Proof.Machine.execCsrr tile core s
  | .csrw tile core => Sys2Proof.Machine.execCsrw tile core s
  | .vld tile core => Sys2Proof.Machine.execVld tile core s
  | .vst tile core => Sys2Proof.Machine.execVst tile core s
  | .vgath tile core => Sys2Proof.Machine.execVgath tile core s
  | .vscat tile core => Sys2Proof.Machine.execVscat tile core s
  | .vbcast tile core => Sys2Proof.Machine.execVbcast tile core s
  | .vmovx tile core => Sys2Proof.Machine.execVmovx tile core s
  | .plogic tile core => Sys2Proof.Machine.execPlogic tile core s
  | .ptail tile core => Sys2Proof.Machine.execPtail tile core s
  | .pflg tile core => Sys2Proof.Machine.execPflg tile core s
  | .pcnt tile core => Sys2Proof.Machine.execPcnt tile core s
  | .varith tile core => Sys2Proof.Machine.execVarith tile core s
  | .vfma tile core => Sys2Proof.Machine.execVfma tile core s
  | .vminmax tile core => Sys2Proof.Machine.execVminmax tile core s
  | .vlogic tile core => Sys2Proof.Machine.execVlogic tile core s
  | .vshift tile core => Sys2Proof.Machine.execVshift tile core s
  | .vdiv tile core => Sys2Proof.Machine.execVdiv tile core s
  | .vcmp tile core => Sys2Proof.Machine.execVcmp tile core s
  | .vsel tile core => Sys2Proof.Machine.execVsel tile core s
  | .vcvt tile core => Sys2Proof.Machine.execVcvt tile core s
  | .vred tile core => Sys2Proof.Machine.execVred tile core s
  | .vscan tile core => Sys2Proof.Machine.execVscan tile core s
  | .tscan tile core => Sys2Proof.Machine.execTscan tile core s
  | .tred tile core => Sys2Proof.Machine.execTred tile core s
  | .tbar tile core => Sys2Proof.Machine.execTbar tile core s
  | .tileInstructionJoin tile core => Sys2Proof.Machine.execTileInstructionJoin tile core s
  | .ftuApply tile => Sys2Proof.Machine.execFtuApply tile s
  | .ftuApplyDone tile => Sys2Proof.Machine.execFtuApplyDone tile s
  | .copy eng => Sys2Proof.Machine.execCopy eng s
  | .fill eng => Sys2Proof.Machine.execFill eng s
  | .hdump eng => Sys2Proof.Machine.execHdump eng s
  | .hload eng => Sys2Proof.Machine.execHload eng s
  | .copyStart eng => Sys2Proof.Machine.execCopyStart eng s
  | .sieveTake eng => Sys2Proof.Machine.execSieveTake eng s
  | .pcShareStart eng stack pc => Sys2Proof.Machine.execPcShareStart eng stack pc s
  | .copyComplete eng => Sys2Proof.Machine.execCopyComplete eng s
  | .sieveTwinWrite tile off bytes => Sys2Proof.Machine.execSieveTwinWrite tile off bytes s
  | .sieveTselWrite tile v => Sys2Proof.Machine.execSieveTselWrite tile v s
  | .sieveCtlWrite tile v => Sys2Proof.Machine.execSieveCtlWrite tile v s
  | .tagDefault tile => Sys2Proof.Machine.execTagDefault tile s
  | .tagClrstat tile => Sys2Proof.Machine.execTagClrstat tile s
  | .tagCold tile => Sys2Proof.Machine.execTagCold tile s
  | .moduleStepApplyWrite p v => Sys2Proof.Machine.execModuleStepApplyWrite p v s
  | .nwuCtlWrite die v => Sys2Proof.Machine.execNwuCtlWrite die v s
  | .hclr die => Sys2Proof.Machine.execHclr die s
  | .kilnRun kiln tile => Sys2Proof.Machine.execKilnRun kiln tile s
  | .jobStart kiln => Sys2Proof.Machine.execJobStart kiln s
  | .kEnd kiln => Sys2Proof.Machine.execKEnd kiln s
  | .kImport kiln => Sys2Proof.Machine.execKImport kiln s
  | .importResume kiln => Sys2Proof.Machine.execImportResume kiln s
  | .kExport kiln => Sys2Proof.Machine.execKExport kiln s
  | .kVop kiln => Sys2Proof.Machine.execKVop kiln s
  | .kDot kiln => Sys2Proof.Machine.execKDot kiln s
  | .kNorm kiln => Sys2Proof.Machine.execKNorm kiln s
  | .kRecip kiln => Sys2Proof.Machine.execKRecip kiln s
  | .kSload kiln => Sys2Proof.Machine.execKSload kiln s
  | .kSpmv kiln => Sys2Proof.Machine.execKSpmv kiln s
  | .kFact kiln => Sys2Proof.Machine.execKFact kiln s
  | .kSolve kiln => Sys2Proof.Machine.execKSolve kiln s
  | .kLoop kiln => Sys2Proof.Machine.execKLoop kiln s
  | .kEndloop kiln => Sys2Proof.Machine.execKEndloop kiln s
  | .kTest kiln => Sys2Proof.Machine.execKTest kiln s
  | .deadlineMiss kiln => Sys2Proof.Machine.execDeadlineMiss kiln s
  | .kilnCommitDone kiln => Sys2Proof.Machine.execKilnCommitDone kiln s
  | .klnRdyclrWrite kiln v => Sys2Proof.Machine.execKlnRdyclrWrite kiln v s
  | .kilnSoftReset kiln => Sys2Proof.Machine.execKilnSoftReset kiln s
  | .neighbourHandshake port tag modno lat => Sys2Proof.Machine.execNeighbourHandshake port tag modno lat s
  | .coordMessage port x y z xext yext zext => Sys2Proof.Machine.execCoordMessage port x y z xext yext zext s
  | .cellForward port cell fec => Sys2Proof.Machine.execCellForward port cell fec s
  | .cellWrite cell => Sys2Proof.Machine.execCellWrite cell s
  | .cellWriteEnd cell => Sys2Proof.Machine.execCellWriteEnd cell s
  | .cellRead cell => Sys2Proof.Machine.execCellRead cell s
  | .dataCell cell => Sys2Proof.Machine.execDataCell cell s
  | .cellAck cell => Sys2Proof.Machine.execCellAck cell s
  | .cellNack cell => Sys2Proof.Machine.execCellNack cell s
  | .cellFadd cell => Sys2Proof.Machine.execCellFadd cell s
  | .cellFaddResult cell => Sys2Proof.Machine.execCellFaddResult cell s
  | .fecUncorrectable port => Sys2Proof.Machine.execFecUncorrectable port s
  | .linkRetryRequest port first repeated => Sys2Proof.Machine.execLinkRetryRequest port first repeated s
  | .reorderGapTimeout src stream => Sys2Proof.Machine.execReorderGapTimeout src stream s
  | .ackTimeout stream => Sys2Proof.Machine.execAckTimeout stream s
  | .requestCreditGrant stream => Sys2Proof.Machine.execRequestCreditGrant stream s
  | .fetchAdd => Sys2Proof.Machine.execFetchAdd s
  | .hubCopyItem n => Sys2Proof.Machine.execHubCopyItem n s
  | .colReduce tile => Sys2Proof.Machine.execColReduce tile s
  | .colBcast tile => Sys2Proof.Machine.execColBcast tile s
  | .colAllreduce tile => Sys2Proof.Machine.execColAllreduce tile s
  | .colRedscat tile => Sys2Proof.Machine.execColRedscat tile s
  | .colAllgather tile => Sys2Proof.Machine.execColAllgather tile s
  | .colRingpass tile => Sys2Proof.Machine.execColRingpass tile s
  | .colFred tile => Sys2Proof.Machine.execColFred tile s
  | .colBarrier tile => Sys2Proof.Machine.execColBarrier tile s
  | .collectiveOpStart group => Sys2Proof.Machine.execCollectiveOpStart group s
  | .finiteCheckDone group => Sys2Proof.Machine.execFiniteCheckDone group s
  | .colOpen cell => Sys2Proof.Machine.execColOpen cell s
  | .colReady cell => Sys2Proof.Machine.execColReady cell s
  | .colGrant cell => Sys2Proof.Machine.execColGrant cell s
  | .colExcl cell => Sys2Proof.Machine.execColExcl cell s
  | .colFail cell => Sys2Proof.Machine.execColFail cell s
  | .collData cell => Sys2Proof.Machine.execCollData cell s
  | .chunkAdmit depth => Sys2Proof.Machine.execChunkAdmit depth s
  | .chunkComplete group chunk => Sys2Proof.Machine.execChunkComplete group chunk s
  | .collectiveDeadline group => Sys2Proof.Machine.execCollectiveDeadline group s
  | .collectiveOpTimeout group => Sys2Proof.Machine.execCollectiveOpTimeout group s
  | .fritUp src m => Sys2Proof.Machine.execFritUp src m s
  | .fritDown m => Sys2Proof.Machine.execFritDown m s
  | .fritMiss group gen reason modno turn => Sys2Proof.Machine.execFritMiss group gen reason modno turn s
  | .fritReform group gen turn removed => Sys2Proof.Machine.execFritReform group gen turn removed s
  | .fritFail group gen opseq status => Sys2Proof.Machine.execFritFail group gen opseq status s
  | .colGcmdWrite v => Sys2Proof.Machine.execColGcmdWrite v s
  | .colPoolWrite v => Sys2Proof.Machine.execColPoolWrite v s
  | .colPoolApply => Sys2Proof.Machine.execColPoolApply s
  | .cxlLinkUp rate width flit pcie => Sys2Proof.Machine.execCxlLinkUp rate width flit pcie s
  | .linkRetrain rate width flit => Sys2Proof.Machine.execLinkRetrain rate width flit s
  | .perstAssert => Sys2Proof.Machine.execPerstAssert s
  | .perstDeassert => Sys2Proof.Machine.execPerstDeassert s
  | .doeRequest proto => Sys2Proof.Machine.execDoeRequest proto s
  | .windowEnqueue addr bytes => Sys2Proof.Machine.execWindowEnqueue addr bytes s
  | .windowDequeue addr len => Sys2Proof.Machine.execWindowDequeue addr len s
  | .hdmRead addr len => Sys2Proof.Machine.execHdmRead addr len s
  | .hdmWrite addr bytes => Sys2Proof.Machine.execHdmWrite addr bytes s
  | .birsp line modified => Sys2Proof.Machine.execBirsp line modified s
  | .biTimeout line => Sys2Proof.Machine.execBiTimeout line s
  | .ringDrain n => Sys2Proof.Machine.execRingDrain n s
  | .ringFill n bytes => Sys2Proof.Machine.execRingFill n bytes s
  | .hifRingHeadWrite n v => Sys2Proof.Machine.execHifRingHeadWrite n v s
  | .hifRingTailWrite n v => Sys2Proof.Machine.execHifRingTailWrite n v s
  | .msixNoticeEvent => Sys2Proof.Machine.execMsixNoticeEvent s
  | .ideIntegrityFailure => Sys2Proof.Machine.execIdeIntegrityFailure s
  | .flr => Sys2Proof.Machine.execFlr s
  | .enqueue producer q payload => Sys2Proof.Machine.execEnqueue producer q payload s
  | .dequeue consumer q bad => Sys2Proof.Machine.execDequeue consumer q bad s
  | .qDrop q => Sys2Proof.Machine.execQDrop q s
  | .qFlush q => Sys2Proof.Machine.execQFlush q s
  | .staleTimeout q => Sys2Proof.Machine.execStaleTimeout q s
  | .qmuQtoWrite q v => Sys2Proof.Machine.execQmuQtoWrite q v s
  | .qmuQcfgWrite q v => Sys2Proof.Machine.execQmuQcfgWrite q v s
  | .planEnq tile => Sys2Proof.Machine.execPlanEnq tile s
  | .planEnqComplete tile => Sys2Proof.Machine.execPlanEnqComplete tile s
  | .coldReset => Sys2Proof.Machine.execColdReset s
  | .stagePower ms => Sys2Proof.Machine.execStagePower ms s
  | .stageMmc ms failed => Sys2Proof.Machine.execStageMmc ms failed s
  | .stageSec ms fail => Sys2Proof.Machine.execStageSec ms fail s
  | .stageRails ms hubFault => Sys2Proof.Machine.execStageRails ms hubFault s
  | .stageHub ms failed => Sys2Proof.Machine.execStageHub ms failed s
  | .stageHbm ms failed => Sys2Proof.Machine.execStageHbm ms failed s
  | .stageCompute ms failed pairs => Sys2Proof.Machine.execStageCompute ms failed pairs s
  | .stageCxl ms => Sys2Proof.Machine.execStageCxl ms s
  | .stageFabric ms => Sys2Proof.Machine.execStageFabric ms s
  | .stageCoord ms => Sys2Proof.Machine.execStageCoord ms s
  | .stageLock ms => Sys2Proof.Machine.execStageLock ms s
  | .fabricGo => Sys2Proof.Machine.execFabricGo s
  | .solo => Sys2Proof.Machine.execSolo s
  | .fabTimeout ms => Sys2Proof.Machine.execFabTimeout ms s
  | .fenceRequest b => Sys2Proof.Machine.execFenceRequest b s
  | .unfence b => Sys2Proof.Machine.execUnfence b s
  | .selfTestDone b pass => Sys2Proof.Machine.execSelfTestDone b pass s
  | .railFault part => Sys2Proof.Machine.execRailFault part s
  | .thermalTrip part => Sys2Proof.Machine.execThermalTrip part s
  | .hbmPhyLoss stack => Sys2Proof.Machine.execHbmPhyLoss stack s
  | .d2dLinkFailure pair => Sys2Proof.Machine.execD2dLinkFailure pair s
  | .kResetRequest => Sys2Proof.Machine.execKResetRequest s
  | .kResetEnd => Sys2Proof.Machine.execKResetEnd s
  | .tResetRequest tile => Sys2Proof.Machine.execTResetRequest tile s
  | .tResetEnd tile => Sys2Proof.Machine.execTResetEnd tile s
  | .portSoftReset port => Sys2Proof.Machine.execPortSoftReset port s
  | .moduleResetCommand => Sys2Proof.Machine.execModuleResetCommand s
  | .modulePwrWrite v => Sys2Proof.Machine.execModulePwrWrite v s
  | .hotSwapOpen => Sys2Proof.Machine.execHotSwapOpen s
  | .mmcSample x => Sys2Proof.Machine.execMmcSample x s
  | .blockEnableWrite page on => Sys2Proof.Machine.execBlockEnableWrite page on s
  | .registerWrite addr size v side => Sys2Proof.Machine.execRegisterWrite addr size v side s
  | .secBegin => Sys2Proof.Machine.execSecBegin s
  | .secData => Sys2Proof.Machine.execSecData s
  | .secVerify => Sys2Proof.Machine.execSecVerify s
  | .secActivate => Sys2Proof.Machine.execSecActivate s
  | .secCancel => Sys2Proof.Machine.execSecCancel s
  | .prepareAnswer comp ready => Sys2Proof.Machine.execPrepareAnswer comp ready s
  | .activationTimeout => Sys2Proof.Machine.execActivationTimeout s
  | .spdmGetVersion tr => Sys2Proof.Machine.execSpdmGetVersion tr s
  | .spdmGetCapabilities tr => Sys2Proof.Machine.execSpdmGetCapabilities tr s
  | .spdmNegotiateAlgorithms tr offered => Sys2Proof.Machine.execSpdmNegotiateAlgorithms tr offered s
  | .spdmGetDigests tr => Sys2Proof.Machine.execSpdmGetDigests tr s
  | .spdmGetCertificate tr slot off len => Sys2Proof.Machine.execSpdmGetCertificate tr slot off len s
  | .spdmChallenge tr slot nonce => Sys2Proof.Machine.execSpdmChallenge tr slot nonce s
  | .spdmGetMeasurements tr index signed nonce => Sys2Proof.Machine.execSpdmGetMeasurements tr index signed nonce s
  | .spdmKeyExchange tr nonce => Sys2Proof.Machine.execSpdmKeyExchange tr nonce s
  | .spdmFinish tr proof => Sys2Proof.Machine.execSpdmFinish tr proof s
  | .spdmHeartbeat tr => Sys2Proof.Machine.execSpdmHeartbeat tr s
  | .spdmKeyUpdate tr => Sys2Proof.Machine.execSpdmKeyUpdate tr s
  | .spdmEndSession tr => Sys2Proof.Machine.execSpdmEndSession tr s
  | .ideKm tr => Sys2Proof.Machine.execIdeKm tr s
  | .pldmQueryDeviceIdentifiers => Sys2Proof.Machine.execPldmQueryDeviceIdentifiers s
  | .pldmGetFirmwareParameters => Sys2Proof.Machine.execPldmGetFirmwareParameters s
  | .pldmRequestUpdate => Sys2Proof.Machine.execPldmRequestUpdate s
  | .pldmPassComponentTable manifest => Sys2Proof.Machine.execPldmPassComponentTable manifest s
  | .pldmUpdateComponent comp => Sys2Proof.Machine.execPldmUpdateComponent comp s
  | .pldmRequestFirmwareData bytes => Sys2Proof.Machine.execPldmRequestFirmwareData bytes s
  | .pldmTransferComplete => Sys2Proof.Machine.execPldmTransferComplete s
  | .pldmVerifyComplete => Sys2Proof.Machine.execPldmVerifyComplete s
  | .pldmApplyComplete => Sys2Proof.Machine.execPldmApplyComplete s
  | .pldmActivateFirmware => Sys2Proof.Machine.execPldmActivateFirmware s
  | .pldmGetStatus => Sys2Proof.Machine.execPldmGetStatus s
  | .pldmCancelUpdateComponent => Sys2Proof.Machine.execPldmCancelUpdateComponent s
  | .pldmCancelUpdate => Sys2Proof.Machine.execPldmCancelUpdate s
  | .mctpDiscovery => Sys2Proof.Machine.execMctpDiscovery s
  | .cxlLinkDrop => Sys2Proof.Machine.execCxlLinkDrop s
  | .configurationRequest reg write => Sys2Proof.Machine.execConfigurationRequest reg write s
  | .hostSnoop line => Sys2Proof.Machine.execHostSnoop line s
  | .hubServiceFault b => Sys2Proof.Machine.execHubServiceFault b s
  | .powerTransitionDone => Sys2Proof.Machine.execPowerTransitionDone s
  | .mbCommandComplete => Sys2Proof.Machine.execMbCommandComplete s
  | .cablePresenceChange port present => Sys2Proof.Machine.execCablePresenceChange port present s

end Sys2Proof.Machine
end

