-- ==== Sys2Proof/Machine/Step.lean ====
section
/-! DEFINITION. One step: the command at the front of the queue runs on everything but the queue, whose rest stays; with no command
waiting the block idles for one cycle (log entry 16). -/

namespace Sys2Proof.Machine

/-- No command waits: one clock cycle passes, with what is due in it (DESIGN CHOICE, log entry 16). -/
def tick (s : State) : Host.Outcome State Fault Refusal := .next (settle { s with now := s.now + 1 })

/-- One step. -/
def step (s : State) : Host.Outcome State Fault Refusal :=
  match s.pending with
  | [] => tick s
  | c :: rest => exec c { s with pending := rest }

/-- s with the command that a word spells put at the front of its queue; unchanged where it spells none. -/
def State.withFetchWord (s : State) (nbits w : Nat) : State :=
  match decodeTableWord nbits w with
  | some c => { s with pending := c :: s.pending }
  | none => s

end Sys2Proof.Machine
end

