-- ==== Sys2Proof/Machine/Views.lean ====
section
/-! DEFINITION. What BAR0 reads show (R7, R8, R314, R341, R395 to R397): the stored fields of a register, and the registers that
show other state. No command of the table reads a register; the functions here say what each read returns in a state. -/

namespace Sys2Proof.Machine

/-- Block kinds and instances (R395). -/
def blockKind : Block → Nat × Nat
  | .module => (1, 0) | .trn => (2, 0) | .fma => (3, 0) | .frt => (4, 0) | .port p => (5, p) | .col => (6, 0) | .frit => (7, 0)
  | .qmu => (8, 0) | .hif => (0xA, 0) | .mem s => (0xB, s) | .nwu d => (0xC, d) | .kln k => (0xD, k)
  | .tsq t => (0x10, t) | .mxa t => (0x11, t) | .grn t => (0x12, t) | .opc t => (0x13, t) | .ftu t => (0x14, t) | .sieve t => (0x15, t)
  | .pce t e => (0x16 + e % 2, t) | .cpt t => (0x18, t) | .mrv t => (0x19, t) | .dbg => (0x20, 0) | .mmc => (0x30, 0)
  | .sec => (0x31, 0) | .die _ => (0, 0)

/-- A mask of the indices below n that satisfy p. -/
def maskOf (n : Nat) (p : Nat → Bool) : Nat := (List.range n).foldl (fun m i => if p i then m + 2 ^ i else m) 0

/-- A fence is in force over a block (BLKSTS.FENCED). -/
def blockFenced (s : State) (b : Block) : Bool :=
  match b with
  | .cpt t => fencedCpt s t
  | .mem k => fencedStack s k
  | .kln k => fencedKiln s k
  | .nwu d => fencedNwu s d
  | .port p => fencedPort s p
  | .die d => fencedDie s d
  | .frt | .col | .frit => fencedPage s (blockPage b)
  | b => match blockTile b with | some t => fencedTile s t | none => false

/-- BLKCTL.FENCE: a fence of the block's scope is requested, or in force with no return under way (R350, R397). -/
def fenceShown (s : State) (b : Block) : Bool :=
  match fenceScope b with
  | none => false
  | some pg => s.boot.fenceReq.contains pg ||
      blockFenced s b && !(s.boot.testReq.contains pg || s.boot.testing.contains pg || s.boot.returning.contains pg)

/-- Tile t has issued a descriptor to a unit that has not yet read it: it is accepted (R26). -/
def issuedTo (s : State) (t unit : Nat) : Nat := ((tile s t).issued.filter fun i => i.unit == unit).length

/-- A tile has issued a descriptor of the collective engine, of the frit path or not, that the engine has not yet read. -/
def issuedCol (s : State) (frit : Bool) : Bool :=
  s.tiles.any fun p => p.2.issued.any fun i => i.unit == 8 && (colD (readBytes s (tileBase p.1 + i.desc) 64)).frit == frit

/-- Operations that a unit of tile t, with the page given, has accepted and not yet posted, n of them running. -/
def inFlight (s : State) (t unit page n : Nat) : Nat := n + issuedTo s t unit + inChecks s page

/-- An operation that the block has accepted has not yet posted its record (BLKSTS.BUSY). -/
def blockBusy (s : State) (b : Block) : Bool :=
  match b with
  | .mxa t => inFlight s t 0 (mxaPage t) (tile s t).sweeps.length != 0
  | .grn t => inFlight s t 1 (grnPage t) (tile s t).dispatches.length != 0
  | .ftu t => inFlight s t 2 (ftuPage t) (tile s t).applies.length != 0
  | .sieve t => inFlight s t 5 (sievePage t) 0 != 0
  | .pce t e => inFlight s t (3 + e) (engPage (2 * t + e)) (engine s (2 * t + e)).copies.length != 0
  | .cpt t => inFlight s t 6 (cptPage t) (tile s t).lookups.length != 0
  | .kln k => (kiln s k).jobs.length + kilnIssues s k + inChecks s (kilnPage k) != 0
  | .col => s.col.ops.any (fun o => !o.d.frit) || issuedCol s false || s.soon.any fun p => p.flagPage == colPage
  | .frit => s.col.ops.any (fun o => o.d.frit) || issuedCol s true || s.soon.any fun p => p.flagPage == fritPage
  | .fma => [128, 129, 130, 131].any (fun e => !(engine s e).copies.isEmpty) || s.fma.aqWait.isSome || inChecks s fmaPage != 0 ||
      s.fma.pend.any fun p => p.kind == 2
  | .qmu => !s.qmu.plans.isEmpty || inChecks s qmuPage != 0 || s.tiles.any fun p => p.2.issued.any fun i => i.unit == 9
  | .sec => decide (s.sec.phase ≠ 0)
  | _ => false

/-- Some AVAIL bit is below its CAP bit (MODULE_STATE.DEGRADED). -/
def degraded (s : State) : Bool :=
  let v := s.variant
  (List.range 64).any (fun t => (capTile v t && !availTile s t) || (capCpt v t && !availCpt s t)) ||
    (List.range 16).any (fun k => capStack v k && !availStack s k) ||
    (List.range 4).any (fun d => (capKiln v d && !availKiln s d) || (capDie v d && (!availNwu s d || fencedDie s d))) ||
    (List.range 12).any (fun p => capPort v p && !availPort s p)

/-- The stored fields of a register at address a (W1S, WO and counters included). -/
def storedValue (s : State) (r : RRow) (a : Nat) : Nat :=
  r.fields.foldl (fun n f => n + (if f.acc = .wo then 0 else rd s (fieldAt s a f) * 2 ^ f.lo)) 0

/-- PHASE of KLN_STATE. -/
def kilnPhase (x : Kiln) : Nat :=
  match x.run with
  | some r => if r.commit.isSome then 3 else 2
  | none => if x.jobs.isEmpty then 0 else 1

/-- MODULE registers that show other state (R15, R16, R353). -/
def viewModule (s : State) (off : Nat) : Option Nat :=
  let v := s.variant
  let unit (port nwu kln die : Nat → Bool) : Nat :=
    maskOf 12 port * 2 ^ 16 + maskOf 4 nwu * 2 ^ 8 + maskOf 4 kln * 2 ^ 4 + maskOf 4 die
  match off with
  | 0x40 => some (maskOf 64 (capTile v))
  | 0x60 => some (maskOf 64 (availTile s))
  | 0x48 => some (maskOf 64 (capCpt v))
  | 0x68 => some (maskOf 64 (availCpt s))
  | 0x50 => some (maskOf 16 (capStack v))
  | 0x70 => some (maskOf 16 (availStack s))
  | 0x54 => some (unit (capPort v) (capDie v) (capKiln v) (capDie v))
  | 0x74 => some (unit (availPort s) (availNwu s) (availKiln s) fun d => capDie v d && !fencedDie s d)
  | 0x58 => some (Config.recordVersion % 256 * 2 ^ 24 + (match v with | .f => 0x461616 | .l => 0x4C1612 | .s => 0x530808))
  | _ => none

/-- The other registers that show other state, by block, offset and index. -/
def viewSpecial (s : State) (b : Block) (off i : Nat) : Option Nat :=
  match b with
  | .module => viewModule s off
  | .trn => if off = 0x68 then some (offset s) else none
  | .mxa t => if off = 0x58 then
      let x := tile s t
      let v := match x.streaming s.now with | some w => (w.held0, w.bank) | none => (x.mxaHeld, x.bankSel)
      some ((match v.1 with | some h => h.family * 16 + 8 | none => 0) + inFlight s t 0 (mxaPage t) x.sweeps.length * 2 + v.2) else none
  | .cpt t => if off = 0x58 then
      let x := tile s t
      let v := match x.looking s.now with | some l => (l.held0, l.file) | none => (x.cptHeld, x.fileSel)
      some ((match v.1 with | some h => h.rows * 256 + h.family * 128 + 8 | none => 0) + inFlight s t 6 (cptPage t) x.lookups.length * 2 + v.2) else none
  | .grn t => if off = 0x4C then some (maskOf 32 fun c => (tile s t).dispatches.any fun d => d.cores.contains c) else none
  | .pce t e => if off = 0x58 then
      some (inFlight s t (3 + e) (engPage (2 * t + e)) (engine s (2 * t + e)).copies.length + (if (tile s t).sieve = e + 1 then 4 else 0)) else none
  | .sieve t => if off = 0x50 then some ((tile s t).sieve * 2 + b2n (!(tile s t).staged.isEmpty)) else none
  | .kln k => if off = 0x48 then
      let x := kiln s k
      let q := x.jobs.length - b2n x.run.isSome
      some ((match x.run with | some r => r.inst * 2 ^ 16 | none => 0) + q * 256 + kilnPhase x) else none
  | .col => match off with
    | 0x68 => some ((List.range 4).foldl (fun n d => n + freeSlots s d * 2 ^ (16 * d)) 0)
    | 0x80 => some (admWaitNow s)
    | 0x98 => some (s.col.ops.length + colIssues s + inChecks s colPage)
    | _ => none
  | .hif => if off = 0x48 then some (hdmSize s) else none
  | .qmu => if off = 0x48 then some (poolFree s) else none
  | .sec => if off = 0x60 then some (floorOf s (i + 1) * 2 ^ 16 + entrySvn (runningManifest s) (i + 1)) else none
  | .dbg => if off = 0x40 then some ((s.now - s.boot.resetAt) % 2 ^ 64) else none
  | _ => none

/-- A register of the common header or of a block. -/
def readReg (s : State) (b : Block) (r : RRow) (i : Nat) : Nat :=
  let p := blockPage b
  let a := p + r.off + r.stride * i
  match r.off with
  | 0x0 => (blockKind b).1 * 2 ^ 16 + (blockKind b).2 * 2 ^ 8 + 1
  | 0x4 => b2n (blockPresent s b)
  | 0x8 => b2n (fenceShown s b) * 2 + (if hasEnable b then rd s (Fd.blkctlEnable p) else 1)
  | 0xC => b2n (rd s (Fd.errcntCount p) ≠ 0) * 8 + b2n (blockFenced s b) * 4 + b2n (blockBusy s b) * 2 + 1
  | _ => match viewSpecial s b r.off i with
    | some v => v
    | none => storedValue s r a + (if b = .module ∧ r.off = 0x1C0 then b2n (degraded s) * 2 ^ 28 else 0)

/-- QMU_QSTS of a queue (R339). -/
def viewQsts (s : State) (q : Nat) : Nat :=
  let x := queue s q
  b2n x.broken * 2 ^ 31 + b2n x.stale * 2 ^ 30 + b2n x.inprog.isSome * 2 ^ 29 + x.depth s.now

/-- The registers of a page that answer: all of them once it is up; BLKID and BLKCAP of an absent or waiting one, and BLKSTS as
0 (R341, R396). In NOSERVICE MODULE_STATE can be read through the MMC (R346). -/
def pageRows (s : State) (b : Block) : List RRow :=
  if blockUp s b then RegRows.every ++ blockRows b
  else RegRows.every.take 2 ++ (if b = .module ∧ rdb s Fd.moduleStateNoservice then RegRows.module.filter fun r => r.off == 0x1C0 else [])

/-- Byte k of the registers of rows, by their values. -/
def byteOf (rows : List RRow) (val : RRow → Nat → Nat) (o : Nat) : Nat :=
  match hits rows o 1 with
  | h :: _ => val h.1 h.2 / 256 ^ (o - (h.1.off + h.1.stride * h.2)) % 256
  | [] => 0

/-- A byte of BAR0 as a read returns it. -/
def readBar0Byte (s : State) (a : Nat) : Nat :=
  if 0x31000 ≤ a ∧ a < 0x41000 then
    if blockUp s .qmu then byteOf RegRows.qcfg (fun r q => if r.off = 0xC then viewQsts s q else storedValue s r (0x31000 + r.off + 16 * q)) (a - 0x31000)
    else 0
  else if 0x51000 ≤ a ∧ a < 0x52000 then
    if blockUp s .hif then maskOf 8 fun i => s.hif.msixPend.contains (8 * (a - 0x51000) + i) else 0
  else if 0x58000 ≤ a ∧ a < 0x60000 then
    if blockUp s .hif then msixWord s ((a - 0x58000) / 4) / 256 ^ (a % 4) % 256 else 0
  else if 0x80000 ≤ a ∧ a < 0x90000 ∧ a / 0x1000 % 4 = 1 then
    let k := (a - 0x80000) / 0x4000
    if blockUp s (.kln k) ∧ a % 0x1000 < 0xC00 then (kiln s k).ready / 256 ^ (a % 0x1000) % 256 else 0
  else if 0xF11000 ≤ a ∧ a < 0xF12000 then
    if blockUp s .sec then (Tab.get 0 s.sec.window (a - 0xF11000)).toNat else 0
  else match pageBlock (a - a % 0x1000) with
    | none => 0
    | some b =>
      let o := a % 0x1000
      let tag : Option (BitVec 1024) := match b with
        | .sieve t => if 0x100 ≤ o ∧ o < 0x180 ∧ blockUp s b then some (tagOf s t (rd s (Fd.sieveTselTag t))) else none
        | _ => none
      match tag with
      | some e => tf e (o - 0x100) 1
      | none => byteOf (pageRows s b) (readReg s b) o

/-- A read of n bytes of BAR0, little-endian; none is Unsupported Request (R314). -/
def readBar0 (s : State) (a n : Nat) : Option Nat :=
  if (n = 1 ∨ n = 2 ∨ n = 4 ∨ n = 8) ∧ a % n = 0 then
    some ((List.range n).foldr (fun i v => v * 256 + readBar0Byte s (a + i)) 0)
  else none

/-! Platform sensors (R384, R385, R389). -/

/-- The rails of R384 in its order: 12V_INT, STBY, VCORE_HUB, VIO_SERDES, the three of each stack, VCORE of each die. -/
def railCount : Nat := 56

/-- The numeric sensors that PLDM type 2 shows, by the model's own numbers (log entry 22): input voltage in 10 mV, input current in 10 mA, input power
in W and its average, degrees C of each compute die (8 on), each stack (16 on), the hub die, the conversion stages, coolant inlet and outlet, and mV of
each rail (40 on); none where there is no such sensor or no sample has come. No command of the table reads one. -/
def platformSensor (s : State) (i : Nat) : Option Nat :=
  let m := s.mmc
  if m.powers.isEmpty then none
  else match i with
    | 0 => some (rd s Fd.mmcVinVin)
    | 1 => some (rd s Fd.mmcVinIin)
    | 2 => some (rd s Fd.mmcPinLast)
    | 3 => some (rd s Fd.mmcPinAvg)
    | 32 => some (rd s Fd.mmcTempHub)
    | 33 => some m.conv
    | 34 => some (rd s Fd.mmcTempInlet)
    | 35 => some (rd s Fd.mmcTempOutlet)
    | i => if 8 ≤ i ∧ i < 12 then m.dies[i - 8]? else if 16 ≤ i ∧ i < 32 then m.hbms[i - 16]?
      else if 40 ≤ i ∧ i < 40 + railCount then m.rails[i - 40]? else none

end Sys2Proof.Machine
end

