-- ==== Sys2Proof/Safety.lean ====
section
/-! DEFINITION. What holds of every state that a run can reach, and what a step may do: the canonical form of memory and of every
table, the clock, and the words that statements use for a command that completes or that leaves something alone. -/

namespace Sys2Proof.Machine

/-- The canonical form of a state: memory and the tables of registers, tiles, cores, tags, engines, kilns, pseudo-channels and lanes list
keys strictly rising, and (but for registers, channels and lanes) no entry that equals what an unlisted key reads as. -/
def State.wf (s : State) : Bool :=
  memWf s.mem && Tab.risingFrom 0 s.regs && Tab.wf tileInit s.tiles && Tab.wf coreInit s.cores && Tab.wf tagDefault s.tags &&
    Tab.wf engineInit s.engines && Tab.wf kilnInit s.kilns && Tab.risingFrom 0 s.pcq && Tab.risingFrom 0 s.lanes

/-- The command i completes from s, in a state of which P holds. -/
def Completes (i : Instr) (s : State) (P : State → Prop) : Prop := ∃ s', exec i s = .next s' ∧ P s'

/-- Where the command i completes from s, P holds of the next state. -/
def Leaves (i : Instr) (s : State) (P : State → Prop) : Prop := ∀ s', exec i s = .next s' → P s'

/-- Every byte of memory is as it was. -/
def SameMem (s s' : State) : Prop := ∀ a, Tab.find s'.mem a = Tab.find s.mem a

/-- Every byte of memory outside n bytes at address a is as it was. -/
def SameMemBut (a n : Nat) (s s' : State) : Prop := ∀ b, b < a ∨ a + n ≤ b → Tab.find s'.mem b = Tab.find s.mem b

/-- s' is s with these register fields at these values, and everything else as it was. -/
def Sets (s s' : State) (l : List (Fld × Nat)) : Prop :=
  (∀ p ∈ l, rd s' p.1 = p.2) ∧ (∀ f : Fld, (∀ p ∈ l, f.key ≠ p.1.key) → rd s' f = rd s f) ∧
    s' = { s with fresh := s'.fresh, regs := s'.regs }

/-- The command completes and changes nothing. -/
def Ignored (i : Instr) (s : State) : Prop := Completes i s fun s' => s' = { s with fresh := s'.fresh }

/-! Grain cores (07). -/

/-- Core c of tile t is to execute the word w, as a live member of the dispatch d that waits for no join. -/
structure Member (s : State) (t c : Nat) (d : Dispatch) (w : Nat) : Prop where
  tile : t < 64
  core : c < 32
  live : dispatchOf s t c = some d
  runs : (coreOf s t c).waiting = none
  word : grainWord s t c = w

/-- What the instruction effect e of core c of tile t makes of the state s at its issue: the core and the stored bytes as e says, RETIRED
advanced, what its slices ask of the operand cache noted (R122), and everything else as it was. -/
structure GrainNext (s s' : State) (t c : Nat) (d : Dispatch) (e : Eff) : Prop where
  core : coreOf s' t c = { e.core with pc := e.next % 4096, ready := e.ready }
  cores : ∀ u b, 32 * u + b ≠ 32 * t + c → coreOf s' u b = coreOf s u b
  mem : s'.mem = e.stores.foldl (fun m p => memWrite m p.1 p.2) s.mem
  bytes : ∀ a, (∀ p ∈ e.stores, a < p.1 ∨ p.1 + p.2.length ≤ a) → Tab.find s'.mem a = Tab.find s.mem a
  retired : rd s' (Fd.grnRetiredCount t) = (rd s (Fd.grnRetiredCount t) + 1) % 2 ^ 64
  regs : ∀ f : Fld, f.key ≠ (Fd.grnRetiredCount t).key → rd s' f = rd s f
  own : tile s' t = { tile s t with
    dispatches := (tile s t).dispatches.map fun b => if b.acc = d.acc then { b with stores := b.stores + b2n e.isStore } else b
    opc := (tile s t).opc ++ if e.slices.any (fun p => p.1.isSome) then [⟨c, e.t0, e.slices, e.holds⟩] else [] }
  tiles : ∀ u, u ≠ t → tile s' u = tile s u
  rest : s' = { s with fresh := s'.fresh, mem := s'.mem, regs := s'.regs, tiles := s'.tiles, cores := s'.cores }

/-- The clock has come to the cycle t0, and what was due by then has happened. -/
def At (s : State) (t0 : Nat) : Prop := t0 ≤ s.now ∧ s.settled = s.now

/-- The instruction i of core c of tile t, issued, and retired where it stores, before the guard band, has the effect e; where its cycle has
come, no instruction of a core issues from the guard band on, and nothing changes (R30). -/
def GrainRuns (i : Instr) (s : State) (t c : Nat) (d : Dispatch) (e : Eff) : Prop := At s e.t0 →
  (e.t0 < s.turn.guardAt → (e.isStore = true → e.ready ≤ s.turn.guardAt) → Completes i s fun s' => GrainNext (settleTo s e.t0) s' t c d e) ∧
  ((s.turn.guardAt ≤ e.t0 ∨ (e.isStore = true ∧ s.turn.guardAt < e.ready)) → exec i s = ok s)

/-- A member's fault in cycle t0 before the guard band: it finishes with this status and writes nothing of its own (R126). -/
def GrainFaults (i : Instr) (s : State) (t c status t0 : Nat) : Prop := At s t0 →
  t0 < s.turn.guardAt → exec i s = ok (finishMember (settleTo s t0) t c t0 (some status))

/-- A host access to a BAR is carried out: the link is up, not in the IDE insecure state, and the function decodes its BARs (R313, R324; the
decode bit: log entry 28). -/
structure BarOpen (s : State) : Prop where
  link : hostUp s = true
  ide : rd s Fd.hifLinkIde ≠ 3
  decode : s.hif.cfg.decode = true

/-- Nothing is under way that has an event in a cycle of its own: no operation of a tile, no copy, no job, no collective, no cell at an output
port or at the enqueue port, no record to come. -/
structure Quiet (s : State) : Prop where
  tiles : ∀ p ∈ s.tiles, p.2.sweeps = [] ∧ p.2.lookups = [] ∧ p.2.applies = [] ∧ p.2.dispatches = [] ∧ p.2.opc = []
  engines : ∀ p ∈ s.engines, p.2.copies = []
  lanes : ∀ p ∈ s.lanes, p.2.seen = none
  kilns : ∀ p ∈ s.kilns, p.2.run = none
  col : s.col.ops = [] ∧ s.col.streams = []
  fabric : (∀ p ∈ s.fma.ports, p.2.wait = []) ∧ s.fma.selfNacks = [] ∧ s.fma.aqWait = none
  queues : s.qmu.waiting = [] ∧ s.qmu.plans = []
  records : s.soon = []

/-- A producer asks for the enqueue port with the record r for queue q (R18, R330, R400), at the queue's DEFPRIO, with the turn number and
the turn offset of its cycle, behind all others. -/
def Posted (s' : State) (producer q : Nat) (r : CRec) : Prop :=
  s'.qmu.waiting.getLast? = some ⟨producer, q, rd s' (Fd.qmuQcfgDefprio q), pad64 (r.bytes (turnNo s') (offsetAt s' r.cyc)), r.cyc, 0, 0⟩

/-- Kiln k runs the job j: the next word of its run r is w, of operation op, not refused, before the deadline test fails (R228 to R230,
R237). -/
structure KilnAt (s : State) (k op : Nat) (j : KJob) (r : KRun) (w : KW) : Prop where
  unit : k < 4
  present : capKiln s.variant k = true
  job : (kiln s k).jobs.head? = some j
  run : (kiln s k).run = some r
  running : r.commit = none ∧ r.imp = none
  inside : r.word < hdrWords r.hdr
  begun : r.begun = true
  time : r.cyc < r.miss
  word : wordAt s k (jobD j.desc) r r.word = w
  op : w.op = op
  subs : w.subs ≠ 0
  good : w.bad = false

/-- Nothing else is under way, and no other unit's access to the memories of kiln k is noted: no word waits for a port (R236). -/
structure KilnAlone (s : State) (k : Nat) : Prop where
  quiet : Quiet { s with kilns := [] }
  others : ∀ p ∈ s.kilns, p.1 ≠ k → p.2.run = none
  ext : (kiln s k).ext = []

/-- Kiln k is x, and every other kiln is as it was. -/
def KilnIs (s s' : State) (k : Nat) (x : Kiln) : Prop := kiln s' k = x ∧ ∀ b, b ≠ k → kiln s' b = kiln s b

/-- Every tile but t is as it was. -/
def OtherTiles (t : Nat) (s s' : State) : Prop := ∀ u, u ≠ t → tile s' u = tile s u

end Sys2Proof.Machine
end

