-- ==== Sys2Proof/Certificates/Slice0/Obligations.lean ====
section
/-! DEFINITION. The statements about the model. Each takes a numbered rule of the spec, or the rules of a family of commands, and says
what the command leaves; OBLIGATIONS.json lists them with their rules. -/

open Sys2Proof Sys2Proof.Machine

/-! The block. -/

/-- The command at the front of the queue runs on the state with the rest of the queue; with no command waiting one cycle passes, and what
the operations in progress do by then happens, which is nothing where none is under way (the queue and the tick are the model's: log entry
16). -/
def Obligations.StepRunsFront : Prop :=
  (∀ (c : Instr) (s : State) (rest : List Instr), s.pending = c :: rest → step s = exec c { s with pending := rest }) ∧
  (∀ s : State, s.pending = [] → step s = .next (settle { s with now := s.now + 1 })) ∧
  (∀ s : State, Quiet s → settle s = { s with settled := s.now, qmu := { s.qmu with counted := max s.now s.qmu.counted } })

/-- What a command leaves: the commands that wait and the ordering code are untouched, and the clock never goes back. -/
def Obligations.CommandsKeepQueueAndClock : Prop :=
  ∀ (i : Instr) (s s' : State), exec i s = .next s' → s'.pending = s.pending ∧ s'.variant = s.variant ∧ s.now ≤ s'.now

/-- R6, R364: the canonical form of memory and of every table is kept by every step. -/
def Obligations.StepKeepsForm : Prop :=
  ∀ s s' : State, s.wf = true → step s = .next s' → s'.wf = true

/-- R354, R364, R405: right after reset every register field holds its reset value, every byte outside HBM reads 0, the queues, engines,
tiles and kilns are empty, and the state has its canonical form. -/
def Obligations.ResetState : Prop :=
  State.reset.wf = true ∧ State.reset.pending = [] ∧ (∀ f : Fld, rd State.reset f = f.rst) ∧
  (∀ a, hbmTop ≤ a → readByte State.reset a = 0) ∧ (∀ t, tile State.reset t = tileInit) ∧ (∀ e, engine State.reset e = engineInit) ∧
  (∀ k, kiln State.reset k = kilnInit) ∧ (∀ q, queue State.reset q = queueInit) ∧ State.reset.qmu.used = [] ∧
  (∀ t c i, (coreOf State.reset t c).rx i = 0)

/-! Grain cores. -/

/-- R129, R138, R139: ADDI, ALU, LUI, BR, CSRR and CSRW complete with the result, the issue cycle and the ready cycle of the rules; a
shift by 64 or more leaves some value (log entry 9), a branch offset counts from the branch (log entry 10). R126, R129: a scalar word with
a reserved OP, FN or CSR number, a CSRW to a read-only CSR, a HALT with a nonzero operand bit and a load or store at a bad address finish
the member with the status of R126. -/
def Obligations.GrainScalarResultsAndFaults : Prop :=
  (∀ (s : State) (t c : Nat) (d : Dispatch) (w : Nat), Member s t c d w →
     let k := coreOf s t c
     let a := k.rx (bits w 20 16)
     let b := k.rx (bits w 15 11)
     let srcA := [(kx (bits w 20 16), 0)]
     let srcAB := [(kx (bits w 20 16), 0), (kx (bits w 15 11), 0)]
     let put (i : Instr) (src : List (Nat × Nat)) (v lat : Nat) : Prop :=
       GrainRuns i s t c d { core := (k.wx (bits w 25 21) v).setRdy (kx (bits w 25 21)) (k.issueAt src + lat), next := k.pc + 1,
                             t0 := k.issueAt src, ready := k.issueAt src + 1 }
     (bits w 31 26 = 1 → put (.addi t c) srcA (ofSigned 64 (a + toSigned 16 (bits w 15 0))) 1) ∧
     (bits w 31 26 = 3 → put (.lui t c) [] (ofSigned 64 (toSigned 16 (bits w 15 0) * 65536)) 1) ∧
     (bits w 31 26 = 2 →
       (bits w 10 0 = 0 → put (.alu t c) srcAB ((a + b) % 2 ^ 64) 1) ∧
       (bits w 10 0 = 1 → put (.alu t c) srcAB (ofSigned 64 ((a : Int) - b)) 1) ∧
       (bits w 10 0 = 2 → put (.alu t c) srcAB (a &&& b) 1) ∧
       (bits w 10 0 = 3 → put (.alu t c) srcAB (a ||| b) 1) ∧
       (bits w 10 0 = 4 → put (.alu t c) srcAB (a ^^^ b) 1) ∧
       (bits w 10 0 = 5 → b < 64 → put (.alu t c) srcAB (a <<< b % 2 ^ 64) 1) ∧
       (bits w 10 0 = 6 → b < 64 → put (.alu t c) srcAB (a >>> b) 1) ∧
       (bits w 10 0 = 7 → b < 64 → put (.alu t c) srcAB (ofSigned 64 (toSigned 64 a >>> b)) 1) ∧
       (5 ≤ bits w 10 0 → bits w 10 0 ≤ 7 → 64 ≤ b → ∃ v, put (.alu t c) srcAB v 1) ∧
       (bits w 10 0 = 8 → put (.alu t c) srcAB (if toSigned 64 a < toSigned 64 b then 1 else 0) 1) ∧
       (bits w 10 0 = 9 → put (.alu t c) srcAB (if a < b then 1 else 0) 1) ∧
       (bits w 10 0 = 10 → put (.alu t c) srcAB (a * b % 2 ^ 64) 3) ∧
       (bits w 10 0 = 11 → put (.alu t c) srcAB (ofSigned 64 (toSigned 64 a * toSigned 64 b / 2 ^ 64)) 3)) ∧
     (bits w 31 26 = 6 →
       let xa := bits w 25 21
       let xb := bits w 20 16
       let t0 := k.issueAt (if bits w 15 13 ≥ 6 then [(kp (xa % 8), 0)] else [(kx xa, 0), (kx xb, 0)])
       let taken : Bool := match bits w 15 13 with
         | 0 => k.rx xa == k.rx xb
         | 1 => k.rx xa != k.rx xb
         | 2 => decide (toSigned 64 (k.rx xa) < toSigned 64 (k.rx xb))
         | 3 => decide (toSigned 64 (k.rx xb) ≤ toSigned 64 (k.rx xa))
         | 4 => decide (k.rx xa < k.rx xb)
         | 5 => decide (k.rx xb ≤ k.rx xa)
         | 6 => k.rp (xa % 8) != 0
         | _ => k.rp (xa % 8) == 0
       GrainRuns (.br t c) s t c d
         { core := k, t0 := t0, ready := if taken then t0 + 3 else t0 + 1,
           next := if taken then (((k.pc : Int) + toSigned 13 (bits w 12 0)) % 4096).toNat else k.pc + 1 }) ∧
     (bits w 31 26 = 7 →
       (bits w 15 0 = 0 → put (.csrr t c) [] k.flags.toNat 1) ∧
       (bits w 15 0 = 1 → put (.csrr t c) [] c 1) ∧
       (bits w 15 0 = 2 → put (.csrr t c) [] t 1) ∧
       (bits w 15 0 = 3 → put (.csrr t c) [] (rd s Fd.trnTurnNoTurn % 2 ^ 32) 1) ∧
       (bits w 15 0 = 4 → put (.csrr t c) [] (k.ready - s.turn.start) 1) ∧
       (bits w 15 0 = 5 → put (.csrr t c) [] k.step 1) ∧
       (bits w 15 0 = 6 → put (.csrr t c) [] k.srtag 1)) ∧
     (bits w 31 26 = 8 →
       let set (k' : Core) : Prop :=
         GrainRuns (.csrw t c) s t c d { core := k', next := k.pc + 1, t0 := k.issueAt srcA, ready := k.issueAt srcA + 1 }
       (bits w 15 0 = 0 → set { k with flags := k.flags &&& ~~~ (BitVec.ofNat 32 a) }) ∧
       (bits w 15 0 = 5 → set { k with step := a % 2 ^ 32 }) ∧
       (bits w 15 0 = 6 → set { k with srtag := a % 1024 }))) ∧
  (∀ (s : State) (t c : Nat) (d : Dispatch) (w : Nat), Member s t c d w →
     let k := coreOf s t c
     (grainOp (bits w 31 26) = false →
       GrainFaults (.addi t c) s t c St.badDesc k.ready ∧ GrainFaults (.halt t c) s t c St.badDesc k.ready ∧
       GrainFaults (.vred t c) s t c St.badDesc k.ready ∧ GrainFaults (.stx t c) s t c St.badDesc k.ready) ∧
     (bits w 31 26 = 0 → w ≠ 0 → GrainFaults (.halt t c) s t c St.badDesc k.ready) ∧
     (bits w 31 26 = 2 → 11 < bits w 10 0 → GrainFaults (.alu t c) s t c St.badDesc k.ready) ∧
     (bits w 31 26 = 7 → 6 < bits w 15 0 → GrainFaults (.csrr t c) s t c St.badDesc k.ready) ∧
     (bits w 31 26 = 8 → (1 ≤ bits w 15 0 ∧ bits w 15 0 ≤ 4 ∨ 6 < bits w 15 0) → GrainFaults (.csrw t c) s t c St.badDesc k.ready) ∧
     (let a := ofSigned 64 ((k.rx (bits w 20 16) : Int) + toSigned 16 (bits w 15 0))
      (a % 8 ≠ 0 ∨ coreAddr t c a 8 = none) →
       (bits w 31 26 = 4 → GrainFaults (.ldx t c) s t c St.badAddr (k.issueAt [(kx (bits w 20 16), 0)])) ∧
       (bits w 31 26 = 5 →
         GrainFaults (.stx t c) s t c St.badAddr (k.issueAt [(kx (bits w 20 16), 0), (kx (bits w 25 21), 0)]))))

/-- R121, R122, R129, R130, R138, R139: LDX and STX move eight bytes, VLD and VST a group of elements, VGATH and VSCAT indexed elements;
loads write the destination register only, stores the named bytes only, and an inactive element reads and writes nothing in memory. A load
reads memory as it stands in its issue cycle. What a slice asks of the operand cache is noted: OPC's banks may delay it. -/
def Obligations.GrainMemoryResults : Prop :=
  ∀ (s : State) (t c : Nat) (d : Dispatch) (w : Nat), Member s t c d w →
    let k := coreOf s t c
    (∀ o, let a := ofSigned 64 ((k.rx (bits w 20 16) : Int) + toSigned 16 (bits w 15 0))
      a % 8 = 0 → coreAddr t c a 8 = some o →
      (bits w 31 26 = 4 →
        let t0 := k.issueAt [(kx (bits w 20 16), 0)]
        GrainRuns (.ldx t c) s t c d
          { core := (k.wx (bits w 25 21) (readLE s o 8)).setRdy (kx (bits w 25 21)) (t0 + (if inOpc a then 4 else 2)),
            next := k.pc + 1, t0 := t0, ready := t0 + 1, slices := [(opcWord a, [kx (bits w 25 21)])] }) ∧
      (bits w 31 26 = 5 →
        let t0 := k.issueAt [(kx (bits w 20 16), 0), (kx (bits w 25 21), 0)]
        GrainRuns (.stx t c) s t c d
          { core := k, next := k.pc + 1, t0 := t0, ready := t0 + 1, stores := [(o, leBytes 8 (k.rx (bits w 25 21)))],
            isStore := true, slices := [(opcWord a, [])], holds := true })) ∧
    (let f := fmtM w
     let a := ofSigned 64 ((k.rx f.a : Int) + toSigned 7 (bits w 6 0) * 16)
     f.bad [f.d] = false → vmemBad t c a f k = false →
      (bits w 31 26 = 0x10 →
        let t0 := k.issueAt [(kx f.a, 0), (kp f.pg, 0)]
        GrainRuns (.vld t c) s t c d
          { core := (k.wElems f.d f.sz ((List.range f.n).map fun j =>
              if f.act k j then (match coreAddr t c (a + j * f.sz) f.sz with | some o => readLE s o f.sz | none => 0)
              else f.idle k j)).setRdys f.d f.g (t0 + vldLat a f k) 1,
            next := k.pc + 1, t0 := t0, ready := t0 + f.g, slices := vmemSlices a f k true }) ∧
      (bits w 31 26 = 0x11 →
        let t0 := k.issueAt ([(kx f.a, 0), (kp f.pg, 0)] ++ srcGroup f.d f.g 1)
        GrainRuns (.vst t c) s t c d
          { core := k, next := k.pc + 1, t0 := t0, ready := t0 + f.g,
            stores := (f.active k).filterMap fun j =>
              (coreAddr t c (a + j * f.sz) f.sz).map fun o => (o, leBytes f.sz (k.elem f.d f.sz j)),
            isStore := true, slices := vmemSlices a f k false, holds := true })) ∧
    (let f := fmtV w
     let at_ (j : Nat) : Nat := ofSigned 64 ((k.rx f.a : Int) + toSigned 32 (k.elem f.b 4 j) * f.sz)
     f.bad [f.d] = false → f.b % f.idxRegs = 0 → f.sub = 0 →
     (∀ j ∈ f.active k, at_ j % f.sz = 0 ∧ coreAddr t c (at_ j) f.sz ≠ none) →
      (bits w 31 26 = 0x12 →
        let t0 := k.issueAt ([(kx f.a, 0), (kp f.pg, 0)] ++ srcGroup f.b f.idxRegs 1)
        let l := 4 + (f.active k).length
        GrainRuns (.vgath t c) s t c d
          { core := (k.wElems f.d f.sz ((List.range f.n).map fun j =>
              if f.act k j then (match coreAddr t c (at_ j) f.sz with | some o => readLE s o f.sz | none => 0)
              else f.idle k j)).setRdys f.d f.g (t0 + l) 1,
            next := k.pc + 1, t0 := t0, ready := t0 + l, slices := idxSlices ⟨s, t, c, d, k, w⟩ f true (f.active k), holds := true }) ∧
      (bits w 31 26 = 0x13 →
        let t0 := k.issueAt ([(kx f.a, 0), (kp f.pg, 0)] ++ srcGroup f.b f.idxRegs 1 ++ srcGroup f.d f.g 1)
        GrainRuns (.vscat t c) s t c d
          { core := k, next := k.pc + 1, t0 := t0, ready := t0 + max 1 (f.active k).length,
            stores := (f.active k).filterMap fun j =>
              (coreAddr t c (at_ j) f.sz).map fun o => (o, leBytes f.sz (k.elem f.d f.sz j)),
            isStore := true, slices := idxSlices ⟨s, t, c, d, k, w⟩ f false (f.active k), holds := true }))

/-- R119, R129, R130: PLOGIC, PTAIL, PFLG and PCNT and the compare VCMP write a predicate, or PCNT a count, from the first n elements;
bits from n up become 0, and an inactive element of VCMP keeps its bit, or is 0 with Z. R129, R130, R138: VBCAST, VLOGIC, VSHIFT and VSEL
write their active elements and no flags; VMOVX takes one element into an x register, whose bits above the element are open (log entry 9).
-/
def Obligations.GrainPredicateAndMoveResults : Prop :=
  (∀ (s : State) (t c : Nat) (d : Dispatch) (w : Nat), Member s t c d w →
     let k := coreOf s t c
     let putP (i : Instr) (src : List (Nat × Nat)) (n : Nat) (p : Nat → Bool) : Prop :=
       GrainRuns i s t c d { core := (k.wp (bits w 25 23) (predOf n p % 2 ^ n)).setRdy (kp (bits w 25 23)) (k.issueAt src + 2),
                             next := k.pc + 1, t0 := k.issueAt src, ready := k.issueAt src + 1 }
     (bits w 31 26 = 0x18 → bits w 13 11 ≠ 7 → bits w 8 0 = 0 →
       let n := nOf (bits w 13 11) (bits w 10 9)
       let a := k.rp (bits w 22 20) % 2 ^ n
       let b := k.rp (bits w 19 17) % 2 ^ n
       let put (v : Nat) : Prop :=
         let t0 := k.issueAt [(kp (bits w 22 20), 0), (kp (bits w 19 17), 0)]
         GrainRuns (.plogic t c) s t c d { core := (k.wp (bits w 25 23) (v % 2 ^ n)).setRdy (kp (bits w 25 23)) (t0 + 2),
                                           next := k.pc + 1, t0 := t0, ready := t0 + 1 }
       (bits w 16 14 = 0 → put (a &&& b)) ∧ (bits w 16 14 = 1 → put (a ||| b)) ∧ (bits w 16 14 = 2 → put (a ^^^ b)) ∧
       (bits w 16 14 = 3 → put (a &&& (2 ^ n - 1 - b))) ∧ (bits w 16 14 = 4 → put (2 ^ n - 1 - a)) ∧
       (bits w 16 14 = 5 → put (lowBit a n)) ∧ (bits w 16 14 = 6 → put (2 ^ n - 1)) ∧ (bits w 16 14 = 7 → put 0)) ∧
     (bits w 31 26 = 0x19 → bits w 12 10 ≠ 7 → bits w 7 0 = 0 →
       putP (.ptail t c) [(kx (bits w 22 18), 0), (kx (bits w 17 13), 0)] (nOf (bits w 12 10) (bits w 9 8)) fun j =>
         toSigned 64 (k.rx (bits w 22 18) + j) < toSigned 64 (k.rx (bits w 17 13))) ∧
     (bits w 31 26 = 0x1A → bits w 12 10 ≠ 7 → bits w 7 0 = 0 → bits w 17 13 = 0 →
       putP (.pflg t c) [] (nOf (bits w 12 10) (bits w 9 8)) fun j => (k.eflags.getD j 0).toNat.testBit (bits w 22 18)) ∧
     (bits w 31 26 = 0x1B → bits w 12 10 ≠ 7 → bits w 7 0 = 0 →
       let t0 := k.issueAt [(kp (bits w 22 20), 0)]
       GrainRuns (.pcnt t c) s t c d
         { core := (k.wx (bits w 17 13) ((List.range (nOf (bits w 12 10) (bits w 9 8))).filter (k.rp (bits w 22 20)).testBit).length).setRdy
             (kx (bits w 17 13)) (t0 + 2),
           next := k.pc + 1, t0 := t0, ready := t0 + 1 }) ∧
     (let f := fmtV w
      bits w 31 26 = 0x26 → f.bad [f.a, f.b] = false → bits f.d 4 3 = 0 →
       let t0 := k.issueAt ([(kp f.pg, 0)] ++ srcGroup f.a f.g 1 ++ srcGroup f.b f.g 1)
       let r := (List.range f.n).map fun j =>
         if f.act k j then cmpElem ⟨s, t, c, d, k, w⟩ f j else (!f.z && (k.rp f.d).testBit j, 0)
       GrainRuns (.vcmp t c) s t c d
         { core := ((k.wp f.d (predOf f.n fun j => (r.getD j (false, 0)).1)).setRdy (kp f.d) (t0 + f.g + 1)).setFlags (r.map Prod.snd),
           next := k.pc + 1, t0 := t0, ready := t0 + f.g })) ∧
  (∀ (s : State) (t c : Nat) (d : Dispatch) (w : Nat), Member s t c d w →
     let k := coreOf s t c
     let f := fmtV w
     let put (i : Instr) (src : List (Nat × Nat)) (val : Nat → Nat) : Prop :=
       let t0 := k.issueAt ((kp f.pg, 0) :: src)
       GrainRuns i s t c d
         { core := (k.wElems f.d f.sz ((List.range f.n).map fun j => if f.act k j then val j else f.idle k j)).setRdys f.d f.g (t0 + 1) 1,
           next := k.pc + 1, t0 := t0, ready := t0 + f.g }
     let srcAB := srcGroup f.a f.g 1 ++ srcGroup f.b f.g 1
     let ea (j : Nat) : Nat := k.elem f.a f.sz j
     let eb (j : Nat) : Nat := k.elem f.b f.sz j
     let bw := 8 * f.sz
     (bits w 31 26 = 0x14 → f.bad [f.d] = false → f.sub = 0 → put (.vbcast t c) [(kx f.a, 0)] fun _ => k.rx f.a % 2 ^ bw) ∧
     (bits w 31 26 = 0x23 → f.bad [f.d, f.a, f.b] = false →
       (f.sub = 0 → put (.vlogic t c) srcAB fun j => ea j &&& eb j) ∧
       (f.sub = 1 → put (.vlogic t c) srcAB fun j => ea j ||| eb j) ∧
       (f.sub = 2 → put (.vlogic t c) srcAB fun j => ea j ^^^ eb j) ∧
       (f.sub = 3 → put (.vlogic t c) srcAB fun j => ea j &&& (2 ^ bw - 1 - eb j))) ∧
     (bits w 31 26 = 0x24 → f.bad [f.d, f.a, f.b] = false → f.ty ≤ 3 →
       (f.sub = 0 → put (.vshift t c) srcAB fun j => ea j <<< (eb j % bw) % 2 ^ bw) ∧
       (f.sub = 1 → put (.vshift t c) srcAB fun j => ea j >>> (eb j % bw)) ∧
       (f.sub = 2 → put (.vshift t c) srcAB fun j => ofSigned bw (toSigned bw (ea j) >>> (eb j % bw)))) ∧
     (bits w 31 26 = 0x27 → f.bad [f.d, f.a, f.b] = false → f.sub = 0 →
       let t0 := k.issueAt ([(kp f.pg, 0)] ++ srcAB)
       GrainRuns (.vsel t c) s t c d
         { core := (k.wElems f.d f.sz ((List.range f.n).map fun j => if f.act k j then ea j else eb j)).setRdys f.d f.g (t0 + 1) 1,
           next := k.pc + 1, t0 := t0, ready := t0 + f.g }) ∧
     (bits w 31 26 = 0x15 → f.bad [f.a] = false → f.sub = 0 → k.rx f.b < f.n →
       ∃ v, (f.act k (k.rx f.b) = true → v % 2 ^ bw = ea (k.rx f.b)) ∧
         (f.act k (k.rx f.b) = false → v = if f.z then 0 else k.rx f.d) ∧
         let t0 := k.issueAt ([(kx f.b, 0), (kp f.pg, 0)] ++ srcGroup f.a f.g 0)
         GrainRuns (.vmovx t c) s t c d { core := (k.wx f.d v).setRdy (kx f.d) (t0 + 1), next := k.pc + 1, t0 := t0, ready := t0 + 1 }))

/-- R129 to R133, R138, R139: the arithmetic instructions write each active element with the value and flags of its element operation,
rounded by the dispatch's numeric settings; flags replace the element flags and join the FLAGS CSR. -/
def Obligations.GrainArithmeticResults : Prop :=
  ∀ (s : State) (t c : Nat) (d : Dispatch) (w : Nat), Member s t c d w →
    let k := coreOf s t c
    let f := fmtV w
    let rm := numRm d.num
    let ftz := numFtz d.num
    let fm := tyFmt f.ty
    let bw := 8 * f.sz
    let fp : Bool := tyIsFp f.ty
    let srcA := srcGroup f.a f.g 1
    let srcAB := srcGroup f.a f.g 1 ++ srcGroup f.b f.g 1
    let put (i : Instr) (src : List (Nat × Nat)) (lat gap : Nat) (val : Nat → Nat × Flags) : Prop :=
      let t0 := k.issueAt ((kp f.pg, 0) :: src)
      let r := (List.range f.n).map fun j => if f.act k j then val j else (f.idle k j, 0)
      GrainRuns i s t c d
        { core := ((k.wElems f.d f.sz (r.map Prod.fst)).setRdys f.d f.g (t0 + lat) gap).setFlags (r.map Prod.snd),
          next := k.pc + 1, t0 := t0, ready := t0 + f.g * gap }
    let ia (j : Nat) : Int := toSigned bw (k.elem f.a f.sz j)
    let ib (j : Nat) : Int := toSigned bw (k.elem f.b f.sz j)
    let id (j : Nat) : Int := toSigned bw (k.elem f.d f.sz j)
    let fl (v : Nat) : Fp × Flags := (fm.decode (fm.flushIn ftz v).1, (fm.flushIn ftz v).2)
    let fa (j : Nat) := fl (k.elem f.a f.sz j)
    let fb (j : Nat) := fl (k.elem f.b f.sz j)
    let fd (j : Nat) := fl (k.elem f.d f.sz j)
    let two (op : Fp → Fp → FpRes) (j : Nat) : Nat × Flags :=
      ((op (fa j).1 (fb j).1).1, (op (fa j).1 (fb j).1).2 ||| (fa j).2 ||| (fb j).2)
    (bits w 31 26 = 0x20 → f.bad [f.d, f.a, f.b] = false →
      (fp = false → f.sub = 0 → put (.varith t c) srcAB 1 1 fun j => (ofSigned bw (ia j + ib j), 0)) ∧
      (fp = false → f.sub = 1 → put (.varith t c) srcAB 1 1 fun j => (ofSigned bw (ia j - ib j), 0)) ∧
      (fp = false → f.sub = 2 → put (.varith t c) srcAB 3 1 fun j => (ofSigned bw (ia j * ib j), 0)) ∧
      (fp = true → f.sub = 0 → put (.varith t c) srcAB (fpLat f.ty) 1 (two (fm.add rm ftz))) ∧
      (fp = true → f.sub = 1 → put (.varith t c) srcAB (fpLat f.ty) 1 (two (fm.sub rm ftz))) ∧
      (fp = true → f.sub = 2 → put (.varith t c) srcAB (fpLat f.ty) 1 (two (fm.mul rm ftz)))) ∧
    (bits w 31 26 = 0x21 → f.bad [f.d, f.a, f.b] = false →
      let src := srcAB ++ srcGroup f.d f.g 1
      let three (na nd : Bool) (j : Nat) : Nat × Flags :=
        let r := fm.fma rm ftz (if na then (fa j).1.negate else (fa j).1) (fb j).1 (if nd then (fd j).1.negate else (fd j).1)
        (r.1, r.2 ||| (fa j).2 ||| (fb j).2 ||| (fd j).2)
      (fp = false → f.sub = 0 → put (.vfma t c) src 3 1 fun j => (ofSigned bw (ia j * ib j + id j), 0)) ∧
      (fp = false → f.sub = 1 → put (.vfma t c) src 3 1 fun j => (ofSigned bw (ia j * ib j - id j), 0)) ∧
      (fp = false → f.sub = 2 → put (.vfma t c) src 3 1 fun j => (ofSigned bw (id j - ia j * ib j), 0)) ∧
      (fp = true → f.sub = 0 → put (.vfma t c) src (fpLat f.ty) 1 (three false false)) ∧
      (fp = true → f.sub = 1 → put (.vfma t c) src (fpLat f.ty) 1 (three false true)) ∧
      (fp = true → f.sub = 2 → put (.vfma t c) src (fpLat f.ty) 1 (three true false))) ∧
    (bits w 31 26 = 0x22 →
      (f.bad [f.d, f.a, f.b] = false → fp = false → f.sub = 0 →
        put (.vminmax t c) srcAB 1 1 fun j => (ofSigned bw (min (ia j) (ib j)), 0)) ∧
      (f.bad [f.d, f.a, f.b] = false → fp = false → f.sub = 1 →
        put (.vminmax t c) srcAB 1 1 fun j => (ofSigned bw (max (ia j) (ib j)), 0)) ∧
      (f.bad [f.d, f.a] = false → fp = false → f.sub = 2 →
        ∃ v : Nat → Nat, (∀ j, ia j ≠ -((2 ^ (bw - 1) : Nat) : Int) → v j = ofSigned bw (ia j).natAbs) ∧
          put (.vminmax t c) srcA 1 1 fun j => (v j, 0)) ∧
      (f.bad [f.d, f.a, f.b] = false → fp = true → f.sub ≤ 1 →
        put (.vminmax t c) srcAB (fpLat f.ty) 1 fun j =>
          let a := fm.flushIn ftz (k.elem f.a f.sz j)
          let b := fm.flushIn ftz (k.elem f.b f.sz j)
          ((fm.maxMin (f.sub == 1) a.1 b.1).1, (fm.maxMin (f.sub == 1) a.1 b.1).2 ||| a.2 ||| b.2))) ∧
    (bits w 31 26 = 0x25 → fp = true →
      let l := if f.ty = 4 then 8 else if f.ty = 5 then 12 else 20
      (f.bad [f.d, f.a, f.b] = false → f.sub = 0 →
        put (.vdiv t c) (srcGroup f.a f.g l ++ srcGroup f.b f.g l) l l (two (fm.div rm ftz))) ∧
      (f.bad [f.d, f.a] = false → f.sub = 1 →
        put (.vdiv t c) (srcGroup f.a f.g l) l l fun j => ((fm.sqrt rm ftz (fa j).1).1, (fm.sqrt rm ftz (fa j).1).2 ||| (fa j).2)))

/-- R129, R132: VCVT converts each active element from its TYPE to the kind of its OP, by the fields of xb; the groups are as wide as the
wider of the two types asks. R129, R135, R136: VRED leaves the reduction of its active elements in the fixed order, widened with X, and
the index of an extreme for FN 6 and 7; VSCAN leaves the scan of each active element's segment. -/
def Obligations.GrainConvertAndReduceResults : Prop :=
  (∀ (s : State) (t c : Nat) (d : Dispatch) (w : Nat), Member s t c d w →
     let k := coreOf s t c
     let f := fmtV w
     let kd := bits w 31 26 - 0x28
     let x := cvtX (k.rx f.b)
     let ds := cvtSize kd
     let sg := max 1 (f.g * f.sz / max f.sz ds)
     let dg := max 1 (f.g * ds / max f.sz ds)
     let narrow : Bool := kd = 0 || kd = 7 || kd = 8
     let t0 := k.issueAt ([(kx f.b, 0), (kp f.pg, 0)] ++ srcGroup f.a sg (if sg = dg then 1 else 0))
     let r := (List.range (16 / max f.sz ds * f.g)).map fun j =>
       if f.act k j then cvtElem ⟨s, t, c, d, k, w⟩ f kd x j (k.elem f.a f.sz j) else (if f.z then 0 else k.elem f.d ds j, 0)
     0x28 ≤ bits w 31 26 → bits w 31 26 ≤ 0x31 → f.ty ≠ 7 → f.a % sg = 0 → f.d % dg = 0 →
     (f.sub ≤ 1 ∨ f.ty = 0) → (f.sub ≠ 1 ∨ narrow = true ∨ kd = 4) → x.rsv = 0 → (narrow = true → x.k ≠ -128) →
     (kd = 9 → x.frac ≤ 38) → (4 ≤ kd → kd ≤ 8 → tyIsFp f.ty = false → f.sub ≤ 1 → x.frac ≤ 63) →
       GrainRuns (.vcvt t c) s t c d
         { core := ((k.wElems f.d ds (r.map Prod.fst)).setRdys f.d dg (t0 + 3) (if sg = dg then 1 else 0)).setFlags (r.map Prod.snd),
           next := k.pc + 1, t0 := t0, ready := t0 + f.g }) ∧
  (∀ (s : State) (t c : Nat) (d : Dispatch) (w : Nat), Member s t c d w →
     let k := coreOf s t c
     let r := fmtR w
     let f := r.f
     let widens : Bool := r.fn = 0 && (f.ty = 4 || f.ty ≤ 2)
     let el (j : Nat) : Option Nat × Flags := if f.act k j then posOf k d.num r.fn f.ty f.a f.sz j else (none, 0)
     let put (res : Nat × Flags) : Prop :=
       let t0 := k.issueAt ([(kp f.pg, 0)] ++ srcGroup f.a f.g 0)
       GrainRuns (.vred t c) s t c d
         { core := ((k.wx f.d res.1).setRdy (kx f.d) (t0 + redLat r.fn f.ty f.g f.n)).setFlags (res.2 :: List.replicate (f.n - 1) 0),
           next := k.pc + 1, t0 := t0, ready := t0 + f.g }
     (bits w 31 26 = 0x38 → f.bad [f.a] = false →
       (r.x = false → r.fn ≤ 5 →
         let v := rangeVal d.num r.fn f.ty el 0 f.n
         let code := v.1.getD (identity r.fn f.ty)
         put (if tyIsFp f.ty then code else ofSigned 64 (toSigned (8 * f.sz) code), v.2 ||| Fl.cond v.1.isNone Fl.empty)) ∧
       (r.x = true → widens = true →
         let wide (e : Option Nat × Flags) : Option Nat × Flags :=
           (e.1.map fun code => if f.ty = 4 then fp32.encodeExact (bf16.decode code) else ofSigned 64 (toSigned (8 * f.sz) code), e.2)
         let ty' := if f.ty = 4 then 5 else 3
         let v := rangeVal d.num 0 ty' (fun j => if f.act k j then wide (posOf k d.num 0 f.ty f.a f.sz j) else (none, 0)) 0 f.n
         let code := v.1.getD 0
         put (if f.ty = 4 then code else ofSigned 64 (toSigned 64 code), v.2 ||| Fl.cond v.1.isNone Fl.empty)) ∧
       (r.x = false → 6 ≤ r.fn → put (argOf ⟨s, t, c, d, k, w⟩ r))) ∧
     (bits w 31 26 = 0x39 → f.bad [f.d, f.a] = false → r.fn ≤ 5 →
       let seg (j : Nat) : Bool := r.ps != 0 && (k.rp r.ps).testBit j
       let t0 := k.issueAt ([(kp f.pg, 0), (kp r.ps, 0)] ++ srcGroup f.a f.g 0)
       let vals := (List.range f.n).map fun j =>
         if f.act k j then
           let v := rangeVal d.num r.fn f.ty el (segStart seg j) (if r.x then j else j + 1)
           (v.1.getD (identity r.fn f.ty), v.2)
         else (f.idle k j, 0)
       GrainRuns (.vscan t c) s t c d
         { core := ((k.wElems f.d f.sz (vals.map Prod.fst)).setRdys f.d f.g (t0 + redLat r.fn f.ty f.g f.n) 0).setFlags (vals.map Prod.snd),
           next := k.pc + 1, t0 := t0, ready := t0 + f.g }))

/-- R123 to R125: an accepted RUN leaves the issue list without its descriptor, one more dispatch, and every member at the entry point
with its rank, the member count and ARG in x1, x2 and x3 and its flags and CSRs cleared; it starts in dispatch cycle 12. A descriptor that
the checks turn away has its record at cycle 10; one that the GRN cannot take yet stays where it is. R125 to R127: HALT retires and
finishes its member. While another member lives only the dispatch changes; the last one closes the dispatch, whose record is posted in the
next cycle with the count of its stores. -/
def Obligations.RunAndHalt : Prop :=
  (∀ (s : State) (t : Nat) (i : Issue), t < 64 → (tile (settle s) t).issued.find? (fun i => i.unit == 1) = some i →
     let s0 := settle s
     let s1 := updTile s0 t fun x => { x with issued := x.issued.erase i }
     let d := runD (readBytes s0 (tileBase t + i.desc) 32)
     let cs := maskCores d.cores
     let turnedAway (status : Nat) (l : List Fld) : State := postLater s1
       { grnPosting t i.tag status i.cyc (i.cyc + 10) 10 0 0 with notices := l, read := some i.desc, stop := some (Fd.nGrnAbandon t) }
     (d.rsv = false → d.op = 1 → d.cores ≠ 0 → d.blocked (tile s1 t) = false →
       Completes (.run t) s fun s' =>
         tile s' t = { tile s0 t with
           issued := (tile s0 t).issued.erase i
           dispatches := (tile s0 t).dispatches ++ [{ tag := i.tag, acc := i.cyc, place := i.desc, late := 0, cores := cs, live := cs,
                                                      stores := 0, stall := 0, flags := 0, gfault := none, lastEnd := i.cyc,
                                                      num := tileNum s0 t, waited := 0 }]
           opc := (tile s0 t).opc.filter fun a => !cs.contains a.core } ∧
         (∀ p ∈ List.zip (List.range cs.length) cs, coreOf s' t p.2 =
           { (((coreOf s0 t p.2).wx 1 p.1).wx 2 cs.length).wx 3 d.arg with
             pc := d.entry, eflags := [], flags := 0, step := 0, srtag := 0, ready := i.cyc + 12, rdy := [], tcount := 0,
             waiting := none }) ∧
         (∀ u b, b < 32 → u ≠ t ∨ b ∉ cs → coreOf s' u b = coreOf s0 u b) ∧
         (∀ u, u ≠ t → tile s' u = tile s0 u) ∧ s' = { s0 with fresh := s'.fresh, tiles := s'.tiles, cores := s'.cores }) ∧
     (d.rsv = false → d.op = 1 → d.cores ≠ 0 → d.blocked (tile s1 t) = true → exec (.run t) s = ok s) ∧
     ((d.rsv = true ∨ d.op ≠ 1) → exec (.run t) s = ok (turnedAway St.badDesc [Fd.nGrnReject t])) ∧
     (d.rsv = false → d.op = 1 → d.cores = 0 → exec (.run t) s = ok (turnedAway St.doneEmpty []))) ∧
  (∀ (s : State) (t c : Nat) (b d : Dispatch), Member s t c b 0 → At s (coreOf s t c).ready → (coreOf s t c).ready < s.turn.guardAt →
     let t0 := (coreOf s t c).ready
     let s0 := settleTo s t0
     let k := coreOf s0 t c
     let d' := { d with live := d.live.erase c, flags := d.flags ||| k.flags, lastEnd := max d.lastEnd t0 }
     let s1 := bump s0 (Fd.grnRetiredCount t) 1
     dispatchOf s0 t c = some d → (∀ b ∈ (tile s0 t).dispatches, b.acc = d.acc → b = d) →
     (d'.live ≠ [] → Completes (.halt t c) s fun s' =>
       tile s' t = { tile s0 t with dispatches := (tile s0 t).dispatches.map fun b => if b.acc = d.acc then d' else b } ∧
       (∀ u, u ≠ t → tile s' u = tile s0 u) ∧ s' = { s1 with fresh := s'.fresh, tiles := s'.tiles }) ∧
     (d'.live = [] → ∃ s2 : State, (tile s2 t).dispatches = (tile s0 t).dispatches.filter (fun b => b.acc != d.acc) ∧
       (∀ u, u ≠ t → tile s2 u = tile s0 u) ∧ s2 = { s1 with tiles := s2.tiles } ∧
       exec (.halt t c) s = ok (postAt s2 (grnPosting t d.tag (match d.gfault with | some f => f.status | none => St.done) d.acc (d'.lastEnd + 1)
         (d'.detail (d'.lastEnd + 1)) d'.flags d.stores))))

/-- R137, R138: a tile instruction makes its member wait with its word; it retires when it completes. R135 to R137: when every live member
waits with a matching tile instruction, it completes in all of them 13 + g cycles after the last issue and the wait for the scan network,
which is granted to no other dispatch before: a TBAR only goes on, a TSCAN or TRED leaves the combine over the members in core order; a
mismatch faults them all with BAD_DESC. The cycles of the wait are counted as they pass. -/
def Obligations.TileInstructionsWaitAndJoin : Prop :=
  (∀ (s : State) (t c : Nat) (d : Dispatch) (w : Nat), Member s t c d w →
     let k := coreOf s t c
     let r := fmtR w
     let waits (i : Instr) (src : List (Nat × Nat)) : Prop :=
       let s0 := settleTo s (k.issueAt src)
       At s (k.issueAt src) → k.issueAt src < s.turn.guardAt → Completes i s fun s' =>
         coreOf s' t c = { k with waiting := some w, tcount := k.tcount + 1, pc := k.pc % 4096, ready := k.issueAt src } ∧
         (∀ u b, 32 * u + b ≠ 32 * t + c → coreOf s' u b = coreOf s0 u b) ∧ (∀ u, tile s' u = tile s0 u) ∧
         rd s' (Fd.grnRetiredCount t) = rd s (Fd.grnRetiredCount t) % 2 ^ 64 ∧ SameMem s0 s' ∧
         (∀ f : Fld, f.key ≠ (Fd.grnRetiredCount t).key → rd s' f = rd s0 f)
     (bits w 31 26 = 0x3A → r.f.bad [r.f.d, r.f.a] = false → r.fn ≤ 5 →
       waits (.tscan t c) ([(kp r.f.pg, 0), (kp r.ps, 0)] ++ srcGroup r.f.a r.f.g 0)) ∧
     (bits w 31 26 = 0x3B → r.f.bad [r.f.d, r.f.a] = false → r.fn ≤ 5 → r.x = false →
       waits (.tred t c) ([(kp r.f.pg, 0)] ++ srcGroup r.f.a r.f.g 0)) ∧
     (bits w 31 26 = 0x3C → bits w 25 0 = 0 → waits (.tbar t c) [])) ∧
  ((∀ (s : State) (t c : Nat) (d : Dispatch) (w : Nat), dispatchOf s t c = some d →
     (∀ p ∈ d.live, p < 32 ∧ (coreOf s t p).waiting ≠ none) →
     (d.live.filterMap fun p => (coreOf s t p).waiting).head? = some w →
     let start := joinStart s t d
     let fin := max start (tile s t).netFree + 13 + (fmtR w).f.g
     let s0 := settleTo s fin
     ((∀ p ∈ d.live, ∀ v, (coreOf s t p).waiting = some v → joinKey v = joinKey w) →
       (fin < s.turn.guardAt → netFirst s t d = true →
         Completes (.tileInstructionJoin t c) s fun s' =>
           (∀ p ∈ d.live, coreOf s' t p = joinCore s0 t p d w fin) ∧
           (∀ p ∈ d.live, ∀ v, (coreOf s0 t p).waiting = some v → bits v 31 26 = 0x3C → coreOf s' t p =
             { coreOf s0 t p with waiting := none, pc := ((coreOf s0 t p).pc + 1) % 4096, ready := fin }) ∧
           (∀ u b, b < 32 → u ≠ t ∨ b ∉ d.live → coreOf s' u b = coreOf s0 u b) ∧ s'.now = s0.now ∧
           tile s' t = { tile s0 t with
             netFree := fin, netPtr := d.acc
             dispatches := (tile s0 t).dispatches.map fun e => if e.acc = d.acc then { e with waited := 0 } else e } ∧
           rd s' (Fd.grnRetiredCount t) = (rd s0 (Fd.grnRetiredCount t) + d.live.length) % 2 ^ 64 ∧
           (∀ f : Fld, f.key ≠ (Fd.grnRetiredCount t).key → rd s' f = rd s0 f) ∧ SameMem s0 s') ∧
       (s.turn.guardAt ≤ fin ∨ netFirst s t d = false → exec (.tileInstructionJoin t c) s = ok s)) ∧
     ((∃ p ∈ d.live, ∃ v, (coreOf s t p).waiting = some v ∧ joinKey v ≠ joinKey w) → start < s.turn.guardAt →
       exec (.tileInstructionJoin t c) s =
         ok (d.live.foldl (fun s' p => finishMember s' t p start (some St.badDesc))
           (d.live.foldl (fun s' p => setCore s' t p { coreOf s' t p with waiting := none }) (settleTo s start))))) ∧
   (∀ (s : State) (t c : Nat) (d : Dispatch), joined s t d = true →
     let n := min c (netGrant s t d) - joinStart s t d
     d.waited < n →
       rd (countNet c t s d) (Fd.grnStallCycles t) = satAdd 32 (rd s (Fd.grnStallCycles t)) (n - d.waited) ∧
       tile (countNet c t s d) t = { tile s t with dispatches := (tile s t).dispatches.map fun e =>
         if e.acc = d.acc then { e with stall := e.stall + (n - e.waited), waited := n } else e }))

/-! The queue manager. -/

/-- R330, R331, R333: a cell of an engine asks for the enqueue port with the queue's DEFPRIO and the payload padded to 64 bytes. In the
cycle that grants it, it enters its queue as one item readable from the next cycle; a disabled or broken queue discards it and counts it;
without room it waits for its grant. R330, R331, R333: a cell of the host asks for the port as one; in its cycle, of a queue with
single-cell packets, it enters at HPRIO; a refused one is discarded with HOSTDROP and counted in QMU_HOST_DROP; a queue that is disabled
or broken counts it in QMU_DIS_DROP. It never waits for room. R331, R333: the enqueue port grants one cell in a clock cycle. Of the
producers whose oldest cell asks for it and is not kept by want of room, the first in turn from the pointer on is granted; the pointer
moves behind it, the port is free again in the next cycle, and each other one of them loses a cycle; where none asks, nothing happens. -/
def Obligations.EnqueueResults : Prop :=
  ((∀ (s : State) (producer q : Nat) (payload : List Byte), producer < 78 → producer ≠ prodHif → q < 4096 →
     Completes (.enqueue producer q payload) s fun s' => s' = { s with fresh := s'.fresh, qmu := { s.qmu with
       waiting := s.qmu.waiting ++ [⟨producer, q, rd s (Fd.qmuQcfgDefprio q), pad64 payload, s.now, 0, 0⟩] } }) ∧
   (∀ (s : State) (w : EnqReq) (g : Nat), w.kind = 0 →
     let s' := meetQueue s w g
     let cell : QCell := ⟨lowestFree 0 s.qmu.used, w.pay, s.qmu.nextSeq⟩
     (w.ready s = true ↔ accepts s w.queue = false ∨ roomIn s w.queue = true) ∧
     (accepts s w.queue = true →
       (queue s' w.queue).items = insertItem ⟨w.prio, [cell], 1, g + 1⟩ (queue s w.queue).items ∧
       (queue s' w.queue).inprog = (queue s w.queue).inprog ∧ (queue s' w.queue).parts = (queue s w.queue).parts ∧
       (∀ p, p ≠ w.queue → queue s' p = queue s p) ∧ s'.qmu.used = insertNat s.qmu.used cell.idx ∧ s' = { s with qmu := s'.qmu }) ∧
     (accepts s w.queue = false →
       rd s' Fd.qmuDisDropCount = satAdd 32 (rd s Fd.qmuDisDropCount) 1 ∧
       (∀ f : Fld, f.key ≠ Fd.qmuDisDropCount.key → rd s' f = rd s f) ∧ s' = { s with regs := s'.regs }))) ∧
  ((∀ (s : State) (q : Nat) (payload : List Byte), q < 4096 →
     Completes (.enqueue prodHif q payload) s fun s' => s' = { s with fresh := s'.fresh, qmu := { s.qmu with
       waiting := s.qmu.waiting ++ [⟨prodHif, q, 0, pad64 payload, s.now, 1, 0⟩] } }) ∧
   (∀ (s : State) (w : EnqReq) (g : Nat), w.kind = 1 → rd s (Fd.qmuQcfgHpktm1 w.queue) = 0 →
     (queue s w.queue).hostDrop = 0 → (queue s w.queue).hostCount = 0 → (∀ p ∈ (queue s w.queue).parts, p.src ≠ srcHost) →
     let s' := meetQueue s w g
     let q := w.queue
     let cell : QCell := ⟨lowestFree 0 s.qmu.used, pad64 w.pay, s.qmu.nextSeq⟩
     w.ready s = true ∧
     (accepts s q = true → roomIn s q = true →
       (queue s' q).items = insertItem ⟨rd s (Fd.qmuQcfgHprio q), [cell], 1, g + 1⟩ (queue s q).items ∧
       (∀ p, p ≠ q → queue s' p = queue s p) ∧ s'.qmu.used = insertNat s.qmu.used cell.idx ∧ SameMem s s') ∧
     (accepts s q = true → roomIn s q = false →
       (queue s' q).items = (queue s q).items ∧ s'.qmu.used = s.qmu.used ∧ rd s' Fd.nQmuHostdrop = 1 ∧
       rd s' Fd.qmuHostDropCount = satAdd 32 (rd s Fd.qmuHostDropCount) 1 ∧ SameMem s s') ∧
     (accepts s q = false →
       (queue s' q).items = (queue s q).items ∧ s'.qmu.used = s.qmu.used ∧
       rd s' Fd.qmuDisDropCount = satAdd 32 (rd s Fd.qmuDisDropCount) 1 ∧ SameMem s s'))) ∧
  (∀ (s : State) (c : Nat),
     let l := (enqHeads s.qmu.waiting).filter fun w => w.ready s && decide (w.since ≤ c)
     let turn (w : EnqReq) : Nat := (w.producer + 78 - s.qmu.enqPtr % 78) % 78
     (l = [] → grantEnq s c = s) ∧
     (∀ w ∈ l, (∀ v ∈ l, v ≠ w → turn w < turn v) →
       let s' := grantEnq s c
       s'.qmu.enqPtr = w.producer + 1 ∧ s'.qmu.enqFree = c + 1 ∧
       rd s' Fd.qmuArbWaitCount =
         (if l.length ≤ 1 then rd s Fd.qmuArbWaitCount else satAdd 32 (rd s Fd.qmuArbWaitCount) (l.length - 1)) ∧
       s'.qmu.waiting = (s.qmu.waiting.erase w).map (fun v =>
         if v.producer = w.producer then { v with since := max v.since (c + 1) } else v) ∧
       ∃ s1 : State, s1 = { s with regs := s1.regs, qmu := s1.qmu } ∧ s1.qmu.queues = s.qmu.queues ∧ s1.qmu.used = s.qmu.used ∧
         (∀ f : Fld, f.key ≠ Fd.qmuArbWaitCount.key → f.key ≠ Fd.qmuEnqWaitCount.key → rd s1 f = rd s f) ∧ s' = meetQueue s1 w c))

/-- R18, R330, R397, R400: a record is posted in its cycle: its FLAGS are gathered on the page of its unit, an error is counted there with
FIRST_ERR where it is the first, and the record asks for the enqueue port as a cell of DEFPRIO with the turn and the turn offset of its
cycle. A record of a later cycle waits for it; a stop of its unit ends a descriptor still in its checks with ABANDONED (log entry 15).
R138: an instruction whose cycle has not come waits for it: the command runs as it would from that cycle on, after all that happens until
then. Commands that end operations: the clock goes on to the cycle in which the operation is due, as what happens on the way moves it,
unless the guard band comes first, which hub engines do not know (R30, R280; that the command carries the clock to that cycle is the
model's: log entry 16). -/
def Obligations.RecordsAndDueCycles : Prop :=
  ((∀ (s : State) (p : Posting), Posted (postNow s p) p.prod (rd (postNow s p) p.queue) p.rec_ ∧
     (postNow s p).qmu.waiting.length = s.qmu.waiting.length + 1 ∧ SameMem s (postNow s p)) ∧
   (∀ (s : State) (p : Posting) (n : Fld) (b : Nat), p.notices = [n] → p.counts = [] → p.errs = [b] → n.wid = 1 →
     let own := [n.key, (Fd.flagsReg p.flagPage).key, (Fd.errcntCount b).key, (Fd.firstErrInfo b).key]
     own.Nodup → rd s (Fd.errcntCount b) = 0 →
     let s' := postNow s p
     rd s' n = 1 ∧ rd s' (Fd.flagsReg p.flagPage) = (BitVec.ofNat 32 (rd s (Fd.flagsReg p.flagPage)) ||| p.rec_.flags).toNat ∧
       rd s' (Fd.errcntCount b) = 1 ∧ (n.key ≠ Fd.trnTurnNoTurn.key → (Fd.flagsReg p.flagPage).key ≠ Fd.trnTurnNoTurn.key →
         rd s' (Fd.firstErrInfo b) = errInfo s p.rec_.tag p.rec_.status % 2 ^ 64) ∧
       (∀ f : Fld, f.key ∉ own → rd s' f = rd s f)) ∧
   (∀ (s : State) (p : Posting) (c : Fld), p.notices = [] → p.counts = [c] → p.errs = [] → c.wid = 32 →
     c.key ≠ (Fd.flagsReg p.flagPage).key →
     let s' := postNow s p
     rd s' c = satAdd 32 (rd s c) 1 ∧ rd s' (Fd.flagsReg p.flagPage) = (BitVec.ofNat 32 (rd s (Fd.flagsReg p.flagPage)) ||| p.rec_.flags).toNat ∧
       (∀ f : Fld, f.key ≠ c.key → f.key ≠ (Fd.flagsReg p.flagPage).key → rd s' f = rd s f)) ∧
   (∀ (s : State) (p : Posting), s.soon = [] →
     (p.rec_.cyc ≤ s.now → postAt s p = postNow s p) ∧ (s.now < p.rec_.cyc → postAt s p = { s with soon := [p] }) ∧
     (∀ (c : Nat) (f : Fld) (u : Nat → Bool), p.stop = some f → u p.unit = true →
       stopChecks { s with soon := [p] } c u = postNow s { p with
         stop := none, notices := [f], counts := [], errs := [p.unit]
         rec_ := { p.rec_ with status := St.abandoned, cyc := c, detail := (c - p.acc) % 2 ^ 32, flags := 0, count := 0 } }))) ∧
  (∀ (s : State) (t c : Nat) (mine : Nat → Bool) (f : GIn → GOut) (d d' : Dispatch),
     dispatchOf s t c = some d → (coreOf s t c).waiting = none →
     let g := grainOut mine f
     let t0 := (g (grainIn s t c d)).t0
     let s1 := settleTo s t0
     t0 < s.turn.guardAt → ¬ (t0 ≤ s.now ∧ s.settled = s.now) →
     dispatchOf s1 t c = some d' → (coreOf s1 t c).waiting = none → (g (grainIn s1 t c d')).t0 ≤ t0 →
     grainExec t c mine f s = grainExec t c mine f s1 ∧ s1.now = max s.now t0 ∧ s1.settled = s1.now) ∧
  (∀ (hub : Bool) (due : State → Option Nat) (n : Nat) (s : State),
     (due s = none → driveDue hub due n s = none) ∧
     (∀ d, due s = some d →
       (hub = false → s.turn.guardAt < d → driveDue hub due n s = none) ∧
       (hub = true ∨ d ≤ s.turn.guardAt →
         (d ≤ s.now → driveDue hub due (n + 1) s = some s) ∧
         (s.now < d → driveDue hub due (n + 1) s = driveDue hub due n (settleTo s d) ∧ (settleTo s d).now = d))))

/-- R328, R329, R332, R333, R337: in the cycle that grants it a dequeue hands its consumer the first cell of the item in progress, else of
the oldest readable item of the highest priority, and frees it; an empty or broken queue answers VALID 0 and keeps its state; one that
follows a bad pointer breaks the queue. The MMC and the SEC do not dequeue. -/
def Obligations.DequeueCell : Prop :=
  ∀ (s : State) (consumer q : Nat) (bad : List Nat), consumer < 76 → q < 4096 →
    (∀ k, 76 ≤ k → exec (.dequeue k q bad) s = .fault .noSuchUnit) ∧
    let links := (bad.filter fun i => s.qmu.used.contains i).foldl insertNat s.qmu.badLinks
    let s0 := grantDeq { s with qmu := { s.qmu with badLinks := links } } consumer
    let x := queue s0 q
    let given (s' : State) (pay : List Byte) (word : Nat) : Prop :=
      s'.out = s0.out ++ [.dequeued consumer (if consumer = prodHif then pay.take 56 ++ leBytes 8 word else pay) word] ∧
      (∀ p, p ≠ q → queue s' p = queue s0 p) ∧ SameMem s0 s'
    let runs (P : State → Prop) : Prop := Completes (.dequeue consumer q bad) s P
    (∀ (i : QItem) (c : QCell) (rest : List QCell), x.broken = false → x.next s0.now = some i → i.cells = c :: rest →
      (reaches s0.qmu.badLinks x.list c = true → runs fun s' =>
        (queue s' q).items = (if x.inprog.isSome then x.items else x.items.erase i) ∧
        (queue s' q).inprog = (if rest = [] then none else some { i with cells := rest }) ∧
        s'.qmu.used = s0.qmu.used.filter (fun b => c.idx ≠ b) ∧ (∀ f : Fld, rd s' f = rd s0 f) ∧
        given s' c.pay (2 ^ 63 + (if i.cells.length = i.size then 2 ^ 62 else 0) + (if rest = [] then 2 ^ 61 else 0) + i.prio * 2 ^ 56 +
          q * 2 ^ 44 + rest.length * 2 ^ 32 + (queue s' q).depth s0.now)) ∧
      (reaches s0.qmu.badLinks x.list c = false → runs fun s' =>
        (queue s' q).broken = true ∧ (queue s' q).items = x.items ∧ (queue s' q).inprog = x.inprog ∧ s'.qmu.used = s0.qmu.used ∧
        rd s' Fd.nQmuParity = 1 ∧ rd s' (Fd.errcntCount qmuPage) = satAdd 32 (rd s0 (Fd.errcntCount qmuPage)) 1 ∧
        given s' (List.replicate 64 0) (2 ^ 60 + q * 2 ^ 44))) ∧
    (x.broken = false → x.next s0.now = none → runs fun s' =>
      queue s' q = x ∧ s'.qmu.used = s0.qmu.used ∧ (∀ f : Fld, rd s' f = rd s0 f) ∧ given s' (List.replicate 64 0) (q * 2 ^ 44)) ∧
    (x.broken = true → runs fun s' =>
      queue s' q = x ∧ s'.qmu.used = s0.qmu.used ∧ (∀ f : Fld, rd s' f = rd s0 f) ∧ given s' (List.replicate 64 0) (2 ^ 60 + q * 2 ^ 44))

/-- R335 to R337: DROP discards what is left of the item in progress, FLUSH every cell of the queue, each returning the cells to the pool
(that a packet hit by FLUSH is discarded as host cells to its end: log entry 12); cells beyond a break are lost. Before the hub die runs
neither has an effect; a stale timer that runs out marks the queue and reports it. R330, R335: QMU_QTO and QMU_QCFG take their fields; a
running stale timer restarts at a write of QMU_QTO, and a change of the packet settings discards an incomplete host packet. Before the hub
die runs they have no effect. -/
def Obligations.QueueCommandsAndSettings : Prop :=
  (∀ (s : State) (q : Nat), q < 4096 →
     let x := queue s q
     (4 ∉ s.boot.stagesDone → Ignored (.qDrop q) s ∧ Ignored (.qFlush q) s) ∧
     (4 ∈ s.boot.stagesDone → x.inprog = none ∨ x.broken = true → Ignored (.qDrop q) s) ∧
     (∀ i, 4 ∈ s.boot.stagesDone → x.inprog = some i → x.broken = false →
       ((∀ c ∈ i.cells, reaches s.qmu.badLinks x.list c = true) → Completes (.qDrop q) s fun s' =>
         queue s' q = { x with inprog := none } ∧ (∀ p, p ≠ q → queue s' p = queue s p) ∧
         s'.qmu.used = s.qmu.used.filter (fun b => ∀ c ∈ i.cells, c.idx ≠ b) ∧ s' = { s with fresh := s'.fresh, qmu := s'.qmu }) ∧
       ((∃ c ∈ i.cells, reaches s.qmu.badLinks x.list c = false) → Completes (.qDrop q) s fun s' =>
         (queue s' q).broken = true ∧ (queue s' q).items = x.items ∧ rd s' Fd.nQmuParity = 1 ∧
         rd s' (Fd.errcntCount qmuPage) = satAdd 32 (rd s (Fd.errcntCount qmuPage)) 1 ∧ (∀ p, p ≠ q → queue s' p = queue s p) ∧ SameMem s s')) ∧
     (4 ∈ s.boot.stagesDone → Completes (.qFlush q) s fun s' =>
       queue s' q = { queueInit with hostCount := x.hostCount, hostDrop := if x.hostCount ≠ 0 ∧ x.hostDrop = 0 then 1 else x.hostDrop } ∧
       (∀ p, p ≠ q → queue s' p = queue s p) ∧ SameMem s s' ∧
       (x.broken = false → s.qmu.badLinks = [] →
         s'.qmu.used = s.qmu.used.filter (fun b => ∀ c ∈ x.list, c.idx ≠ b) ∧
         (∀ f : Fld, rd s' f = rd s f ∨ f.key = Fd.qmuLostCount.key)) ∧
       (x.broken = true →
         s'.qmu.used = s.qmu.used.filter (fun b => ∀ c ∈ x.list, c.seq ≤ x.badSeq → c.idx ≠ b) ∧
         rd s' Fd.qmuLostCount = satAdd 32 (rd s Fd.qmuLostCount) (x.list.filter fun c => !(x.list.filter fun c => decide (c.seq ≤ x.badSeq)).contains c).length)) ∧
     (let s0 := settleTo s (x.since + 1024 * rd s (Fd.qmuQtoUnits q))
      rd s (Fd.qmuQtoUnits q) ≠ 0 → x.depth (max s.now x.since) ≠ 0 → x.reported = false →
      (queue s0 q).depth s0.now ≠ 0 → (queue s0 q).since = x.since → Completes (.staleTimeout q) s fun s' =>
       queue s' q = { queue s0 q with stale := true, reported := true } ∧ (∀ p, p ≠ q → queue s' p = queue s0 p) ∧ s'.now = s0.now ∧
       rd s' Fd.nQmuStale = 1 ∧ rd s' Fd.qmuStaleLastQueue = q ∧
       rd s' Fd.qmuStalesCount = satAdd 32 (rd s0 Fd.qmuStalesCount) 1 ∧ SameMem s0 s')) ∧
  (∀ (s : State) (q : Nat) (v : BitVec 32), q < 4096 →
     let n := v.toNat
     let x := queue s q
     (4 ∉ s.boot.stagesDone → Ignored (.qmuQtoWrite q v) s ∧ Ignored (.qmuQcfgWrite q v) s) ∧
     (4 ∈ s.boot.stagesDone → Completes (.qmuQtoWrite q v) s fun s' =>
       rd s' (Fd.qmuQtoUnits q) = n % 2 ^ (Fd.qmuQtoUnits q).wid ∧ (∀ f : Fld, f.key ≠ (Fd.qmuQtoUnits q).key → rd s' f = rd s f) ∧
       queue s' q = (if x.depth s.now = 0 then x else { x with since := s.now }) ∧ (∀ p, p ≠ q → queue s' p = queue s p) ∧
       s' = { s with fresh := s'.fresh, regs := s'.regs, qmu := s'.qmu }) ∧
     (4 ∈ s.boot.stagesDone → Completes (.qmuQcfgWrite q v) s fun s' =>
       rd s' (Fd.qmuQcfgEn q) = bits n 31 31 ∧ rd s' (Fd.qmuQcfgHost q) = bits n 30 30 ∧ rd s' (Fd.qmuQcfgHpktm1 q) = bits n 15 10 ∧
       rd s' (Fd.qmuQcfgHprio q) = bits n 7 5 ∧ rd s' (Fd.qmuQcfgDefprio q) = bits n 2 0 ∧ SameMem s s' ∧
       (x.hostCount = 0 → queue s' q = x) ∧
       (x.hostCount ≠ 0 → (bits n 15 10 ≠ rd s (Fd.qmuQcfgHpktm1 q) ∨ bits n 7 5 ≠ rd s (Fd.qmuQcfgHprio q)) →
         rd s' Fd.nQmuHostdrop = 1 ∧ (queue s' q).hostCount = 0 ∧ (queue s' q).parts = x.parts.filter (fun p => p.src != srcHost))))

/-- R338: a plan descriptor that passes the checks has all its cells to go, cell 0 read at cycle 10; of one turned away the record comes
at cycle 10. A cell read asks for the enqueue port from the next cycle on; a queue that takes it has one cell more, and the next one is
read in that cycle. When the last cell has met its queue the record says DONE, or DROPPED where a cell did not enter. -/
def Obligations.PlanEnqueue : Prop :=
  (∀ (s : State) (t : Nat) (i : Issue), (tile s t).issued.find? (fun i => i.unit == 9) = some i →
    let d := readBytes s (tileBase t + i.desc) 32
    let w := dword d 0
    let p : PlanEnq :=
      { tile := t, tag := i.tag, place := i.desc, desc := d, acc := i.cyc, sent := 0, good := 0, read := some (i.cyc + 10), lost := [], bad := false,
        due := 0 }
    let s1 := updTile s t fun x => { x with issued := x.issued.erase i }
    let turnedAway (status : Nat) : Prop :=
      exec (.planEnq t) s = ok (postLater s1 { planPosting t i.tag status i.cyc (i.cyc + 10) 0 with read := some i.desc })
    let rsv : Bool := bits w 31 28 != 1 || bit w 23 || bits w 15 12 != 0 || bits (dword d 1) 31 23 != 0 || fieldLE d 8 24 != 0
    (rsv = false → 1 ≤ p.ncell → p.ncell ≤ 64 → p.src % 64 = 0 → p.src + 64 * p.ncell ≤ 0x800000 →
      Completes (.planEnq t) s fun s' => s' = { s1 with fresh := s'.fresh, qmu := { s.qmu with plans := s.qmu.plans ++ [p] } }) ∧
    ((rsv = true ∨ 64 < p.ncell) → turnedAway St.badDesc) ∧
    (rsv = false → p.ncell = 0 → turnedAway St.doneEmpty) ∧
    (rsv = false → 1 ≤ p.ncell → p.ncell ≤ 64 → (p.src % 64 ≠ 0 ∨ 0x800000 < p.src + 64 * p.ncell) → turnedAway St.badAddr)) ∧
  (∀ (s : State) (p : PlanEnq) (c : Nat), p.readAt = some c →
    (readPlan s p).qmu.waiting = s.qmu.waiting ++
      [⟨p.tile, p.queue, p.prio, pad64 (readBytes s (tileBase p.tile + p.src + 64 * p.sent) 64), c + 1, 2, p.acc⟩]) ∧
  (∀ (s : State) (p : PlanEnq) (g : Nat) (pay : List Byte), planOf s p.tile p.acc = some p → p.bad = false → p.pkt = false →
    let s' := planMeets s p g pay
    let more := p.sent + 1 < p.ncell
    (accepts s p.queue = true → (∀ i ∈ (queue s p.queue).parts, i.src ≠ p.part) →
      (queue s' p.queue).items =
        insertItem ⟨p.prio, [⟨lowestFree 0 s.qmu.used, pad64 pay, s.qmu.nextSeq⟩], 1, g + 1⟩ (queue s p.queue).items ∧
      planOf s' p.tile p.acc = some { p with sent := p.sent + 1, good := p.good + 1, read := if more then some g else none, due := g + 1 }) ∧
    (accepts s p.queue = false → rd s' Fd.qmuDisDropCount = satAdd 32 (rd s Fd.qmuDisDropCount) 1 ∧ s'.qmu.queues = s.qmu.queues ∧
      planOf s' p.tile p.acc = some { p with sent := p.sent + 1, read := if more then some g else none, due := g + 1 })) ∧
  (∀ (s : State) (t : Nat) (p0 p : PlanEnq), s.qmu.plans.find? (fun p => p.tile == t) = some p0 →
    let s1 := drivePlan t p0.acc (80 * p0.ncell + 80 * s.qmu.waiting.length + 80) s
    planOf s1 t p0.acc = some p → p.sent = p.ncell →
    let n := if p.pkt ∧ p.bad then 0 else p.good
    let s2 := settleTo { s1 with qmu := { s1.qmu with plans := s1.qmu.plans.erase p } } p.due
    exec (.planEnqComplete t) s =
      ok (postNow s2 (planPosting t p.tag (if n = p.ncell then St.done else St.dropped) p.acc (max p.due s2.now) n)))

/-! The turn. -/

/-- R19 to R21, R37, R193, R411: with the hub up each turn register takes a valid write, and a TRN register rejects an invalid one, or a
follower's, whole (the rejection is what rejectTrn leaves); before that a write has no effect. R19: a rejected TRN write sets
NOTICE.REJECT, counts an error on the TRN page and changes no other field of the TRN. -/
def Obligations.TurnRegisters : Prop :=
  (∀ (s : State),
     (hubUp s = false → ∀ v32 v64 v128 ix, ix < 64 →
       Ignored (.trnLenWrite v32) s ∧ Ignored (.trnGuardWrite v32) s ∧ Ignored (.trnApplyWrite v64) s ∧
       Ignored (.trnCtxbaseWrite v64) s ∧ Ignored (.trnWheelWrite ix v128) s ∧ Ignored (.trnWheelCtlWrite v32) s ∧
       (ix < 8 → Ignored (.moduleStepApplyWrite ix v64) s)) ∧
     (hubUp s = true →
       (∀ v : BitVec 32, let n := bits v.toNat 19 0
         (follower s = false → 16 ≤ n → n ≤ 524288 → 2 * rd s Fd.trnGuardCc ≤ n * 1024 →
           Completes (.trnLenWrite v) s fun s' => Sets s s' [(Fd.trnLenUnits, n)]) ∧
         ((follower s = true ∨ n < 16 ∨ 524288 < n ∨ n * 1024 < 2 * rd s Fd.trnGuardCc) →
           exec (.trnLenWrite v) s = ok (rejectTrn s))) ∧
       (∀ v : BitVec 32, let n := bits v.toNat 16 0
         (follower s = false → parOk (rd s Fd.trnLenUnits) n = true →
           Completes (.trnGuardWrite v) s fun s' => Sets s s' [(Fd.trnGuardCc, n)]) ∧
         ((follower s = true ∨ parOk (rd s Fd.trnLenUnits) n = false) → exec (.trnGuardWrite v) s = ok (rejectTrn s))) ∧
       (∀ v : BitVec 64, let n := bits v.toNat 47 0
         (follower s = false → turnNo s + 2 ≤ n → Completes (.trnApplyWrite v) s fun s' =>
           Sets { s with turn := { s.turn with arm := some n } } s' [(Fd.trnApplyTurn, n)]) ∧
         ((follower s = true ∨ n < turnNo s + 2) → exec (.trnApplyWrite v) s = ok (rejectTrn s))) ∧
       (∀ v : BitVec 64, let n := bits v.toNat 39 16
         (n * 0x10000 + 0x2000000 ≤ 0xC000000000 → Completes (.trnCtxbaseWrite v) s fun s' => Sets s s' [(Fd.trnCtxbaseBase, n)]) ∧
         (0xC000000000 < n * 0x10000 + 0x2000000 → exec (.trnCtxbaseWrite v) s = ok (rejectTrn s))) ∧
       (∀ (v : BitVec 128) (ix : Nat), ix < 64 → let n := v.toNat
         ((∀ t, t < 64 → (bits n 63 0).testBit t = true → capTile s.variant t = true) → Completes (.trnWheelWrite ix v) s fun s' =>
           Sets { s with turn := { s.turn with wheelHold := s.turn.wheelHold ++ [(ix, if offset s = 0 then 1 else 2,
             rd s (Fd.trnWheelProg ix), rd s (Fd.trnWheelTiles ix))] } } s' [(Fd.trnWheelProg ix, bits n 66 64), (Fd.trnWheelTiles ix, bits n 63 0)]) ∧
         ((∃ t, t < 64 ∧ (bits n 63 0).testBit t = true ∧ capTile s.variant t = false) →
           exec (.trnWheelWrite ix v) s = ok (rejectTrn s))) ∧
       (∀ v : BitVec 32, let n := bits v.toNat 6 0
         (n ≤ 64 → Completes (.trnWheelCtlWrite v) s fun s' =>
           Sets { s with turn := { s.turn with wheelNext := s.turn.wheelNext ++ [(2, n)] } } s' [(Fd.trnWheelCtlLen, n)]) ∧
         (64 < n → exec (.trnWheelCtlWrite v) s = ok (rejectTrn s))) ∧
       (∀ (v : BitVec 64) (p : Nat), p < 8 → let n := bits v.toNat 47 0
         (turnNo s + 2 ≤ n → Completes (.moduleStepApplyWrite p v) s fun s' =>
           Sets s s' [(Fd.moduleStepApplyTurn p, n), (Fd.moduleStepApplyArmed p, 1)]) ∧
         (n < turnNo s + 2 → Completes (.moduleStepApplyWrite p v) s fun s' =>
           Sets s s' [(Fd.moduleStepStsReject, (rd s Fd.moduleStepStsReject ||| 2 ^ p) % 256)])))) ∧
  (∀ s : State, rd (rejectTrn s) Fd.nTrnReject = 1 ∧
     rd (rejectTrn s) (Fd.errcntCount trnPage) = satAdd 32 (rd s (Fd.errcntCount trnPage)) 1 ∧
     (∀ f ∈ [Fd.trnLenUnits, Fd.trnGuardCc, Fd.trnApplyTurn, Fd.trnCtxbaseBase, Fd.trnWheelCtlLen, Fd.trnCurUnits, Fd.trnCurGuard,
       Fd.trnTurnNoTurn], rd (rejectTrn s) f = rd s f) ∧ (rejectTrn s).turn = s.turn ∧ (rejectTrn s).mem = s.mem)

/-- R24: with the hub up TURN_START runs the turn start of the rules in order, after the guard band where none was run; the turn number
goes on by one modulo 2^48, or to the number that a beacon gave. R21, R31: the length and the guard band of a turn change only where the
arm names that turn and the module follows no beacon, or to what the last beacon gave. R22, R29, R32: the guard band starts once per turn,
ends every tile's plan with its sweeps, lookups, applications and dispatches, and moves the end of the turn by the phase error of a module
with lock, by at most 64 cc. The refresh slots start and end in their cycles. -/
def Obligations.TurnStartGuardAndSlots : Prop :=
  (∀ s : State, hubUp s = true →
     let s0 := if s.turn.inGuard then s else guardBand s
     let c := s0.turn.stop
     let n := s0.turn.nextNo.getD ((rd s0 Fd.trnTurnNoTurn + 1) % 2 ^ 48)
     let s1 := startTimer (kilnTurn (holdTurn (settleTo s0 c)) s0.turn.start s0.turn.stop) n c
     let s2 := powerTurn (resetsTurn s1 c) n c
     (s2.boot.p3 = true → exec .turnStart s = ok s2) ∧
     (s2.boot.p3 = false → exec .turnStart s = ok (originBeacon
       (((List.range 64).filter (capTile s.variant)).foldl tileTurn
         (colTurn (firmwareTurn (throttleTurn (stepsTurn (wheelTurn s2 n) n) n) n) n s0.turn.start s0.turn.stop)) n)) ∧
     rd s1 Fd.trnTurnNoTurn = n % 2 ^ 48 ∧ s1.turn.start = c ∧ s1.turn.stop = c + 1024 * rd s1 Fd.trnCurUnits ∧
     s1.turn.guardAt = c + 1024 * rd s1 Fd.trnCurUnits - rd s1 Fd.trnCurGuard ∧ s1.turn.inGuard = false) ∧
  (∀ (s : State) (n c : Nat),
     let s' := startTimer s n c
     (∀ u g, s.turn.nextPar = some (u, g) → rd s' Fd.trnCurUnits = u % 2 ^ 20 ∧ rd s' Fd.trnCurGuard = g % 2 ^ 17) ∧
     (s.turn.nextPar = none → follower s = false → s.turn.arm = some n →
       rd s' Fd.trnCurUnits = rd s Fd.trnLenUnits % 2 ^ 20 ∧ rd s' Fd.trnCurGuard = rd s Fd.trnGuardCc % 2 ^ 17 ∧ s'.turn.arm = none) ∧
     (s.turn.nextPar = none → (follower s = true ∨ s.turn.arm ≠ some n) →
       rd s' Fd.trnCurUnits = rd s Fd.trnCurUnits ∧ rd s' Fd.trnCurGuard = rd s Fd.trnCurGuard ∧ s'.turn.arm = s.turn.arm)) ∧
  (∀ s : State,
     (let s0 := settleTo s (max s.now s.turn.guardAt)
      hubUp s = true → s.turn.inGuard = false → Completes .guardBandStart s fun s' =>
       let k : Int := if rd s0 Fd.trnStateLock = 1 ∨ rd s0 Fd.trnStateLock = 2 then max (-64) (min 64 s0.turn.slew) else 0
       s'.turn.inGuard = true ∧ s'.turn.guardAt = max s.now s.turn.guardAt ∧ s'.now = max s.now s.turn.guardAt ∧
       s'.turn.stop = max (s'.turn.guardAt + 1) ((s0.turn.stop : Int) + k).toNat ∧ s'.turn.slew = s0.turn.slew - k ∧
       ∀ t, (tile s' t).running = false ∧ (tile s' t).switching = none ∧ (tile s' t).sweeps = [] ∧ (tile s' t).lookups = [] ∧
         (tile s' t).applies = [] ∧ (tile s' t).dispatches = []) ∧
     (let c := if slotEnd s s.now ≠ s.now then s.now else nextSlot s s.now
      let s0 := settleTo s c
      hubUp s = true → s.turn.slotOpen = false → c < s.turn.stop → Completes .refreshSlotStart s fun s' =>
       s' = { s0 with fresh := s'.fresh, turn := { s0.turn with slotOpen := true } }) ∧
     (let s0 := settleTo s (slotEnd s s.now)
      s.turn.slotOpen = true → Completes .refreshSlotEnd s fun s' =>
       s' = { s0 with fresh := s'.fresh, turn := { s0.turn with slotOpen := false } }))

/-- R31 to R33, R306: the first beacon of a turn gives the number and the length of the next turn; it takes a free module to ACQUIRE and
gives a follower its phase error; an origin takes the port down, a malformed beacon is dropped, a second one only counted. After SOLO
(R343) the TRN stays as it is; by a port that is not UP, and in P3, none comes. R33: a turn without a beacon takes a locked or acquiring
module to HOLDOVER; past HOLD_TURNS the lock is reported lost. -/
def Obligations.BeaconsAndLock : Prop :=
  (∀ (s : State) (port turn units guard delay : Nat), port < 12 →
     let i := Instr.beacon port turn units guard delay
     (portUp s port = false ∨ s.boot.p3 = true → Ignored i s) ∧
     (portUp s port = true → s.boot.p3 = false →
     let s1 := bump s Fd.fritBeaconsCount 1
     let solo := rdb s Fd.moduleBootCtlSolo
     let sound : Bool := !fencedPage s fritPage && parOk units guard && decide (delay ≤ s.now + units * 1024)
     (sound = false → exec i s = ok (fritDrop s1)) ∧
     (sound = true → s.fma.origin = true → exec i s = ok (portDown (notice s1 Fd.nFrtOriginConflict) port)) ∧
     (sound = true → s.fma.origin = false → s.turn.beaconIn = true → Completes i s fun s' =>
       Sets s s' [(Fd.fritBeaconsCount, satAdd 32 (rd s Fd.fritBeaconsCount) 1)]) ∧
     (sound = true → s.fma.origin = false → s.turn.beaconIn = false → solo = false → rd s Fd.trnStateLock = 0 → Completes i s fun s' =>
       rd s' Fd.trnStateLock = 1 ∧ rd s' Fd.trnStateRole = 2 ∧ s'.turn.nextNo = some turn ∧ s'.turn.nextPar = some (units, guard) ∧
       s'.turn.beaconIn = true ∧ s'.turn.stop = max (s.now + 1) (s.now + units * 1024 - delay) ∧ SameMem s s') ∧
     (sound = true → s.fma.origin = false → s.turn.beaconIn = false → solo = false → rd s Fd.trnStateLock ≠ 0 →
       let e : Int := ((s.now + 1024 * rd s Fd.trnCurUnits : Nat) : Int) - delay - s.turn.stop
       Completes i s fun s' =>
         s'.turn.nextNo = some turn ∧ s'.turn.nextPar = some (units, guard) ∧ s'.turn.beaconIn = true ∧ s'.turn.held = 0 ∧
         s'.turn.slew = e ∧ s'.turn.good = (if -70 ≤ e ∧ e ≤ 70 then s.turn.good + 1 else 0) ∧
         rd s' Fd.trnStateLock = (if rd s Fd.trnStateLock = 2 ∨ rd s Fd.trnStateLock = 1 ∧ 4 ≤ s'.turn.good then 2 else 1) ∧ SameMem s s') ∧
     (sound = true → s.fma.origin = false → s.turn.beaconIn = false → solo = true → Completes i s fun s' =>
       s'.turn = { s.turn with beaconIn := true } ∧ rd s' Fd.trnStateLock = rd s Fd.trnStateLock ∧
       rd s' Fd.trnStateRole = rd s Fd.trnStateRole ∧ SameMem s s'))) ∧
  (∀ s : State,
     (rd s Fd.trnStateLock = 1 ∨ rd s Fd.trnStateLock = 2 → s.turn.beaconIn = false → s.turn.inGuard = true →
       Completes .holdoverEntry s fun s' =>
         Sets { s with turn := { s.turn with good := 0, held := 0, lost := false, slew := 0 } } s' [(Fd.trnStateLock, 3)]) ∧
     (rd s Fd.trnStateLock = 3 → s.turn.lost = false → rd s Fd.trnHoldTurns ≤ s.turn.held → Completes .lockLost s fun s' =>
       rd s' Fd.nTrnLockLost = 1 ∧ s'.turn = { s.turn with lost := true } ∧
       s'.col.ops = s.col.ops.map (fun o => { o with dl := some (min s.now (o.dl.getD s.now)) }) ∧
       (∀ f : Fld, f.key ≠ Fd.nTrnLockLost.key → rd s' f = rd s f) ∧ SameMem s s'))

/-- R25 to R29: the TSQ takes the entry at the head of its ring, as the slot holds it in that cycle: an END marks the plan ended; a
malformed entry posts BAD_DESC; an ISSUE entry goes to its unit in the first cycle that its offset, the TSQ and the unit allow, an entry
for a kiln where no other source goes first (R223), and the wait past its offset counts as late. s0 is the state in the cycle in which the
TSQ acts. R28, R29, R361: a write of TSQ_PLAN.WR that only adds entries is taken, and while SKIP is 1 entries go up to the next END, but
in a turn in which the ring keeps its entries; one that takes entries away is refused with NOTICE.REJECT; a tile that is not up ignores
it. -/
def Obligations.PlansAndPointers : Prop :=
  (∀ (s : State) (t : Nat),
     let drive := driveDue false (fun s => headDue s t) (2 ^ 20) (settle s)
     (∀ s0 : State, drive = some s0 → s0.now < s0.turn.guardAt →
       let e := headEntry s0 t
       let c := s0.now
       let due := s0.turn.start + e.offset
       let k := t / 16
       (e.isEnd = true → Completes (.planEntryIssue t) s fun s' =>
         tile s' t = { tile s0 t with ended := true } ∧ rd s' (Fd.tsqPlanRd t) = (rd s0 (Fd.tsqPlanRd t) + 1) % 2048 ∧ s'.now = c ∧
         (∀ u, u ≠ t → tile s' u = tile s0 u) ∧ SameMem s0 s') ∧
       (e.isEnd = false → badEntry s0 e = true → exec (.planEntryIssue t) s =
         ok (updTile (tsqRecord (nextRd s0 t) t e.tag St.badDesc c 0 0) t fun x => { x with nextIssue := c + 1 })) ∧
       (e.isEnd = false → badEntry s0 e = false → unitState s0 t e.unit = 0 → (e.unit = 7 → kilnGrants s0 k c (t % 16) = true) →
         Completes (.planEntryIssue t) s fun s' =>
           tile s' t = { tile s0 t with
             nextIssue := c + 1, issued := (tile s0 t).issued ++ [{ unit := e.unit, desc := e.desc, tag := e.tag, cyc := c }] } ∧
           rd s' (Fd.tsqPlanRd t) = (rd s0 (Fd.tsqPlanRd t) + 1) % 2048 ∧ s'.now = c ∧
           rd s' (Fd.tsqLateCycles t) = satAdd 32 (rd s0 (Fd.tsqLateCycles t)) (c - due) ∧
           (e.unit = 7 → kiln s' k = { kiln s0 k with nextAcc := c + 1 }) ∧ (e.unit ≠ 7 → s'.kilns = s0.kilns) ∧
           (∀ u, u ≠ t → tile s' u = tile s0 u) ∧ SameMem s0 s') ∧
       (e.isEnd = false → badEntry s0 e = false → unitState s0 t e.unit ≠ 0 → exec (.planEntryIssue t) s =
         ok (notPresent (updTile (bump (nextRd s0 t) (Fd.tsqLateCycles t) (c - due)) t fun x => { x with nextIssue := c + 1 }) t e c))) ∧
     (∀ d, headDue (settle s) t = some d → d ≤ (settle s).turn.guardAt →
       let s1 := settleTo (settle s) d
       (d ≤ (settle s).now → drive = some (settle s)) ∧
       (∀ d', (settle s).now < d → headDue s1 t = some d' → d' ≤ s1.turn.guardAt → d' ≤ s1.now → drive = some s1)) ∧
     (let e := headEntry s t
      let c0 := max s.now (tile s t).nextIssue
      tsqRuns s t = true →
       (e.isEnd = true ∨ badEntry s e = true → headDue s t = some c0) ∧
       (e.isEnd = false → badEntry s e = false → unitState s t e.unit = 0 → ∀ a, acceptFrom s t e.unit e.desc = some a →
         headDue s t = some (max (max c0 (s.turn.start + e.offset)) a)))) ∧
  (∀ (s : State) (t : Nat) (v : BitVec 32),
     let w := bits v.toNat 26 16
     let s1 := wr s (Fd.tsqPlanWr t) w
     let adds : Prop := ringCount s t ≤ (w + 2048 - rd s (Fd.tsqPlanRd t)) % 2048
     (tileUp s t = false → Ignored (.tsqPlanWrWrite t v) s) ∧
     (tileUp s t = true → ¬ adds → Completes (.tsqPlanWrWrite t v) s fun s' => Sets s s' [(Fd.nTsqReject t, 1)]) ∧
     (tileUp s t = true → adds → rdb s (Fd.tsqPlanSkip t) = false ∨ ringKept s = true → Completes (.tsqPlanWrWrite t v) s fun s' =>
       Sets s s' [(Fd.tsqPlanWr t, w)]) ∧
     (tileUp s t = true → adds → rdb s (Fd.tsqPlanSkip t) = true → ringKept s = false → ∀ p, (loaded s1 t).find? (fun p => p.2.isEnd) = some p →
       Completes (.tsqPlanWrWrite t v) s fun s' =>
         Sets s s' [(Fd.tsqPlanWr t, w), (Fd.tsqPlanRd t, (p.1 + 1) % 2048), (Fd.tsqPlanSkip t, 0)]) ∧
     (tileUp s t = true → adds → rdb s (Fd.tsqPlanSkip t) = true → ringKept s = false → (∀ p ∈ loaded s1 t, p.2.isEnd = false) →
       Completes (.tsqPlanWrWrite t v) s fun s' => Sets s s' [(Fd.tsqPlanWr t, w), (Fd.tsqPlanRd t, w)]))

/-- R35, R409: a context switch leaves the outgoing context in its area and gives the tile the incoming one: plan memory, TSQ_PLAN, PROG
and the register files of its cores; on the first turn after a reset nothing is saved. s0 is the state in the cycle in which it ends, as
losses on the way move it. -/
def Obligations.ContextSwitch : Prop :=
  ∀ (s s0 : State) (t prog : Nat), t < 64 →
    let drive := driveDue false (fun s => (tile s t).switching.map (ctxSwitchEnd s t)) (2 ^ 20) s
    ((tile s t).switching = some prog → ctxSwitchEnd s t prog ≤ s.now → ctxSwitchEnd s t prog ≤ s.turn.guardAt → drive = some s) ∧
    (drive = some s0 → (tile s0 t).switching = some prog →
    let c := ctxSwitchEnd s0 t prog
    let s2 := countStreams s0 (2 * t) (tile s0 t).switchShares c
    let s1 := if s2.boot.firstTurn.contains t then s2 else store s2 (ctxAt s2 (rd s2 (Fd.tsqProgProg t)) t) (ctxImage s2 t)
    let l := readBytes s1 (ctxAt s1 prog t) 0x10000
    Completes (.contextSwitchEnd t) s fun s' =>
      s'.mem = memWrite s1.mem (planBase t) (l.take 0x8000) ∧
      rd s' (Fd.tsqPlanSkip t) = bits (fieldLE l 0x8000 4) 31 31 ∧ rd s' (Fd.tsqPlanWr t) = bits (fieldLE l 0x8000 4) 26 16 ∧
      rd s' (Fd.tsqPlanRd t) = bits (fieldLE l 0x8000 4) 10 0 ∧ rd s' (Fd.tsqProgProg t) = prog % 2 ^ (Fd.tsqProgProg t).wid ∧
      (∀ c i, c < 32 → i < 32 →
        let img := (l.drop (0x9000 + 896 * c)).take 896
        (coreOf s' t c).rx i = (if i = 0 then 0 else fieldLE img (8 * i) 8 % 2 ^ 64) ∧
        (coreOf s' t c).rv i = fieldLE img (256 + 16 * i) 16 % 2 ^ 128 ∧
        (i < 8 → (coreOf s' t c).rp i = if i = 0 then 2 ^ 128 - 1 else fieldLE img (768 + 16 * i) 16 % 2 ^ 128)) ∧
      (∀ u c, u ≠ t → c < 32 → coreOf s' u c = coreOf s0 u c) ∧ (tile s' t).switching = none ∧ (tile s' t).nextIssue = c ∧
      t ∉ s'.boot.firstTurn)

/-! Rules stated whole. -/

/-- R193: a write of MODULE_STEP_NEXT p sets it whenever the MODULE page is up and the host reaches it. A write of MODULE_STEP_APPLY p
with a turn at least two ahead arms the stage; another one leaves the stage as it was and sets REJECT bit p. At the start of the armed
turn STEP takes the value that NEXT holds then and ARMED clears; in any other turn both stay (a program that a resynchronisation is due
for follows R194 instead). -/
def Obligations.StepStaging : Prop :=
  ∀ (s : State) (p : Nat), p < 8 →
    (∀ v : BitVec 64, blockUp s .module = true → BarOpen s → Completes (.registerWrite (0x120 + 4 * p) 4 v false) s fun s' =>
      Sets s s' [(Fd.moduleStepNextStep p, v.toNat % 2 ^ 32)]) ∧
    (∀ v : BitVec 64, hubUp s = true → let n := bits v.toNat 47 0
      (turnNo s + 2 ≤ n → Completes (.moduleStepApplyWrite p v) s fun s' =>
        Sets s s' [(Fd.moduleStepApplyTurn p, n), (Fd.moduleStepApplyArmed p, 1)]) ∧
      (n < turnNo s + 2 → Completes (.moduleStepApplyWrite p v) s fun s' =>
        Sets s s' [(Fd.moduleStepStsReject, (rd s Fd.moduleStepStsReject ||| 2 ^ p) % 256)])) ∧
    (∀ n, s.turn.resync.find? (fun r => r.1 == p) = none → let s' := stepsTurn s n
      (rdb s (Fd.moduleStepApplyArmed p) = true → rd s (Fd.moduleStepApplyTurn p) = n →
        rd s' (Fd.moduleStepStep p) = rd s (Fd.moduleStepNextStep p) % 2 ^ 32 ∧ rd s' (Fd.moduleStepApplyArmed p) = 0) ∧
      ((rdb s (Fd.moduleStepApplyArmed p) = false ∨ rd s (Fd.moduleStepApplyTurn p) ≠ n) →
        rd s' (Fd.moduleStepStep p) = rd s (Fd.moduleStepStep p) ∧
        rd s' (Fd.moduleStepApplyArmed p) = rd s (Fd.moduleStepApplyArmed p)) ∧
      rd s' (Fd.moduleStepNextStep p) = rd s (Fd.moduleStepNextStep p))

/-- R329: a dequeue from a queue with no readable cell takes no more time than any other: its data word has VALID 0, QUEUE set and every
other field 0, its payload is 0, and it changes no state of the queue, the stale timer included; a read of a broken queue also has VALID
0, but ERR 1 (s0 is the state in the cycle in which the port is granted). -/
def Obligations.EmptyDequeue : Prop :=
  ∀ (s : State) (consumer q : Nat) (bad : List Nat), consumer < 76 → q < 4096 →
    let links := (bad.filter fun i => s.qmu.used.contains i).foldl insertNat s.qmu.badLinks
    let s0 := grantDeq { s with qmu := { s.qmu with badLinks := links } } consumer
    let empty (err : Nat) : Prop := Completes (.dequeue consumer q bad) s fun s' => ∃ payload word,
      s'.out = s0.out ++ [.dequeued consumer payload word] ∧ bits word 63 63 = 0 ∧ bits word 62 61 = 0 ∧ bits word 60 60 = err ∧
      bits word 59 56 = 0 ∧ bits word 55 44 = q ∧ bits word 43 0 = 0 ∧ payload.take 56 = List.replicate 56 0 ∧
      payload.drop 56 = (if consumer = prodHif then leBytes 8 word else List.replicate 8 0) ∧
      (∀ p, queue s' p = queue s0 p) ∧ s'.qmu.used = s0.qmu.used ∧ s'.now = max s.now s.qmu.deqFree
    ((queue s0 q).broken = false → (queue s0 q).next s0.now = none → empty 0) ∧ ((queue s0 q).broken = true → empty 1)

/-- R373: every floor is a u16, 0 from manufacture. VERIFY ends with ROLLBACK when an entry lies below the floor of its component, and not
when it equals it; the commit raises each floor to the larger of the two; no command lowers a floor. -/
def Obligations.FloorsNeverFall : Prop :=
  (∀ c, floorOf State.reset c = 0) ∧
  (∀ (i : Instr) (s s' : State), exec i s = .next s' → ∀ c, floorOf s c ≤ floorOf s' c ∧ (floorOf s c < 2 ^ 16 → floorOf s' c < 2 ^ 16)) ∧
  (∀ (s : State) (x : SecCmd), s.sec.cmd = some x → x.cmd ≠ 2 →
    let m := s.sec.manifest
    (∀ d ∈ components, let b : Bank := if entrySame m d then { bytes := imageA s d, written := entrySize m d, valid := false } else bankB s d
      b.written = entrySize m d ∧ Config.sha384 (b.bytes.take (entrySize m d)) = entryDigest m d) →
    ((∃ d ∈ components, entrySvn m d < floorOf s d) → Completes .mbCommandComplete s fun s' =>
      rd s' Fd.secMbStsState = 0x15 ∧ s'.sec.phase = (settleTo s (x.since + hashCycles (components.map (entrySize m)).sum)).sec.phase) ∧
    ((∀ d ∈ components, floorOf s d ≤ entrySvn m d) → Completes .mbCommandComplete s fun s' =>
      rd s' Fd.secMbStsState = 2 ∧ s'.sec.phase = 2)) ∧
  (∀ s : State, ∀ c ∈ components, floorOf (commitUpdate s) c = max (floorOf s c) (entrySvn s.sec.manifest c))

/-! Bring-up, resets, fences, power. -/

/-- R355, R364: a class C reset returns every register to its reset value, empties the memories, the queues and the engines, starts
bring-up at stage 0 and leaves the update floors in flash alone. R355, R356, R360, R364: a class M reset, by the MMC or by PERST_N after
stage 4, keeps the MMC and SEC pages, SIEVE_CTL but at an exit from P3, and MODULE_RESETS with M added; every other register is at reset,
every memory is empty, and bring-up goes on at stage 3, or at stage 2 where the SEC has not yet verified the module (the model's reading,
log entry 21). While a class C reset comes up the MMC's command is ignored (R363). -/
def Obligations.ResetsLeave : Prop :=
  (∀ s : State, Completes .coldReset s fun s' =>
     (∀ f : Fld, rd s' f = f.rst) ∧ s'.mem = [] ∧ s'.tiles = [] ∧ s'.cores = [] ∧ s'.tags = [] ∧ s'.engines = [] ∧ s'.kilns = [] ∧
     s'.lanes = [] ∧ s'.pcq = [] ∧ s'.col = colInit ∧ s'.fma = fmaInit ∧ s'.qmu = qmuInit ∧ s'.hif = hifInit ∧ s'.mmc = mmcInit ∧
     s'.turn = turnInit s.now ∧ s'.soon = [] ∧ s'.now = s.now ∧ s'.boot.stagesDone = [] ∧ s'.boot.powered = true ∧ s'.boot.fences = [] ∧
     s'.boot.verified = false ∧ s'.boot.cRun = true ∧
     s'.sec.slotA = s.sec.slotA ∧ s'.sec.floors = s.sec.floors ∧ s'.sec.revoked = s.sec.revoked ∧ s'.sec.sessions = []) ∧
  (∀ s : State,
     let after (s' : State) : Prop :=
       rd s' Fd.moduleStateStage = (if s.boot.verified then 3 else 2) ∧ rd s' Fd.moduleResetsM = 1 ∧
       s'.boot.stagesDone = (if s.boot.verified then [0, 1, 2] else [0, 1]) ∧ s'.boot.p3 = false ∧ s'.mem = [] ∧
       s'.tiles = [] ∧ s'.cores = [] ∧ s'.tags = [] ∧ s'.engines = [] ∧ s'.kilns = [] ∧ s'.qmu = qmuInit ∧ s'.hif = hifInit ∧
       s'.fma = fmaInit ∧ s'.col = colInit ∧ s'.turn = turnInit s.now ∧ s'.soon = [] ∧ s'.boot.fences = [] ∧
       (∀ f : Fld, f.lo < 128 → f.addr ≠ 0x1C0 → f.addr ≠ 0x244 → keptByM f.addr = false → rd s' f = f.rst) ∧
       (∀ f : Fld, f.lo < 128 → 0xF00000 ≤ f.addr → s.sec.phase = 0 → rd s' f = rd s f) ∧
       (s.boot.p3 = false → ∀ t, t < 64 → rd s' (Fd.sieveCtlZrunTh t) = rd s (Fd.sieveCtlZrunTh t) ∧
         rd s' (Fd.sieveCtlZrunEn t) = rd s (Fd.sieveCtlZrunEn t)) ∧
       (s.boot.p3 = true → rd s' Fd.moduleResetsP3 = 1)
     let comesUp : Prop := bringUp s = true ∧ s.boot.p3 = false ∧ s.boot.cRun = true
     (s.boot.powered = true → 1 ∈ s.boot.stagesDone → ¬ comesUp → Completes .moduleResetCommand s after) ∧
     (s.boot.powered = false ∨ 1 ∉ s.boot.stagesDone ∨ comesUp → Ignored .moduleResetCommand s) ∧
     (s.boot.perst = false → s.boot.p3 = false → rdb s Fd.moduleStateNoservice = false → hubUp s = true →
       Completes .perstAssert s fun s' => after s' ∧ s'.boot.perst = true) ∧
     (s.boot.perst = false → (s.boot.p3 = true ∨ rdb s Fd.moduleStateNoservice = true ∨ hubUp s = false) →
       Completes .perstAssert s fun s' => s' = { s with fresh := s'.fresh, boot := { s.boot with perst := true } }) ∧
     (s.boot.perst = true → s.boot.p3 = true → Completes .perstDeassert s fun s' => after s' ∧ s'.boot.perst = false) ∧
     (s.boot.perst = true → s.boot.p3 = false → Completes .perstDeassert s fun s' =>
       s' = { s with fresh := s'.fresh, boot := { s.boot with perst := false } }) ∧
     (s.boot.powered = true → Completes .hotSwapOpen s fun s' =>
       s'.boot.powered = false ∧ s'.mem = [] ∧ s'.qmu = qmuInit ∧ (∀ f : Fld, rd s' f = f.rst)))

/-- R340, R343, R345, R366: each stage of bring-up that succeeds without a failed part stores its time and enters the next one; stages 8
to 10 do so before FAB_TO expires, and end with it otherwise. R345, R346, R374, R379: a failure of stages 2 to 4 that the module cannot go
on with, and the loss of the last die with a tile and a stack, take it to NOSERVICE with the code of the rule; parts that failed alone are
fenced. An MMC bank that fails leaves the other one, and with none the boot ROM. -/
def Obligations.BringUpStages : Prop :=
  (∀ (s : State) (ms : Nat),
     let done (k : Nat) : State := { s with boot := { s.boot with stagesDone := s.boot.stagesDone ++ [k], stageAt := s.now } }
     let moves (i : Instr) (s0 : State) (k : Nat) : Prop :=
       inStage s k = true → Completes i s fun s' => Sets s0 s' [(Fd.moduleStageMsMs k, ms % 2 ^ 32), (Fd.moduleStateStage, k + 1)]
     let log := s.sec.log ++ [s.sec.writes]
     let d6 : State := { done 6 with boot := { (done 6).boot with firstTurn := (List.range 64).filter (capTile s.variant) } }
     moves (.stagePower ms) (done 0) 0 ∧
     (s.mmc.rom = none → moves (.stageMmc ms 0) { done 1 with mmc := { s.mmc with addr := some (Config.i3cAddress s.boot.slotId) } } 1) ∧
     moves (.stageSec ms 0) { done 2 with
       boot := { (done 2).boot with verified := true }
       sec := { s.sec with floorsM := s.sec.floors, log := log.drop (log.length - 256) } } 2 ∧
     moves (.stageRails ms false) { done 3 with boot := { (done 3).boot with pwrGood := true } } 3 ∧
     (inStage s 4 = true → Completes (.stageHub ms []) s fun s' =>
       rd s' Fd.moduleStateStage = 5 ∧ rd s' (Fd.moduleStageMsMs 4) = ms % 2 ^ 32 ∧ s'.boot = (done 4).boot ∧ s'.turn.start = s.now ∧
       s'.mmc.peak = false ∧ SameMem s s') ∧
     (serviceWith s [] = true → moves (.stageHbm ms []) (done 5) 5) ∧
     (serviceWith s [] = true → moves (.stageCompute ms [] []) d6 6) ∧
     (inStage s 7 = true → s.boot.linkUp = true → rdb s Fd.moduleBootCtlSolo = false → rdb s Fd.moduleBootCtlFabricGo = false →
       Completes (.stageCxl ms) s fun s' => Sets (done 7) s' [(Fd.moduleStageMsMs 7, ms % 2 ^ 32)]) ∧
     (inStage s 7 = true → rdb s Fd.moduleBootCtlSolo = true → exec (.stageCxl ms) s = ok (enterReady (finishStage s 7 ms) ms)) ∧
     (inStage s 7 = true → rdb s Fd.moduleBootCtlSolo = false → rdb s Fd.moduleBootCtlFabricGo = true →
       exec (.stageCxl ms) s = ok (enterFabric (finishStage s 7 ms))) ∧
     (ms ≤ fabLimit s →
       (inStage s 8 = true → (∀ p, p < 12 → availPort s p = true → 2 ≤ rd s (Fd.portStateState p)) →
         (rdb s Fd.frtDomainOrigin = false ∨ coordValid s = true → Completes (.stageFabric ms) s fun s' =>
           Sets { done 8 with fma := { s.fma with origin := rdb s Fd.frtDomainOrigin } } s'
             ([(Fd.moduleStageMsMs 8, ms % 2 ^ 32), (Fd.moduleStateStage, 9)] ++
               if s.fma.origin = true ∧ rdb s Fd.frtDomainOrigin = false ∧ rd s Fd.trnStateRole = 1 then [(Fd.trnStateRole, 0)] else [])) ∧
         (rdb s Fd.frtDomainOrigin = true → coordValid s = false → Completes (.stageFabric ms) s fun s' =>
           rd s' Fd.moduleStateStage = 9 ∧ isOrigin s' = true ∧ ownNo s' = 0 ∧ rd s' Fd.trnStateRole = 1 ∧
           rd s' Fd.nFrtCoordValid = 1 ∧ s'.boot = (done 8).boot ∧ SameMem s s')) ∧
       (coordValid s = true → moves (.stageCoord ms) (done 9) 9) ∧
       (inStage s 10 = true → (isOrigin s = true ∨ rd s Fd.trnStateLock = 2) → Completes (.stageLock ms) s fun s' =>
         rd s' Fd.moduleStateStage = 11 ∧ rd s' Fd.moduleStateReady = 1 ∧ rd s' Fd.nModuleReady = 1 ∧
         rd s' (Fd.moduleStageMsMs 10) = ms % 2 ^ 32 ∧ rd s' (Fd.moduleStageMsMs 11) = ms % 2 ^ 32 ∧
         s'.boot.stagesDone = s.boot.stagesDone ++ [10, 11] ∧ SameMem s s')) ∧
     (fabLimit s < ms →
       (inStage s 8 = true → (∀ p, p < 12 → availPort s p = true → 2 ≤ rd s (Fd.portStateState p)) →
         exec (.stageFabric ms) s = ok (fabTimeout s (fabLimit s))) ∧
       (inStage s 9 = true → coordValid s = true → exec (.stageCoord ms) s = ok (fabTimeout s (fabLimit s))) ∧
       (inStage s 10 = true → (isOrigin s = true ∨ rd s Fd.trnStateLock = 2) → exec (.stageLock ms) s = ok (fabTimeout s (fabLimit s))))) ∧
  (∀ (s : State) (ms : Nat),
     let gone (s' : State) (code : Nat) : Prop :=
       rd s' Fd.moduleStateNoservice = 1 ∧ rd s' Fd.moduleStateReady = 0 ∧ rd s' Fd.moduleStateFail = code ∧ s'.mem = [] ∧
       s'.tiles = [] ∧ s'.qmu = qmuInit ∧ s'.boot.stagesDone = [0, 1, 2] ∧ s'.boot.pwrGood = false
     let out (i : Instr) (code : Nat) : Prop := Completes i s fun s' => gone s' code
     (∀ failed, inStage s 1 = true → s.mmc.rom = none → failed ≠ 0 →
       (failed = 1 → (bankB s 1).valid = true → Completes (.stageMmc ms failed) s fun s' =>
         rd s' Fd.moduleStateStage = 2 ∧ imageA s' 1 = (bankB s 1).bytes ∧ (1 ∈ s'.sec.bankA ↔ 1 ∉ s.sec.bankA) ∧ s'.mmc.rom = none) ∧
       (failed ≠ 1 ∨ (bankB s 1).valid = false → Completes (.stageMmc ms failed) s fun s' =>
         s' = { s with fresh := s'.fresh, mmc := { s.mmc with addr := some (Config.i3cAddress s.boot.slotId), rom := some [] } })) ∧
     (inStage s 2 = true → out (.stageSec ms 1) 1 ∧ out (.stageSec ms 3) 2 ∧ (otherSetOk s = false → out (.stageSec ms 2) 2) ∧
       (otherSetOk s = true → Completes (.stageSec ms 2) s fun s' =>
         rd s' Fd.nModuleReject = 1 ∧ rd s' Fd.moduleStateStage = 3 ∧ s'.sec.running = s.sec.prior ∧ 2 ∈ s'.boot.stagesDone ∧
         s'.boot.verified = true)) ∧
     (inStage s 3 = true → out (.stageRails ms true) 3) ∧
     (∀ failed : List Block, inStage s 4 = true →
       (∀ b ∈ failed, b ∈ [Block.hif, .fma, .trn, .qmu, .col, .frit, .frt]) → (∃ b ∈ failed, b ∈ [Block.hif, .fma, .trn, .qmu]) →
       out (.stageHub ms failed) 4) ∧
     (∀ failed : List Block, inStage s 4 = true → (∀ b ∈ failed, b ∈ [Block.col, .frit, .frt]) → exec (.stageHub ms failed) s =
       ok (throttleTurn (failed.foldl (fenceBlock 1)
         { enterStage (finishStage s 4 ms) 5 with turn := turnInit s.now, mmc := { s.mmc with peak := false } }) 0)) ∧
     (∀ failed : List Nat, inStage s 5 = true → (∀ k ∈ failed, capStack s.variant k = true) → exec (.stageHbm ms failed) s =
       ok (passStage (failed.foldl (fun s k => fenceNow s (stackPage k) 2) s) 5 ms)) ∧
     (∀ (failed : List Block) (pairs : List Nat), inStage s 6 = true → (∀ b ∈ failed, stage6Block s b = true) →
       (∀ d ∈ pairs, d < 4 ∧ capDie s.variant d = true ∧ capDie s.variant ((d + 1) % 4) = true) →
       ∃ s1, s1 = pairs.foldl reroutePair (failed.foldl (fun s b => fenceBlock (match b with | .die _ => 2 | _ => 1) s b) s) ∧
         exec (.stageCompute ms failed pairs) s =
           ok (passStage { s1 with boot := { s1.boot with firstTurn := (List.range 64).filter (capTile s1.variant) } } 6 ms)) ∧
     (∀ k, serviceWith s [] = false → gone (passStage s k ms) 5 ∧ rd (passStage s k ms) Fd.moduleStateStage = rd s Fd.moduleStateStage) ∧
     (∀ b, b ∈ [Block.hif, .fma, .trn, .qmu] → (railOn s 5 = true → out (.hubServiceFault b) 4) ∧
       (railOn s 5 = false → Ignored (.hubServiceFault b) s)))

/-- R343 to R345, R353: FABRIC_GO and SOLO take effect once, the first of them wins, and FAB_TO counts from FABRIC_GO; FAB_TIMEOUT and a
SOLO after stage 7 make the module READY at once, with FABRIC only where it has coordinates and lock and its COL, frit path and router
have passed their tests. -/
def Obligations.ReadyPaths : Prop :=
  ∀ (s : State) (ms : Nat),
    let ready (s' : State) : Prop :=
      rd s' Fd.moduleStateStage = 11 ∧ rd s' Fd.moduleStateReady = 1 ∧ rd s' Fd.nModuleReady = 1 ∧ 11 ∈ s'.boot.stagesDone ∧ SameMem s s'
    (hubUp s = false → Ignored .fabricGo s ∧ Ignored .solo s) ∧
    (hubUp s = true → rdb s Fd.moduleBootCtlFabricGo = true → Ignored .solo s ∧
      Completes .fabricGo s fun s' => Sets s s' [(Fd.moduleBootCtlFabricGo, 1)]) ∧
    (hubUp s = true → rdb s Fd.moduleBootCtlFabricGo = false →
      let s0 := if rdb s Fd.moduleBootCtlSolo then s else { s with boot := { s.boot with goMs := bringUpMs s } }
      (stageEnded s 7 = false ∨ rd s Fd.moduleStateStage ≠ 7 →
        Completes .fabricGo s (fun s' => Sets s0 s' [(Fd.moduleBootCtlFabricGo, 1)]) ∧
        Completes .solo s fun s' => Sets s s' [(Fd.moduleBootCtlSolo, 1)]) ∧
      (stageEnded s 7 = true → rd s Fd.moduleStateStage = 7 →
        (rdb s Fd.moduleBootCtlSolo = false → Completes .fabricGo s fun s' =>
          rd s' Fd.moduleBootCtlFabricGo = 1 ∧ rd s' Fd.moduleStateStage = 8 ∧ s'.boot.goMs = bringUpMs s ∧
          (∀ p, p < 12 → rd s' (Fd.portStateState p) = if availPort s p ∧ p ∉ s.boot.nocable ∧ rd s (Fd.portStateState p) = 0 then 1
            else rd s (Fd.portStateState p)) ∧ SameMem s s') ∧
        (rdb s Fd.moduleBootCtlSolo = true → Completes .fabricGo s fun s' => Sets s s' [(Fd.moduleBootCtlFabricGo, 1)]) ∧
        Completes .solo s fun s' => rd s' Fd.moduleBootCtlSolo = 1 ∧ ready s')) ∧
    (inStage s 8 = true ∨ inStage s 9 = true ∨ inStage s 10 = true →
      (fabLimit s ≤ ms → Completes (.fabTimeout ms) s fun s' => ready s' ∧ rd s' Fd.nModuleFabTimeout = 1) ∧
      (ms < fabLimit s → exec (.fabTimeout ms) s = .fault .noOperation)) ∧
    (let failed := s.boot.fences.any fun f => f.cause != 0 && (f.page == colPage || f.page == fritPage || f.page == frtPage)
     rd (enterReady s ms) Fd.moduleStateFabric =
      (if coordValid s = true ∧ (isOrigin s = true ∨ rd s Fd.trnStateLock = 2) ∧ failed = false then 1 else 0))

/-- R347, R348, R350, R363: a fence is requested for the next turn start unless it would leave no service; FENCE 0 ends a request, or
starts the return of a fenced unit: of a watch at once, of a router or a collective engine its test, of a port its reset and training, of
a tile, a CPT or a kiln its test, of a stack nothing before a reset of the module. A passed self-test makes the return due at the next
turn start. While the module comes up the resets that it asks for are ignored. R348: a unit that is not fenced yet is fenced with its
cause, which the fence log, the count and NOTICE.FENCE show; one that is fenced stays as it is. -/
def Obligations.Fences : Prop :=
  (∀ (s : State) (b : Block),
     (fenceScope b = none → Ignored (.fenceRequest b) s ∧ Ignored (.unfence b) s) ∧
     (∀ pg, fenceScope b = some pg → blockUp s b = false → Ignored (.fenceRequest b) s ∧ Ignored (.unfence b) s) ∧
     (∀ pg, fenceScope b = some pg → bringUp s = true → asksReset b = true → Ignored (.unfence b) s) ∧
     (∀ pg, fenceScope b = some pg → blockUp s b = true →
       (fencedPage s pg = false → serviceWith s (pg :: s.boot.fenceReq) = true → Completes (.fenceRequest b) s fun s' =>
         s' = { s with fresh := s'.fresh, boot := { s.boot with fenceReq := insertNat s.boot.fenceReq pg } }) ∧
       (fencedPage s pg = false → serviceWith s (pg :: s.boot.fenceReq) = false → Completes (.fenceRequest b) s fun s' =>
         Sets s s' [(Fd.nModuleReject, 1)]) ∧
       (fencedPage s pg = true → Completes (.fenceRequest b) s fun s' =>
         s' = { s with fresh := s'.fresh, boot := { s.boot with
           testReq := s.boot.testReq.filter (· != pg), testing := s.boot.testing.filter (· != pg),
           returning := s.boot.returning.filter (· != pg) } }) ∧
       (bringUp s = false ∨ asksReset b = false →
         let returns : Prop := Completes (.unfence b) s fun s' =>
           s' = { s with fresh := s'.fresh, boot := { s.boot with returning := insertNat s.boot.returning pg } }
         (fencedPage s pg = false → Completes (.unfence b) s fun s' =>
           s' = { s with fresh := s'.fresh, boot := { s.boot with fenceReq := s.boot.fenceReq.filter (· != pg) } }) ∧
         (fencedPage s pg = true → onFencedDie s b = true → Ignored (.unfence b) s) ∧
         (fencedPage s pg = true → onFencedDie s b = false →
           (∀ d, b = .nwu d → returns) ∧
           (∀ k, b = .mem k → Ignored (.unfence b) s) ∧
           (b = .frt ∨ b = .col ∨ b = .frit → Completes (.unfence b) s fun s' =>
             s' = { s with fresh := s'.fresh, boot := { s.boot with testing := insertNat s.boot.testing pg } }) ∧
           (∀ p, b = .port p → Completes (.unfence b) s fun s' =>
             pg ∈ s'.boot.testing ∧ rd s' Fd.moduleResetsL = 1 ∧
             rd s' (Fd.portStateState p) = (if s.boot.nocable.contains p then 0 else 1) ∧ (portX s' p).failed = false ∧ SameMem s s' ∧
             ((portX s p).wait = [] → ∀ f : Fld, f.lo < 128 → (f.addr < portPage p ∨ portPage p + 0x1000 ≤ f.addr) →
               f.key ≠ Fd.moduleResetsL.key → rd s' f = rd s f)) ∧
           (∀ t, b = .tsq t ∨ b = .cpt t → inP2 s = true → Completes (.unfence b) s fun s' => Sets s s' [(Fd.nModuleReject, 1)]) ∧
           (∀ t, b = .tsq t ∨ b = .cpt t → inP2 s = false → s.boot.kRun = none → Completes (.unfence b) s fun s' =>
             s' = { s with fresh := s'.fresh, boot := { s.boot with testReq := insertNat s.boot.testReq pg } }) ∧
           (∀ t, b = .tsq t ∨ b = .cpt t ∨ b = .kln t → inP2 s = false → s.boot.kRun ≠ none → returns) ∧
           (∀ k, b = .kln k → inP2 s = true → Completes (.unfence b) s fun s' => Sets s s' [(Fd.nModuleReject, 1)]) ∧
           (∀ k, b = .kln k → inP2 s = false → s.boot.kRun = none → Completes (.unfence b) s fun s' =>
             pg ∈ s'.boot.testing ∧ (kiln s' k).ready = 0 ∧
             (∀ a, kilnBase k ≤ a → a < kilnBase k + 0x4000000 → readByte s' a = 0) ∧ ∀ f, rd s' f = rd s f))) ∧
       (pg ∈ s.boot.testing → ∀ pass, Completes (.selfTestDone b pass) s fun s' =>
         s'.boot.testing = s.boot.testing.filter (· != pg) ∧
         s'.boot.returning = (if pass then insertNat s.boot.returning pg else s.boot.returning) ∧ s'.boot.fences = s.boot.fences ∧
         (∀ t, b = .tsq t ∨ b = .cpt t → rd s' Fd.moduleResetsT = 1) ∧ SameMem s s'))) ∧
  (∀ (s : State) (pg cause : Nat),
     (fencedPage s pg = true → fenceNow s pg cause = s) ∧
     (fencedPage s pg = false → fencedPage (fenceNow s pg cause) pg = true ∧ rd (fenceNow s pg cause) Fd.nModuleFence = 1 ∧
       rd (fenceNow s pg cause) Fd.moduleFenceLogPage = pg % 2 ^ Fd.moduleFenceLogPage.wid ∧
       rd (fenceNow s pg cause) Fd.moduleFenceLogCause = cause % 2 ^ Fd.moduleFenceLogCause.wid ∧
       pg ∉ (fenceNow s pg cause).boot.fenceReq))

/-- R345, R349, R351, R384, R389, R394: rail faults, thermal trips and link losses fence the part with the cause of the rule, or take the
module out of service; a failed link of neighbouring dies is rerouted and reported. A part without power is watched by nothing. R381,
R385, R387, R389, R390, R393: a sample of the MMC gives the telemetry registers, the sensors, the samples of the window and the notices of
its limits, and a sensor counts as hot from its own threshold until it falls 3 degrees below; a cable that goes takes its port down, one
that comes lets it train once stage 8 has begun. -/
def Obligations.PartFaultsAndSamples : Prop :=
  (∀ s : State,
     (∀ d, capDie s.variant d = true → railOn s 6 = true →
       exec (.railFault (.die d)) s = ok (checkService (fenceDie (mmcError s (0xFFFFF0 + d)) d 3)) ∧
       exec (.thermalTrip (.die d)) s = ok (checkService (fenceDie (mmcError s (0xFFFFF0 + d)) d 4))) ∧
     (∀ k, capStack s.variant k = true →
       (railOn s 3 = true → exec (.railFault (.stack k)) s = ok (checkService (fenceNow (mmcError s (stackPage k)) (stackPage k) 3)) ∧
         exec (.thermalTrip (.stack k)) s = ok (checkService (fenceNow (mmcError s (stackPage k)) (stackPage k) 2))) ∧
       (railOn s 6 = true → exec (.hbmPhyLoss k) s = ok (checkService (fenceNow s (stackPage k) 2)))) ∧
     (railOn s 3 = true → exec (.railFault .hub) s = ok (noService (mmcError s 0) 3) ∧
       exec (.thermalTrip .hub) s = ok (noService (mmcError s 0) 3)) ∧
     (railOn s 3 = false → (∀ k, capStack s.variant k = true → Ignored (.railFault (.stack k)) s ∧ Ignored (.thermalTrip (.stack k)) s) ∧
       Ignored (.railFault .hub) s ∧ Ignored (.thermalTrip .hub) s) ∧
     (railOn s 6 = false → ∀ d, capDie s.variant d = true →
       Ignored (.railFault (.die d)) s ∧ Ignored (.thermalTrip (.die d)) s ∧ (∀ k, capStack s.variant k = true → Ignored (.hbmPhyLoss k) s)) ∧
     (∀ d, d < 4 → capDie s.variant d = true → capDie s.variant ((d + 1) % 4) = true → railOn s 6 = true →
       Completes (.d2dLinkFailure d) s fun s' => rd s' Fd.nModuleReroute = 1 ∧
         (rd s Fd.moduleStateReroute < 16 → rd s' Fd.moduleStateReroute = rd s Fd.moduleStateReroute ||| 2 ^ d) ∧
         (∀ f : Fld, f.key ≠ Fd.nModuleReroute.key → f.key ≠ Fd.moduleStateReroute.key → rd s' f = rd s f) ∧ SameMem s s')) ∧
  (∀ s : State,
     (∀ x : Sample, s.boot.powered = true → 1 ∈ s.boot.stagesDone → Completes (.mmcSample x) s fun s' =>
       rd s' Fd.mmcVinVin = x.vin % 2 ^ Fd.mmcVinVin.wid ∧ rd s' Fd.mmcPinLast = x.pin % 2 ^ Fd.mmcPinLast.wid ∧
       rd s' Fd.mmcTempDie = x.dies.foldl max 0 % 2 ^ Fd.mmcTempDie.wid ∧
       rd s' Fd.mmcTempHbm = x.hbms.foldl max 0 % 2 ^ Fd.mmcTempHbm.wid ∧
       s'.mmc.dies = x.dies ∧ s'.mmc.hbms = x.hbms ∧ s'.mmc.conv = x.conv ∧ s'.mmc.rails = x.rails ∧
       (∀ d v, d < 4 → x.dies[d]? = some v → (d ∈ s'.mmc.hot ↔ 95 ≤ v ∨ (d ∈ s.mmc.hot ∧ 92 < v))) ∧
       (∀ k v, k < 16 → x.hbms[k]? = some v → (4 + k ∈ s'.mmc.hot ↔ 90 ≤ v ∨ (4 + k ∈ s.mmc.hot ∧ 87 < v))) ∧
       s'.mmc.powers = (x.pin :: s.mmc.powers).take (200 * rd s Fd.mmcPlimitWin) ∧
       s'.mmc.peak = (s.mmc.peak || decide (peakFigure s.variant < x.pin)) ∧ s'.mmc.low = decide (x.vin < 5100) ∧
       (x.vin < 5100 → rd s' Fd.nMmcVinLow ≠ 0) ∧ (6000 < x.vin → rd s' Fd.nMmcVinHigh ≠ 0) ∧ (40 < x.inlet → rd s' Fd.nMmcCoolant ≠ 0) ∧
       (s'.mmc.hot ≠ [] → rd s' Fd.nMmcThermal ≠ 0) ∧ SameMem s s') ∧
     (∀ x : Sample, s.boot.powered = false ∨ 1 ∉ s.boot.stagesDone → Ignored (.mmcSample x) s) ∧
     (∀ p, p < 12 → capPort s.variant p = true → Completes (.cablePresenceChange p false) s fun s' =>
       rd s' (Fd.portStateState p) = 0 ∧ s'.boot.nocable = insertNat s.boot.nocable p ∧
       (2 ≤ rd s (Fd.portStateState p) → rd s' (Fd.nPortDown p) = 1) ∧ SameMem s s') ∧
     (∀ p, p < 12 → capPort s.variant p = true → Completes (.cablePresenceChange p true) s fun s' =>
       s'.boot.nocable = s.boot.nocable.filter (· != p) ∧
       rd s' (Fd.portStateState p) = (if rd s (Fd.portStateState p) = 0 ∧ (portX s p).failed = false ∧ availPort s p ∧ 8 ≤ rd s Fd.moduleStateStage ∧
         rdb s Fd.moduleBootCtlFabricGo ∧ rdb s Fd.moduleBootCtlSolo = false ∧ hubUp s then 1 else rd s (Fd.portStateState p)) ∧
       SameMem s s'))

/-- R355, R357, R359, R360, R363: the requests of resets and of power transitions wait for the turn start they name, in P2 a class K or T
request is refused, and while the module comes up it is ignored; a class K or T reset that ends says so in MODULE_RESETS; a port reset
returns its page and trains the port. -/
def Obligations.ResetsAndPower : Prop :=
  ∀ s : State,
    (hubUp s = false ∨ bringUp s = true → Ignored .kResetRequest s) ∧ (hubUp s = false → ∀ v, Ignored (.modulePwrWrite v) s) ∧
    (hubUp s = true → bringUp s = false → inP2 s = false → Completes .kResetRequest s fun s' => Sets s s' [(Fd.moduleResetK, 1)]) ∧
    (hubUp s = true → bringUp s = false → inP2 s = true → Completes .kResetRequest s fun s' => Sets s s' [(Fd.nModuleReject, 1)]) ∧
    (∀ c, s.boot.kRun = some c → Completes .kResetEnd s fun s' =>
      let s0 := settleTo s c
      Sets { s0 with boot := { s0.boot with kRun := none } } s' [(Fd.moduleResetKbusy, 0), (Fd.moduleResetsK, 1)]) ∧
    (∀ t, blockUp s (.tsq t) = true → bringUp s = false → s.boot.kRun = none →
      (inP2 s = false → Completes (.tResetRequest t) s fun s' =>
        s' = { s with fresh := s'.fresh, boot := { s.boot with tReq := insertNat s.boot.tReq t } }) ∧
      (inP2 s = true → Completes (.tResetRequest t) s fun s' => Sets s s' [(Fd.nModuleReject, 1)])) ∧
    (∀ t, blockUp s (.tsq t) = false ∨ bringUp s = true ∨ s.boot.kRun ≠ none → Ignored (.tResetRequest t) s) ∧
    (∀ t p, s.boot.tRun.find? (fun p => p.1 == t) = some p → Completes (.tResetEnd t) s fun s' =>
      let s0 := settleTo s p.2
      rd s' Fd.moduleResetsT = 1 ∧ s'.boot.tRun = s.boot.tRun.filter (fun q => q.1 != t) ∧ s'.now = max s.now p.2 ∧
      (∀ f : Fld, f.key ≠ Fd.moduleResetsT.key → rd s' f = rd s0 f) ∧ SameMemBut (tileBase t + 0x93FFC0) 64 s0 s') ∧
    (∀ p, blockUp s (.port p) = false ∨ bringUp s = true → Ignored (.portSoftReset p) s) ∧
    (∀ p, blockUp s (.port p) = true → bringUp s = false → Completes (.portSoftReset p) s fun s' =>
      rd s' Fd.moduleResetsL = 1 ∧
      rd s' (Fd.portStateState p) = (if fencedPort s p ∧ portPage p ∉ s.boot.testing ∨ p ∈ s.boot.nocable then 0 else 1) ∧
      ((portX s p).wait = [] → ∀ f : Fld, f.lo < 128 → (f.addr < portPage p ∨ portPage p + 0x1000 ≤ f.addr) →
        f.key ≠ Fd.moduleResetsL.key → rd s' f = rd s f) ∧ SameMem s s') ∧
    (∀ v : BitVec 64, hubUp s = true → let n := v.toNat
      (bits n 47 0 = rd s Fd.modulePwrTurn → Completes (.modulePwrWrite v) s fun s' => Sets s s' [(Fd.modulePwrTarget, bits n 59 58)]) ∧
      (bits n 47 0 ≠ rd s Fd.modulePwrTurn → bits n 47 0 < turnNo s + 2 → Completes (.modulePwrWrite v) s fun s' =>
        Sets s s' [(Fd.nModuleReject, 1)]) ∧
      (bits n 47 0 ≠ rd s Fd.modulePwrTurn → turnNo s + 2 ≤ bits n 47 0 → Completes (.modulePwrWrite v) s fun s' =>
        Sets s s' [(Fd.modulePwrTarget, bits n 59 58), (Fd.modulePwrTurn, bits n 47 0), (Fd.modulePwrArmed, 1)])) ∧
    (s.boot.moving = some 2 → Completes .powerTransitionDone s fun s' =>
      Sets { s with boot := { s.boot with moving := none } } s' [(Fd.modulePwrState, 2), (Fd.modulePwrBusy, 0)]) ∧
    (s.boot.moving = some 3 → Completes .powerTransitionDone s fun s' =>
      Sets { s with boot := { s.boot with moving := none } } s' [(Fd.modulePwrBusy, 0)]) ∧
    (∀ k, k ≤ 1 → s.boot.moving = some k → rd s Fd.modulePwrState = 2 → ∀ failed : List Block,
      (∀ b ∈ failed, stage6Block s b = true) → exec (.p2ExitDone failed) s =
        ok (checkService (failed.foldl (fun s b => fenceBlock (match b with | .die _ => 2 | _ => 1) s b) (leaveP2 s)))) ∧
    (let s' := leaveP2 s
     rd s' Fd.modulePwrState = (if s.boot.moving = some 1 then 1 else 0) ∧ rd s' Fd.modulePwrBusy = 0 ∧ s'.boot.moving = none ∧
     s'.lanes = [] ∧ s'.pcq = [] ∧ s'.cores.all (fun p => 64 ≤ p.1 / 32) = true)

/-- R7, R313, R314, R341, R342, R397, R405: a host write reaches no register while the function decodes no BAR, or in the IDE insecure
state (the first is the standard's: log entry 28); a write of a bad size or alignment is answered and changes nothing; one to a page that
is absent or not up, or to a read-only register, has no effect, nor has one while the host has no link; the sideband needs no link and is
served once the MMC runs; a write of ERRCNT clears it and FIRST_ERR whole; a write of TRN_LEN acts as TRN_LEN_WRITE. R6 to R8, R314, R405:
a write of a whole register without an action of its own, as the page of a block has it: an RW field takes its bits, a W1C field loses
those written 1, RO fields stay, a counter is cleared by any value, and no other field changes: reserved bits hold nothing. A W1S bit acts
where it is written 1, and a 0 does nothing. R398: ENABLE of a unit that has one is set from the next cycle on, by which what else is due
has happened; on every other page the write has no effect. -/
def Obligations.RegisterWrites : Prop :=
  (∀ (s : State) (addr size : Nat) (v : BitVec 64),
     let legal : Prop := (size = 1 ∨ size = 2 ∨ size = 4 ∨ size = 8) ∧ addr % size = 0
     (hostUp s = false ∨ rd s Fd.hifLinkIde = 3 → Ignored (.registerWrite addr size v false) s) ∧
     (hostUp s = true → rd s Fd.hifLinkIde ≠ 3 → s.hif.cfg.decode = false → Completes (.registerWrite addr size v false) s fun s' =>
       s' = { s with fresh := s'.fresh, out := s.out ++ [.reply 6 1 []] }) ∧
     (s.boot.powered = false ∨ 1 ∉ s.boot.stagesDone → Ignored (.registerWrite addr size v true) s) ∧
     (s.boot.powered = true → 1 ∈ s.boot.stagesDone →
       (legal → exec (.registerWrite addr size v true) s = ok (writeAt s addr size v.toNat)) ∧
       (¬ legal → Completes (.registerWrite addr size v true) s fun s' =>
         s' = { s with fresh := s'.fresh, out := s.out ++ [.reply 1 1 [addr]] })) ∧
     (BarOpen s →
     (legal → exec (.registerWrite addr size v false) s = ok (writeAt s addr size v.toNat)) ∧
     (¬ legal → Completes (.registerWrite addr size v false) s fun s' =>
       s' = { s with fresh := s'.fresh, out := s.out ++ [.reply 6 1 [addr]] }) ∧
     (legal → ¬ (0x31000 ≤ addr ∧ addr < 0x41000) → ¬ (0x58000 ≤ addr ∧ addr < 0x60000) → ¬ (0xF11000 ≤ addr ∧ addr < 0xF12000) →
       (pageBlock (addr - addr % 0x1000) = none → Ignored (.registerWrite addr size v false) s) ∧
       (∀ b, pageBlock (addr - addr % 0x1000) = some b → blockUp s b = false → Ignored (.registerWrite addr size v false) s)) ∧
     (legal → Completes (.registerWrite addr size v false) s fun s' => s'.variant = s.variant ∧ s.now ≤ s'.now) ∧
     (∀ b, pageBlock (blockPage b) = some b → blockUp s b = true →
       Ignored (.registerWrite (blockPage b) 4 v false) s ∧
       Completes (.registerWrite (blockPage b + 0x18) 4 v false) s fun s' =>
         Sets s s' [(Fd.errcntCount (blockPage b), 0), (Fd.firstErrInfo (blockPage b), 0)]) ∧
     (hubUp s = true → follower s = false → 16 ≤ bits v.toNat 19 0 → bits v.toNat 19 0 ≤ 524288 →
       2 * rd s Fd.trnGuardCc ≤ bits v.toNat 19 0 * 1024 →
       Completes (.registerWrite 0x1044 4 v false) s fun s' => Sets s s' [(Fd.trnLenUnits, bits v.toNat 19 0)]))) ∧
  (∀ (s : State) (addr size : Nat) (v : BitVec 64), BarOpen s → (size = 1 ∨ size = 2 ∨ size = 4 ∨ size = 8) → addr % size = 0 →
     (∀ b r i, pageBlock (addr - addr % 0x1000) = some b → blockUp s b = true →
       hits (RegRows.every ++ blockRows b) (addr % 0x1000) size = [(r, i)] → addr = blockPage b + r.off + r.stride * i → 8 * size = r.width →
       r.off ≠ 8 → r.off ≠ 0x18 → writeSpecial s b r.off i (regW s r addr addr size v.toNat) = none →
       (∀ t, b = .sieve t → ¬ (0x100 ≤ addr % 0x1000 ∧ addr % 0x1000 < 0x180)) →
       Completes (.registerWrite addr size v false) s fun s' =>
         (∀ f ∈ r.fields, rd s' (f.fld addr) =
           if r.counter then 0 else match f.acc with
             | .rw => bits v.toNat f.hi f.lo
             | .w1c => rd s (f.fld addr) &&& (2 ^ (f.hi - f.lo + 1) - 1 - bits v.toNat f.hi f.lo)
             | _ => rd s (f.fld addr)) ∧
         (∀ f : Fld, (∀ g ∈ r.fields, f.key ≠ (g.fld addr).key) → rd s' f = rd s f) ∧ s' = { s with fresh := s'.fresh, regs := s'.regs }) ∧
     (blockUp s .module = true → bringUp s = false → inP2 s = false →
       (bit v.toNat 0 = true → Completes (.registerWrite 0x240 4 v false) s fun s' => Sets s s' [(Fd.moduleResetK, 1)]) ∧
       (bit v.toNat 0 = false → Ignored (.registerWrite 0x240 4 v false) s))) ∧
  (∀ (s : State) (page : Nat) (on : Bool),
     (∀ b, pageBlock page = some b → hasEnable b = true → blockUp s b = true → Completes (.blockEnableWrite page on) s fun s' =>
       s' = { settleTo (wr s (Fd.blkctlEnable (blockPage b)) (if on then 1 else 0)) (s.now + 1) with fresh := s'.fresh } ∧
       rd s' (Fd.blkctlEnable (blockPage b)) = (if on then 1 else 0) ∧ s'.now = s.now + 1 ∧
       (Quiet s → Sets { s with
         now := s.now + 1, settled := s.now + 1, qmu := { s.qmu with counted := max (s.now + 1) s.qmu.counted } } s' [(Fd.blkctlEnable (blockPage b), if on then 1 else 0)])) ∧
     (∀ b, pageBlock page = some b → (hasEnable b = false ∨ blockUp s b = false) → Ignored (.blockEnableWrite page on) s) ∧
     (pageBlock page = none → Ignored (.blockEnableWrite page on) s))

/-- R6, R405: a register field reads back what was written in its width, every other field stays; a counter of 32 bits saturates and one
of 64 bits wraps. R6, R161: a byte stored to local memory reads back, and every byte outside the stored ones is as it was; a little-endian
number reads back as it was stored. R119: x0 reads 0 and p0 reads all ones whatever is written; every other register of a core reads back
its low 64 or 128 bits and a write leaves the others alone. R119, R130: elements written to a group of vector registers read back in
place, each in its width. -/
def Obligations.StateReadsBack : Prop :=
  (∀ (s : State) (f g : Fld) (v : Nat), g.key ≠ f.key →
     rd (wr s f v) f = v % 2 ^ f.wid ∧ rd (wr s f v) g = rd s g ∧ rd (bump s f v) g = rd s g ∧
     (f.wid = 32 → rd (bump s f v) f = min (rd s f + v) (2 ^ 32 - 1)) ∧ (f.wid = 64 → rd (bump s f v) f = (rd s f + v) % 2 ^ 64)) ∧
  (∀ (s : State) (a : Nat) (bs : List Byte),
     (∀ i, ∀ h : i < bs.length, readByte (store s a bs) (a + i) = bs[i]) ∧ SameMemBut a bs.length s (store s a bs) ∧
     (∀ n v, v < 256 ^ n → readLE (store s a (leBytes n v)) a n = v) ∧ (memWf s.mem = true → memWf (store s a bs).mem = true)) ∧
  (∀ (k : Core) (i j v : Nat),
     (k.wx i v).rx j = (if j = 0 then 0 else if j = i then v % 2 ^ 64 else k.rx j) ∧
     (k.wv i v).rv j = (if j = i then v % 2 ^ 128 else k.rv j) ∧
     (k.wp i v).rp j = (if j = 0 then 2 ^ 128 - 1 else if j = i then v % 2 ^ 128 else k.rp j) ∧
     (k.wx i v).v = k.v ∧ (k.wx i v).p = k.p ∧ (k.wv i v).x = k.x ∧ (k.wv i v).p = k.p ∧ (k.wp i v).x = k.x ∧ (k.wp i v).v = k.v ∧
     (k.wx 0 v = k) ∧ (k.wp 0 v = k)) ∧
  (∀ (k : Core) (start ty g : Nat) (l : List Nat), ty < 7 → (g = 1 ∨ g = 2 ∨ g = 4 ∨ g = 8) → l.length = 16 / tySize ty * g →
     (∀ j, ∀ h : j < l.length, (k.wElems start (tySize ty) l).elem start (tySize ty) j = l[j] % 2 ^ (8 * tySize ty)) ∧
     (∀ i, i < start ∨ start + g ≤ i → (k.wElems start (tySize ty) l).rv i = k.rv i) ∧
     (k.wElems start (tySize ty) l).x = k.x ∧ (k.wElems start (tySize ty) l).p = k.p)

/-! The matrix array, the code-product tables and the function tables. -/

/-- R69, R73, R79, R84, R87, R108, R109, R111, R114, R143 to R145: a unit takes its issued descriptor. One that passes the checks is
queued in the unit with its descriptor bytes, TAG, TILE_NUM and acceptance, and, for a sweep or a lookup, what a readout or a continuation
finds held; the next is taken a cycle after its last step or lookup entered. Of any other the status follows at cycle 10. -/
def Obligations.UnitsAccept : Prop :=
  ∀ (s : State) (t : Nat) (i : Issue), t < 64 →
    let s0 := settle s
    let x := tile s0 t
    let y := { x with issued := x.issued.erase i }
    let rejected (i' : Instr) (z : Tile) (p : Posting) (stop : Fld) : Prop := Completes i' s fun s' =>
      tile s' t = z ∧ OtherTiles t s0 s' ∧ s'.soon = insertPosting { p with read := some i.desc, stop := some stop } s0.soon ∧
      s' = { s0 with fresh := s'.fresh, tiles := s'.tiles, soon := s'.soon }
    (x.issued.find? (fun i => i.unit == 0) = some i →
      let b := readBytes s0 (tileBase t + i.desc) 64
      let d := sweepD b
      let chain := if d.start = 2 then x.chain else x.brickIdx
      let w := newSweep x b i.tag i.cyc (tileNum s0 t) chain i.desc
      (∀ st, d.check x.mxaHeld = some st →
        rejected (.sweep t) { y with mxaNext := max x.mxaFrom (i.cyc + 1) } (mxaPosting t i.tag st i.cyc (i.cyc + 10) (detail3 10 0 0) 0 0)
          (Fd.nMxaAbandon t)) ∧
      (d.check x.mxaHeld = none → Completes (.sweep t) s fun s' =>
        tile s' t = { y with sweeps := planSweeps (x.sweeps ++ [w]), chain := chain
                             brickIdx := (if d.start = 2 then x.brickIdx else x.brickIdx + d.mb * d.nb)
                             mxaHeld := (if d.readout then none else some ⟨d.family, d.mb, d.nb⟩)
                             bankSel := (if d.readout then 1 - x.bankSel else x.bankSel) } ∧
        w.desc = b ∧ w.tag = i.tag ∧ w.acc = i.cyc ∧ w.num = tileNum s0 t ∧ w.bank = x.bankSel ∧ w.snap = [] ∧ w.written = 0 ∧
        w.next = i.cyc + d.steps ∧
        (x.sweeps = [] → ∃ v : Sweep, planSweeps (x.sweeps ++ [w]) = [v] ∧ { v with edge := 0, ends := [], due := 0 } = w ∧
          v.edge = i.cyc + d.lead ∧
          (d.readout = false → v.ends = [] ∧ v.due = i.cyc + d.lead + d.steps + (if d.split then 85 else 64) + 32 * (d.mb - 1 + (d.nb - 1))) ∧
          (d.readout = true → v.ends.length = d.mb * d.nb)) ∧
        (d.start ≠ 2 → x.mxaHeld ≠ none → rd s' (Fd.nMxaHeldDrop t) = 1) ∧
        (∀ f : Fld, f.key / 128 < 0x70000 ∨ 0x74000 ≤ f.key / 128 → f.key ≠ (Fd.nMxaHeldDrop t).key → rd s' f = rd s0 f) ∧
        OtherTiles t s0 s' ∧ s' = { s0 with fresh := s'.fresh, regs := s'.regs, tiles := s'.tiles, lanes := s'.lanes })) ∧
    (x.issued.find? (fun i => i.unit == 6) = some i →
      let b := readBytes s0 (tileBase t + i.desc) 64
      let d := lookD b
      let l : Lookup :=
        { desc := b, place := i.desc, tag := i.tag, acc := i.cyc, first := 0, last := 0, num := tileNum s0 t, lost := [], after := 0, ends := [], due := 0,
          file := x.fileSel, held0 := if d.start = 2 then x.cptHeld else none, written := 0, looked := 0, snap := [] }
      (∀ st, d.check x.cptHeld = some st →
        rejected (.lookup t) { y with cptNext := max x.cptFrom (i.cyc + 1) } (cptPosting t i.tag st i.cyc (i.cyc + 10) (detail3 10 0 0) 0 0)
          (Fd.nCptAbandon t)) ∧
      (d.check x.cptHeld = none → Completes (.lookup t) s fun s' =>
        tile s' t = { y with lookups := planLookups (x.lookups ++ [l]), cptLast := i.cyc
                             cptHeld := (if d.readout then none else some ⟨b2n d.tr, d.b, d.outBricks⟩)
                             fileSel := (if d.readout then 1 - x.fileSel else x.fileSel) } ∧
        l.next = i.cyc + d.lookCc ∧
        (x.lookups = [] → ∃ v : Lookup, planLookups (x.lookups ++ [l]) = [v] ∧ { v with first := 0, last := 0, ends := [], due := 0 } = l ∧
          v.first = i.cyc + 40 + d.loadCc ∧ v.last = v.first + d.lookCc - 1 + 1 ∧
          (d.readout = false → v.ends = [] ∧ v.due = v.first + d.lookCc + 12) ∧ (d.readout = true → v.ends.length = d.outBricks)) ∧
        (d.start ≠ 2 → x.cptHeld ≠ none → rd s' (Fd.nCptHeldDrop t) = 1) ∧
        (∀ f : Fld, f.key ≠ (Fd.nCptHeldDrop t).key → rd s' f = rd s0 f) ∧
        OtherTiles t s0 s' ∧ s' = { s0 with fresh := s'.fresh, regs := s'.regs, tiles := s'.tiles })) ∧
    (x.issued.find? (fun i => i.unit == 2) = some i →
      let b := readBytes s0 (tileBase t + i.desc) 32
      let d := applyD b
      let a : Apply :=
        { desc := b, place := i.desc, tag := i.tag, acc := i.cyc, num := tileNum s0 t, lost := [], written := 0, flags := 0, nonfin := 0, snap := [] }
      (∀ st, d.check = some st →
        rejected (.ftuApply t) { y with ftuNext := max x.ftuFrom (i.cyc + 1) } (ftuPosting t i.tag st i.cyc (i.cyc + 10) (detail3 10 0 0) 0 0)
          (Fd.nFtuAbandon t)) ∧
      (d.check = none → Completes (.ftuApply t) s fun s' =>
        tile s' t = { y with applies := x.applies ++ [a] } ∧ a.due = i.cyc + 27 + d.nb * d.cc ∧ a.next = i.cyc + d.nb * d.cc ∧
        OtherTiles t s0 s' ∧ s' = { s0 with fresh := s'.fresh, tiles := s'.tiles }))

/-- R74 to R82, R85, R88, R90: an output brick of a sweep is written in its own write cycles, 1024 elements of the output format at C_OUT
plus the bricks ahead of it in readout order; no other byte of memory changes. The sweep of a tile that is due first completes at its
posting cycle: with READOUT nothing stays in its bank; without, every accumulator does. R106, R110, R111, R114, R115, R141 to R146: an
output brick of a lookup stands at C_OUT, a KiB of rows apart, one of an application at Y, each element the table's value of its input, as
its write cycles end; no other byte of memory changes. The lookup, or application, of a tile that is due first completes at its posting
cycle; a lookup without READOUT leaves its accumulators in its file. -/
def Obligations.TileUnitsComplete : Prop :=
  (∀ (s : State) (t : Nat) (w : Sweep), t < 64 → (tile s t).sweeps.find? (fun v => v.acc == w.acc) = some w →
     let d := sweepD w.desc
     (∀ b : List (Nat × Flags), (sweepOuts d w.num (accsOf s t w).accs)[w.written]? = some b →
       let s' := runDue s ⟨s.now, 0, t, w.acc⟩
       let a := tileBase t + d.cOut + w.written * (1024 * d.eo)
       readBytes s' a (1024 * d.eo) = b.flatMap (fun e => leBytes d.eo e.1) ∧ SameMemBut a (1024 * d.eo) s s' ∧ OtherTiles t s s' ∧
       (∀ u c, coreOf s' u c = coreOf s u c) ∧ s'.now = s.now ∧ (tile s' t).banks = (tile s t).banks ∧
       (tile s' t).sweeps.map (fun v => (v.acc, v.written)) =
         (tile s t).sweeps.map fun v => (v.acc, if v.acc = w.acc then w.written + 1 else v.written)) ∧
     (∀ s0 : State, driveDue false (fun s => dueOf Sweep.due (tile s t).sweeps) (2 ^ 20) s = some s0 →
       ∀ w : Sweep, firstDue Sweep.due (tile s0 t).sweeps = some w →
         let d := sweepD w.desc
         let r := accsOf s0 t w
         let outs := if d.readout then (sweepOuts d w.num r.accs).take w.ends.length else []
         let flags := Fl.cond (d.split && r.aln != 0) Fl.alnLoss |||
           (if d.readout then Fl.any (outs.map fun b => Fl.any (b.map Prod.snd)) else Fl.any (r.accs.map Prod.snd))
         Completes (.sweepDone t) s fun s' =>
           s'.now = s0.now ∧ (tile s' t).sweeps = leaveSweep w (tile s0 t).sweeps ∧
           (tile s' t).mxaNext = max (tile s0 t).mxaNext w.next ∧
           Tab.get [] (tile s' t).banks w.bank = (if d.readout then [] else r.accs.map Prod.fst) ∧
           (∀ k, k ≠ w.bank → Tab.get [] (tile s' t).banks k = Tab.get [] (tile s0 t).banks k) ∧
           (tile s' t).mxaHeld = (tile s0 t).mxaHeld ∧ SameMem s0 s' ∧ OtherTiles t s0 s' ∧ (∀ u c, coreOf s' u c = coreOf s0 u c) ∧
           rd s' (Fd.mxaOpsCount t) = satAdd 32 (rd s0 (Fd.mxaOpsCount t)) 1 ∧
           rd s' (Fd.mxaActiveCycles t) = (rd s0 (Fd.mxaActiveCycles t) + (d.steps - w.steps)) % 2 ^ 64 ∧
           Posted s' (prodTile t) (rd s' (Fd.mxaCqQueue t))
             { tag := w.tag, status := St.done, kind := Sk.mxa, idx := t, cyc := w.due,
               detail := detail3 (w.due - w.acc) ((outs.map (nonfinite (outFmt d.outfmt))).sum) (lostIn w.lost 0 w.due), flags := flags,
               count := w.ends.length })) ∧
  (∀ (s : State) (t : Nat), t < 64 →
     (∀ l : Lookup, (tile s t).lookups.find? (fun v => v.acc == l.acc) = some l →
       let d := lookD l.desc
       (d.b ≤ 32 →
         let s' := runDue s ⟨s.now, 1, t, l.acc⟩
         let a := tileBase t + d.cOut + l.written * (1024 * d.outSize)
         readBytes s' a (32 * d.b * d.outSize) = (cptBrick d l.num (lookAccs s t l) l.written).flatMap (fun e => leBytes d.outSize e.1) ∧
         SameMemBut a (1024 * d.outSize) s s' ∧ (inMarver d.cOut ((l.written + 1) * (1024 * d.outSize)) = true → OtherTiles t s s') ∧
         s'.now = s.now ∧ s'.regs = s.regs ∧ (tile s' t).lookups.map (fun v => (v.acc, v.written)) =
           (tile s t).lookups.map fun v => (v.acc, if v.acc = l.acc then l.written + 1 else v.written))) ∧
     (∀ s0 : State, driveDue false (fun s => dueOf Lookup.due (tile s t).lookups) (2 ^ 20) s = some s0 →
       ∀ l : Lookup, firstDue Lookup.due (tile s0 t).lookups = some l →
         let d := lookD l.desc
         let accs := lookAccs s0 t l
         let outs := (List.range l.ends.length).map (cptBrick d l.num accs)
         Completes (.lookupDone t) s fun s' =>
           s'.now = s0.now ∧ (tile s' t).lookups = leaveLookup l (tile s0 t).lookups ∧
           (tile s' t).cptNext = max (tile s0 t).cptNext l.next ∧
           Tab.get [] (tile s' t).files l.file = (if d.readout then [] else accs.map Prod.fst) ∧
           (∀ k, k ≠ l.file → Tab.get [] (tile s' t).files k = Tab.get [] (tile s0 t).files k) ∧
           (tile s' t).cptHeld = (tile s0 t).cptHeld ∧ SameMem s0 s' ∧ OtherTiles t s0 s' ∧
           rd s' (Fd.cptOpsCount t) = satAdd 32 (rd s0 (Fd.cptOpsCount t)) 1 ∧
           rd s' (Fd.cptLookupsCount t) = (rd s0 (Fd.cptLookupsCount t) + (d.lookups - l.looked)) % 2 ^ 64 ∧
           Posted s' (prodTile t) (rd s' (Fd.cptCqQueue t))
             { tag := l.tag, status := St.done, kind := Sk.cpt, idx := t, cyc := l.due,
               detail := detail3 (l.due - l.acc) ((outs.map (nonfinite (if d.outBf then bf16 else fp32))).sum) (lostIn l.lost 0 l.due),
               flags := (if d.readout then Fl.any (outs.map fun b => Fl.any (b.map Prod.snd)) else Fl.any (accs.map Prod.snd)),
               count := l.ends.length }) ∧
     (∀ a : Apply, (tile s t).applies.find? (fun v => v.acc == a.acc) = some a →
       let d := applyD a.desc
       let inp (base j : Nat) : Nat := readLE s (tileBase t + base + (a.written * 1024 + j) * d.inSize) d.inSize
       let out := tileBase t + d.yAddr + a.written * (1024 * d.outSize)
       (let s' := runDue s ⟨s.now, 2, t, a.acc⟩
        readBytes s' out (1024 * d.outSize) = (ftuBrick s t a a.written).flatMap (fun e => leBytes d.outSize e.1) ∧
        (a.snap = [] → ∀ j, j < 1024 → readLE s' (out + j * d.outSize) d.outSize =
           (ftuElem d a.num (inp d.xAddr j) (if d.mul then inp d.gAddr j else 0)).1 % 2 ^ (8 * d.outSize)) ∧
        SameMemBut out (1024 * d.outSize) s s' ∧
        (inMarver d.yAddr ((a.written + 1) * (1024 * d.outSize)) = true → OtherTiles t s s') ∧ s'.now = s.now ∧ s'.regs = s.regs ∧
        (tile s' t).applies.map (fun v => (v.acc, v.written)) =
           (tile s t).applies.map fun v => (v.acc, if v.acc = a.acc then a.written + 1 else v.written))) ∧
     (∀ s0 : State, driveDue false (fun s => dueOf Apply.due (tile s t).applies) (2 ^ 20) s = some s0 →
       ∀ a : Apply, firstDue Apply.due (tile s0 t).applies = some a → Completes (.ftuApplyDone t) s fun s' =>
         s'.now = s0.now ∧ (tile s' t).applies = (tile s0 t).applies.filter (fun v => v.acc != a.acc) ∧
         (tile s' t).ftuNext = max (tile s0 t).ftuNext a.next ∧ SameMem s0 s' ∧ OtherTiles t s0 s' ∧
         rd s' (Fd.ftuOpsCount t) = satAdd 32 (rd s0 (Fd.ftuOpsCount t)) 1 ∧
         (∀ f : Fld, f.key ≠ (Fd.ftuOpsCount t).key → f.key ≠ (Fd.flagsReg (ftuPage t)).key → rd s' f = rd s0 f) ∧
         Posted s' (prodTile t) (rd s' (Fd.grnCqQueue t))
           { tag := a.tag, status := St.done, kind := Sk.grn, idx := 0x8000 + t, cyc := a.due,
             detail := detail3 (a.due - a.acc) a.nonfin (lostIn a.lost 0 a.due), flags := a.flags, count := a.written }))

/-! The numerics watch and the Sieve's tags. -/

/-- R190, R191, R219: NWU_CTL takes a write in range whole, with HCLR also clearing both histograms of its die, and turns an out-of-range
one away; SIEVE_TSEL, SIEVE_CTL and the tag window and commands of SIEVE_TCMD act on the entry that SIEVE_TSEL selects, or wait in order
while a copy holds the Sieve; a page that is absent or not up ignores all of them. -/
def Obligations.WatchAndTagWrites : Prop :=
  ∀ s : State,
    (∀ (die : Nat) (v : BitVec 32), die < 4 → let n := v.toNat
      let up : Prop := capDie s.variant die = true ∧ s.boot.stagesDone.contains 6 = true
      let zero : List (Fld × Nat) := (List.range 16).flatMap fun j => [(Fd.nwuHistNCount die j, 0), (Fd.nwuHistSCount die j, 0)]
      let bad : Prop := bits n 20 16 < 4 ∨ 20 < bits n 20 16 ∨ bits n 15 12 = 0 ∨ bits n 11 8 = 0 ∨ bits n 7 4 = 0
      (¬ up → Ignored (.nwuCtlWrite die v) s ∧ Ignored (.hclr die) s) ∧
      (up → Completes (.hclr die) s fun s' => Sets s s' zero) ∧
      (up → bad → Completes (.nwuCtlWrite die v) s fun s' => Sets s s' [(Fd.nNwuReject die, 1)]) ∧
      (up → ¬ bad → Completes (.nwuCtlWrite die v) s fun s' =>
        Sets s s' ([(Fd.nwuCtlEn die, bits n 31 31), (Fd.nwuCtlK die, bits n 20 16), (Fd.nwuCtlAbinN die, bits n 15 12),
          (Fd.nwuCtlAbinP2 die, bits n 11 8), (Fd.nwuCtlAbinP3 die, bits n 7 4)] ++ if bit n 0 then zero else []))) ∧
    (∀ (t off : Nat) (bs : List Byte) (v : BitVec 32), t < 64 → let n := v.toNat
      let sel := rd s (Fd.sieveTselTag t)
      let b := bs.take (20 - off)
      let old := entryBytes (tagOf s t sel)
      let staged (i : Instr) (w : TagWrite) : Prop := (tile s t).sieve ≠ 0 → Completes i s fun s' =>
        tile s' t = { tile s t with staged := (tile s t).staged ++ [w] } ∧ OtherTiles t s s' ∧
        s' = { s with fresh := s'.fresh, tiles := s'.tiles }
      let entry (i : Instr) (new : List Byte) : Prop := (tile s t).sieve = 0 → Completes i s fun s' =>
        entryBytes (tagOf s' t sel) = new ∧ (∀ u k, k < 1024 → u ≠ t ∨ k ≠ sel → tagOf s' u k = tagOf s u k) ∧
        s' = { s with fresh := s'.fresh, tags := s'.tags }
      (tileUp s t = false → Ignored (.sieveTwinWrite t off bs) s ∧ Ignored (.sieveTselWrite t v) s ∧ Ignored (.sieveCtlWrite t v) s ∧
        Ignored (.tagDefault t) s ∧ Ignored (.tagClrstat t) s ∧ Ignored (.tagCold t) s) ∧
      (tileUp s t = true →
        ((tile s t).staged ≠ [] → Completes (.sieveTselWrite t v) s fun s' => Sets s s' [(Fd.nSieveReject t, 1)]) ∧
        ((tile s t).staged = [] → Completes (.sieveTselWrite t v) s fun s' => Sets s s' [(Fd.sieveTselTag t, bits n 9 0)]) ∧
        (bits n 15 0 = 0 → Completes (.sieveCtlWrite t v) s fun s' => Sets s s' [(Fd.nSieveReject t, 1)]) ∧
        (bits n 15 0 ≠ 0 → Completes (.sieveCtlWrite t v) s fun s' =>
          Sets s s' [(Fd.sieveCtlZrunEn t, bits n 31 31), (Fd.sieveCtlZrunTh t, bits n 15 0)]) ∧
        (b = [] → Ignored (.sieveTwinWrite t off bs) s) ∧ (b ≠ [] → staged (.sieveTwinWrite t off bs) (.bytes sel off b)) ∧
        staged (.tagCold t) (.cmd sel 1) ∧ staged (.tagClrstat t) (.cmd sel 2) ∧ staged (.tagDefault t) (.cmd sel 4) ∧
        (sel < 1024 →
          (b ≠ [] → entry (.sieveTwinWrite t off bs) (old.take off ++ b ++ old.drop (off + b.length))) ∧
          entry (.tagDefault t) (entryBytes tagDefault) ∧
          entry (.tagClrstat t) (old.take 32 ++ List.replicate 24 0 ++ old.drop 56) ∧
          entry (.tagCold t) (old.take 20 ++ [0, 0, 0, 0, 0, 0, 0xFF, old.getD 27 0 &&& 0x80, 0] ++ (old.drop 29).take 35 ++
            List.replicate 64 0))))

/-! The copy engines. -/

/-- R157 to R166, R273, R280: an engine accepts an issued descriptor, a hub engine one from its queue, and starts it at the later of its
acceptance and the release point where it holds none; behind a copy it is held, and COPY_START starts it in the cycle in which the release
point of the one ahead has come. At cycle 9 its descriptor is read and checked: a check that fails gives its record at cycle 10, else it
asks for its source and its destination, a copy that needs the Sieve only for its source. Nothing is stored. -/
def Obligations.CopyAccepted : Prop :=
  ∀ (s : State) (e : Nat), e < 132 →
    let t := engTile e
    let fresh (x : Engine) (desc : List Byte) (place : Option Nat) (tag acc : Nat) (y : Engine) : Prop :=
      ∃ c : Copy, y = { copies := x.copies ++ [c], release := x.release, count := x.count + 1 } ∧ c.id = x.count ∧ c.desc = desc ∧ c.place = place ∧
        c.tag = tag ∧ c.acc = acc ∧ c.start = (if x.copies = [] then some (max acc x.release) else none) ∧ c.going = false ∧
        c.hasSieve = false ∧ c.pass = false ∧ c.lost = [] ∧ c.shares = [] ∧ c.prog = copyProgInit ∧ c.counted = 0
    let only (s0 s' : State) : Prop := ∀ f, f ≠ e → engine s' f = engine s0 f
    (∀ (i : Issue) (op : Nat) (cmd : Instr), e < 128 →
      let s0 := settle s
      (tile s0 t).issued.find? (fun i => i.unit == 3 + e % 2) = some i →
      (cmd, op) ∈ [(Instr.copy e, 1), (.fill e, 2), (.hdump e, 3), (.hload e, 4)] →
      let a := tileBase t + i.desc
      let desc := readBytes s0 a 64
      ((copyD desc).op = op ∨ (copyD desc).op = 0 ∨ 4 < (copyD desc).op) → Completes cmd s fun s' =>
        only s0 s' ∧ tile s' t = { tile s0 t with issued := (tile s0 t).issued.erase i } ∧ OtherTiles t s0 s' ∧
        s' = { s0 with fresh := s'.fresh, tiles := s'.tiles, engines := s'.engines } ∧
        fresh (engine s0 e) desc (some a) i.tag i.cyc (engine s' e)) ∧
    (128 ≤ e → rdb s (Fd.fmaHpceEn (e - 128)) = true → hubHeld s (e - 128) < 2 →
      let r := engineDeq s prodFma (rd s (Fd.fmaHpceSq (e - 128)))
      bit r.2.2 63 = true → bit r.2.2 61 = true → Completes (.hubCopyItem (e - 128)) s fun s' =>
        only r.1 s' ∧ s' = { r.1 with fresh := s'.fresh, engines := s'.engines } ∧ fresh (engine r.1 e) r.2.1 none 0 r.1.now (engine s' e)) ∧
    (∀ c : Copy, (engine s e).copies.find? (fun x => x.id == c.id) = some c → c.going = false → s.now = moved c.lost (c.start.getD 0 + 9) →
      let s' := copyStep s e c.id 3
      let desc := match c.place with | some a => readBytes s a 64 | none => c.desc
      let lag := s.now - (c.start.getD 0 + 9)
      only s s' ∧ SameMem s s' ∧ s'.now = s.now ∧ (∀ u, tile s' u = tile s u) ∧
      (∀ st, (copyD desc).check s e = some st →
        engine s' e = { engine s e with copies := (engine s e).copies.filter (fun x => x.id != c.id), release := c.start.getD 0 + lag + 1 } ∧
        ∃ p : Posting, s'.soon = insertPosting p s.soon ∧
          p.rec_ = { tag := c.tag, status := st, kind := Sk.pce, idx := if engHub e then 0x8000 + (e - 128) else e, cyc := s.now + 1,
                     detail := (s.now + 1 - c.acc) % 2 ^ 32 + min (lostIn c.lost 0 s.now) 0xFFFF * 2 ^ 48, flags := 0, count := 0 } ∧
          p.stop = (if engHub e then none else some (Fd.nPceAbandon e)) ∧
          p.errs = (if 0x10 ≤ st then [engPage e] else []) ++
            (if st = St.badDesc ∧ engHub e = false ∧ (copyD desc).histBad = true then [sievePage t] else [])) ∧
      ((copyD desc).check s e = none → ∃ c' : Copy, copyOf s' e c.id = some c' ∧ c'.desc = desc ∧ c'.tag = c.tag ∧ c'.acc = c.acc ∧ c'.start = c.start ∧
        c'.readLag = lag ∧ c'.going = true ∧ c'.hasSieve = c.hasSieve ∧ c'.prog = c.prog)) ∧
    (∀ (s0 : State) (c : Copy) (t0 : Nat), driveDue (engHub e) (fun s => (startOf s e).map Prod.snd) (2 ^ 20) s = some s0 → startOf s0 e = some (c, t0) →
      Completes (.copyStart e) s fun s' => only s0 s' ∧ s' = { s0 with fresh := s'.fresh, engines := s'.engines } ∧
        engine s' e = { engine s0 e with copies := (engine s0 e).copies.map fun x => if x.id = c.id then { c with start := some t0 } else x })

/-- R155, R163, R165, R170 to R176, R187, R195: the engine's copy takes the free Sieve once its checks have ended and the Sieve has been
released, with the tag entry and STEP of that cycle. Of a converting one the tag is then checked: where it fails the record says BAD_DESC,
where the destination is nowhere BAD_ADDR, in the next cycle, and the Sieve is given back; else the copy takes its reference from the tag
or its history, or reads its source for it, and asks for its destination. A share whose pseudo-channel was held starts when the hold ends.
R30, R150, R162, R164 to R166, R168, R180, R183, R280: when a copy of the engine has committed its last unit it completes: it leaves the
engine with its release point, gives the Sieve back and posts DONE with its units, its waits and its lost cycles; a scaled narrowing one
changes its tag entry then. One that an error has stopped posts the status of the error, with what it had committed, in the cycle after.
-/
def Obligations.CopyRunsAndCompletes : Prop :=
  (∀ (s : State) (e : Nat), e < 132 →
     let t := engTile e
     let s0 := match (engine s e).copies.find? fun c => !c.going && c.start.isSome with
       | some c => settleTo s (moved c.lost (c.start.getD 0 + 9))
       | none => s
     let s1 := settleTo s0 (tile s0 t).sieveFrom
     (∀ c : Copy, e < 128 → (tile s0 t).sieve = 0 →
       (engine s1 e).copies.find? (fun c => c.going && c.d.needsSieve && !c.hasSieve) = some c →
       let entry := tagOf s1 t c.d.stag
       let g := tagE entry
       let pair := pairOf g.sf g.df
       let cold : Bool := pair.scaled && (g.hcount == 0 || g.srcsel)
       let c1 : Copy := { c with hasSieve := true, sieveAt := s1.now, entry := entry, step := tileStep s1 t }
       let held (s' : State) (c2 : Copy) : Prop :=
         tile s' t = { tile s1 t with sieve := 1 + e % 2 } ∧ OtherTiles t s1 s' ∧ s'.now = s1.now ∧ SameMem s1 s' ∧
         (∀ f, f ≠ e → engine s' f = engine s1 f) ∧
         engine s' e = { engine s1 e with copies := (engine s1 e).copies.map fun x => if x.id = c.id then c2 else x }
       let asks : Bool := c.d.hasDst && !c.dstRemote s1 && isHbm c1.dside.base
       let dstShares : List Share := if asks then sharesOf s1 10 e (s1.now - 9) 1 c1.dside c1.dstTotal else []
       let badTag : Bool := g.bad || c.d.scl || c.d.se != 0 || c.d.brick != g.brick || c.d.blen * 64 % g.srcBytes != 0 ||
         (pair.scaled && !cold && (c1.tagRef s1 e).isNone)
       let turnedAway (s' : State) (st : Nat) (errs : List Nat) : Prop :=
         tile s' t = { tile s1 t with sieve := 0, staged := [], sieveFrom := s1.now + 1 } ∧ OtherTiles t s1 s' ∧ s'.now = s1.now ∧ SameMem s1 s' ∧
         (engine s' e).copies = (engine s1 e).copies.filter (fun x => x.id != c.id) ∧ (engine s' e).release = s1.now + 2 ∧
         let p := copyPosting e c.tag c.acc st (s1.now + 1) 0 (c.sieveWait + lostIn c.lost 0 s1.now) 0 0
         s'.soon = insertPosting { p with errs := p.errs ++ errs } s1.soon
       (c.d.conv ≠ 1 → Completes (.sieveTake e) s fun s' => held s' { c1 with going := true, shares := c.shares ++ dstShares }) ∧
       (c.d.conv = 1 → badTag = true → Completes (.sieveTake e) s fun s' => turnedAway s' St.badDesc [sievePage t]) ∧
       (∀ st, c.d.conv = 1 → badTag = false → convStatus s1 c1 = some st → Completes (.sieveTake e) s fun s' => turnedAway s' st []) ∧
       (c.d.conv = 1 → badTag = false → convStatus s1 c1 = none →
         let ref := if pair.scaled = true ∧ cold = false then (c1.tagRef s1 e).getD 0 else 0
         let c2 : Copy := { c1 with ref := ref, cold := pair.scaled && g.hcount == 0 }
         (cold = true → Completes (.sieveTake e) s fun s' => held s' { c2 with pass := true } ∧
           (g.hcount = 0 → rd s' (Fd.nSieveCold t) = 1 ∧ rd s' (Fd.sieveColdCount t) = satAdd 32 (rd s1 (Fd.sieveColdCount t)) 1) ∧
           (g.hcount ≠ 0 → ∀ f : Fld, rd s' f = rd s1 f)) ∧
         (cold = false → Completes (.sieveTake e) s fun s' => held s' { c2 with going := true, shares := c.shares ++ dstShares }))) ∧
     (∀ (sh : Share) (stack pc : Nat) (c : Copy),
       (engine s e).copies.findSome? (fun c =>
         c.shares.find? fun b => !b.started && b.stack == stack && b.pc == pc && shareMoved s e b != 0) = some sh →
       let s1 := settleTo s (shareOrigin s e sh)
       (engine s1 e).copies.find? (fun c => c.shares.contains sh) = some c → Completes (.pcShareStart e stack pc) s fun s' =>
         engine s' e = { engine s1 e with copies := (engine s1 e).copies.map fun x =>
           if x.id = c.id then { c with shares := c.shares.map fun b => if b = sh then { b with started := true } else b } else x } ∧
         (∀ f, f ≠ e → engine s' f = engine s1 f) ∧ s' = { s1 with fresh := s'.fresh, engines := s'.engines })) ∧
  (∀ (s s0 : State) (e : Nat) (c : Copy), e < 132 → driveCopy e (2 * dueCount) (settle s) = some (s0, c) →
     let t := engTile e
     let prod := if engHub e then prodFma else prodTile t
     let cq := if engHub e then Fd.fmaHpceCq (e - 128) else Fd.pceCqQueue e
     let ix := if engHub e then 0x8000 + (e - 128) else e
     let ends (s' : State) (release sieveEnd : Nat) : Prop :=
       s'.now = s0.now ∧ SameMem s0 s' ∧
       engine s' e = { engine s0 e with copies := (engine s0 e).copies.filter (fun x => x.id != c.id), release := release } ∧
       (∀ f, f ≠ e → engine s' f = engine s0 f) ∧
       (c.hasSieve = true → tile s' t = { tile s0 t with sieve := 0, staged := [], sieveFrom := sieveEnd + 1 }) ∧ OtherTiles t s0 s' ∧
       (∀ p ∈ s'.fma.pend, p.stream = e → p.copy = c.id → 1 < p.kind)
     (∀ due, c.prog.err = none → c.due s0 e = some due →
       let last := lastOf (c.writes s0 e)
       let tagged := finishTag (if c.hasSieve then releaseSieve s0 t (due - 1) else s0) t c.job c.prog.st due
       Completes (.copyComplete e) s fun s' => ends s' (last.1 - 23) (due - 1) ∧
         (e < 128 → rd s' (Fd.pceOpsCount e) = satAdd 32 (rd s0 (Fd.pceOpsCount e)) 1) ∧
         (c.pair.scaled = true → s'.tags = tagged.1.tags) ∧
         Posted s' prod (rd s' cq)
           { tag := c.tag, status := St.done, kind := Sk.pce, idx := ix, cyc := due,
             detail := (due - c.acc) % 2 ^ 32 + min (last.1 - last.2) 0xFFFF * 2 ^ 32 + min (c.sieveWait + lostIn c.lost 0 due) 0xFFFF * 2 ^ 48,
             flags := Fl.any c.prog.units ||| Fl.cond c.retried Fl.retried ||| Fl.cond c.cold Fl.histCold |||
               (if c.pair.scaled then tagged.2 else 0), count := c.prog.units.length }) ∧
     (∀ st, c.prog.err = some st →
       let n := committed s0 e c
       let late := match (c.writes s0 e)[n - 1]? with | some w => if n = 0 then 0 else w.1 - w.2 | none => 0
       Completes (.copyComplete e) s fun s' => ends s' (c.prog.errAt + 1) c.prog.errAt ∧
         Posted s' prod (rd s' cq)
           { tag := c.tag, status := st, kind := Sk.pce, idx := ix, cyc := c.prog.errAt + 1,
             detail := (c.prog.errAt + 1 - c.acc) % 2 ^ 32 + min late 0xFFFF * 2 ^ 32 +
               min (c.sieveWait + lostIn c.lost 0 c.prog.errAt) 0xFFFF * 2 ^ 48,
             flags := Fl.any (c.prog.units.take n) ||| Fl.cond c.retried Fl.retried ||| Fl.cond (c.cold && n != 0) Fl.histCold, count := n }))

/-- R158 to R160, R162, R164 to R166, R178, R180, R187: a copy to local memory, alone in the module, from its start to its record. Every
unit has left its bytes, in the pieces that the blocks and their strides give, and its scale entries; no other byte has changed. The
source bytes are those that memory held, block by block, or that the other module has sent; a plain copy's units are the bytes of its
source, a FILL's those of its value, an HDUMP's the tag entries, a converting copy's its blocks converted one after another; an HLOAD
replaces the tag entries. -/
def Obligations.CopyMovesBytes : Prop :=
  ∀ (s s0 : State) (e : Nat) (c c' : Copy), e < 132 → (engine s e).copies = [c] → Quiet { s with engines := [] } →
    (∀ p ∈ s.engines, p.1 = e ∨ p.2.copies = []) → c.going = true → c.prog = copyProgInit → c.pass = false → c.creditWait = none →
    c.dstRemote s = false → (tile s (engTile e)).staged = [] → c.d.check s e = none →
    driveCopy e (2 * dueCount) (settle s) = some (s0, c') → c'.prog.err = none →
    let t := engTile e
    let d := c.d
    let all := (List.range c.units).flatMap fun i => (c'.unit s e i).data ++ (c'.unit s e i).scales
    let apart := ∀ g ∈ all, ∀ p, p < d.total → d.srcSide.base + d.srcSide.rel p < g.1 ∨ g.1 + g.2.length ≤ d.srcSide.base + d.srcSide.rel p
    Completes (.copyComplete e) s fun s' => s'.now = s0.now ∧ (engine s' e).copies = [] ∧
      (d.op ≠ 4 →
        (∀ a, (∀ g ∈ all, a < g.1 ∨ g.1 + g.2.length ≤ a) → Tab.find s'.mem a = Tab.find s.mem a) ∧
        (all.Pairwise (fun g h => g.1 + g.2.length ≤ h.1 ∨ h.1 + h.2.length ≤ g.1) → ∀ g ∈ all, readBytes s' g.1 g.2.length = g.2)) ∧
      (d.hasSrc = true → d.conv ≠ 1 → c'.prog.src.length = d.total ∨ c.srcRemote s = true) ∧
      (d.hasSrc = true → c.srcRemote s = false → d.op = 4 ∨ apart → ∀ p, p < c'.prog.src.length →
        c'.prog.src[p]? = some (readByte s (d.srcSide.base + d.srcSide.rel p))) ∧
      (let bs := c.scaleIn.2
       let at_ (k : Nat) : Nat := scaleAddr d.srcSide d.ssrc c.scaleIn.1 bs k
       0 < c.scaleIn.1 → d.hasSrc = true → c.srcRemote s = false → c'.prog.src.length = d.total →
        (∀ g ∈ all, ∀ k, k < d.total / bs → at_ k + c.scaleIn.1 ≤ g.1 ∨ g.1 + g.2.length ≤ at_ k) →
        c'.prog.scl = (List.range (d.total / bs)).map fun k => readBytes s (at_ k) c.scaleIn.1) ∧
      (c.srcRemote s = true → d.conv ≠ 1 → c'.prog.src = (List.range c.kibs).flatMap fun j =>
        (d.srcSide.pieces (1024 * j) (min 1024 (d.total - 1024 * j))).flatMap fun g => (Tab.get [] c.buf (2 * g.1)).take g.2.2) ∧
      (d.op = 1 → d.conv = 0 → ∀ i, i < c.units → (c'.unit s e i).data = (c.dside.pieces (1024 * i) (min 1024 (d.total - 1024 * i))).map fun g =>
        (g.2.1, (c'.prog.src.drop g.1).take g.2.2)) ∧
      (d.op = 1 → d.conv = 1 → c.pair ∈ [.narrow, .widen, .rounding] → d.total % c.ratio.1 = 0 →
        convertTo s e c.job c.ratio.1 c.dstTotal (c.units + 1) { copyProgInit with src := c'.prog.src, scl := c'.prog.scl } =
          ({ copyProgInit with src := c'.prog.src, scl := c'.prog.scl, out := c'.prog.out, els := c'.prog.els, blks := c'.prog.blks,
                               st := c'.prog.st }, none)) ∧
      (d.op = 2 → ∀ i, i < c.units → (c'.unit s e i).data = (c.dside.pieces (1024 * i) (min 1024 (c.dstTotal - 1024 * i))).map fun g =>
        (g.2.1, (List.range g.2.2).map fun q => BitVec.ofNat 8 (d.src >>> (8 * ((g.1 + q) % 8))))) ∧
      (d.op = 3 → ∀ k, k < d.blen / 2 →
        readBytes s' (off40 d.dst + 128 * k) 128 = entryBytes (tagOf s t (d.stag + k))) ∧
      (d.op = 4 → SameMem s s' ∧ ∀ k, k < 1024 →
        tagOf s' t k = if d.stag ≤ k ∧ k < d.stag + d.blen / 2 then entryOf (c'.prog.src.drop (128 * (k - d.stag))) else tagOf s t k)

/-- R162, R164, R265, R273, R274: a unit of a copy to another module is handed over as write units of its data and of its scale entries,
each waiting for its acknowledgement; where there is no room both wait, where there is no way the copy ends with that status. Each range
of the next KiB of a remote source is asked for as a read unit. Nothing is stored here. -/
def Obligations.RemoteUnitsAreSent : Prop :=
  ∀ (s : State) (e : Nat) (c : Copy) (cyc : Nat), copyOf s e c.id = some c →
    let got (s' : State) (l : List Pend) : Prop := s'.fma.pend = s.fma.pend ++ l ∧ SameMem s s' ∧ (∀ u, tile s' u = tile s u)
    (∀ us : List OutUnit, c.d.op ≠ 4 → c.dstRemote s = true →
      let k := c.prog.units.length
      let dst := c.d.dst / 2 ^ 40
      let data := us.flatMap OutUnit.data
      let scl := us.flatMap OutUnit.scales
      let need := if scl = [] then 1 else 2
      let s' := commitUnits s e c k cyc us
      (∀ st, remoteBlocked s dst e = some st → s' = failCopy (setCopy s e c) e c.id st) ∧
      (remoteBlocked s dst e = none → 4096 < s.fma.pend.length + need →
        s' = setCopy s e { c with creditWait := some s.now }) ∧
      (remoteBlocked s dst e = none → s.fma.pend.length + need ≤ 4096 → data ≠ [] → ∃ l : List Pend, got s' l ∧
        l.map (fun p => (p.kind, p.stream, p.copy, p.dst, p.unit, p.base, p.want, p.acc)) =
          [data, scl].filterMap (fun w => if w = [] then none else
            some (0, e, c.id, dst, k, (w.headD (0, [])).1, (w.map fun g => g.2.length).sum, cyc)) ∧
        copyOf s' e c.id = some { c with prog := { c.prog with units := c.prog.units ++ us.map OutUnit.flags } })) ∧
    (c.srcRemote s = true → let dst := c.d.src / 2 ^ 40
      let l := joinReads (c.readPieces c.sent)
      let s' := askNext s e c
      (∀ st, remoteBlocked s dst e = some st → s' = failCopy s e c.id st) ∧
      (remoteBlocked s dst e = none → 4096 < s.fma.pend.length + l.length → s' = setCopy s e { c with creditWait := some s.now }) ∧
      (remoteBlocked s dst e = none → s.fma.pend.length + l.length ≤ 4096 → ∃ ps : List Pend, got s' ps ∧
        ps.map (fun p => (p.kind, p.stream, p.copy, p.dst, p.unit, p.base, p.skip, p.want, p.parts)) =
          l.map (fun g => (1, e, c.id, dst, c.sent, g.1 / 16 * 16, g.1 % 16, g.2.1, g.2.2)) ∧
        copyOf s' e c.id = some { c with sent := c.sent + 1 }))

/-! The kilns. -/

/-- R223, R224, R235, R348: a kiln with room takes the job that a tile of its die issued, or a one-cell item of its queue: one that passes
the checks waits behind the others with its STEP, of any other the status follows ten cycles after acceptance; a fenced kiln answers a
queue item with NOT_PRESENT. It accepts one descriptor in a cycle, from its queue only where no tile's is before it in turn. KLN_RDYCLR
clears the named ready bits. -/
def Obligations.KilnAccepts : Prop :=
  ∀ (s : State) (k : Nat), k < 4 → capKiln s.variant k = true →
    let x := kiln s k
    let len := 1024 * rd s Fd.trnCurUnits
    let took (x : Kiln) (acc : Nat) : Kiln := { x with nextAcc := max x.nextAcc (acc + 1) }
    let queued (s0 s' : State) (desc : List Byte) (tag acc step : Nat) : Prop := KilnIs s0 s' k
      { took (kiln s0 k) acc with
        jobs := (kiln s0 k).jobs ++ [{ desc := desc, tag := tag, acc := acc, dt := (jobD desc).startDt, slot := none, step := step }] }
    let later (s0 s' : State) (tag st acc : Nat) : Prop := ∃ p : Posting, s'.soon = insertPosting p s0.soon ∧ p.unit = kilnPage k ∧
      p.prod = prodKiln k ∧ p.queue = Fd.klnCqQueue k ∧ (isReject st = true → p.notices = [Fd.nKlnReject k] ∧ p.errs = [kilnPage k]) ∧
      p.rec_ = { tag := tag, status := st, kind := Sk.kln, idx := k, cyc := acc + 10, detail := 10, flags := 0, count := 0 }
    (∀ (t : Nat) (i : Issue), t / 16 = k → (tile s t).issued.find? (fun i => i.unit == 7) = some i →
      let desc := readBytes s (tileBase t + i.desc) 64
      let taken (s' : State) : Prop :=
        tile s' t = { tile s t with issued := (tile s t).issued.erase i } ∧ OtherTiles t s s' ∧
        s' = { s with fresh := s'.fresh, tiles := s'.tiles, kilns := s'.kilns, soon := s'.soon }
      (8 ≤ x.jobs.length → Ignored (.kilnRun k (some t)) s) ∧
      (x.jobs.length < 8 → (jobD desc).check len = none → Completes (.kilnRun k (some t)) s fun s' => taken s' ∧ s'.soon = s.soon ∧
        queued s s' desc i.tag i.cyc (rd s (Fd.moduleStepStep (rd s (Fd.tsqProgProg t))))) ∧
      (∀ st, x.jobs.length < 8 → (jobD desc).check len = some st → Completes (.kilnRun k (some t)) s fun s' => taken s' ∧
        KilnIs s s' k (took x i.cyc) ∧ later s s' i.tag st i.cyc)) ∧
    (let s0 := settleTo s x.nextAcc
     let e := engineDeq s0 (prodKiln k) (rd s0 (Fd.klnSqQueue k))
     let desc := e.2.1
     rdb s (Fd.klnSqEn k) = true → (availKiln s k = true → rdb s (Fd.blkctlEnable (kilnPage k)) = true) → memoryHeld s = false →
     (kiln s0 k).jobs.length < 8 → (availKiln s0 k = true → kilnGrants s0 k s0.now 16 = true) → bit e.2.2 63 = true → bit e.2.2 61 = true →
      (availKiln e.1 k = true → (jobD desc).check (1024 * rd e.1 Fd.trnCurUnits) = none → Completes (.kilnRun k none) s fun s' =>
        s' = { e.1 with fresh := s'.fresh, kilns := s'.kilns } ∧
        queued e.1 s' desc (jobD desc).tag e.1.now (rd e.1 (Fd.moduleStepStep e.1.turn.prog))) ∧
      (∀ st, availKiln e.1 k = true → (jobD desc).check (1024 * rd e.1 Fd.trnCurUnits) = some st → Completes (.kilnRun k none) s fun s' =>
        KilnIs e.1 s' k (took (kiln e.1 k) e.1.now) ∧ later e.1 s' (jobD desc).tag st e.1.now) ∧
      (availKiln e.1 k = false → Completes (.kilnRun k none) s fun s' => s' = { e.1 with fresh := s'.fresh, soon := s'.soon } ∧
        later e.1 s' (jobD desc).tag St.notPresent e.1.now)) ∧
    (∀ v : BitVec 32, let lo := bits v.toNat 15 0
      let n := bits v.toNat 31 16
      (s.boot.stagesDone.contains 6 = false → Ignored (.klnRdyclrWrite k v) s) ∧
      (s.boot.stagesDone.contains 6 = true → Completes (.klnRdyclrWrite k v) s fun s' =>
        (∀ u, (kiln s' k).ready.testBit u = (x.ready.testBit u && !(decide (lo ≤ u) && decide (u < lo + n) && decide (u < 24576)))) ∧
        KilnIs s s' k { x with ready := (kiln s' k).ready } ∧ s' = { s with fresh := s'.fresh, kilns := s'.kilns }))

/-- R225, R226, R236, R237, R240: the first job of an idle kiln starts at the later of its start slot, its acceptance and the last record;
before its slot it waits. Of a failed header check the record follows ten cycles later; else instance 0 starts at cycle 24, later by its
port waits. In its cycle, unless the kiln gives the job up before, an instance has its scalars 0 and its warm vector filled, from its slot
where that matches and with zeros elsewhere, 1 KiB in a cycle. -/
def Obligations.KilnStarts : Prop :=
  (∀ (s : State) (k : Nat) (j : KJob) (rest : List KJob), k < 4 → capKiln s.variant k = true → (kiln s k).run = none →
    (kiln s k).jobs = j :: rest →
    (startSlot s j = none → Ignored (.jobStart k) s) ∧
    (∀ slot, startSlot s j = some slot →
      let d := jobD j.desc
      let t0 := max slot (max (kiln s k).posted j.acc)
      let s0 := settleTo s t0
      let img := valueEnd + d.sched
      let h := readBytes s0 (kilnBase k + img) 64
      let cl := (List.range 256).map fun c => classEntry (readLE s0 (kilnBase k + img + hdrClassOff h + 8 * c) 8)
      let p := portRun k t0 1 (t0 + 10) (regionsOf img 64 ++ regionsOf (img + hdrClassOff h) 2048) 16 s0 0
      let n := hdrWsLen h
      let r : KRun :=
        { slot := slot, t0 := t0, hdr := h, classes := cl.map fun c => c.getD (0, 0), cl := commitLen d n, inst := 0, word := 0,
          cyc := t0 + 24 + p.2, begun := false, miss := max (slot + d.budget + 1 - commitLen d n) (t0 + 10), scal := [], fracs := [],
          loop := none, cur := kinstInit, done := [], waitIn := 0, waitPort := p.2, imp := none, commit := none, doomed := 0 }
      let waited (s' : State) : Prop := s'.now = p.1.now ∧ SameMem p.1 s' ∧
        rd s' (Fd.klnWaitPortCount k) = satAdd 32 (rd p.1 (Fd.klnWaitPortCount k)) p.2
      (imageCheck d img h cl = none → Completes (.jobStart k) s fun s' => waited s' ∧ s'.soon = p.1.soon ∧
        KilnIs p.1 s' k { kiln p.1 k with run := some r, ext := (kiln p.1 k).ext.filter fun a => decide (t0 + 1 ≤ a.1) }) ∧
      (∀ st, imageCheck d img h cl = some st → p.1.sec.switching = [] → (kiln p.1 k).jobs = j :: rest → p.1.now < t0 + 10 →
        Completes (.jobStart k) s fun s' => waited s' ∧
          KilnIs p.1 s' k { kiln p.1 k with
            jobs := rest, run := none, posted := t0 + 10, ext := (kiln p.1 k).ext.filter fun a => decide (t0 + 1 ≤ a.1) } ∧
          ∃ q : Posting, s'.soon = insertPosting q p.1.soon ∧ q.stop = some (Fd.nKlnAbandon k) ∧ q.rec_ =
            { tag := j.tag, status := st, kind := Sk.kln, idx := k, cyc := t0 + 10,
              detail := min (t0 + 10 - slot) (2 ^ 32 - 1) + min p.2 0xFFFF * 2 ^ 48, flags := 0, count := 0 }))) ∧
  (∀ (s : State) (k limit : Nat) (j : KJob) (rest : List KJob) (r : KRun), (kiln s k).jobs = j :: rest → (kiln s k).run = some r →
    r.begun = false → r.commit = none →
    let d := jobD j.desc
    let lim := min limit r.miss
    let s0 := settleTo s r.cyc
    let n := hdrWsLen r.hdr
    let a := d.area r.inst + 5 * hdrWsScr r.hdr
    let slot := kilnBase k + d.slot r.inst
    let hit : Bool := readLE s0 slot 8 == hdrFprint r.hdr && readLE s0 (slot + 8) 4 == n
    let cold : Bool := d.warm && n != 0 && !hit
    let put := min (5 * n) (1024 * (lim - r.cyc))
    (lim ≤ r.cyc → beginInst s k limit = s) ∧
    (r.cyc < lim → (n = 0 ∨ a + 5 * n ≤ valueEnd) → r.imp = none → KilnAlone s0 k →
      let s' := beginInst s k limit
      let r1 : KRun :=
        { r with begun := true, word := 0, cyc := r.cyc + ceilDiv (5 * n) 1024, scal := [], fracs := [], loop := none,
                 cur := { kinstInit with flags := Fl.cond cold Fl.warmMismatch } }
      s'.now = max s.now (min lim (r.cyc + ceilDiv (5 * n) 1024)) ∧ SameMemBut (kilnBase k + a) put s0 s' ∧
      readBytes s' (kilnBase k + a) put =
        (if d.warm = true ∧ hit = true then readBytes s0 (slot + 64) (5 * n) else List.replicate (5 * n) 0).take put ∧
      KilnIs s0 s' k { kiln s0 k with run := some r1 } ∧
      (cold = true → rd s' (Fd.nKlnWarmMismatch k) = 1 ∧
        rd s' (Fd.klnWarmMissCount k) = satAdd 32 (rd s0 (Fd.klnWarmMissCount k)) 1) ∧
      (cold = false → ∀ f : Fld, rd s' f = rd s0 f)))

/-- R229 to R231, R236, R237: a word that computes writes its values, adds its flags and counts and sets its scalar, and the next word
follows after its cost and its port waits, of which there are none where the kiln is alone; where that is past the cycle of the deadline
test the job ends there. A word that R230 refuses ends the job in the next cycle with KLN_FAULT naming word and instance, and stores
nothing. R229, R231: what the elementwise, scalar and export words compute. Every result is formed exactly and narrowed once; an operand
or a destination beyond value memory is refused with BAD_ADDR. -/
def Obligations.KilnWordsAndValues : Prop :=
  (∀ (s : State) (k op : Nat) (cmd : Instr) (j : KJob) (r : KRun) (w : KW),
     (cmd, op) ∈ [(Instr.kExport k, 0x02), (.kVop k, 0x08), (.kDot k, 0x09), (.kNorm k, 0x0A), (.kRecip k, 0x0B),
       (.kSload k, 0x0C), (.kSpmv k, 0x10), (.kFact k, 0x11), (.kSolve k, 0x12)] →
     let s1 := settleTo s r.cyc
     (kiln s k).jobs.head? = some j → (kiln s k).run = some r → capKiln s.variant k = true → KilnAt s1 k op j r w →
     let d := jobD j.desc
     let x := kcOf s1 k d r
     (∀ e, x.eff w = .ok e →
       (let p := wordRun (countEff (kstore s1 k e.writes) k e) k d r e.cost
        let fin := r.cyc + e.cost + p.2
        (fin ≤ r.miss → Completes cmd s fun s' => s'.now = p.1.now ∧ SameMem p.1 s' ∧
          KilnIs p.1 s' k { kiln p.1 k with run := some { r.add e with word := r.word + 1, cyc := fin, waitPort := r.waitPort + p.2 } }) ∧
        (r.miss < fin → exec cmd s = ok (missJob s1 k r))) ∧
       (KilnAlone s1 k → r.cyc + e.cost ≤ r.miss → Completes cmd s fun s' => let fin := r.cyc + e.cost
         KilnIs s1 s' k { kiln s1 k with run := some { r.add e with word := r.word + 1, cyc := fin } } ∧
         s'.now = max s.now fin ∧ s'.mem = e.writes.foldl (fun m p => memWrite m (kilnBase k + p.1) p.2) s1.mem ∧
         (∀ b, (∀ p ∈ e.writes, b < kilnBase k + p.1 ∨ kilnBase k + p.1 + p.2.length ≤ b) → Tab.find s'.mem b = Tab.find s1.mem b) ∧
         rd s' (Fd.klnSubstCount k) = satAdd 32 (rd s1 (Fd.klnSubstCount k)) e.subst ∧
         rd s' (Fd.klnSatCount k) = satAdd 32 (rd s1 (Fd.klnSatCount k)) e.sat ∧
         (∀ f : Fld, f.key ≠ (Fd.klnSubstCount k).key → f.key ≠ (Fd.klnSatCount k).key → f.key ≠ (Fd.klnWaitPortCount k).key → rd s' f = rd s1 f) ∧
         s' = { s1 with now := s'.now, settled := s'.settled, fresh := s'.fresh, mem := s'.mem, regs := s'.regs, kilns := s'.kilns })) ∧
     (∀ st, x.eff w = .error st →
       let named := wrs s1 [(Fd.klnFaultWord k, r.word), (Fd.klnFaultStatus k, st), (Fd.klnFaultInst k, r.inst)]
       let s2 := settleTo (setRun named k r) (r.cyc + 1)
       s2.sec.switching = [] → (kiln s2 k).run = some r → (kiln s2 k).jobs.head? = some j → Completes cmd s fun s' => SameMem s2 s' ∧ s'.now = s2.now ∧
         KilnIs s2 s' k { kiln s2 k with jobs := (kiln s2 k).jobs.drop 1, run := none, posted := r.cyc + 1 } ∧
         (KilnAlone s1 k → SameMem s1 s' ∧ rd s' (Fd.klnFaultWord k) = r.word % 2 ^ 17 ∧ rd s' (Fd.klnFaultStatus k) = st % 256 ∧
           rd s' (Fd.klnFaultInst k) = r.inst % 256) ∧
         Posted s' (prodKiln k) (rd s' (Fd.klnCqQueue k))
           { tag := j.tag, status := st, kind := Sk.kln, idx := k, cyc := r.cyc + 1,
             detail := min (r.cyc + 1 - r.slot) (2 ^ 32 - 1) + min r.waitIn 0xFFFF * 2 ^ 32 + min r.waitPort 0xFFFF * 2 ^ 48,
             flags := r.allFlags, count := 0 })) ∧
  (∀ (x : KC) (w : KW),
     let at_ (rel : Bool) (idx size : Nat) : Nat := (if rel then x.area else 0) + size * idx
     let fits (rel : Bool) (idx size : Nat) : Prop := w.n = 0 ∨ at_ rel idx size + size * w.n ≤ valueEnd
     let raw (rel : Bool) (idx i : Nat) : Int := toSigned 40 (readLE x.s (kilnBase x.k + at_ rel idx 5 + 5 * i) 5)
     let a (i : Nat) : Dy := fixVal (x.frac w.ca) (raw w.ia w.a i)
     let b (i : Nat) : Dy := fixVal (x.frac w.cb) (raw w.ib w.b i)
     let c (i : Nat) : Dy := fixVal (x.frac w.cc) (raw w.ic w.c i)
     let fa := x.frac w.ca
     let fb := x.frac w.cb
     let each (cost size : Nat) (v : Nat → Int) : Prop := ∃ e, x.eff w = .ok e ∧ e.cost = cost ∧ e.scal = none ∧
       (∀ i, i < w.n → e.writes[i]? = some (at_ w.id w.d size + size * i, leBytes size (ofSigned (8 * size) (v i)))) ∧
       e.writes.length = w.n
     let narrow (f : Nat) (v : Dy) : Int := (fixSum f (x.frac w.cd) v).1
     let scalar (cost f : Nat) (v : Dy) : Prop := ∃ e, x.eff w = .ok e ∧ e.cost = cost ∧ e.writes = [] ∧
       e.scal = some (w.imm % 16, (acc96 f v).1, f) ∧ (Fl.has e.flags Fl.rangeSat = (acc96 f v).2)
     (w.op = 0x08 → fits w.ia w.a 5 → fits w.ib w.b 5 → fits w.ic w.c 5 → fits w.id w.d 5 → let cost := 6 + ceilDiv w.n 128
       (w.sub = 0 → each cost 5 fun i => narrow fa (a i)) ∧
       (w.sub = 1 → each cost 5 fun i => narrow (max fa fb) ((a i).add (b i))) ∧
       (w.sub = 2 → each cost 5 fun i => narrow (max fa fb) ((a i).sub (b i))) ∧
       (w.sub = 3 → each cost 5 fun i => narrow (fa + fb) ((a i).mul (b i))) ∧
       (w.sub = 4 → each cost 5 fun i => narrow (max (fa + fb) (x.frac w.cc)) (((a i).mul (b i)).add (c i))) ∧
       (w.sub = 5 → each cost 5 fun i => narrow (max (fa + fb) (x.frac w.cc)) ((c i).sub ((a i).mul (b i)))) ∧
       (w.sub = 9 → each cost 5 fun i => narrow fa (a i).abs) ∧
       (w.sub = 11 → each cost 5 fun i =>
         narrow (fa + x.fracs.getD (w.imm % 16) 0) ((a i).mul (x.scal.getD (w.imm % 16) Dy.zero)))) ∧
     (w.op = 0x08 → w.sub ≠ 10 → ¬ fits w.ia w.a 5 → x.eff w = .error St.badAddr) ∧
     (w.op = 0x09 → fits w.ia w.a 5 → fits w.ib w.b 5 →
       scalar (12 + ceilDiv w.n 128) (fa + fb) (Dy.sum ((List.range w.n).map fun i => (a i).mul (b i)))) ∧
     (w.op = 0x0A → fits w.ia w.a 5 →
       scalar (10 + ceilDiv w.n 128) fa (((List.range w.n).map a).foldl (fun m v => maxDy m v.abs) Dy.zero)) ∧
     (w.op = 0x0C → at_ w.ia w.a 5 + 5 ≤ valueEnd → scalar 4 fa (a 0)) ∧
     (w.op = 0x0B → fits w.ia w.a 5 → fits w.id w.d 5 → w.sub < 2 → each (14 + ceilDiv w.n 4) 5 fun i =>
       if raw w.ia w.a i = 0 then 2 ^ 39 - 1
       else if w.sub = 0 then (fixDiv (x.frac w.cd) ⟨1, 0⟩ (a i)).1
       else if raw w.ia w.a i < 0 then 0 else (fixRsqrt (x.frac w.cd) (a i)).1) ∧
     (w.op = 0x02 → fits w.ia w.a 5 → fits w.id w.d 8 → w.sub = 1 → each (8 + ceilDiv w.n 64) 8 fun i => raw w.ia w.a i))

/-- R225, R229, R235, R236: the control words and IMPORT. LOOP starts MAXIT passes or skips the loop, ENDLOOP goes back or on, TEST leaves
the loop when its scalars say so, END gives way to the next instance or starts the commit; IMPORT stops at the first source unit whose
ready bits are not all set and goes on when they are; the stopped cycles are counted as they come. -/
def Obligations.KilnControl : Prop :=
  ∀ (s : State) (k : Nat) (j : KJob) (r : KRun) (w : KW),
    let s1 := settleTo s r.cyc
    (kiln s k).jobs.head? = some j → (kiln s k).run = some r → capKiln s.variant k = true →
    let d := jobD j.desc
    let goes (cmd : Instr) (cost : Nat) (r' : KRun) : Prop :=
      let p := wordRun s1 k d r cost
      let fin := r.cyc + cost + p.2
      (fin ≤ r.miss → Completes cmd s fun s' => s'.now = p.1.now ∧ SameMem p.1 s' ∧
        KilnIs p.1 s' k { kiln p.1 k with run := some { r' with cyc := fin, waitPort := r.waitPort + p.2 } }) ∧
      (r.miss < fin → exec cmd s = ok (missJob s1 k r)) ∧
      (KilnAlone s1 k → r.cyc + cost ≤ r.miss → Completes cmd s fun s' =>
        KilnIs s1 s' k { kiln s1 k with run := some { r' with cyc := r.cyc + cost, waitPort := r.waitPort } } ∧
        s'.now = max s.now (r.cyc + cost) ∧ SameMem s1 s' ∧ (∀ f : Fld, f.key ≠ (Fd.klnWaitPortCount k).key → rd s' f = rd s1 f))
    let v (i : Nat) : Dy := r.scal.getD (w.imm / 16 ^ i % 16) Dy.zero
    let units := ceilDiv w.n 128
    let src := (if w.ia then d.area r.inst else 0) + 8 * w.a
    let dst := (if w.id then d.area r.inst else 0) + 5 * w.d
    let inside : Prop := w.n = 0 ∨ (src + 8 * w.n ≤ valueEnd ∧ dst + 5 * w.n ≤ valueEnd)
    let lo (u : Nat) : Nat := (src + 1024 * u) / 1024
    let hi (u : Nat) : Nat := (src + 8 * min w.n (128 * (u + 1)) - 1) / 1024
    let imported (s1 s' : State) (cyc : Nat) : Prop := SameMemBut (kilnBase k + dst) (5 * w.n) s1 s' ∧
      (∃ r', kiln s' k = { kiln s1 k with ready := (kiln s' k).ready, run := some r' } ∧ r'.word = r.word + 1 ∧ r'.cyc = cyc ∧
        r'.imp = none ∧ r'.scal = r.scal ∧ r'.loop = r.loop) ∧
      (w.sub < 2 → (kiln s' k).ready = (kiln s1 k).ready)
    (KilnAt s1 k 0x18 j r w → let n := w.imm % 256
      (r.loop = none → n ≠ 0 → goes (.kLoop k) 1
        { r with loop := some (r.word, 1, n), word := r.word + 1, cur := { r.cur with passes := 1, left := false } }) ∧
      (∀ e, r.loop = none → n = 0 → findEndloop s1 k d r (r.word + 1) = some e → goes (.kLoop k) 1
        { r with word := e + 1, cur := { r.cur with passes := 0, left := false } }) ∧
      (r.loop ≠ none → exec (.kLoop k) s = ok (faultJob s1 k r St.badDesc))) ∧
    (KilnAt s1 k 0x19 j r w →
      (∀ i p n, r.loop = some (i, p, n) → p < n → goes (.kEndloop k) 2
        { r with loop := some (i, p + 1, n), word := i + 1, cur := { r.cur with passes := p + 1 } }) ∧
      (∀ i p n, r.loop = some (i, p, n) → n ≤ p → goes (.kEndloop k) 2 { r with loop := none, word := r.word + 1 }) ∧
      (r.loop = none → exec (.kEndloop k) s = ok (faultJob s1 k r St.badDesc))) ∧
    (KilnAt s1 k 0x1A j r w → let leave : Bool := (v 0).le (v 1) && (w.sub == 1 || (v 2).le (v 3))
      (r.loop ≠ none → leave = false → goes (.kTest k) 3 { r with word := r.word + 1 }) ∧
      (∀ e, r.loop ≠ none → leave = true → findEndloop s1 k d r (r.word + 1) = some e → goes (.kTest k) 3
        { r with loop := none, word := e + 1, cur := { r.cur with left := true } }) ∧
      (r.loop = none → exec (.kTest k) s = ok (faultJob s1 k r St.badDesc))) ∧
    (KilnAt s1 k 0x00 j r w →
      let p := wordRun s1 k d r 1
      let fin := r.cyc + 1 + p.2
      let warm := if d.save then readBytes p.1 (kilnBase k + d.area r.inst + 5 * hdrWsScr r.hdr) (5 * hdrWsLen r.hdr) else []
      let next : KRun := { r with
        inst := r.inst + 1, done := r.done ++ [{ r.cur with warm := warm }], cur := kinstInit, cyc := fin, waitPort := r.waitPort + p.2 }
      let ends (r' : KRun) : Prop := Completes (.kEnd k) s fun s' => s'.now = p.1.now ∧ SameMem p.1 s' ∧
        KilnIs p.1 s' k { kiln p.1 k with run := some r' }
      (r.inst + 1 = d.ni → fin + 1 ≤ r.miss → ends { next with commit := some fin }) ∧
      (r.inst + 1 ≠ d.ni → fin ≤ r.miss → ends { next with begun := false }) ∧
      (r.miss < fin ∨ (r.inst + 1 = d.ni ∧ r.miss = fin) → exec (.kEnd k) s = ok (missJob s1 k r)) ∧
      (KilnAlone s1 k → r.cyc + 1 ≤ r.miss → p.2 = 0 ∧ SameMem s1 p.1)) ∧
    (KilnAt s1 k 0x01 j r w → inside →
      ((∀ u, u < units → (kiln s1 k).readyAll (lo u) (hi u) = true) → KilnAlone s1 k → let fin := r.cyc + 8 + ceilDiv w.n 64
        fin ≤ r.miss → Completes (.kImport k) s fun s' => imported s1 s' fin ∧ s'.now = max s.now fin) ∧
      (0 < units → let s2 := settleTo s1 r.cyc
        (kiln s2 k).readyAll (lo 0) (hi 0) = false → Completes (.kImport k) s fun s' => SameMem s2 s' ∧ s'.now = s2.now ∧
          KilnIs s2 s' k { kiln s2 k with run := some { r with imp := some ⟨0, lo 0, hi 0, r.cyc, 0, none⟩ } })) ∧
    (∀ i : ImpWait, k < 4 → r.imp = some i →
      (∀ r1 i1, i.wake = none → (kiln (settleTo s s.now) k).run = some r1 → r1.imp = some i1 → i1.wake = none →
        exec (.importResume k) s = ok (settleTo s s.now)) ∧
      (∀ c r1, i.wake = some c → let s2 := settleTo s c
        (kiln s2 k).jobs.head? = some j → (kiln s2 k).run = some r1 → r1.imp = some { i with seen := (r1.imp.getD i).seen } →
        (r1.miss ≤ c → exec (.importResume k) s = ok (missJob s2 k r1)) ∧
        (c < r1.miss → wordAt s2 k d r1 r1.word = w → r1.inst = r.inst → r1.word = r.word → r1.scal = r.scal → r1.loop = r.loop → inside →
          i.unit < units → (∀ b, i.unit ≤ b → b < units → (kiln s2 k).readyAll (lo b) (hi b) = true) → KilnAlone s2 k →
          let fin := c + 8 + ceilDiv (w.n - 128 * i.unit) 64
          fin ≤ r1.miss → Completes (.importResume k) s fun s' => imported s2 s' fin ∧ s'.now = max s2.now fin)) ∧
      (∀ c, let n := min (min c (i.wake.getD c)) r.miss - i.since - i.seen
        let s' := countImport c s k
        KilnIs s s' k { kiln s k with run := some { r with waitIn := r.waitIn + n, imp := some { i with seen := i.seen + n } } } ∧
        rd s' (Fd.klnWaitInCount k) = (if n = 0 then rd s (Fd.klnWaitInCount k) else satAdd 32 (rd s (Fd.klnWaitInCount k)) n)))

/-- R237 to R242: a commit writes only the outputs, status words and warm-start slots of its instances and posts DONE, or DONE_DEGRADED,
with their number; a job whose commit can no longer end by its deadline leaves the kiln in that cycle, is counted as a miss and stores
nothing outside value memory; a soft reset takes every job from an idle or computing kiln, and lets a commit in progress end first. -/
def Obligations.KilnEnds : Prop :=
  ∀ (s : State) (k : Nat), k < 4 → capKiln s.variant k = true →
    let x := kiln s k
    (∀ (c : Nat) (j : KJob) (rest : List KJob) (r : KRun), x.jobs = j :: rest → x.run = some r → r.commit = some c → r.doomed = 0 →
      let d := jobD j.desc
      let p := commitRun s k r c
      let s0 := p.1
      let cyc := c + r.cl + p.2
      let n := hdrWsLen r.hdr
      let bad := r.done.any fun i => Fl.has i.flags degradedMask
      let base := kilnBase k
      let clear (b : Nat) : Prop := ∀ i, i < r.done.length → (b < base + d.out i ∨ base + d.out i + d.outLen ≤ b) ∧
        (b < base + d.sts i ∨ base + d.sts i + 16 ≤ b) ∧
        (d.save = true → n ≠ 0 → ∀ m, r.done[i]? = some m →
          b < base + d.slot i ∨ base + d.slot i + 64 + m.warm.length ≤ b)
      (KilnAlone s k → p.2 = 0 ∧ s0.now = max s.now (c + r.cl) ∧ SameMem s s0) ∧
      (s0.sec.switching = [] → (kiln s0 k).jobs = j :: rest → cyc ≤ s0.now → Completes (.kilnCommitDone k) s fun s' => s'.now = s0.now ∧
        KilnIs s0 s' k { kiln s0 k with jobs := rest, run := none, posted := cyc } ∧
        (∀ b, clear b → Tab.find s'.mem b = Tab.find s0.mem b) ∧
        (∀ m, r.done = [m] → d.sts 0 + 16 ≤ valueEnd → readBytes s' (base + d.sts 0) 16 = m.status) ∧
        (∀ m, r.done = [m] → d.out 0 + d.outLen ≤ valueEnd → (d.out 0 + d.outLen ≤ d.sts 0 ∨ d.sts 0 + 16 ≤ d.out 0) →
          readBytes s' (base + d.out 0) d.outLen = readBytes s0 (base + d.area 0 + d.outSrc) d.outLen) ∧
        rd s' (Fd.klnJobsCount k) = satAdd 32 (rd s0 (Fd.klnJobsCount k)) 1 ∧
        Posted s' (prodKiln k) (rd s' (Fd.klnCqQueue k))
          { tag := j.tag, status := (if bad then St.doneDegraded else St.done), kind := Sk.kln, idx := k, cyc := cyc,
            detail := min (cyc - r.slot) (2 ^ 32 - 1) + min r.waitIn 0xFFFF * 2 ^ 32 + min (r.waitPort + p.2) 0xFFFF * 2 ^ 48,
            flags := r.allFlags, count := d.ni })) ∧
    (∀ (j : KJob) (rest : List KJob) (r : KRun), x.jobs = j :: rest → x.run = some r → r.commit = none →
      let c := r.miss
      let s0 := settleTo s c
      ∀ r0, (kiln s0 k).run = some r0 → r0.begun = true → r0.commit = none → (kiln s0 k).jobs = j :: rest → s0.sec.switching = [] →
      Completes (.deadlineMiss k) s fun s' => s'.now = max s.now c ∧ (kiln s' k).jobs = rest ∧ (kiln s' k).run = none ∧
        (kiln s' k).posted = c ∧ (KilnAlone s0 k → SameMemBut (kilnBase k) valueEnd s0 s') ∧ (c ≤ r0.cyc → SameMem s0 s') ∧
        rd s' (Fd.klnMissesCount k) = satAdd 32 (rd s0 (Fd.klnMissesCount k)) 1 ∧ rd s' (Fd.nKlnMiss k) = 1) ∧
    (s.boot.stagesDone.contains 6 = false → Ignored (.kilnSoftReset k) s) ∧
    (s.boot.stagesDone.contains 6 = true →
      (∀ r c, x.run = some r → r.commit = some c → Completes (.kilnSoftReset k) s fun s' =>
        KilnIs s s' k { x with run := some { r with doomed := x.jobs.length - 1 } } ∧
        s' = { s with fresh := s'.fresh, kilns := s'.kilns }) ∧
      (x.run = none → Completes (.kilnSoftReset k) s fun s' => (kiln s' k).jobs = [] ∧ (kiln s' k).run = none ∧ SameMem s s' ∧
        (∀ p ∈ s'.soon, p.unit = kilnPage k → p.stop = none) ∧ (x.jobs ≠ [] → rd s' (Fd.nKlnAbandon k) = 1)) ∧
      (∀ r, x.run = some r → r.commit = none → Completes (.kilnSoftReset k) s fun s' =>
        (kiln s' k).jobs = [] ∧ (KilnAlone s k → SameMemBut (kilnBase k) valueEnd s s') ∧ (x.jobs ≠ [] → (kiln s' k).run = none)))

/-! The fabric. -/

/-- R256, R258 to R260, R270, R271: a handshake ends a port's training with the neighbour's data, and the TAG and ORIGIN written by then
take effect: a module that has become the origin takes (0,0,0) where stage 8 is over. A coordinate message gives a module its coordinates,
agrees with them, or takes the port DOWN; an uncorrectable block is counted and its first cell asked for again; a retry request sends the
cells again with RTY, and the eighth failed one in a row takes the port DOWN. A cell that waits at a port which goes DOWN is routed again.
-/
def Obligations.PortsAndCoordinates : Prop :=
  ∀ (s : State) (p : Nat), p < 12 → availPort s p = true →
    let down (s' : State) : Prop := rd s' (Fd.portStateState p) = 0 ∧ rd s' (Fd.nPortDown p) = 1 ∧
      rd s' (Fd.portDownsCount p) = satAdd 32 (rd s (Fd.portDownsCount p)) 1 ∧ SameMem s s' ∧
      ((portX s p).wait = [] → portX s' p = { portInit with tag := (portX s p).tag, failed := true } ∧
        s' = { s with fresh := s'.fresh, regs := s'.regs, firstErr := s'.firstErr, fma := { s.fma with ports := s'.fma.ports } })
    (∀ tag modno lat, rd s (Fd.portStateState p) = 1 → s.boot.testing.contains (portPage p) = false →
      let own := rd s Fd.frtDomainTag
      let on := rdb s Fd.frtDomainOrigin
      let up : Bool := tag % 65536 == own
      let s1 := setPort { s with fma := { s.fma with extOld := none } } p { portInit with tag := own }
      let s2 := { s1 with fma := { s1.fma with origin := on } }
      (s.boot.stagesDone.contains 8 = false ∨ on = false ∨ (coordValid s = true ∧ ownNo s = 0) →
        Completes (.neighbourHandshake p tag modno lat) s fun s' =>
          Sets { s2 with out := s.out ++ .link p 0 [own, ownNo s] ::
            (if up && coordValid s then
              [.link p 1 [ownX s, ownY s, ownZ s, rd s Fd.frtExtXext, rd s Fd.frtExtYext, rd s Fd.frtExtZext]] else []) } s'
            ([(Fd.portStateState p, if up then 2 else 3), (Fd.portStateNbrDomain p, tag % 2 ^ 16), (Fd.portStateNbrModno p, modno % 2 ^ 12),
              (Fd.portStateLat p, lat % 2 ^ 16), (Fd.nPortUp p, 1)] ++
             if s.fma.origin = true ∧ on = false ∧ rd s Fd.trnStateRole = 1 then [(Fd.trnStateRole, 0)] else [])) ∧
      (s.boot.stagesDone.contains 8 = true → on = true → ¬ (coordValid s = true ∧ ownNo s = 0) →
        Completes (.neighbourHandshake p tag modno lat) s fun s' => rd s' (Fd.portStateState p) = (if up then 2 else 3) ∧
          isOrigin s' = true ∧ ownNo s' = 0 ∧ rd s' Fd.trnStateRole = 1 ∧ (portX s' p).tag = own ∧ SameMem s s')) ∧
    (∀ x y z xe ye ze, portUp s p = true → 0 < xe → 0 < ye → 0 < ze →
      let c := impliedCoords p x y z xe ye ze
      (s.fma.origin = true → c = (0, 0, 0) → Ignored (.coordMessage p x y z xe ye ze) s) ∧
      (s.fma.origin = true → c ≠ (0, 0, 0) → Completes (.coordMessage p x y z xe ye ze) s fun s' =>
        down s' ∧ rd s' Fd.nFrtOriginConflict = 1) ∧
      (s.fma.origin = false → coordValid s = true → c = (ownX s, ownY s, ownZ s) →
        Ignored (.coordMessage p x y z xe ye ze) s) ∧
      (s.fma.origin = false → coordValid s = true → c ≠ (ownX s, ownY s, ownZ s) →
        Completes (.coordMessage p x y z xe ye ze) s fun s' =>
          down s' ∧ rd s' Fd.nFrtCoordConflict = 1) ∧
      (s.fma.origin = false → coordValid s = false → Completes (.coordMessage p x y z xe ye ze) s fun s' =>
        ownX s' = c.1 % 8 ∧ ownY s' = c.2.1 % 8 ∧ ownZ s' = c.2.2 % 64 ∧ coordValid s' = true ∧ rd s' Fd.frtExtXext = xe % 16 ∧
        rd s' Fd.frtExtYext = ye % 16 ∧ rd s' Fd.frtExtZext = ze % 128 ∧ rd s' Fd.nFrtCoordValid = 1 ∧
        (∀ q ∈ s'.fma.streams, q.2.sync = true) ∧ SameMem s s')) ∧
    (2 ≤ rd s (Fd.portStateState p) → Completes (.fecUncorrectable p) s fun s' =>
      s'.out = s.out ++ [.link p 2 [(portX s p).rx]] ∧ rd s' (Fd.portFecUncorrCount p) = satAdd 32 (rd s (Fd.portFecUncorrCount p)) 1 ∧
      rd s' (Fd.errcntCount (portPage p)) = satAdd 32 (rd s (Fd.errcntCount (portPage p))) 1 ∧ s'.fma = s.fma ∧ SameMem s s') ∧
    (∀ (first : Nat) (repeated : Bool), 2 ≤ rd s (Fd.portStateState p) →
      let x := portX s p
      let n := if repeated then x.fails + 1 else 0
      let cost := 4 * rd s (Fd.portStateLat p) + 48
      let again := (x.buf.drop first).map fun w => { w.cell with rty := true }
      first < x.buf.length →
      (n < 8 → Completes (.linkRetryRequest p first repeated) s fun s' => ∃ sent : List PortCell, sent.map PortCell.cell = again ∧
        sent.map PortCell.req = (x.buf.drop first).map PortCell.req ∧
        s'.out = s.out ++ sent.map (fun w => .cell p w.cell w.at_) ∧
        portX s' p = { x with buf := x.buf.take first ++ sent, fails := n, free := max x.free (25 * s.now) + 25 * cost } ∧
        rd s' (Fd.portRetriesCount p) = satAdd 32 (rd s (Fd.portRetriesCount p)) 1 ∧
        rd s' (Fd.portRetryCycCount p) = satAdd 32 (rd s (Fd.portRetryCycCount p)) cost ∧
        rd s' (Fd.portCellsTxCount p) = (rd s (Fd.portCellsTxCount p) + again.length) % 2 ^ 64 ∧ SameMem s s') ∧
      (8 ≤ n → Completes (.linkRetryRequest p first repeated) s fun s' =>
        rd s' (Fd.portStateState p) = 0 ∧ rd s' (Fd.nPortDown p) = 1 ∧ (portX s' p).failed = true ∧ SameMem s s')) ∧
    (∀ (w : PortCell) (q : Nat) (alt re : Bool), w.cell.domain = (portX s p).tag → w.inp < 12 → q ≠ p → (portX s p).wait = [w] →
      let s1 := portOff (wr s (Fd.portStateState p) 0) p true []
      routeOf s1 w.cell = some (q, alt, re) → ∀ failed,
      (portX (portDownWith s p failed [w]) q).wait =
        (portX s q).wait ++ [⟨if w.cell.vc = 1 then reqFrit else w.inp, w.inp, s.now, { w.cell with alt := alt }⟩])

/-- R263, R264, R266, R267, R269, R275: the router counts a cell that arrives; it leaves one for this module to its own command, lets one
of the own domain wait at the port that the route gives, one hop further, and drops a cell that has come too far, or a stranger that no
port takes. A port sends the cells of a requester in the order of time, the first that waits when its slot is free, and counts the slots
that others had before it. A port that is DOWN or trains, and any port in P3, takes no cell. Header bits and data bytes of the wire spell
the cell. -/
def Obligations.RouterForwards : Prop :=
  (∀ c : FabCell, c.wf = true → wireCell (wireHeader c) c.data = c ∧ wireHeader c < 2 ^ 128 ∧ (wireBytes c).length = 128) ∧
  (∀ (s : State) (p t : Nat) (w : PortCell), let x := portX s p
    x.next = some (t, w) → w ∈ x.wait ∧ x.free ≤ t ∧ 25 * w.at_ ≤ t ∧ (∀ v ∈ x.wait, v.req = w.req → w.at_ ≤ v.at_) ∧
      (x.hold = false → ∀ v ∈ x.wait, t ≤ max (25 * v.at_) x.free) ∧
      let s' := sendCell s p t w
      s'.out = s.out ++ [.cell p w.cell (t / 25)] ∧ (portX s' p).free = t + 56 ∧ (portX s' p).wait = x.wait.erase w ∧
      rd s' (Fd.portCellsTxCount p) = (rd s (Fd.portCellsTxCount p) + 1) % 2 ^ 64 ∧
      rd s' (Fd.portContendCount p) =
        satAdd 32 (rd s (Fd.portContendCount p)) ((t - max (25 * w.at_) (Tab.get 0 x.ends w.req)) / 25) ∧ SameMem s s') ∧
  ∀ (s : State) (p : Nat) (c : FabCell) (fec : Nat), p < 12 → availPort s p = true →
    (rd s (Fd.portStateState p) < 2 ∨ s.boot.p3 = true → Ignored (.cellForward p c fec) s) ∧
    (2 ≤ rd s (Fd.portStateState p) → s.boot.p3 = false →
    let x := portX s p
    let s1 := setPort s p { x with rx := x.rx + 1 }
    let rx (s' : State) : Prop := rd s' (Fd.portCellsRxCount p) = (rd s (Fd.portCellsRxCount p) + 1) % 2 ^ 64 ∧
      rd s' (Fd.portFecCorrCount p) = (rd s (Fd.portFecCorrCount p) + fec) % 2 ^ 64 ∧ SameMem s s' ∧
      s'.tiles = s.tiles ∧ s'.engines = s.engines ∧ s'.now = s.now ∧ s'.out = s.out
    let only (s' : State) : Prop := rx s' ∧ s' = { s1 with fresh := s'.fresh, regs := s'.regs, firstErr := s'.firstErr }
    let h : FabCell := { c with hops := c.hops + 1 }
    let waits (s' : State) (q : Nat) (d : FabCell) : Prop :=
      (portX s' q).wait = (portX s1 q).wait ++ [⟨if d.vc = 1 then reqFrit else p, p, s.now, d⟩]
    let quietly (s' : State) : Prop := ∀ f : Fld, f.key ≠ (Fd.portCellsRxCount p).key →
      f.key ≠ (Fd.portFecCorrCount p).key → rd s' f = rd s f
    let mine : Prop := c.domain = x.tag
    let beacon : Prop := c.typ = 8 ∧ fieldLE c.data 0 1 = 0
    (Completes (.cellForward p c fec) s rx) ∧
    (c.typ = 10 → Completes (.cellForward p c fec) s fun s' => only s' ∧ quietly s') ∧
    (10 < c.typ → Completes (.cellForward p c fec) s fun s' => only s' ∧
      rd s' Fd.frtDropBadCount = satAdd 32 (rd s Fd.frtDropBadCount) 1) ∧
    (mine → beacon → Completes (.cellForward p c fec) s fun s' => only s' ∧ quietly s') ∧
    (c.typ < 10 → mine → c.hops < 62 → coordValid s = true → c.dst = ownNo s → Completes (.cellForward p c fec) s fun s' => only s' ∧
      (c.typ ≠ 8 ∨ fieldLE c.data 0 1 ≤ 5 → quietly s') ∧
      (c.typ = 8 → 5 < fieldLE c.data 0 1 → rd s' Fd.fritDropCount = satAdd 32 (rd s Fd.fritDropCount) 1 ∧ rd s' Fd.nFritDrop = 1)) ∧
    (c.typ < 10 → mine → ¬ beacon → c.hops < 62 → coordValid s = false → Completes (.cellForward p c fec) s fun s' => only s' ∧
      rd s' Fd.frtDropUnreachCount = satAdd 32 (rd s Fd.frtDropUnreachCount) 1) ∧
    (c.typ < 10 → mine → ¬ beacon → c.hops < 62 → coordValid s = true → c.dst ≠ ownNo s →
      ∀ q alt re, routeOf s h = some (q, alt, re) → Completes (.cellForward p c fec) s fun s' =>
        rx s' ∧ waits s' q { h with alt := alt } ∧ portUp s q = true) ∧
    (c.typ < 10 → ¬ (mine ∧ beacon) → 62 ≤ c.hops → Completes (.cellForward p c fec) s fun s' =>
      rx s' ∧ rd s' Fd.frtDropBadCount = satAdd 32 (rd s Fd.frtDropBadCount) 1) ∧
    (c.typ < 10 → ¬ mine → c.hops < 62 → ∀ q, transitPort s h = some q → Completes (.cellForward p c fec) s fun s' => rx s' ∧ waits s' q h) ∧
    (c.typ < 10 → ¬ mine → c.hops < 62 → transitPort s h = none →
      Completes (.cellForward p c fec) s fun s' => only s' ∧
        rd s' (Fd.portStrangerCount p) = satAdd 32 (rd s (Fd.portStrangerCount p)) 1 ∧ rd s' Fd.nFrtStranger = 1 ∧
        rd s' Fd.frtStrangerLogDomain = c.domain % 2 ^ 16 ∧ rd s' Fd.frtStrangerLogPort = p ∧
        rd s' Fd.frtStrangerLogDst = c.dst % 2 ^ 12))

/-- R262, R264, R265, R272, R278, R279: a request cell in order takes effect at once. A WRITE waits for the end of its unit; a WRITE_END
commits the whole unit; a READ answers with the bytes; an FADD adds to its word. A cell out of order is held; a gap that stays open drops
what is held. -/
def Obligations.RequestsTakeEffect : Prop :=
  ∀ (s : State) (c : FabCell), delivered s c = true →
    let k := srcKey c
    let inOrder : Prop := (Tab.find s.fma.expect k = none ∨ Tab.find s.fma.expect k = some c.seq) ∧ c.sync = false ∧ heldOf s k = []
    let cells := (s.fma.parts.filter fun p => srcKey p == k) ++ [c]
    let next (s' : State) : Prop := Tab.find s'.fma.expect k = some ((c.seq + 1) % 65536) ∧ s'.fma.pend = s.fma.pend
    (c.typ = 0 → inOrder → Completes (.cellWrite c) s fun s' => next s' ∧ s'.fma.parts = s.fma.parts ++ [c] ∧ SameMem s s' ∧
      (∀ f, rd s' f = rd s f) ∧ s'.out = s.out) ∧
    (c.typ = 1 → inOrder → s.fma.refused.contains k = false → (∀ p ∈ cells, accessStatus s p.offset p.data.length = none) →
      Completes (.cellWriteEnd c) s fun s' => next s' ∧ s'.fma.parts = s.fma.parts.filter (fun p => srcKey p != k) ∧
        s'.mem = cells.foldl (fun m p => memWrite m p.offset p.data) s.mem ∧
        (∀ b, (∀ p ∈ cells, b < p.offset ∨ p.offset + p.data.length ≤ b) → Tab.find s'.mem b = Tab.find s.mem b)) ∧
    (c.typ = 1 → inOrder → s.fma.refused.contains k = true → Completes (.cellWriteEnd c) s fun s' => next s' ∧ SameMem s s') ∧
    (c.typ = 2 → inOrder → (∀ i, i < 64 → reachable s (c.offset + 16 * i) = true) → accessStatus s c.offset 16 = none →
      ∀ q alt re, routeOf s (mkCell s 3 c.src c.offset c.stream c.seq false 0 []) = some (q, alt, re) →
      Completes (.cellRead c) s fun s' => next s' ∧ SameMem s s' ∧ ∃ (ds : List FabCell) (t0 : Nat),
        (portX s' q).wait = (portX s q).wait ++ ds.map (fun d => ⟨reqFma, reqFma, t0, d⟩) ∧ s.now + 72 ≤ t0 ∧
        ds.flatMap FabCell.data = readBytes s c.offset 1024 ∧
        ∀ d ∈ ds, d.typ = 3 ∧ d.dst = c.src ∧ d.seq = c.seq ∧ d.stream = c.stream ∧ d.rty = c.rty) ∧
    (c.typ = 2 → inOrder → ∀ st, accessStatus s c.offset 16 = some st → Completes (.cellRead c) s fun s' => next s' ∧ SameMem s s') ∧
    (c.typ = 6 → inOrder → faddTarget c.offset = true → c.offset % 8 = 0 → accessStatus s c.offset 8 = none →
      Completes (.cellFadd c) s fun s' => next s' ∧ SameMemBut c.offset 8 s s' ∧
        readLE s' c.offset 8 = (readLE s c.offset 8 + fieldLE c.data 0 8) % 2 ^ 64) ∧
    (∀ (e : Nat) (cmd : Instr), (cmd, c.typ) ∈ [(Instr.cellWrite c, 0), (.cellWriteEnd c, 1), (.cellRead c, 2), (.cellFadd c, 6)] →
      Tab.find s.fma.expect k = some e → c.sync = false → c.seq ≠ e → seqAhead c.seq e < 32768 →
      (∀ h ∈ heldOf s k, h.seq ≠ c.seq) → s.fma.held.length < reorderCells → Completes cmd s fun s' =>
        s'.fma.held = s.fma.held ++ [c] ∧ Tab.find s'.fma.expect k = some e ∧ SameMem s s' ∧ s'.out = s.out ∧
        rd s' Fd.fmaReorderedCount = satAdd 32 (rd s Fd.fmaReorderedCount) 1) ∧
    (∀ g src stream, Tab.find s.fma.gapAt (256 * src + stream) = some g →
      let s0 := settleTo s (g + rd s Fd.fmaGapToCycles)
      Completes (.reorderGapTimeout src stream) s fun s' =>
      s'.now = max s.now (g + rd s Fd.fmaGapToCycles) ∧ heldOf s' (256 * src + stream) = [] ∧
      Tab.find s'.fma.gapAt (256 * src + stream) = none ∧ s'.fma.refused.contains (256 * src + stream) = true ∧ SameMem s0 s' ∧
      rd s' Fd.fmaReorderDropCount =
        satAdd 32 (rd s0 Fd.fmaReorderDropCount) (heldOf s0 (256 * src + stream)).length ∧ rd s' Fd.nFmaDrop = 1)

/-- R264, R265, R272 to R274, R277, R279: an answer meets the request unit that waits for it, or is counted as an orphan; a NACK ends the
operation with its status and starts the stream again with SYNC; a fetch-add leaves the old value at RESULT and posts (where RESULT cannot
be written, the model's reading, log entry 13: it posts that access's status). -/
def Obligations.AnswersArrive : Prop :=
  ∀ (s : State) (c : FabCell), delivered s c = true →
    let orphaned (s' : State) : Prop := rd s' Fd.nFmaOrphan = 1 ∧ SameMem s s' ∧ s'.fma.pend = s.fma.pend ∧
      rd s' Fd.fmaOrphanAcksCount = satAdd 32 (rd s Fd.fmaOrphanAcksCount) 1
    let without (s' : State) (p : Pend) : Prop := s'.fma.pend = s.fma.pend.filter fun x => !(x == p)
    let fadd (s' : State) (p : Pend) (st : Nat) (count cyc : Nat) : Prop :=
      let rec_ : CRec := { tag := p.unit, status := st, kind := Sk.pce, idx := 0x8010, cyc := cyc, detail := (cyc - p.acc) % 2 ^ 32,
                           flags := Fl.cond c.rty Fl.retried, count := count }
      (cyc ≤ s.now → Posted s' prodFma (rd s' Fd.fmaAqCq) rec_) ∧
      (s.now < cyc → ∃ q : Posting, s'.soon = insertPosting q s.soon ∧ q.rec_ = rec_ ∧ q.prod = prodFma ∧ q.queue = Fd.fmaAqCq)
    (c.typ = 4 →
      let mine (p : Pend) : Bool := p.kind == 0 && p.fits c && p.last == c.seq
      (s.fma.pend.find? mine = none → Completes (.cellAck c) s orphaned) ∧
      (∀ p, s.fma.pend.find? mine = some p → Completes (.cellAck c) s fun s' => without s' p ∧ SameMem s s' ∧
        (∀ f : Fld, f.key ≠ (Fd.pceKibCount p.stream).key → rd s' f = rd s f) ∧
        ∀ x, copyOf s p.stream p.copy = some x → ∃ n, copyOf s' p.stream p.copy =
          some { x with heard := s.now, retried := x.retried || c.rty, counted := n })) ∧
    (c.typ = 3 →
      let mine (p : Pend) : Bool := p.kind == 1 && p.fits c
      (s.fma.pend.find? mine = none → Completes (.dataCell c) s orphaned) ∧
      (∀ p x, s.fma.pend.find? mine = some p → copyOf s p.stream p.copy = some x → c.rty = false →
        let bs := assemble (p.got.length + 1) (p.got ++ [(c.offset - p.base, c.data)]) []
        (bs.length < p.skip + p.want → Completes (.dataCell c) s fun s' => SameMem s s' ∧ engine s' p.stream = engine s p.stream ∧
          s'.fma.pend = s.fma.pend.map fun y => if y = p then { p with got := p.got ++ [(c.offset - p.base, c.data)] } else y) ∧
        (p.skip + p.want ≤ bs.length → Completes (.dataCell c) s fun s' => SameMem s s' ∧ without s' p ∧
          ∃ came, copyOf s' p.stream p.copy =
              some { x with buf := x.buf ++ p.parts.map (fun g => (g.1, (bs.drop (p.skip + g.2.1)).take g.2.2)), came := came } ∧
            ((∀ q ∈ s'.fma.pend, q.kind = 1 → q.stream = p.stream → q.copy = p.copy → q.unit ≠ p.unit) →
              Tab.find came p.unit = some (s.now + engineCc p.stream))))) ∧
    (c.typ = 5 → c.stream ≠ colStream →
      let marked (s' : State) : Prop := (strmOf s' c.stream c.src).sync = true ∧ rd s' Fd.fmaNacksCount = satAdd 32 (rd s Fd.fmaNacksCount) 1
      (s.fma.pend.find? (fun p => p.fits c) = none → Completes (.cellNack c) s fun s' => orphaned s' ∧ marked s') ∧
      (∀ p, s.fma.pend.find? (fun p => p.fits c) = some p → p.kind = 2 → Completes (.cellNack c) s fun s' => marked s' ∧ SameMem s s' ∧
        without s' p ∧ fadd s' p c.status 0 s.now) ∧
      (∀ p x, s.fma.pend.find? (fun p => p.fits c) = some p → p.kind ≠ 2 → copyOf s p.stream p.copy = some x →
        Completes (.cellNack c) s fun s' => marked s' ∧ SameMem s s' ∧
          (engine s' p.stream).copies.map Copy.id = ((engine s p.stream).copies.map Copy.id).filter (fun i => i != p.copy) ∧
          (∀ y ∈ s'.fma.pend, y.stream = p.stream → y.copy = p.copy → 1 < y.kind) ∧
          ∃ q : Posting, s'.soon = insertPosting q s.soon ∧ q.rec_.tag = x.tag ∧ q.rec_.status = c.status ∧
            q.rec_.cyc = s.now + engineCc p.stream + 1)) ∧
    (c.typ = 7 →
      let mine (p : Pend) : Bool := p.kind == 2 && p.fits c
      (s.fma.pend.find? mine = none → Completes (.cellFaddResult c) s orphaned) ∧
      (∀ p st, s.fma.pend.find? mine = some p → accessStatus s p.key 8 = some st → Completes (.cellFaddResult c) s fun s' =>
        without s' p ∧ SameMem s s' ∧ fadd s' p st 0 s.now) ∧
      (∀ p, s.fma.pend.find? mine = some p → accessStatus s p.key 8 = none → Completes (.cellFaddResult c) s fun s' =>
        let x := carry s 4 (dieOf p.key) 0 8 s.now
        without s' p ∧ SameMemBut p.key 8 s s' ∧ readLE s' p.key 8 = fieldLE c.data 0 8 ∧
        fadd s' p St.done 1 (memAccess x.1 p.key (s.now + x.2)).2))

/-- R23, R273, R274, R276, R279: the oldest unit of a stream that stays without an answer for FMA_ACK_TO cycles from its last cell on ends
its operation with DROPPED; a waiting unit is sent when there is room, its wait counted cycle by cycle; the atomic unit performs a local
fetch-add of its queue, sends a remote one or lets it wait, and posts the status of a check that fails. -/
def Obligations.SourceOperations : Prop :=
  ∀ s : State,
    (∀ (stream : Nat) (s0 : State) (p : Pend), ackDue stream (s.fma.pend.length + 4) s = some (s0, p) →
      p ∈ s0.fma.pend ∧ p.stream = stream ∧ p.sentAt + rd s Fd.fmaAckToCycles ≤ s0.now ∧
      let timed (s' : State) : Prop := rd s' Fd.nFmaTimeout = 1 ∧ SameMem s0 s' ∧
        rd s' Fd.fmaAckTimeoutsCount = satAdd 32 (rd s0 Fd.fmaAckTimeoutsCount) 1 ∧ s'.now = s0.now
      (p.kind = 2 → Completes (.ackTimeout stream) s fun s' => timed s' ∧
        s'.fma.pend = s0.fma.pend.filter (fun x => !(x == p)) ∧ Posted s' prodFma (rd s' Fd.fmaAqCq)
          { tag := p.unit, status := St.dropped, kind := Sk.pce, idx := 0x8010, cyc := s0.now, detail := (s0.now - p.acc) % 2 ^ 32,
            flags := 0, count := 0 }) ∧
      (p.kind ≠ 2 → ∀ x, copyOf s0 stream p.copy = some x → Completes (.ackTimeout stream) s fun s' => timed s' ∧
        (engine s' stream).copies = (engine s0 stream).copies.filter (fun y => y.id != x.id) ∧
        (∀ y ∈ s'.fma.pend, y.stream = stream → y.copy = p.copy → 1 < y.kind) ∧
        ∃ q : Posting, s'.soon = insertPosting q s0.soon ∧ q.rec_.tag = x.tag ∧ q.rec_.status = St.dropped ∧
          q.rec_.cyc = s0.now + engineCc stream + 1)) ∧
    (∀ (stream : Nat) (p : Pend), Quiet s → s.fma.pend.find? (fun p => p.stream == stream) = some p →
      ackDue stream (s.fma.pend.length + 4) s = some (settleTo s (p.sentAt + rd s Fd.fmaAckToCycles), p)) ∧
    (∀ (item : List Byte) (acc since : Nat), let s0 := settle s
      s0.fma.aqWait = some (item, acc, since) →
      (creditFree s0 = false → exec (.requestCreditGrant 132) s = ok s0) ∧
      (creditFree s0 = true → remoteBlocked { s0 with fma := { s0.fma with aqWait := none } } (fieldLE item 0 8 / 2 ^ 40) 132 = none →
        Completes (.requestCreditGrant 132) s fun s' => s'.fma.aqWait = none ∧ SameMem s0 s' ∧ s'.fma.pend.length = s0.fma.pend.length + 1) ∧
      (∀ st, creditFree s0 = true → remoteBlocked { s0 with fma := { s0.fma with aqWait := none } } (fieldLE item 0 8 / 2 ^ 40) 132 = some st →
        Completes (.requestCreditGrant 132) s fun s' => s'.fma.aqWait = none ∧ SameMem s0 s' ∧ s'.fma.pend = s0.fma.pend ∧
          Posted s' prodFma (rd s' Fd.fmaAqCq)
            { tag := fieldLE item 24 4, status := st, kind := Sk.pce, idx := 0x8010, cyc := s0.now, detail := (s0.now - acc) % 2 ^ 32,
              flags := 0, count := 0 })) ∧
    (∀ (stream : Nat) (x : Copy), stream ≠ 132 → let s0 := settle s
      (engine s0 stream).copies.find? (fun c => c.creditWait.isSome) = some x →
      exec (.requestCreditGrant stream) s = ok (if creditFree s0 = true then settle (setCopy s0 stream { x with creditWait := none }) else s0)) ∧
    (∀ (w : List Byte × Nat × Nat), s.fma.aqWait = some w →
      (countAqWait s).fma.aqWait = some (w.1, w.2.1, s.now) ∧
      rd (countAqWait s) Fd.fmaCreditWaitCount = (if s.now ≤ w.2.2 then rd s Fd.fmaCreditWaitCount
        else satAdd 32 (rd s Fd.fmaCreditWaitCount) (s.now - w.2.2))) ∧
    (∀ (e f : Nat) (x : Copy), e < 132 → copyOf s e x.id = some x → x.creditWait = some f → f ≤ s.now → (x.d.needsSieve = true → x.hasSieve = true) →
      let s' := countWaits e s x
      copyOf s' e x.id = some { x with creditWait := some s.now, creditLag := x.creditLag + (s.now - f) } ∧
      rd s' Fd.fmaCreditWaitCount = satAdd 32 (rd s Fd.fmaCreditWaitCount) (s.now - f)) ∧
    (let r := engineDeq s prodFma (rd s Fd.fmaAqSq)
     let s1 := r.1
     let item := r.2.1.take 32
     let a := fieldLE item 0 8
     let res := off40 (fieldLE item 16 8)
     rdb s Fd.fmaAqEn = true → s.fma.aqWait = none → bit r.2.2 63 = true → bit r.2.2 61 = true →
      (∀ st, faddCheck s1 item = some st → Completes .fetchAdd s fun s' => SameMem s1 s' ∧ Posted s' prodFma (rd s' Fd.fmaAqCq)
        { tag := fieldLE item 24 4, status := st, kind := Sk.pce, idx := 0x8010, cyc := s1.now, detail := 0, flags := 0, count := 0 }) ∧
      (faddCheck s1 item = none → sideLocal s1 false a = true →
        let x := carry s1 4 (dieOf (off40 a)) 0 8 s1.now
        let g := memAccess x.1 (off40 a) (s1.now + x.2)
        let w := (faddWord g.1 (off40 a) (fieldLE item 8 8)).2
        let c := g.2 + (if off40 a < hbmTop then 60 else 12)
        let y := carry w 4 (dieOf res) 0 8 c
        let cyc := (memAccess y.1 res (c + y.2)).2
        s1.now < cyc ∧ Completes .fetchAdd s fun s' => s'.now = s1.now ∧
          readLE s' res 8 = readLE s1 (off40 a) 8 ∧
          (off40 a + 8 ≤ res ∨ res + 8 ≤ off40 a → readLE s' (off40 a) 8 = (readLE s1 (off40 a) 8 + fieldLE item 8 8) % 2 ^ 64) ∧
          (∀ b, (b < off40 a ∨ off40 a + 8 ≤ b) → (b < res ∨ res + 8 ≤ b) → Tab.find s'.mem b = Tab.find s1.mem b) ∧
          ∃ q : Posting, s'.soon = insertPosting q s1.soon ∧ q.prod = prodFma ∧ q.queue = Fd.fmaAqCq ∧ q.rec_ =
            { tag := fieldLE item 24 4, status := St.done, kind := Sk.pce, idx := 0x8010, cyc := cyc,
              detail := (cyc - s1.now) % 2 ^ 32, flags := 0, count := 1 }) ∧
      (faddCheck s1 item = none → sideLocal s1 false a = false → creditFree s1 = true → Completes .fetchAdd s fun s' => SameMem s1 s' ∧
        s'.fma.pend.length = s1.fma.pend.length + 1 ∧ s'.fma.aqWait = s1.fma.aqWait) ∧
      (faddCheck s1 item = none → sideLocal s1 false a = false → creditFree s1 = false → Completes .fetchAdd s fun s' => SameMem s1 s' ∧
        s'.fma.pend = s1.fma.pend ∧ s'.fma.aqWait = some (item, s1.now, s1.now)))

/-! Collectives. -/

/-- R286 to R288, R297: the engine takes a descriptor that a tile issued, or that stands in its queue. Of one that fails a check the
status follows ten cycles after acceptance, a fenced engine answers with NOT_PRESENT; an accepted one takes the next number of its group,
a reduction begins to read its first part for the finite check, and it waits behind the operations of the group, or starts at once where
there is none. R283, R293, R310: COL_GCMD arms a load for a turn at least two ahead; COL_POOL takes four sizes of at least 64 slots and at
most 3,072 in all, in force once no slot is held; other values are turned away, and before the hub die runs neither has an effect. -/
def Obligations.CollectivesAccepted : Prop :=
  (∀ (s : State) (op : Nat) (cmd : Option Nat → Instr),
     (cmd, op) ∈ [(Instr.colReduce, 1), (.colBcast, 2), (.colAllreduce, 3), (.colRedscat, 4), (.colAllgather, 5), (.colRingpass, 6),
       (.colFred, 7), (.colBarrier, 8)] →
     (64 ≤ colHeld s → ∀ t, Ignored (cmd t) s) ∧
     (colHeld s < 64 →
     let record (d : ColD) (tag st acc : Nat) : CRec :=
       { tag := tag, status := st, kind := (if d.frit then Sk.frit else Sk.col), idx := d.group, cyc := acc + 10, detail := 10, flags := 0,
         count := 0 }
     -- s0 is the state in which the descriptor has been taken
     let outcome (c : Instr) (s0 : State) (desc : List Byte) (tag acc prog : Nat) : Prop :=
       let d := colD desc
       let fenced : Bool := fencedPage s0 colPage || fencedPage s0 fritPage
       let ends (st : Nat) : Prop := Completes c s fun s' => s' = { s0 with fresh := s'.fresh, soon := s'.soon } ∧
         ∃ p : Posting, s'.soon = insertPosting p s0.soon ∧ p.unit = colPage ∧ p.prod = prodCol ∧ p.queue = Fd.colCqQueue ∧ p.rec_ = record d tag st acc
       (fenced = true → ends St.notPresent) ∧ (∀ st, fenced = false → d.check s0 = some st → ends st) ∧
       (∀ x, fenced = false → d.check s0 = none → colGrp s0 d.group = some x →
         let o := newOp s0 x d desc tag acc prog
         let y : Grp := { x with opseq := x.opseq + 1, first := false }
         let joined (s1 : State) : Prop := SameMem s0 s1 ∧ s1.now = s0.now ∧ (∀ u, tile s1 u = tile s0 u) ∧ s1.col.ops = s0.col.ops ++ [o] ∧
           colGrp s1 d.group = some y ∧ (∀ g, g ≠ d.group → colGrp s1 g = colGrp s0 g) ∧ s1.soon = s0.soon ∧
           (d.reduces = false → s1.col.streams = s0.col.streams) ∧
           (d.reduces = true → ∃ v : ColStream, s1.col.streams = s0.col.streams ++ [v] ∧ v.group = d.group ∧ v.seq = x.opseq ∧ v.use = .check 0 ∧
             v.addr = d.src ∧ v.base = s0.now ∧ v.done = 0 ∧ v.len = dataBytes d.ifmt (d.nbrk * (if d.op = 4 then popcount x.members else 1)))
         (∀ p, firstOp s0 d.group = some p → p.seq ≠ x.opseq → Completes c s joined) ∧
         (firstOp s0 d.group = none → ∃ s1, exec c s = ok (startOp s1 o acc) ∧ joined s1))
     (∀ (t : Nat) (i : Issue), t < 64 → (tile s t).issued.find? (fun i => i.unit == 8) = some i →
       let desc := readBytes s (tileBase t + i.desc) 64
       ((colD desc).op = op ∨ (colD desc).op = 0 ∨ 8 < (colD desc).op) →
       outcome (cmd (some t)) (updTile s t fun x => { x with issued := x.issued.erase i }) desc i.tag i.cyc (rd s (Fd.tsqProgProg t))) ∧
     (let r := engineDeq s prodCol (rd s Fd.colSqQueue)
      let d := colD r.2.1
      rdb s Fd.colSqEn = true → (fencedPage s colPage = true ∨ rdb s (Fd.blkctlEnable colPage) = true) → bit r.2.2 63 = true →
       (d.op = op ∨ d.op = 0 ∨ 8 < d.op) →
       (bit r.2.2 61 = true → outcome (cmd none) r.1 r.2.1 d.tag r.1.now s.turn.prog) ∧
       (bit r.2.2 61 = false → Completes (cmd none) s fun s' => SameMem r.1 s' ∧ s'.col = r.1.col ∧
         ∃ p : Posting, s'.soon = insertPosting p r.1.soon ∧ p.rec_ = record d d.tag St.badDesc r.1.now)))) ∧
  (∀ (s : State) (v : BitVec 64),
     let n := v.toNat
     let p (i : Nat) : Nat := bits n (16 * i + 11) (16 * i)
     let sized : Prop := 64 ≤ p 0 ∧ 64 ≤ p 1 ∧ 64 ≤ p 2 ∧ 64 ≤ p 3 ∧ p 0 + p 1 + p 2 + p 3 ≤ 3072
     let fields : List (Fld × Nat) := [(Fd.colPoolP0, p 0), (Fd.colPoolP1, p 1), (Fd.colPoolP2, p 2), (Fd.colPoolP3, p 3)]
     (4 ∉ s.boot.stagesDone → Ignored (.colGcmdWrite v) s ∧ Ignored (.colPoolWrite v) s) ∧
     (4 ∈ s.boot.stagesDone →
       (bits n 47 0 < turnNo s + 2 → Completes (.colGcmdWrite v) s fun s' => Sets s s' [(Fd.nColReject, 1)]) ∧
       (turnNo s + 2 ≤ bits n 47 0 → Completes (.colGcmdWrite v) s fun s' =>
         Sets s s' [(Fd.colGcmdGroup, bits n 57 48), (Fd.colGcmdTurn, bits n 47 0), (Fd.colGcmdArmed, 1)]) ∧
       (¬ sized → Completes (.colPoolWrite v) s fun s' => Sets s s' [(Fd.nColReject, 1)]) ∧
       (sized → noSlots s = true → Completes (.colPoolWrite v) s fun s' =>
         Sets { s with col := { s.col with pools := [p 0, p 1, p 2, p 3], poolNext := false } } s' fields) ∧
       (sized → noSlots s = false → Completes (.colPoolWrite v) s fun s' =>
         Sets { s with col := { s.col with poolNext := true } } s' fields)) ∧
     (s.col.poolNext = true → noSlots s = true → Completes .colPoolApply s fun s' => s' = { s with fresh := s'.fresh, col := { s.col with
       pools := [rd s Fd.colPoolP0, rd s Fd.colPoolP1, rd s Fd.colPoolP2, rd s Fd.colPoolP3], poolNext := false } }))

/-- R272, R289, R296, R297, R303, R305: a control cell that is delivered takes its place in the order of its stream with the data cells,
has its effect, and lets the cells that waited for it pass. One that matches no operation, or comes for one that cannot take it, is
counted in COL_GEN_DROP; an OPEN for a later operation is kept. OPEN opens the way to the next member of a ring, READY raises its child's
count, GRANT has the chunk streamed, its slots held until its last cell has left, EXCL cuts the member off from the chunk named on, FAIL
ends the operation with the status named; then the operation makes what progress it can. -/
def Obligations.CollectiveCells : Prop :=
  ∀ (s : State) (c : FabCell), c.typ = 9 → c.stream = colStream → isCtl c = true → delivered s c = true →
    let m := ctlOf c.data
    let src := c.src
    let r := letIn s c
    let after (t : State) : Prop := t = { r.2.foldl applyColl r.1 with fresh := t.fresh }
    (m.kind = 0 → Completes (.colOpen c) s after) ∧
    (m.kind = 1 → Completes (.colReady c) s after) ∧
    (m.kind = 2 → Completes (.colGrant c) s after) ∧
    (m.kind = 3 → Completes (.colExcl c) s after) ∧
    (m.kind = 4 → Completes (.colFail c) s after) ∧
    (heldOf s (srcKey c) = [] → c.sync = false →
      (Tab.find s.fma.expect (srcKey c) = none ∨ Tab.find s.fma.expect (srcKey c) = some c.seq) → ∀ cmd : Instr,
      (m.kind, cmd) ∈ [(0, Instr.colOpen c), (1, .colReady c), (2, .colGrant c), (3, .colExcl c), (4, .colFail c)] →
    let drops (s1 : State) : Prop := SameMem s s1 ∧ s1.col = s.col ∧ rd s1 Fd.colGenDropCount = satAdd 32 (rd s Fd.colGenDropCount) 1
    let dropped : Prop := Completes cmd s drops
    (colGrp s m.group = none → dropped) ∧
    (∀ x, colGrp s m.group = some x → x.gen ≠ m.gen → dropped) ∧
    (∀ x, colGrp s m.group = some x → x.gen = m.gen →
      let kept (s' : State) : Prop := colGrp s' m.group = some { x with opens := x.opens ++ [(src, m)] } ∧ s'.col.ops = s.col.ops ∧ SameMem s s'
      (findOp s m.group m.gen m.opseq = none → x.opseq ≤ m.opseq → m.kind = 0 → Completes cmd s kept) ∧
      (findOp s m.group m.gen m.opseq = none → (m.opseq < x.opseq ∨ m.kind ≠ 0) → dropped) ∧
      (∀ o, findOp s m.group m.gen m.opseq = some o →
        let goesOn (P : State → Prop) : Prop := ∃ s1, exec cmd s = ok (progress s1 m.group) ∧ SameMem s s1 ∧ P s1
        let sub (s1 : State) (i : Nat) (P : CSub → Prop) : Prop :=
          ∃ p u, findOp s1 m.group m.gen m.opseq = some p ∧ u ∈ p.subs ∧ u.i = i ∧ P u
        let gone (s1 : State) : Prop := s1.col.ops = s.col.ops.filter fun x => !(x.group == o.group && x.seq == o.seq)
        let k := o.chunkAt m.chunk
        let ring : Prop := o.d.op = 6 ∧ bits m.word0 31 28 = 0
        (m.kind = 0 → o.d.frit = true → bits m.word0 31 28 = 0 → dropped) ∧
        (m.kind ≠ 0 → o.d.frit = true → dropped) ∧
        (m.kind = 0 → (¬ ring ∨ o.start = none) → ¬ (o.d.frit = true ∧ bits m.word0 31 28 = 0) → goesOn kept) ∧
        (m.kind = 0 → ring → o.start ≠ none → nextMember s m.group = src → goesOn fun s1 =>
          ∃ p, findOp s1 m.group m.gen m.opseq = some p ∧ p.ringReady = true ∧ p.heard = s.now) ∧
        (m.kind = 0 → ring → o.start ≠ none → nextMember s m.group ≠ src → dropped) ∧
        (o.d.frit = false → m.kind ≠ 0 →
          (m.kind ≠ 4 → o.start = none → dropped) ∧
          (m.kind = 4 → o.start = none → Completes cmd s fun s' => SameMem s s' ∧ gone s') ∧
          (m.kind = 4 → o.start ≠ none → goesOn gone) ∧
          (m.kind ≠ 4 → o.start ≠ none → o.subAt m.chunk = none → goesOn drops) ∧
          (∀ u, o.start ≠ none → o.subAt m.chunk = some u →
            (∀ y, m.kind = 1 → u.kids.find? (fun y => y.mod == src) = some y → y.out = none → goesOn fun s1 => sub s1 u.i fun v =>
              v.kids.map CChild.mod = u.kids.map CChild.mod ∧ ∀ z ∈ v.kids, z.mod = src → k + 1 ≤ z.ready) ∧
            (∀ y, m.kind = 1 → u.kids.find? (fun y => y.mod == src) = some y → y.out ≠ none → goesOn fun s1 => s1.col = s.col) ∧
            (∀ x, m.kind = 2 → u.chunks.find? (fun x => x.c == k && x.done && !x.granted) = some x → u.parent s o = some src → goesOn fun s1 =>
              (sub s1 u.i fun v => v.chunks.map CChunk.slots = (u.chunks.map fun y => if y.c = k then x.slots else y.slots) ∧ v.freed = u.freed ∧
                ∀ y ∈ v.chunks, y.c = k → y.granted = true ∧ (0 < x.slots ∨ o.ownOut u ≠ none → y.leaving ≠ none)) ∧
              (x.slots = 0 → o.ownOut u = none → ∃ z ∈ s1.col.streams, z.group = o.group ∧ z.seq = o.seq ∧ z.use = .leaf u.i k src ∧
                z.addr = (o.partAt u 0 k).1 ∧ z.len = dataBytes o.d.ifmt (o.d.bricksOf k))) ∧
            (m.kind = 3 → u.parent s o = some src → goesOn fun s1 => sub s1 u.i fun v =>
              v.cut = true ∧ v.chunks = u.chunks.filter (fun x => x.c < k) ∧ v.waits = none ∧
                v.kids = u.kids.map fun y => if y.out = none then { y with out := some (5, k) } else y) ∧
            ((m.kind = 2 ∨ m.kind = 3) → u.parent s o ≠ some src → goesOn drops))))))

/-- R288, R289, R293, R295, R297, R300: an operation starts when its group is free; the finite check ends when every part has been read; a
waiting chunk takes its slots and counts its wait; a complete chunk is written to DST at the root and offered to the parent elsewhere 64
cycles after its last contribution; a deadline without late children excludes none, in PROBATION only the notice is set; without an answer
the operation ends with UNREACHABLE. -/
def Obligations.CollectiveRuns : Prop :=
  ∀ (s : State) (g : Nat),
    let goesOn (cmd : Instr) (P : State → Prop) : Prop := ∃ s1, exec cmd s = ok (progress s1 g) ∧ P s1
    let opAt (s1 : State) (o : COp) (P : COp → Prop) : Prop := ∃ p ∈ s1.col.ops, p.group = o.group ∧ p.seq = o.seq ∧ P p
    let gone (s0 s1 : State) (o : COp) : Prop := s1.col.ops = s0.col.ops.filter fun x => !(x.group == o.group && x.seq == o.seq)
    (∀ o, firstOp s g = some o → o.start ≠ none → Ignored (.collectiveOpStart g) s) ∧
    (∀ o x, firstOp s g = some o → o.start = none → colGrp s g = some x → goesOn (.collectiveOpStart g) fun s1 => SameMem s s1 ∧
      opAt s1 o fun p => p.start = some (max s.now o.acc) ∧ p.heard = max s.now o.acc ∧ p.desc = o.desc) ∧
    (∀ o0 o, s.col.ops.find? (fun o => o.group == g && !o.checked) = some o0 →
      let s0 := driveOp g o0.seq (fun _ o => o.checkEnd.isSome) dueCount s
      s0.col.ops.find? (fun x => x.group == g && x.seq == o0.seq) = some o →
      (o.checkEnd = none → exec (.finiteCheckDone g) s = ok s0) ∧
      (o.checkEnd ≠ none → goesOn (.finiteCheckDone g) fun s1 => SameMem s0 s1 ∧ s1.now = s0.now ∧
        opAt s1 o fun p => p.checked = true ∧ p.badOwn = o.badOwn)) ∧
    (∀ depth o u w, o.group = g →
      (waitingAt s depth).find? (fun w => !(waitingAt s depth).any fun v => before3 (v.1.place v.2) (w.1.place w.2)) = some (o, u) →
      u.waits = some w →
      (freeSlots s depth < o.slotsOf u u.claimed ∨ 4 ≤ o.inWork → Ignored (.chunkAdmit depth) s) ∧
      (o.slotsOf u u.claimed ≤ freeSlots s depth → o.inWork < 4 → goesOn (.chunkAdmit depth) fun s1 => SameMem s s1 ∧ s1.now = s.now ∧
        rd s1 Fd.colAdmwaitCount = satAdd 32 (rd s Fd.colAdmwaitCount) (s.now - max w s.col.cleared) ∧
        opAt s1 o fun p => p.admWait = o.admWait + (s.now - w) ∧ ∃ v ∈ p.subs, v.i = u.i ∧ v.claimed = u.claimed + 1 ∧ v.waits = none ∧
          ∃ x ∈ v.chunks, x.c = u.claimed ∧ x.slots = o.slotsOf u u.claimed)) ∧
    (∀ chunk o0 u0 x0 t o u x, firstOp s g = some o0 → o0.subAt chunk = some u0 →
      u0.chunks.find? (fun x => x.c == o0.chunkAt chunk && !x.done) = some x0 → x0.last = some t →
      let s0 := settleTo s (t + 64)
      firstOp s0 g = some o → o.subAt chunk = some u → u.chunks.find? (fun x => x.c == o0.chunkAt chunk && !x.done) = some x →
      o.chunkAt chunk = o0.chunkAt chunk →
      let d := o.d
      let n := d.bricksOf x.c
      let a := (o.dstAt u x.c).1
      let acc := if x.acc.isEmpty then List.replicate (1024 * n) (ident32 d.fn) else x.acc
      let out := (encodeChunk d.ofmt n acc).1.take (dataBytes d.ofmt n)
      (u.root = ownNo s0 → d.ofmt ≠ 2 → accessStatus s0 a out.length = none → colRange s0 a out.length = true →
        goesOn (.chunkComplete g chunk) fun s1 => s1.now = s0.now ∧
          SameMemBut a out.length s0 s1 ∧ readBytes s1 a out.length = out ∧
          opAt s1 o fun p => p.bricks = o.bricks + n ∧ ∃ v ∈ p.subs, v.i = u.i ∧ v.freed = u.freed + 1 ∧
            v.chunks = u.chunks.filter fun y => y.c != x.c) ∧
      (∀ st, u.root = ownNo s0 → out ≠ [] → accessStatus s0 a out.length = some st → goesOn (.chunkComplete g chunk) fun s1 =>
        s1.now = s0.now ∧ SameMem s0 s1 ∧ gone s0 s1 o) ∧
      (u.root ≠ ownNo s0 → goesOn (.chunkComplete g chunk) fun s1 => s1.now = s0.now ∧ SameMem s0 s1 ∧
        opAt s1 o fun p => ∃ v ∈ p.subs, v.i = u.i ∧ v.claimed = u.claimed ∧
          ∀ y ∈ v.chunks, y.c = x.c → y.done = true)) ∧
    (∀ o, firstOp s g = some o → colGrp s g ≠ none → (deadlineOf s o = none ∨ o.start = none) → Ignored (.collectiveDeadline g) s) ∧
    (∀ o x t p, firstOp s g = some o → colGrp s g = some x → deadlineOf s o = some t → o.start ≠ none →
      let s0 := settleTo s t
      firstOp s0 g = some p →
      (x.probation = true → Completes (.collectiveDeadline g) s fun s' =>
        s' = { s0 with fresh := s'.fresh, regs := s'.regs } ∧ (∀ f : Fld, f.key ≠ Fd.nColLag.key → rd s' f = rd s0 f) ∧
        (lateKids p ≠ [] → rd s' Fd.nColLag = 1)) ∧
      (x.probation = false → p.d.frit = false → lateKids p = [] →
        exec (.collectiveDeadline g) s = ok (progress (setOp s0 { p with overdue := true }) g)) ∧
      (x.probation = false → goesOn (.collectiveDeadline g) fun s1 => s1.now = s0.now ∧ SameMem s0 s1)) ∧
    (∀ o t p, firstOp s g = some o → deadlineOf s o = some t → o.start ≠ none →
      (o.d.perRank = true ∨ o.d.op = 6 ∨ o.d.root ≠ ownNo s) →
      let s0 := settleTo s (max t o.heard + rd s Fd.colOptoCycles)
      firstOp s0 g = some p →
      let cyc := s0.now
      let adm := p.admWait + (p.subs.map fun u => u.waited s0).sum
      (p.heard ≠ o.heard → exec (.collectiveOpTimeout g) s = ok s0) ∧
      (p.seq = o.seq → p.heard = o.heard → p.d.frit = o.d.frit → Completes (.collectiveOpTimeout g) s fun s' => s'.now = cyc ∧ SameMem s0 s' ∧
        gone s0 s' p ∧ Posted s' prodCol (rd s' Fd.colCqQueue)
          { tag := p.tag, status := St.unreachable, kind := (if p.d.frit then Sk.frit else Sk.col), idx := p.d.group, cyc := cyc,
            detail := min (cyc - p.acc) (2 ^ 32 - 1) + min p.nexcl 0xFFFF * 2 ^ 32 + min adm 0xFFFF * 2 ^ 48, flags := p.flags,
            count := (if p.d.op = 7 ∨ p.d.op = 8 then 0 else p.bricks) }))

/-- R289, R291, R295 to R297, R305: a data cell that fits no operation is counted; one of a child's stream is kept with its chunk, one
from the parent is kept until the chunk of the result is whole, which then goes to DST. Where a child's header is in, its contribution is
accumulated and the next child follows. Each KiB that the engine reads is taken in its own cycle: the finite check and the own parts
gather it, a copy of SRC leaves it at DST. -/
def Obligations.CollectiveData : Prop :=
  ∀ (s : State) (g : Nat),
    let opAt (s1 : State) (o : COp) (P : COp → Prop) : Prop := ∃ p ∈ s1.col.ops, p.group = o.group ∧ p.seq = o.seq ∧ P p
    let gone (s1 : State) (o : COp) : Prop := s1.col.ops = s.col.ops.filter fun x => !(x.group == o.group && x.seq == o.seq)
    (∀ c : FabCell, c.typ = 9 → c.stream = colStream → isCtl c = false → delivered s c = true → heldOf s (srcKey c) = [] → c.sync = false →
      (Tab.find s.fma.expect (srcKey c) = none ∨ Tab.find s.fma.expect (srcKey c) = some c.seq) → bits (c.offset / 16) 35 26 = g →
      let goesOn (P : State → Prop) : Prop := ∃ s1, exec (.collData c) s = ok (progress s1 g) ∧ P s1
      let piece := pieceOf c
      let dropped : Prop := Completes (.collData c) s fun s' => SameMem s s' ∧ s'.col = s.col ∧
        rd s' Fd.colGenDropCount = satAdd 32 (rd s Fd.colGenDropCount) 1
      (firstOp s g = none → dropped) ∧
      (∀ o, firstOp s g = some o → (o.start = none ∨ o.d.frit = true) → dropped) ∧
      (∀ o, firstOp s g = some o → o.start ≠ none → o.d.op = 6 →
        (prevMember s g = c.src → o.ringHave < o.ringTotal s → o.ringHave % 4 = cellResidue c → (gathered (o.ringGot ++ [piece]) 0).length <
          dataBytes o.d.ofmt (o.d.bricksOf (o.ringHave % o.d.nch)) → goesOn fun s1 => SameMem s s1 ∧
            opAt s1 o fun p => p.ringGot = o.ringGot ++ [piece] ∧ p.ringHave = o.ringHave) ∧
        ((prevMember s g ≠ c.src ∨ o.ringTotal s ≤ o.ringHave ∨ o.ringHave % 4 ≠ cellResidue c) → dropped)) ∧
      (∀ o, firstOp s g = some o → o.start ≠ none → o.d.frit = false → o.d.op ≠ 6 →
        let up := o.subs.findSome? fun u => (upChunk o u c.src (cellResidue c)).map fun x => (u, x)
        let down := o.subs.find? fun u => fromParent s o u c.src (cellResidue c) piece.1
        (up = none → down = none → dropped) ∧
        (∀ u x, up = some (u, x) → goesOn fun s1 => SameMem s s1 ∧
          opAt s1 o fun p => ∃ v ∈ p.subs, v.i = u.i ∧ ∃ y ∈ v.chunks, y.c = x.c ∧ y.got = x.got ++ [piece] ∧ y.kids = x.kids ∧ y.acc = x.acc) ∧
        (∀ u, up = none → down = some u → piece.1 ≠ 1 →
          let n := o.d.bricksOf u.have_
          let data := gathered (u.got ++ [piece]) 0
          let full : Prop := dataBytes o.d.ofmt n ≤ data.length ∧ scaleBytes o.d.ofmt n ≤ (gathered (u.got ++ [piece]) 2).length
          let a := (o.dstAt u u.have_).1
          let len := dataBytes o.d.ofmt n
          (¬ full → goesOn fun s1 => SameMem s s1 ∧ opAt s1 o fun p => ∃ v ∈ p.subs, v.i = u.i ∧ v.got = u.got ++ [piece]) ∧
          (full → o.d.ofmt ≠ 2 → 0 < len → accessStatus s a len = none → colRange s a len = true → goesOn fun s1 =>
            SameMemBut a len s s1 ∧ readBytes s1 a len = data.take len ∧
            opAt s1 o fun p => p.bricks = o.bricks + n ∧ ∃ v ∈ p.subs, v.i = u.i ∧ v.have_ = u.have_ + 1 ∧ v.got = []) ∧
          (∀ st, full → 0 < len → accessStatus s a len = some st → goesOn fun s1 => SameMem s s1 ∧ gone s1 o)))) ∧
    (∀ (o : COp) (u : CSub) (x : CChunk) (y : CChild), o ∈ s.col.ops → u ∈ o.subs → x ∈ u.chunks → x.last = none → x.leaving = none →
      u.kids[x.kids]? = some y → y.out = none →
      (x.granted = true → x.reading = false → 1024 ≤ (gathered x.got 1).length → ∃ s1, actChunk s o u x = some s1 ∧ SameMem s s1 ∧
        opAt s1 o fun p => ∃ v ∈ p.subs, v.i = u.i ∧ ∃ z ∈ v.chunks, z.c = x.c ∧ z.kids = x.kids + 1 ∧ z.got = [] ∧ z.granted = false ∧
          z.slots = x.slots ∧ ((hdrOf (gathered x.got 1)).contrib = 0 → z.acc = x.acc)) ∧
      (x.granted = true → x.reading = true ∨ (gathered x.got 1).length < 1024 → actChunk s o u x = none) ∧
      (x.granted = false → remoteBlocked s y.mod colStream = none → ∃ s1, actChunk s o u x = some s1 ∧ SameMem s s1 ∧
        opAt s1 o fun p => ∃ v ∈ p.subs, v.i = u.i ∧ ∃ z ∈ v.chunks, z.c = x.c ∧ z.granted = true ∧ z.kids = x.kids)) ∧
    (∀ (x : ColStream) (o : COp), s.col.streams.find? (fun y => y.id == x.id) = some x → streamOp s x = some o →
      let p := 1024 * x.done
      let n := min 1024 (x.len - p)
      let a := x.addr + p
      let r := if x.crossed then (s, 0) else carry s (dieOf a) 4 hubCol n s.now
      let s' := colKib s x.id
      (0 < r.2 → SameMem s s' ∧ s'.col.ops = s.col.ops ∧ ∃ y ∈ s'.col.streams, y.id = x.id ∧ y.done = x.done ∧ y.crossed = true ∧ y.lag = x.lag + r.2) ∧
      (∀ st, r.2 = 0 → accessStatus s a n = some st → SameMem s s' ∧ gone s' o) ∧
      (r.2 = 0 → accessStatus s a n = none → x.done + 1 < x.kibs →
        let taken (s1 : State) (gathers : Bool) : Prop := ∃ y ∈ s1.col.streams, y.id = x.id ∧ y.done = x.done + 1 ∧ y.crossed = false ∧
          y.buf = if gathers then x.buf ++ readBytes s a n else []
        (∀ i, x.use = .check i → SameMem s s' ∧ taken s' true ∧ s'.col.ops = s.col.ops) ∧
        (∀ i k j, x.use = .own i k j → SameMem s s' ∧ taken s' true) ∧
        (∀ dst k sc, x.use = .send dst k sc → SameMem s s' ∧ taken s' false ∧ s'.col.ops = s.col.ops) ∧
        (∀ i k to_, x.use = .copy i k to_ → accessStatus s (to_ + p) n = none → colRange s (to_ + p) n = true →
          SameMemBut (to_ + p) n s s' ∧ readBytes s' (to_ + p) n = readBytes s a n ∧ taken s' false)))

/-- R301, R306 to R308: a frit message that fits no operation is dropped and counted; UP waits for its operation or is taken in; DOWN goes
on and leaves its 128 bytes at HDR 21 cycles later, where the record follows as they are committed; FAIL ends its operation; REFORM waits
for its turn; the keeper counts a MISS and removes a member that is DOWN. FRED on integers wraps, and MIN and MAX are signed for INT64. -/
def Obligations.FritMessages : Prop :=
  (∀ (s : State) (src : Nat) (m : FritMsg),
    let dropped (cmd : Instr) : Prop := Completes cmd s fun s' => SameMem s s' ∧ s'.col = s.col ∧ rd s' Fd.nFritDrop = 1 ∧
      rd s' Fd.fritDropCount = satAdd 32 (rd s Fd.fritDropCount) 1
    let ended (o : COp) (s' : State) : Prop := s'.col.ops = s.col.ops.filter fun x => !(x.group == o.group && x.seq == o.seq)
    (colGrp s m.group = none → dropped (.fritUp src m)) ∧
    (∀ x, colGrp s m.group = some x → x.gen ≠ m.gen → dropped (.fritUp src m)) ∧
    (∀ x, colGrp s m.group = some x → x.gen = m.gen →
      (findOp s m.group m.gen m.opseq = none → x.opseq ≤ m.opseq → Completes (.fritUp src m) s fun s' => SameMem s s' ∧
        colGrp s' m.group = some { x with ups := x.ups ++ [(src, m)] } ∧ s'.col.ops = s.col.ops) ∧
      (∀ o, findOp s m.group m.gen m.opseq = some o → o.d.frit = true → o.fSent = false → o.start = none →
        (childrenOf x.members o.d.root (ownNo s)).contains src = true → Completes (.fritUp src m) s fun s' => SameMem s s' ∧
          colGrp s' m.group = some { x with ups := x.ups ++ [(src, m)] } ∧ s'.col.ops = s.col.ops) ∧
      (∀ o r, findOp s m.group m.gen m.opseq = some o → o.d.frit = true → o.fSent = false → o.start ≠ none →
        (childrenOf x.members o.d.root (ownNo s)).contains src = true → upFault o m = some r →
        ∃ s1, exec (.fritUp src m) s = ok (progress s1 m.group) ∧ SameMem s s1 ∧ rd s1 Fd.nColExcluded = 1 ∧
          rd s1 Fd.colExclCount = satAdd 32 (rd s Fd.colExclCount) 1 ∧
          findOp s1 m.group m.gen m.opseq = some { o with fOut := o.fOut ++ [(src, r)] }) ∧
      (∀ o, findOp s m.group m.gen m.opseq = some o → o.d.frit = true → o.fSent = false → o.start ≠ none →
        (childrenOf x.members o.d.root (ownNo s)).contains src = true → upFault o m = none →
        ∃ s1, exec (.fritUp src m) s = ok (progress s1 m.group) ∧ SameMem s s1 ∧
          findOp s1 m.group m.gen m.opseq = some { o with fUps := o.fUps ++ [(src, s.now, m)] })) ∧
    (findOp s m.group m.gen m.opseq = none → dropped (.fritDown m)) ∧
    (∀ o, findOp s m.group m.gen m.opseq = some o → (o.d.frit = false ∨ o.start = none ∨ o.d.root = ownNo s ∨ o.down ≠ none ∨ o.wake ≠ none) →
      dropped (.fritDown m)) ∧
    (∀ o, findOp s m.group m.gen m.opseq = some o → o.d.frit = true → o.start ≠ none → o.d.root ≠ ownNo s → o.down = none → o.wake = none →
      Completes (.fritDown m) s fun s' => s'.now = s.now ∧ SameMem s s' ∧
        ∃ p, findOp s' m.group m.gen m.opseq = some p ∧ p.down = some m ∧ p.wake = some (s.now + 21) ∧ p.nexcl = m.nexcl ∧ p.desc = o.desc) ∧
    (∀ o, s.col.ops.find? (fun x => x.group == o.group && x.seq == o.seq) = some o → o.d.frit = true →
      let s' := opWake s o.group o.seq
      let x := carry s 4 (dieOf o.d.hdr) 0 128 s.now
      let end_ := (memAccess x.1 o.d.hdr (s.now + x.2)).2
      let posts (st : Nat) : Prop := ended o s' ∧ ∃ r : CRec, r.tag = o.tag ∧ r.status = st ∧ r.kind = Sk.frit ∧ r.cyc = s.now ∧
        r.count = (if o.d.op = 7 ∧ st = St.done then o.d.npart else 0) ∧ Posted s' prodCol (rd s' Fd.colCqQueue) r
      (o.down = none → SameMem s s' ∧ posts St.done ∧ rd s' Fd.fritOpsCount = satAdd 32 (rd s Fd.fritOpsCount) 1) ∧
      (o.down = some m → accessStatus s o.d.hdr 128 = none → colRange s o.d.hdr 128 = true →
        SameMemBut o.d.hdr 128 s s' ∧ readBytes s' o.d.hdr 128 = fritBytes m 2 ++ List.replicate 16 0 ∧
        (end_ ≤ s.now → posts St.done) ∧
        (s.now < end_ → ∃ p ∈ s'.col.ops, p.group = o.group ∧ p.seq = o.seq ∧ p.down = none ∧ p.wake = some end_)) ∧
      (∀ st, o.down = some m → accessStatus s o.d.hdr 128 = some st → SameMem s s' ∧ posts st)) ∧
    (∀ group gen opseq status, (findOp s group gen opseq = none → dropped (.fritFail group gen opseq status)) ∧
      (∀ o, findOp s group gen opseq = some o → Completes (.fritFail group gen opseq status) s fun s' => SameMem s s' ∧ ended o s')) ∧
    (∀ group gen turn removed, (colGrp s group = none → dropped (.fritReform group gen turn removed)) ∧
      (∀ x, colGrp s group = some x → (gen ≤ x.gen → dropped (.fritReform group gen turn removed)) ∧
        (x.gen < gen → (x.reforms.any fun r => r.1 == gen) = false → Completes (.fritReform group gen turn removed) s fun s' =>
          colGrp s' group = some { x with reforms := x.reforms ++ [(gen, turn, removed)] } ∧ SameMem s s'))) ∧
    (∀ group gen reason modno turn, (colGrp s group = none → dropped (.fritMiss group gen reason modno turn)) ∧
      (∀ x, colGrp s group = some x → (x.gen ≠ gen → dropped (.fritMiss group gen reason modno turn)) ∧
        (x.gen = gen → x.probation = true → Ignored (.fritMiss group gen reason modno turn) s) ∧
        (x.gen = gen → x.probation = false → x.members.testBit modno = true → (∀ k ∈ memberList x.members, ownNo s ≤ k) →
          (reason ≠ 4 → x.failTurns = 0 → Completes (.fritMiss group gen reason modno turn) s fun s' => SameMem s s' ∧
            ∃ n, colGrp s' group = some { x with late := Tab.insert x.late modno (n, turn) } ∧
              (Tab.find x.late modno = none → n = 1) ∧ (∀ k, turn = k + 1 → ∀ b, Tab.find x.late modno = some (b, k) → n = b + 1)) ∧
          (reason = 4 → x.reforms = [] → Completes (.fritMiss group gen reason modno turn) s fun s' => SameMem s s' ∧
            colGrp s' group = some { x with reforms := [(x.gen + 1, turnNo s + 2, [modno])] }))))) ∧
  (∀ a b : Nat, a < 2 ^ 64 → b < 2 ^ 64 →
    (∀ typ, typ ≠ 2 → fredCombine 0 typ a b = ((a + b) % 2 ^ 64, 0)) ∧
    toSigned 64 (fredCombine 1 0 a b).1 = min (toSigned 64 a) (toSigned 64 b) ∧
    toSigned 64 (fredCombine 2 0 a b).1 = max (toSigned 64 a) (toSigned 64 b) ∧
    fredCombine 1 1 a b = (min a b, 0) ∧ fredCombine 2 1 a b = (max a b, 0) ∧
    (∀ typ, fredCombine 3 typ a b = (a &&& b, 0) ∧ fredCombine 4 typ a b = (a ||| b, 0)))

/-! The host attachment. -/

/-- R311 to R313, R316, R323 to R325, R342, R363: the link comes up with its settings, keeps them through a retrain that reports a new
rate or width, and falls alone; configuration and DOE requests are answered from stage 6 on, the BARs show their sizes; an armed notice
event sends its vector once, with the address and data of its entry; a failed IDE stream is insecure, and what the host sends then has no
effect; FLR resets the registers of class F, the configuration state, the MSI-X table and the queues of the host (what of the
configuration space is the standard's: log entry 28). -/
def Obligations.HostAttachment : Prop :=
  ∀ (s : State),
    let tells (i : Instr) (o : List Out) : Prop := Completes i s fun s' => s' = { s with fresh := s'.fresh, out := s.out ++ o }
    (∀ rate width flit pcie, rateOk rate width flit = true →
      (s.boot.linkUp = false → s.boot.perst = false → stageEnded s 4 = true → rdb s Fd.moduleStateNoservice = false → s.boot.p3 = false →
        Completes (.cxlLinkUp rate width flit pcie) s fun s' => Sets { s with boot := { s.boot with linkUp := true } } s'
          [(Fd.hifLinkRate, rate), (Fd.hifLinkWidth, width), (Fd.hifLinkFlit, flit), (Fd.hifLinkMode, if pcie then 1 else 0)]) ∧
      (s.boot.linkUp = true → Completes (.linkRetrain rate width flit) s fun s' => Sets s s'
        ([(Fd.hifLinkRate, rate), (Fd.hifLinkWidth, width), (Fd.hifLinkFlit, flit)] ++
          if rate ≠ rd s Fd.hifLinkRate ∨ width ≠ rd s Fd.hifLinkWidth then [(Fd.nHifLinkChange, 1)] else [])) ∧
      (s.boot.linkUp = true ∨ s.boot.perst = true ∨ stageEnded s 4 = false ∨ rdb s Fd.moduleStateNoservice = true ∨ s.boot.p3 = true →
        Ignored (.cxlLinkUp rate width flit pcie) s) ∧
      (s.boot.linkUp = false → Ignored (.linkRetrain rate width flit) s ∧ Ignored .cxlLinkDrop s)) ∧
    (s.boot.linkUp = true → Completes .cxlLinkDrop s fun s' =>
      Sets { s with boot := { s.boot with linkUp := false } } s' [(Fd.hifLinkRate, 0), (Fd.hifLinkWidth, 0)]) ∧
    (hostUp s = false ∨ rd s Fd.hifLinkIde = 3 → ∀ r w p, Ignored (.configurationRequest r w) s ∧ Ignored (.doeRequest p) s) ∧
    (∀ a b, (cfgRead (cfgWrite (cfgWrite s .bar0 0xFFFFFFFF) .bar0Hi a) .bar0 = 2 ^ 32 - 2 ^ 26 + 4) ∧
      (cfgRead (cfgWrite (cfgWrite s .bar2 0xFFFFFFFF) .bar2Hi b) .bar2 = 2 ^ 32 - 2 ^ 28 + 4)) ∧
    (∀ id w v, id ≠ 0 ∨ (w ≠ 6 ∧ w ≠ 7) → let m := Config.dvsecWritable id w % 2 ^ 32
      cfgRead (cfgWrite s (.dvsec id w) v) (.dvsec id w) = ((cfgRead s (.dvsec id w) &&& (2 ^ 32 - 1 - m)) ||| (v &&& m))) ∧
    (hostUp s = true → rd s Fd.hifLinkIde ≠ 3 →
      (stageEnded s 6 = false → ∀ r w, tells (.configurationRequest r w) [.reply 4 1 []]) ∧
      (stageEnded s 6 = true → (∀ r, tells (.configurationRequest r none) [.reply 4 0 [cfgRead s r]]) ∧
        (∀ r v, exec (.configurationRequest r (some v)) s = ok (emit (cfgWrite s r v.toNat) (.reply 4 0 []))) ∧
        (∀ v : BitVec 32, Completes (.configurationRequest .command (some v)) s fun s' => s'.out = s.out ++ [.reply 4 0 []] ∧
          s'.hif = { s.hif with cfg := { s.hif.cfg with decode := bit v.toNat 1 } }) ∧
        (∀ v : BitVec 32, bit v.toNat 1 = true → Completes (.configurationRequest .dvsecControl2 (some v)) s fun s' =>
          s'.hif = { s.hif with dcoh := [] })) ∧
      (stageEnded s 6 = false → ∀ p, tells (.doeRequest p) [.reply 4 1 []]) ∧
      (stageEnded s 6 = true → tells (.doeRequest .discovery) [.reply 3 0 [0, 1, 2, 3]] ∧
        tells (.doeRequest .cdat) [.reply 3 3 (cdat s)] ∧
        (rdb s Fd.secMbStsBusy = false → tells (.doeRequest .spdm) [.reply 3 1 []] ∧ tells (.doeRequest .secured) [.reply 3 2 []]) ∧
        (rdb s Fd.secMbStsBusy = true → ∀ p, p = .spdm ∨ p = .secured → Completes (.doeRequest p) s fun s' =>
          s' = { s with fresh := s'.fresh, hif := { s.hif with doe := s.hif.doe ++ [p] } }) ∧ Ignored (.doeRequest .other) s)) ∧
    (noticeEvent s = true →
      (rdb s Fd.hifCtlNarm = false ∨ hostUp s = false ∨ rd s Fd.hifLinkIde = 3 → Ignored .msixNoticeEvent s) ∧
      (rdb s Fd.hifCtlNarm = true → hostUp s = true → rd s Fd.hifLinkIde ≠ 3 → let v := rd s Fd.hifCtlNvec
        (vecMasked s v = false → Completes .msixNoticeEvent s fun s' =>
          Sets { s with out := s.out ++ [msixOut s v] } s' [(Fd.hifCtlNarm, 0)]) ∧
        (vecMasked s v = true → Completes .msixNoticeEvent s fun s' =>
          Sets { s with hif := { s.hif with msixPend := insertNat s.hif.msixPend v } } s' [(Fd.hifCtlNarm, 0)]))) ∧
    (hostUp s = true → rd s Fd.hifLinkIde = 2 → Completes .ideIntegrityFailure s fun s' =>
      rd s' Fd.hifLinkIde = 3 ∧ rd s' Fd.nHifIdeFail = 1 ∧ s'.out = s.out ++ [.reply 5 0 []] ∧ s'.hif = s.hif ∧ SameMem s s') ∧
    (hostUp s = false ∨ bringUp s = true → Ignored .flr s) ∧
    (let b := settle s
     hostUp s = true → bringUp s = false → b.qmu.badLinks = [] → Completes .flr s fun s' =>
      (∀ f : Fld, f.lo < 128 → classF f.addr = true → rd s' f = f.rst) ∧ rd s' Fd.moduleResetsF = 1 ∧
      (∀ f : Fld, f.lo < 128 → classF f.addr = false → f.key ≠ Fd.moduleResetsF.key → f.key ≠ Fd.qmuLostCount.key → rd s' f = rd b f) ∧
      s'.hif = { b.hif with cfg := cfgInit, msix := [], msixPend := [], doe := [] } ∧
      (∀ q, queue s' q = if hostOwned b q then
        { queueInit with hostCount := (queue b q).hostCount
                         hostDrop := if (queue b q).hostCount ≠ 0 ∧ (queue b q).hostDrop = 0 then 1 else (queue b q).hostDrop }
        else queue b q) ∧
      (∀ w, w ∈ s'.qmu.waiting ↔ w ∈ b.qmu.waiting ∧ w.producer ≠ prodHif) ∧ SameMem b s')

/-- R155, R317 to R320, R322: a host access to memory that answers reads the stored bytes and holds the line, or stores its bytes; one in
a hole reads poison or is lost, and is reported; with the filter full a read waits for an answer; in the insecure state an access is
discarded; a late write-back is discarded and counted; the answer to a back-invalidate, or its time-out, ends the host's hold of the line;
a host snoop empties its line of the device cache (one line at most for each access: log entry 18). -/
def Obligations.HostMemory : Prop :=
  (∀ (s : State) (a n : Nat), cxlUp s = true → 1 ≤ n → a / 64 = (a + n - 1) / 64 → a + n ≤ hdmSize s →
    (rd s Fd.hifLinkIde = 3 → Ignored (.hdmRead a n) s ∧ ∀ bytes : List Byte, bytes.length = n → Ignored (.hdmWrite a bytes) s) ∧
    (rd s Fd.hifLinkIde ≠ 3 →
    let k := (pcOf a).1
    let bad (s' : State) : Prop := rd s' Fd.nHifHdmBad = 1 ∧
      rd s' Fd.hifHdmBadCount = satAdd 32 (rd s Fd.hifHdmBadCount) 1 ∧ s'.hif = s.hif ∧ SameMem s s'
    let counts (s' : State) : Prop := ∀ f : Fld, f.key ∉ [(Fd.memSlotReqCount k).key, (Fd.memSlotWaitCycles k).key, (Fd.memPcWaitCycles k).key,
      Fd.dbgHubContendCount.key] → (∀ l, l < 8 → f.key ≠ (Fd.dbgD2dKibCount l).key ∧ f.key ≠ (Fd.dbgD2dContendCount l).key) → rd s' f = rd s f
    (hdmOk s a = false → Completes (.hdmRead a n) s fun s' => bad s' ∧ s'.out = s.out ++ [.hostData (List.replicate n 0) true]) ∧
    (hdmOk s a = true → ((Tab.find s.hif.lines (a / 64)).isSome = true ∨ filterRoom s = true) → Completes (.hdmRead a n) s fun s' =>
      SameMem s s' ∧ counts s' ∧ s'.out = s.out ++ [.hostData (readBytes s a n) false] ∧ s'.hif.grants = s.hif.grants + 1 ∧
      (Tab.find s.hif.lines (a / 64) = none →
        s'.hif.lines = Tab.insert s.hif.lines (a / 64) { grant := s.hif.grants, snoop := none, stale := false }) ∧
      (∀ h, Tab.find s.hif.lines (a / 64) = some h → s'.hif.lines = Tab.insert s.hif.lines (a / 64) { h with grant := s.hif.grants })) ∧
    (hdmOk s a = true → Tab.find s.hif.lines (a / 64) = none → filterRoom s = false → Completes (.hdmRead a n) s fun s' =>
      SameMem s s' ∧ (∀ f, rd s' f = rd s f) ∧ s'.hif.held = s.hif.held ++ [(a, n)] ∧
      (s'.out = s.out ∨ ∃ p ∈ s.hif.lines, p.2.snoop = none ∧ s'.out = s.out ++ [.biSnoop p.1] ∧
        s'.hif.lines = Tab.insert s.hif.lines p.1 { p.2 with snoop := some s.now })) ∧
    (∀ bytes : List Byte, bytes.length = n →
      (hdmOk s a = false → Completes (.hdmWrite a bytes) s fun s' => bad s' ∧ s'.out = s.out) ∧
      (hdmOk s a = true → (∀ h, Tab.find s.hif.lines (a / 64) = some h → h.stale = false) → Completes (.hdmWrite a bytes) s fun s' =>
        s'.mem = memWrite s.mem a bytes ∧ SameMemBut a n s s' ∧ counts s' ∧ s'.hif = s.hif ∧ s'.out = s.out) ∧
      (hdmOk s a = true → (∃ h, Tab.find s.hif.lines (a / 64) = some h ∧ h.stale = true) → Completes (.hdmWrite a bytes) s fun s' =>
        Sets s s' [(Fd.hifWbDiscardCount, satAdd 32 (rd s Fd.hifWbDiscardCount) 1)])))) ∧
  (∀ (s : State) (line : Nat) (h : HLine) (t : Nat), Tab.find s.hif.lines line = some h → h.snoop = some t →
    (rd s Fd.hifLinkIde = 3 → ∀ modified, Ignored (.birsp line modified) s) ∧
    let erased : Hif := { s.hif with lines := Tab.erase s.hif.lines line }
    (rd s Fd.hifLinkIde ≠ 3 → s.hif.held = [] → ∀ modified, Completes (.birsp line modified) s fun s' => Sets { s with hif := erased } s'
      (if modified ∧ h.stale then [(Fd.hifWbDiscardCount, satAdd 32 (rd s Fd.hifWbDiscardCount) 1)] else [])) ∧
    (∀ a n, rd s Fd.hifLinkIde ≠ 3 → s.hif.held = [(a, n)] → hdmOk s a = true → filterRoom { s with hif := erased } = true → ∀ modified,
      Completes (.birsp line modified) s fun s' => s'.hif.held = [] ∧ s'.out = s.out ++ [.hostData (readBytes s a n) false] ∧ SameMem s s') ∧
    (let s0 := settleTo s (t + rd s Fd.hifBiToCycles)
     s0.hif.held = [] → Completes (.biTimeout line) s fun s' =>
      s'.now = max s.now (t + rd s Fd.hifBiToCycles) ∧ rd s' Fd.nHifBiTimeout = 1 ∧
      rd s' Fd.hifBiTimeoutsCount = satAdd 32 (rd s0 Fd.hifBiTimeoutsCount) 1 ∧
      s'.hif = { s0.hif with lines := Tab.erase s0.hif.lines line } ∧ SameMem s0 s')) ∧
  (∀ (s : State) (line : Nat), cxlUp s = false ∨ rd s Fd.hifLinkIde = 3 → Ignored (.hostSnoop line) s) ∧
  (∀ (s : State) (line : Nat), cxlUp s = true → rd s Fd.hifLinkIde ≠ 3 → Completes (.hostSnoop line) s fun s' =>
    s' = { s with fresh := s'.fresh, hif := { s.hif with dcoh := s.hif.dcoh.filter fun p => p.1 != line } })

/-- R313, R315, R321 to R324, R331: 64 bytes at the right offset of a queue's window put a cell in the queue or take one, any other access
does neither (what an access answers while the function decodes no BAR is the standard's: log entry 28); a ring moves one cell between its
queue and host memory and advances its index, a full one only counts, a refused entry stays; an index of the host that passes the ring is
refused, and ARM sends the ring's vector when cells are there. -/
def Obligations.HostQueuesAndRings : Prop :=
  ∀ s : State,
    (∀ (q off : Nat) (bytes : List Byte), q < 4096 → off < 0x10000 → BarOpen s → 1 ≤ bytes.length → bytes.length ≤ 64 →
      let cmd := Instr.windowEnqueue (0x10000 * q + off) bytes
      (0x40 ≤ off → Ignored cmd s) ∧
      (off = 0 → bytes.length = 64 → exec cmd s = exec (.enqueue prodHif q bytes) s ∧ Completes cmd s fun s' => SameMem s s') ∧
      (off < 0x40 → (off ≠ 0 ∨ bytes.length < 64) → Completes cmd s fun s' =>
        Sets s s' [(Fd.nHifPartial, 1), (Fd.hifPartialCount, satAdd 32 (rd s Fd.hifPartialCount) 1)])) ∧
    (∀ q off len, q < 4096 → off < 0x10000 → BarOpen s → 1 ≤ len → len ≤ 64 →
      let cmd := Instr.windowDequeue (0x10000 * q + off) len
      (off = 0x1000 → len = 64 → let r := deqCell s prodHif q
       Completes cmd s fun s' => s' = { r.1 with fresh := s'.fresh, out := r.1.out ++ [.hostData (r.2.1.take 56 ++ leBytes 8 r.2.2) false] }) ∧
      ((off ≠ 0x1000 ∨ len < 64) → Completes cmd s fun s' =>
        s' = { s with fresh := s'.fresh, out := s.out ++ [.hostData (List.replicate len 0) false] })) ∧
    (∀ (addr len : Nat) (bytes : List Byte), addr < 2 ^ 28 → hostUp s = true → bytes.length = len → 1 ≤ len → len ≤ 64 →
      (rd s Fd.hifLinkIde = 3 → Ignored (.windowEnqueue addr bytes) s ∧ Ignored (.windowDequeue addr len) s) ∧
      (rd s Fd.hifLinkIde ≠ 3 → s.hif.cfg.decode = false → ∀ cmd ∈ [Instr.windowEnqueue addr bytes, .windowDequeue addr len],
        Completes cmd s fun s' => s' = { s with fresh := s'.fresh, out := s.out ++ [.reply 6 1 []] })) ∧
    (∀ n, n < 64 → cxlUp s = true → rd s Fd.hifLinkIde ≠ 3 → rdb s (Fd.hifRingCtlEn n) = true →
      let h := rd s (Fd.hifRingHeadIndex n)
      let q := rd s (Fd.hifRingCtlQueue n)
      (rdb s (Fd.hifRingCtlDir n) = false → ringUsed s n = ringSize s n → bit (deqCell s prodHif q).2.2 63 = true →
        Completes (.ringDrain n) s fun s' =>
        Sets s s' [(Fd.hifRingFullCount, satAdd 32 (rd s Fd.hifRingFullCount) 1)]) ∧
      (rdb s (Fd.hifRingCtlDir n) = false → ringUsed s n ≠ ringSize s n →
        let r := deqCell s prodHif q
        let u := rd r.1 (Fd.hifRingTailIndex n)
        let vec := rd r.1 (Fd.hifRingCtlVec n)
        bit r.2.2 63 = true → Completes (.ringDrain n) s fun s' =>
          rd s' (Fd.hifRingTailIndex n) = (u + 1) % 2 ^ 31 ∧ rd s' (Fd.hifRingHeadIndex n) = rd r.1 (Fd.hifRingHeadIndex n) ∧
          s'.qmu = r.1.qmu ∧ SameMem r.1 s' ∧
          s'.out = r.1.out ++ .hostWrite (ringEntry r.1 n u) (r.2.1.take 56 ++ leBytes 8 r.2.2) ::
            if rdb r.1 (Fd.hifRingCtlArm n) ∧ vecMasked r.1 vec = false then [msixOut r.1 vec] else []) ∧
      (rdb s (Fd.hifRingCtlDir n) = true → ringUsed s n ≠ 0 → ∀ bytes : List Byte, bytes.length = 64 →
        -- b is the state in which the entry has been read
        let b := settle { s with hif := { s.hif with
          dcoh := let l := (s.hif.dcoh.filter fun p => p.1 != ringEntry s n h / 64) ++ [(ringEntry s n h / 64, false)]; l.drop (l.length - 65536) } }
        let waits : Bool := accepts b q && !roomIn b q && (queue b q).hostDrop == 0
        (waits = true → Completes (.ringFill n bytes) s fun s' => s' = { b with fresh := s'.fresh }) ∧
        (waits = false → Completes (.ringFill n bytes) s fun s' => Sets { b with qmu := { b.qmu with
            waiting := b.qmu.waiting ++ [⟨prodHif, q, 0, bytes, b.now, 1, 0⟩] } } s' [(Fd.hifRingHeadIndex n, (h + 1) % 2 ^ 31)]))) ∧
    (∀ n, n < 64 → cxlUp s = false ∨ rd s Fd.hifLinkIde = 3 → rdb s (Fd.hifRingCtlEn n) = true → rdb s (Fd.hifRingCtlDir n) = false →
      Ignored (.ringDrain n) s) ∧
    (∀ (n : Nat) (v : BitVec 32), n < 64 →
      let new := v.toNat % 2 ^ 31
      let ahead := (new + 2 ^ 31 - rd s (Fd.hifRingHeadIndex n)) % 2 ^ 31
      let vec := rd s (Fd.hifRingCtlVec n)
      let cells : Prop := (rd s (Fd.hifRingTailIndex n) + 2 ^ 31 - new) % 2 ^ 31 ≠ 0 ∧ rdb s (Fd.hifRingCtlEn n) = true
      let head := Instr.hifRingHeadWrite n v
      (rd s Fd.hifLinkIde = 3 → Ignored head s ∧ Ignored (.hifRingTailWrite n v) s) ∧ (rd s Fd.hifLinkIde ≠ 3 →
      (stageEnded s 4 = false ∨ rdb s (Fd.hifRingCtlDir n) = true → Ignored head s) ∧
      (stageEnded s 4 = true → rdb s (Fd.hifRingCtlDir n) = false →
        (ringUsed s n < ahead → Completes head s fun s' => Sets s s' [(Fd.nHifReject, 1)]) ∧
        (ahead ≤ ringUsed s n → v.toNat < 2 ^ 31 → Completes head s fun s' => Sets s s' [(Fd.hifRingHeadIndex n, new)]) ∧
        (ahead ≤ ringUsed s n → 2 ^ 31 ≤ v.toNat → ¬ cells → Completes head s fun s' =>
          Sets s s' [(Fd.hifRingHeadIndex n, new), (Fd.hifRingCtlArm n, 1)]) ∧
        (ahead ≤ ringUsed s n → 2 ^ 31 ≤ v.toNat → cells → vecMasked s vec = false → Completes head s fun s' =>
          Sets { s with out := s.out ++ [msixOut s vec] } s' [(Fd.hifRingHeadIndex n, new), (Fd.hifRingCtlArm n, 0)])) ∧
      (stageEnded s 4 = false ∨ rdb s (Fd.hifRingCtlDir n) = false → Ignored (.hifRingTailWrite n v) s) ∧
      (stageEnded s 4 = true → rdb s (Fd.hifRingCtlDir n) = true →
        (ringSize s n < ahead → Completes (.hifRingTailWrite n v) s fun s' => Sets s s' [(Fd.nHifReject, 1)]) ∧
        (ahead ≤ ringSize s n → Completes (.hifRingTailWrite n v) s fun s' => Sets s s' [(Fd.hifRingTailIndex n, new)]))))

/-! The security controller. -/

/-- R370, R373 to R378, R380: a mailbox command is refused while another runs and gives 0x16 where PLDM owns the update; BEGIN takes a
manifest that passes or names its fault; DATA and VERIFY run until their command completes; ACTIVATE arms the set; the sixth READY commits
it and raises the floors; a component that is not READY, or a time-out, ends the update with an ABANDONED record and nothing switched. -/
def Obligations.SecUpdates : Prop :=
  ∀ s : State,
    let err (st : Nat) (s' : State) : Prop := rd s' Fd.secMbStsState = st ∧
      rd s' (Fd.errcntCount secPage) = satAdd 32 (rd s (Fd.errcntCount secPage)) 1 ∧
      (rd s (Fd.errcntCount secPage) = 0 → rd s' (Fd.firstErrInfo secPage) = errInfo s 0 st % 2 ^ 64) ∧ s'.sec = s.sec ∧ SameMem s s'
    let m := s.sec.manifest
    -- b is the state in which the update is ended
    let abandoned (b : State) (reason comp : Nat) (s' : State) : Prop :=
      s'.sec.phase = 0 ∧ rd s' Fd.secMbStsState = 0 ∧ rd s' Fd.secMbStsOwner = 0 ∧ rd s' Fd.nSecAbort = 1 ∧
      s'.sec.running = b.sec.running ∧ s'.sec.stored = b.sec.stored ∧ s'.sec.slotA = b.sec.slotA ∧ s'.sec.floors = b.sec.floors ∧
      (let r : CRec := { tag := b.sec.tag, status := St.abandoned, kind := Sk.sec, idx := 0, cyc := b.now, detail := reason + comp * 256,
                         flags := 0, count := 0 }
       s'.qmu = { b.qmu with waiting := b.qmu.waiting ++ [⟨prodSec, rd b Fd.secCqQueue, rd b (Fd.qmuQcfgDefprio (rd b Fd.secCqQueue)),
         pad64 (r.bytes b.sec.turn (offsetAt b b.now)), b.now, 0, 0⟩] }) ∧ SameMem b s'
    (secUp s = false → ∀ i ∈ [Instr.secBegin, .secData, .secVerify, .secActivate, .secCancel], Ignored i s) ∧
    (secUp s = true → secBusy s = true → ∀ i ∈ [Instr.secBegin, .secData, .secVerify, .secActivate, .secCancel],
      Completes i s fun s' => Sets s s' [(Fd.nSecReject, 1)]) ∧
    (secUp s = true → secBusy s = false → owner s = 2 → ∀ i ∈ [Instr.secBegin, .secData, .secVerify, .secActivate, .secCancel],
      Completes i s (err 0x16)) ∧
    (secUp s = true → secBusy s = false → (owner s = 0 ∨ owner s = 1) →
      (3 ≤ s.sec.phase → Completes .secBegin s (err 0x13)) ∧
      (s.sec.phase < 3 → ∀ st, manifestFault s (windowBytes s 640) = some st → Completes .secBegin s fun s' =>
        rd s' Fd.secMbStsState = st ∧ rd s' Fd.secMbStsOwner = 0 ∧ s'.sec = { s.sec with phase := 0, slotB := [] } ∧ SameMem s s') ∧
      (s.sec.phase < 3 → manifestFault s (windowBytes s 640) = none → Completes .secBegin s fun s' =>
        Sets { s with sec := { s.sec with phase := 1, manifest := windowBytes s 640, slotB := [], cmd := none, ready := [] } } s'
          [(Fd.secMbStsState, 1), (Fd.secMbStsOwner, 1)]) ∧
      (let comp := rd s Fd.secMbCmdComp
       let n := rd s Fd.secMbCmdLen
       let fits : Prop := s.sec.phase = 1 ∧ 1 ≤ comp ∧ comp ≤ 6 ∧ 1 ≤ n ∧ n ≤ 4096 ∧ entrySame m comp = false ∧
         16 * rd s Fd.secMbCmdOff = (bankB s comp).written ∧ (bankB s comp).written + n ≤ entrySize m comp
       (¬ fits → Completes .secData s (err 0x13)) ∧
       (fits → Completes .secData s fun s' => Sets { s with sec := { s.sec with
          cmd := some { cmd := 2, comp := comp, data := windowBytes s n, path := 1, since := s.now } } } s' [(Fd.secMbStsBusy, 1)])) ∧
      (s.sec.phase ≠ 1 → Completes .secVerify s (err 0x13)) ∧
      (s.sec.phase = 1 → Completes .secVerify s fun s' => Sets
        { s with sec := { s.sec with cmd := some { cmd := 3, comp := 0, data := [], path := 1, since := s.now } } } s'
        [(Fd.secMbStsBusy, 1)]) ∧
      ((s.sec.phase ≠ 2 ∨ rd s Fd.secActTurn < turnNo s + 2) → Completes .secActivate s (err 0x13)) ∧
      (s.sec.phase = 2 → turnNo s + 2 ≤ rd s Fd.secActTurn → Completes .secActivate s fun s' => Sets
        { s with sec := { s.sec with phase := 3, turn := rd s Fd.secActTurn, tag := rd s Fd.secActTag, ready := [] } } s'
        [(Fd.secMbStsState, 3)]) ∧
      (s.sec.phase = 0 → Completes .secCancel s fun s' => Sets s s' [(Fd.secMbStsState, 0), (Fd.secMbStsOwner, 0)]) ∧
      (s.sec.phase ≠ 0 → s.sec.switched = true → Completes .secCancel s (err 0x13)) ∧
      (s.sec.phase ≠ 0 → s.sec.switched = false → Completes .secCancel s fun s' => s'.sec.phase = 0 ∧ s'.sec.cmd = none ∧ s'.sec.ready = [] ∧
        rd s' Fd.secMbStsState = 0 ∧ rd s' Fd.secMbStsOwner = 0 ∧ s'.sec.running = s.sec.running ∧ s'.sec.slotA = s.sec.slotA ∧
        s'.sec.slotB = (if s.sec.phase = 4 then s.sec.slotB else []) ∧ s'.qmu = s.qmu ∧ SameMem s s')) ∧
    (∀ c, s.sec.cmd = some c → c.cmd = 2 →
      let b := settleTo s (c.since + flashCycles c.comp c.data.length)
      Completes .mbCommandComplete s fun s' =>
      s'.now = max s.now (c.since + flashCycles c.comp c.data.length) ∧ rd s' Fd.secMbStsBusy = 0 ∧ rd s' Fd.secMbStsState = 1 ∧
      s'.sec.cmd = none ∧ (bankB s' c.comp).bytes = (bankB b c.comp).bytes.take (bankB b c.comp).written ++ c.data ∧
      (bankB s' c.comp).written = (bankB b c.comp).written + c.data.length ∧ (∀ d, d ≠ c.comp → bankB s' d = bankB b d) ∧
      s'.hif.doe = [] ∧ SameMem b s') ∧
    (∀ c, s.sec.cmd = some c → c.cmd ≠ 2 →
      let b := settleTo s (c.since + hashCycles (components.map (entrySize s.sec.manifest)).sum)
      let m := b.sec.manifest
      let image (d : Nat) : Bank :=
        if entrySame m d then { bytes := imageA b d, written := entrySize m d, valid := false } else bankB b d
      let whole : Prop := ∀ d ∈ components, (image d).written = entrySize m d ∧
        Config.sha384 ((image d).bytes.take (entrySize m d)) = entryDigest m d
      let above : Prop := ∀ d ∈ components, floorOf b d ≤ entrySvn m d
      Completes .mbCommandComplete s fun s' => rd s' Fd.secMbStsBusy = 0 ∧ s'.sec.cmd = none ∧ (∀ d ∈ components, bankB s' d = image d) ∧
        (¬ whole → rd s' Fd.secMbStsState = 0x14 ∧ s'.sec.phase = b.sec.phase) ∧
        (whole → ¬ above → rd s' Fd.secMbStsState = 0x15 ∧ s'.sec.phase = b.sec.phase) ∧
        (whole → above → rd s' Fd.secMbStsState = 2 ∧ s'.sec.phase = 2)) ∧
    (∀ comp, s.sec.phase = 3 → 1 ≤ comp → comp ≤ 6 → comp ∉ s.sec.ready →
      let late : Prop := s.sec.turn ≤ turnNo s ∨ (turnNo s + 1 = s.sec.turn ∧ s.turn.guardAt ≤ s.now)
      let run := entrySrec (runningManifest s) comp
      let six := insertNat s.sec.ready comp
      let held := heldUp s && spansTurn s s.sec.turn
      (late → ∀ ready, Completes (.prepareAnswer comp ready) s (abandoned s 2 comp)) ∧
      (¬ late → Completes (.prepareAnswer comp false) s (abandoned s 1 comp)) ∧
      (¬ late → ¬ (entrySrecMin m comp ≤ run ∧ run ≤ entrySrec m comp) → Completes (.prepareAnswer comp true) s (abandoned s 1 comp)) ∧
      (¬ late → entrySrecMin m comp ≤ run → run ≤ entrySrec m comp →
        (six.length < 6 → Completes (.prepareAnswer comp true) s fun s' =>
          s' = { s with fresh := s'.fresh, sec := { s.sec with ready := six } }) ∧
        (6 ≤ six.length → held = true → Completes (.prepareAnswer comp true) s (abandoned s 3 0)) ∧
        (6 ≤ six.length → held = false → Completes (.prepareAnswer comp true) s fun s' =>
          s'.sec.phase = 4 ∧ rd s' Fd.secMbStsState = 4 ∧ s'.sec.stored = some m ∧ s'.sec.running = s.sec.running ∧
          s'.sec.writes = min (s.sec.writes + 1) (2 ^ 32 - 1) ∧ s'.sec.bankA = swapBanks s.sec.bankA ∧
          s'.sec.code = some (Config.recordCode Config.pufSeed (bankRecord s'.sec)) ∧ s'.sec.floorsM = s.sec.floorsM ∧
          (∀ d ∈ components, floorOf s' d = max (floorOf s d) (entrySvn m d)) ∧
          (∀ d ∈ components, imageA s' d = (bankB s d).bytes ∧ (bankB s' d).bytes = imageA s d) ∧ SameMem s s'))) ∧
    (s.sec.phase = 3 → s.sec.turn ≤ turnNo s + 1 →
      let b := if turnNo s + 1 = s.sec.turn then settleTo s s.turn.guardAt else s
      Completes .activationTimeout s (abandoned b 2 ((components.find? fun c => !b.sec.ready.contains c).getD 0)))

/-- R374, R375, R379: over the sideband the PLDM commands answer with their completion code; an update that RequestUpdate opened runs
through the phases of the mailbox, and ActivateFirmware names the turn 400 ahead; MCTP discovery is answered at the MMC's address. With
both MMC banks failed its boot ROM takes an image to slot A and the MMC boots again (the codes of the answers are the model's: log entry
19). -/
def Obligations.PldmUpdates : Prop :=
  ∀ s : State, s.boot.powered = true →
    let tells (i : Instr) (o : List Out) : Prop := Completes i s fun s' => s' = { s with fresh := s'.fresh, out := s.out ++ o }
    let steps : List (Instr × Nat) := [(.pldmTransferComplete, 0x16), (.pldmVerifyComplete, 0x17), (.pldmApplyComplete, 0x18),
      (.pldmActivateFirmware, 0x1A), (.pldmCancelUpdateComponent, 0x1C), (.pldmCancelUpdate, 0x1D)]
    let variant := match s.variant with | .f => 0 | .l => 1 | .s => 2
    (stageEnded s 1 = false → s.mmc.rom = none → Ignored .mctpDiscovery s ∧ Ignored .pldmGetStatus s ∧ Ignored .pldmRequestUpdate s) ∧
    (stageEnded s 1 = true ∨ s.mmc.rom ≠ none → tells .mctpDiscovery [.reply 2 0 s.mmc.addr.toList]) ∧
    (∀ l, s.mmc.rom = some l →
      let takes (x : Option (List Byte)) (s' : State) : Prop := s'.mmc = { s.mmc with rom := x }
      (Completes .pldmRequestUpdate s fun s' => takes (some []) s' ∧ s'.out = s.out ++ [.reply 1 0x10 [0]] ∧ s'.sec = s.sec) ∧
      (∀ bytes : List Byte, bytes.length ≤ 1024 → l.length + bytes.length ≤ bankBytes 1 →
        Completes (.pldmRequestFirmwareData bytes) s fun s' => takes (some (l ++ bytes)) s' ∧ s'.out = s.out ++ [.reply 1 0x15 [0]] ∧
          s'.sec = s.sec) ∧
      (l ≠ [] → Completes .pldmTransferComplete s fun s' => takes none s' ∧ s'.out = s.out ++ [.reply 1 0x16 [0]] ∧
        imageA s' 1 = l ∧ ∀ c, c ≠ 1 → imageA s' c = imageA s c)) ∧
    (stageEnded s 1 = true → s.mmc.rom = none →
      tells .pldmQueryDeviceIdentifiers [.reply 1 0x01 [0, variant, Config.recordVersion]] ∧
      tells .pldmGetFirmwareParameters [.reply 1 0x02 (0 :: components.flatMap fun c =>
        [entryBuild (runningManifest s) c, entrySvn (runningManifest s) c, if (bankB s c).valid then 1 else 0])] ∧
      tells .pldmGetStatus [.reply 1 0x1B [0, s.sec.phase, rd s Fd.secMbStsState]] ∧
      (secUp s = true → owner s = 1 → tells .pldmRequestUpdate [.reply 1 0x10 [0x16]]) ∧
      (secUp s = true → owner s ≠ 1 → Completes .pldmRequestUpdate s fun s' => s' =
        { s with fresh := s'.fresh, out := s.out ++ [.reply 1 0x10 [0]], sec := { s.sec with pldmOpen := true, pldmComp := 0 } }) ∧
      (s.sec.pldmOpen = false → (∀ p ∈ steps, tells p.1 [.reply 1 p.2 [0x80]]) ∧
        ∀ l c, tells (.pldmPassComponentTable l) [.reply 1 0x13 [0x80]] ∧ tells (.pldmUpdateComponent c) [.reply 1 0x14 [0x80]] ∧
          tells (.pldmRequestFirmwareData l) [.reply 1 0x15 [0x80]]) ∧
      (secUp s = true → s.sec.pldmOpen = true → secBusy s = true → (∀ p ∈ steps, tells p.1 [.reply 1 p.2 [0x16]]) ∧
        ∀ l c, tells (.pldmPassComponentTable l) [.reply 1 0x13 [0x16]] ∧ tells (.pldmUpdateComponent c) [.reply 1 0x14 [0x16]] ∧
          tells (.pldmRequestFirmwareData l) [.reply 1 0x15 [0x16]]) ∧
      (secUp s = true → s.sec.pldmOpen = true → secBusy s = false → (owner s = 0 ∨ owner s = 2) →
        let m := s.sec.manifest
        let comp := s.sec.pldmComp
        let told (cmd : Nat) (s' : State) : Prop := s'.out = s.out ++ [.reply 1 cmd [0, rd s' Fd.secMbStsState]] ∧ SameMem s s'
        (∀ l, s.sec.phase < 3 → manifestFault s l = none → Completes (.pldmPassComponentTable l) s fun s' => told 0x13 s' ∧
          s'.sec.phase = 1 ∧ s'.sec.manifest = l ∧ s'.sec.slotB = [] ∧ rd s' Fd.secMbStsState = 1 ∧ rd s' Fd.secMbStsOwner = 2) ∧
        (∀ l st, s.sec.phase < 3 → manifestFault s l = some st → Completes (.pldmPassComponentTable l) s fun s' => told 0x13 s' ∧
          s'.sec.phase = 0 ∧ rd s' Fd.secMbStsState = st) ∧
        (∀ c, 1 ≤ c → c ≤ 6 → s.sec.phase = 1 → Completes (.pldmUpdateComponent c) s fun s' => told 0x14 s' ∧
          s'.sec = { s.sec with pldmComp := c }) ∧
        (∀ l : List Byte, s.sec.phase = 1 → 1 ≤ comp → comp ≤ 6 → entrySame m comp = false → 1 ≤ l.length → l.length ≤ 1024 →
          (bankB s comp).written + l.length ≤ entrySize m comp → Completes (.pldmRequestFirmwareData l) s fun s' => told 0x15 s' ∧
            rd s' Fd.secMbStsBusy = 1 ∧
            s'.sec = { s.sec with cmd := some { cmd := 2, comp := comp, data := l, path := 2, since := s.now } }) ∧
        (∀ l : List Byte, 1024 < l.length → Completes (.pldmRequestFirmwareData l) s fun s' => told 0x15 s' ∧
          rd s' Fd.secMbStsState = 0x13 ∧ s'.sec = s.sec) ∧
        (Completes .pldmTransferComplete s fun s' => told 0x16 s' ∧ s'.sec = { s.sec with pldmComp := 0 }) ∧
        (s.sec.phase = 1 → Completes .pldmVerifyComplete s fun s' => told 0x17 s' ∧ rd s' Fd.secMbStsBusy = 1 ∧
          s'.sec = { s.sec with cmd := some { cmd := 3, comp := 0, data := [], path := 2, since := s.now } }) ∧
        (s.sec.phase = 2 → Completes .pldmApplyComplete s fun s' => told 0x18 s' ∧ s'.sec = s.sec) ∧
        (s.sec.phase = 2 → Completes .pldmActivateFirmware s fun s' => told 0x1A s' ∧ rd s' Fd.secMbStsState = 3 ∧
          s'.sec = { s.sec with phase := 3, turn := turnNo s + 400, tag := rd s Fd.secActTag, ready := [] }) ∧
        (s.sec.switched = false → ∀ p ∈ [(Instr.pldmCancelUpdateComponent, 0x1C), (.pldmCancelUpdate, 0x1D)],
          Completes p.1 s fun s' => told p.2 s' ∧ s'.sec.phase = 0 ∧ s'.sec.pldmOpen = false ∧ rd s' Fd.secMbStsState = 0 ∧
            rd s' Fd.secMbStsOwner = 0 ∧ s'.sec.running = s.sec.running)))

/-- R316, R324, R366 to R369: an SPDM request out of order is answered UnexpectedRequest; in order the negotiation moves on and chooses
among the algorithms offered, slot 0 alone has a chain, which is read in parts of at most 4 KiB, signatures cover the request's nonce and
the answer, measurements are those of the running set, each transport holds at most one session, and IDE keys are set in a DOE session
only; a DOE request waits for the command that the SEC carries out (the form of the answers, the flags and the codes of errors are the
model's: log entries 7 and 19). -/
def Obligations.SpdmMessages : Prop :=
  ∀ (s : State) (t : Transport), trUp s t = true →
    -- b is the state in which the SEC takes the request
    let b := if t = .doe ∧ secBusy s then endCommand s else s
    let tells (i : Instr) (code : Nat) (l : List Nat) : Prop := Completes i s fun s' =>
      s' = { b with fresh := s'.fresh, out := b.out ++ [.reply 0 code l] }
    let no (i : Instr) (e : Nat) : Prop := tells i 0x7F [e]
    let moves (i : Instr) (code : Nat) (l : List Nat) (n : Nat) : Prop := Completes i s fun s' =>
      negoOf s' t = n ∧ (∀ u, u ≠ t → negoOf s' u = negoOf b u) ∧
      s' = { b with fresh := s'.fresh, out := b.out ++ [.reply 0 code l], sec := { b.sec with nego := s'.sec.nego } }
    let others (s' : State) : Prop := ∀ u, u ≠ t → sessionOf s' u = sessionOf b u
    let chain := certChain b
    let digest := Config.sha384 chain
    moves (.spdmGetVersion t) 0x04 [0x13] 1 ∧
    (negoOf b t < 1 → no (.spdmGetCapabilities t) 4) ∧ (1 ≤ negoOf b t → moves (.spdmGetCapabilities t) 0x61 [spdmCaps, 4096] 2) ∧
    (negoOf b t < 2 → ∀ l, no (.spdmNegotiateAlgorithms t l) 4) ∧
    (2 ≤ negoOf b t → ∀ l, ((∀ a ∈ l, 5 ≤ a) → no (.spdmNegotiateAlgorithms t l) 7) ∧
      ((∃ a ∈ l, a < 5) → moves (.spdmNegotiateAlgorithms t l) 0x63 ((List.range 5).filter fun a => l.contains a) 3)) ∧
    (negoOf b t < 3 → ∀ n off len nonce signs, no (.spdmGetDigests t) 4 ∧ no (.spdmGetCertificate t n off len) 4 ∧
      no (.spdmChallenge t n nonce) 4 ∧ no (.spdmGetMeasurements t n signs nonce) 4 ∧ no (.spdmKeyExchange t nonce) 4) ∧
    (3 ≤ negoOf b t →
      tells (.spdmGetDigests t) 0x01 [digest] ∧
      (∀ off len, let part := (chain.drop off).take (min len 4096)
        tells (.spdmGetCertificate t 0 off len) 0x02 ((chain.length - off - part.length) :: part.map BitVec.toNat)) ∧
      (∀ nonce, Completes (.spdmChallenge t 0 nonce) s fun s' => ∃ x,
        s' = { b with fresh := s'.fresh, out := b.out ++ [.reply 0 0x03 [digest, x, signed b [0x83, 0, nonce, digest, x]]] }) ∧
      (∀ n off len nonce, n ≠ 0 → no (.spdmGetCertificate t n off len) 1 ∧ no (.spdmChallenge t n nonce) 1) ∧
      (∀ n nonce, n ≤ 9 ∨ n = 0xFF →
        let l := if n = 0 then [9] else if n = 0xFF then [1, 2, 3, 4, 5, 6, 7, 8, 9].map (measurement b) else [measurement b n]
        tells (.spdmGetMeasurements t n false nonce) 0x60 l ∧
        Completes (.spdmGetMeasurements t n true nonce) s fun s' => ∃ x, s' =
          { b with fresh := s'.fresh, out := b.out ++ [.reply 0 0x60 (l ++ [x, signed b ([0xE0, n, nonce] ++ l ++ [x])])] }) ∧
      (∀ n nonce signs, 9 < n → n ≠ 0xFF → no (.spdmGetMeasurements t n signs nonce) 1) ∧
      ((2 ≤ b.sec.sessions.length ∨ sessionOf b t ≠ none) → ∀ nonce, no (.spdmKeyExchange t nonce) 3) ∧
      (b.sec.sessions.length < 2 → sessionOf b t = none → ∀ nonce, Completes (.spdmKeyExchange t nonce) s fun s' =>
        sessionOf s' t = some { tr := t, stage := 1, updates := 0 } ∧ others s' ∧
        ∃ x, s'.out = b.out ++ [.reply 0 0x64 [x, signed b [0xE4, nonce, x]]])) ∧
    (sessionOf b t = none → (∀ proof, no (.spdmFinish t proof) 4) ∧ no (.spdmHeartbeat t) 4 ∧ no (.spdmKeyUpdate t) 4 ∧
      no (.spdmEndSession t) 4 ∧ (t = .doe → no (.ideKm t) 4)) ∧
    (t = .mctp → no (.ideKm t) 7) ∧
    (∀ x, sessionOf b t = some x →
      (x.stage = 1 → (Completes (.spdmFinish t true) s fun s' => sessionOf s' t = some { x with stage := 2 } ∧ others s' ∧
          s'.out = b.out ++ [.reply 0 0x65 []]) ∧
        (Completes (.spdmFinish t false) s fun s' => sessionOf s' t = none ∧ others s' ∧ s'.out = b.out ++ [.reply 0 0x7F [6]])) ∧
      (x.stage ≠ 1 → ∀ proof, no (.spdmFinish t proof) 4) ∧
      (x.stage ≠ 2 → no (.spdmHeartbeat t) 4 ∧ no (.spdmKeyUpdate t) 4 ∧ no (.spdmEndSession t) 4) ∧
      (x.stage = 2 → tells (.spdmHeartbeat t) 0x68 [] ∧
        (Completes (.spdmKeyUpdate t) s fun s' => sessionOf s' t = some { x with updates := x.updates + 1 } ∧ others s' ∧
          s'.out = b.out ++ [.reply 0 0x69 []]) ∧
        (Completes (.spdmEndSession t) s fun s' => sessionOf s' t = none ∧ others s' ∧ s'.out = b.out ++ [.reply 0 0x6C []]) ∧
        (t = .doe → let n := if rd b Fd.hifLinkIde = 1 ∨ rd b Fd.hifLinkIde = 2 then 2 else 1
          Completes (.ideKm t) s fun s' => rd s' Fd.hifLinkIde = n ∧ (∃ o, s'.out = b.out ++ .reply 5 n [] :: o) ∧ s'.sec = b.sec ∧
            SameMem b s' ∧ (b.hif.held = [] → (∀ p ∈ b.hif.lines, p.2.stale = true → p.2.snoop ≠ none) →
              Sets { b with out := b.out ++ [.reply 5 n []] } s' [(Fd.hifLinkIde, n)]))))
end

