-- ==== Sys2Proof/Laws/Tab.lean ====
section
/-! SUPPORT. Sparse tables: a read after a write, and the canonical form kept by every operation on a table. -/

namespace Sys2Proof.Machine

theorem Tab.risingFrom_mono {α : Type} {lo lo' : Nat} (h : lo' ≤ lo) :
    ∀ {t : List (Nat × α)}, Tab.risingFrom lo t = true → Tab.risingFrom lo' t = true
  | [], _ => rfl
  | (k, _) :: t, ht => by
    simp only [Tab.risingFrom, Bool.and_eq_true, decide_eq_true_eq] at ht ⊢
    exact ⟨Nat.le_trans h ht.1, ht.2⟩

theorem Tab.risingFrom_insert {α : Type} {v : α} {a : Nat} :
    ∀ {lo : Nat} {t : List (Nat × α)}, Tab.risingFrom lo t = true → lo ≤ a → Tab.risingFrom lo (Tab.insert t a v) = true
  | lo, [], _, h => by simp [Tab.insert, Tab.risingFrom, h]
  | lo, (k, w) :: t, ht, h => by
    simp only [Tab.risingFrom, Bool.and_eq_true, decide_eq_true_eq] at ht
    unfold Tab.insert
    split
    · simp [Tab.risingFrom, ht]
    · split
      · rename_i h1 h2
        simp only [Tab.risingFrom, Bool.and_eq_true, decide_eq_true_eq]
        exact ⟨h, h2, ht.2⟩
      · rename_i h1 h2
        simp only [Tab.risingFrom, Bool.and_eq_true, decide_eq_true_eq]
        exact ⟨ht.1, Tab.risingFrom_insert ht.2 (by omega)⟩

theorem Tab.risingFrom_filter {α : Type} (p : Nat × α → Bool) :
    ∀ {lo : Nat} {t : List (Nat × α)}, Tab.risingFrom lo t = true → Tab.risingFrom lo (t.filter p) = true
  | _, [], _ => rfl
  | lo, (k, w) :: t, ht => by
    simp only [Tab.risingFrom, Bool.and_eq_true, decide_eq_true_eq] at ht
    rw [List.filter_cons]
    split
    · simp only [Tab.risingFrom, Bool.and_eq_true, decide_eq_true_eq]
      exact ⟨ht.1, Tab.risingFrom_filter p ht.2⟩
    · exact Tab.risingFrom_mono (by omega) (Tab.risingFrom_filter p ht.2)

theorem Tab.risingFrom_erase {α : Type} {a lo : Nat} {t : List (Nat × α)} (h : Tab.risingFrom lo t = true) :
    Tab.risingFrom lo (Tab.erase t a) = true := Tab.risingFrom_filter _ h

theorem Tab.mem_insert {α : Type} {v : α} {a : Nat} {e : Nat × α} :
    ∀ {t : List (Nat × α)}, e ∈ Tab.insert t a v → e = (a, v) ∨ e ∈ t
  | [], h => by simpa [Tab.insert] using h
  | (k, w) :: t, h => by
    unfold Tab.insert at h
    split at h
    · rename_i hk
      subst hk
      rcases List.mem_cons.1 h with h | h
      · exact .inl h
      · exact .inr (List.mem_cons_of_mem _ h)
    · split at h
      · exact List.mem_cons.1 h
      · rcases List.mem_cons.1 h with h | h
        · exact .inr (h ▸ List.mem_cons_self)
        · rcases Tab.mem_insert h with h | h
          · exact .inl h
          · exact .inr (List.mem_cons_of_mem _ h)

theorem Tab.mem_erase {α : Type} {a : Nat} {e : Nat × α} {t : List (Nat × α)} (h : e ∈ Tab.erase t a) : e ∈ t :=
  (List.mem_filter.1 h).1

/-! Reads after writes. -/

theorem Tab.find_insert_same {α : Type} {v : α} {a : Nat} : ∀ (t : List (Nat × α)), Tab.find (Tab.insert t a v) a = some v
  | [] => by simp [Tab.insert, Tab.find]
  | (k, w) :: t => by
    unfold Tab.insert
    split
    · rename_i h; simp [Tab.find, h]
    · split
      · simp [Tab.find]
      · rename_i h1 h2
        unfold Tab.find
        rw [if_neg h1]
        exact Tab.find_insert_same t

theorem Tab.find_insert_other {α : Type} {v : α} {a b : Nat} (h : b ≠ a) :
    ∀ (t : List (Nat × α)), Tab.find (Tab.insert t a v) b = Tab.find t b
  | [] => by simp [Tab.insert, Tab.find, h]
  | (k, w) :: t => by
    unfold Tab.insert
    split
    · rename_i hk; subst hk; simp [Tab.find, h]
    · split
      · rw [Tab.find, if_neg h]
      · simp only [Tab.find]
        rw [Tab.find_insert_other h t]

theorem Tab.find_erase_same {α : Type} {a : Nat} : ∀ (t : List (Nat × α)), Tab.find (Tab.erase t a) a = none
  | [] => rfl
  | (k, w) :: t => by
    have ih := Tab.find_erase_same (a := a) t
    unfold Tab.erase at ih ⊢
    rw [List.filter_cons]
    split
    · rename_i h
      rw [Tab.find, if_neg (fun e => (of_decide_eq_true h) e.symm)]
      exact ih
    · exact ih

theorem Tab.find_erase_other {α : Type} {a b : Nat} (h : b ≠ a) :
    ∀ (t : List (Nat × α)), Tab.find (Tab.erase t a) b = Tab.find t b
  | [] => rfl
  | (k, w) :: t => by
    have ih := Tab.find_erase_other h t
    unfold Tab.erase at ih ⊢
    rw [List.filter_cons]
    split
    · rw [Tab.find, Tab.find, ih]
    · rename_i hk
      rw [ih, Tab.find, if_neg fun e => hk (decide_eq_true (show k ≠ a from fun q => h (e.trans q)))]

/-- A value read back from where it was put. -/
theorem Tab.get_put_same {α : Type} [DecidableEq α] {d v : α} {a : Nat} {t : List (Nat × α)} : Tab.get d (Tab.put d t a v) a = v := by
  unfold Tab.get Tab.put
  split
  · rename_i hv; rw [Tab.find_erase_same, hv]; rfl
  · rw [Tab.find_insert_same]; rfl

/-- A put leaves every other key alone. -/
theorem Tab.get_put_other {α : Type} [DecidableEq α] {d d' v : α} {a b : Nat} {t : List (Nat × α)} (hb : b ≠ a) :
    Tab.get d' (Tab.put d t a v) b = Tab.get d' t b := by
  unfold Tab.get Tab.put
  split
  · rw [Tab.find_erase_other hb]
  · rw [Tab.find_insert_other hb]

theorem Tab.risingFrom_put {α : Type} [DecidableEq α] {d v : α} {a : Nat} {t : List (Nat × α)} (h : Tab.risingFrom 0 t = true) :
    Tab.risingFrom 0 (Tab.put d t a v) = true := by
  unfold Tab.put
  split
  · exact Tab.risingFrom_erase h
  · exact Tab.risingFrom_insert h (Nat.zero_le _)

/-- A put keeps the canonical form. -/
theorem Tab.wf_put {α : Type} [DecidableEq α] {d v : α} {a : Nat} {t : List (Nat × α)} (h : Tab.wf d t = true) :
    Tab.wf d (Tab.put d t a v) = true := by
  simp only [Tab.wf, Bool.and_eq_true, List.all_eq_true, decide_eq_true_eq] at h ⊢
  refine ⟨Tab.risingFrom_put h.1, fun e he => ?_⟩
  unfold Tab.put at he
  split at he
  · exact h.2 e (Tab.mem_erase he)
  · rcases Tab.mem_insert he with rfl | he
    · assumption
    · exact h.2 e he

/-- A filter keeps the canonical form. -/
theorem Tab.wf_keep {α : Type} [DecidableEq α] {d : α} {p : Nat → Bool} {t : List (Nat × α)} (h : Tab.wf d t = true) :
    Tab.wf d (Tab.keep p t) = true := by
  simp only [Tab.wf, Bool.and_eq_true, List.all_eq_true, decide_eq_true_eq] at h ⊢
  exact ⟨Tab.risingFrom_filter _ h.1, fun e he => h.2 e ((List.mem_filter.1 he).1)⟩

end Sys2Proof.Machine
end

