-- ==== Sys2Proof/Laws/Mem.lean ====
section
/-! SUPPORT. Memory: every operation keeps the canonical form, a byte is read back where it was written, and a write leaves every
other byte alone. -/

namespace Sys2Proof.Machine

theorem memWf_put {m : List Host.Cell} {a : Nat} {b : Byte} (h : memWf m = true) : memWf (memPut m a b) = true := by
  simp only [memWf, Bool.and_eq_true, List.all_eq_true, Bool.or_eq_true, decide_eq_true_eq] at h ⊢
  unfold memPut
  split
  · rename_i ha
    refine ⟨Tab.risingFrom_insert h.1 (Nat.zero_le _), fun e he => ?_⟩
    rcases Tab.mem_insert he with rfl | he
    · exact .inl ha
    · exact h.2 e he
  · refine ⟨Tab.risingFrom_put h.1, fun e he => ?_⟩
    unfold Tab.put at he
    split at he
    · exact h.2 e (Tab.mem_erase he)
    · rename_i hb
      rcases Tab.mem_insert he with rfl | he
      · exact .inr (by simpa using hb)
      · exact h.2 e he

/-- A store keeps the canonical form. -/
theorem memWf_write : ∀ {l : List Byte} {m : List Host.Cell} {a : Nat}, memWf m = true → memWf (memWrite m a l) = true
  | [], _, _, h => h
  | x :: l, m, a, h => memWf_write (l := l) (m := memPut m a x) (a := a + 1) (memWf_put h)

/-- Zeroing a range keeps the canonical form. -/
theorem memWf_clear {m : List Host.Cell} {p : Nat → Bool} (h : memWf m = true) : memWf (memClear m p) = true := by
  simp only [memWf, Bool.and_eq_true, List.all_eq_true] at h ⊢
  exact ⟨Tab.risingFrom_filter _ h.1, fun e he => h.2 e ((List.mem_filter.1 he).1)⟩

theorem memWf_rising {m : List Host.Cell} (h : memWf m = true) : Tab.risingFrom 0 m = true := by
  simp only [memWf, Bool.and_eq_true] at h
  exact h.1

theorem memPut_other {m : List Host.Cell} {a b : Nat} {v : Byte} (hb : b ≠ a) : Tab.find (memPut m a v) b = Tab.find m b := by
  unfold memPut
  split
  · exact Tab.find_insert_other hb m
  · unfold Tab.put
    split
    · exact Tab.find_erase_other hb m
    · exact Tab.find_insert_other hb m

/-- A store leaves every byte outside it alone. -/
theorem memWrite_other : ∀ {l : List Byte} {m : List Host.Cell} {a b : Nat}, (b < a ∨ a + l.length ≤ b) →
    Tab.find (memWrite m a l) b = Tab.find m b
  | [], _, _, _, _ => rfl
  | x :: l, m, a, b, hb => by
    have hb' : b < a + 1 ∨ a + 1 + l.length ≤ b := by simp only [List.length_cons] at hb; omega
    rw [memWrite, memWrite_other hb', memPut_other (by simp only [List.length_cons] at hb; omega)]

/-- A byte read back where it was put; f is the count of free values, which plays no part. -/
theorem memPut_same {m : List Host.Cell} {a : Nat} {v : Byte} (f : Nat) :
    (Tab.find (memPut m a v) a).getD (memDefault f a) = v := by
  unfold memPut memDefault
  split
  · rw [Tab.find_insert_same]; rfl
  · exact Tab.get_put_same

/-- A byte is read back where a store put it. -/
theorem memWrite_same (f : Nat) : ∀ {l : List Byte} {m : List Host.Cell} {a i : Nat}, (hi : i < l.length) →
    (Tab.find (memWrite m a l) (a + i)).getD (memDefault f (a + i)) = l[i]
  | x :: l, m, a, 0, _ => by
    rw [memWrite, memWrite_other (by omega)]
    exact memPut_same f
  | x :: l, m, a, i + 1, hi => by
    rw [memWrite, show a + (i + 1) = a + 1 + i by omega, memWrite_same f (by simpa using hi)]
    rfl

end Sys2Proof.Machine
end

