-- ==== Sys2Proof/Laws/State.lean ====
section
/-! SUPPORT. What each update of State leaves as it was, field by field and through each accessor, and what the updates of a table
read back as. No later proof unfolds a record update. -/

namespace Sys2Proof.Machine

variable {s : State}

/-! wr. -/

@[simp] theorem wr_pending {f : Fld} {v : Nat} : (wr s f v).pending = s.pending := rfl
@[simp] theorem wr_now {f : Fld} {v : Nat} : (wr s f v).now = s.now := rfl
@[simp] theorem wr_fresh {f : Fld} {v : Nat} : (wr s f v).fresh = s.fresh := rfl
@[simp] theorem wr_settled {f : Fld} {v : Nat} : (wr s f v).settled = s.settled := rfl
@[simp] theorem wr_soon {f : Fld} {v : Nat} : (wr s f v).soon = s.soon := rfl
@[simp] theorem wr_firstErr {f : Fld} {v : Nat} : (wr s f v).firstErr = s.firstErr := rfl
@[simp] theorem wr_out {f : Fld} {v : Nat} : (wr s f v).out = s.out := rfl
@[simp] theorem wr_variant {f : Fld} {v : Nat} : (wr s f v).variant = s.variant := rfl
@[simp] theorem wr_mem {f : Fld} {v : Nat} : (wr s f v).mem = s.mem := rfl
@[simp] theorem wr_turn {f : Fld} {v : Nat} : (wr s f v).turn = s.turn := rfl
@[simp] theorem wr_tiles {f : Fld} {v : Nat} : (wr s f v).tiles = s.tiles := rfl
@[simp] theorem wr_cores {f : Fld} {v : Nat} : (wr s f v).cores = s.cores := rfl
@[simp] theorem wr_tags {f : Fld} {v : Nat} : (wr s f v).tags = s.tags := rfl
@[simp] theorem wr_engines {f : Fld} {v : Nat} : (wr s f v).engines = s.engines := rfl
@[simp] theorem wr_pcq {f : Fld} {v : Nat} : (wr s f v).pcq = s.pcq := rfl
@[simp] theorem wr_lanes {f : Fld} {v : Nat} : (wr s f v).lanes = s.lanes := rfl
@[simp] theorem wr_kilns {f : Fld} {v : Nat} : (wr s f v).kilns = s.kilns := rfl
@[simp] theorem wr_col {f : Fld} {v : Nat} : (wr s f v).col = s.col := rfl
@[simp] theorem wr_fma {f : Fld} {v : Nat} : (wr s f v).fma = s.fma := rfl
@[simp] theorem wr_qmu {f : Fld} {v : Nat} : (wr s f v).qmu = s.qmu := rfl
@[simp] theorem wr_hif {f : Fld} {v : Nat} : (wr s f v).hif = s.hif := rfl
@[simp] theorem wr_sec {f : Fld} {v : Nat} : (wr s f v).sec = s.sec := rfl
@[simp] theorem wr_mmc {f : Fld} {v : Nat} : (wr s f v).mmc = s.mmc := rfl
@[simp] theorem wr_boot {f : Fld} {v : Nat} : (wr s f v).boot = s.boot := rfl
@[simp] theorem tile_wr {f : Fld} {v : Nat} {u : Nat} : tile (wr s f v) u = tile s u := rfl
@[simp] theorem coreOf_wr {f : Fld} {v : Nat} {u b : Nat} : coreOf (wr s f v) u b = coreOf s u b := rfl
@[simp] theorem engine_wr {f : Fld} {v : Nat} {b : Nat} : engine (wr s f v) b = engine s b := rfl
@[simp] theorem kiln_wr {f : Fld} {v : Nat} {b : Nat} : kiln (wr s f v) b = kiln s b := rfl
@[simp] theorem queue_wr {f : Fld} {v : Nat} {b : Nat} : queue (wr s f v) b = queue s b := rfl

/-! bump. -/

@[simp] theorem bump_pending {f : Fld} {n : Nat} : (bump s f n).pending = s.pending := rfl
@[simp] theorem bump_now {f : Fld} {n : Nat} : (bump s f n).now = s.now := rfl
@[simp] theorem bump_fresh {f : Fld} {n : Nat} : (bump s f n).fresh = s.fresh := rfl
@[simp] theorem bump_settled {f : Fld} {n : Nat} : (bump s f n).settled = s.settled := rfl
@[simp] theorem bump_soon {f : Fld} {n : Nat} : (bump s f n).soon = s.soon := rfl
@[simp] theorem bump_firstErr {f : Fld} {n : Nat} : (bump s f n).firstErr = s.firstErr := rfl
@[simp] theorem bump_out {f : Fld} {n : Nat} : (bump s f n).out = s.out := rfl
@[simp] theorem bump_variant {f : Fld} {n : Nat} : (bump s f n).variant = s.variant := rfl
@[simp] theorem bump_mem {f : Fld} {n : Nat} : (bump s f n).mem = s.mem := rfl
@[simp] theorem bump_turn {f : Fld} {n : Nat} : (bump s f n).turn = s.turn := rfl
@[simp] theorem bump_tiles {f : Fld} {n : Nat} : (bump s f n).tiles = s.tiles := rfl
@[simp] theorem bump_cores {f : Fld} {n : Nat} : (bump s f n).cores = s.cores := rfl
@[simp] theorem bump_tags {f : Fld} {n : Nat} : (bump s f n).tags = s.tags := rfl
@[simp] theorem bump_engines {f : Fld} {n : Nat} : (bump s f n).engines = s.engines := rfl
@[simp] theorem bump_pcq {f : Fld} {n : Nat} : (bump s f n).pcq = s.pcq := rfl
@[simp] theorem bump_lanes {f : Fld} {n : Nat} : (bump s f n).lanes = s.lanes := rfl
@[simp] theorem bump_kilns {f : Fld} {n : Nat} : (bump s f n).kilns = s.kilns := rfl
@[simp] theorem bump_col {f : Fld} {n : Nat} : (bump s f n).col = s.col := rfl
@[simp] theorem bump_fma {f : Fld} {n : Nat} : (bump s f n).fma = s.fma := rfl
@[simp] theorem bump_qmu {f : Fld} {n : Nat} : (bump s f n).qmu = s.qmu := rfl
@[simp] theorem bump_hif {f : Fld} {n : Nat} : (bump s f n).hif = s.hif := rfl
@[simp] theorem bump_sec {f : Fld} {n : Nat} : (bump s f n).sec = s.sec := rfl
@[simp] theorem bump_mmc {f : Fld} {n : Nat} : (bump s f n).mmc = s.mmc := rfl
@[simp] theorem bump_boot {f : Fld} {n : Nat} : (bump s f n).boot = s.boot := rfl
@[simp] theorem tile_bump {f : Fld} {n : Nat} {u : Nat} : tile (bump s f n) u = tile s u := rfl
@[simp] theorem coreOf_bump {f : Fld} {n : Nat} {u b : Nat} : coreOf (bump s f n) u b = coreOf s u b := rfl
@[simp] theorem engine_bump {f : Fld} {n : Nat} {b : Nat} : engine (bump s f n) b = engine s b := rfl
@[simp] theorem kiln_bump {f : Fld} {n : Nat} {b : Nat} : kiln (bump s f n) b = kiln s b := rfl
@[simp] theorem queue_bump {f : Fld} {n : Nat} {b : Nat} : queue (bump s f n) b = queue s b := rfl

/-! notice. -/

@[simp] theorem notice_pending {f : Fld} : (notice s f).pending = s.pending := rfl
@[simp] theorem notice_now {f : Fld} : (notice s f).now = s.now := rfl
@[simp] theorem notice_fresh {f : Fld} : (notice s f).fresh = s.fresh := rfl
@[simp] theorem notice_settled {f : Fld} : (notice s f).settled = s.settled := rfl
@[simp] theorem notice_soon {f : Fld} : (notice s f).soon = s.soon := rfl
@[simp] theorem notice_firstErr {f : Fld} : (notice s f).firstErr = s.firstErr := rfl
@[simp] theorem notice_out {f : Fld} : (notice s f).out = s.out := rfl
@[simp] theorem notice_variant {f : Fld} : (notice s f).variant = s.variant := rfl
@[simp] theorem notice_mem {f : Fld} : (notice s f).mem = s.mem := rfl
@[simp] theorem notice_turn {f : Fld} : (notice s f).turn = s.turn := rfl
@[simp] theorem notice_tiles {f : Fld} : (notice s f).tiles = s.tiles := rfl
@[simp] theorem notice_cores {f : Fld} : (notice s f).cores = s.cores := rfl
@[simp] theorem notice_tags {f : Fld} : (notice s f).tags = s.tags := rfl
@[simp] theorem notice_engines {f : Fld} : (notice s f).engines = s.engines := rfl
@[simp] theorem notice_pcq {f : Fld} : (notice s f).pcq = s.pcq := rfl
@[simp] theorem notice_lanes {f : Fld} : (notice s f).lanes = s.lanes := rfl
@[simp] theorem notice_kilns {f : Fld} : (notice s f).kilns = s.kilns := rfl
@[simp] theorem notice_col {f : Fld} : (notice s f).col = s.col := rfl
@[simp] theorem notice_fma {f : Fld} : (notice s f).fma = s.fma := rfl
@[simp] theorem notice_qmu {f : Fld} : (notice s f).qmu = s.qmu := rfl
@[simp] theorem notice_hif {f : Fld} : (notice s f).hif = s.hif := rfl
@[simp] theorem notice_sec {f : Fld} : (notice s f).sec = s.sec := rfl
@[simp] theorem notice_mmc {f : Fld} : (notice s f).mmc = s.mmc := rfl
@[simp] theorem notice_boot {f : Fld} : (notice s f).boot = s.boot := rfl
@[simp] theorem tile_notice {f : Fld} {u : Nat} : tile (notice s f) u = tile s u := rfl
@[simp] theorem coreOf_notice {f : Fld} {u b : Nat} : coreOf (notice s f) u b = coreOf s u b := rfl
@[simp] theorem engine_notice {f : Fld} {b : Nat} : engine (notice s f) b = engine s b := rfl
@[simp] theorem kiln_notice {f : Fld} {b : Nat} : kiln (notice s f) b = kiln s b := rfl
@[simp] theorem queue_notice {f : Fld} {b : Nat} : queue (notice s f) b = queue s b := rfl

/-! resetRegs. -/

@[simp] theorem resetRegs_pending {p : Nat → Bool} : (resetRegs s p).pending = s.pending := rfl
@[simp] theorem resetRegs_now {p : Nat → Bool} : (resetRegs s p).now = s.now := rfl
@[simp] theorem resetRegs_fresh {p : Nat → Bool} : (resetRegs s p).fresh = s.fresh := rfl
@[simp] theorem resetRegs_settled {p : Nat → Bool} : (resetRegs s p).settled = s.settled := rfl
@[simp] theorem resetRegs_soon {p : Nat → Bool} : (resetRegs s p).soon = s.soon := rfl
@[simp] theorem resetRegs_firstErr {p : Nat → Bool} : (resetRegs s p).firstErr = s.firstErr := rfl
@[simp] theorem resetRegs_out {p : Nat → Bool} : (resetRegs s p).out = s.out := rfl
@[simp] theorem resetRegs_variant {p : Nat → Bool} : (resetRegs s p).variant = s.variant := rfl
@[simp] theorem resetRegs_mem {p : Nat → Bool} : (resetRegs s p).mem = s.mem := rfl
@[simp] theorem resetRegs_turn {p : Nat → Bool} : (resetRegs s p).turn = s.turn := rfl
@[simp] theorem resetRegs_tiles {p : Nat → Bool} : (resetRegs s p).tiles = s.tiles := rfl
@[simp] theorem resetRegs_cores {p : Nat → Bool} : (resetRegs s p).cores = s.cores := rfl
@[simp] theorem resetRegs_tags {p : Nat → Bool} : (resetRegs s p).tags = s.tags := rfl
@[simp] theorem resetRegs_engines {p : Nat → Bool} : (resetRegs s p).engines = s.engines := rfl
@[simp] theorem resetRegs_pcq {p : Nat → Bool} : (resetRegs s p).pcq = s.pcq := rfl
@[simp] theorem resetRegs_lanes {p : Nat → Bool} : (resetRegs s p).lanes = s.lanes := rfl
@[simp] theorem resetRegs_kilns {p : Nat → Bool} : (resetRegs s p).kilns = s.kilns := rfl
@[simp] theorem resetRegs_col {p : Nat → Bool} : (resetRegs s p).col = s.col := rfl
@[simp] theorem resetRegs_fma {p : Nat → Bool} : (resetRegs s p).fma = s.fma := rfl
@[simp] theorem resetRegs_qmu {p : Nat → Bool} : (resetRegs s p).qmu = s.qmu := rfl
@[simp] theorem resetRegs_hif {p : Nat → Bool} : (resetRegs s p).hif = s.hif := rfl
@[simp] theorem resetRegs_sec {p : Nat → Bool} : (resetRegs s p).sec = s.sec := rfl
@[simp] theorem resetRegs_mmc {p : Nat → Bool} : (resetRegs s p).mmc = s.mmc := rfl
@[simp] theorem resetRegs_boot {p : Nat → Bool} : (resetRegs s p).boot = s.boot := rfl
@[simp] theorem tile_resetRegs {p : Nat → Bool} {u : Nat} : tile (resetRegs s p) u = tile s u := rfl
@[simp] theorem coreOf_resetRegs {p : Nat → Bool} {u b : Nat} : coreOf (resetRegs s p) u b = coreOf s u b := rfl
@[simp] theorem engine_resetRegs {p : Nat → Bool} {b : Nat} : engine (resetRegs s p) b = engine s b := rfl
@[simp] theorem kiln_resetRegs {p : Nat → Bool} {b : Nat} : kiln (resetRegs s p) b = kiln s b := rfl
@[simp] theorem queue_resetRegs {p : Nat → Bool} {b : Nat} : queue (resetRegs s p) b = queue s b := rfl

/-! setTile. -/

@[simp] theorem setTile_pending {t : Nat} {x : Tile} : (setTile s t x).pending = s.pending := rfl
@[simp] theorem setTile_now {t : Nat} {x : Tile} : (setTile s t x).now = s.now := rfl
@[simp] theorem setTile_fresh {t : Nat} {x : Tile} : (setTile s t x).fresh = s.fresh := rfl
@[simp] theorem setTile_settled {t : Nat} {x : Tile} : (setTile s t x).settled = s.settled := rfl
@[simp] theorem setTile_soon {t : Nat} {x : Tile} : (setTile s t x).soon = s.soon := rfl
@[simp] theorem setTile_firstErr {t : Nat} {x : Tile} : (setTile s t x).firstErr = s.firstErr := rfl
@[simp] theorem setTile_out {t : Nat} {x : Tile} : (setTile s t x).out = s.out := rfl
@[simp] theorem setTile_variant {t : Nat} {x : Tile} : (setTile s t x).variant = s.variant := rfl
@[simp] theorem setTile_mem {t : Nat} {x : Tile} : (setTile s t x).mem = s.mem := rfl
@[simp] theorem setTile_regs {t : Nat} {x : Tile} : (setTile s t x).regs = s.regs := rfl
@[simp] theorem setTile_turn {t : Nat} {x : Tile} : (setTile s t x).turn = s.turn := rfl
@[simp] theorem setTile_cores {t : Nat} {x : Tile} : (setTile s t x).cores = s.cores := rfl
@[simp] theorem setTile_tags {t : Nat} {x : Tile} : (setTile s t x).tags = s.tags := rfl
@[simp] theorem setTile_engines {t : Nat} {x : Tile} : (setTile s t x).engines = s.engines := rfl
@[simp] theorem setTile_pcq {t : Nat} {x : Tile} : (setTile s t x).pcq = s.pcq := rfl
@[simp] theorem setTile_lanes {t : Nat} {x : Tile} : (setTile s t x).lanes = s.lanes := rfl
@[simp] theorem setTile_kilns {t : Nat} {x : Tile} : (setTile s t x).kilns = s.kilns := rfl
@[simp] theorem setTile_col {t : Nat} {x : Tile} : (setTile s t x).col = s.col := rfl
@[simp] theorem setTile_fma {t : Nat} {x : Tile} : (setTile s t x).fma = s.fma := rfl
@[simp] theorem setTile_qmu {t : Nat} {x : Tile} : (setTile s t x).qmu = s.qmu := rfl
@[simp] theorem setTile_hif {t : Nat} {x : Tile} : (setTile s t x).hif = s.hif := rfl
@[simp] theorem setTile_sec {t : Nat} {x : Tile} : (setTile s t x).sec = s.sec := rfl
@[simp] theorem setTile_mmc {t : Nat} {x : Tile} : (setTile s t x).mmc = s.mmc := rfl
@[simp] theorem setTile_boot {t : Nat} {x : Tile} : (setTile s t x).boot = s.boot := rfl
@[simp] theorem rd_setTile {t : Nat} {x : Tile} {g : Fld} : rd (setTile s t x) g = rd s g := rfl
@[simp] theorem coreOf_setTile {t : Nat} {x : Tile} {u b : Nat} : coreOf (setTile s t x) u b = coreOf s u b := rfl
@[simp] theorem engine_setTile {t : Nat} {x : Tile} {b : Nat} : engine (setTile s t x) b = engine s b := rfl
@[simp] theorem kiln_setTile {t : Nat} {x : Tile} {b : Nat} : kiln (setTile s t x) b = kiln s b := rfl
@[simp] theorem queue_setTile {t : Nat} {x : Tile} {b : Nat} : queue (setTile s t x) b = queue s b := rfl

/-! updTile. -/

@[simp] theorem updTile_pending {t : Nat} {f : Tile → Tile} : (updTile s t f).pending = s.pending := rfl
@[simp] theorem updTile_now {t : Nat} {f : Tile → Tile} : (updTile s t f).now = s.now := rfl
@[simp] theorem updTile_fresh {t : Nat} {f : Tile → Tile} : (updTile s t f).fresh = s.fresh := rfl
@[simp] theorem updTile_settled {t : Nat} {f : Tile → Tile} : (updTile s t f).settled = s.settled := rfl
@[simp] theorem updTile_soon {t : Nat} {f : Tile → Tile} : (updTile s t f).soon = s.soon := rfl
@[simp] theorem updTile_firstErr {t : Nat} {f : Tile → Tile} : (updTile s t f).firstErr = s.firstErr := rfl
@[simp] theorem updTile_out {t : Nat} {f : Tile → Tile} : (updTile s t f).out = s.out := rfl
@[simp] theorem updTile_variant {t : Nat} {f : Tile → Tile} : (updTile s t f).variant = s.variant := rfl
@[simp] theorem updTile_mem {t : Nat} {f : Tile → Tile} : (updTile s t f).mem = s.mem := rfl
@[simp] theorem updTile_regs {t : Nat} {f : Tile → Tile} : (updTile s t f).regs = s.regs := rfl
@[simp] theorem updTile_turn {t : Nat} {f : Tile → Tile} : (updTile s t f).turn = s.turn := rfl
@[simp] theorem updTile_cores {t : Nat} {f : Tile → Tile} : (updTile s t f).cores = s.cores := rfl
@[simp] theorem updTile_tags {t : Nat} {f : Tile → Tile} : (updTile s t f).tags = s.tags := rfl
@[simp] theorem updTile_engines {t : Nat} {f : Tile → Tile} : (updTile s t f).engines = s.engines := rfl
@[simp] theorem updTile_pcq {t : Nat} {f : Tile → Tile} : (updTile s t f).pcq = s.pcq := rfl
@[simp] theorem updTile_lanes {t : Nat} {f : Tile → Tile} : (updTile s t f).lanes = s.lanes := rfl
@[simp] theorem updTile_kilns {t : Nat} {f : Tile → Tile} : (updTile s t f).kilns = s.kilns := rfl
@[simp] theorem updTile_col {t : Nat} {f : Tile → Tile} : (updTile s t f).col = s.col := rfl
@[simp] theorem updTile_fma {t : Nat} {f : Tile → Tile} : (updTile s t f).fma = s.fma := rfl
@[simp] theorem updTile_qmu {t : Nat} {f : Tile → Tile} : (updTile s t f).qmu = s.qmu := rfl
@[simp] theorem updTile_hif {t : Nat} {f : Tile → Tile} : (updTile s t f).hif = s.hif := rfl
@[simp] theorem updTile_sec {t : Nat} {f : Tile → Tile} : (updTile s t f).sec = s.sec := rfl
@[simp] theorem updTile_mmc {t : Nat} {f : Tile → Tile} : (updTile s t f).mmc = s.mmc := rfl
@[simp] theorem updTile_boot {t : Nat} {f : Tile → Tile} : (updTile s t f).boot = s.boot := rfl
@[simp] theorem rd_updTile {t : Nat} {f : Tile → Tile} {g : Fld} : rd (updTile s t f) g = rd s g := rfl
@[simp] theorem coreOf_updTile {t : Nat} {f : Tile → Tile} {u b : Nat} : coreOf (updTile s t f) u b = coreOf s u b := rfl
@[simp] theorem engine_updTile {t : Nat} {f : Tile → Tile} {b : Nat} : engine (updTile s t f) b = engine s b := rfl
@[simp] theorem kiln_updTile {t : Nat} {f : Tile → Tile} {b : Nat} : kiln (updTile s t f) b = kiln s b := rfl
@[simp] theorem queue_updTile {t : Nat} {f : Tile → Tile} {b : Nat} : queue (updTile s t f) b = queue s b := rfl

/-! setCore. -/

@[simp] theorem setCore_pending {t c : Nat} {x : Core} : (setCore s t c x).pending = s.pending := rfl
@[simp] theorem setCore_now {t c : Nat} {x : Core} : (setCore s t c x).now = s.now := rfl
@[simp] theorem setCore_fresh {t c : Nat} {x : Core} : (setCore s t c x).fresh = s.fresh := rfl
@[simp] theorem setCore_settled {t c : Nat} {x : Core} : (setCore s t c x).settled = s.settled := rfl
@[simp] theorem setCore_soon {t c : Nat} {x : Core} : (setCore s t c x).soon = s.soon := rfl
@[simp] theorem setCore_firstErr {t c : Nat} {x : Core} : (setCore s t c x).firstErr = s.firstErr := rfl
@[simp] theorem setCore_out {t c : Nat} {x : Core} : (setCore s t c x).out = s.out := rfl
@[simp] theorem setCore_variant {t c : Nat} {x : Core} : (setCore s t c x).variant = s.variant := rfl
@[simp] theorem setCore_mem {t c : Nat} {x : Core} : (setCore s t c x).mem = s.mem := rfl
@[simp] theorem setCore_regs {t c : Nat} {x : Core} : (setCore s t c x).regs = s.regs := rfl
@[simp] theorem setCore_turn {t c : Nat} {x : Core} : (setCore s t c x).turn = s.turn := rfl
@[simp] theorem setCore_tiles {t c : Nat} {x : Core} : (setCore s t c x).tiles = s.tiles := rfl
@[simp] theorem setCore_tags {t c : Nat} {x : Core} : (setCore s t c x).tags = s.tags := rfl
@[simp] theorem setCore_engines {t c : Nat} {x : Core} : (setCore s t c x).engines = s.engines := rfl
@[simp] theorem setCore_pcq {t c : Nat} {x : Core} : (setCore s t c x).pcq = s.pcq := rfl
@[simp] theorem setCore_lanes {t c : Nat} {x : Core} : (setCore s t c x).lanes = s.lanes := rfl
@[simp] theorem setCore_kilns {t c : Nat} {x : Core} : (setCore s t c x).kilns = s.kilns := rfl
@[simp] theorem setCore_col {t c : Nat} {x : Core} : (setCore s t c x).col = s.col := rfl
@[simp] theorem setCore_fma {t c : Nat} {x : Core} : (setCore s t c x).fma = s.fma := rfl
@[simp] theorem setCore_qmu {t c : Nat} {x : Core} : (setCore s t c x).qmu = s.qmu := rfl
@[simp] theorem setCore_hif {t c : Nat} {x : Core} : (setCore s t c x).hif = s.hif := rfl
@[simp] theorem setCore_sec {t c : Nat} {x : Core} : (setCore s t c x).sec = s.sec := rfl
@[simp] theorem setCore_mmc {t c : Nat} {x : Core} : (setCore s t c x).mmc = s.mmc := rfl
@[simp] theorem setCore_boot {t c : Nat} {x : Core} : (setCore s t c x).boot = s.boot := rfl
@[simp] theorem rd_setCore {t c : Nat} {x : Core} {g : Fld} : rd (setCore s t c x) g = rd s g := rfl
@[simp] theorem tile_setCore {t c : Nat} {x : Core} {u : Nat} : tile (setCore s t c x) u = tile s u := rfl
@[simp] theorem engine_setCore {t c : Nat} {x : Core} {b : Nat} : engine (setCore s t c x) b = engine s b := rfl
@[simp] theorem kiln_setCore {t c : Nat} {x : Core} {b : Nat} : kiln (setCore s t c x) b = kiln s b := rfl
@[simp] theorem queue_setCore {t c : Nat} {x : Core} {b : Nat} : queue (setCore s t c x) b = queue s b := rfl

/-! setEngine. -/

@[simp] theorem setEngine_pending {e : Nat} {x : Engine} : (setEngine s e x).pending = s.pending := rfl
@[simp] theorem setEngine_now {e : Nat} {x : Engine} : (setEngine s e x).now = s.now := rfl
@[simp] theorem setEngine_fresh {e : Nat} {x : Engine} : (setEngine s e x).fresh = s.fresh := rfl
@[simp] theorem setEngine_settled {e : Nat} {x : Engine} : (setEngine s e x).settled = s.settled := rfl
@[simp] theorem setEngine_soon {e : Nat} {x : Engine} : (setEngine s e x).soon = s.soon := rfl
@[simp] theorem setEngine_firstErr {e : Nat} {x : Engine} : (setEngine s e x).firstErr = s.firstErr := rfl
@[simp] theorem setEngine_out {e : Nat} {x : Engine} : (setEngine s e x).out = s.out := rfl
@[simp] theorem setEngine_variant {e : Nat} {x : Engine} : (setEngine s e x).variant = s.variant := rfl
@[simp] theorem setEngine_mem {e : Nat} {x : Engine} : (setEngine s e x).mem = s.mem := rfl
@[simp] theorem setEngine_regs {e : Nat} {x : Engine} : (setEngine s e x).regs = s.regs := rfl
@[simp] theorem setEngine_turn {e : Nat} {x : Engine} : (setEngine s e x).turn = s.turn := rfl
@[simp] theorem setEngine_tiles {e : Nat} {x : Engine} : (setEngine s e x).tiles = s.tiles := rfl
@[simp] theorem setEngine_cores {e : Nat} {x : Engine} : (setEngine s e x).cores = s.cores := rfl
@[simp] theorem setEngine_tags {e : Nat} {x : Engine} : (setEngine s e x).tags = s.tags := rfl
@[simp] theorem setEngine_pcq {e : Nat} {x : Engine} : (setEngine s e x).pcq = s.pcq := rfl
@[simp] theorem setEngine_lanes {e : Nat} {x : Engine} : (setEngine s e x).lanes = s.lanes := rfl
@[simp] theorem setEngine_kilns {e : Nat} {x : Engine} : (setEngine s e x).kilns = s.kilns := rfl
@[simp] theorem setEngine_col {e : Nat} {x : Engine} : (setEngine s e x).col = s.col := rfl
@[simp] theorem setEngine_fma {e : Nat} {x : Engine} : (setEngine s e x).fma = s.fma := rfl
@[simp] theorem setEngine_qmu {e : Nat} {x : Engine} : (setEngine s e x).qmu = s.qmu := rfl
@[simp] theorem setEngine_hif {e : Nat} {x : Engine} : (setEngine s e x).hif = s.hif := rfl
@[simp] theorem setEngine_sec {e : Nat} {x : Engine} : (setEngine s e x).sec = s.sec := rfl
@[simp] theorem setEngine_mmc {e : Nat} {x : Engine} : (setEngine s e x).mmc = s.mmc := rfl
@[simp] theorem setEngine_boot {e : Nat} {x : Engine} : (setEngine s e x).boot = s.boot := rfl
@[simp] theorem rd_setEngine {e : Nat} {x : Engine} {g : Fld} : rd (setEngine s e x) g = rd s g := rfl
@[simp] theorem tile_setEngine {e : Nat} {x : Engine} {u : Nat} : tile (setEngine s e x) u = tile s u := rfl
@[simp] theorem coreOf_setEngine {e : Nat} {x : Engine} {u b : Nat} : coreOf (setEngine s e x) u b = coreOf s u b := rfl
@[simp] theorem kiln_setEngine {e : Nat} {x : Engine} {b : Nat} : kiln (setEngine s e x) b = kiln s b := rfl
@[simp] theorem queue_setEngine {e : Nat} {x : Engine} {b : Nat} : queue (setEngine s e x) b = queue s b := rfl

/-! setKiln. -/

@[simp] theorem setKiln_pending {k : Nat} {x : Kiln} : (setKiln s k x).pending = s.pending := rfl
@[simp] theorem setKiln_now {k : Nat} {x : Kiln} : (setKiln s k x).now = s.now := rfl
@[simp] theorem setKiln_fresh {k : Nat} {x : Kiln} : (setKiln s k x).fresh = s.fresh := rfl
@[simp] theorem setKiln_settled {k : Nat} {x : Kiln} : (setKiln s k x).settled = s.settled := rfl
@[simp] theorem setKiln_soon {k : Nat} {x : Kiln} : (setKiln s k x).soon = s.soon := rfl
@[simp] theorem setKiln_firstErr {k : Nat} {x : Kiln} : (setKiln s k x).firstErr = s.firstErr := rfl
@[simp] theorem setKiln_out {k : Nat} {x : Kiln} : (setKiln s k x).out = s.out := rfl
@[simp] theorem setKiln_variant {k : Nat} {x : Kiln} : (setKiln s k x).variant = s.variant := rfl
@[simp] theorem setKiln_mem {k : Nat} {x : Kiln} : (setKiln s k x).mem = s.mem := rfl
@[simp] theorem setKiln_regs {k : Nat} {x : Kiln} : (setKiln s k x).regs = s.regs := rfl
@[simp] theorem setKiln_turn {k : Nat} {x : Kiln} : (setKiln s k x).turn = s.turn := rfl
@[simp] theorem setKiln_tiles {k : Nat} {x : Kiln} : (setKiln s k x).tiles = s.tiles := rfl
@[simp] theorem setKiln_cores {k : Nat} {x : Kiln} : (setKiln s k x).cores = s.cores := rfl
@[simp] theorem setKiln_tags {k : Nat} {x : Kiln} : (setKiln s k x).tags = s.tags := rfl
@[simp] theorem setKiln_engines {k : Nat} {x : Kiln} : (setKiln s k x).engines = s.engines := rfl
@[simp] theorem setKiln_pcq {k : Nat} {x : Kiln} : (setKiln s k x).pcq = s.pcq := rfl
@[simp] theorem setKiln_lanes {k : Nat} {x : Kiln} : (setKiln s k x).lanes = s.lanes := rfl
@[simp] theorem setKiln_col {k : Nat} {x : Kiln} : (setKiln s k x).col = s.col := rfl
@[simp] theorem setKiln_fma {k : Nat} {x : Kiln} : (setKiln s k x).fma = s.fma := rfl
@[simp] theorem setKiln_qmu {k : Nat} {x : Kiln} : (setKiln s k x).qmu = s.qmu := rfl
@[simp] theorem setKiln_hif {k : Nat} {x : Kiln} : (setKiln s k x).hif = s.hif := rfl
@[simp] theorem setKiln_sec {k : Nat} {x : Kiln} : (setKiln s k x).sec = s.sec := rfl
@[simp] theorem setKiln_mmc {k : Nat} {x : Kiln} : (setKiln s k x).mmc = s.mmc := rfl
@[simp] theorem setKiln_boot {k : Nat} {x : Kiln} : (setKiln s k x).boot = s.boot := rfl
@[simp] theorem rd_setKiln {k : Nat} {x : Kiln} {g : Fld} : rd (setKiln s k x) g = rd s g := rfl
@[simp] theorem tile_setKiln {k : Nat} {x : Kiln} {u : Nat} : tile (setKiln s k x) u = tile s u := rfl
@[simp] theorem coreOf_setKiln {k : Nat} {x : Kiln} {u b : Nat} : coreOf (setKiln s k x) u b = coreOf s u b := rfl
@[simp] theorem engine_setKiln {k : Nat} {x : Kiln} {b : Nat} : engine (setKiln s k x) b = engine s b := rfl
@[simp] theorem queue_setKiln {k : Nat} {x : Kiln} {b : Nat} : queue (setKiln s k x) b = queue s b := rfl

/-! setQueue. -/

@[simp] theorem setQueue_pending {q : Nat} {x : Queue} : (setQueue s q x).pending = s.pending := rfl
@[simp] theorem setQueue_now {q : Nat} {x : Queue} : (setQueue s q x).now = s.now := rfl
@[simp] theorem setQueue_fresh {q : Nat} {x : Queue} : (setQueue s q x).fresh = s.fresh := rfl
@[simp] theorem setQueue_settled {q : Nat} {x : Queue} : (setQueue s q x).settled = s.settled := rfl
@[simp] theorem setQueue_soon {q : Nat} {x : Queue} : (setQueue s q x).soon = s.soon := rfl
@[simp] theorem setQueue_firstErr {q : Nat} {x : Queue} : (setQueue s q x).firstErr = s.firstErr := rfl
@[simp] theorem setQueue_out {q : Nat} {x : Queue} : (setQueue s q x).out = s.out := rfl
@[simp] theorem setQueue_variant {q : Nat} {x : Queue} : (setQueue s q x).variant = s.variant := rfl
@[simp] theorem setQueue_mem {q : Nat} {x : Queue} : (setQueue s q x).mem = s.mem := rfl
@[simp] theorem setQueue_regs {q : Nat} {x : Queue} : (setQueue s q x).regs = s.regs := rfl
@[simp] theorem setQueue_turn {q : Nat} {x : Queue} : (setQueue s q x).turn = s.turn := rfl
@[simp] theorem setQueue_tiles {q : Nat} {x : Queue} : (setQueue s q x).tiles = s.tiles := rfl
@[simp] theorem setQueue_cores {q : Nat} {x : Queue} : (setQueue s q x).cores = s.cores := rfl
@[simp] theorem setQueue_tags {q : Nat} {x : Queue} : (setQueue s q x).tags = s.tags := rfl
@[simp] theorem setQueue_engines {q : Nat} {x : Queue} : (setQueue s q x).engines = s.engines := rfl
@[simp] theorem setQueue_pcq {q : Nat} {x : Queue} : (setQueue s q x).pcq = s.pcq := rfl
@[simp] theorem setQueue_lanes {q : Nat} {x : Queue} : (setQueue s q x).lanes = s.lanes := rfl
@[simp] theorem setQueue_kilns {q : Nat} {x : Queue} : (setQueue s q x).kilns = s.kilns := rfl
@[simp] theorem setQueue_col {q : Nat} {x : Queue} : (setQueue s q x).col = s.col := rfl
@[simp] theorem setQueue_fma {q : Nat} {x : Queue} : (setQueue s q x).fma = s.fma := rfl
@[simp] theorem setQueue_hif {q : Nat} {x : Queue} : (setQueue s q x).hif = s.hif := rfl
@[simp] theorem setQueue_sec {q : Nat} {x : Queue} : (setQueue s q x).sec = s.sec := rfl
@[simp] theorem setQueue_mmc {q : Nat} {x : Queue} : (setQueue s q x).mmc = s.mmc := rfl
@[simp] theorem setQueue_boot {q : Nat} {x : Queue} : (setQueue s q x).boot = s.boot := rfl
@[simp] theorem rd_setQueue {q : Nat} {x : Queue} {g : Fld} : rd (setQueue s q x) g = rd s g := rfl
@[simp] theorem tile_setQueue {q : Nat} {x : Queue} {u : Nat} : tile (setQueue s q x) u = tile s u := rfl
@[simp] theorem coreOf_setQueue {q : Nat} {x : Queue} {u b : Nat} : coreOf (setQueue s q x) u b = coreOf s u b := rfl
@[simp] theorem engine_setQueue {q : Nat} {x : Queue} {b : Nat} : engine (setQueue s q x) b = engine s b := rfl
@[simp] theorem kiln_setQueue {q : Nat} {x : Queue} {b : Nat} : kiln (setQueue s q x) b = kiln s b := rfl

/-! advance. -/

@[simp] theorem advance_pending {c : Nat} : (advance s c).pending = s.pending := rfl
@[simp] theorem advance_fresh {c : Nat} : (advance s c).fresh = s.fresh := rfl
@[simp] theorem advance_settled {c : Nat} : (advance s c).settled = s.settled := rfl
@[simp] theorem advance_soon {c : Nat} : (advance s c).soon = s.soon := rfl
@[simp] theorem advance_firstErr {c : Nat} : (advance s c).firstErr = s.firstErr := rfl
@[simp] theorem advance_out {c : Nat} : (advance s c).out = s.out := rfl
@[simp] theorem advance_variant {c : Nat} : (advance s c).variant = s.variant := rfl
@[simp] theorem advance_mem {c : Nat} : (advance s c).mem = s.mem := rfl
@[simp] theorem advance_regs {c : Nat} : (advance s c).regs = s.regs := rfl
@[simp] theorem advance_turn {c : Nat} : (advance s c).turn = s.turn := rfl
@[simp] theorem advance_tiles {c : Nat} : (advance s c).tiles = s.tiles := rfl
@[simp] theorem advance_cores {c : Nat} : (advance s c).cores = s.cores := rfl
@[simp] theorem advance_tags {c : Nat} : (advance s c).tags = s.tags := rfl
@[simp] theorem advance_engines {c : Nat} : (advance s c).engines = s.engines := rfl
@[simp] theorem advance_pcq {c : Nat} : (advance s c).pcq = s.pcq := rfl
@[simp] theorem advance_lanes {c : Nat} : (advance s c).lanes = s.lanes := rfl
@[simp] theorem advance_kilns {c : Nat} : (advance s c).kilns = s.kilns := rfl
@[simp] theorem advance_col {c : Nat} : (advance s c).col = s.col := rfl
@[simp] theorem advance_fma {c : Nat} : (advance s c).fma = s.fma := rfl
@[simp] theorem advance_qmu {c : Nat} : (advance s c).qmu = s.qmu := rfl
@[simp] theorem advance_hif {c : Nat} : (advance s c).hif = s.hif := rfl
@[simp] theorem advance_sec {c : Nat} : (advance s c).sec = s.sec := rfl
@[simp] theorem advance_mmc {c : Nat} : (advance s c).mmc = s.mmc := rfl
@[simp] theorem advance_boot {c : Nat} : (advance s c).boot = s.boot := rfl
@[simp] theorem rd_advance {c : Nat} {g : Fld} : rd (advance s c) g = rd s g := rfl
@[simp] theorem tile_advance {c : Nat} {u : Nat} : tile (advance s c) u = tile s u := rfl
@[simp] theorem coreOf_advance {c : Nat} {u b : Nat} : coreOf (advance s c) u b = coreOf s u b := rfl
@[simp] theorem engine_advance {c : Nat} {b : Nat} : engine (advance s c) b = engine s b := rfl
@[simp] theorem kiln_advance {c : Nat} {b : Nat} : kiln (advance s c) b = kiln s b := rfl
@[simp] theorem queue_advance {c : Nat} {b : Nat} : queue (advance s c) b = queue s b := rfl

/-! emit. -/

@[simp] theorem emit_pending {o : Out} : (emit s o).pending = s.pending := rfl
@[simp] theorem emit_now {o : Out} : (emit s o).now = s.now := rfl
@[simp] theorem emit_fresh {o : Out} : (emit s o).fresh = s.fresh := rfl
@[simp] theorem emit_settled {o : Out} : (emit s o).settled = s.settled := rfl
@[simp] theorem emit_soon {o : Out} : (emit s o).soon = s.soon := rfl
@[simp] theorem emit_firstErr {o : Out} : (emit s o).firstErr = s.firstErr := rfl
@[simp] theorem emit_variant {o : Out} : (emit s o).variant = s.variant := rfl
@[simp] theorem emit_mem {o : Out} : (emit s o).mem = s.mem := rfl
@[simp] theorem emit_regs {o : Out} : (emit s o).regs = s.regs := rfl
@[simp] theorem emit_turn {o : Out} : (emit s o).turn = s.turn := rfl
@[simp] theorem emit_tiles {o : Out} : (emit s o).tiles = s.tiles := rfl
@[simp] theorem emit_cores {o : Out} : (emit s o).cores = s.cores := rfl
@[simp] theorem emit_tags {o : Out} : (emit s o).tags = s.tags := rfl
@[simp] theorem emit_engines {o : Out} : (emit s o).engines = s.engines := rfl
@[simp] theorem emit_pcq {o : Out} : (emit s o).pcq = s.pcq := rfl
@[simp] theorem emit_lanes {o : Out} : (emit s o).lanes = s.lanes := rfl
@[simp] theorem emit_kilns {o : Out} : (emit s o).kilns = s.kilns := rfl
@[simp] theorem emit_col {o : Out} : (emit s o).col = s.col := rfl
@[simp] theorem emit_fma {o : Out} : (emit s o).fma = s.fma := rfl
@[simp] theorem emit_qmu {o : Out} : (emit s o).qmu = s.qmu := rfl
@[simp] theorem emit_hif {o : Out} : (emit s o).hif = s.hif := rfl
@[simp] theorem emit_sec {o : Out} : (emit s o).sec = s.sec := rfl
@[simp] theorem emit_mmc {o : Out} : (emit s o).mmc = s.mmc := rfl
@[simp] theorem emit_boot {o : Out} : (emit s o).boot = s.boot := rfl
@[simp] theorem rd_emit {o : Out} {g : Fld} : rd (emit s o) g = rd s g := rfl
@[simp] theorem tile_emit {o : Out} {u : Nat} : tile (emit s o) u = tile s u := rfl
@[simp] theorem coreOf_emit {o : Out} {u b : Nat} : coreOf (emit s o) u b = coreOf s u b := rfl
@[simp] theorem engine_emit {o : Out} {b : Nat} : engine (emit s o) b = engine s b := rfl
@[simp] theorem kiln_emit {o : Out} {b : Nat} : kiln (emit s o) b = kiln s b := rfl
@[simp] theorem queue_emit {o : Out} {b : Nat} : queue (emit s o) b = queue s b := rfl

@[simp] theorem advance_now {c : Nat} : (advance s c).now = max s.now c := rfl
@[simp] theorem emit_out {o : Out} : (emit s o).out = s.out ++ [o] := rfl

/-! The parts of the canonical form. -/

theorem State.wf_parts (h : s.wf = true) : memWf s.mem = true ∧ Tab.risingFrom 0 s.regs = true ∧
    Tab.risingFrom 0 s.tiles = true ∧ Tab.risingFrom 0 s.cores = true ∧ Tab.risingFrom 0 s.tags = true ∧
    Tab.risingFrom 0 s.engines = true ∧ Tab.risingFrom 0 s.kilns = true ∧ Tab.risingFrom 0 s.pcq = true := by
  simp only [State.wf, Tab.wf, Bool.and_eq_true] at h
  obtain ⟨⟨⟨⟨⟨⟨⟨⟨a, b⟩, c⟩, d⟩, e⟩, f⟩, g⟩, h⟩, -⟩ := h
  exact ⟨a, b, c.1, d.1, e.1, f.1, g.1, h⟩
theorem State.wf_mem (h : s.wf = true) : memWf s.mem = true := (State.wf_parts h).1
theorem State.wf_regs (h : s.wf = true) : Tab.risingFrom 0 s.regs = true := (State.wf_parts h).2.1
theorem State.wf_tiles (h : s.wf = true) : Tab.risingFrom 0 s.tiles = true := (State.wf_parts h).2.2.1
theorem State.wf_cores (h : s.wf = true) : Tab.risingFrom 0 s.cores = true := (State.wf_parts h).2.2.2.1
theorem State.wf_engines (h : s.wf = true) : Tab.risingFrom 0 s.engines = true := (State.wf_parts h).2.2.2.2.2.1
theorem State.wf_kilns (h : s.wf = true) : Tab.risingFrom 0 s.kilns = true := (State.wf_parts h).2.2.2.2.2.2.1

/-! Reading back a table entry that was set. -/

theorem regs_wr {f : Fld} {v : Nat} (h : Tab.risingFrom 0 s.regs = true) : Tab.risingFrom 0 (wr s f v).regs = true :=
  Tab.risingFrom_put h
theorem regs_bump {f : Fld} {n : Nat} (h : Tab.risingFrom 0 s.regs = true) : Tab.risingFrom 0 (bump s f n).regs = true :=
  Tab.risingFrom_put h
theorem rd_wr_same {f : Fld} {v : Nat} : rd (wr s f v) f = v % 2 ^ f.wid := Tab.get_put_same
theorem rd_wr_other {f g : Fld} {v : Nat} (k : g.key ≠ f.key) : rd (wr s f v) g = rd s g :=
  Tab.get_put_other k
theorem rd_bump_other {f g : Fld} {n : Nat} (k : g.key ≠ f.key) : rd (bump s f n) g = rd s g :=
  Tab.get_put_other k
theorem rd_bump_32 {f : Fld} {n : Nat} (w : f.wid = 32) :
    rd (bump s f n) f = satAdd 32 (rd s f) n := by
  unfold bump satAdd
  rw [rd_wr_same, w, if_neg (by omega)]
  omega
theorem rd_bump_64 {f : Fld} {n : Nat} (w : f.wid = 64) :
    rd (bump s f n) f = (rd s f + n) % 2 ^ 64 := by
  unfold bump
  rw [rd_wr_same, w, if_pos rfl]
theorem coreOf_setCore {t c u b : Nat} {x : Core} :
    coreOf (setCore s t c x) u b = if 32 * u + b = 32 * t + c then x else coreOf s u b := by
  unfold coreOf setCore
  dsimp only
  split
  · rename_i e; rw [e]; exact Tab.get_put_same
  · rename_i e; exact Tab.get_put_other e
theorem tile_setTile {t u : Nat} {x : Tile} :
    tile (setTile s t x) u = if u = t then x else tile s u := by
  unfold tile setTile
  dsimp only
  split
  · rename_i e; rw [e]; exact Tab.get_put_same
  · rename_i e; exact Tab.get_put_other e
theorem tile_updTile {t u : Nat} {f : Tile → Tile} :
    tile (updTile s t f) u = if u = t then f (tile s t) else tile s u := tile_setTile
theorem engine_setEngine {e u : Nat} {x : Engine} :
    engine (setEngine s e x) u = if u = e then x else engine s u := by
  unfold engine setEngine
  dsimp only
  split
  · rename_i e; rw [e]; exact Tab.get_put_same
  · rename_i e; exact Tab.get_put_other e
theorem kiln_setKiln {k u : Nat} {x : Kiln} :
    kiln (setKiln s k x) u = if u = k then x else kiln s u := by
  unfold kiln setKiln
  dsimp only
  split
  · rename_i e; rw [e]; exact Tab.get_put_same
  · rename_i e; exact Tab.get_put_other e

end Sys2Proof.Machine
end

