-- ==== Sys2Proof/Laws/Grain.lean ====
section
/-! SUPPORT. Grain cores: what an instruction that does not fault leaves, said once for every instruction. -/

namespace Sys2Proof.Machine

variable {s : State}

/-- A store to the memories of a grain cluster changes those bytes and nothing else. -/
theorem store_cluster {a t : Nat} {bs : List Byte} (h : targetOf a = .cluster t) :
    store s a bs = { s with mem := memWrite s.mem a bs } := by
  unfold store; rw [h]

theorem stores_cluster : ∀ {l : List (Nat × List Byte)} {s : State}, (∀ p ∈ l, ∃ t, targetOf p.1 = .cluster t) →
    l.foldl (fun s p => store s p.1 p.2) s = { s with mem := l.foldl (fun m p => memWrite m p.1 p.2) s.mem }
  | [], _, _ => rfl
  | p :: l, s, h => by
    obtain ⟨t, ht⟩ := h p (by simp)
    simp only [List.foldl_cons, store_cluster ht]
    exact stores_cluster fun q hq => h q (by simp [hq])

theorem memWrites_other : ∀ {l : List (Nat × List Byte)} {m : List Host.Cell} {a : Nat},
    (∀ p ∈ l, a < p.1 ∨ p.1 + p.2.length ≤ a) → Tab.find (l.foldl (fun m p => memWrite m p.1 p.2) m) a = Tab.find m a
  | [], _, _, _ => rfl
  | p :: l, m, a, h => by
    rw [List.foldl_cons, memWrites_other fun q hq => h q (by simp [hq])]
    exact memWrite_other (h p (by simp))

theorem targetOf_tile {x : Nat} (h : x < 0x40000000) : targetOf (hbmTop + x) =
    let t := x / 0x1000000
    let o := x % 0x1000000
    if o < 0x800000 then .marver t
    else if o < 0x808000 then .plan t
    else if 0x900000 ≤ o ∧ o < 0x940000 then .cluster t
    else if 0xA00000 ≤ o ∧ o < 0xA40000 then .cluster t
    else if 0xB00000 ≤ o ∧ o < 0xB80000 then .cluster t
    else .none := by
  unfold targetOf
  have h1 : ¬ hbmTop + x < hbmTop := by omega
  have h2 : hbmTop + x < 0xC040000000 := by unfold hbmTop; omega
  rw [if_neg h1, if_pos h2, Nat.add_sub_cancel_left]

/-- The memories of grain cores are cluster memory. -/
theorem targetOf_coreAddr {t c a n o : Nat} (ht : t < 64) (hc : c < 32) (hn : 0 < n) (h : coreAddr t c a n = some o) :
    targetOf o = .cluster t := by
  unfold coreAddr ldmBase opcBase tileBase at h
  split at h
  · cases h
    have e : 0xC000000000 + t * 0x1000000 + 0xA00000 + c * 0x2000 + a = hbmTop + (t * 0x1000000 + (0xA00000 + c * 0x2000 + a)) := by
      unfold hbmTop; omega
    rw [e, targetOf_tile (by omega)]
    have h1 : (t * 0x1000000 + (0xA00000 + c * 0x2000 + a)) / 0x1000000 = t := by omega
    have h2 : (t * 0x1000000 + (0xA00000 + c * 0x2000 + a)) % 0x1000000 = 0xA00000 + c * 0x2000 + a := by omega
    simp only [h1, h2]
    rw [if_neg (by omega), if_neg (by omega), if_neg (by omega), if_pos (by omega)]
  · split at h
    · rw [← Option.some.inj h]
      have e : 0xC000000000 + t * 0x1000000 + 0x900000 + (a - 0x100000) = hbmTop + (t * 0x1000000 + (0x900000 + (a - 0x100000))) := by
        unfold hbmTop; omega
      rw [e, targetOf_tile (by omega)]
      have h1 : (t * 0x1000000 + (0x900000 + (a - 0x100000))) / 0x1000000 = t := by omega
      have h2 : (t * 0x1000000 + (0x900000 + (a - 0x100000))) % 0x1000000 = 0x900000 + (a - 0x100000) := by omega
      simp only [h1, h2]
      rw [if_neg (by omega), if_neg (by omega), if_pos (by omega)]
    · cases h

/-- What an instruction that did not fault makes of the state at its issue. -/
theorem grainRetire_next {t c : Nat} {d : Dispatch} {e : Eff} (hs : ∀ p ∈ e.stores, ∃ u, targetOf p.1 = .cluster u) :
    GrainNext s { grainRetire s t c d e with fresh := s.fresh + 1 } t c d e := by
  unfold grainRetire updDispatch
  simp only [stores_cluster hs]
  generalize hk : ({ e.core with pc := e.next % 4096, ready := e.ready } : Core) = k
  generalize hM : e.stores.foldl (fun m p => memWrite m p.1 p.2) (setCore s t c k).mem = M
  have hM' : M = e.stores.foldl (fun m p => memWrite m p.1 p.2) s.mem := hM.symm
  generalize hY : ({ setCore s t c k with mem := M } : State) = Y
  have y3 : ∀ u b, coreOf Y u b = if 32 * u + b = 32 * t + c then k else coreOf s u b := by
    intro u b; subst hY; exact coreOf_setCore
  have y4 : ∀ u, tile Y u = tile s u := by intro u; subst hY; rfl
  have y5 : ∀ f, rd Y f = rd s f := by intro u; subst hY; rfl
  have y6 : Y.mem = M := by subst hY; rfl
  have y7 : Y = { s with mem := Y.mem, cores := Y.cores } := by subst hY; rfl
  generalize hG : (if e.slices.any (fun p => p.1.isSome) = true then
      updTile (bump Y (Fd.grnRetiredCount t) 1) t fun x => { x with opc := x.opc ++ [⟨c, e.t0, e.slices, e.holds⟩] }
    else bump Y (Fd.grnRetiredCount t) 1) = G
  have g1 : G = { Y with regs := (bump Y (Fd.grnRetiredCount t) 1).regs, tiles := G.tiles } := by subst hG; split <;> rfl
  have g2 : ∀ u, tile G u = if u = t then { tile Y t with
      opc := (tile Y t).opc ++ if e.slices.any (fun p => p.1.isSome) then [⟨c, e.t0, e.slices, e.holds⟩] else [] } else tile Y u := by
    intro u; subst hG; split
    · exact tile_updTile
    · rw [List.append_nil]; split
      · rename_i q; rw [q]; rfl
      · rfl
  have own : ∀ (F : Tile → Tile) (u : Nat),
      tile { updTile G t F with fresh := s.fresh + 1 } u = if u = t then F (tile G t) else tile G u := fun F u => tile_updTile
  generalize hR : (bump Y (Fd.grnRetiredCount t) 1).regs = R at g1
  have r1 : ∀ f : Fld, rd G f = rd (bump Y (Fd.grnRetiredCount t) 1) f := by
    intro f; rw [g1]; show Tab.get f.rst R f.key = _; rw [← hR]; rfl
  refine ⟨?_, ?_, ?_, ?_, ?_, ?_, ?_, ?_, ?_⟩
  · show coreOf G t c = _; rw [g1]; exact (y3 t c).trans (by rw [if_pos rfl, hk])
  · intro u b n; show coreOf G u b = _; rw [g1]; exact (y3 u b).trans (by rw [if_neg n])
  · show G.mem = _; rw [g1]; exact y6.trans hM'
  · intro a ha; show Tab.find G.mem a = _; rw [g1]; show Tab.find Y.mem a = _; rw [y6, hM']; exact memWrites_other ha
  · show rd G _ = _; rw [r1, ← y5]; exact rd_bump_64 rfl
  · intro f h1; show rd G _ = _; rw [r1, ← y5]; exact rd_bump_other h1
  · refine (own _ t).trans ?_; rw [if_pos rfl, g2, if_pos rfl, y4]
  · intro u n; refine (own _ u).trans ?_; rw [if_neg n, g2, if_neg n, y4]
  · show ({ updTile G t _ with fresh := s.fresh + 1 } : State) = _
    generalize hT : G.tiles = T at g1
    clear hG own g2 r1 y3 y4 y5 y6
    subst g1
    generalize hc' : Y.cores = C at y7
    generalize hmm : Y.mem = M at y7
    subst y7
    rfl

theorem grainRetire_fresh {t c : Nat} {d : Dispatch} {e : Eff} (hs : ∀ p ∈ e.stores, ∃ u, targetOf p.1 = .cluster u) :
    (grainRetire s t c d e).fresh = s.fresh := by
  unfold grainRetire
  simp only [stores_cluster hs]
  split <;> rfl

/-- Where its cycle has come, a member waits no longer. -/
theorem grainAt_stays {t c : Nat} {f : GIn → GOut} {n : Nat} {d : Dispatch} (h : dispatchOf s t c = some d)
    (ha : At s (f (grainIn s t c d)).t0) : grainAt t c f n s = s := by
  cases n with
  | zero => rfl
  | succ n => rw [grainAt, h]; exact if_pos (Or.inr ha)

/-- A member whose word is the command's instruction, and for which the instruction does not fault, runs. -/
theorem grainExec_runs {i : Instr} {t c w : Nat} {d : Dispatch} {mine : Nat → Bool} {f : GIn → GOut} {e : Eff}
    (h : Member s t c d w) (hi : exec i s = grainExec t c mine f s) (ho : grainOp (bits w 31 26) = true)
    (hm : mine (bits w 31 26) = true) (he : f ⟨s, t, c, d, coreOf s t c, w⟩ = .go e)
    (hs : ∀ p ∈ e.stores, ∃ u, targetOf p.1 = .cluster u) : GrainRuns i s t c d e := by
  intro ha
  have hw : grainIn s t c d = ⟨s, t, c, d, coreOf s t c, w⟩ := by rw [grainIn, h.word]
  have hg : grainOut mine f (grainIn s t c d) = .go e := by
    rw [hw, grainOut, ho, hm, if_neg (by simp), if_neg (by simp), he]
  have hx : exec i s = grainGo s t c d e := by
    rw [hi, grainExec, h.live]
    have hr := h.runs
    simp only [hr, Option.isSome_none, Bool.false_eq_true, if_false]
    rw [grainAt_stays h.live (by rw [hg]; exact ha), h.live]
    simp only [hg]
  constructor
  · intro hg hr
    have hb : ¬ (s.turn.guardAt ≤ e.t0 ∨ e.isStore = true ∧ s.turn.guardAt < e.ready) := by
      rintro (h1 | ⟨h1, h2⟩)
      · omega
      · have := hr h1; omega
    refine ⟨{ grainRetire (settleTo s e.t0) t c d e with fresh := (settleTo s e.t0).fresh + 1 }, ?_, grainRetire_next hs⟩
    rw [hx, grainGo, if_neg hb]
    simp only [grainDone, ok, grainRetire_fresh hs]
  · intro hb
    rw [hx, grainGo, if_pos hb]

/-- A member whose word is the command's instruction, and for which the instruction faults, finishes. -/
theorem grainExec_faults {i : Instr} {t c w st t0 : Nat} {d : Dispatch} {mine : Nat → Bool} {f : GIn → GOut}
    (h : Member s t c d w) (hi : exec i s = grainExec t c mine f s) (ho : grainOp (bits w 31 26) = true)
    (hm : mine (bits w 31 26) = true) (he : f ⟨s, t, c, d, coreOf s t c, w⟩ = .fault st t0) : GrainFaults i s t c st t0 := by
  intro ha hg
  have hw : grainIn s t c d = ⟨s, t, c, d, coreOf s t c, w⟩ := by rw [grainIn, h.word]
  have hf : grainOut mine f (grainIn s t c d) = .fault st t0 := by
    rw [hw, grainOut, ho, hm, if_neg (by simp), if_neg (by simp), he]
  have hr := h.runs
  rw [hi, grainExec, h.live]
  simp only [hr, Option.isSome_none, Bool.false_eq_true, if_false]
  rw [grainAt_stays h.live (by rw [hf]; exact ha), h.live]
  simp only [hf, grainFault]
  rw [if_neg (by omega)]

end Sys2Proof.Machine
end

