-- ==== Sys2Proof/Laws/Kept.lean ====
section
/-! SUPPORT. What no operation of the model touches, said once: the queue of commands and the ordering code stay, the clock does not
go back, the canonical form is kept, the anti-rollback floors do not fall. Kept s0 s says that s came from s0 by such operations; the lemmas here carry it through the forms
of the definitions, and Laws/Kept*.lean through every operation and meaning. -/

namespace Sys2Proof.Machine

/-- The queue and the ordering code are those of s0, the clock has not gone back, the canonical form of s0 is kept, and no floor has fallen
or left its 16 bits. -/
structure Kept (s0 s : State) : Prop where
  pending : s.pending = s0.pending
  variant : s.variant = s0.variant
  now : s0.now ≤ s.now
  wf : s0.wf = true → s.wf = true
  floors : ∀ c, floorOf s0 c ≤ floorOf s c ∧ (floorOf s0 c < 2 ^ 16 → floorOf s c < 2 ^ 16)

/-- Kept for the next state of an outcome. -/
def KeptR (s0 : State) (r : Res) : Prop := ∀ s, r = .next s → Kept s0 s

/-- Kept for an optional state. -/
def KeptO (s0 : State) : Option State → Prop
  | some s => Kept s0 s
  | none => True

theorem State.wf_iff {s : State} : s.wf = true ↔ memWf s.mem = true ∧ Tab.risingFrom 0 s.regs = true ∧ Tab.wf tileInit s.tiles = true ∧
    Tab.wf coreInit s.cores = true ∧ Tab.wf tagDefault s.tags = true ∧ Tab.wf engineInit s.engines = true ∧
    Tab.wf kilnInit s.kilns = true ∧ Tab.risingFrom 0 s.pcq = true ∧ Tab.risingFrom 0 s.lanes = true := by
  simp only [State.wf, Bool.and_eq_true]
  constructor
  · rintro ⟨⟨⟨⟨⟨⟨⟨⟨a, b⟩, c⟩, d⟩, e⟩, f⟩, g⟩, h⟩, i⟩; exact ⟨a, b, c, d, e, f, g, h, i⟩
  · rintro ⟨a, b, c, d, e, f, g, h, i⟩; exact ⟨⟨⟨⟨⟨⟨⟨⟨a, b⟩, c⟩, d⟩, e⟩, f⟩, g⟩, h⟩, i⟩

theorem Kept.refl (s : State) : Kept s s := ⟨rfl, rfl, Nat.le_refl _, id, fun _ => ⟨Nat.le_refl _, id⟩⟩
theorem Kept.trans {a b c : State} (h : Kept a b) (k : Kept b c) : Kept a c :=
  ⟨k.1.trans h.1, k.2.trans h.2, Nat.le_trans h.3 k.3, fun w => k.4 (h.4 w),
    fun c => ⟨Nat.le_trans (h.5 c).1 (k.5 c).1, fun w => (k.5 c).2 ((h.5 c).2 w)⟩⟩

/-! Outcomes. -/

theorem KeptR_ok {s0 s : State} (h : Kept s0 s) : KeptR s0 (ok s) := by rintro _ ⟨rfl⟩; exact ⟨h.1, h.2, h.3, h.4, h.5⟩
theorem KeptR_next {s0 s : State} (h : Kept s0 s) : KeptR s0 (.next s) := by rintro _ ⟨rfl⟩; exact h
theorem KeptR_fault {s0 : State} {f : Fault} : KeptR s0 (.fault f) := by rintro _ ⟨⟩
theorem KeptO_none {s0 : State} : KeptO s0 none := trivial
theorem KeptO_some {s0 s : State} (h : Kept s0 s) : KeptO s0 (some s) := h

/-! Branches, loops and results taken apart. -/

theorem Kept_ite {s0 : State} {c : Prop} [Decidable c] {a b : State} (ha : Kept s0 a) (hb : Kept s0 b) :
    Kept s0 (if c then a else b) := by split <;> assumption
theorem Kept_ite1 {s0 : State} {α : Type} {c : Prop} [Decidable c] {a b : State × α} (ha : Kept s0 a.1) (hb : Kept s0 b.1) :
    Kept s0 (if c then a else b).1 := by split <;> assumption
theorem Kept_foldl {α : Type} {s0 : State} {f : State → α → State} (hf : ∀ s a, Kept s0 s → Kept s0 (f s a)) (l : List α) {s : State}
    (h : Kept s0 s) : Kept s0 (l.foldl f s) := by
  induction l generalizing s with
  | nil => exact h
  | cons a t ih => exact ih (hf s a h)
theorem Kept_foldl1 {α β : Type} {s0 : State} {f : State × β → α → State × β} (hf : ∀ s a, Kept s0 s.1 → Kept s0 (f s a).1)
    (l : List α) {s : State × β} (h : Kept s0 s.1) : Kept s0 (l.foldl f s).1 := by
  induction l generalizing s with
  | nil => exact h
  | cons a t ih => exact ih (hf s a h)
theorem Kept_pair {s0 : State} {α : Type} {r : State × α} {a : State} {b : α} (e : r = (a, b)) (h : Kept s0 r.1) : Kept s0 a := by
  subst e; exact h
theorem Kept_pair2 {s0 : State} {α : Type} {r : α × State} {a : State} {b : α} (e : r = (b, a)) (h : Kept s0 r.2) : Kept s0 a := by
  subst e; exact h
theorem Kept_opt {s0 : State} {r : Option State} {a : State} (e : r = some a) (h : KeptO s0 r) : Kept s0 a := by subst e; exact h
theorem KeptO_findSome {α : Type} {s0 : State} {f : α → Option State} (hf : ∀ a, KeptO s0 (f a)) (l : List α) :
    KeptO s0 (l.findSome? f) := by
  induction l with
  | nil => trivial
  | cons a t ih =>
    rw [List.findSome?_cons]
    cases e : f a with
    | none => exact ih
    | some b => have := hf a; rw [e] at this; exact this

/-! Updates of the state. -/

/-- An update of fields that Kept does not speak of. -/
theorem Kept_upd {s0 t : State} {p n fr st so fe o v m r tu ti co ta en pc la ki cl fm qm hi se mm bo} (hp : p = t.pending) (hv : v = t.variant)
    (hn : n = t.now) (hm : m = t.mem) (hr : r = t.regs) (hti : ti = t.tiles) (hco : co = t.cores) (hta : ta = t.tags)
    (hen : en = t.engines) (hpc : pc = t.pcq) (hla : la = t.lanes) (hki : ki = t.kilns) (hse : se.floors = t.sec.floors) (h : Kept s0 t) :
    Kept s0 (State.mk p n fr st so fe o v m r tu ti co ta en pc la ki cl fm qm hi se mm bo) := by
  subst hp hv hn hm hr hti hco hta hen hpc hla hki
  exact ⟨h.1, h.2, h.3, h.4, fun c => by simpa only [floorOf, hse] using h.5 c⟩

theorem Kept_mem {s0 t : State} {m : List Host.Cell} (hm : memWf t.mem = true → memWf m = true) (h : Kept s0 t) :
    Kept s0 { t with mem := m } := ⟨h.1, h.2, h.3, (fun w => by
  have := State.wf_iff.1 (h.4 w); exact State.wf_iff.2 ⟨hm this.1, this.2⟩), h.5⟩
theorem Kept_regs {s0 t : State} {m : List (Nat × Nat)} (hm : Tab.risingFrom 0 t.regs = true → Tab.risingFrom 0 m = true)
    (h : Kept s0 t) : Kept s0 { t with regs := m } := ⟨h.1, h.2, h.3, (fun w => by
  have := State.wf_iff.1 (h.4 w); exact State.wf_iff.2 ⟨this.1, hm this.2.1, this.2.2⟩), h.5⟩
theorem Kept_tiles {s0 t : State} {m : List (Nat × Tile)} (hm : Tab.wf tileInit t.tiles = true → Tab.wf tileInit m = true)
    (h : Kept s0 t) : Kept s0 { t with tiles := m } := ⟨h.1, h.2, h.3, (fun w => by
  have := State.wf_iff.1 (h.4 w); exact State.wf_iff.2 ⟨this.1, this.2.1, hm this.2.2.1, this.2.2.2⟩), h.5⟩
theorem Kept_cores {s0 t : State} {m : List (Nat × Core)} (hm : Tab.wf coreInit t.cores = true → Tab.wf coreInit m = true)
    (h : Kept s0 t) : Kept s0 { t with cores := m } := ⟨h.1, h.2, h.3, (fun w => by
  have := State.wf_iff.1 (h.4 w); exact State.wf_iff.2 ⟨this.1, this.2.1, this.2.2.1, hm this.2.2.2.1, this.2.2.2.2⟩), h.5⟩
theorem Kept_tags {s0 t : State} {m : List (Nat × BitVec 1024)} (hm : Tab.wf tagDefault t.tags = true → Tab.wf tagDefault m = true)
    (h : Kept s0 t) : Kept s0 { t with tags := m } := ⟨h.1, h.2, h.3, (fun w => by
  have := State.wf_iff.1 (h.4 w)
  exact State.wf_iff.2 ⟨this.1, this.2.1, this.2.2.1, this.2.2.2.1, hm this.2.2.2.2.1, this.2.2.2.2.2⟩), h.5⟩
theorem Kept_engines {s0 t : State} {m : List (Nat × Engine)}
    (hm : Tab.wf engineInit t.engines = true → Tab.wf engineInit m = true) (h : Kept s0 t) :
    Kept s0 { t with engines := m } := ⟨h.1, h.2, h.3, (fun w => by
  obtain ⟨a, b, c, d, e, f, g⟩ := State.wf_iff.1 (h.4 w); exact State.wf_iff.2 ⟨a, b, c, d, e, hm f, g⟩), h.5⟩
theorem Kept_kilns {s0 t : State} {m : List (Nat × Kiln)} (hm : Tab.wf kilnInit t.kilns = true → Tab.wf kilnInit m = true)
    (h : Kept s0 t) : Kept s0 { t with kilns := m } := ⟨h.1, h.2, h.3, (fun w => by
  obtain ⟨a, b, c, d, e, f, g, i⟩ := State.wf_iff.1 (h.4 w); exact State.wf_iff.2 ⟨a, b, c, d, e, f, hm g, i⟩), h.5⟩
theorem Kept_pcq {s0 t : State} {m : List (Nat × List PcReq)} (hm : Tab.risingFrom 0 t.pcq = true → Tab.risingFrom 0 m = true)
    (h : Kept s0 t) : Kept s0 { t with pcq := m } := ⟨h.1, h.2, h.3, (fun w => by
  obtain ⟨a, b, c, d, e, f, g, i, j⟩ := State.wf_iff.1 (h.4 w); exact State.wf_iff.2 ⟨a, b, c, d, e, f, g, hm i, j⟩), h.5⟩
theorem Kept_lanes {s0 t : State} {m : List (Nat × Lane)} (hm : Tab.risingFrom 0 t.lanes = true → Tab.risingFrom 0 m = true)
    (h : Kept s0 t) : Kept s0 { t with lanes := m } := ⟨h.1, h.2, h.3, (fun w => by
  obtain ⟨a, b, c, d, e, f, g, i, j⟩ := State.wf_iff.1 (h.4 w); exact State.wf_iff.2 ⟨a, b, c, d, e, f, g, i, hm j⟩), h.5⟩

theorem Tab.wf_filter {α : Type} [DecidableEq α] {d : α} (p : Nat × α → Bool) {t : List (Nat × α)} (h : Tab.wf d t = true) :
    Tab.wf d (t.filter p) = true := by
  simp only [Tab.wf, Bool.and_eq_true, List.all_eq_true, decide_eq_true_eq] at h ⊢
  exact ⟨Tab.risingFrom_filter _ h.1, fun e he => h.2 e (List.mem_filter.1 he).1⟩

/-! The clock. -/

/-- The clock set back, for what happens in cycles before the present one. -/
theorem Kept_back {s0 s : State} {c : Nat} (h : Kept { s0 with now := 0 } s) : Kept { s0 with now := 0 } { s with now := c } :=
  ⟨h.1, h.2, Nat.zero_le _, h.4, h.5⟩
theorem Kept_zero {s0 s : State} (h : Kept s0 s) : Kept { s0 with now := 0 } s := ⟨h.1, h.2, Nat.zero_le _, h.4, h.5⟩
/-- The clock at the present cycle again. -/
theorem Kept_now {s0 s : State} {c : Nat} (hc : s0.now ≤ c) (h : Kept { s0 with now := 0 } s) : Kept s0 { s with now := c } :=
  ⟨h.1, h.2, hc, h.4, h.5⟩

/-! The setters. -/

theorem wr_kept {s0 s : State} {f : Fld} {v : Nat} (h : Kept s0 s) : Kept s0 (wr s f v) :=
  Kept_regs (fun w => Tab.risingFrom_put w) h
theorem resetRegs_kept {s0 s : State} {p : Nat → Bool} (h : Kept s0 s) : Kept s0 (resetRegs s p) :=
  Kept_regs (fun w => Tab.risingFrom_filter _ w) h
theorem setTile_kept {s0 s : State} {t : Nat} {x : Tile} (h : Kept s0 s) : Kept s0 (setTile s t x) :=
  Kept_tiles (fun w => Tab.wf_put w) h
theorem setCore_kept {s0 s : State} {t c : Nat} {x : Core} (h : Kept s0 s) : Kept s0 (setCore s t c x) :=
  Kept_cores (fun w => Tab.wf_put w) h
theorem setEngine_kept {s0 s : State} {e : Nat} {x : Engine} (h : Kept s0 s) : Kept s0 (setEngine s e x) :=
  Kept_engines (fun w => Tab.wf_put w) h
theorem setKiln_kept {s0 s : State} {k : Nat} {x : Kiln} (h : Kept s0 s) : Kept s0 (setKiln s k x) :=
  Kept_kilns (fun w => Tab.wf_put w) h
theorem setTag_kept {s0 s : State} {t n : Nat} {e : BitVec 1024} (h : Kept s0 s) : Kept s0 (setTag s t n e) :=
  Kept_tags (fun w => Tab.wf_put w) h
theorem advance_kept {s0 s : State} {c : Nat} (h : Kept s0 s) : Kept s0 (advance s c) :=
  ⟨h.1, h.2, Nat.le_trans h.3 (Nat.le_max_left _ _), h.4, h.5⟩
theorem setSec_kept {s0 s : State} {x : Sec} (hx : x.floors = s.sec.floors) (h : Kept s0 s) : Kept s0 (setSec s x) :=
  Kept_upd rfl rfl rfl rfl rfl rfl rfl rfl rfl rfl rfl rfl hx h
theorem takeIssue_kept {s0 s s' : State} {t u : Nat} {i : Issue} (e : takeIssue s t u = some (i, s')) (h : Kept s0 s) : Kept s0 s' := by
  unfold takeIssue at e
  split at e
  · cases e; exact setTile_kept h
  · cases e

end Sys2Proof.Machine
end

