-- ==== Sys2Proof/Laws/KeptOps.lean ====
section
/-! SUPPORT. The shared operations and the operands keep what Kept says (Laws/Kept.lean): one lemma
for each operation and each meaning. -/

namespace Sys2Proof.Machine

theorem ok_kept {s0 : State} {s : State} (h : Kept s0 s) : KeptR s0 (ok s) := KeptR_ok h

theorem wrs_kept {s0 : State} {s : State} {a2 : List (Fld × Nat)} (h : Kept s0 s) : Kept s0 (wrs s a2) := by
  unfold wrs
  repeat' with_reducible first | assumption | refine Kept_foldl (fun _ _ _ => ?_) _ ?_ | refine Kept_foldl1 (fun _ _ _ => ?_) _ ?_ | apply wr_kept

theorem bump_kept {s0 : State} {s : State} {a2 : Fld} {a3 : Nat} (h : Kept s0 s) : Kept s0 (bump s a2 a3) := by
  unfold bump
  repeat' with_reducible first | assumption | apply wr_kept

theorem emit_kept {s0 : State} {s : State} {a2 : Out} (h : Kept s0 s) : Kept s0 (emit s a2) := by
  unfold emit
  repeat' with_reducible first | assumption | fail_if_no_progress (refine Kept_upd rfl rfl rfl rfl rfl rfl rfl rfl rfl rfl rfl rfl rfl ?_)

theorem updTile_kept {s0 : State} {s : State} {a2 : Nat} {a3 : Tile → Tile} (h : Kept s0 s) : Kept s0 (updTile s a2 a3) := by
  unfold updTile
  repeat' with_reducible first | assumption | apply setTile_kept

theorem takeOut_kept {s0 : State} {s : State} {a2 : Nat} {a3 : Nat} {a4 : Nat} {a5 : Fld} (h : Kept s0 s) : Kept s0 (takeOut s a2 a3 a4 a5).1 := by
  unfold takeOut
  repeat' with_reducible first | assumption | apply bump_kept | fail_if_no_progress (refine Kept_upd rfl rfl rfl rfl rfl rfl rfl rfl rfl rfl rfl rfl rfl ?_)

theorem crossLink_kept {s0 : State} {s : State} {a2 : Nat} {a3 : Nat} {a4 : Nat} {a5 : Nat} (h : Kept s0 s) : Kept s0 (crossLink s a2 a3 a4 a5).1 := by
  unfold crossLink
  repeat' with_reducible first | assumption | apply bump_kept | apply takeOut_kept | fail_if_no_progress (refine Kept_upd rfl rfl rfl rfl rfl rfl rfl rfl rfl rfl rfl rfl rfl ?_)

theorem carry_kept {s0 : State} {s : State} {a2 : Nat} {a3 : Nat} {a4 : Nat} {a5 : Nat} {a6 : Nat} (h : Kept s0 s) : Kept s0 (carry s a2 a3 a4 a5 a6).1 := by
  unfold carry
  repeat' with_reducible first | assumption | refine Kept_foldl (fun _ _ _ => ?_) _ ?_ | refine Kept_foldl1 (fun _ _ _ => ?_) _ ?_ | apply crossLink_kept | apply takeOut_kept | split

theorem pageErrBy_kept {s0 : State} {s : State} {a2 : Nat} {a3 : Nat} {a4 : Nat} {a5 : Nat} (h : Kept s0 s) : Kept s0 (pageErrBy s a2 a3 a4 a5) := by
  unfold pageErrBy
  repeat' with_reducible first | assumption | apply wr_kept | apply bump_kept | fail_if_no_progress (refine Kept_upd rfl rfl rfl rfl rfl rfl rfl rfl rfl rfl rfl rfl rfl ?_) | split

theorem pageErrInfo_kept {s0 : State} {s : State} {a2 : Nat} {a3 : Nat} (h : Kept s0 s) : Kept s0 (pageErrInfo s a2 a3) := by
  unfold pageErrInfo
  repeat' with_reducible first | assumption | apply pageErrBy_kept

theorem pageErr_kept {s0 : State} {s : State} {a2 : Nat} {a3 : Nat} {a4 : Nat} {a5 : Nat} (h : Kept s0 s) : Kept s0 (pageErr s a2 a3 a4 a5) := by
  unfold pageErr
  repeat' with_reducible first | assumption | apply pageErrBy_kept

theorem pageFlags_kept {s0 : State} {s : State} {a2 : Nat} {a3 : Flags} (h : Kept s0 s) : Kept s0 (pageFlags s a2 a3) := by
  unfold pageFlags
  repeat' with_reducible first | assumption | apply wr_kept

theorem notice_kept {s0 : State} {s : State} {a2 : Fld} (h : Kept s0 s) : Kept s0 (notice s a2) := by
  unfold notice
  repeat' with_reducible first | assumption | apply wr_kept

theorem setQueue_kept {s0 : State} {s : State} {a2 : Nat} {a3 : Queue} (h : Kept s0 s) : Kept s0 (setQueue s a2 a3) := by
  unfold setQueue
  repeat' with_reducible first | assumption | fail_if_no_progress (refine Kept_upd rfl rfl rfl rfl rfl rfl rfl rfl rfl rfl rfl rfl rfl ?_)

theorem allocCell_kept {s0 : State} {s : State} {a2 : List Byte} (h : Kept s0 s) : Kept s0 (allocCell s a2).1 := by
  unfold allocCell
  repeat' with_reducible first | assumption | fail_if_no_progress (refine Kept_upd rfl rfl rfl rfl rfl rfl rfl rfl rfl rfl rfl rfl rfl ?_)

theorem freeCells_kept {s0 : State} {s : State} {a2 : List QCell} (h : Kept s0 s) : Kept s0 (freeCells s a2) := by
  unfold freeCells
  repeat' with_reducible first | assumption | fail_if_no_progress (refine Kept_upd rfl rfl rfl rfl rfl rfl rfl rfl rfl rfl rfl rfl rfl ?_)

theorem addItem_kept {s0 : State} {s : State} {a2 : Nat} {a3 : QItem} (h : Kept s0 s) : Kept s0 (addItem s a2 a3) := by
  unfold addItem
  repeat' with_reducible first | assumption | apply setQueue_kept

theorem askEnq_kept {s0 : State} {s : State} {a2 : Nat} {a3 : Nat} {a4 : Nat} {a5 : Nat} {a6 : List Byte} {a7 : Nat} {a8 : Nat} (h : Kept s0 s) : Kept s0 (askEnq s a2 a3 a4 a5 a6 a7 a8) := by
  unfold askEnq
  repeat' with_reducible first | assumption | fail_if_no_progress (refine Kept_upd rfl rfl rfl rfl rfl rfl rfl rfl rfl rfl rfl rfl rfl ?_)

theorem enqCell_kept {s0 : State} {s : State} {a2 : Nat} {a3 : Nat} {a4 : Nat} {a5 : Nat} {a6 : List Byte} (h : Kept s0 s) : Kept s0 (enqCell s a2 a3 a4 a5 a6) := by
  unfold enqCell
  repeat' with_reducible first | assumption | apply askEnq_kept

theorem post_kept {s0 : State} {s : State} {a2 : Nat} {a3 : Nat} {a4 : CRec} (h : Kept s0 s) : Kept s0 (post s a2 a3 a4) := by
  unfold post
  repeat' with_reducible first | assumption | apply enqCell_kept

theorem postUnit_kept {s0 : State} {s : State} {a2 : Nat} {a3 : Nat} {a4 : Nat} {a5 : Bool} {a6 : CRec} (h : Kept s0 s) : Kept s0 (postUnit s a2 a3 a4 a5 a6) := by
  unfold postUnit
  repeat' with_reducible first | assumption | apply pageFlags_kept | apply pageErr_kept | apply post_kept | split

theorem postNow_kept {s0 : State} {s : State} {a2 : Posting} (h : Kept s0 s) : Kept s0 (postNow s a2) := by
  unfold postNow
  repeat' with_reducible first | assumption | refine Kept_foldl (fun _ _ _ => ?_) _ ?_ | refine Kept_foldl1 (fun _ _ _ => ?_) _ ?_ | apply notice_kept | apply bump_kept | apply pageFlags_kept | apply pageErr_kept | apply post_kept

theorem postLater_kept {s0 : State} {s : State} {a2 : Posting} (h : Kept s0 s) : Kept s0 (postLater s a2) := by
  unfold postLater
  repeat' with_reducible first | assumption | fail_if_no_progress (refine Kept_upd rfl rfl rfl rfl rfl rfl rfl rfl rfl rfl rfl rfl rfl ?_)

theorem postAt_kept {s0 : State} {s : State} {a2 : Posting} (h : Kept s0 s) : Kept s0 (postAt s a2) := by
  unfold postAt
  repeat' with_reducible first | assumption | apply postNow_kept | apply postLater_kept | split

theorem stopChecks_kept {s0 : State} {s : State} {a2 : Nat} {a3 : Nat → Bool} (h : Kept s0 s) : Kept s0 (stopChecks s a2 a3) := by
  unfold stopChecks
  repeat' with_reducible first | assumption | refine Kept_foldl (fun _ _ _ => ?_) _ ?_ | refine Kept_foldl1 (fun _ _ _ => ?_) _ ?_ | apply postNow_kept | fail_if_no_progress (refine Kept_upd rfl rfl rfl rfl rfl rfl rfl rfl rfl rfl rfl rfl rfl ?_) | split

theorem countLoss_kept {s0 : State} {s : State} {a2 : Nat} {a3 : Nat} {a4 : Fld} {a5 : Nat} (h : Kept s0 s) : Kept s0 (countLoss s a2 a3 a4 a5) := by
  unfold countLoss
  repeat' with_reducible first | assumption | apply bump_kept

theorem saveReads_kept {s0 : State} {s : State} {a2 : Nat} {a3 : Nat} {a4 : Nat} (h : Kept s0 s) : Kept s0 (saveReads s a2 a3 a4) := by
  unfold saveReads
  repeat' with_reducible first | assumption | apply setTile_kept | fail_if_no_progress (refine Kept_upd rfl rfl rfl rfl rfl rfl rfl rfl rfl rfl rfl rfl rfl ?_) | split | extract_lets

theorem snoopLines_kept {s0 : State} {s : State} {a2 : Nat} {a3 : Nat} (h : Kept s0 s) : Kept s0 (snoopLines s a2 a3) := by
  unfold snoopLines
  repeat' with_reducible first | assumption | refine Kept_foldl (fun _ _ _ => ?_) _ ?_ | refine Kept_foldl1 (fun _ _ _ => ?_) _ ?_ | apply emit_kept | fail_if_no_progress (refine Kept_upd rfl rfl rfl rfl rfl rfl rfl rfl rfl rfl rfl rfl rfl ?_)

theorem store_kept {s0 : State} {s : State} {a2 : Nat} {a3 : List Byte} (h : Kept s0 s) : Kept s0 (store s a2 a3) := by
  unfold store; dsimp only
  refine Kept_mem (fun w => memWf_write w) ?_
  repeat' split
  all_goals first | exact h | exact saveReads_kept h | exact snoopLines_kept h

theorem touchKiln_kept {s0 : State} {s : State} {a2 : Nat} {a3 : Nat} {a4 : Nat} (h : Kept s0 s) : Kept s0 (touchKiln s a2 a3 a4) := by
  unfold touchKiln
  repeat' with_reducible first | assumption | apply setKiln_kept | fail_if_no_progress (refine Kept_upd rfl rfl rfl rfl rfl rfl rfl rfl rfl rfl rfl rfl rfl ?_) | split | extract_lets

theorem storeUnit_kept {s0 : State} {s : State} {a2 : Nat} {a3 : List Byte} (h : Kept s0 s) : Kept s0 (storeUnit s a2 a3) := by
  unfold storeUnit
  repeat' with_reducible first | assumption | apply store_kept | apply setKiln_kept | fail_if_no_progress (refine Kept_upd rfl rfl rfl rfl rfl rfl rfl rfl rfl rfl rfl rfl rfl ?_) | split | extract_lets

end Sys2Proof.Machine
end

