-- ==== Sys2Proof/Laws/KeptTile.lean ====
section
/-! SUPPORT. The matrix array, the lookup engine, the function units and the Sieve keep what Kept says (Laws/Kept.lean): one lemma
for each operation and each meaning. -/

namespace Sys2Proof.Machine

theorem samplePosition_kept {s0 : State} {a1 : Nat} {a2 : Nat} {a3 : Nat} {a4 : Nat} {a5 : Nat} {s : State} (h : Kept s0 s) : Kept s0 (samplePosition a1 a2 a3 a4 a5 s) := by
  unfold samplePosition; dsimp only
  repeat' split
  · exact Kept_lanes (fun w => Tab.risingFrom_insert w (Nat.zero_le _)) h
  · exact notice_kept (bump_kept h)
  · exact h

theorem watchAccept_kept {s0 : State} {s : State} {a2 : Nat} {a3 : Nat} {a4 : Nat} {a5 : Nat} {a6 : Nat} (h : Kept s0 s) : Kept s0 (watchAccept s a2 a3 a4 a5 a6) := by
  unfold watchAccept
  repeat' with_reducible first | assumption | refine Kept_foldl (fun _ _ _ => ?_) _ ?_ | refine Kept_foldl1 (fun _ _ _ => ?_) _ ?_ | apply samplePosition_kept

theorem dropLanes_kept {s0 : State} {s : State} {a2 : Nat} {a3 : Lane → Bool} (h : Kept s0 s) : Kept s0 (dropLanes s a2 a3) :=
  Kept_lanes (fun w => Tab.risingFrom_filter _ w) h

theorem watchCompare_kept {s0 : State} {s : State} {a2 : Nat} {a3 : Nat} {a4 : SweepD} {a5 : Nat} {a6 : Nat} {a7 : Nat} {a8 : Lane} {a9 : List Nat} (h : Kept s0 s) : Kept s0 (watchCompare s a2 a3 a4 a5 a6 a7 a8 a9) := by
  unfold watchCompare
  repeat' with_reducible first | assumption | refine Kept_foldl (fun _ _ _ => ?_) _ ?_ | refine Kept_foldl1 (fun _ _ _ => ?_) _ ?_ | apply bump_kept | apply wrs_kept | apply pageErrBy_kept | apply postLater_kept | fail_if_no_progress (refine Kept_upd rfl rfl rfl rfl rfl rfl rfl rfl rfl rfl rfl rfl rfl ?_) | split | extract_lets

theorem freeLaneNow_kept {s0 : State} {s : State} {k : Nat} {l : Lane} (h : Kept s0 s) : Kept s0 (freeLaneNow s k l) := by
  unfold freeLaneNow
  have h1 : Kept s0 { s with lanes := Tab.erase s.lanes k } := Kept_lanes (fun w => Tab.risingFrom_erase w) h
  extract_lets s1
  split
  · exact h1
  · exact watchCompare_kept h1

theorem eachLane_kept {s0 : State} {s : State} {t c : Nat} {p : Lane → Bool} {f : State → Nat → Lane → State} (h : Kept s0 s)
    (hf : ∀ s k l, Kept s0 s → Kept s0 (f s k l)) : Kept s0 (eachLane s t c p f) := by
  unfold eachLane
  refine Kept_foldl (fun s i h => ?_) _ h
  dsimp only
  repeat' split
  · exact hf _ _ _ h
  · exact h
  · exact h

theorem watchRun_kept {s0 : State} {s : State} {a2 : Nat} {a3 : Sweep} {a4 : SweepD} (h : Kept s0 s) : Kept s0 (watchRun s a2 a3 a4) :=
  eachLane_kept h fun _ _ _ h => Kept_lanes (fun w => Tab.risingFrom_insert w (Nat.zero_le _)) h

theorem watchBrick_kept {s0 : State} {s : State} {a2 : Nat} {a3 : Sweep} {a4 : SweepD} {a5 a6 : Nat} {a7 : List Nat} (h : Kept s0 s) :
    Kept s0 (watchBrick s a2 a3 a4 a5 a6 a7) :=
  eachLane_kept h fun _ _ _ h => Kept_lanes (fun w => Tab.risingFrom_insert w (Nat.zero_le _)) h

theorem clearHist_kept {s0 : State} {s : State} {a2 : Nat} (h : Kept s0 s) : Kept s0 (clearHist s a2) := by
  unfold clearHist
  repeat' with_reducible first | assumption | refine Kept_foldl (fun _ _ _ => ?_) _ ?_ | refine Kept_foldl1 (fun _ _ _ => ?_) _ ?_ | apply wr_kept

theorem execNwuCtlWrite_kept {s0 : State} {a1 : Nat} {a2 : BitVec 32} {s : State} (h : Kept s0 s) : KeptR s0 (execNwuCtlWrite a1 a2 s) := by
  unfold execNwuCtlWrite
  repeat' with_reducible first | assumption | exact KeptR_fault | apply KeptR_ok | apply ok_kept | apply notice_kept | apply wrs_kept | apply clearHist_kept | split | extract_lets

theorem execHclr_kept {s0 : State} {a1 : Nat} {s : State} (h : Kept s0 s) : KeptR s0 (execHclr a1 s) := by
  unfold execHclr
  repeat' with_reducible first | assumption | exact KeptR_fault | apply KeptR_ok | apply ok_kept | apply clearHist_kept | split

theorem alnUpdate_kept {s0 : State} {s : State} {a2 : Nat} {a3 : Nat} {a4 : Nat} {a5 : Nat} (h : Kept s0 s) : Kept s0 (alnUpdate s a2 a3 a4 a5) := by
  unfold alnUpdate
  repeat' with_reducible first | assumption | apply bump_kept | apply wr_kept | split | extract_lets

theorem updSweep_kept {s0 : State} {s : State} {a2 : Nat} {a3 : Sweep} {a4 : Sweep → Sweep} (h : Kept s0 s) : Kept s0 (updSweep s a2 a3 a4) := by
  unfold updSweep
  repeat' with_reducible first | assumption | apply updTile_kept

theorem countSweep_kept {s0 : State} {s : State} {a2 : Nat} {a3 : Sweep} {a4 : Nat} (h : Kept s0 s) : Kept s0 (countSweep s a2 a3 a4) := by
  unfold countSweep
  repeat' with_reducible first | assumption | apply bump_kept | apply updSweep_kept

theorem countSweepBy_kept {s0 : State} {a1 : Nat} {a2 : Nat} {s : State} {a4 : Sweep} (h : Kept s0 s) : Kept s0 (countSweepBy a1 a2 s a4) := by
  unfold countSweepBy
  repeat' with_reducible first | assumption | apply countSweep_kept

theorem writeSweep_kept {s0 : State} {s : State} {a2 : Nat} {a3 : Sweep} (h : Kept s0 s) : Kept s0 (writeSweep s a2 a3) := by
  unfold writeSweep
  repeat' with_reducible first | assumption | apply watchBrick_kept | apply store_kept | apply updSweep_kept

theorem sweepRecord_kept {s0 : State} {s : State} {a2 : Nat} {a3 : Sweep} {a4 : AccRes} {a5 : Nat} {a6 : Nat} {a7 : Nat} (h : Kept s0 s) : Kept s0 (sweepRecord s a2 a3 a4 a5 a6 a7) := by
  unfold sweepRecord
  repeat' with_reducible first | assumption | apply postNow_kept

theorem finishSweep_kept {s0 : State} {s : State} {a2 : Nat} {a3 : Sweep} (h : Kept s0 s) : Kept s0 (finishSweep s a2 a3) := by
  unfold finishSweep
  repeat' with_reducible first | assumption | apply watchRun_kept | apply countSweep_kept | apply updTile_kept | apply alnUpdate_kept | apply sweepRecord_kept | fail_if_no_progress (refine Kept_upd rfl rfl rfl rfl rfl rfl rfl rfl rfl rfl rfl rfl rfl ?_) | split

theorem abandonSweep_kept {s0 : State} {a1 : Nat} {a2 : Nat} {s : State} {a4 : Sweep} (h : Kept s0 s) : Kept s0 (abandonSweep a1 a2 s a4) := by
  unfold abandonSweep
  repeat' with_reducible first | assumption | apply countSweepBy_kept | apply alnUpdate_kept | apply sweepRecord_kept | apply dropLanes_kept | split

theorem dropBanks_kept {s0 : State} {s : State} {a2 : Nat} (h : Kept s0 s) : Kept s0 (dropBanks s a2) := by
  unfold dropBanks
  repeat' with_reducible first | assumption | apply dropLanes_kept | apply updTile_kept

theorem stopSweep_kept {s0 : State} {a1 : Nat} {a2 : Nat} {s : State} {a4 : Sweep} (h : Kept s0 s) : Kept s0 (stopSweep a1 a2 s a4) := by
  unfold stopSweep
  repeat' with_reducible first | assumption | apply finishSweep_kept | apply abandonSweep_kept | split

theorem abandonMxa_kept {s0 : State} {s : State} {a2 : Nat} {a3 : Nat} (h : Kept s0 s) : Kept s0 (abandonMxa s a2 a3) := by
  unfold abandonMxa
  repeat' with_reducible first | assumption | refine Kept_foldl (fun _ _ _ => ?_) _ ?_ | refine Kept_foldl1 (fun _ _ _ => ?_) _ ?_ | apply dropBanks_kept | apply stopChecks_kept | apply stopSweep_kept

theorem acceptSweep_kept {s0 : State} {s : State} {a2 : Nat} {a3 : Issue} (h : Kept s0 s) : Kept s0 (acceptSweep s a2 a3) := by
  unfold acceptSweep
  repeat' with_reducible first | assumption | apply updTile_kept | apply postLater_kept | apply dropLanes_kept | apply notice_kept | apply watchAccept_kept | fail_if_no_progress (refine Kept_upd rfl rfl rfl rfl rfl rfl rfl rfl rfl rfl rfl rfl rfl ?_) | split | extract_lets | refine Kept_ite ?_ ?_

theorem updLookup_kept {s0 : State} {s : State} {a2 : Nat} {a3 : Lookup} {a4 : Lookup → Lookup} (h : Kept s0 s) : Kept s0 (updLookup s a2 a3 a4) := by
  unfold updLookup
  repeat' with_reducible first | assumption | apply updTile_kept

theorem countLookup_kept {s0 : State} {s : State} {a2 : Nat} {a3 : Lookup} {a4 : Nat} (h : Kept s0 s) : Kept s0 (countLookup s a2 a3 a4) := by
  unfold countLookup
  repeat' with_reducible first | assumption | apply bump_kept | apply updLookup_kept

theorem countLookupBy_kept {s0 : State} {a1 : Nat} {a2 : Nat} {s : State} {a4 : Lookup} (h : Kept s0 s) : Kept s0 (countLookupBy a1 a2 s a4) := by
  unfold countLookupBy
  repeat' with_reducible first | assumption | apply countLookup_kept

theorem writeLookup_kept {s0 : State} {s : State} {a2 : Nat} {a3 : Lookup} (h : Kept s0 s) : Kept s0 (writeLookup s a2 a3) := by
  unfold writeLookup
  repeat' with_reducible first | assumption | apply store_kept | apply updLookup_kept

theorem lookRecord_kept {s0 : State} {s : State} {a2 : Nat} {a3 : Lookup} {a4 : List (Nat × Flags)} {a5 : Nat} {a6 : Nat} {a7 : Nat} (h : Kept s0 s) : Kept s0 (lookRecord s a2 a3 a4 a5 a6 a7) := by
  unfold lookRecord
  repeat' with_reducible first | assumption | apply postNow_kept

theorem finishLookup_kept {s0 : State} {s : State} {a2 : Nat} {a3 : Lookup} (h : Kept s0 s) : Kept s0 (finishLookup s a2 a3) := by
  unfold finishLookup
  repeat' with_reducible first | assumption | apply countLookup_kept | apply updTile_kept | apply lookRecord_kept

theorem abandonLookup_kept {s0 : State} {a1 : Nat} {a2 : Nat} {s : State} {a4 : Lookup} (h : Kept s0 s) : Kept s0 (abandonLookup a1 a2 s a4) := by
  unfold abandonLookup
  repeat' with_reducible first | assumption | apply lookRecord_kept | apply countLookupBy_kept

theorem dropFiles_kept {s0 : State} {s : State} {a2 : Nat} (h : Kept s0 s) : Kept s0 (dropFiles s a2) := by
  unfold dropFiles
  repeat' with_reducible first | assumption | apply updTile_kept

theorem stopLookup_kept {s0 : State} {a1 : Nat} {a2 : Nat} {s : State} {a4 : Lookup} (h : Kept s0 s) : Kept s0 (stopLookup a1 a2 s a4) := by
  unfold stopLookup
  repeat' with_reducible first | assumption | apply finishLookup_kept | apply abandonLookup_kept | split

theorem abandonCpt_kept {s0 : State} {s : State} {a2 : Nat} {a3 : Nat} (h : Kept s0 s) : Kept s0 (abandonCpt s a2 a3) := by
  unfold abandonCpt
  repeat' with_reducible first | assumption | refine Kept_foldl (fun _ _ _ => ?_) _ ?_ | refine Kept_foldl1 (fun _ _ _ => ?_) _ ?_ | apply dropFiles_kept | apply stopChecks_kept | apply stopLookup_kept

theorem acceptLookup_kept {s0 : State} {s : State} {a2 : Nat} {a3 : Issue} (h : Kept s0 s) : Kept s0 (acceptLookup s a2 a3) := by
  unfold acceptLookup
  repeat' with_reducible first | assumption | apply updTile_kept | apply postLater_kept | apply notice_kept | fail_if_no_progress (refine Kept_upd rfl rfl rfl rfl rfl rfl rfl rfl rfl rfl rfl rfl rfl ?_) | split | extract_lets | refine Kept_ite ?_ ?_

theorem updApply_kept {s0 : State} {s : State} {a2 : Nat} {a3 : Apply} {a4 : Apply → Apply} (h : Kept s0 s) : Kept s0 (updApply s a2 a3 a4) := by
  unfold updApply
  repeat' with_reducible first | assumption | apply updTile_kept

theorem writeApply_kept {s0 : State} {s : State} {a2 : Nat} {a3 : Apply} (h : Kept s0 s) : Kept s0 (writeApply s a2 a3) := by
  unfold writeApply
  repeat' with_reducible first | assumption | apply updApply_kept | apply store_kept

theorem applyRecord_kept {s0 : State} {s : State} {a2 : Nat} {a3 : Apply} {a4 : Nat} {a5 : Nat} (h : Kept s0 s) : Kept s0 (applyRecord s a2 a3 a4 a5) := by
  unfold applyRecord
  repeat' with_reducible first | assumption | apply postNow_kept

theorem finishApply_kept {s0 : State} {s : State} {a2 : Nat} {a3 : Apply} (h : Kept s0 s) : Kept s0 (finishApply s a2 a3) := by
  unfold finishApply
  repeat' with_reducible first | assumption | apply updTile_kept | apply applyRecord_kept

theorem abandonApply_kept {s0 : State} {a1 : Nat} {a2 : Nat} {s : State} {a4 : Apply} (h : Kept s0 s) : Kept s0 (abandonApply a1 a2 s a4) := by
  unfold abandonApply
  repeat' with_reducible first | assumption | apply applyRecord_kept

theorem stopApply_kept {s0 : State} {a1 : Nat} {a2 : Nat} {s : State} {a4 : Apply} (h : Kept s0 s) : Kept s0 (stopApply a1 a2 s a4) := by
  unfold stopApply
  repeat' with_reducible first | assumption | apply finishApply_kept | apply abandonApply_kept | split

theorem abandonFtu_kept {s0 : State} {s : State} {a2 : Nat} {a3 : Nat} (h : Kept s0 s) : Kept s0 (abandonFtu s a2 a3) := by
  unfold abandonFtu
  repeat' with_reducible first | assumption | refine Kept_foldl (fun _ _ _ => ?_) _ ?_ | refine Kept_foldl1 (fun _ _ _ => ?_) _ ?_ | apply updTile_kept | apply stopChecks_kept | apply stopApply_kept

theorem acceptApply_kept {s0 : State} {s : State} {a2 : Nat} {a3 : Issue} (h : Kept s0 s) : Kept s0 (acceptApply s a2 a3) := by
  unfold acceptApply
  repeat' with_reducible first | assumption | apply updTile_kept | apply postLater_kept | fail_if_no_progress (refine Kept_upd rfl rfl rfl rfl rfl rfl rfl rfl rfl rfl rfl rfl rfl ?_) | split | extract_lets

theorem lastStats_kept {s0 : State} {s : State} {a2 : Nat} {a3 : Nat} {a4 : Stats} (h : Kept s0 s) : Kept s0 (lastStats s a2 a3 a4) := by
  unfold lastStats
  repeat' with_reducible first | assumption | apply wrs_kept | apply bump_kept

theorem zrunAlarm_kept {s0 : State} {s : State} {a2 : Nat} {a3 : Nat} {a4 : Nat} {a5 : Nat} {a6 : Nat} {a7 : Nat} (h : Kept s0 s) : Kept s0 (zrunAlarm s a2 a3 a4 a5 a6 a7) := by
  unfold zrunAlarm
  repeat' with_reducible first | assumption | apply postAt_kept

theorem finishTag_kept {s0 : State} {s : State} {a2 : Nat} {a3 : Job} {a4 : Stats} {a5 : Nat} (h : Kept s0 s) : Kept s0 (finishTag s a2 a3 a4 a5).1 := by
  unfold finishTag
  repeat' with_reducible first | assumption | apply lastStats_kept | apply setTag_kept | apply zrunAlarm_kept | split | extract_lets

theorem applyTagWrite_kept {s0 : State} {t : Nat} {s : State} {w : TagWrite} (h : Kept s0 s) : Kept s0 (applyTagWrite t s w) := by
  cases w <;> exact setTag_kept h

theorem releaseSieve_kept {s0 : State} {s : State} {a2 : Nat} {a3 : Nat} (h : Kept s0 s) : Kept s0 (releaseSieve s a2 a3) := by
  unfold releaseSieve
  repeat' with_reducible first | assumption | refine Kept_foldl (fun _ _ _ => ?_) _ ?_ | refine Kept_foldl1 (fun _ _ _ => ?_) _ ?_ | apply applyTagWrite_kept | apply updTile_kept

theorem tagWrite_kept {s0 : State} {s : State} {a2 : Nat} {a3 : TagWrite} (h : Kept s0 s) : Kept s0 (tagWrite s a2 a3) := by
  unfold tagWrite
  repeat' with_reducible first | assumption | apply updTile_kept | apply applyTagWrite_kept | fail_if_no_progress (refine Kept_upd rfl rfl rfl rfl rfl rfl rfl rfl rfl rfl rfl rfl rfl ?_) | split

theorem execSieveTwinWrite_kept {s0 : State} {a1 : Nat} {a2 : Nat} {a3 : List Byte} {s : State} (h : Kept s0 s) : KeptR s0 (execSieveTwinWrite a1 a2 a3 s) := by
  unfold execSieveTwinWrite
  repeat' with_reducible first | assumption | exact KeptR_fault | apply KeptR_ok | apply ok_kept | apply tagWrite_kept | split

theorem execSieveTselWrite_kept {s0 : State} {a1 : Nat} {a2 : BitVec 32} {s : State} (h : Kept s0 s) : KeptR s0 (execSieveTselWrite a1 a2 s) := by
  unfold execSieveTselWrite
  repeat' with_reducible first | assumption | exact KeptR_fault | apply KeptR_ok | apply ok_kept | apply notice_kept | apply wr_kept | split

theorem execSieveCtlWrite_kept {s0 : State} {a1 : Nat} {a2 : BitVec 32} {s : State} (h : Kept s0 s) : KeptR s0 (execSieveCtlWrite a1 a2 s) := by
  unfold execSieveCtlWrite
  repeat' with_reducible first | assumption | exact KeptR_fault | apply KeptR_ok | apply ok_kept | apply notice_kept | apply wr_kept | split

theorem tagCommand_kept {s0 : State} {a1 : Nat} {a2 : Nat} {s : State} (h : Kept s0 s) : KeptR s0 (tagCommand a1 a2 s) := by
  unfold tagCommand
  repeat' with_reducible first | assumption | exact KeptR_fault | apply KeptR_ok | apply ok_kept | apply tagWrite_kept | split

theorem execTagDefault_kept {s0 : State} {a1 : Nat} {s : State} (h : Kept s0 s) : KeptR s0 (execTagDefault a1 s) := by
  unfold execTagDefault
  repeat' with_reducible first | assumption | exact KeptR_fault | apply KeptR_ok | apply tagCommand_kept

theorem execTagClrstat_kept {s0 : State} {a1 : Nat} {s : State} (h : Kept s0 s) : KeptR s0 (execTagClrstat a1 s) := by
  unfold execTagClrstat
  repeat' with_reducible first | assumption | exact KeptR_fault | apply KeptR_ok | apply tagCommand_kept

theorem execTagCold_kept {s0 : State} {a1 : Nat} {s : State} (h : Kept s0 s) : KeptR s0 (execTagCold a1 s) := by
  unfold execTagCold
  repeat' with_reducible first | assumption | exact KeptR_fault | apply KeptR_ok | apply tagCommand_kept

end Sys2Proof.Machine
end

