-- ==== Sys2Proof/Laws/KeptCopy.lean ====
section
/-! SUPPORT. The fabric agent, the pseudo-channels, the copy engines and the enqueue port keep what Kept says (Laws/Kept.lean): one lemma
for each operation and each meaning. -/

namespace Sys2Proof.Machine

theorem setPort_kept {s0 : State} {s : State} {a2 : Nat} {a3 : PortX} (h : Kept s0 s) : Kept s0 (setPort s a2 a3) := by
  unfold setPort
  repeat' with_reducible first | assumption | fail_if_no_progress (refine Kept_upd rfl rfl rfl rfl rfl rfl rfl rfl rfl rfl rfl rfl rfl ?_)

theorem portTx_kept {s0 : State} {s : State} {a2 : Nat} {a3 : Nat} {a4 : Nat} {a5 : FabCell} (h : Kept s0 s) : Kept s0 (portTx s a2 a3 a4 a5) := by
  unfold portTx
  repeat' with_reducible first | assumption | apply setPort_kept

theorem markSent_kept {s0 : State} {s : State} {a2 : FabCell} {a3 : Nat} (h : Kept s0 s) : Kept s0 (markSent s a2 a3) := by
  unfold markSent
  repeat' with_reducible first | assumption | fail_if_no_progress (refine Kept_upd rfl rfl rfl rfl rfl rfl rfl rfl rfl rfl rfl rfl rfl ?_)

theorem sendCell_kept {s0 : State} {s : State} {a2 : Nat} {a3 : Nat} {a4 : PortCell} (h : Kept s0 s) : Kept s0 (sendCell s a2 a3 a4) := by
  unfold sendCell
  repeat' with_reducible first | assumption | apply bump_kept | apply setPort_kept | apply markSent_kept | apply emit_kept | fail_if_no_progress (refine Kept_upd rfl rfl rfl rfl rfl rfl rfl rfl rfl rfl rfl rfl rfl ?_) | split

theorem drainPort_kept {s0 : State} {p n : Nat} {s : State} (h : Kept s0 s) : Kept s0 (drainPort p n s) := by
  induction n generalizing s with
  | zero => unfold drainPort; exact h
  | succ n ih =>
    unfold drainPort
    repeat' with_reducible first | apply ih | assumption | apply sendCell_kept | split

theorem drainPorts_kept {s0 : State} {s : State} (h : Kept s0 s) : Kept s0 (drainPorts s) := by
  unfold drainPorts
  repeat' with_reducible first | assumption | refine Kept_foldl (fun _ _ _ => ?_) _ ?_ | refine Kept_foldl1 (fun _ _ _ => ?_) _ ?_ | apply drainPort_kept

theorem frtDrop_kept {s0 : State} {s : State} {a2 : Fld} (h : Kept s0 s) : Kept s0 (frtDrop s a2) := by
  unfold frtDrop
  repeat' with_reducible first | assumption | apply pageErrInfo_kept | apply bump_kept

theorem routeCell_kept {s0 : State} {s : State} {a2 : Nat} {a3 : Nat} {a4 : FabCell} (h : Kept s0 s) : Kept s0 (routeCell s a2 a3 a4) := by
  unfold routeCell
  repeat' with_reducible first | assumption | apply bump_kept | apply portTx_kept | apply frtDrop_kept | fail_if_no_progress (refine Kept_upd rfl rfl rfl rfl rfl rfl rfl rfl rfl rfl rfl rfl rfl ?_) | split | extract_lets

theorem sendReq_kept {s0 : State} {s : State} {a2 : Nat} {a3 : Nat} {a4 : Nat} {a5 : Nat} {a6 : Nat} {a7 : Nat} {a8 : List Byte} (h : Kept s0 s) : Kept s0 (sendReq s a2 a3 a4 a5 a6 a7 a8) := by
  unfold sendReq
  repeat' with_reducible first | assumption | apply routeCell_kept | fail_if_no_progress (refine Kept_upd rfl rfl rfl rfl rfl rfl rfl rfl rfl rfl rfl rfl rfl ?_)

theorem sendWrite_kept {s0 : State} {s : State} {a2 : Nat} {a3 : Nat} {a4 : Nat} {a5 : List (Nat × List Byte)} (h : Kept s0 s) : Kept s0 (sendWrite s a2 a3 a4 a5) := by
  unfold sendWrite
  repeat' with_reducible first | assumption | refine Kept_foldl (fun _ _ _ => ?_) _ ?_ | refine Kept_foldl1 (fun _ _ _ => ?_) _ ?_ | apply sendReq_kept

theorem answer_kept {s0 : State} {s : State} {a2 : Nat} {a3 : FabCell} {a4 : Nat} {a5 : Nat} {a6 : Nat} {a7 : List Byte} (h : Kept s0 s) : Kept s0 (answer s a2 a3 a4 a5 a6 a7) := by
  unfold answer
  repeat' with_reducible first | assumption | apply routeCell_kept

theorem nackFor_kept {s0 : State} {s : State} {a2 : FabCell} {a3 : Nat} (h : Kept s0 s) : Kept s0 (nackFor s a2 a3) := by
  unfold nackFor
  repeat' with_reducible first | assumption | apply routeCell_kept

theorem nack_kept {s0 : State} {s : State} {a2 : FabCell} {a3 : Nat} (h : Kept s0 s) : Kept s0 (nack s a2 a3) := by
  unfold nack
  repeat' with_reducible first | assumption | apply answer_kept

theorem markSync_kept {s0 : State} {s : State} {a2 : Nat} {a3 : Nat} (h : Kept s0 s) : Kept s0 (markSync s a2 a3) := by
  unfold markSync
  repeat' with_reducible first | assumption | fail_if_no_progress (refine Kept_upd rfl rfl rfl rfl rfl rfl rfl rfl rfl rfl rfl rfl rfl ?_)

theorem addPend_kept {s0 : State} {s : State} {a2 : Pend} (h : Kept s0 s) : Kept s0 (addPend s a2) := by
  unfold addPend
  repeat' with_reducible first | assumption | fail_if_no_progress (refine Kept_upd rfl rfl rfl rfl rfl rfl rfl rfl rfl rfl rfl rfl rfl ?_)

theorem dropPends_kept {s0 : State} {s : State} {a2 : Pend → Bool} (h : Kept s0 s) : Kept s0 (dropPends s a2) := by
  unfold dropPends
  repeat' with_reducible first | assumption | fail_if_no_progress (refine Kept_upd rfl rfl rfl rfl rfl rfl rfl rfl rfl rfl rfl rfl rfl ?_)

theorem hbmAccess_kept {s0 : State} {s : State} {a2 : Nat} {a3 : Nat} (h : Kept s0 s) : Kept s0 (hbmAccess s a2 a3).1 := by
  unfold hbmAccess
  repeat' with_reducible first | assumption | apply bump_kept | split | extract_lets

theorem memAccess_kept {s0 : State} {s : State} {a2 : Nat} {a3 : Nat} (h : Kept s0 s) : Kept s0 (memAccess s a2 a3).1 := by
  unfold memAccess
  repeat' with_reducible first | assumption | apply hbmAccess_kept | fail_if_no_progress (refine Kept_upd rfl rfl rfl rfl rfl rfl rfl rfl rfl rfl rfl rfl rfl ?_) | split

theorem requestPc_kept {s0 : State} {s : State} {k : Nat} {r : PcReq} (h : Kept s0 s) : Kept s0 (requestPc s k r) :=
  Kept_pcq (fun w => Tab.risingFrom_insert w (Nat.zero_le _)) h

theorem requestShares_kept {s0 : State} {s : State} {a2 : Nat} {a3 : List Share} (h : Kept s0 s) : Kept s0 (requestShares s a2 a3) := by
  unfold requestShares
  repeat' with_reducible first | assumption | refine Kept_foldl (fun _ _ _ => ?_) _ ?_ | refine Kept_foldl1 (fun _ _ _ => ?_) _ ?_ | apply requestPc_kept | apply bump_kept | split

theorem countStreams_kept {s0 : State} {s : State} {a2 : Nat} {a3 : List Share} {a4 : Nat} (h : Kept s0 s) : Kept s0 (countStreams s a2 a3 a4) := by
  unfold countStreams
  repeat' with_reducible first | assumption | refine Kept_foldl (fun _ _ _ => ?_) _ ?_ | refine Kept_foldl1 (fun _ _ _ => ?_) _ ?_ | apply bump_kept

theorem keepSpans_kept {s0 : State} {s : State} (h : Kept s0 s) : Kept s0 (keepSpans s) := by
  unfold keepSpans
  extract_lets q
  have hq : Kept s0 { s with pcq := q } := Kept_pcq (fun w => Tab.risingFrom_filter _ w) h
  exact Kept_upd (t := { s with pcq := q }) rfl rfl rfl rfl rfl rfl rfl rfl rfl rfl rfl rfl rfl hq

theorem loadTags_kept {s0 : State} {s : State} {a2 : Nat} {a3 : Nat} {a4 : List Byte} (h : Kept s0 s) : Kept s0 (loadTags s a2 a3 a4) := by
  unfold loadTags
  repeat' with_reducible first | assumption | refine Kept_foldl (fun _ _ _ => ?_) _ ?_ | refine Kept_foldl1 (fun _ _ _ => ?_) _ ?_ | apply setTag_kept

theorem setCopy_kept {s0 : State} {s : State} {a2 : Nat} {a3 : Copy} (h : Kept s0 s) : Kept s0 (setCopy s a2 a3) := by
  unfold setCopy
  repeat' with_reducible first | assumption | apply setEngine_kept

theorem leave_kept {s0 : State} {s : State} {a2 : Nat} {a3 : Nat} {a4 : Nat} (h : Kept s0 s) : Kept s0 (leave s a2 a3 a4) := by
  unfold leave
  repeat' with_reducible first | assumption | apply setEngine_kept

theorem requestStream_kept {s0 : State} {s : State} {a2 : Nat} {a3 : Nat} {a4 : Nat} {a5 : Side} {a6 : Nat} (h : Kept s0 s) : Kept s0 (requestStream s a2 a3 a4 a5 a6).1 := by
  unfold requestStream
  repeat' with_reducible first | assumption | apply requestShares_kept

theorem askSource_kept {s0 : State} {s : State} {a2 : Nat} {a3 : Nat} {a4 : Nat} {a5 : Copy} (h : Kept s0 s) : Kept s0 (askSource s a2 a3 a4 a5).1 := by
  unfold askSource
  repeat' with_reducible first | assumption | apply requestStream_kept | fail_if_no_progress (refine Kept_upd rfl rfl rfl rfl rfl rfl rfl rfl rfl rfl rfl rfl rfl ?_) | split

theorem beginMove_kept {s0 : State} {s : State} {a2 : Nat} {a3 : Nat} {a4 : Copy} (h : Kept s0 s) : Kept s0 (beginMove s a2 a3 a4) := by
  unfold beginMove
  repeat' with_reducible first | assumption | apply requestStream_kept | apply setCopy_kept | fail_if_no_progress (refine Kept_upd rfl rfl rfl rfl rfl rfl rfl rfl rfl rfl rfl rfl rfl ?_) | split

theorem endPass_kept {s0 : State} {s : State} {a2 : Nat} {a3 : Copy} (h : Kept s0 s) : Kept s0 (endPass s a2 a3) := by
  unfold endPass
  repeat' with_reducible first | assumption | apply askSource_kept | apply beginMove_kept

theorem sendWriteUnit_kept {s0 : State} {s : State} {a2 : Nat} {a3 : Nat} {a4 : Nat} {a5 : Nat} {a6 : Nat} {a7 : List (Nat × List Byte)} (h : Kept s0 s) : Kept s0 (sendWriteUnit s a2 a3 a4 a5 a6 a7) := by
  unfold sendWriteUnit
  repeat' with_reducible first | assumption | apply sendWrite_kept | apply addPend_kept | split

theorem sendReadUnit_kept {s0 : State} {s : State} {a2 : Nat} {a3 : Nat} {a4 : Nat} {a5 : Nat} {a6 : Nat} {a7 : Nat × Nat × List (Nat × Nat × Nat)} (h : Kept s0 s) : Kept s0 (sendReadUnit s a2 a3 a4 a5 a6 a7) := by
  unfold sendReadUnit
  repeat' with_reducible first | assumption | apply sendReq_kept | apply addPend_kept

theorem countKib_kept {s0 : State} {s : State} {a2 : Nat} {a3 : Nat} (h : Kept s0 s) : Kept s0 (countKib s a2 a3) := by
  unfold countKib
  repeat' with_reducible first | assumption | apply bump_kept | apply setCopy_kept | fail_if_no_progress (refine Kept_upd rfl rfl rfl rfl rfl rfl rfl rfl rfl rfl rfl rfl rfl ?_) | split

theorem endCopy_kept {s0 : State} {s : State} {a2 : Nat} {a3 : Copy} {a4 : Nat} {a5 : Nat} {a6 : Nat} (h : Kept s0 s) : Kept s0 (endCopy s a2 a3 a4 a5 a6) := by
  unfold endCopy
  repeat' with_reducible first | assumption | apply leave_kept | apply dropPends_kept | apply countStreams_kept | apply releaseSieve_kept | split

theorem stopCopy_kept {s0 : State} {s : State} {a2 : Nat} {a3 : Copy} {a4 : Nat} {a5 : Nat} {a6 : Nat} {a7 : Bool} (h : Kept s0 s) : Kept s0 (stopCopy s a2 a3 a4 a5 a6 a7) := by
  unfold stopCopy
  repeat' with_reducible first | assumption | apply endCopy_kept | apply postAt_kept

theorem failCopy_kept {s0 : State} {s : State} {a2 : Nat} {a3 : Nat} {a4 : Nat} (h : Kept s0 s) : Kept s0 (failCopy s a2 a3 a4) := by
  unfold failCopy
  repeat' with_reducible first | assumption | apply stopCopy_kept | fail_if_no_progress (refine Kept_upd rfl rfl rfl rfl rfl rfl rfl rfl rfl rfl rfl rfl rfl ?_) | split

theorem postError_kept {s0 : State} {s : State} {a2 : Nat} {a3 : Copy} {a4 : Nat} (h : Kept s0 s) : Kept s0 (postError s a2 a3 a4) := by
  unfold postError
  repeat' with_reducible first | assumption | apply stopCopy_kept

theorem carryAll_kept {s0 : State} {s : State} {a2 : Nat} {a3 : Bool} {a4 : Nat} {a5 : List (Nat × Nat)} (h : Kept s0 s) : Kept s0 (carryAll s a2 a3 a4 a5).1 := by
  unfold carryAll
  repeat' with_reducible first | assumption | refine Kept_foldl (fun _ _ _ => ?_) _ ?_ | refine Kept_foldl1 (fun _ _ _ => ?_) _ ?_ | apply carry_kept | split

theorem noteInvalid_kept {s0 : State} {s : State} {a2 : Nat} {a3 : Copy} {a4 : Nat} {a5 : Nat} (h : Kept s0 s) : Kept s0 (noteInvalid s a2 a3 a4 a5) := by
  unfold noteInvalid
  repeat' with_reducible first | assumption | apply notice_kept | split

theorem commitUnits_kept {s0 : State} {s : State} {a2 : Nat} {a3 : Copy} {a4 : Nat} {a5 : Nat} {a6 : List OutUnit} (h : Kept s0 s) : Kept s0 (commitUnits s a2 a3 a4 a5 a6) := by
  unfold commitUnits
  repeat' with_reducible first | assumption | refine Kept_foldl (fun _ _ _ => ?_) _ ?_ | refine Kept_foldl1 (fun _ _ _ => ?_) _ ?_ | apply countKib_kept | apply setCopy_kept | apply loadTags_kept | apply failCopy_kept | apply sendWriteUnit_kept | apply noteInvalid_kept | apply storeUnit_kept | apply touchKiln_kept | fail_if_no_progress (refine Kept_upd rfl rfl rfl rfl rfl rfl rfl rfl rfl rfl rfl rfl rfl ?_) | split | extract_lets

theorem commitNext_kept {s0 : State} {s : State} {a2 : Nat} {a3 : Copy} (h : Kept s0 s) : Kept s0 (commitNext s a2 a3) := by
  unfold commitNext
  repeat' with_reducible first | assumption | apply setCopy_kept | apply carry_kept | apply carryAll_kept | apply commitUnits_kept | fail_if_no_progress (refine Kept_upd rfl rfl rfl rfl rfl rfl rfl rfl rfl rfl rfl rfl rfl ?_) | split | extract_lets | refine Kept_ite ?_ ?_ | refine Kept_ite1 ?_ ?_

theorem takeNext_kept {s0 : State} {s : State} {a2 : Nat} {a3 : Copy} (h : Kept s0 s) : Kept s0 (takeNext s a2 a3) := by
  unfold takeNext
  repeat' with_reducible first | assumption | refine Kept_foldl (fun _ _ _ => ?_) _ ?_ | refine Kept_foldl1 (fun _ _ _ => ?_) _ ?_ | apply carry_kept | apply carryAll_kept | apply setCopy_kept | apply touchKiln_kept | apply endPass_kept | fail_if_no_progress (refine Kept_upd rfl rfl rfl rfl rfl rfl rfl rfl rfl rfl rfl rfl rfl ?_) | split | extract_lets | refine Kept_ite ?_ ?_

theorem askNext_kept {s0 : State} {s : State} {a2 : Nat} {a3 : Copy} (h : Kept s0 s) : Kept s0 (askNext s a2 a3) := by
  unfold askNext
  repeat' with_reducible first | assumption | refine Kept_foldl (fun _ _ _ => ?_) _ ?_ | refine Kept_foldl1 (fun _ _ _ => ?_) _ ?_ | apply failCopy_kept | apply setCopy_kept | apply sendReadUnit_kept | fail_if_no_progress (refine Kept_upd rfl rfl rfl rfl rfl rfl rfl rfl rfl rfl rfl rfl rfl ?_) | split | extract_lets

theorem checkCopy_kept {s0 : State} {s : State} {a2 : Nat} {a3 : Copy} (h : Kept s0 s) : Kept s0 (checkCopy s a2 a3) := by
  unfold checkCopy
  repeat' with_reducible first | assumption | apply postLater_kept | apply leave_kept | apply askSource_kept | apply setCopy_kept | apply beginMove_kept | fail_if_no_progress (refine Kept_upd rfl rfl rfl rfl rfl rfl rfl rfl rfl rfl rfl rfl rfl ?_) | split | extract_lets

theorem copyStep_kept {s0 : State} {s : State} {a2 : Nat} {a3 : Nat} {a4 : Nat} (h : Kept s0 s) : Kept s0 (copyStep s a2 a3 a4) := by
  unfold copyStep
  repeat' with_reducible first | assumption | apply commitNext_kept | apply askNext_kept | apply takeNext_kept | apply checkCopy_kept | fail_if_no_progress (refine Kept_upd rfl rfl rfl rfl rfl rfl rfl rfl rfl rfl rfl rfl rfl ?_) | split

theorem finishCopy_kept {s0 : State} {s : State} {a2 : Nat} {a3 : Copy} {a4 : Nat} (h : Kept s0 s) : Kept s0 (finishCopy s a2 a3 a4) := by
  unfold finishCopy
  repeat' with_reducible first | assumption | apply endCopy_kept | apply finishTag_kept | apply postAt_kept | split

theorem haltCopy_kept {s0 : State} {a1 : Nat} {a2 : Nat} {a3 : Nat} {s : State} {a5 : Copy} (h : Kept s0 s) : Kept s0 (haltCopy a1 a2 a3 s a5) := by
  unfold haltCopy
  repeat' with_reducible first | assumption | apply postError_kept | apply finishCopy_kept | apply stopCopy_kept | fail_if_no_progress (refine Kept_upd rfl rfl rfl rfl rfl rfl rfl rfl rfl rfl rfl rfl rfl ?_) | split

theorem stopEngine_kept {s0 : State} {a1 : Nat} {a2 : Nat} {s : State} {a4 : Nat} (h : Kept s0 s) : Kept s0 (stopEngine a1 a2 s a4) := by
  unfold stopEngine
  repeat' with_reducible first | assumption | refine Kept_foldl (fun _ _ _ => ?_) _ ?_ | refine Kept_foldl1 (fun _ _ _ => ?_) _ ?_ | apply haltCopy_kept

theorem abandonPce_kept {s0 : State} {s : State} {a2 : Nat} {a3 : Nat} (h : Kept s0 s) : Kept s0 (abandonPce s a2 a3) := by
  unfold abandonPce
  repeat' with_reducible first | assumption | refine Kept_foldl (fun _ _ _ => ?_) _ ?_ | refine Kept_foldl1 (fun _ _ _ => ?_) _ ?_ | apply stopChecks_kept | apply stopEngine_kept

theorem acceptCopy_kept {s0 : State} {s : State} {a2 : Nat} {a3 : Nat} {a4 : Nat} {a5 : Option Nat} {a6 : List Byte} (h : Kept s0 s) : Kept s0 (acceptCopy s a2 a3 a4 a5 a6) := by
  unfold acceptCopy
  repeat' with_reducible first | assumption | apply setEngine_kept

theorem takeCopy_kept {s0 : State} {a1 : Nat} {a2 : Nat} {s : State} (h : Kept s0 s) : KeptR s0 (takeCopy a1 a2 s) := by
  unfold takeCopy
  repeat' with_reducible first | assumption | exact KeptR_fault | apply KeptR_ok | apply ok_kept | apply acceptCopy_kept | fail_if_no_progress (refine Kept_upd rfl rfl rfl rfl rfl rfl rfl rfl rfl rfl rfl rfl rfl ?_) | split | extract_lets | refine Kept_ite ?_ ?_ | refine Kept_ite1 ?_ ?_ | refine Kept_pair (by assumption) ?_ | refine takeIssue_kept (by assumption) ?_

theorem sieveFail_kept {s0 : State} {s : State} {a2 : Nat} {a3 : Copy} {a4 : Nat} {a5 : Nat} {a6 : Bool} (h : Kept s0 s) : Kept s0 (sieveFail s a2 a3 a4 a5 a6) := by
  unfold sieveFail
  repeat' with_reducible first | assumption | apply countStreams_kept | apply leave_kept | apply postAt_kept | apply releaseSieve_kept

theorem sieveConvert_kept {s0 : State} {s : State} {a2 : Nat} {a3 : Copy} {a4 : Nat} (h : Kept s0 s) : Kept s0 (sieveConvert s a2 a3 a4) := by
  unfold sieveConvert
  repeat' with_reducible first | assumption | apply sieveFail_kept | apply bump_kept | apply notice_kept | apply setCopy_kept | apply beginMove_kept | fail_if_no_progress (refine Kept_upd rfl rfl rfl rfl rfl rfl rfl rfl rfl rfl rfl rfl rfl ?_) | split | extract_lets | refine Kept_ite ?_ ?_

theorem countWaits_kept {s0 : State} {a1 : Nat} {s : State} {a3 : Copy} (h : Kept s0 s) : Kept s0 (countWaits a1 s a3) := by
  unfold countWaits
  repeat' with_reducible first | assumption | apply bump_kept | apply setCopy_kept | fail_if_no_progress (refine Kept_upd rfl rfl rfl rfl rfl rfl rfl rfl rfl rfl rfl rfl rfl ?_) | split | extract_lets | refine Kept_ite ?_ ?_

theorem dropPart_kept {s0 : State} {s : State} {a2 : Nat} {a3 : Nat} (h : Kept s0 s) : Kept s0 (dropPart s a2 a3) := by
  unfold dropPart
  repeat' with_reducible first | assumption | apply freeCells_kept | apply setQueue_kept

theorem addPart_kept {s0 : State} {s : State} {a2 : Nat} {a3 : Nat} {a4 : Nat} {a5 : Nat} {a6 : Nat} {a7 : List Byte} (h : Kept s0 s) : Kept s0 (addPart s a2 a3 a4 a5 a6 a7) := by
  unfold addPart
  repeat' with_reducible first | assumption | apply allocCell_kept | apply addItem_kept | apply setQueue_kept | fail_if_no_progress (refine Kept_upd rfl rfl rfl rfl rfl rfl rfl rfl rfl rfl rfl rfl rfl ?_) | split | extract_lets

theorem setPlan_kept {s0 : State} {s : State} {a2 : PlanEnq} (h : Kept s0 s) : Kept s0 (setPlan s a2) := by
  unfold setPlan
  repeat' with_reducible first | assumption | fail_if_no_progress (refine Kept_upd rfl rfl rfl rfl rfl rfl rfl rfl rfl rfl rfl rfl rfl ?_)

theorem readPlan_kept {s0 : State} {s : State} {a2 : PlanEnq} (h : Kept s0 s) : Kept s0 (readPlan s a2) := by
  unfold readPlan
  repeat' with_reducible first | assumption | apply askEnq_kept | apply setPlan_kept | fail_if_no_progress (refine Kept_upd rfl rfl rfl rfl rfl rfl rfl rfl rfl rfl rfl rfl rfl ?_) | split

theorem planMeets_kept {s0 : State} {s : State} {a2 : PlanEnq} {a3 : Nat} {a4 : List Byte} (h : Kept s0 s) : Kept s0 (planMeets s a2 a3 a4) := by
  unfold planMeets
  repeat' with_reducible first | assumption | apply bump_kept | apply dropPart_kept | apply setPlan_kept | apply addPart_kept | fail_if_no_progress (refine Kept_upd rfl rfl rfl rfl rfl rfl rfl rfl rfl rfl rfl rfl rfl ?_) | split

theorem hostMeets_kept {s0 : State} {s : State} {a2 : Nat} {a3 : Nat} {a4 : List Byte} (h : Kept s0 s) : Kept s0 (hostMeets s a2 a3 a4) := by
  unfold hostMeets
  repeat' with_reducible first | assumption | apply setQueue_kept | apply bump_kept | apply dropPart_kept | apply notice_kept | apply addPart_kept | fail_if_no_progress (refine Kept_upd rfl rfl rfl rfl rfl rfl rfl rfl rfl rfl rfl rfl rfl ?_) | split | extract_lets

theorem countEnqWait_kept {s0 : State} {s : State} {a2 : Nat} (h : Kept s0 s) : Kept s0 (countEnqWait s a2) := by
  unfold countEnqWait
  repeat' with_reducible first | assumption | apply bump_kept | fail_if_no_progress (refine Kept_upd rfl rfl rfl rfl rfl rfl rfl rfl rfl rfl rfl rfl rfl ?_) | split

theorem meetQueue_kept {s0 : State} {s : State} {a2 : EnqReq} {a3 : Nat} (h : Kept s0 s) : Kept s0 (meetQueue s a2 a3) := by
  unfold meetQueue
  repeat' with_reducible first | assumption | apply allocCell_kept | apply addItem_kept | apply bump_kept | apply hostMeets_kept | apply planMeets_kept | fail_if_no_progress (refine Kept_upd rfl rfl rfl rfl rfl rfl rfl rfl rfl rfl rfl rfl rfl ?_) | split

theorem grantEnq_kept {s0 : State} {s : State} {c : Nat} (h : Kept s0 s) : Kept s0 (grantEnq s c) := by
  unfold grantEnq
  extract_lets l turn first s1 s2
  have h1 : Kept s0 s1 := countEnqWait_kept h
  have h2 : Kept s0 s2 := by
    subst s2; split
    · exact h1
    · exact bump_kept h1
  clear_value first s2
  cases first with
  | none => exact h
  | some w => exact meetQueue_kept (Kept_upd rfl rfl rfl rfl rfl rfl rfl rfl rfl rfl rfl rfl rfl h2)

end Sys2Proof.Machine
end

