-- ==== Sys2Proof/Laws/KeptColl.lean ====
section
/-! SUPPORT. Collectives, settling and the units of a tile keep what Kept says (Laws/Kept.lean): one lemma
for each operation and each meaning. -/

namespace Sys2Proof.Machine

theorem setGrp_kept {s0 : State} {s : State} {a2 : Nat} {a3 : Grp} (h : Kept s0 s) : Kept s0 (setGrp s a2 a3) := by
  unfold setGrp
  repeat' with_reducible first | assumption | fail_if_no_progress (refine Kept_upd rfl rfl rfl rfl rfl rfl rfl rfl rfl rfl rfl rfl rfl ?_)

theorem setOp_kept {s0 : State} {s : State} {a2 : COp} (h : Kept s0 s) : Kept s0 (setOp s a2) := by
  unfold setOp
  repeat' with_reducible first | assumption | fail_if_no_progress (refine Kept_upd rfl rfl rfl rfl rfl rfl rfl rfl rfl rfl rfl rfl rfl ?_)

theorem sendCtlAt_kept {s0 : State} {s : State} {a2 : Nat} {a3 : Nat} {a4 : ColCtl} (h : Kept s0 s) : Kept s0 (sendCtlAt s a2 a3 a4) := by
  unfold sendCtlAt
  repeat' with_reducible first | assumption | apply sendReq_kept

theorem sendCtl_kept {s0 : State} {s : State} {a2 : Nat} {a3 : ColCtl} (h : Kept s0 s) : Kept s0 (sendCtl s a2 a3) := by
  unfold sendCtl
  repeat' with_reducible first | assumption | apply sendCtlAt_kept

theorem sendFrit_kept {s0 : State} {s : State} {a2 : Nat} {a3 : Nat} {a4 : List Byte} (h : Kept s0 s) : Kept s0 (sendFrit s a2 a3 a4) := by
  unfold sendFrit
  repeat' with_reducible first | assumption | apply routeCell_kept

theorem sendReform_kept {s0 : State} {s : State} {a2 : Nat} {a3 : Nat} {a4 : Nat} {a5 : Nat} {a6 : Nat} {a7 : List Nat} (h : Kept s0 s) : Kept s0 (sendReform s a2 a3 a4 a5 a6 a7) := by
  induction a6 generalizing s a7 with
  | zero => unfold sendReform; exact h
  | succ n ih =>
    unfold sendReform; dsimp only
    split
    · exact sendFrit_kept h
    · exact ih (sendFrit_kept h)

theorem genDrop_kept {s0 : State} {s : State} (h : Kept s0 s) : Kept s0 (genDrop s) := by
  unfold genDrop
  repeat' with_reducible first | assumption | apply bump_kept

theorem removeMember_kept {s0 : State} {s : State} {a2 : Nat} {a3 : Nat} (h : Kept s0 s) : Kept s0 (removeMember s a2 a3) := by
  unfold removeMember
  repeat' with_reducible first | assumption | refine Kept_foldl (fun _ _ _ => ?_) _ ?_ | refine Kept_foldl1 (fun _ _ _ => ?_) _ ?_ | apply setGrp_kept | apply sendReform_kept | fail_if_no_progress (refine Kept_upd rfl rfl rfl rfl rfl rfl rfl rfl rfl rfl rfl rfl rfl ?_) | split

theorem keeperMiss_kept {s0 : State} {s : State} {a2 : Nat} {a3 : Nat} {a4 : Nat} {a5 : Nat} (h : Kept s0 s) : Kept s0 (keeperMiss s a2 a3 a4 a5) := by
  unfold keeperMiss
  repeat' with_reducible first | assumption | apply removeMember_kept | apply setGrp_kept | fail_if_no_progress (refine Kept_upd rfl rfl rfl rfl rfl rfl rfl rfl rfl rfl rfl rfl rfl ?_) | split | extract_lets

theorem takeMiss_kept {s0 : State} {s : State} {a2 : Nat} {a3 : Nat} {a4 : Nat} {a5 : Nat} (h : Kept s0 s) : Kept s0 (takeMiss s a2 a3 a4 a5) := by
  unfold takeMiss
  repeat' with_reducible first | assumption | refine Kept_foldl (fun _ _ _ => ?_) _ ?_ | refine Kept_foldl1 (fun _ _ _ => ?_) _ ?_ | apply keeperMiss_kept

theorem reportMiss_kept {s0 : State} {s : State} {a2 : Nat} {a3 : Nat} {a4 : Nat} (h : Kept s0 s) : Kept s0 (reportMiss s a2 a3 a4) := by
  unfold reportMiss
  repeat' with_reducible first | assumption | apply takeMiss_kept | apply sendFrit_kept | fail_if_no_progress (refine Kept_upd rfl rfl rfl rfl rfl rfl rfl rfl rfl rfl rfl rfl rfl ?_) | split

theorem admPut_kept {s0 : State} {s : State} {a2 : COp} {a3 : CSub} (h : Kept s0 s) : Kept s0 (admPut s a2 a3) := by
  unfold admPut
  repeat' with_reducible first | assumption | apply enqCell_kept

theorem admTake_kept {s0 : State} {s : State} {a2 : COp} {a3 : CSub} (h : Kept s0 s) : Kept s0 (admTake s a2 a3) := by
  unfold admTake
  repeat' with_reducible first | assumption | apply freeCells_kept | apply setQueue_kept | fail_if_no_progress (refine Kept_upd rfl rfl rfl rfl rfl rfl rfl rfl rfl rfl rfl rfl rfl ?_) | split | extract_lets

theorem admEnd_kept {s0 : State} {s : State} {a2 : COp} {a3 : CSub} (h : Kept s0 s) : Kept s0 (admEnd s a2 a3) := by
  unfold admEnd
  repeat' with_reducible first | assumption | apply bump_kept | apply admTake_kept | fail_if_no_progress (refine Kept_upd rfl rfl rfl rfl rfl rfl rfl rfl rfl rfl rfl rfl rfl ?_) | split

theorem startStream_kept {s0 : State} {s : State} {a2 : COp} {a3 : Nat} {a4 : Nat} {a5 : ColUse} (h : Kept s0 s) : Kept s0 (startStream s a2 a3 a4 a5) := by
  unfold startStream
  repeat' with_reducible first | assumption | apply requestShares_kept | fail_if_no_progress (refine Kept_upd rfl rfl rfl rfl rfl rfl rfl rfl rfl rfl rfl rfl rfl ?_)

theorem setStream_kept {s0 : State} {s : State} {a2 : ColStream} (h : Kept s0 s) : Kept s0 (setStream s a2) := by
  unfold setStream
  repeat' with_reducible first | assumption | fail_if_no_progress (refine Kept_upd rfl rfl rfl rfl rfl rfl rfl rfl rfl rfl rfl rfl rfl ?_)

theorem endStream_kept {s0 : State} {s : State} {a2 : ColStream} (h : Kept s0 s) : Kept s0 (endStream s a2) := by
  unfold endStream
  repeat' with_reducible first | assumption | apply countStreams_kept | fail_if_no_progress (refine Kept_upd rfl rfl rfl rfl rfl rfl rfl rfl rfl rfl rfl rfl rfl ?_)

theorem endStreams_kept {s0 : State} {s : State} {a2 : ColStream → Bool} (h : Kept s0 s) : Kept s0 (endStreams s a2) := by
  unfold endStreams
  repeat' with_reducible first | assumption | refine Kept_foldl (fun _ _ _ => ?_) _ ?_ | refine Kept_foldl1 (fun _ _ _ => ?_) _ ?_ | apply endStream_kept

theorem dropOp_kept {s0 : State} {s : State} {a2 : COp} (h : Kept s0 s) : Kept s0 (dropOp s a2) := by
  unfold dropOp
  repeat' with_reducible first | assumption | refine Kept_foldl (fun _ _ _ => ?_) _ ?_ | refine Kept_foldl1 (fun _ _ _ => ?_) _ ?_ | apply admEnd_kept | apply endStreams_kept | apply setGrp_kept | fail_if_no_progress (refine Kept_upd rfl rfl rfl rfl rfl rfl rfl rfl rfl rfl rfl rfl rfl ?_) | split

theorem endOp_kept {s0 : State} {s : State} {a2 : COp} {a3 : Nat} (h : Kept s0 s) : Kept s0 (endOp s a2 a3) := by
  unfold endOp
  repeat' with_reducible first | assumption | apply dropOp_kept | apply wr_kept | apply postNow_kept | split

theorem failOp_kept {s0 : State} {s : State} {a2 : COp} {a3 : Nat} {a4 : List Nat} (h : Kept s0 s) : Kept s0 (failOp s a2 a3 a4) := by
  unfold failOp
  repeat' with_reducible first | assumption | refine Kept_foldl (fun _ _ _ => ?_) _ ?_ | refine Kept_foldl1 (fun _ _ _ => ?_) _ ?_ | apply sendFrit_kept | apply sendCtl_kept | apply endOp_kept | split

theorem abandonCol_kept {s0 : State} {s : State} (h : Kept s0 s) : Kept s0 (abandonCol s) := by
  unfold abandonCol
  repeat' with_reducible first | assumption | refine Kept_foldl (fun _ _ _ => ?_) _ ?_ | refine Kept_foldl1 (fun _ _ _ => ?_) _ ?_ | apply endOp_kept | fail_if_no_progress (refine Kept_upd rfl rfl rfl rfl rfl rfl rfl rfl rfl rfl rfl rfl rfl ?_)

theorem checkPart_kept {s0 : State} {s : State} {a2 : COp} {a3 : Nat} (h : Kept s0 s) : Kept s0 (checkPart s a2 a3) := by
  unfold checkPart
  repeat' with_reducible first | assumption | apply startStream_kept

theorem acceptCol_kept {s0 : State} {s : State} {a2 : Nat} {a3 : Nat} {a4 : Nat} {a5 : List Byte} (h : Kept s0 s) : Kept s0 (acceptCol s a2 a3 a4 a5).1 := by
  unfold acceptCol
  repeat' with_reducible first | assumption | apply postLater_kept | apply setGrp_kept | apply checkPart_kept | fail_if_no_progress (refine Kept_upd rfl rfl rfl rfl rfl rfl rfl rfl rfl rfl rfl rfl rfl ?_) | split | extract_lets

theorem reformOps_kept {s0 : State} {s : State} {a2 : Nat} (h : Kept s0 s) : Kept s0 (reformOps s a2) := by
  unfold reformOps
  repeat' with_reducible first | assumption | refine Kept_foldl (fun _ _ _ => ?_) _ ?_ | refine Kept_foldl1 (fun _ _ _ => ?_) _ ?_ | apply endOp_kept

theorem loadGroup_kept {s0 : State} {s : State} {a2 : Nat} (h : Kept s0 s) : Kept s0 (loadGroup s a2) := by
  unfold loadGroup
  repeat' with_reducible first | assumption | apply reformOps_kept | apply setGrp_kept | apply postNow_kept | split | extract_lets

theorem applyReform_kept {s0 : State} {s : State} {a2 : Nat} {a3 : Grp} {a4 : Nat × Nat × List Nat} (h : Kept s0 s) : Kept s0 (applyReform s a2 a3 a4) := by
  unfold applyReform
  repeat' with_reducible first | assumption | refine Kept_foldl (fun _ _ _ => ?_) _ ?_ | refine Kept_foldl1 (fun _ _ _ => ?_) _ ?_ | apply reformOps_kept | apply store_kept | apply setGrp_kept | apply bump_kept | apply notice_kept

theorem reformGroup_kept {s0 : State} {a1 : Nat} {s : State} {a3 : Nat} (h : Kept s0 s) : Kept s0 (reformGroup a1 s a3) := by
  unfold reformGroup
  repeat' with_reducible first | assumption | refine Kept_foldl (fun _ _ _ => ?_) _ ?_ | refine Kept_foldl1 (fun _ _ _ => ?_) _ ?_ | apply applyReform_kept | fail_if_no_progress (refine Kept_upd rfl rfl rfl rfl rfl rfl rfl rfl rfl rfl rfl rfl rfl ?_) | split

theorem colTurn_kept {s0 : State} {s : State} {a2 : Nat} {a3 : Nat} {a4 : Nat} (h : Kept s0 s) : Kept s0 (colTurn s a2 a3 a4) := by
  unfold colTurn
  repeat' with_reducible first | assumption | refine Kept_foldl (fun _ _ _ => ?_) _ ?_ | refine Kept_foldl1 (fun _ _ _ => ?_) _ ?_ | apply reformGroup_kept | apply loadGroup_kept | apply wr_kept | fail_if_no_progress (refine Kept_upd rfl rfl rfl rfl rfl rfl rfl rfl rfl rfl rfl rfl rfl ?_) | split | extract_lets

theorem execColGcmdWrite_kept {s0 : State} {a1 : BitVec 64} {s : State} (h : Kept s0 s) : KeptR s0 (execColGcmdWrite a1 s) := by
  unfold execColGcmdWrite
  repeat' with_reducible first | assumption | exact KeptR_fault | apply KeptR_ok | apply ok_kept | apply notice_kept | apply wrs_kept | split | extract_lets

theorem applyPools_kept {s0 : State} {s : State} (h : Kept s0 s) : Kept s0 (applyPools s) := by
  unfold applyPools
  repeat' with_reducible first | assumption | fail_if_no_progress (refine Kept_upd rfl rfl rfl rfl rfl rfl rfl rfl rfl rfl rfl rfl rfl ?_)

theorem execColPoolWrite_kept {s0 : State} {a1 : BitVec 64} {s : State} (h : Kept s0 s) : KeptR s0 (execColPoolWrite a1 s) := by
  unfold execColPoolWrite
  repeat' with_reducible first | assumption | exact KeptR_fault | apply KeptR_ok | apply ok_kept | apply notice_kept | apply wrs_kept | apply applyPools_kept | fail_if_no_progress (refine Kept_upd rfl rfl rfl rfl rfl rfl rfl rfl rfl rfl rfl rfl rfl ?_) | split | extract_lets

theorem execColPoolApply_kept {s0 : State} {s : State} (h : Kept s0 s) : KeptR s0 (execColPoolApply s) := by
  unfold execColPoolApply
  repeat' with_reducible first | assumption | exact KeptR_fault | apply KeptR_ok | apply ok_kept | apply applyPools_kept | split

theorem putSub_kept {s0 : State} {s : State} {a2 : COp} {a3 : CSub} (h : Kept s0 s) : Kept s0 (putSub s a2 a3) := by
  unfold putSub
  repeat' with_reducible first | assumption | apply setOp_kept

theorem excludeKid_kept {s0 : State} {s : State} {a2 : COp} {a3 : CSub} {a4 : Nat} {a5 : Nat} {a6 : Nat} (h : Kept s0 s) : Kept s0 (excludeKid s a2 a3 a4 a5 a6).1 := by
  unfold excludeKid
  repeat' with_reducible first | assumption | apply bump_kept | apply notice_kept | apply endStreams_kept | apply sendCtl_kept | apply reportMiss_kept | fail_if_no_progress (refine Kept_upd rfl rfl rfl rfl rfl rfl rfl rfl rfl rfl rfl rfl rfl ?_) | split

theorem lateSub_kept {s0 : State} {s : State} {a2 : COp} {a3 : CSub} (h : Kept s0 s) : Kept s0 (lateSub s a2 a3).1 := by
  unfold lateSub
  repeat' with_reducible first | assumption | refine Kept_foldl (fun _ _ _ => ?_) _ ?_ | refine Kept_foldl1 (fun _ _ _ => ?_) _ ?_ | apply excludeKid_kept

theorem colStore_kept {s0 s : State} {a : Nat} {bs : List Byte} {y : State × Nat} (e : colStore s a bs = .ok y) (h : Kept s0 s) : Kept s0 y.1 := by
  unfold colStore at e
  split at e
  · cases e; exact h
  · split at e
    · cases e
    · split at e
      · cases e
      · cases e; exact store_kept (memAccess_kept (carry_kept h))

theorem writeColBricks_kept {s0 s : State} {o : COp} {fmt n : Nat} {a : Nat × Nat} {d c : List Byte} {y : State × COp}
    (e : writeColBricks s o fmt n a d c = .ok y) (h : Kept s0 s) : Kept s0 y.1 := by
  unfold writeColBricks at e
  split at e
  · cases e
  · rename_i x hx
    split at e
    · cases e
    · rename_i z hz; cases e; exact colStore_kept hz (colStore_kept hx h)

theorem writeColBricks_err {s0 s s' : State} {o : COp} {fmt n : Nat} {a : Nat × Nat} {d c : List Byte}
    (e : writeColBricks s o fmt n a d c = .error s') (h : Kept s0 s) : Kept s0 s' := by
  unfold writeColBricks at e
  split at e
  · cases e; exact failOp_kept h
  · rename_i x hx
    split at e
    · cases e; exact failOp_kept (colStore_kept hx h)
    · cases e

theorem pipeIn_kept {s0 : State} {s : State} {a2 : Nat} (h : Kept s0 s) : Kept s0 (pipeIn s a2).1 := by
  unfold pipeIn
  repeat' with_reducible first | assumption | refine Kept_foldl (fun _ _ _ => ?_) _ ?_ | refine Kept_foldl1 (fun _ _ _ => ?_) _ ?_ | fail_if_no_progress (refine Kept_upd rfl rfl rfl rfl rfl rfl rfl rfl rfl rfl rfl rfl rfl ?_)

theorem enterSlot_kept {s0 : State} {t j : Nat} {r : State × CChunk} (h : Kept s0 r.1) : Kept s0 (enterSlot t r j).1 := by
  unfold enterSlot
  split <;> exact pipeIn_kept h

theorem enterSlots_kept {s0 s : State} {x : CChunk} {t n : Nat} (h : Kept s0 s) : Kept s0 (enterSlots s x t n).1 := by
  unfold enterSlots
  exact Kept_foldl1 (fun _ _ k => enterSlot_kept k) _ h

theorem putChunk_kept {s0 : State} {s : State} {a2 : COp} {a3 : CSub} {a4 : CChunk} (h : Kept s0 s) : Kept s0 (putChunk s a2 a3 a4) := by
  unfold putChunk
  repeat' with_reducible first | assumption | apply putSub_kept

theorem ownPart_kept {s0 : State} {s : State} {a2 : COp} {a3 : CSub} {a4 : Nat} {a5 : Nat} (h : Kept s0 s) : Kept s0 (ownPart s a2 a3 a4 a5) := by
  unfold ownPart
  repeat' with_reducible first | assumption | apply startStream_kept

theorem sendFrom_kept {s0 : State} {s : State} {a2 : Nat} {a3 : Nat} {a4 : Nat} {a5 : Nat} {a6 : Nat} {a7 : Nat} {a8 : List Byte} (h : Kept s0 s) : Kept s0 (sendFrom s a2 a3 a4 a5 a6 a7 a8) := by
  unfold sendFrom
  repeat' with_reducible first | assumption | refine Kept_foldl (fun _ _ _ => ?_) _ ?_ | refine Kept_foldl1 (fun _ _ _ => ?_) _ ?_ | apply sendReq_kept

theorem sendCells_kept {s0 : State} {s : State} {a2 : Nat} {a3 : Nat} {a4 : Nat} {a5 : Nat} {a6 : List Byte} (h : Kept s0 s) : Kept s0 (sendCells s a2 a3 a4 a5 a6) := by
  unfold sendCells
  repeat' with_reducible first | assumption | apply sendFrom_kept

theorem markLeaving_kept {s0 : State} {s : State} {a2 : COp} {a3 : CSub} {a4 : CChunk} {a5 : Nat} (h : Kept s0 s) : Kept s0 (markLeaving s a2 a3 a4 a5) := by
  unfold markLeaving
  repeat' with_reducible first | assumption | apply putChunk_kept

theorem streamUp_kept {s0 : State} {s : State} {a2 : COp} {a3 : CSub} {a4 : Nat} {a5 : CChunk} (h : Kept s0 s) : Kept s0 (streamUp s a2 a3 a4 a5) := by
  unfold streamUp
  repeat' with_reducible first | assumption | apply sendCells_kept | apply markLeaving_kept

theorem leafUp_kept {s0 : State} {s : State} {a2 : COp} {a3 : CSub} {a4 : Nat} {a5 : CChunk} {a6 : List Byte} (h : Kept s0 s) : Kept s0 (leafUp s a2 a3 a4 a5 a6) := by
  unfold leafUp
  repeat' with_reducible first | assumption | apply sendCells_kept | apply markLeaving_kept | split

theorem streamDown_kept {s0 : State} {s : State} {a2 : COp} {a3 : CSub} {a4 : Nat} {a5 : Nat} (h : Kept s0 s) : Kept s0 (streamDown s a2 a3 a4 a5) := by
  unfold streamDown
  repeat' with_reducible first | assumption | apply startStream_kept

theorem resyncTo_kept {s0 : State} {s : State} {a2 : Nat} {a3 : Nat} (h : Kept s0 s) : Kept s0 (resyncTo s a2 a3) := by
  unfold resyncTo
  repeat' with_reducible first | assumption | fail_if_no_progress (refine Kept_upd rfl rfl rfl rfl rfl rfl rfl rfl rfl rfl rfl rfl rfl ?_)

theorem stepSeen_kept {s0 : State} {s : State} {a2 : COp} {a3 : Nat} (h : Kept s0 s) : Kept s0 (stepSeen s a2 a3) := by
  unfold stepSeen
  repeat' with_reducible first | assumption | apply resyncTo_kept | apply wr_kept | apply bump_kept | split

theorem lagSeen_kept {s0 : State} {s : State} {a2 : Nat} {a3 : Nat} (h : Kept s0 s) : Kept s0 (lagSeen s a2 a3) := by
  unfold lagSeen
  repeat' with_reducible first | assumption | apply wrs_kept

theorem closeSub_kept {s0 : State} {s : State} {a2 : COp} {a3 : CSub} {a4 : List Byte} (h : Kept s0 s) : Kept s0 (closeSub s a2 a3 a4) := by
  unfold closeSub
  repeat' with_reducible first | assumption | refine colStore_kept (by assumption) ?_ | apply failOp_kept | apply ok_kept | apply lagSeen_kept | apply stepSeen_kept | apply admEnd_kept | apply putSub_kept | fail_if_no_progress (refine Kept_upd rfl rfl rfl rfl rfl rfl rfl rfl rfl rfl rfl rfl rfl ?_) | split

theorem sendReady_kept {s0 : State} {s : State} {a2 : COp} {a3 : CSub} {a4 : Nat} (h : Kept s0 s) : Kept s0 (sendReady s a2 a3 a4) := by
  unfold sendReady
  repeat' with_reducible first | assumption | apply sendCtl_kept | fail_if_no_progress (refine Kept_upd rfl rfl rfl rfl rfl rfl rfl rfl rfl rfl rfl rfl rfl ?_) | split

theorem sendOpen_kept {s0 : State} {s : State} {a2 : COp} {a3 : CSub} {a4 : Nat} (h : Kept s0 s) : Kept s0 (sendOpen s a2 a3 a4).1 := by
  unfold sendOpen
  repeat' with_reducible first | assumption | refine Kept_foldl (fun _ _ _ => ?_) _ ?_ | refine Kept_foldl1 (fun _ _ _ => ?_) _ ?_ | apply excludeKid_kept | apply sendCtl_kept | fail_if_no_progress (refine Kept_upd rfl rfl rfl rfl rfl rfl rfl rfl rfl rfl rfl rfl rfl ?_) | split

theorem takeOpen_kept {s0 : State} {s : State} {a2 : COp} {a3 : CSub} {a4 : ColCtl} (h : Kept s0 s) : Kept s0 (takeOpen s a2 a3 a4) := by
  unfold takeOpen
  repeat' with_reducible first | assumption | apply notice_kept | apply sendOpen_kept | apply putSub_kept | apply sendReady_kept | fail_if_no_progress (refine Kept_upd rfl rfl rfl rfl rfl rfl rfl rfl rfl rfl rfl rfl rfl ?_) | split | extract_lets | refine Kept_ite ?_ ?_

theorem claim_kept {s0 : State} {s : State} {a2 : COp} {a3 : CSub} {a4 : Nat} (h : Kept s0 s) : Kept s0 (claim s a2 a3 a4) := by
  unfold claim
  extract_lets c leaf own x s1 u s2 s3
  have h1 : Kept s0 s1 := by
    subst s1; split
    · exact bump_kept (notice_kept h)
    · exact h
  have h3 : Kept s0 s3 := by
    refine putSub_kept ?_
    subst s2; split
    · exact ownPart_kept h1
    · exact h1
  clear_value s3
  split
  · exact sendReady_kept h3
  · exact h3

theorem absorbUp_kept {s0 : State} {s : State} {a2 : COp} {a3 : CSub} {a4 : CChunk} (h : Kept s0 s) : Kept s0 (absorbUp s a2 a3 a4) := by
  unfold absorbUp
  repeat' with_reducible first | assumption | apply enterSlots_kept | apply putChunk_kept | fail_if_no_progress (refine Kept_upd rfl rfl rfl rfl rfl rfl rfl rfl rfl rfl rfl rfl rfl ?_) | split

theorem actChunk_kept {s0 : State} {s : State} {a2 : COp} {a3 : CSub} {a4 : CChunk} (h : Kept s0 s) : KeptO s0 (actChunk s a2 a3 a4) := by
  unfold actChunk
  repeat' with_reducible first | assumption | exact KeptO_none | apply KeptO_some | apply putChunk_kept | apply absorbUp_kept | apply excludeKid_kept | apply putSub_kept | apply sendCtlAt_kept | fail_if_no_progress (refine Kept_upd rfl rfl rfl rfl rfl rfl rfl rfl rfl rfl rfl rfl rfl ?_) | split

theorem actKid_kept {s0 : State} {s : State} {a2 : COp} {a3 : CSub} {a4 : CChild} (h : Kept s0 s) : KeptO s0 (actKid s a2 a3 a4) := by
  unfold actKid
  repeat' with_reducible first | assumption | exact KeptO_none | apply KeptO_some | apply putSub_kept | apply excludeKid_kept | apply streamDown_kept | apply carry_kept | apply memAccess_kept | apply sendFrom_kept | fail_if_no_progress (refine Kept_upd rfl rfl rfl rfl rfl rfl rfl rfl rfl rfl rfl rfl rfl ?_) | split | extract_lets

theorem actSub_kept {s0 : State} {s : State} {a2 : COp} {a3 : CSub} (h : Kept s0 s) : KeptO s0 (actSub s a2 a3) := by
  unfold actSub
  have f1 : ∀ x, KeptO s0 (actChunk s a2 a3 x) := fun _ => actChunk_kept h
  have f2 : ∀ x, KeptO s0 (actKid s a2 a3 x) := fun _ => actKid_kept h
  repeat' with_reducible first | assumption | exact KeptO_none | apply KeptO_some | apply sendOpen_kept | apply putSub_kept | apply takeOpen_kept | apply setGrp_kept | apply claim_kept | apply setOp_kept | apply admPut_kept | apply startStream_kept | apply closeSub_kept | refine Kept_opt (by assumption) (KeptO_findSome f1 _) | refine Kept_opt (by assumption) (KeptO_findSome f2 _) | split | extract_lets

theorem actRing_kept {s0 : State} {s : State} {a2 : COp} (h : Kept s0 s) : KeptO s0 (actRing s a2) := by
  unfold actRing
  repeat' with_reducible first | assumption | exact KeptO_none | apply KeptO_some | apply startStream_kept | apply setOp_kept | apply sendCtl_kept | apply failOp_kept | refine colStore_kept (by assumption) ?_ | apply ok_kept | apply lagSeen_kept | apply endOp_kept | fail_if_no_progress (refine Kept_upd rfl rfl rfl rfl rfl rfl rfl rfl rfl rfl rfl rfl rfl ?_) | split | extract_lets

theorem takeDown_kept {s0 : State} {s : State} {a2 : COp} {a3 : FritMsg} {a4 : Nat} (h : Kept s0 s) : Kept s0 (takeDown s a2 a3 a4) := by
  unfold takeDown
  repeat' with_reducible first | assumption | refine Kept_foldl (fun _ _ _ => ?_) _ ?_ | refine Kept_foldl1 (fun _ _ _ => ?_) _ ?_ | apply sendFrit_kept | apply setOp_kept

theorem writeDown_kept {s0 : State} {s : State} {a2 : COp} {a3 : FritMsg} (h : Kept s0 s) : Kept s0 (writeDown s a2 a3) := by
  unfold writeDown
  repeat' with_reducible first | assumption | refine colStore_kept (by assumption) ?_ | apply endOp_kept | apply ok_kept | apply notice_kept | apply stepSeen_kept | apply setOp_kept | fail_if_no_progress (refine Kept_upd rfl rfl rfl rfl rfl rfl rfl rfl rfl rfl rfl rfl rfl ?_) | split | extract_lets

theorem actFrit_kept {s0 : State} {s : State} {a2 : COp} (h : Kept s0 s) : KeptO s0 (actFrit s a2) := by
  unfold actFrit
  repeat' with_reducible first | assumption | exact KeptO_none | apply KeptO_some | apply bump_kept | apply notice_kept | apply setOp_kept | apply sendFrit_kept | apply takeDown_kept | fail_if_no_progress (refine Kept_upd rfl rfl rfl rfl rfl rfl rfl rfl rfl rfl rfl rfl rfl ?_) | split | extract_lets

theorem adopt_kept {s0 : State} {s : State} {a2 : COp} {a3 : ColCtl} (h : Kept s0 s) : Kept s0 (adopt s a2 a3) := by
  unfold adopt
  repeat' with_reducible first | assumption | apply setOp_kept | apply endStreams_kept

theorem actOp_kept {s0 : State} {s : State} {a2 : COp} (h : Kept s0 s) : KeptO s0 (actOp s a2) := by
  unfold actOp
  have f1 : ∀ x, KeptO s0 (actSub s a2 x) := fun _ => actSub_kept h
  split
  · exact KeptO_none
  split
  · exact KeptO_some (adopt_kept h)
  split
  · split
    · exact KeptO_none
    · exact actFrit_kept h
  split
  · exact actRing_kept h
  split
  · refine KeptO_some (setOp_kept ?_)
    split
    · exact lateSub_kept h
    · exact h
  split
  · exact KeptO_some (Kept_opt (by assumption) (KeptO_findSome f1 _))
  split
  · exact KeptO_some (endOp_kept h)
  · exact KeptO_none

theorem progressLoop_kept {s0 : State} {a1 : Nat} {a2 : Nat} {s : State} (h : Kept s0 s) : Kept s0 (progressLoop a1 a2 s) := by
  induction a2 generalizing s with
  | zero => unfold progressLoop; exact h
  | succ n ih =>
    unfold progressLoop
    repeat' with_reducible first | apply ih | assumption | apply actOp_kept | split | refine Kept_opt (by assumption) ?_

theorem progress_kept {s0 : State} {s : State} {a2 : Nat} (h : Kept s0 s) : Kept s0 (progress s a2) := by
  unfold progress
  repeat' with_reducible first | assumption | apply progressLoop_kept

theorem startOp_kept {s0 : State} {s : State} {a2 : COp} {a3 : Nat} (h : Kept s0 s) : Kept s0 (startOp s a2 a3) := by
  unfold startOp
  repeat' with_reducible first | assumption | refine Kept_foldl (fun _ _ _ => ?_) _ ?_ | refine Kept_foldl1 (fun _ _ _ => ?_) _ ?_ | apply bump_kept | apply notice_kept | apply progress_kept | apply setOp_kept | fail_if_no_progress (refine Kept_upd rfl rfl rfl rfl rfl rfl rfl rfl rfl rfl rfl rfl rfl ?_) | split

theorem opWake_kept {s0 : State} {s : State} {a2 : Nat} {a3 : Nat} (h : Kept s0 s) : Kept s0 (opWake s a2 a3) := by
  unfold opWake
  repeat' with_reducible first | assumption | apply setOp_kept | apply writeDown_kept | apply endOp_kept | apply progress_kept | fail_if_no_progress (refine Kept_upd rfl rfl rfl rfl rfl rfl rfl rfl rfl rfl rfl rfl rfl ?_) | split | extract_lets

theorem kibIn_kept {s0 : State} {s : State} {a2 : COp} {a3 : ColStream} {a4 : Nat} {a5 : List Byte} (h : Kept s0 s) : Kept s0 (kibIn s a2 a3 a4 a5) := by
  unfold kibIn
  repeat' with_reducible first | assumption | apply enterSlots_kept | apply putChunk_kept | apply sendFrom_kept | refine colStore_kept (by assumption) ?_ | apply failOp_kept | apply ok_kept | apply setOp_kept | fail_if_no_progress (refine Kept_upd rfl rfl rfl rfl rfl rfl rfl rfl rfl rfl rfl rfl rfl ?_) | split | extract_lets

theorem ownIn_kept {s0 : State} {s : State} {a2 : COp} {a3 : Nat} {a4 : Nat} {a5 : Nat} {a6 : List Byte} (h : Kept s0 s) : Kept s0 (ownIn s a2 a3 a4 a5 a6) := by
  unfold ownIn
  repeat' with_reducible first | assumption | apply putChunk_kept | apply ownPart_kept | fail_if_no_progress (refine Kept_upd rfl rfl rfl rfl rfl rfl rfl rfl rfl rfl rfl rfl rfl ?_) | split | extract_lets

theorem checkIn_kept {s0 : State} {s : State} {a2 : COp} {a3 : Nat} {a4 : List Byte} (h : Kept s0 s) : Kept s0 (checkIn s a2 a3 a4) := by
  unfold checkIn
  repeat' with_reducible first | assumption | apply setOp_kept | apply checkPart_kept | fail_if_no_progress (refine Kept_upd rfl rfl rfl rfl rfl rfl rfl rfl rfl rfl rfl rfl rfl ?_) | split | extract_lets

theorem copyIn_kept {s0 : State} {s : State} {a2 : COp} {a3 : Option Nat} {a4 : Nat} (h : Kept s0 s) : Kept s0 (copyIn s a2 a3 a4) := by
  unfold copyIn
  repeat' with_reducible first | assumption | refine colStore_kept (by assumption) ?_ | apply failOp_kept | apply ok_kept | apply setOp_kept | apply putSub_kept | fail_if_no_progress (refine Kept_upd rfl rfl rfl rfl rfl rfl rfl rfl rfl rfl rfl rfl rfl ?_) | split | extract_lets

theorem streamIn_kept {s0 : State} {s : State} {a2 : COp} {a3 : ColStream} (h : Kept s0 s) : Kept s0 (streamIn s a2 a3) := by
  unfold streamIn
  repeat' with_reducible first | assumption | apply checkIn_kept | apply ownIn_kept | apply leafUp_kept | apply sendCells_kept | apply copyIn_kept | fail_if_no_progress (refine Kept_upd rfl rfl rfl rfl rfl rfl rfl rfl rfl rfl rfl rfl rfl ?_) | split

theorem colKib_kept {s0 : State} {s : State} {a2 : Nat} (h : Kept s0 s) : Kept s0 (colKib s a2) := by
  unfold colKib
  repeat' with_reducible first | assumption | apply endStream_kept | apply carry_kept | apply setStream_kept | apply failOp_kept | apply kibIn_kept | apply progress_kept | apply streamIn_kept | fail_if_no_progress (refine Kept_upd rfl rfl rfl rfl rfl rfl rfl rfl rfl rfl rfl rfl rfl ?_) | split | extract_lets

theorem releaseSent_kept {s0 : State} {s : State} (h : Kept s0 s) : Kept s0 (releaseSent s) := by
  unfold releaseSent
  repeat' with_reducible first | assumption | refine Kept_foldl (fun _ _ _ => ?_) _ ?_ | refine Kept_foldl1 (fun _ _ _ => ?_) _ ?_ | apply progress_kept | fail_if_no_progress (refine Kept_upd rfl rfl rfl rfl rfl rfl rfl rfl rfl rfl rfl rfl rfl ?_)

theorem orphan_kept {s0 : State} {s : State} (h : Kept s0 s) : Kept s0 (orphan s) := by
  unfold orphan
  repeat' with_reducible first | assumption | apply bump_kept | apply notice_kept

theorem updCopy_kept {s0 : State} {s : State} {a2 : Pend} {a3 : Copy → Copy} (h : Kept s0 s) : Kept s0 (updCopy s a2 a3) := by
  unfold updCopy
  repeat' with_reducible first | assumption | apply setCopy_kept | fail_if_no_progress (refine Kept_upd rfl rfl rfl rfl rfl rfl rfl rfl rfl rfl rfl rfl rfl ?_) | split

theorem markRetried_kept {s0 : State} {s : State} {a2 : Pend} {a3 : FabCell} (h : Kept s0 s) : Kept s0 (markRetried s a2 a3) := by
  unfold markRetried
  repeat' with_reducible first | assumption | apply updCopy_kept | fail_if_no_progress (refine Kept_upd rfl rfl rfl rfl rfl rfl rfl rfl rfl rfl rfl rfl rfl ?_) | split

theorem endRequest_kept {s0 : State} {s : State} {a2 : Pend} {a3 : Nat} {a4 : Flags} (h : Kept s0 s) : Kept s0 (endRequest s a2 a3 a4) := by
  unfold endRequest
  repeat' with_reducible first | assumption | apply postNow_kept | apply dropPends_kept | apply failCopy_kept | split

theorem collNack_kept {s0 : State} {s : State} {a2 : FabCell} (h : Kept s0 s) : Kept s0 (collNack s a2) := by
  unfold collNack
  repeat' with_reducible first | assumption | refine Kept_foldl (fun _ _ _ => ?_) _ ?_ | refine Kept_foldl1 (fun _ _ _ => ?_) _ ?_ | apply orphan_kept | apply failOp_kept | apply excludeKid_kept | apply putSub_kept | apply progress_kept | fail_if_no_progress (refine Kept_upd rfl rfl rfl rfl rfl rfl rfl rfl rfl rfl rfl rfl rfl ?_) | split | extract_lets

theorem nacked_kept {s0 : State} {s : State} {a2 : FabCell} (h : Kept s0 s) : Kept s0 (nacked s a2) := by
  unfold nacked
  repeat' with_reducible first | assumption | apply markSync_kept | apply bump_kept | apply collNack_kept | apply orphan_kept | apply endRequest_kept | apply markRetried_kept | fail_if_no_progress (refine Kept_upd rfl rfl rfl rfl rfl rfl rfl rfl rfl rfl rfl rfl rfl ?_) | split | extract_lets

theorem takeSelfNack_kept {s0 : State} {s : State} (h : Kept s0 s) : Kept s0 (takeSelfNack s) := by
  unfold takeSelfNack
  repeat' with_reducible first | assumption | apply nacked_kept | fail_if_no_progress (refine Kept_upd rfl rfl rfl rfl rfl rfl rfl rfl rfl rfl rfl rfl rfl ?_) | split

theorem losePosting_kept {s0 : State} {s : State} {a2 : Nat} {a3 : Posting} (h : Kept s0 s) : Kept s0 (losePosting s a2 a3) := by
  unfold losePosting
  repeat' with_reducible first | assumption | apply updTile_kept | apply bump_kept | fail_if_no_progress (refine Kept_upd rfl rfl rfl rfl rfl rfl rfl rfl rfl rfl rfl rfl rfl ?_) | split | extract_lets

theorem loseDispatch_kept {s0 : State} {s : State} {a2 : Nat} {a3 : Dispatch} (h : Kept s0 s) : Kept s0 (loseDispatch s a2 a3) := by
  unfold loseDispatch
  repeat' with_reducible first | assumption | refine Kept_foldl (fun _ _ _ => ?_) _ ?_ | refine Kept_foldl1 (fun _ _ _ => ?_) _ ?_ | apply setCore_kept | apply updTile_kept

theorem loseOne_kept {s0 : State} {a1 : Nat} {s : State} {a3 : MrvAcc} (h : Kept s0 s) : Kept s0 (loseOne a1 s a3) := by
  unfold loseOne
  repeat' with_reducible first | assumption | apply bump_kept | apply updTile_kept | apply updApply_kept | apply setCopy_kept | apply losePosting_kept | apply loseDispatch_kept | apply setPlan_kept | fail_if_no_progress (refine Kept_upd rfl rfl rfl rfl rfl rfl rfl rfl rfl rfl rfl rfl rfl ?_) | split | extract_lets | refine Kept_ite ?_ ?_

theorem loseCycle_kept {s0 : State} {s : State} {a2 : Nat} {a3 : Nat} (h : Kept s0 s) : Kept s0 (loseCycle s a2 a3) := by
  unfold loseCycle
  repeat' with_reducible first | assumption | refine Kept_foldl (fun _ _ _ => ?_) _ ?_ | refine Kept_foldl1 (fun _ _ _ => ?_) _ ?_ | apply loseOne_kept | fail_if_no_progress (refine Kept_upd rfl rfl rfl rfl rfl rfl rfl rfl rfl rfl rfl rfl rfl ?_)

theorem loseOpc_kept {s0 : State} {a1 : Nat} {s : State} {a3 : OpcAcc} (h : Kept s0 s) : Kept s0 (loseOpc a1 s a3) := by
  unfold loseOpc
  repeat' with_reducible first | assumption | refine Kept_foldl (fun _ _ _ => ?_) _ ?_ | refine Kept_foldl1 (fun _ _ _ => ?_) _ ?_ | apply setCore_kept | apply updTile_kept | apply bump_kept

theorem opcCycle_kept {s0 : State} {s : State} {a2 : Nat} {a3 : Nat} (h : Kept s0 s) : Kept s0 (opcCycle s a2 a3) := by
  unfold opcCycle
  repeat' with_reducible first | assumption | refine Kept_foldl (fun _ _ _ => ?_) _ ?_ | refine Kept_foldl1 (fun _ _ _ => ?_) _ ?_ | apply updTile_kept | apply loseOpc_kept

theorem countNet_kept {s0 : State} {a1 : Nat} {a2 : Nat} {s : State} {a4 : Dispatch} (h : Kept s0 s) : Kept s0 (countNet a1 a2 s a4) := by
  unfold countNet
  repeat' with_reducible first | assumption | apply updTile_kept | apply bump_kept | fail_if_no_progress (refine Kept_upd rfl rfl rfl rfl rfl rfl rfl rfl rfl rfl rfl rfl rfl ?_) | split | extract_lets

theorem countImport_kept {s0 : State} {a1 : Nat} {s : State} {a3 : Nat} (h : Kept s0 s) : Kept s0 (countImport a1 s a3) := by
  unfold countImport
  repeat' with_reducible first | assumption | apply setKiln_kept | apply bump_kept | fail_if_no_progress (refine Kept_upd rfl rfl rfl rfl rfl rfl rfl rfl rfl rfl rfl rfl rfl ?_) | split | extract_lets

theorem runDue_kept {s0 : State} {s : State} {a2 : Due} (h : Kept s0 s) : Kept s0 (runDue s a2) := by
  unfold runDue
  repeat' with_reducible first | assumption | apply writeSweep_kept | apply writeLookup_kept | apply writeApply_kept | apply copyStep_kept | apply loseCycle_kept | apply freeLaneNow_kept | apply postNow_kept | apply grantEnq_kept | apply opcCycle_kept | apply colKib_kept | apply releaseSent_kept | apply drainPort_kept | apply opWake_kept | apply takeSelfNack_kept | apply readPlan_kept | fail_if_no_progress (refine Kept_upd rfl rfl rfl rfl rfl rfl rfl rfl rfl rfl rfl rfl rfl ?_) | split

theorem runDues_kept {s0 : State} {c n : Nat} {s : State} (h : Kept { s0 with now := 0 } s) : Kept { s0 with now := 0 } (runDues c n s) := by
  induction n generalizing s with
  | zero => unfold runDues; exact h
  | succ n ih =>
    rw [runDues]
    split
    · exact h
    · split
      · exact h
      · exact ih (runDue_kept (Kept_back h))

theorem countTile_kept {s0 : State} {a1 : Nat} {s : State} {a3 : Nat} (h : Kept s0 s) : Kept s0 (countTile a1 s a3) := by
  unfold countTile
  repeat' with_reducible first | assumption | refine Kept_foldl (fun _ _ _ => ?_) _ ?_ | refine Kept_foldl1 (fun _ _ _ => ?_) _ ?_ | apply countSweepBy_kept | apply countNet_kept | apply countLookupBy_kept

theorem countAqWait_kept {s0 : State} {s : State} (h : Kept s0 s) : Kept s0 (countAqWait s) := by
  unfold countAqWait
  repeat' with_reducible first | assumption | apply bump_kept | fail_if_no_progress (refine Kept_upd rfl rfl rfl rfl rfl rfl rfl rfl rfl rfl rfl rfl rfl ?_) | split

theorem countAllWaits_kept {s0 : State} {s : State} (h : Kept s0 s) : Kept s0 (countAllWaits s) := by
  unfold countAllWaits
  repeat' with_reducible first | assumption | refine Kept_foldl (fun _ _ _ => ?_) _ ?_ | refine Kept_foldl1 (fun _ _ _ => ?_) _ ?_ | apply countAqWait_kept | apply countWaits_kept | fail_if_no_progress (refine Kept_upd rfl rfl rfl rfl rfl rfl rfl rfl rfl rfl rfl rfl rfl ?_) | split

theorem settle_kept {s0 : State} {s : State} (h : Kept s0 s) : Kept s0 (settle s) := by
  unfold settle
  extract_lets c r s1
  have h1 : Kept s0 s1 := by
    have k : Kept s0 { r with now := c } := Kept_now h.now (runDues_kept (Kept_zero h))
    exact ⟨k.1, k.2, k.3, k.4, k.5⟩
  clear_value s1
  exact countEnqWait_kept (drainPorts_kept (countAllWaits_kept (Kept_foldl (fun _ _ h => countImport_kept h) _
    (Kept_foldl (fun _ _ h => countTile_kept h) _ h1))))

theorem settleTo_kept {s0 : State} {s : State} {a2 : Nat} (h : Kept s0 s) : Kept s0 (settleTo s a2) := by
  unfold settleTo
  repeat' with_reducible first | assumption | apply settle_kept | apply advance_kept

theorem execSweep_kept {s0 : State} {a1 : Nat} {s : State} (h : Kept s0 s) : KeptR s0 (execSweep a1 s) := by
  unfold execSweep
  repeat' with_reducible first | assumption | exact KeptR_fault | apply KeptR_ok | apply settle_kept | apply ok_kept | apply acceptSweep_kept | fail_if_no_progress (refine Kept_upd rfl rfl rfl rfl rfl rfl rfl rfl rfl rfl rfl rfl rfl ?_) | split | refine Kept_pair (by assumption) ?_ | refine takeIssue_kept (by assumption) ?_

theorem driveDue_kept {s0 s s' : State} {hub : Bool} {due : State → Option Nat} {n : Nat} (e : driveDue hub due n s = some s') (h : Kept s0 s) :
    Kept s0 s' := by
  induction n generalizing s with
  | zero => unfold driveDue at e; cases e
  | succ n ih =>
    unfold driveDue at e
    split at e
    · cases e
    · split at e
      · cases e
      · split at e
        · cases e; exact h
        · exact ih e (settleTo_kept h)

theorem doneChecks_kept {s0 : State} {a1 : Posting → Bool} {s : State} (h : Kept s0 s) : KeptR s0 (doneChecks a1 s) := by
  unfold doneChecks
  repeat' with_reducible first | assumption | exact KeptR_fault | apply KeptR_ok | apply ok_kept | apply settleTo_kept | fail_if_no_progress (refine Kept_upd rfl rfl rfl rfl rfl rfl rfl rfl rfl rfl rfl rfl rfl ?_) | split

theorem execSweepDone_kept {s0 : State} {a1 : Nat} {s : State} (h : Kept s0 s) : KeptR s0 (execSweepDone a1 s) := by
  unfold execSweepDone
  repeat' with_reducible first | assumption | exact KeptR_fault | apply KeptR_ok | refine driveDue_kept (by assumption) ?_ | apply doneChecks_kept | apply ok_kept | apply finishSweep_kept | fail_if_no_progress (refine Kept_upd rfl rfl rfl rfl rfl rfl rfl rfl rfl rfl rfl rfl rfl ?_) | split

theorem execLookup_kept {s0 : State} {a1 : Nat} {s : State} (h : Kept s0 s) : KeptR s0 (execLookup a1 s) := by
  unfold execLookup
  repeat' with_reducible first | assumption | exact KeptR_fault | apply KeptR_ok | apply settle_kept | apply ok_kept | apply acceptLookup_kept | fail_if_no_progress (refine Kept_upd rfl rfl rfl rfl rfl rfl rfl rfl rfl rfl rfl rfl rfl ?_) | split | refine Kept_pair (by assumption) ?_ | refine takeIssue_kept (by assumption) ?_

theorem execLookupDone_kept {s0 : State} {a1 : Nat} {s : State} (h : Kept s0 s) : KeptR s0 (execLookupDone a1 s) := by
  unfold execLookupDone
  repeat' with_reducible first | assumption | exact KeptR_fault | apply KeptR_ok | refine driveDue_kept (by assumption) ?_ | apply doneChecks_kept | apply ok_kept | apply finishLookup_kept | fail_if_no_progress (refine Kept_upd rfl rfl rfl rfl rfl rfl rfl rfl rfl rfl rfl rfl rfl ?_) | split

theorem execFtuApply_kept {s0 : State} {a1 : Nat} {s : State} (h : Kept s0 s) : KeptR s0 (execFtuApply a1 s) := by
  unfold execFtuApply
  repeat' with_reducible first | assumption | exact KeptR_fault | apply KeptR_ok | apply settle_kept | apply ok_kept | apply acceptApply_kept | fail_if_no_progress (refine Kept_upd rfl rfl rfl rfl rfl rfl rfl rfl rfl rfl rfl rfl rfl ?_) | split | refine Kept_pair (by assumption) ?_ | refine takeIssue_kept (by assumption) ?_

theorem execFtuApplyDone_kept {s0 : State} {a1 : Nat} {s : State} (h : Kept s0 s) : KeptR s0 (execFtuApplyDone a1 s) := by
  unfold execFtuApplyDone
  repeat' with_reducible first | assumption | exact KeptR_fault | apply KeptR_ok | refine driveDue_kept (by assumption) ?_ | apply doneChecks_kept | apply ok_kept | apply finishApply_kept | fail_if_no_progress (refine Kept_upd rfl rfl rfl rfl rfl rfl rfl rfl rfl rfl rfl rfl rfl ?_) | split

theorem execCopy_kept {s0 : State} {a1 : Nat} {s : State} (h : Kept s0 s) : KeptR s0 (execCopy a1 s) := by
  unfold execCopy
  repeat' with_reducible first | assumption | exact KeptR_fault | apply KeptR_ok | apply takeCopy_kept | apply settle_kept

theorem execFill_kept {s0 : State} {a1 : Nat} {s : State} (h : Kept s0 s) : KeptR s0 (execFill a1 s) := by
  unfold execFill
  repeat' with_reducible first | assumption | exact KeptR_fault | apply KeptR_ok | apply takeCopy_kept | apply settle_kept

theorem execHdump_kept {s0 : State} {a1 : Nat} {s : State} (h : Kept s0 s) : KeptR s0 (execHdump a1 s) := by
  unfold execHdump
  repeat' with_reducible first | assumption | exact KeptR_fault | apply KeptR_ok | apply takeCopy_kept | apply settle_kept

theorem execHload_kept {s0 : State} {a1 : Nat} {s : State} (h : Kept s0 s) : KeptR s0 (execHload a1 s) := by
  unfold execHload
  repeat' with_reducible first | assumption | exact KeptR_fault | apply KeptR_ok | apply takeCopy_kept | apply settle_kept

theorem execCopyStart_kept {s0 : State} {a1 : Nat} {s : State} (h : Kept s0 s) : KeptR s0 (execCopyStart a1 s) := by
  unfold execCopyStart
  repeat' with_reducible first | assumption | exact KeptR_fault | apply KeptR_ok | refine driveDue_kept (by assumption) ?_ | apply ok_kept | apply setCopy_kept | fail_if_no_progress (refine Kept_upd rfl rfl rfl rfl rfl rfl rfl rfl rfl rfl rfl rfl rfl ?_) | split

theorem execSieveTake_kept {s0 : State} {a1 : Nat} {s : State} (h : Kept s0 s) : KeptR s0 (execSieveTake a1 s) := by
  unfold execSieveTake
  repeat' with_reducible first | assumption | exact KeptR_fault | apply KeptR_ok | apply settleTo_kept | apply updTile_kept | apply ok_kept | apply sieveConvert_kept | apply beginMove_kept | fail_if_no_progress (refine Kept_upd rfl rfl rfl rfl rfl rfl rfl rfl rfl rfl rfl rfl rfl ?_) | split | extract_lets

theorem execPcShareStart_kept {s0 : State} {a1 : Nat} {a2 : Nat} {a3 : Nat} {s : State} (h : Kept s0 s) : KeptR s0 (execPcShareStart a1 a2 a3 s) := by
  unfold execPcShareStart
  repeat' with_reducible first | assumption | exact KeptR_fault | apply KeptR_ok | apply settleTo_kept | apply ok_kept | apply setCopy_kept | fail_if_no_progress (refine Kept_upd rfl rfl rfl rfl rfl rfl rfl rfl rfl rfl rfl rfl rfl ?_) | split | extract_lets

theorem driveCopy_kept {s0 : State} {e n : Nat} {s : State} {y : State × Copy} (hy : driveCopy e n s = some y) (h : Kept s0 s) : Kept s0 y.1 := by
  induction n generalizing s with
  | zero => unfold driveCopy at hy; cases hy
  | succ n ih =>
    unfold driveCopy at hy
    split at hy
    · cases hy; exact h
    · split at hy
      · cases hy
      · split at hy
        · cases hy
        · exact ih hy (settleTo_kept h)

theorem execCopyComplete_kept {s0 : State} {e : Nat} {s : State} (h : Kept s0 s) : KeptR s0 (execCopyComplete e s) := by
  unfold execCopyComplete
  extract_lets s1
  have h1 : Kept s0 s1 := settle_kept h
  clear_value s1
  split
  · rename_i s2 _ _
    refine doneChecks_kept (?_ : Kept s0 s2)
    subst s2; split
    · split
      · exact settleTo_kept h1
      · exact h1
    · exact h1
  · rename_i s2 c e2
    have h2 : Kept s0 s2 := driveCopy_kept e2 h1
    split
    · exact KeptR_ok (postError_kept h2)
    · exact KeptR_ok (finishCopy_kept h2)
    · exact KeptR_fault

end Sys2Proof.Machine
end

