-- ==== Sys2Proof/Laws/KeptGrain.lean ====
section
/-! SUPPORT. The grain cores and the queue manager keep what Kept says (Laws/Kept.lean): one lemma
for each operation and each meaning. -/

namespace Sys2Proof.Machine

theorem updDispatch_kept {s0 : State} {s : State} {a2 : Nat} {a3 : Nat} {a4 : Dispatch → Dispatch} (h : Kept s0 s) : Kept s0 (updDispatch s a2 a3 a4) := by
  unfold updDispatch
  repeat' with_reducible first | assumption | apply updTile_kept

theorem closeDispatch_kept {s0 : State} {s : State} {a2 : Nat} {a3 : Nat} (h : Kept s0 s) : Kept s0 (closeDispatch s a2 a3) := by
  unfold closeDispatch
  repeat' with_reducible first | assumption | apply updTile_kept | apply postAt_kept | fail_if_no_progress (refine Kept_upd rfl rfl rfl rfl rfl rfl rfl rfl rfl rfl rfl rfl rfl ?_) | split

theorem finishMember_kept {s0 : State} {s : State} {a2 : Nat} {a3 : Nat} {a4 : Nat} {a5 : Option Nat} (h : Kept s0 s) : Kept s0 (finishMember s a2 a3 a4 a5) := by
  unfold finishMember
  repeat' with_reducible first | assumption | apply notice_kept | apply updDispatch_kept | apply closeDispatch_kept | fail_if_no_progress (refine Kept_upd rfl rfl rfl rfl rfl rfl rfl rfl rfl rfl rfl rfl rfl ?_) | split

theorem startMember_kept {s0 : State} {s : State} {a2 : Nat} {a3 : Nat} {a4 : Nat} {a5 : Nat} {a6 : Nat} {a7 : RunD} (h : Kept s0 s) : Kept s0 (startMember s a2 a3 a4 a5 a6 a7) := by
  unfold startMember
  repeat' with_reducible first | assumption | apply setCore_kept

theorem rejectRun_kept {s0 : State} {s : State} {a2 : Nat} {a3 : Issue} {a4 : Nat} (h : Kept s0 s) : Kept s0 (rejectRun s a2 a3 a4) := by
  unfold rejectRun
  repeat' with_reducible first | assumption | apply postLater_kept

theorem execRun_kept {s0 : State} {a1 : Nat} {s : State} (h : Kept s0 s) : KeptR s0 (execRun a1 s) := by
  unfold execRun
  repeat' with_reducible first | assumption | exact KeptR_fault | apply KeptR_ok | refine Kept_foldl (fun _ _ _ => ?_) _ ?_ | refine Kept_foldl1 (fun _ _ _ => ?_) _ ?_ | apply settle_kept | apply ok_kept | apply rejectRun_kept | apply updTile_kept | apply startMember_kept | fail_if_no_progress (refine Kept_upd rfl rfl rfl rfl rfl rfl rfl rfl rfl rfl rfl rfl rfl ?_) | split | extract_lets | refine Kept_ite ?_ ?_ | refine Kept_ite1 ?_ ?_ | refine Kept_pair (by assumption) ?_ | refine takeIssue_kept (by assumption) ?_

theorem abandonGrn_kept {s0 : State} {s : State} {a2 : Nat} {a3 : Nat} (h : Kept s0 s) : Kept s0 (abandonGrn s a2 a3) := by
  unfold abandonGrn
  repeat' with_reducible first | assumption | refine Kept_foldl (fun _ _ _ => ?_) _ ?_ | refine Kept_foldl1 (fun _ _ _ => ?_) _ ?_ | apply setCore_kept | apply updTile_kept | apply postNow_kept | apply stopChecks_kept

theorem grainFault_kept {s0 : State} {s : State} {a2 : Nat} {a3 : Nat} {a4 : Nat} {a5 : Nat} (h : Kept s0 s) : KeptR s0 (grainFault s a2 a3 a4 a5) := by
  unfold grainFault
  repeat' with_reducible first | assumption | exact KeptR_fault | apply KeptR_ok | apply ok_kept | apply finishMember_kept | apply settleTo_kept | split

theorem grainRetire_kept {s0 : State} {s : State} {a2 : Nat} {a3 : Nat} {a4 : Dispatch} {a5 : Eff} (h : Kept s0 s) : Kept s0 (grainRetire s a2 a3 a4 a5) := by
  unfold grainRetire
  repeat' with_reducible first | assumption | refine Kept_foldl (fun _ _ _ => ?_) _ ?_ | refine Kept_foldl1 (fun _ _ _ => ?_) _ ?_ | apply setCore_kept | apply store_kept | apply bump_kept | apply updTile_kept | apply updDispatch_kept | fail_if_no_progress (refine Kept_upd rfl rfl rfl rfl rfl rfl rfl rfl rfl rfl rfl rfl rfl ?_) | split

theorem grainDone_kept {s0 : State} {s : State} {a2 : Nat} {a3 : Nat} {a4 : Dispatch} {a5 : Eff} (h : Kept s0 s) : Kept s0 (grainDone s a2 a3 a4 a5) := by
  unfold grainDone
  repeat' with_reducible first | assumption | apply grainRetire_kept | apply settleTo_kept

theorem grainGo_kept {s0 : State} {s : State} {a2 : Nat} {a3 : Nat} {a4 : Dispatch} {a5 : Eff} (h : Kept s0 s) : KeptR s0 (grainGo s a2 a3 a4 a5) := by
  unfold grainGo
  repeat' with_reducible first | assumption | exact KeptR_fault | apply KeptR_ok | apply ok_kept | apply grainDone_kept | split

theorem grainHalt_kept {s0 : State} {s : State} {a2 : Nat} {a3 : Nat} {a4 : Nat} (h : Kept s0 s) : KeptR s0 (grainHalt s a2 a3 a4) := by
  unfold grainHalt
  repeat' with_reducible first | assumption | exact KeptR_fault | apply KeptR_ok | apply ok_kept | apply finishMember_kept | apply bump_kept | apply settleTo_kept | split

theorem grainAt_kept {s0 : State} {t c : Nat} {f : GIn → GOut} {n : Nat} {s : State} (h : Kept s0 s) : Kept s0 (grainAt t c f n s) := by
  induction n generalizing s with
  | zero => unfold grainAt; exact h
  | succ n ih =>
    unfold grainAt
    split
    · exact h
    · extract_lets t0
      split
      · exact h
      · exact ih (settleTo_kept h)

theorem grainExec_kept {s0 : State} {a1 : Nat} {a2 : Nat} {a3 : Nat → Bool} {a4 : GIn → GOut} {s : State} (h : Kept s0 s) : KeptR s0 (grainExec a1 a2 a3 a4 s) := by
  unfold grainExec
  repeat' with_reducible first | assumption | exact KeptR_fault | apply KeptR_ok | apply grainAt_kept | apply ok_kept | apply grainFault_kept | apply grainGo_kept | apply grainHalt_kept | fail_if_no_progress (refine Kept_upd rfl rfl rfl rfl rfl rfl rfl rfl rfl rfl rfl rfl rfl ?_) | split | extract_lets

theorem execHalt_kept {s0 : State} {a1 : Nat} {a2 : Nat} {s : State} (h : Kept s0 s) : KeptR s0 (execHalt a1 a2 s) := by
  unfold execHalt
  repeat' with_reducible first | assumption | exact KeptR_fault | apply KeptR_ok | apply grainExec_kept

theorem execAddi_kept {s0 : State} {a1 : Nat} {a2 : Nat} {s : State} (h : Kept s0 s) : KeptR s0 (execAddi a1 a2 s) := by
  unfold execAddi
  repeat' with_reducible first | assumption | exact KeptR_fault | apply KeptR_ok | apply grainExec_kept

theorem execAlu_kept {s0 : State} {a1 : Nat} {a2 : Nat} {s : State} (h : Kept s0 s) : KeptR s0 (execAlu a1 a2 s) := by
  unfold execAlu
  repeat' with_reducible first | assumption | exact KeptR_fault | apply KeptR_ok | apply grainExec_kept

theorem execLui_kept {s0 : State} {a1 : Nat} {a2 : Nat} {s : State} (h : Kept s0 s) : KeptR s0 (execLui a1 a2 s) := by
  unfold execLui
  repeat' with_reducible first | assumption | exact KeptR_fault | apply KeptR_ok | apply grainExec_kept

theorem execLdx_kept {s0 : State} {a1 : Nat} {a2 : Nat} {s : State} (h : Kept s0 s) : KeptR s0 (execLdx a1 a2 s) := by
  unfold execLdx
  repeat' with_reducible first | assumption | exact KeptR_fault | apply KeptR_ok | apply grainExec_kept

theorem execStx_kept {s0 : State} {a1 : Nat} {a2 : Nat} {s : State} (h : Kept s0 s) : KeptR s0 (execStx a1 a2 s) := by
  unfold execStx
  repeat' with_reducible first | assumption | exact KeptR_fault | apply KeptR_ok | apply grainExec_kept

theorem execBr_kept {s0 : State} {a1 : Nat} {a2 : Nat} {s : State} (h : Kept s0 s) : KeptR s0 (execBr a1 a2 s) := by
  unfold execBr
  repeat' with_reducible first | assumption | exact KeptR_fault | apply KeptR_ok | apply grainExec_kept

theorem execCsrr_kept {s0 : State} {a1 : Nat} {a2 : Nat} {s : State} (h : Kept s0 s) : KeptR s0 (execCsrr a1 a2 s) := by
  unfold execCsrr
  repeat' with_reducible first | assumption | exact KeptR_fault | apply KeptR_ok | apply grainExec_kept

theorem execCsrw_kept {s0 : State} {a1 : Nat} {a2 : Nat} {s : State} (h : Kept s0 s) : KeptR s0 (execCsrw a1 a2 s) := by
  unfold execCsrw
  repeat' with_reducible first | assumption | exact KeptR_fault | apply KeptR_ok | apply grainExec_kept

theorem execVld_kept {s0 : State} {a1 : Nat} {a2 : Nat} {s : State} (h : Kept s0 s) : KeptR s0 (execVld a1 a2 s) := by
  unfold execVld
  repeat' with_reducible first | assumption | exact KeptR_fault | apply KeptR_ok | apply grainExec_kept

theorem execVst_kept {s0 : State} {a1 : Nat} {a2 : Nat} {s : State} (h : Kept s0 s) : KeptR s0 (execVst a1 a2 s) := by
  unfold execVst
  repeat' with_reducible first | assumption | exact KeptR_fault | apply KeptR_ok | apply grainExec_kept

theorem execVgath_kept {s0 : State} {a1 : Nat} {a2 : Nat} {s : State} (h : Kept s0 s) : KeptR s0 (execVgath a1 a2 s) := by
  unfold execVgath
  repeat' with_reducible first | assumption | exact KeptR_fault | apply KeptR_ok | apply grainExec_kept

theorem execVscat_kept {s0 : State} {a1 : Nat} {a2 : Nat} {s : State} (h : Kept s0 s) : KeptR s0 (execVscat a1 a2 s) := by
  unfold execVscat
  repeat' with_reducible first | assumption | exact KeptR_fault | apply KeptR_ok | apply grainExec_kept

theorem execVbcast_kept {s0 : State} {a1 : Nat} {a2 : Nat} {s : State} (h : Kept s0 s) : KeptR s0 (execVbcast a1 a2 s) := by
  unfold execVbcast
  repeat' with_reducible first | assumption | exact KeptR_fault | apply KeptR_ok | apply grainExec_kept

theorem execVmovx_kept {s0 : State} {a1 : Nat} {a2 : Nat} {s : State} (h : Kept s0 s) : KeptR s0 (execVmovx a1 a2 s) := by
  unfold execVmovx
  repeat' with_reducible first | assumption | exact KeptR_fault | apply KeptR_ok | apply grainExec_kept

theorem execPlogic_kept {s0 : State} {a1 : Nat} {a2 : Nat} {s : State} (h : Kept s0 s) : KeptR s0 (execPlogic a1 a2 s) := by
  unfold execPlogic
  repeat' with_reducible first | assumption | exact KeptR_fault | apply KeptR_ok | apply grainExec_kept

theorem execPtail_kept {s0 : State} {a1 : Nat} {a2 : Nat} {s : State} (h : Kept s0 s) : KeptR s0 (execPtail a1 a2 s) := by
  unfold execPtail
  repeat' with_reducible first | assumption | exact KeptR_fault | apply KeptR_ok | apply grainExec_kept

theorem execPflg_kept {s0 : State} {a1 : Nat} {a2 : Nat} {s : State} (h : Kept s0 s) : KeptR s0 (execPflg a1 a2 s) := by
  unfold execPflg
  repeat' with_reducible first | assumption | exact KeptR_fault | apply KeptR_ok | apply grainExec_kept

theorem execPcnt_kept {s0 : State} {a1 : Nat} {a2 : Nat} {s : State} (h : Kept s0 s) : KeptR s0 (execPcnt a1 a2 s) := by
  unfold execPcnt
  repeat' with_reducible first | assumption | exact KeptR_fault | apply KeptR_ok | apply grainExec_kept

theorem execVarith_kept {s0 : State} {a1 : Nat} {a2 : Nat} {s : State} (h : Kept s0 s) : KeptR s0 (execVarith a1 a2 s) := by
  unfold execVarith
  repeat' with_reducible first | assumption | exact KeptR_fault | apply KeptR_ok | apply grainExec_kept

theorem execVfma_kept {s0 : State} {a1 : Nat} {a2 : Nat} {s : State} (h : Kept s0 s) : KeptR s0 (execVfma a1 a2 s) := by
  unfold execVfma
  repeat' with_reducible first | assumption | exact KeptR_fault | apply KeptR_ok | apply grainExec_kept

theorem execVminmax_kept {s0 : State} {a1 : Nat} {a2 : Nat} {s : State} (h : Kept s0 s) : KeptR s0 (execVminmax a1 a2 s) := by
  unfold execVminmax
  repeat' with_reducible first | assumption | exact KeptR_fault | apply KeptR_ok | apply grainExec_kept

theorem execVlogic_kept {s0 : State} {a1 : Nat} {a2 : Nat} {s : State} (h : Kept s0 s) : KeptR s0 (execVlogic a1 a2 s) := by
  unfold execVlogic
  repeat' with_reducible first | assumption | exact KeptR_fault | apply KeptR_ok | apply grainExec_kept

theorem execVshift_kept {s0 : State} {a1 : Nat} {a2 : Nat} {s : State} (h : Kept s0 s) : KeptR s0 (execVshift a1 a2 s) := by
  unfold execVshift
  repeat' with_reducible first | assumption | exact KeptR_fault | apply KeptR_ok | apply grainExec_kept

theorem execVdiv_kept {s0 : State} {a1 : Nat} {a2 : Nat} {s : State} (h : Kept s0 s) : KeptR s0 (execVdiv a1 a2 s) := by
  unfold execVdiv
  repeat' with_reducible first | assumption | exact KeptR_fault | apply KeptR_ok | apply grainExec_kept

theorem execVcmp_kept {s0 : State} {a1 : Nat} {a2 : Nat} {s : State} (h : Kept s0 s) : KeptR s0 (execVcmp a1 a2 s) := by
  unfold execVcmp
  repeat' with_reducible first | assumption | exact KeptR_fault | apply KeptR_ok | apply grainExec_kept

theorem execVsel_kept {s0 : State} {a1 : Nat} {a2 : Nat} {s : State} (h : Kept s0 s) : KeptR s0 (execVsel a1 a2 s) := by
  unfold execVsel
  repeat' with_reducible first | assumption | exact KeptR_fault | apply KeptR_ok | apply grainExec_kept

theorem execVcvt_kept {s0 : State} {a1 : Nat} {a2 : Nat} {s : State} (h : Kept s0 s) : KeptR s0 (execVcvt a1 a2 s) := by
  unfold execVcvt
  repeat' with_reducible first | assumption | exact KeptR_fault | apply KeptR_ok | apply grainExec_kept

theorem execVred_kept {s0 : State} {a1 : Nat} {a2 : Nat} {s : State} (h : Kept s0 s) : KeptR s0 (execVred a1 a2 s) := by
  unfold execVred
  repeat' with_reducible first | assumption | exact KeptR_fault | apply KeptR_ok | apply grainExec_kept

theorem execVscan_kept {s0 : State} {a1 : Nat} {a2 : Nat} {s : State} (h : Kept s0 s) : KeptR s0 (execVscan a1 a2 s) := by
  unfold execVscan
  repeat' with_reducible first | assumption | exact KeptR_fault | apply KeptR_ok | apply grainExec_kept

theorem unretire_kept {s0 s : State} {t : Nat} {r : Res} (h : KeptR s0 r) : KeptR s0 (unretire t s r) := by
  unfold unretire
  split
  · exact KeptR_next (wr_kept (h _ rfl))
  · exact h

theorem execTscan_kept {s0 : State} {a1 : Nat} {a2 : Nat} {s : State} (h : Kept s0 s) : KeptR s0 (execTscan a1 a2 s) := by
  unfold execTscan
  repeat' with_reducible first | assumption | exact KeptR_fault | apply KeptR_ok | apply unretire_kept | apply grainExec_kept

theorem execTred_kept {s0 : State} {a1 : Nat} {a2 : Nat} {s : State} (h : Kept s0 s) : KeptR s0 (execTred a1 a2 s) := by
  unfold execTred
  repeat' with_reducible first | assumption | exact KeptR_fault | apply KeptR_ok | apply unretire_kept | apply grainExec_kept

theorem execTbar_kept {s0 : State} {a1 : Nat} {a2 : Nat} {s : State} (h : Kept s0 s) : KeptR s0 (execTbar a1 a2 s) := by
  unfold execTbar
  repeat' with_reducible first | assumption | exact KeptR_fault | apply KeptR_ok | apply unretire_kept | apply grainExec_kept

theorem execTileInstructionJoin_kept {s0 : State} {a1 : Nat} {a2 : Nat} {s : State} (h : Kept s0 s) : KeptR s0 (execTileInstructionJoin a1 a2 s) := by
  unfold execTileInstructionJoin
  repeat' with_reducible first | assumption | exact KeptR_fault | apply KeptR_ok | refine Kept_foldl (fun _ _ _ => ?_) _ ?_ | refine Kept_foldl1 (fun _ _ _ => ?_) _ ?_ | apply ok_kept | apply setCore_kept | apply settleTo_kept | apply finishMember_kept | apply updTile_kept | apply bump_kept | apply updDispatch_kept | fail_if_no_progress (refine Kept_upd rfl rfl rfl rfl rfl rfl rfl rfl rfl rfl rfl rfl rfl ?_) | split | extract_lets

theorem breakQueue_kept {s0 : State} {s : State} {a2 : Nat} (h : Kept s0 s) : Kept s0 (breakQueue s a2) := by
  unfold breakQueue
  repeat' with_reducible first | assumption | apply setQueue_kept | apply pageErrInfo_kept | apply notice_kept

theorem hostEnq_kept {s0 : State} {s : State} {a2 : Nat} {a3 : List Byte} (h : Kept s0 s) : Kept s0 (hostEnq s a2 a3) := by
  unfold hostEnq
  repeat' with_reducible first | assumption | apply askEnq_kept

theorem execEnqueue_kept {s0 : State} {a1 : Nat} {a2 : Nat} {a3 : List Byte} {s : State} (h : Kept s0 s) : KeptR s0 (execEnqueue a1 a2 a3 s) := by
  unfold execEnqueue
  repeat' with_reducible first | assumption | exact KeptR_fault | apply KeptR_ok | apply ok_kept | apply hostEnq_kept | apply enqCell_kept | split

theorem grantDeq_kept {s0 : State} {s : State} {a2 : Nat} (h : Kept s0 s) : Kept s0 (grantDeq s a2) := by
  unfold grantDeq
  repeat' with_reducible first | assumption | apply settleTo_kept | apply bump_kept | fail_if_no_progress (refine Kept_upd rfl rfl rfl rfl rfl rfl rfl rfl rfl rfl rfl rfl rfl ?_)

theorem deqCell_kept {s0 : State} {s : State} {a2 : Nat} {a3 : Nat} (h : Kept s0 s) : Kept s0 (deqCell s a2 a3).1 := by
  unfold deqCell
  repeat' with_reducible first | assumption | apply grantDeq_kept | apply breakQueue_kept | apply freeCells_kept | apply setQueue_kept | fail_if_no_progress (refine Kept_upd rfl rfl rfl rfl rfl rfl rfl rfl rfl rfl rfl rfl rfl ?_) | split | extract_lets

theorem engineDeq_kept {s0 : State} {s : State} {a2 : Nat} {a3 : Nat} (h : Kept s0 s) : Kept s0 (engineDeq s a2 a3).1 := by
  unfold engineDeq
  repeat' with_reducible first | assumption | apply deqCell_kept | apply settleTo_kept

theorem emptyRead_kept {s0 : State} {s : State} {r : State} {a3 : Nat} (h : Kept s0 r) : KeptR s0 (emptyRead s r a3) := by
  unfold emptyRead
  split
  · exact KeptR_ok h
  · exact KeptR_fault

theorem execDequeue_kept {s0 : State} {a1 : Nat} {a2 : Nat} {a3 : List Nat} {s : State} (h : Kept s0 s) : KeptR s0 (execDequeue a1 a2 a3 s) := by
  unfold execDequeue
  repeat' with_reducible first | assumption | exact KeptR_fault | apply KeptR_ok | refine Kept_foldl (fun _ _ _ => ?_) _ ?_ | refine Kept_foldl1 (fun _ _ _ => ?_) _ ?_ | apply deqCell_kept | apply ok_kept | apply emit_kept | fail_if_no_progress (refine Kept_upd rfl rfl rfl rfl rfl rfl rfl rfl rfl rfl rfl rfl rfl ?_) | split

theorem dropItem_kept {s0 : State} {s : State} {a2 : Nat} (h : Kept s0 s) : Kept s0 (dropItem s a2) := by
  unfold dropItem
  repeat' with_reducible first | assumption | apply freeCells_kept | apply setQueue_kept | apply breakQueue_kept | fail_if_no_progress (refine Kept_upd rfl rfl rfl rfl rfl rfl rfl rfl rfl rfl rfl rfl rfl ?_) | split | extract_lets

theorem execQDrop_kept {s0 : State} {a1 : Nat} {s : State} (h : Kept s0 s) : KeptR s0 (execQDrop a1 s) := by
  unfold execQDrop
  repeat' with_reducible first | assumption | exact KeptR_fault | apply KeptR_ok | apply ok_kept | apply dropItem_kept | split

theorem flushQueue_kept {s0 : State} {s : State} {a2 : Nat} (h : Kept s0 s) : Kept s0 (flushQueue s a2) := by
  unfold flushQueue
  repeat' with_reducible first | assumption | refine Kept_foldl (fun _ _ _ => ?_) _ ?_ | refine Kept_foldl1 (fun _ _ _ => ?_) _ ?_ | apply breakQueue_kept | apply freeCells_kept | apply bump_kept | apply setQueue_kept | fail_if_no_progress (refine Kept_upd rfl rfl rfl rfl rfl rfl rfl rfl rfl rfl rfl rfl rfl ?_) | split

theorem execQFlush_kept {s0 : State} {a1 : Nat} {s : State} (h : Kept s0 s) : KeptR s0 (execQFlush a1 s) := by
  unfold execQFlush
  repeat' with_reducible first | assumption | exact KeptR_fault | apply KeptR_ok | apply ok_kept | apply flushQueue_kept | split

theorem execStaleTimeout_kept {s0 : State} {a1 : Nat} {s : State} (h : Kept s0 s) : KeptR s0 (execStaleTimeout a1 s) := by
  unfold execStaleTimeout
  repeat' with_reducible first | assumption | exact KeptR_fault | apply KeptR_ok | apply settleTo_kept | apply setQueue_kept | apply ok_kept | apply bump_kept | apply wr_kept | apply notice_kept | fail_if_no_progress (refine Kept_upd rfl rfl rfl rfl rfl rfl rfl rfl rfl rfl rfl rfl rfl ?_) | split | extract_lets

theorem execQmuQtoWrite_kept {s0 : State} {a1 : Nat} {a2 : BitVec 32} {s : State} (h : Kept s0 s) : KeptR s0 (execQmuQtoWrite a1 a2 s) := by
  unfold execQmuQtoWrite
  repeat' with_reducible first | assumption | exact KeptR_fault | apply KeptR_ok | apply ok_kept | apply wr_kept | apply setQueue_kept | fail_if_no_progress (refine Kept_upd rfl rfl rfl rfl rfl rfl rfl rfl rfl rfl rfl rfl rfl ?_) | split

theorem execQmuQcfgWrite_kept {s0 : State} {a1 : Nat} {a2 : BitVec 32} {s : State} (h : Kept s0 s) : KeptR s0 (execQmuQcfgWrite a1 a2 s) := by
  unfold execQmuQcfgWrite
  repeat' with_reducible first | assumption | exact KeptR_fault | apply KeptR_ok | apply ok_kept | apply notice_kept | apply bump_kept | apply dropPart_kept | apply setQueue_kept | apply wrs_kept | fail_if_no_progress (refine Kept_upd rfl rfl rfl rfl rfl rfl rfl rfl rfl rfl rfl rfl rfl ?_) | split

theorem execPlanEnq_kept {s0 : State} {a1 : Nat} {s : State} (h : Kept s0 s) : KeptR s0 (execPlanEnq a1 s) := by
  unfold execPlanEnq
  repeat' with_reducible first | assumption | exact KeptR_fault | apply KeptR_ok | apply ok_kept | apply postLater_kept | fail_if_no_progress (refine Kept_upd rfl rfl rfl rfl rfl rfl rfl rfl rfl rfl rfl rfl rfl ?_) | split | extract_lets | refine Kept_ite ?_ ?_ | refine Kept_ite1 ?_ ?_ | refine Kept_pair (by assumption) ?_ | refine takeIssue_kept (by assumption) ?_

theorem drivePlan_kept {s0 : State} {t acc n : Nat} {s : State} (h : Kept s0 s) : Kept s0 (drivePlan t acc n s) := by
  induction n generalizing s with
  | zero => unfold drivePlan; exact h
  | succ n ih =>
    unfold drivePlan
    repeat' with_reducible first | apply ih | assumption | apply settleTo_kept | split

theorem execPlanEnqComplete_kept {s0 : State} {a1 : Nat} {s : State} (h : Kept s0 s) : KeptR s0 (execPlanEnqComplete a1 s) := by
  unfold execPlanEnqComplete
  split
  · split
    · exact KeptR_fault
    · exact KeptR_ok (settleTo_kept h)
  · rename_i p0 hp
    extract_lets s1
    have h1 : Kept s0 s1 := drivePlan_kept h
    clear_value s1
    split
    · exact KeptR_fault
    · split
      · exact KeptR_fault
      · exact KeptR_ok (postNow_kept (settleTo_kept (Kept_upd rfl rfl rfl rfl rfl rfl rfl rfl rfl rfl rfl rfl rfl h1)))

end Sys2Proof.Machine
end

