-- ==== Sys2Proof/Laws/KeptFabric.lean ====
section
/-! SUPPORT. The kilns, the fabric and the commands of collectives keep what Kept says (Laws/Kept.lean): one lemma
for each operation and each meaning. -/

namespace Sys2Proof.Machine

theorem measureFloors_kept {s0 : State} {s : State} (h : Kept s0 s) : Kept s0 (measureFloors s) := by
  unfold measureFloors
  repeat' with_reducible first | assumption | refine setSec_kept rfl ?_

theorem writeRecord_kept {s0 : State} {s : State} {x : Sec} (h : Kept s0 s) (hx : ∀ c, floorOf s c ≤ Tab.get 0 x.floors c ∧
    (floorOf s c < 2 ^ 16 → Tab.get 0 x.floors c < 2 ^ 16)) : Kept s0 (writeRecord s x) :=
  ⟨h.1, h.2, h.3, h.4, fun c => ⟨Nat.le_trans (h.5 c).1 (hx c).1, fun w => (hx c).2 ((h.5 c).2 w)⟩⟩

theorem logEvent_kept {s0 : State} {s : State} (h : Kept s0 s) : Kept s0 (logEvent s) := by
  unfold logEvent
  repeat' with_reducible first | assumption | refine setSec_kept rfl ?_

theorem showState_kept {s0 : State} {s : State} {a2 : Nat} {a3 : Nat} (h : Kept s0 s) : Kept s0 (showState s a2 a3) := by
  unfold showState
  repeat' with_reducible first | assumption | apply wrs_kept

theorem secError_kept {s0 : State} {s : State} {a2 : Nat} (h : Kept s0 s) : Kept s0 (secError s a2) := by
  unfold secError
  repeat' with_reducible first | assumption | apply pageErr_kept | apply wr_kept

theorem closeUpdate_kept {s0 : State} {s : State} (h : Kept s0 s) : Kept s0 (closeUpdate s) := by
  unfold closeUpdate
  repeat' with_reducible first | assumption | apply showState_kept | refine setSec_kept rfl ?_

theorem secRecord_kept {s0 : State} {s : State} {a2 : Nat} {a3 : Nat} {a4 : Nat} {a5 : Nat} (h : Kept s0 s) : Kept s0 (secRecord s a2 a3 a4 a5) := by
  unfold secRecord
  repeat' with_reducible first | assumption | apply pageFlags_kept | apply pageErr_kept | apply notice_kept | apply enqCell_kept | split

theorem abandonUpdate_kept {s0 : State} {s : State} {a2 : Nat} {a3 : Nat} (h : Kept s0 s) : Kept s0 (abandonUpdate s a2 a3) := by
  unfold abandonUpdate
  repeat' with_reducible first | assumption | apply closeUpdate_kept | apply secRecord_kept

theorem switchEnd_kept {s0 : State} {s : State} (h : Kept s0 s) : Kept s0 (switchEnd s) := by
  unfold switchEnd
  repeat' with_reducible first | assumption | apply closeUpdate_kept | apply secRecord_kept | split

theorem beginSwitch_kept {s0 : State} {s : State} (h : Kept s0 s) : Kept s0 (beginSwitch s) := by
  unfold beginSwitch
  repeat' with_reducible first | assumption | refine setSec_kept rfl ?_ | apply switchEnd_kept | apply logEvent_kept | apply measureFloors_kept | apply notice_kept

theorem kilnSwitch_kept {s0 : State} {s : State} {a2 : Nat} (h : Kept s0 s) : Kept s0 (kilnSwitch s a2) := by
  unfold kilnSwitch
  repeat' with_reducible first | assumption | apply switchEnd_kept | refine setSec_kept rfl ?_ | fail_if_no_progress (refine Kept_upd rfl rfl rfl rfl rfl rfl rfl rfl rfl rfl rfl rfl rfl ?_) | split

theorem endJob_kept {s0 : State} {s : State} {a2 : Nat} {a3 : Nat} {a4 : Nat} {a5 : Nat} (h : Kept s0 s) : Kept s0 (endJob s a2 a3 a4 a5) := by
  unfold endJob
  repeat' with_reducible first | assumption | apply setKiln_kept | apply kilnSwitch_kept | apply postAt_kept | fail_if_no_progress (refine Kept_upd rfl rfl rfl rfl rfl rfl rfl rfl rfl rfl rfl rfl rfl ?_) | split | extract_lets

theorem acceptJob_kept {s0 : State} {s : State} {a2 : Nat} {a3 : Nat} {a4 : Nat} {a5 : Nat} {a6 : List Byte} (h : Kept s0 s) : KeptR s0 (acceptJob s a2 a3 a4 a5 a6) := by
  unfold acceptJob
  repeat' with_reducible first | assumption | exact KeptR_fault | apply KeptR_ok | apply setKiln_kept | apply ok_kept | apply postLater_kept | fail_if_no_progress (refine Kept_upd rfl rfl rfl rfl rfl rfl rfl rfl rfl rfl rfl rfl rfl ?_) | split | extract_lets

theorem execKilnRun_kept {s0 : State} {a1 : Nat} {a2 : Option Nat} {s : State} (h : Kept s0 s) : KeptR s0 (execKilnRun a1 a2 s) := by
  unfold execKilnRun
  repeat' with_reducible first | assumption | exact KeptR_fault | apply KeptR_ok | apply ok_kept | apply acceptJob_kept | apply settleTo_kept | apply engineDeq_kept | apply emptyRead_kept | apply dropItem_kept | apply postLater_kept | fail_if_no_progress (refine Kept_upd rfl rfl rfl rfl rfl rfl rfl rfl rfl rfl rfl rfl rfl ?_) | split | extract_lets | refine Kept_ite ?_ ?_ | refine Kept_ite1 ?_ ?_ | refine Kept_pair (by assumption) ?_ | refine takeIssue_kept (by assumption) ?_

theorem kilnTurn_kept {s0 : State} {s : State} {a2 : Nat} {a3 : Nat} (h : Kept s0 s) : Kept s0 (kilnTurn s a2 a3) := by
  unfold kilnTurn
  refine Kept_kilns (fun w => ?_) h
  simp only [Tab.wf, Bool.and_eq_true, List.all_eq_true, decide_eq_true_eq] at w ⊢
  refine ⟨?_, fun e he => ?_⟩
  · have : ∀ (lo : Nat) (l : List (Nat × Kiln)), Tab.risingFrom lo l = true → Tab.risingFrom lo
        (l.map fun p => (p.1, { p.2 with jobs := p.2.jobs.map (jobTurn a2 a3) })) = true := by
      intro lo l
      induction l generalizing lo with
      | nil => exact fun h => h
      | cons e l ih =>
        intro hl
        simp only [List.map_cons, Tab.risingFrom, Bool.and_eq_true, decide_eq_true_eq] at hl ⊢
        exact ⟨hl.1, ih _ hl.2⟩
    exact this _ _ w.1
  · obtain ⟨p, hp, rfl⟩ := List.mem_map.1 he
    intro hk
    have h1 : p.2.jobs.map (jobTurn a2 a3) = [] := congrArg Kiln.jobs hk
    have h2 : p.2.jobs = [] := List.map_eq_nil_iff.1 h1
    refine w.2 p hp ?_
    rw [← hk]
    cases hq : p.2 with
    | mk jobs run posted ready => rw [hq] at h2; dsimp only at h2 ⊢; subst h2; rfl

theorem setRun_kept {s0 : State} {s : State} {a2 : Nat} {a3 : KRun} (h : Kept s0 s) : Kept s0 (setRun s a2 a3) := by
  unfold setRun
  repeat' with_reducible first | assumption | apply setKiln_kept

theorem faultJob_kept {s0 : State} {s : State} {a2 : Nat} {a3 : KRun} {a4 : Nat} (h : Kept s0 s) : Kept s0 (faultJob s a2 a3 a4) := by
  unfold faultJob
  repeat' with_reducible first | assumption | apply wrs_kept | apply endJob_kept | apply settleTo_kept | apply setRun_kept

theorem kstore_kept {s0 : State} {s : State} {a2 : Nat} {a3 : List (Nat × List Byte)} (h : Kept s0 s) : Kept s0 (kstore s a2 a3) := by
  unfold kstore
  repeat' with_reducible first | assumption | refine Kept_foldl (fun _ _ _ => ?_) _ ?_ | refine Kept_foldl1 (fun _ _ _ => ?_) _ ?_ | apply store_kept

theorem portRun_kept {s0 : State} {k lo cost limit : Nat} {regs : List Nat} {n w : Nat} {s : State} (h : Kept s0 s) :
    Kept s0 (portRun k lo cost limit regs n s w).1 := by
  induction n generalizing s w with
  | zero => unfold portRun; exact h
  | succ n ih =>
    unfold portRun
    extract_lets s1 m
    have h1 : Kept s0 s1 := settleTo_kept h
    clear_value s1
    split
    · exact h1
    · exact ih h1

theorem portDone_kept {s0 : State} {s : State} {a2 : Nat} {a3 : Nat} {a4 : Nat} (h : Kept s0 s) : Kept s0 (portDone s a2 a3 a4) := by
  unfold portDone
  repeat' with_reducible first | assumption | apply bump_kept | apply setKiln_kept

theorem fillInst_kept {s0 : State} {s : State} {a2 : Nat} {a3 : JobD} {a4 : KRun} {a5 : Nat} (h : Kept s0 s) : Kept s0 (fillInst s a2 a3 a4 a5) := by
  unfold fillInst
  repeat' with_reducible first | assumption | apply settleTo_kept | apply faultJob_kept | apply kstore_kept | apply bump_kept | apply notice_kept | apply portRun_kept | apply setRun_kept | apply portDone_kept | fail_if_no_progress (refine Kept_upd rfl rfl rfl rfl rfl rfl rfl rfl rfl rfl rfl rfl rfl ?_) | split | extract_lets | refine Kept_ite ?_ ?_

theorem beginInst_kept {s0 : State} {s : State} {a2 : Nat} {a3 : Nat} (h : Kept s0 s) : Kept s0 (beginInst s a2 a3) := by
  unfold beginInst
  repeat' with_reducible first | assumption | apply fillInst_kept | fail_if_no_progress (refine Kept_upd rfl rfl rfl rfl rfl rfl rfl rfl rfl rfl rfl rfl rfl ?_) | split

theorem execJobStart_kept {s0 : State} {a1 : Nat} {s : State} (h : Kept s0 s) : KeptR s0 (execJobStart a1 s) := by
  unfold execJobStart
  repeat' with_reducible first | assumption | exact KeptR_fault | apply KeptR_ok | apply ok_kept | apply settleTo_kept | apply portRun_kept | apply setRun_kept | apply portDone_kept | apply endJob_kept | fail_if_no_progress (refine Kept_upd rfl rfl rfl rfl rfl rfl rfl rfl rfl rfl rfl rfl rfl ?_) | split | extract_lets

theorem countEff_kept {s0 : State} {s : State} {a2 : Nat} {a3 : WEff} (h : Kept s0 s) : Kept s0 (countEff s a2 a3) := by
  unfold countEff
  repeat' with_reducible first | assumption | apply bump_kept

theorem wordRun_kept {s0 : State} {s : State} {a2 : Nat} {a3 : JobD} {a4 : KRun} {a5 : Nat} (h : Kept s0 s) : Kept s0 (wordRun s a2 a3 a4 a5).1 := by
  unfold wordRun
  exact portDone_kept (portRun_kept h)

theorem clearReady_kept {s0 : State} {s : State} {a2 : Nat} {a3 : Nat} {a4 : Nat} (h : Kept s0 s) : Kept s0 (clearReady s a2 a3 a4) := by
  unfold clearReady
  repeat' with_reducible first | assumption | apply setKiln_kept

theorem importUnits_kept {s0 : State} {k : Nat} {d : JobD} {w : KW} {a dst limit n u : Nat} {s : State} {r : KRun} (h : Kept s0 s) :
    Kept s0 (importUnits k d w a dst limit n u s r).1 := by
  induction n generalizing s u r with
  | zero => unfold importUnits; exact h
  | succ n ih =>
    unfold importUnits
    repeat' with_reducible first | apply ih | assumption | apply portDone_kept | apply portRun_kept | apply clearReady_kept | apply countEff_kept | apply kstore_kept | apply settleTo_kept | split | extract_lets

theorem partWord_kept {s0 : State} {s : State} {a2 : Nat} {a3 : JobD} {a4 : KRun} {a5 : Nat} (h : Kept s0 s) : Kept s0 (partWord s a2 a3 a4 a5).1 := by
  unfold partWord
  repeat' with_reducible first | assumption | apply ok_kept | apply importUnits_kept | apply kstore_kept | fail_if_no_progress (refine Kept_upd rfl rfl rfl rfl rfl rfl rfl rfl rfl rfl rfl rfl rfl ?_) | split | extract_lets

theorem stopJob_kept {s0 : State} {s : State} {a2 : Nat} {a3 : Nat} {a4 : Nat} (h : Kept s0 s) : Kept s0 (stopJob s a2 a3 a4) := by
  unfold stopJob
  repeat' with_reducible first | assumption | apply beginInst_kept | apply partWord_kept | apply countImport_kept | apply setRun_kept | apply portDone_kept | apply endJob_kept | fail_if_no_progress (refine Kept_upd rfl rfl rfl rfl rfl rfl rfl rfl rfl rfl rfl rfl rfl ?_) | split | extract_lets

theorem missJob_kept {s0 : State} {s : State} {a2 : Nat} {a3 : KRun} (h : Kept s0 s) : Kept s0 (missJob s a2 a3) := by
  unfold missJob
  repeat' with_reducible first | assumption | apply stopJob_kept | apply settleTo_kept

theorem nextWord_kept {s0 : State} {s0' s : State} {k : Nat} {d : JobD} {r0 r : KRun} {cost next : Nat} (h0 : Kept s0 s0') (h : Kept s0 s) :
    KeptR s0 (nextWord s0' s k d r0 r cost next) := by
  unfold nextWord
  extract_lets p fin
  have hp : Kept s0 p.1 := wordRun_kept h
  clear_value p
  split
  · exact KeptR_ok (missJob_kept h0)
  · exact KeptR_ok (setRun_kept hp)

theorem kilnWord_kept {s0 s : State} {op k : Nat} {f : State → JobD → KRun → KW → Res} (h : Kept s0 s)
    (hf : ∀ s d r w, Kept s0 s → KeptR s0 (f s d r w)) : KeptR s0 (kilnWord op k s f) := by
  unfold kilnWord
  repeat' with_reducible first | assumption | exact KeptR_fault | apply KeptR_ok | apply missJob_kept | apply faultJob_kept | apply settleTo_kept | apply beginInst_kept | apply hf | split | extract_lets

theorem computeWord_kept {s0 : State} {a1 : Nat} {a2 : Nat} {s : State} (h : Kept s0 s) : KeptR s0 (computeWord a1 a2 s) := by
  refine kilnWord_kept h fun s d r w h => ?_
  split
  · exact KeptR_ok (faultJob_kept h)
  · exact nextWord_kept h (countEff_kept (kstore_kept h))

theorem execKExport_kept {s0 : State} {a1 : Nat} {s : State} (h : Kept s0 s) : KeptR s0 (execKExport a1 s) := by
  unfold execKExport
  repeat' with_reducible first | assumption | exact KeptR_fault | apply KeptR_ok | apply computeWord_kept

theorem execKVop_kept {s0 : State} {a1 : Nat} {s : State} (h : Kept s0 s) : KeptR s0 (execKVop a1 s) := by
  unfold execKVop
  repeat' with_reducible first | assumption | exact KeptR_fault | apply KeptR_ok | apply computeWord_kept

theorem execKDot_kept {s0 : State} {a1 : Nat} {s : State} (h : Kept s0 s) : KeptR s0 (execKDot a1 s) := by
  unfold execKDot
  repeat' with_reducible first | assumption | exact KeptR_fault | apply KeptR_ok | apply computeWord_kept

theorem execKNorm_kept {s0 : State} {a1 : Nat} {s : State} (h : Kept s0 s) : KeptR s0 (execKNorm a1 s) := by
  unfold execKNorm
  repeat' with_reducible first | assumption | exact KeptR_fault | apply KeptR_ok | apply computeWord_kept

theorem execKRecip_kept {s0 : State} {a1 : Nat} {s : State} (h : Kept s0 s) : KeptR s0 (execKRecip a1 s) := by
  unfold execKRecip
  repeat' with_reducible first | assumption | exact KeptR_fault | apply KeptR_ok | apply computeWord_kept

theorem execKSload_kept {s0 : State} {a1 : Nat} {s : State} (h : Kept s0 s) : KeptR s0 (execKSload a1 s) := by
  unfold execKSload
  repeat' with_reducible first | assumption | exact KeptR_fault | apply KeptR_ok | apply computeWord_kept

theorem execKSpmv_kept {s0 : State} {a1 : Nat} {s : State} (h : Kept s0 s) : KeptR s0 (execKSpmv a1 s) := by
  unfold execKSpmv
  repeat' with_reducible first | assumption | exact KeptR_fault | apply KeptR_ok | apply computeWord_kept

theorem execKFact_kept {s0 : State} {a1 : Nat} {s : State} (h : Kept s0 s) : KeptR s0 (execKFact a1 s) := by
  unfold execKFact
  repeat' with_reducible first | assumption | exact KeptR_fault | apply KeptR_ok | apply computeWord_kept

theorem execKSolve_kept {s0 : State} {a1 : Nat} {s : State} (h : Kept s0 s) : KeptR s0 (execKSolve a1 s) := by
  unfold execKSolve
  repeat' with_reducible first | assumption | exact KeptR_fault | apply KeptR_ok | apply computeWord_kept

theorem execKLoop_kept {s0 : State} {a1 : Nat} {s : State} (h : Kept s0 s) : KeptR s0 (execKLoop a1 s) := by
  refine kilnWord_kept h fun s d r w h => ?_
  dsimp only
  split
  · exact KeptR_ok (faultJob_kept h)
  split
  · exact nextWord_kept h h
  split
  · exact KeptR_ok (faultJob_kept h)
  · exact nextWord_kept h h

theorem execKEndloop_kept {s0 : State} {a1 : Nat} {s : State} (h : Kept s0 s) : KeptR s0 (execKEndloop a1 s) := by
  refine kilnWord_kept h fun s d r w h => ?_
  split
  · exact KeptR_ok (faultJob_kept h)
  split
  · exact nextWord_kept h h
  · exact nextWord_kept h h

theorem execKTest_kept {s0 : State} {a1 : Nat} {s : State} (h : Kept s0 s) : KeptR s0 (execKTest a1 s) := by
  refine kilnWord_kept h fun s d r w h => ?_
  dsimp only
  split
  · exact KeptR_ok (faultJob_kept h)
  split
  · split
    · exact KeptR_ok (faultJob_kept h)
    · exact nextWord_kept h h
  · exact nextWord_kept h h

theorem importFrom_kept {s0 : State} {k : Nat} {d : JobD} {w : KW} {u : Nat} {s : State} {r : KRun} (h : Kept s0 s) :
    KeptR s0 (importFrom k d w u s r) := by
  unfold importFrom
  extract_lets x
  split
  · extract_lets p s1
    have h1 : Kept s0 s1 := setRun_kept (importUnits_kept h)
    clear_value s1
    split
    · exact KeptR_ok h1
    split
    · exact KeptR_ok (missJob_kept h1)
    · exact nextWord_kept h1 h1
  · exact KeptR_ok (faultJob_kept h)

theorem execKImport_kept {s0 : State} {a1 : Nat} {s : State} (h : Kept s0 s) : KeptR s0 (execKImport a1 s) :=
  kilnWord_kept h fun _ _ _ _ h => importFrom_kept h

theorem execImportResume_kept {s0 : State} {a1 : Nat} {s : State} (h : Kept s0 s) : KeptR s0 (execImportResume a1 s) := by
  unfold execImportResume
  repeat' with_reducible first | assumption | exact KeptR_fault | apply KeptR_ok | apply settleTo_kept | apply ok_kept | apply missJob_kept | apply importFrom_kept | fail_if_no_progress (refine Kept_upd rfl rfl rfl rfl rfl rfl rfl rfl rfl rfl rfl rfl rfl ?_) | split | extract_lets

theorem execKEnd_kept {s0 : State} {a1 : Nat} {s : State} (h : Kept s0 s) : KeptR s0 (execKEnd a1 s) := by
  refine kilnWord_kept h fun s d r w h => ?_
  extract_lets p fin s1 n warm r1
  have hp : Kept s0 s1 := wordRun_kept h
  clear_value s1
  have hr (a b e : State) (c d : Prop) [Decidable c] [Decidable d] (ha : Kept s0 a) (hb : Kept s0 b) (he : Kept s0 e) :
      KeptR s0 (if c then ok e else if d then ok a else ok b) := by
    repeat' split
    · exact KeptR_ok he
    · exact KeptR_ok ha
    · exact KeptR_ok hb
  exact hr _ _ _ _ _ (setRun_kept hp) (setRun_kept hp) (missJob_kept h)

theorem commitInst_kept {s0 : State} {a1 : Nat} {a2 : JobD} {a3 : KRun} {s : State} {a5 : Nat × KInst} (h : Kept s0 s) : Kept s0 (commitInst a1 a2 a3 s a5) := by
  unfold commitInst
  repeat' with_reducible first | assumption | apply kstore_kept | split | extract_lets

theorem commitRun_kept {s0 : State} {s : State} {a2 : Nat} {a3 : KRun} {a4 : Nat} (h : Kept s0 s) : Kept s0 (commitRun s a2 a3 a4).1 := by
  unfold commitRun
  repeat' with_reducible first | assumption | apply portRun_kept | apply setRun_kept | apply portDone_kept

theorem finishCommit_kept {s0 : State} {s : State} {a2 : Nat} {a3 : Nat} (h : Kept s0 s) : Kept s0 (finishCommit s a2 a3) := by
  unfold finishCommit
  repeat' with_reducible first | assumption | refine Kept_foldl (fun _ _ _ => ?_) _ ?_ | refine Kept_foldl1 (fun _ _ _ => ?_) _ ?_ | apply commitInst_kept | apply endJob_kept | fail_if_no_progress (refine Kept_upd rfl rfl rfl rfl rfl rfl rfl rfl rfl rfl rfl rfl rfl ?_) | split | extract_lets

theorem dropJob_kept {s0 : State} {a1 : Nat} {a2 : Nat} {s : State} {a4 : KJob} (h : Kept s0 s) : Kept s0 (dropJob a1 a2 s a4) := by
  unfold dropJob
  repeat' with_reducible first | assumption | apply postNow_kept

theorem execKilnCommitDone_kept {s0 : State} {a1 : Nat} {s : State} (h : Kept s0 s) : KeptR s0 (execKilnCommitDone a1 s) := by
  unfold execKilnCommitDone
  repeat' with_reducible first | assumption | exact KeptR_fault | apply KeptR_ok | refine Kept_foldl (fun _ _ _ => ?_) _ ?_ | refine Kept_foldl1 (fun _ _ _ => ?_) _ ?_ | apply commitRun_kept | apply finishCommit_kept | apply ok_kept | apply dropJob_kept | apply setKiln_kept | fail_if_no_progress (refine Kept_upd rfl rfl rfl rfl rfl rfl rfl rfl rfl rfl rfl rfl rfl ?_) | split

theorem execDeadlineMiss_kept {s0 : State} {a1 : Nat} {s : State} (h : Kept s0 s) : KeptR s0 (execDeadlineMiss a1 s) := by
  unfold execDeadlineMiss
  repeat' with_reducible first | assumption | exact KeptR_fault | apply KeptR_ok | apply ok_kept | apply missJob_kept | fail_if_no_progress (refine Kept_upd rfl rfl rfl rfl rfl rfl rfl rfl rfl rfl rfl rfl rfl ?_) | split | extract_lets

theorem abandonKiln_kept {s0 : State} {s : State} {a2 : Nat} {a3 : Nat} (h : Kept s0 s) : Kept s0 (abandonKiln s a2 a3) := by
  unfold abandonKiln
  repeat' with_reducible first | assumption | refine Kept_foldl (fun _ _ _ => ?_) _ ?_ | refine Kept_foldl1 (fun _ _ _ => ?_) _ ?_ | apply stopChecks_kept | apply commitRun_kept | apply finishCommit_kept | apply stopJob_kept | apply dropJob_kept | apply setKiln_kept | fail_if_no_progress (refine Kept_upd rfl rfl rfl rfl rfl rfl rfl rfl rfl rfl rfl rfl rfl ?_) | split | extract_lets

theorem execKilnSoftReset_kept {s0 : State} {a1 : Nat} {s : State} (h : Kept s0 s) : KeptR s0 (execKilnSoftReset a1 s) := by
  unfold execKilnSoftReset
  repeat' with_reducible first | assumption | exact KeptR_fault | apply KeptR_ok | apply ok_kept | apply setRun_kept | apply abandonKiln_kept | fail_if_no_progress (refine Kept_upd rfl rfl rfl rfl rfl rfl rfl rfl rfl rfl rfl rfl rfl ?_) | split

theorem execKlnRdyclrWrite_kept {s0 : State} {a1 : Nat} {a2 : BitVec 32} {s : State} (h : Kept s0 s) : KeptR s0 (execKlnRdyclrWrite a1 a2 s) := by
  unfold execKlnRdyclrWrite
  repeat' with_reducible first | assumption | exact KeptR_fault | apply KeptR_ok | apply ok_kept | apply clearReady_kept | split

theorem forwardStranger_kept {s0 : State} {s : State} {a2 : Nat} {a3 : FabCell} (h : Kept s0 s) : Kept s0 (forwardStranger s a2 a3) := by
  unfold forwardStranger
  repeat' with_reducible first | assumption | apply portTx_kept | apply frtDrop_kept | apply bump_kept | apply notice_kept | apply wrs_kept | fail_if_no_progress (refine Kept_upd rfl rfl rfl rfl rfl rfl rfl rfl rfl rfl rfl rfl rfl ?_) | split

theorem forwardOwn_kept {s0 : State} {s : State} {a2 : Nat} {a3 : FabCell} (h : Kept s0 s) : Kept s0 (forwardOwn s a2 a3) := by
  unfold forwardOwn
  repeat' with_reducible first | assumption | apply routeCell_kept | apply nackFor_kept | split

theorem reroute_kept {s0 : State} {a1 : Nat} {s : State} {a3 : PortCell} (h : Kept s0 s) : Kept s0 (reroute a1 s a3) := by
  unfold reroute
  repeat' with_reducible first | assumption | apply forwardStranger_kept | apply forwardOwn_kept | split

theorem portOff_kept {s0 : State} {s : State} {a2 : Nat} {a3 : Bool} {a4 : List PortCell} (h : Kept s0 s) : Kept s0 (portOff s a2 a3 a4) := by
  unfold portOff
  repeat' with_reducible first | assumption | refine Kept_foldl (fun _ _ _ => ?_) _ ?_ | refine Kept_foldl1 (fun _ _ _ => ?_) _ ?_ | apply reroute_kept | apply setPort_kept

theorem portDownWith_kept {s0 : State} {s : State} {a2 : Nat} {a3 : Bool} {a4 : List PortCell} (h : Kept s0 s) : Kept s0 (portDownWith s a2 a3 a4) := by
  unfold portDownWith
  repeat' with_reducible first | assumption | apply wr_kept | apply portOff_kept | apply pageErrInfo_kept | apply bump_kept | apply notice_kept

theorem portDown_kept {s0 : State} {s : State} {a2 : Nat} (h : Kept s0 s) : Kept s0 (portDown s a2) := by
  unfold portDown
  repeat' with_reducible first | assumption | apply portDownWith_kept

theorem sendCoords_kept {s0 : State} {s : State} {a2 : Nat} (h : Kept s0 s) : Kept s0 (sendCoords s a2) := by
  unfold sendCoords
  repeat' with_reducible first | assumption | apply emit_kept

theorem takeCoords_kept {s0 : State} {s : State} {a2 : Nat} {a3 : Nat} {a4 : Nat} (h : Kept s0 s) : Kept s0 (takeCoords s a2 a3 a4) := by
  unfold takeCoords
  repeat' with_reducible first | assumption | refine Kept_foldl (fun _ _ _ => ?_) _ ?_ | refine Kept_foldl1 (fun _ _ _ => ?_) _ ?_ | apply wrs_kept | apply notice_kept | apply sendCoords_kept | fail_if_no_progress (refine Kept_upd rfl rfl rfl rfl rfl rfl rfl rfl rfl rfl rfl rfl rfl ?_)

theorem returnPort_kept {s0 : State} {s : State} {a2 : Nat} (h : Kept s0 s) : Kept s0 (returnPort s a2) := by
  unfold returnPort
  repeat' with_reducible first | assumption | fail_if_no_progress (refine Kept_upd rfl rfl rfl rfl rfl rfl rfl rfl rfl rfl rfl rfl rfl ?_) | split

theorem trainOrigin_kept {s0 : State} {s : State} (h : Kept s0 s) : Kept s0 (trainOrigin s) := by
  unfold trainOrigin
  repeat' with_reducible first | assumption | apply wr_kept | fail_if_no_progress (refine Kept_upd rfl rfl rfl rfl rfl rfl rfl rfl rfl rfl rfl rfl rfl ?_) | split

theorem execNeighbourHandshake_kept {s0 : State} {a1 : Nat} {a2 : Nat} {a3 : Nat} {a4 : Nat} {s : State} (h : Kept s0 s) : KeptR s0 (execNeighbourHandshake a1 a2 a3 a4 s) := by
  unfold execNeighbourHandshake
  repeat' with_reducible first | assumption | exact KeptR_fault | apply KeptR_ok | apply ok_kept | apply returnPort_kept | apply emit_kept | apply setPort_kept | apply wrs_kept | apply trainOrigin_kept | apply notice_kept | apply takeCoords_kept | apply wr_kept | apply sendCoords_kept | fail_if_no_progress (refine Kept_upd rfl rfl rfl rfl rfl rfl rfl rfl rfl rfl rfl rfl rfl ?_) | split

theorem execCoordMessage_kept {s0 : State} {a1 : Nat} {a2 : Nat} {a3 : Nat} {a4 : Nat} {a5 : Nat} {a6 : Nat} {a7 : Nat} {s : State} (h : Kept s0 s) : KeptR s0 (execCoordMessage a1 a2 a3 a4 a5 a6 a7 s) := by
  unfold execCoordMessage
  repeat' with_reducible first | assumption | exact KeptR_fault | apply KeptR_ok | apply ok_kept | apply portDown_kept | apply notice_kept | apply takeCoords_kept | apply wrs_kept | fail_if_no_progress (refine Kept_upd rfl rfl rfl rfl rfl rfl rfl rfl rfl rfl rfl rfl rfl ?_) | split

theorem fritDrop_kept {s0 : State} {s : State} (h : Kept s0 s) : Kept s0 (fritDrop s) := by
  unfold fritDrop
  repeat' with_reducible first | assumption | apply pageErrInfo_kept | apply bump_kept | apply notice_kept

theorem execCellForward_kept {s0 : State} {a1 : Nat} {a2 : FabCell} {a3 : Nat} {s : State} (h : Kept s0 s) : KeptR s0 (execCellForward a1 a2 a3 s) := by
  unfold execCellForward
  repeat' with_reducible first | assumption | exact KeptR_fault | apply KeptR_ok | apply ok_kept | apply bump_kept | apply setPort_kept | apply frtDrop_kept | apply forwardStranger_kept | apply nackFor_kept | apply fritDrop_kept | apply forwardOwn_kept | fail_if_no_progress (refine Kept_upd rfl rfl rfl rfl rfl rfl rfl rfl rfl rfl rfl rfl rfl ?_) | split | extract_lets

theorem execFecUncorrectable_kept {s0 : State} {a1 : Nat} {s : State} (h : Kept s0 s) : KeptR s0 (execFecUncorrectable a1 s) := by
  unfold execFecUncorrectable
  repeat' with_reducible first | assumption | exact KeptR_fault | apply KeptR_ok | apply ok_kept | apply emit_kept | apply pageErrInfo_kept | apply bump_kept | split

theorem setExpect_kept {s0 : State} {s : State} {a2 : Nat} {a3 : Nat} (h : Kept s0 s) : Kept s0 (setExpect s a2 a3) := by
  unfold setExpect
  repeat' with_reducible first | assumption | fail_if_no_progress (refine Kept_upd rfl rfl rfl rfl rfl rfl rfl rfl rfl rfl rfl rfl rfl ?_)

theorem dropHeld_kept {s0 : State} {s : State} {a2 : Nat} (h : Kept s0 s) : Kept s0 (dropHeld s a2) := by
  unfold dropHeld
  repeat' with_reducible first | assumption | fail_if_no_progress (refine Kept_upd rfl rfl rfl rfl rfl rfl rfl rfl rfl rfl rfl rfl rfl ?_)

theorem drainHeld_kept {s0 : State} {a1 : Nat} {a2 : Nat} {s : State} (h : Kept s0 s) : Kept s0 (drainHeld a1 a2 s).1 := by
  induction a2 generalizing s with
  | zero => unfold drainHeld; exact h
  | succ n ih =>
    unfold drainHeld; dsimp only
    repeat' with_reducible first | apply ih | assumption | apply setExpect_kept | fail_if_no_progress (refine Kept_upd rfl rfl rfl rfl rfl rfl rfl rfl rfl rfl rfl rfl rfl ?_) | split

theorem closeGap_kept {s0 : State} {s : State} {a2 : Nat} {a3 : List FabCell} (h : Kept s0 s) : Kept s0 (closeGap s a2 a3) := by
  unfold closeGap
  repeat' with_reducible first | assumption | refine Kept_foldl (fun _ _ _ => ?_) _ ?_ | refine Kept_foldl1 (fun _ _ _ => ?_) _ ?_ | apply setExpect_kept | apply dropHeld_kept | apply bump_kept | apply notice_kept | apply nack_kept | fail_if_no_progress (refine Kept_upd rfl rfl rfl rfl rfl rfl rfl rfl rfl rfl rfl rfl rfl ?_)

theorem letIn_kept {s0 : State} {s : State} {a2 : FabCell} (h : Kept s0 s) : Kept s0 (letIn s a2).1 := by
  unfold letIn
  repeat' with_reducible first | assumption | apply setExpect_kept | apply drainHeld_kept | apply bump_kept | apply notice_kept | apply dropHeld_kept | apply closeGap_kept | fail_if_no_progress (refine Kept_upd rfl rfl rfl rfl rfl rfl rfl rfl rfl rfl rfl rfl rfl ?_) | split | extract_lets | refine Kept_ite ?_ ?_

theorem commitUnit_kept {s0 : State} {s : State} {a2 : FabCell} (h : Kept s0 s) : Kept s0 (commitUnit s a2) := by
  unfold commitUnit
  extract_lets k cells f s1 c met status
  have h1 : Kept s0 s1 := Kept_upd rfl rfl rfl rfl rfl rfl rfl rfl rfl rfl rfl rfl rfl h
  clear_value s1 status
  split
  · exact nack_kept (Kept_upd rfl rfl rfl rfl rfl rfl rfl rfl rfl rfl rfl rfl rfl h1)
  · refine answer_kept (memAccess_kept ?_)
    exact Kept_foldl (fun _ _ k => storeUnit_kept (touchKiln_kept k)) _ (carry_kept h1)

theorem answerRead_kept {s0 : State} {s : State} {a2 : FabCell} (h : Kept s0 s) : Kept s0 (answerRead s a2) := by
  unfold answerRead
  repeat' with_reducible first | assumption | refine Kept_foldl (fun _ _ _ => ?_) _ ?_ | refine Kept_foldl1 (fun _ _ _ => ?_) _ ?_ | apply nack_kept | apply carry_kept | apply memAccess_kept | apply touchKiln_kept | apply answer_kept | fail_if_no_progress (refine Kept_upd rfl rfl rfl rfl rfl rfl rfl rfl rfl rfl rfl rfl rfl ?_) | split

theorem faddWord_kept {s0 : State} {s : State} {a2 : Nat} {a3 : Nat} (h : Kept s0 s) : Kept s0 (faddWord s a2 a3).2 := by
  unfold faddWord
  repeat' with_reducible first | assumption | apply store_kept

theorem answerFadd_kept {s0 : State} {s : State} {a2 : FabCell} (h : Kept s0 s) : Kept s0 (answerFadd s a2) := by
  unfold answerFadd
  repeat' with_reducible first | assumption | apply nack_kept | apply carry_kept | apply faddWord_kept | apply memAccess_kept | apply answer_kept | fail_if_no_progress (refine Kept_upd rfl rfl rfl rfl rfl rfl rfl rfl rfl rfl rfl rfl rfl ?_) | split

theorem applyRequest_kept {s0 : State} {s : State} {a2 : FabCell} (h : Kept s0 s) : Kept s0 (applyRequest s a2) := by
  unfold applyRequest
  repeat' with_reducible first | assumption | apply commitUnit_kept | apply answerRead_kept | apply answerFadd_kept | fail_if_no_progress (refine Kept_upd rfl rfl rfl rfl rfl rfl rfl rfl rfl rfl rfl rfl rfl ?_) | split

theorem request_kept {s0 : State} {a1 : Nat} {a2 : FabCell} {s : State} (h : Kept s0 s) : KeptR s0 (request a1 a2 s) := by
  unfold request
  repeat' with_reducible first | assumption | exact KeptR_fault | apply KeptR_ok | refine Kept_foldl (fun _ _ _ => ?_) _ ?_ | refine Kept_foldl1 (fun _ _ _ => ?_) _ ?_ | apply ok_kept | apply letIn_kept | apply applyRequest_kept | split

theorem execCellWrite_kept {s0 : State} {a1 : FabCell} {s : State} (h : Kept s0 s) : KeptR s0 (execCellWrite a1 s) := by
  unfold execCellWrite
  repeat' with_reducible first | assumption | exact KeptR_fault | apply KeptR_ok | apply request_kept

theorem execCellWriteEnd_kept {s0 : State} {a1 : FabCell} {s : State} (h : Kept s0 s) : KeptR s0 (execCellWriteEnd a1 s) := by
  unfold execCellWriteEnd
  repeat' with_reducible first | assumption | exact KeptR_fault | apply KeptR_ok | apply request_kept

theorem execCellRead_kept {s0 : State} {a1 : FabCell} {s : State} (h : Kept s0 s) : KeptR s0 (execCellRead a1 s) := by
  unfold execCellRead
  repeat' with_reducible first | assumption | exact KeptR_fault | apply KeptR_ok | apply request_kept

theorem execCellFadd_kept {s0 : State} {a1 : FabCell} {s : State} (h : Kept s0 s) : KeptR s0 (execCellFadd a1 s) := by
  unfold execCellFadd
  repeat' with_reducible first | assumption | exact KeptR_fault | apply KeptR_ok | apply request_kept

theorem execReorderGapTimeout_kept {s0 : State} {a1 : Nat} {a2 : Nat} {s : State} (h : Kept s0 s) : KeptR s0 (execReorderGapTimeout a1 a2 s) := by
  unfold execReorderGapTimeout
  repeat' with_reducible first | assumption | exact KeptR_fault | apply KeptR_ok | apply settleTo_kept | apply ok_kept | apply closeGap_kept | fail_if_no_progress (refine Kept_upd rfl rfl rfl rfl rfl rfl rfl rfl rfl rfl rfl rfl rfl ?_) | split | extract_lets

theorem answered_kept {s0 s : State} {t : Nat} {c : FabCell} {f : State → Res} (h : Kept s0 s) (hf : KeptR s0 (f s)) :
    KeptR s0 (answered t c s f) := by
  unfold answered
  split
  · exact KeptR_fault
  · split
    · exact KeptR_ok h
    · exact hf

theorem execCellAck_kept {s0 : State} {a1 : FabCell} {s : State} (h : Kept s0 s) : KeptR s0 (execCellAck a1 s) := by
  unfold execCellAck
  repeat' with_reducible first | assumption | exact KeptR_fault | apply KeptR_ok | apply answered_kept | apply ok_kept | apply orphan_kept | apply updCopy_kept | apply markRetried_kept | apply dropPends_kept | apply countKib_kept | fail_if_no_progress (refine Kept_upd rfl rfl rfl rfl rfl rfl rfl rfl rfl rfl rfl rfl rfl ?_) | split

theorem execDataCell_kept {s0 : State} {a1 : FabCell} {s : State} (h : Kept s0 s) : KeptR s0 (execDataCell a1 s) := by
  unfold execDataCell
  repeat' with_reducible first | assumption | exact KeptR_fault | apply KeptR_ok | apply answered_kept | apply ok_kept | apply orphan_kept | apply markRetried_kept | apply dropPends_kept | apply updCopy_kept | fail_if_no_progress (refine Kept_upd rfl rfl rfl rfl rfl rfl rfl rfl rfl rfl rfl rfl rfl ?_) | split | extract_lets

theorem faddResult_kept {s0 : State} {s : State} {a2 : Nat} {a3 : Nat} {a4 : Nat} {a5 : Nat} {a6 : Nat} {a7 : Flags} (h : Kept s0 s) : Kept s0 (faddResult s a2 a3 a4 a5 a6 a7) := by
  unfold faddResult
  repeat' with_reducible first | assumption | apply postAt_kept | apply carry_kept | apply memAccess_kept | apply store_kept | fail_if_no_progress (refine Kept_upd rfl rfl rfl rfl rfl rfl rfl rfl rfl rfl rfl rfl rfl ?_) | split

theorem execCellFaddResult_kept {s0 : State} {a1 : FabCell} {s : State} (h : Kept s0 s) : KeptR s0 (execCellFaddResult a1 s) := by
  unfold execCellFaddResult
  repeat' with_reducible first | assumption | exact KeptR_fault | apply KeptR_ok | apply answered_kept | apply ok_kept | apply orphan_kept | apply faddResult_kept | apply dropPends_kept | fail_if_no_progress (refine Kept_upd rfl rfl rfl rfl rfl rfl rfl rfl rfl rfl rfl rfl rfl ?_) | split

theorem ackDue_kept {s0 s : State} {stream n : Nat} {y : State × Pend} (e : ackDue stream n s = some y) (h : Kept s0 s) : Kept s0 y.1 := by
  induction n generalizing s with
  | zero => unfold ackDue at e; cases e
  | succ n ih =>
    unfold ackDue at e
    split at e
    · cases e
    · rename_i p _
      generalize hz : settleTo s (p.sentAt + rd s Fd.fmaAckToCycles) = z at e
      have h1 : Kept s0 z := hz ▸ settleTo_kept h
      dsimp only at e
      split at e
      · cases e
      · split at e
        · cases e; exact h1
        · exact ih e h1

theorem execAckTimeout_kept {s0 : State} {a1 : Nat} {s : State} (h : Kept s0 s) : KeptR s0 (execAckTimeout a1 s) := by
  unfold execAckTimeout
  repeat' with_reducible first | assumption | exact KeptR_fault | apply KeptR_ok | refine ackDue_kept (by assumption) ?_ | apply ok_kept | apply endRequest_kept | apply bump_kept | apply notice_kept | fail_if_no_progress (refine Kept_upd rfl rfl rfl rfl rfl rfl rfl rfl rfl rfl rfl rfl rfl ?_) | split

theorem sendFadd_kept {s0 : State} {s : State} {a2 : List Byte} {a3 : Nat} (h : Kept s0 s) : Kept s0 (sendFadd s a2 a3) := by
  unfold sendFadd
  repeat' with_reducible first | assumption | apply sendReq_kept | apply addPend_kept

theorem execRequestCreditGrant_kept {s0 : State} {a1 : Nat} {s : State} (h : Kept s0 s) : KeptR s0 (execRequestCreditGrant a1 s) := by
  unfold execRequestCreditGrant
  repeat' with_reducible first | assumption | exact KeptR_fault | apply KeptR_ok | apply settle_kept | apply ok_kept | apply postNow_kept | apply sendFadd_kept | apply setCopy_kept | fail_if_no_progress (refine Kept_upd rfl rfl rfl rfl rfl rfl rfl rfl rfl rfl rfl rfl rfl ?_) | split | extract_lets

theorem localFadd_kept {s0 : State} {s : State} {a2 : List Byte} (h : Kept s0 s) : Kept s0 (localFadd s a2) := by
  unfold localFadd
  repeat' with_reducible first | assumption | apply carry_kept | apply memAccess_kept | apply faddWord_kept | apply faddResult_kept

theorem execFetchAdd_kept {s0 : State} {s : State} (h : Kept s0 s) : KeptR s0 (execFetchAdd s) := by
  unfold execFetchAdd
  repeat' with_reducible first | assumption | exact KeptR_fault | apply KeptR_ok | apply engineDeq_kept | apply emptyRead_kept | apply dropItem_kept | apply ok_kept | apply postNow_kept | apply localFadd_kept | apply sendFadd_kept | fail_if_no_progress (refine Kept_upd rfl rfl rfl rfl rfl rfl rfl rfl rfl rfl rfl rfl rfl ?_) | split | extract_lets | refine Kept_ite ?_ ?_

theorem execHubCopyItem_kept {s0 : State} {a1 : Nat} {s : State} (h : Kept s0 s) : KeptR s0 (execHubCopyItem a1 s) := by
  unfold execHubCopyItem
  repeat' with_reducible first | assumption | exact KeptR_fault | apply KeptR_ok | apply engineDeq_kept | apply emptyRead_kept | apply ok_kept | apply acceptCopy_kept | apply postLater_kept | apply dropItem_kept | split | extract_lets

theorem acceptAndStart_kept {s0 : State} {s : State} {a2 : Nat} {a3 : Nat} {a4 : Nat} {a5 : List Byte} (h : Kept s0 s) : KeptR s0 (acceptAndStart s a2 a3 a4 a5) := by
  unfold acceptAndStart
  repeat' with_reducible first | assumption | exact KeptR_fault | apply KeptR_ok | apply acceptCol_kept | apply ok_kept | apply startOp_kept | fail_if_no_progress (refine Kept_upd rfl rfl rfl rfl rfl rfl rfl rfl rfl rfl rfl rfl rfl ?_) | split | extract_lets

theorem takeCol_kept {s0 : State} {a1 : Nat} {a2 : Option Nat} {s : State} (h : Kept s0 s) : KeptR s0 (takeCol a1 a2 s) := by
  unfold takeCol
  repeat' with_reducible first | assumption | exact KeptR_fault | apply KeptR_ok | apply ok_kept | apply acceptAndStart_kept | apply engineDeq_kept | apply emptyRead_kept | apply postLater_kept | apply dropItem_kept | fail_if_no_progress (refine Kept_upd rfl rfl rfl rfl rfl rfl rfl rfl rfl rfl rfl rfl rfl ?_) | split | extract_lets | refine Kept_ite ?_ ?_ | refine Kept_ite1 ?_ ?_ | refine Kept_pair (by assumption) ?_ | refine takeIssue_kept (by assumption) ?_

theorem execColReduce_kept {s0 : State} {a1 : Option Nat} {s : State} (h : Kept s0 s) : KeptR s0 (execColReduce a1 s) := by
  unfold execColReduce
  repeat' with_reducible first | assumption | exact KeptR_fault | apply KeptR_ok | apply takeCol_kept

theorem execColBcast_kept {s0 : State} {a1 : Option Nat} {s : State} (h : Kept s0 s) : KeptR s0 (execColBcast a1 s) := by
  unfold execColBcast
  repeat' with_reducible first | assumption | exact KeptR_fault | apply KeptR_ok | apply takeCol_kept

theorem execColAllreduce_kept {s0 : State} {a1 : Option Nat} {s : State} (h : Kept s0 s) : KeptR s0 (execColAllreduce a1 s) := by
  unfold execColAllreduce
  repeat' with_reducible first | assumption | exact KeptR_fault | apply KeptR_ok | apply takeCol_kept

theorem execColRedscat_kept {s0 : State} {a1 : Option Nat} {s : State} (h : Kept s0 s) : KeptR s0 (execColRedscat a1 s) := by
  unfold execColRedscat
  repeat' with_reducible first | assumption | exact KeptR_fault | apply KeptR_ok | apply takeCol_kept

theorem execColAllgather_kept {s0 : State} {a1 : Option Nat} {s : State} (h : Kept s0 s) : KeptR s0 (execColAllgather a1 s) := by
  unfold execColAllgather
  repeat' with_reducible first | assumption | exact KeptR_fault | apply KeptR_ok | apply takeCol_kept

theorem execColRingpass_kept {s0 : State} {a1 : Option Nat} {s : State} (h : Kept s0 s) : KeptR s0 (execColRingpass a1 s) := by
  unfold execColRingpass
  repeat' with_reducible first | assumption | exact KeptR_fault | apply KeptR_ok | apply takeCol_kept

theorem execColFred_kept {s0 : State} {a1 : Option Nat} {s : State} (h : Kept s0 s) : KeptR s0 (execColFred a1 s) := by
  unfold execColFred
  repeat' with_reducible first | assumption | exact KeptR_fault | apply KeptR_ok | apply takeCol_kept

theorem execColBarrier_kept {s0 : State} {a1 : Option Nat} {s : State} (h : Kept s0 s) : KeptR s0 (execColBarrier a1 s) := by
  unfold execColBarrier
  repeat' with_reducible first | assumption | exact KeptR_fault | apply KeptR_ok | apply takeCol_kept

theorem execCollectiveOpStart_kept {s0 : State} {a1 : Nat} {s : State} (h : Kept s0 s) : KeptR s0 (execCollectiveOpStart a1 s) := by
  unfold execCollectiveOpStart
  repeat' with_reducible first | assumption | exact KeptR_fault | apply KeptR_ok | apply ok_kept | apply startOp_kept | fail_if_no_progress (refine Kept_upd rfl rfl rfl rfl rfl rfl rfl rfl rfl rfl rfl rfl rfl ?_) | split

theorem driveOp_kept {s0 : State} {g seq n : Nat} {f : State → COp → Bool} {s : State} (h : Kept s0 s) : Kept s0 (driveOp g seq f n s) := by
  induction n generalizing s with
  | zero => unfold driveOp; exact h
  | succ n ih =>
    unfold driveOp
    repeat' with_reducible first | apply ih | assumption | apply settleTo_kept | split

theorem execFiniteCheckDone_kept {s0 : State} {a1 : Nat} {s : State} (h : Kept s0 s) : KeptR s0 (execFiniteCheckDone a1 s) := by
  unfold execFiniteCheckDone
  repeat' with_reducible first | assumption | exact KeptR_fault | apply KeptR_ok | apply driveOp_kept | apply ok_kept | apply progress_kept | apply setOp_kept | fail_if_no_progress (refine Kept_upd rfl rfl rfl rfl rfl rfl rfl rfl rfl rfl rfl rfl rfl ?_) | split | extract_lets

theorem takeUp_kept {s0 : State} {s : State} {a2 : COp} {a3 : CSub} {a4 : CChunk} {a5 : Nat × Nat × List Byte} (h : Kept s0 s) : Kept s0 (takeUp s a2 a3 a4 a5) := by
  unfold takeUp
  repeat' with_reducible first | assumption | apply putChunk_kept | apply enterSlots_kept | fail_if_no_progress (refine Kept_upd rfl rfl rfl rfl rfl rfl rfl rfl rfl rfl rfl rfl rfl ?_) | split | extract_lets

theorem takeFromParent_kept {s0 : State} {s : State} {a2 : COp} {a3 : CSub} {a4 : Nat × Nat × List Byte} (h : Kept s0 s) : Kept s0 (takeFromParent s a2 a3 a4) := by
  unfold takeFromParent
  repeat' with_reducible first | assumption | apply putSub_kept | apply closeSub_kept | refine writeColBricks_kept (by assumption) ?_ | apply ok_kept | fail_if_no_progress (refine Kept_upd rfl rfl rfl rfl rfl rfl rfl rfl rfl rfl rfl rfl rfl ?_) | split | extract_lets | refine Kept_ite ?_ ?_ | refine Kept_ite1 ?_ ?_ | refine Kept_pair (by assumption) ?_ | refine writeColBricks_err (by assumption) ?_

theorem takeRing_kept {s0 : State} {s : State} {a2 : COp} {a3 : Nat × Nat × List Byte} (h : Kept s0 s) : Kept s0 (takeRing s a2 a3) := by
  unfold takeRing
  repeat' with_reducible first | assumption | apply setOp_kept | refine writeColBricks_kept (by assumption) ?_ | apply ok_kept | fail_if_no_progress (refine Kept_upd rfl rfl rfl rfl rfl rfl rfl rfl rfl rfl rfl rfl rfl ?_) | split | extract_lets | refine Kept_ite ?_ ?_ | refine Kept_ite1 ?_ ?_ | refine Kept_pair (by assumption) ?_ | refine writeColBricks_err (by assumption) ?_

theorem collCell_kept {s0 : State} {s : State} {a2 : FabCell} (h : Kept s0 s) : Kept s0 (collCell s a2) := by
  unfold collCell
  repeat' with_reducible first | assumption | apply genDrop_kept | apply progress_kept | apply takeRing_kept | apply takeUp_kept | apply takeFromParent_kept | fail_if_no_progress (refine Kept_upd rfl rfl rfl rfl rfl rfl rfl rfl rfl rfl rfl rfl rfl ?_) | split | extract_lets

theorem onReady_kept {s0 : State} {s : State} {a2 : COp} {a3 : Nat} {a4 : ColCtl} (h : Kept s0 s) : Kept s0 (onReady s a2 a3 a4) := by
  unfold onReady
  repeat' with_reducible first | assumption | apply genDrop_kept | apply putSub_kept | fail_if_no_progress (refine Kept_upd rfl rfl rfl rfl rfl rfl rfl rfl rfl rfl rfl rfl rfl ?_) | split

theorem onGrant_kept {s0 : State} {s : State} {a2 : COp} {a3 : Nat} {a4 : ColCtl} (h : Kept s0 s) : Kept s0 (onGrant s a2 a3 a4) := by
  unfold onGrant
  repeat' with_reducible first | assumption | apply genDrop_kept | apply streamUp_kept | apply markLeaving_kept | apply sendCells_kept | apply startStream_kept | apply putChunk_kept | fail_if_no_progress (refine Kept_upd rfl rfl rfl rfl rfl rfl rfl rfl rfl rfl rfl rfl rfl ?_) | split | extract_lets

theorem onExcl_kept {s0 : State} {s : State} {a2 : COp} {a3 : Nat} {a4 : ColCtl} (h : Kept s0 s) : Kept s0 (onExcl s a2 a3 a4) := by
  unfold onExcl
  repeat' with_reducible first | assumption | refine Kept_foldl (fun _ _ _ => ?_) _ ?_ | refine Kept_foldl1 (fun _ _ _ => ?_) _ ?_ | apply genDrop_kept | apply admEnd_kept | apply sendCtl_kept | apply putSub_kept | fail_if_no_progress (refine Kept_upd rfl rfl rfl rfl rfl rfl rfl rfl rfl rfl rfl rfl rfl ?_) | split

theorem onCtl_kept {s0 : State} {s : State} {a2 : COp} {a3 : Nat} {a4 : ColCtl} (h : Kept s0 s) : Kept s0 (onCtl s a2 a3 a4) := by
  unfold onCtl
  repeat' with_reducible first | assumption | apply onReady_kept | apply onGrant_kept | apply onExcl_kept | apply failOp_kept | fail_if_no_progress (refine Kept_upd rfl rfl rfl rfl rfl rfl rfl rfl rfl rfl rfl rfl rfl ?_) | split

theorem keepCtl_kept {s0 : State} {s : State} {a2 : Nat} {a3 : ColCtl} (h : Kept s0 s) : Kept s0 (keepCtl s a2 a3) := by
  unfold keepCtl
  repeat' with_reducible first | assumption | apply genDrop_kept | apply setGrp_kept | fail_if_no_progress (refine Kept_upd rfl rfl rfl rfl rfl rfl rfl rfl rfl rfl rfl rfl rfl ?_) | split

theorem ctlCell_kept {s0 : State} {s : State} {a2 : Nat} {a3 : ColCtl} (h : Kept s0 s) : Kept s0 (ctlCell s a2 a3) := by
  unfold ctlCell
  repeat' with_reducible first | assumption | apply genDrop_kept | apply progress_kept | apply keepCtl_kept | apply setOp_kept | apply onCtl_kept | apply failOp_kept | fail_if_no_progress (refine Kept_upd rfl rfl rfl rfl rfl rfl rfl rfl rfl rfl rfl rfl rfl ?_) | split

theorem applyColl_kept {s0 : State} {s : State} {a2 : FabCell} (h : Kept s0 s) : Kept s0 (applyColl s a2) := by
  unfold applyColl
  repeat' with_reducible first | assumption | apply ctlCell_kept | apply collCell_kept | split

theorem collRow_kept {s0 : State} {a1 : FabCell → Bool} {a2 : FabCell} {s : State} (h : Kept s0 s) : KeptR s0 (collRow a1 a2 s) := by
  unfold collRow
  repeat' with_reducible first | assumption | exact KeptR_fault | apply KeptR_ok | refine Kept_foldl (fun _ _ _ => ?_) _ ?_ | refine Kept_foldl1 (fun _ _ _ => ?_) _ ?_ | apply ok_kept | apply letIn_kept | apply applyColl_kept | split

theorem ctlRow_kept {s0 : State} {a1 : Nat} {a2 : FabCell} {s : State} (h : Kept s0 s) : KeptR s0 (ctlRow a1 a2 s) := by
  unfold ctlRow
  repeat' with_reducible first | assumption | exact KeptR_fault | apply KeptR_ok | apply collRow_kept

theorem execCollData_kept {s0 : State} {a1 : FabCell} {s : State} (h : Kept s0 s) : KeptR s0 (execCollData a1 s) := by
  unfold execCollData
  repeat' with_reducible first | assumption | exact KeptR_fault | apply KeptR_ok | apply collRow_kept

theorem execColOpen_kept {s0 : State} {a1 : FabCell} {s : State} (h : Kept s0 s) : KeptR s0 (execColOpen a1 s) := by
  unfold execColOpen
  repeat' with_reducible first | assumption | exact KeptR_fault | apply KeptR_ok | apply ctlRow_kept

theorem execColReady_kept {s0 : State} {a1 : FabCell} {s : State} (h : Kept s0 s) : KeptR s0 (execColReady a1 s) := by
  unfold execColReady
  repeat' with_reducible first | assumption | exact KeptR_fault | apply KeptR_ok | apply ctlRow_kept

theorem execColGrant_kept {s0 : State} {a1 : FabCell} {s : State} (h : Kept s0 s) : KeptR s0 (execColGrant a1 s) := by
  unfold execColGrant
  repeat' with_reducible first | assumption | exact KeptR_fault | apply KeptR_ok | apply ctlRow_kept

theorem execColExcl_kept {s0 : State} {a1 : FabCell} {s : State} (h : Kept s0 s) : KeptR s0 (execColExcl a1 s) := by
  unfold execColExcl
  repeat' with_reducible first | assumption | exact KeptR_fault | apply KeptR_ok | apply ctlRow_kept

theorem execColFail_kept {s0 : State} {a1 : FabCell} {s : State} (h : Kept s0 s) : KeptR s0 (execColFail a1 s) := by
  unfold execColFail
  repeat' with_reducible first | assumption | exact KeptR_fault | apply KeptR_ok | apply ctlRow_kept

theorem execChunkAdmit_kept {s0 : State} {a1 : Nat} {s : State} (h : Kept s0 s) : KeptR s0 (execChunkAdmit a1 s) := by
  unfold execChunkAdmit
  repeat' with_reducible first | assumption | exact KeptR_fault | apply KeptR_ok | apply ok_kept | apply progress_kept | apply claim_kept | apply admEnd_kept | fail_if_no_progress (refine Kept_upd rfl rfl rfl rfl rfl rfl rfl rfl rfl rfl rfl rfl rfl ?_) | split | extract_lets

theorem writeResult_kept {s0 : State} {s : State} {a2 : COp} {a3 : CSub} {a4 : CChunk} (h : Kept s0 s) : Kept s0 (writeResult s a2 a3 a4) := by
  unfold writeResult
  repeat' with_reducible first | assumption | refine writeColBricks_kept (by assumption) ?_ | apply ok_kept | apply putSub_kept | fail_if_no_progress (refine Kept_upd rfl rfl rfl rfl rfl rfl rfl rfl rfl rfl rfl rfl rfl ?_) | split | extract_lets | refine Kept_ite ?_ ?_ | refine Kept_ite1 ?_ ?_ | refine Kept_pair (by assumption) ?_ | refine writeColBricks_err (by assumption) ?_

theorem execChunkComplete_kept {s0 : State} {a1 : Nat} {a2 : Nat} {s : State} (h : Kept s0 s) : KeptR s0 (execChunkComplete a1 a2 s) := by
  unfold execChunkComplete
  repeat' with_reducible first | assumption | exact KeptR_fault | apply KeptR_ok | apply driveOp_kept | apply ok_kept | apply settleTo_kept | apply writeResult_kept | apply sendReady_kept | apply putChunk_kept | apply progress_kept | fail_if_no_progress (refine Kept_upd rfl rfl rfl rfl rfl rfl rfl rfl rfl rfl rfl rfl rfl ?_) | split | extract_lets

theorem lateFrit_kept {s0 : State} {s : State} {a2 : COp} (h : Kept s0 s) : Kept s0 (lateFrit s a2) := by
  unfold lateFrit
  repeat' with_reducible first | assumption | refine Kept_foldl (fun _ _ _ => ?_) _ ?_ | refine Kept_foldl1 (fun _ _ _ => ?_) _ ?_ | apply reportMiss_kept | apply bump_kept | apply notice_kept | apply setOp_kept

theorem execCollectiveDeadline_kept {s0 : State} {a1 : Nat} {s : State} (h : Kept s0 s) : KeptR s0 (execCollectiveDeadline a1 s) := by
  unfold execCollectiveDeadline
  repeat' with_reducible first | assumption | exact KeptR_fault | apply KeptR_ok | refine Kept_foldl (fun _ _ _ => ?_) _ ?_ | refine Kept_foldl1 (fun _ _ _ => ?_) _ ?_ | apply ok_kept | apply settleTo_kept | apply notice_kept | apply progress_kept | apply lateFrit_kept | apply setOp_kept | apply excludeKid_kept | apply putSub_kept | fail_if_no_progress (refine Kept_upd rfl rfl rfl rfl rfl rfl rfl rfl rfl rfl rfl rfl rfl ?_) | split | extract_lets

theorem execCollectiveOpTimeout_kept {s0 : State} {a1 : Nat} {s : State} (h : Kept s0 s) : KeptR s0 (execCollectiveOpTimeout a1 s) := by
  unfold execCollectiveOpTimeout
  repeat' with_reducible first | assumption | exact KeptR_fault | apply KeptR_ok | apply ok_kept | apply settleTo_kept | apply endOp_kept | apply failOp_kept | fail_if_no_progress (refine Kept_upd rfl rfl rfl rfl rfl rfl rfl rfl rfl rfl rfl rfl rfl ?_) | split | extract_lets

theorem execFritUp_kept {s0 : State} {a1 : Nat} {a2 : FritMsg} {s : State} (h : Kept s0 s) : KeptR s0 (execFritUp a1 a2 s) := by
  unfold execFritUp
  repeat' with_reducible first | assumption | exact KeptR_fault | apply KeptR_ok | apply ok_kept | apply fritDrop_kept | apply setGrp_kept | apply bump_kept | apply notice_kept | apply progress_kept | apply setOp_kept | fail_if_no_progress (refine Kept_upd rfl rfl rfl rfl rfl rfl rfl rfl rfl rfl rfl rfl rfl ?_) | split

theorem execFritDown_kept {s0 : State} {a1 : FritMsg} {s : State} (h : Kept s0 s) : KeptR s0 (execFritDown a1 s) := by
  unfold execFritDown
  repeat' with_reducible first | assumption | exact KeptR_fault | apply KeptR_ok | apply ok_kept | apply fritDrop_kept | apply takeDown_kept | fail_if_no_progress (refine Kept_upd rfl rfl rfl rfl rfl rfl rfl rfl rfl rfl rfl rfl rfl ?_) | split

theorem execFritMiss_kept {s0 : State} {a1 : Nat} {a2 : Nat} {a3 : Nat} {a4 : Nat} {a5 : Nat} {s : State} (h : Kept s0 s) : KeptR s0 (execFritMiss a1 a2 a3 a4 a5 s) := by
  unfold execFritMiss
  repeat' with_reducible first | assumption | exact KeptR_fault | apply KeptR_ok | apply ok_kept | apply fritDrop_kept | apply takeMiss_kept | fail_if_no_progress (refine Kept_upd rfl rfl rfl rfl rfl rfl rfl rfl rfl rfl rfl rfl rfl ?_) | split

theorem execFritReform_kept {s0 : State} {a1 : Nat} {a2 : Nat} {a3 : Nat} {a4 : List Nat} {s : State} (h : Kept s0 s) : KeptR s0 (execFritReform a1 a2 a3 a4 s) := by
  unfold execFritReform
  repeat' with_reducible first | assumption | exact KeptR_fault | apply KeptR_ok | apply ok_kept | apply fritDrop_kept | apply setGrp_kept | fail_if_no_progress (refine Kept_upd rfl rfl rfl rfl rfl rfl rfl rfl rfl rfl rfl rfl rfl ?_) | split

theorem execFritFail_kept {s0 : State} {a1 : Nat} {a2 : Nat} {a3 : Nat} {a4 : Nat} {s : State} (h : Kept s0 s) : KeptR s0 (execFritFail a1 a2 a3 a4 s) := by
  unfold execFritFail
  repeat' with_reducible first | assumption | exact KeptR_fault | apply KeptR_ok | apply ok_kept | apply fritDrop_kept | apply endOp_kept | fail_if_no_progress (refine Kept_upd rfl rfl rfl rfl rfl rfl rfl rfl rfl rfl rfl rfl rfl ?_) | split

theorem execCellNack_kept {s0 : State} {a1 : FabCell} {s : State} (h : Kept s0 s) : KeptR s0 (execCellNack a1 s) := by
  unfold execCellNack
  repeat' with_reducible first | assumption | exact KeptR_fault | apply KeptR_ok | apply answered_kept | apply ok_kept | apply nacked_kept

theorem resend_kept {s0 : State} {s : State} {a2 : Nat} {a3 : Nat} {a4 : PortX} (h : Kept s0 s) : Kept s0 (resend s a2 a3 a4) := by
  unfold resend
  repeat' with_reducible first | assumption | refine Kept_foldl (fun _ _ _ => ?_) _ ?_ | refine Kept_foldl1 (fun _ _ _ => ?_) _ ?_ | apply setPort_kept | apply bump_kept | apply notice_kept | apply emit_kept

theorem execLinkRetryRequest_kept {s0 : State} {a1 : Nat} {a2 : Nat} {a3 : Bool} {s : State} (h : Kept s0 s) : KeptR s0 (execLinkRetryRequest a1 a2 a3 s) := by
  unfold execLinkRetryRequest
  repeat' with_reducible first | assumption | exact KeptR_fault | apply KeptR_ok | apply ok_kept | apply wr_kept | apply resend_kept | apply portDownWith_kept | fail_if_no_progress (refine Kept_upd rfl rfl rfl rfl rfl rfl rfl rfl rfl rfl rfl rfl rfl ?_) | split | extract_lets

end Sys2Proof.Machine
end

