-- ==== Sys2Proof/Laws/KeptModule.lean ====
section
/-! SUPPORT. The host, the security controller, bring-up, resets, the turn and register writes keep what Kept says (Laws/Kept.lean): one lemma
for each operation and each meaning. -/

namespace Sys2Proof.Machine

theorem fromHost_kept {s0 s : State} {up : Bool} {k : Res} (h : Kept s0 s) (hk : KeptR s0 k) : KeptR s0 (fromHost s up k) := by
  unfold fromHost
  split
  · exact KeptR_ok h
  · exact hk

theorem barAccess_kept {s0 s : State} {k : Res} (h : Kept s0 s) (hk : KeptR s0 k) : KeptR s0 (barAccess s k) := by
  unfold barAccess
  refine fromHost_kept h ?_
  split
  · exact hk
  · exact KeptR_ok (emit_kept h)

theorem execCxlLinkUp_kept {s0 : State} {a1 : Nat} {a2 : Nat} {a3 : Nat} {a4 : Bool} {s : State} (h : Kept s0 s) : KeptR s0 (execCxlLinkUp a1 a2 a3 a4 s) := by
  unfold execCxlLinkUp
  repeat' with_reducible first | assumption | exact KeptR_fault | apply KeptR_ok | apply ok_kept | apply wrs_kept | fail_if_no_progress (refine Kept_upd rfl rfl rfl rfl rfl rfl rfl rfl rfl rfl rfl rfl rfl ?_) | split

theorem execLinkRetrain_kept {s0 : State} {a1 : Nat} {a2 : Nat} {a3 : Nat} {s : State} (h : Kept s0 s) : KeptR s0 (execLinkRetrain a1 a2 a3 s) := by
  unfold execLinkRetrain
  repeat' with_reducible first | assumption | exact KeptR_fault | apply KeptR_ok | apply ok_kept | apply notice_kept | apply wrs_kept | split

theorem linkDown_kept {s0 : State} {s : State} (h : Kept s0 s) : Kept s0 (linkDown s) := by
  unfold linkDown
  repeat' with_reducible first | assumption | apply wrs_kept | fail_if_no_progress (refine Kept_upd rfl rfl rfl rfl rfl rfl rfl rfl rfl rfl rfl rfl rfl ?_)

theorem execCxlLinkDrop_kept {s0 : State} {s : State} (h : Kept s0 s) : KeptR s0 (execCxlLinkDrop s) := by
  unfold execCxlLinkDrop
  repeat' with_reducible first | assumption | exact KeptR_fault | apply KeptR_ok | apply ok_kept | apply linkDown_kept | split

theorem sendMsix_kept {s0 : State} {s : State} {a2 : Nat} (h : Kept s0 s) : Kept s0 (sendMsix s a2) := by
  unfold sendMsix
  repeat' with_reducible first | assumption | apply emit_kept | fail_if_no_progress (refine Kept_upd rfl rfl rfl rfl rfl rfl rfl rfl rfl rfl rfl rfl rfl ?_) | split

theorem releaseMsix_kept {s0 : State} {s : State} {a2 : Nat} (h : Kept s0 s) : Kept s0 (releaseMsix s a2) := by
  unfold releaseMsix
  repeat' with_reducible first | assumption | apply emit_kept | fail_if_no_progress (refine Kept_upd rfl rfl rfl rfl rfl rfl rfl rfl rfl rfl rfl rfl rfl ?_) | split

theorem setMsixWord_kept {s0 : State} {s : State} {a2 : Nat} {a3 : Nat} (h : Kept s0 s) : Kept s0 (setMsixWord s a2 a3) := by
  unfold setMsixWord
  repeat' with_reducible first | assumption | apply releaseMsix_kept | fail_if_no_progress (refine Kept_upd rfl rfl rfl rfl rfl rfl rfl rfl rfl rfl rfl rfl rfl ?_) | split

theorem setCfg_kept {s0 : State} {s : State} {a2 : Cfg} (h : Kept s0 s) : Kept s0 (setCfg s a2) := by
  unfold setCfg
  repeat' with_reducible first | assumption | fail_if_no_progress (refine Kept_upd rfl rfl rfl rfl rfl rfl rfl rfl rfl rfl rfl rfl rfl ?_)

theorem cfgWrite_kept {s0 : State} {s : State} {a2 : CfgReg} {a3 : Nat} (h : Kept s0 s) : Kept s0 (cfgWrite s a2 a3) := by
  unfold cfgWrite
  repeat' with_reducible first | assumption | refine Kept_foldl (fun _ _ _ => ?_) _ ?_ | refine Kept_foldl1 (fun _ _ _ => ?_) _ ?_ | apply setCfg_kept | apply releaseMsix_kept | fail_if_no_progress (refine Kept_upd rfl rfl rfl rfl rfl rfl rfl rfl rfl rfl rfl rfl rfl ?_) | split

theorem execConfigurationRequest_kept {s0 : State} {a1 : CfgReg} {a2 : Option (BitVec 32)} {s : State} (h : Kept s0 s) : KeptR s0 (execConfigurationRequest a1 a2 s) := by
  unfold execConfigurationRequest
  repeat' with_reducible first | assumption | exact KeptR_fault | apply KeptR_ok | apply fromHost_kept | apply ok_kept | apply emit_kept | apply cfgWrite_kept | fail_if_no_progress (refine Kept_upd rfl rfl rfl rfl rfl rfl rfl rfl rfl rfl rfl rfl rfl ?_) | split

theorem execDoeRequest_kept {s0 : State} {a1 : DoeProto} {s : State} (h : Kept s0 s) : KeptR s0 (execDoeRequest a1 s) := by
  unfold execDoeRequest
  repeat' with_reducible first | assumption | exact KeptR_fault | apply KeptR_ok | apply fromHost_kept | apply ok_kept | apply emit_kept | fail_if_no_progress (refine Kept_upd rfl rfl rfl rfl rfl rfl rfl rfl rfl rfl rfl rfl rfl ?_) | split

theorem serveDoe_kept {s0 : State} {s : State} (h : Kept s0 s) : Kept s0 (serveDoe s) := by
  unfold serveDoe
  repeat' with_reducible first | assumption | refine Kept_foldl (fun _ _ _ => ?_) _ ?_ | refine Kept_foldl1 (fun _ _ _ => ?_) _ ?_ | apply emit_kept | fail_if_no_progress (refine Kept_upd rfl rfl rfl rfl rfl rfl rfl rfl rfl rfl rfl rfl rfl ?_)

theorem execWindowEnqueue_kept {s0 : State} {a1 : Nat} {a2 : List Byte} {s : State} (h : Kept s0 s) : KeptR s0 (execWindowEnqueue a1 a2 s) := by
  unfold execWindowEnqueue
  repeat' with_reducible first | assumption | exact KeptR_fault | apply KeptR_ok | apply barAccess_kept | apply ok_kept | apply bump_kept | apply notice_kept | apply hostEnq_kept | split

theorem execWindowDequeue_kept {s0 : State} {a1 : Nat} {a2 : Nat} {s : State} (h : Kept s0 s) : KeptR s0 (execWindowDequeue a1 a2 s) := by
  unfold execWindowDequeue
  repeat' with_reducible first | assumption | exact KeptR_fault | apply KeptR_ok | apply barAccess_kept | apply ok_kept | apply emit_kept | apply deqCell_kept | split

theorem execMsixNoticeEvent_kept {s0 : State} {s : State} (h : Kept s0 s) : KeptR s0 (execMsixNoticeEvent s) := by
  unfold execMsixNoticeEvent
  repeat' with_reducible first | assumption | exact KeptR_fault | apply KeptR_ok | apply ok_kept | apply sendMsix_kept | apply wr_kept | split

theorem hdmBad_kept {s0 : State} {s : State} {a2 : Nat} (h : Kept s0 s) : Kept s0 (hdmBad s a2) := by
  unfold hdmBad
  repeat' with_reducible first | assumption | apply pageErrInfo_kept | apply bump_kept | apply notice_kept

theorem hdmShare_kept {s0 : State} {s : State} {a2 : Nat} (h : Kept s0 s) : Kept s0 (hdmShare s a2) := by
  unfold hdmShare
  repeat' with_reducible first | assumption | apply bump_kept | apply requestPc_kept | fail_if_no_progress (refine Kept_upd rfl rfl rfl rfl rfl rfl rfl rfl rfl rfl rfl rfl rfl ?_) | split | extract_lets

theorem evictLine_kept {s0 : State} {s : State} (h : Kept s0 s) : Kept s0 (evictLine s) := by
  unfold evictLine
  repeat' with_reducible first | assumption | refine Kept_foldl (fun _ _ _ => ?_) _ ?_ | refine Kept_foldl1 (fun _ _ _ => ?_) _ ?_ | apply emit_kept | fail_if_no_progress (refine Kept_upd rfl rfl rfl rfl rfl rfl rfl rfl rfl rfl rfl rfl rfl ?_) | split | extract_lets

theorem grantLine_kept {s0 : State} {s : State} {a2 : Nat} (h : Kept s0 s) : Kept s0 (grantLine s a2) := by
  unfold grantLine
  repeat' with_reducible first | assumption | fail_if_no_progress (refine Kept_upd rfl rfl rfl rfl rfl rfl rfl rfl rfl rfl rfl rfl rfl ?_)

theorem hdmServe_kept {s0 : State} {s : State} {a2 : Nat} {a3 : Nat} (h : Kept s0 s) : Kept s0 (hdmServe s a2 a3) := by
  unfold hdmServe
  repeat' with_reducible first | assumption | apply emit_kept | apply hdmBad_kept | apply carry_kept | apply grantLine_kept | apply hdmShare_kept | split

theorem execHdmRead_kept {s0 : State} {a1 : Nat} {a2 : Nat} {s : State} (h : Kept s0 s) : KeptR s0 (execHdmRead a1 a2 s) := by
  unfold execHdmRead
  repeat' with_reducible first | assumption | exact KeptR_fault | apply KeptR_ok | apply ok_kept | apply fromHost_kept | apply hdmServe_kept | apply evictLine_kept | fail_if_no_progress (refine Kept_upd rfl rfl rfl rfl rfl rfl rfl rfl rfl rfl rfl rfl rfl ?_) | split

theorem execHdmWrite_kept {s0 : State} {a1 : Nat} {a2 : List Byte} {s : State} (h : Kept s0 s) : KeptR s0 (execHdmWrite a1 a2 s) := by
  unfold execHdmWrite
  split
  · exact KeptR_ok h
  refine fromHost_kept h ?_
  split
  · exact KeptR_ok (hdmBad_kept h)
  split
  · exact KeptR_ok (bump_kept h)
  · exact KeptR_ok (Kept_mem (fun w => memWf_write w) (carry_kept (hdmShare_kept h)))

theorem serveHeld_kept {s0 : State} {l : List (Nat × Nat)} {s : State} (h : Kept s0 s) : Kept s0 (serveHeld l s) := by
  induction l generalizing s with
  | nil => unfold serveHeld; exact Kept_upd rfl rfl rfl rfl rfl rfl rfl rfl rfl rfl rfl rfl rfl h
  | cons a t ih =>
    unfold serveHeld
    split
    · exact Kept_upd rfl rfl rfl rfl rfl rfl rfl rfl rfl rfl rfl rfl rfl h
    split
    · exact ih (hdmServe_kept h)
    · exact Kept_upd rfl rfl rfl rfl rfl rfl rfl rfl rfl rfl rfl rfl rfl h

theorem untrack_kept {s0 : State} {s : State} {a2 : Nat} (h : Kept s0 s) : Kept s0 (untrack s a2) := by
  unfold untrack
  repeat' with_reducible first | assumption | apply serveHeld_kept | fail_if_no_progress (refine Kept_upd rfl rfl rfl rfl rfl rfl rfl rfl rfl rfl rfl rfl rfl ?_)

theorem sendOwedSnoops_kept {s0 : State} {s : State} (h : Kept s0 s) : Kept s0 (sendOwedSnoops s) := by
  unfold sendOwedSnoops
  repeat' with_reducible first | assumption | refine Kept_foldl (fun _ _ _ => ?_) _ ?_ | refine Kept_foldl1 (fun _ _ _ => ?_) _ ?_ | apply emit_kept | apply serveHeld_kept | fail_if_no_progress (refine Kept_upd rfl rfl rfl rfl rfl rfl rfl rfl rfl rfl rfl rfl rfl ?_)

theorem execBirsp_kept {s0 : State} {a1 : Nat} {a2 : Bool} {s : State} (h : Kept s0 s) : KeptR s0 (execBirsp a1 a2 s) := by
  unfold execBirsp
  repeat' with_reducible first | assumption | exact KeptR_fault | apply KeptR_ok | apply ok_kept | apply bump_kept | apply untrack_kept | fail_if_no_progress (refine Kept_upd rfl rfl rfl rfl rfl rfl rfl rfl rfl rfl rfl rfl rfl ?_) | split

theorem execBiTimeout_kept {s0 : State} {a1 : Nat} {s : State} (h : Kept s0 s) : KeptR s0 (execBiTimeout a1 s) := by
  unfold execBiTimeout
  repeat' with_reducible first | assumption | exact KeptR_fault | apply KeptR_ok | apply settleTo_kept | apply ok_kept | apply untrack_kept | apply pageErrInfo_kept | apply bump_kept | apply notice_kept | fail_if_no_progress (refine Kept_upd rfl rfl rfl rfl rfl rfl rfl rfl rfl rfl rfl rfl rfl ?_) | split

theorem touchLine_kept {s0 : State} {s : State} {a2 : Nat} {a3 : Bool} (h : Kept s0 s) : Kept s0 (touchLine s a2 a3) := by
  unfold touchLine
  repeat' with_reducible first | assumption | fail_if_no_progress (refine Kept_upd rfl rfl rfl rfl rfl rfl rfl rfl rfl rfl rfl rfl rfl ?_)

theorem execHostSnoop_kept {s0 : State} {a1 : Nat} {s : State} (h : Kept s0 s) : KeptR s0 (execHostSnoop a1 s) := by
  unfold execHostSnoop
  repeat' with_reducible first | assumption | exact KeptR_fault | apply KeptR_ok | apply fromHost_kept | apply ok_kept | fail_if_no_progress (refine Kept_upd rfl rfl rfl rfl rfl rfl rfl rfl rfl rfl rfl rfl rfl ?_)

theorem ringMessage_kept {s0 : State} {s : State} {a2 : Nat} (h : Kept s0 s) : Kept s0 (ringMessage s a2) := by
  unfold ringMessage
  repeat' with_reducible first | assumption | apply sendMsix_kept | apply wr_kept | split

theorem execRingDrain_kept {s0 : State} {a1 : Nat} {s : State} (h : Kept s0 s) : KeptR s0 (execRingDrain a1 s) := by
  unfold execRingDrain
  repeat' with_reducible first | assumption | exact KeptR_fault | apply KeptR_ok | apply ok_kept | apply deqCell_kept | apply emptyRead_kept | apply bump_kept | apply emit_kept | apply touchLine_kept | apply ringMessage_kept | apply wr_kept | split | extract_lets

theorem execRingFill_kept {s0 : State} {a1 : Nat} {a2 : List Byte} {s : State} (h : Kept s0 s) : KeptR s0 (execRingFill a1 a2 s) := by
  unfold execRingFill
  repeat' with_reducible first | assumption | exact KeptR_fault | apply KeptR_ok | apply ok_kept | apply settle_kept | apply touchLine_kept | apply wr_kept | apply hostEnq_kept | split | extract_lets

theorem writeHead_kept {s0 : State} {s : State} {a2 : Nat} {a3 : Nat} (h : Kept s0 s) : Kept s0 (writeHead s a2 a3) := by
  unfold writeHead
  repeat' with_reducible first | assumption | apply notice_kept | apply wr_kept | apply ringMessage_kept | split | extract_lets

theorem writeTail_kept {s0 : State} {s : State} {a2 : Nat} {a3 : Nat} (h : Kept s0 s) : Kept s0 (writeTail s a2 a3) := by
  unfold writeTail
  repeat' with_reducible first | assumption | apply notice_kept | apply wr_kept | split | extract_lets

theorem execHifRingHeadWrite_kept {s0 : State} {a1 : Nat} {a2 : BitVec 32} {s : State} (h : Kept s0 s) : KeptR s0 (execHifRingHeadWrite a1 a2 s) := by
  unfold execHifRingHeadWrite
  repeat' with_reducible first | assumption | exact KeptR_fault | apply KeptR_ok | apply ok_kept | apply writeHead_kept | split

theorem execHifRingTailWrite_kept {s0 : State} {a1 : Nat} {a2 : BitVec 32} {s : State} (h : Kept s0 s) : KeptR s0 (execHifRingTailWrite a1 a2 s) := by
  unfold execHifRingTailWrite
  repeat' with_reducible first | assumption | exact KeptR_fault | apply KeptR_ok | apply ok_kept | apply writeTail_kept | split

theorem execIdeIntegrityFailure_kept {s0 : State} {s : State} (h : Kept s0 s) : KeptR s0 (execIdeIntegrityFailure s) := by
  unfold execIdeIntegrityFailure
  repeat' with_reducible first | assumption | exact KeptR_fault | apply KeptR_ok | apply pageErrInfo_kept | apply notice_kept | apply wr_kept | apply ok_kept | apply emit_kept | split

theorem execFlr_kept {s0 : State} {s : State} (h : Kept s0 s) : KeptR s0 (execFlr s) := by
  unfold execFlr
  repeat' with_reducible first | assumption | exact KeptR_fault | apply KeptR_ok | refine Kept_foldl (fun _ _ _ => ?_) _ ?_ | refine Kept_foldl1 (fun _ _ _ => ?_) _ ?_ | apply ok_kept | apply settle_kept | apply flushQueue_kept | apply wr_kept | apply resetRegs_kept | fail_if_no_progress (refine Kept_upd rfl rfl rfl rfl rfl rfl rfl rfl rfl rfl rfl rfl rfl ?_) | split

theorem beginUpdate_kept {s0 : State} {s : State} {a2 : Nat} {a3 : List Byte} (h : Kept s0 s) : Kept s0 (beginUpdate s a2 a3) := by
  unfold beginUpdate
  repeat' with_reducible first | assumption | apply secError_kept | refine setSec_kept rfl ?_ | apply showState_kept | fail_if_no_progress (refine Kept_upd rfl rfl rfl rfl rfl rfl rfl rfl rfl rfl rfl rfl rfl ?_) | split

theorem dataChunk_kept {s0 : State} {s : State} {a2 : Nat} {a3 : Nat} {a4 : Nat} {a5 : List Byte} (h : Kept s0 s) : Kept s0 (dataChunk s a2 a3 a4 a5) := by
  unfold dataChunk
  repeat' with_reducible first | assumption | apply secError_kept | apply wr_kept | refine setSec_kept rfl ?_ | fail_if_no_progress (refine Kept_upd rfl rfl rfl rfl rfl rfl rfl rfl rfl rfl rfl rfl rfl ?_) | split | extract_lets

theorem verifyUpdate_kept {s0 : State} {s : State} {a2 : Nat} (h : Kept s0 s) : Kept s0 (verifyUpdate s a2) := by
  unfold verifyUpdate
  repeat' with_reducible first | assumption | apply secError_kept | apply wr_kept | refine setSec_kept rfl ?_ | fail_if_no_progress (refine Kept_upd rfl rfl rfl rfl rfl rfl rfl rfl rfl rfl rfl rfl rfl ?_) | split

theorem verifyResult_kept {s0 : State} {s : State} (h : Kept s0 s) : Kept s0 (verifyResult s) := by
  unfold verifyResult
  repeat' with_reducible first | assumption | refine setSec_kept rfl ?_ | apply secError_kept | apply wr_kept | fail_if_no_progress (refine Kept_upd rfl rfl rfl rfl rfl rfl rfl rfl rfl rfl rfl rfl rfl ?_) | split | extract_lets

theorem endCommand_kept {s0 : State} {s : State} (h : Kept s0 s) : Kept s0 (endCommand s) := by
  unfold endCommand
  repeat' with_reducible first | assumption | apply wr_kept | apply settleTo_kept | refine setSec_kept rfl ?_ | apply verifyResult_kept | apply serveDoe_kept | fail_if_no_progress (refine Kept_upd rfl rfl rfl rfl rfl rfl rfl rfl rfl rfl rfl rfl rfl ?_) | split

theorem execMbCommandComplete_kept {s0 : State} {s : State} (h : Kept s0 s) : KeptR s0 (execMbCommandComplete s) := by
  unfold execMbCommandComplete
  repeat' with_reducible first | assumption | exact KeptR_fault | apply KeptR_ok | apply ok_kept | apply endCommand_kept | split

theorem activateUpdate_kept {s0 : State} {s : State} {a2 : Nat} {a3 : Nat} {a4 : Nat} (h : Kept s0 s) : Kept s0 (activateUpdate s a2 a3 a4) := by
  unfold activateUpdate
  repeat' with_reducible first | assumption | apply secError_kept | apply wr_kept | refine setSec_kept rfl ?_ | fail_if_no_progress (refine Kept_upd rfl rfl rfl rfl rfl rfl rfl rfl rfl rfl rfl rfl rfl ?_) | split

theorem cancelUpdate_kept {s0 : State} {s : State} {a2 : Nat} (h : Kept s0 s) : Kept s0 (cancelUpdate s a2) := by
  unfold cancelUpdate
  split
  · exact secError_kept h
  split
  · exact showState_kept (by split <;> exact setSec_kept rfl h)
  split
  · exact secError_kept h
  · exact closeUpdate_kept (setSec_kept (by split <;> rfl) (wr_kept h))

theorem floor_raise {m : List Byte} {f : List (Nat × Nat)} {g : Nat → Nat} (hg : ∀ c, g c < 2 ^ 16 → max (g c) (entrySvn m c) < 2 ^ 16) :
    ∀ (l : List Nat) (c : Nat), g c ≤ Tab.get 0 f c → (g c < 2 ^ 16 → Tab.get 0 f c < 2 ^ 16) →
      g c ≤ Tab.get 0 (l.foldl (fun f c => Tab.put 0 f c (max (g c) (entrySvn m c))) f) c ∧
      (g c < 2 ^ 16 → Tab.get 0 (l.foldl (fun f c => Tab.put 0 f c (max (g c) (entrySvn m c))) f) c < 2 ^ 16) := by
  intro l
  induction l generalizing f with
  | nil => exact fun c h k => ⟨h, k⟩
  | cons a t ih =>
    intro c h k
    rw [List.foldl_cons]
    apply ih
    · by_cases e : c = a
      · subst e; rw [Tab.get_put_same]; exact Nat.le_max_left _ _
      · rw [Tab.get_put_other e]; exact h
    · intro w
      by_cases e : c = a
      · subst e; rw [Tab.get_put_same]; exact hg c w
      · rw [Tab.get_put_other e]; exact k w

theorem leNat_lt : ∀ l : List Byte, leNat l < 256 ^ l.length
  | [] => by simp [leNat]
  | b :: t => by
    have := leNat_lt t
    have hb := b.isLt
    simp only [leNat, List.length_cons, Nat.pow_succ]
    omega

theorem entrySvn_lt {m : List Byte} {c : Nat} : entrySvn m c < 2 ^ 16 := by
  have h : ∀ l : List Byte, l.length ≤ 2 → leNat l < 2 ^ 16 := fun l hl => by
    have := leNat_lt l
    have : 256 ^ l.length ≤ 256 ^ 2 := Nat.pow_le_pow_right (by decide) hl
    omega
  exact h _ (List.length_take_le _ _)

theorem commitUpdate_kept {s0 s : State} (h : Kept s0 s) : Kept s0 (commitUpdate s) := by
  unfold commitUpdate
  refine wr_kept (writeRecord_kept h fun c => ?_)
  exact floor_raise (fun c w => Nat.max_lt.2 ⟨w, entrySvn_lt⟩) components c (Nat.le_refl _) id

theorem execPrepareAnswer_kept {s0 : State} {a1 : Nat} {a2 : Bool} {s : State} (h : Kept s0 s) : KeptR s0 (execPrepareAnswer a1 a2 s) := by
  unfold execPrepareAnswer
  repeat' with_reducible first | assumption | exact KeptR_fault | apply KeptR_ok | apply ok_kept | apply abandonUpdate_kept | refine setSec_kept rfl ?_ | apply commitUpdate_kept | fail_if_no_progress (refine Kept_upd rfl rfl rfl rfl rfl rfl rfl rfl rfl rfl rfl rfl rfl ?_) | split | extract_lets

theorem execActivationTimeout_kept {s0 : State} {s : State} (h : Kept s0 s) : KeptR s0 (execActivationTimeout s) := by
  unfold execActivationTimeout
  repeat' with_reducible first | assumption | exact KeptR_fault | apply KeptR_ok | apply settleTo_kept | apply ok_kept | apply abandonUpdate_kept | split

theorem mailbox_kept {s0 s : State} {f : State → State} (h : Kept s0 s) (hf : ∀ s, Kept s0 s → Kept s0 (f s)) : KeptR s0 (mailbox s f) := by
  unfold mailbox
  apply KeptR_ok
  split
  · exact h
  split
  · exact notice_kept h
  · exact hf s h

theorem mailboxData_kept {s0 : State} {s : State} (h : Kept s0 s) : Kept s0 (mailboxData s) := by
  unfold mailboxData
  repeat' with_reducible first | assumption | apply dataChunk_kept

theorem execSecBegin_kept {s0 : State} {s : State} (h : Kept s0 s) : KeptR s0 (execSecBegin s) := by
  unfold execSecBegin
  repeat' with_reducible first | assumption | exact KeptR_fault | apply KeptR_ok | apply mailbox_kept | apply beginUpdate_kept | intro _ _ _ | intro _ _

theorem execSecData_kept {s0 : State} {s : State} (h : Kept s0 s) : KeptR s0 (execSecData s) := by
  unfold execSecData
  repeat' with_reducible first | assumption | exact KeptR_fault | apply KeptR_ok | apply mailbox_kept | apply mailboxData_kept

theorem execSecVerify_kept {s0 : State} {s : State} (h : Kept s0 s) : KeptR s0 (execSecVerify s) := by
  unfold execSecVerify
  repeat' with_reducible first | assumption | exact KeptR_fault | apply KeptR_ok | apply mailbox_kept | apply verifyUpdate_kept | intro _ _ _ | intro _ _

theorem execSecActivate_kept {s0 : State} {s : State} (h : Kept s0 s) : KeptR s0 (execSecActivate s) := by
  unfold execSecActivate
  repeat' with_reducible first | assumption | exact KeptR_fault | apply KeptR_ok | apply mailbox_kept | apply activateUpdate_kept | intro _ _ _ | intro _ _

theorem execSecCancel_kept {s0 : State} {s : State} (h : Kept s0 s) : KeptR s0 (execSecCancel s) := by
  unfold execSecCancel
  repeat' with_reducible first | assumption | exact KeptR_fault | apply KeptR_ok | apply mailbox_kept | apply cancelUpdate_kept | intro _ _ _ | intro _ _

theorem mbCmdWrite_kept {s0 : State} {s : State} {a2 : Nat} (h : Kept s0 s) : Kept s0 (mbCmdWrite s a2) := by
  unfold mbCmdWrite
  repeat' with_reducible first | assumption | apply wrs_kept | apply notice_kept | apply beginUpdate_kept | apply mailboxData_kept | apply verifyUpdate_kept | apply activateUpdate_kept | apply cancelUpdate_kept | fail_if_no_progress (refine Kept_upd rfl rfl rfl rfl rfl rfl rfl rfl rfl rfl rfl rfl rfl ?_) | split | extract_lets

theorem setNego_kept {s0 : State} {s : State} {a2 : Transport} {a3 : Nat} (h : Kept s0 s) : Kept s0 (setNego s a2 a3) := by
  unfold setNego
  repeat' with_reducible first | assumption | refine setSec_kept rfl ?_

theorem setSession_kept {s0 : State} {s : State} {a2 : Session} (h : Kept s0 s) : Kept s0 (setSession s a2) := by
  unfold setSession
  repeat' with_reducible first | assumption | refine setSec_kept rfl ?_

theorem spdm_kept {s0 s : State} {t : Transport} {f : State → State} (h : Kept s0 s) (hf : ∀ s, Kept s0 s → Kept s0 (f s)) : KeptR s0 (spdm s t f) := by
  unfold spdm
  apply KeptR_ok
  split
  · exact h
  refine hf _ ?_
  split
  · exact endCommand_kept h
  · exact h

theorem spdmOk_kept {s0 : State} {s : State} {a2 : Nat} {a3 : List Nat} (h : Kept s0 s) : Kept s0 (spdmOk s a2 a3) := by
  unfold spdmOk
  repeat' with_reducible first | assumption | apply emit_kept

theorem spdmErr_kept {s0 : State} {s : State} {a2 : Nat} (h : Kept s0 s) : Kept s0 (spdmErr s a2) := by
  unfold spdmErr
  repeat' with_reducible first | assumption | apply emit_kept

theorem afterNego_kept {s0 s : State} {t : Transport} {f : State → State} (h : Kept s0 s) (hf : ∀ s, Kept s0 s → Kept s0 (f s)) : Kept s0 (afterNego s t f) := by
  unfold afterNego
  split
  · exact spdmErr_kept h
  · exact hf s h

theorem execSpdmGetVersion_kept {s0 : State} {a1 : Transport} {s : State} (h : Kept s0 s) : KeptR s0 (execSpdmGetVersion a1 s) := by
  unfold execSpdmGetVersion
  repeat' with_reducible first | assumption | exact KeptR_fault | apply KeptR_ok | apply spdm_kept | apply spdmOk_kept | apply setNego_kept | intro _ _ _ | intro _ _

theorem execSpdmGetCapabilities_kept {s0 : State} {a1 : Transport} {s : State} (h : Kept s0 s) : KeptR s0 (execSpdmGetCapabilities a1 s) := by
  unfold execSpdmGetCapabilities
  repeat' with_reducible first | assumption | exact KeptR_fault | apply KeptR_ok | apply spdm_kept | apply spdmErr_kept | apply spdmOk_kept | apply setNego_kept | split | refine Kept_ite ?_ ?_ | refine Kept_ite1 ?_ ?_ | intro _ _ _ | intro _ _

theorem execSpdmNegotiateAlgorithms_kept {s0 : State} {a1 : Transport} {a2 : List Nat} {s : State} (h : Kept s0 s) : KeptR s0 (execSpdmNegotiateAlgorithms a1 a2 s) := by
  unfold execSpdmNegotiateAlgorithms
  repeat' with_reducible first | assumption | exact KeptR_fault | apply KeptR_ok | apply spdm_kept | apply spdmErr_kept | apply spdmOk_kept | apply setNego_kept | split | extract_lets | refine Kept_ite ?_ ?_ | refine Kept_ite1 ?_ ?_ | intro _ _ _ | intro _ _

theorem execSpdmGetDigests_kept {s0 : State} {a1 : Transport} {s : State} (h : Kept s0 s) : KeptR s0 (execSpdmGetDigests a1 s) := by
  unfold execSpdmGetDigests
  repeat' with_reducible first | assumption | exact KeptR_fault | apply KeptR_ok | apply spdm_kept | apply afterNego_kept | apply spdmOk_kept | intro _ _ _ | intro _ _

theorem execSpdmGetCertificate_kept {s0 : State} {a1 : Transport} {a2 : Nat} {a3 : Nat} {a4 : Nat} {s : State} (h : Kept s0 s) : KeptR s0 (execSpdmGetCertificate a1 a2 a3 a4 s) := by
  unfold execSpdmGetCertificate
  repeat' with_reducible first | assumption | exact KeptR_fault | apply KeptR_ok | apply spdm_kept | apply afterNego_kept | apply spdmErr_kept | apply spdmOk_kept | split | extract_lets | refine Kept_ite ?_ ?_ | refine Kept_ite1 ?_ ?_ | intro _ _ _ | intro _ _

theorem execSpdmChallenge_kept {s0 : State} {a1 : Transport} {a2 : Nat} {a3 : Nat} {s : State} (h : Kept s0 s) : KeptR s0 (execSpdmChallenge a1 a2 a3 s) := by
  unfold execSpdmChallenge
  repeat' with_reducible first | assumption | exact KeptR_fault | apply KeptR_ok | apply spdm_kept | apply afterNego_kept | apply spdmErr_kept | apply spdmOk_kept | split | refine Kept_ite ?_ ?_ | refine Kept_ite1 ?_ ?_ | intro _ _ _ | intro _ _

theorem execSpdmGetMeasurements_kept {s0 : State} {a1 : Transport} {a2 : Nat} {a3 : Bool} {a4 : Nat} {s : State} (h : Kept s0 s) : KeptR s0 (execSpdmGetMeasurements a1 a2 a3 a4 s) := by
  unfold execSpdmGetMeasurements
  repeat' with_reducible first | assumption | exact KeptR_fault | apply KeptR_ok | apply spdm_kept | apply afterNego_kept | apply spdmOk_kept | apply spdmErr_kept | split | extract_lets | refine Kept_ite ?_ ?_ | refine Kept_ite1 ?_ ?_ | intro _ _ _ | intro _ _

theorem execSpdmKeyExchange_kept {s0 : State} {a1 : Transport} {a2 : Nat} {s : State} (h : Kept s0 s) : KeptR s0 (execSpdmKeyExchange a1 a2 s) := by
  unfold execSpdmKeyExchange
  repeat' with_reducible first | assumption | exact KeptR_fault | apply KeptR_ok | apply spdm_kept | apply afterNego_kept | apply spdmErr_kept | apply spdmOk_kept | refine setSec_kept rfl ?_ | fail_if_no_progress (refine Kept_upd rfl rfl rfl rfl rfl rfl rfl rfl rfl rfl rfl rfl rfl ?_) | split | extract_lets | refine Kept_ite ?_ ?_ | refine Kept_ite1 ?_ ?_ | intro _ _ _ | intro _ _

theorem execSpdmFinish_kept {s0 : State} {a1 : Transport} {a2 : Bool} {s : State} (h : Kept s0 s) : KeptR s0 (execSpdmFinish a1 a2 s) := by
  unfold execSpdmFinish
  repeat' with_reducible first | assumption | exact KeptR_fault | apply KeptR_ok | apply spdm_kept | apply spdmErr_kept | refine setSec_kept rfl ?_ | apply spdmOk_kept | apply setSession_kept | fail_if_no_progress (refine Kept_upd rfl rfl rfl rfl rfl rfl rfl rfl rfl rfl rfl rfl rfl ?_) | split | refine Kept_ite ?_ ?_ | refine Kept_ite1 ?_ ?_ | refine Kept_pair (by assumption) ?_ | intro _ _ _ | intro _ _

theorem inSession_kept {s0 s : State} {t : Transport} {f : State → Session → State} (h : Kept s0 s)
    (hf : ∀ s x, Kept s0 s → Kept s0 (f s x)) : Kept s0 (inSession s t f) := by
  unfold inSession
  split
  · split
    · exact hf s _ h
    · exact spdmErr_kept h
  · exact spdmErr_kept h

theorem execSpdmHeartbeat_kept {s0 : State} {a1 : Transport} {s : State} (h : Kept s0 s) : KeptR s0 (execSpdmHeartbeat a1 s) := by
  unfold execSpdmHeartbeat
  repeat' with_reducible first | assumption | exact KeptR_fault | apply KeptR_ok | apply spdm_kept | apply inSession_kept | apply spdmOk_kept | intro _ _ _ | intro _ _

theorem execSpdmKeyUpdate_kept {s0 : State} {a1 : Transport} {s : State} (h : Kept s0 s) : KeptR s0 (execSpdmKeyUpdate a1 s) := by
  unfold execSpdmKeyUpdate
  repeat' with_reducible first | assumption | exact KeptR_fault | apply KeptR_ok | apply spdm_kept | apply inSession_kept | apply spdmOk_kept | apply setSession_kept | fail_if_no_progress (refine Kept_upd rfl rfl rfl rfl rfl rfl rfl rfl rfl rfl rfl rfl rfl ?_) | intro _ _ _ | intro _ _

theorem execSpdmEndSession_kept {s0 : State} {a1 : Transport} {s : State} (h : Kept s0 s) : KeptR s0 (execSpdmEndSession a1 s) := by
  unfold execSpdmEndSession
  repeat' with_reducible first | assumption | exact KeptR_fault | apply KeptR_ok | apply spdm_kept | apply inSession_kept | apply spdmOk_kept | refine setSec_kept rfl ?_ | fail_if_no_progress (refine Kept_upd rfl rfl rfl rfl rfl rfl rfl rfl rfl rfl rfl rfl rfl ?_) | intro _ _ _ | intro _ _

theorem execIdeKm_kept {s0 : State} {a1 : Transport} {s : State} (h : Kept s0 s) : KeptR s0 (execIdeKm a1 s) := by
  unfold execIdeKm
  repeat' with_reducible first | assumption | exact KeptR_fault | apply KeptR_ok | apply spdm_kept | apply spdmErr_kept | apply inSession_kept | apply sendOwedSnoops_kept | apply emit_kept | apply wr_kept | fail_if_no_progress (refine Kept_upd rfl rfl rfl rfl rfl rfl rfl rfl rfl rfl rfl rfl rfl ?_) | split | extract_lets | refine Kept_ite ?_ ?_ | refine Kept_ite1 ?_ ?_ | refine Kept_pair (by assumption) ?_ | intro _ _ _ | intro _ _

theorem pldmOk_kept {s0 : State} {s : State} {a2 : Nat} {a3 : List Nat} (h : Kept s0 s) : Kept s0 (pldmOk s a2 a3) := by
  unfold pldmOk
  repeat' with_reducible first | assumption | apply emit_kept

theorem pldmErr_kept {s0 : State} {s : State} {a2 : Nat} {a3 : Nat} (h : Kept s0 s) : Kept s0 (pldmErr s a2 a3) := by
  unfold pldmErr
  repeat' with_reducible first | assumption | apply emit_kept

theorem romStep_kept {s0 : State} {s : State} {a2 : Nat} {a3 : List Byte} {a4 : List Byte} (h : Kept s0 s) : Kept s0 (romStep s a2 a3 a4) := by
  unfold romStep
  repeat' with_reducible first | assumption | apply pldmOk_kept | apply pldmErr_kept | refine setSec_kept rfl ?_ | fail_if_no_progress (refine Kept_upd rfl rfl rfl rfl rfl rfl rfl rfl rfl rfl rfl rfl rfl ?_) | split

theorem sideband_kept {s0 s : State} {c : Nat} {a : List Byte} {f : State → State} (h : Kept s0 s) (hf : ∀ s, Kept s0 s → Kept s0 (f s)) :
    KeptR s0 (sideband s c a f) := by
  unfold sideband
  apply KeptR_ok
  split
  · exact romStep_kept h
  split
  · exact hf s h
  · exact h

theorem pldmStep_kept {s0 s : State} {c : Nat} {a : List Byte} {f : State → State} (h : Kept s0 s) (hf : ∀ s, Kept s0 s → Kept s0 (f s)) :
    KeptR s0 (pldmStep s c a f) := by
  unfold pldmStep
  refine sideband_kept h fun s h => ?_
  split
  · exact pldmErr_kept h
  · split
    · exact pldmErr_kept h
    · exact pldmOk_kept (hf s h)

theorem execPldmQueryDeviceIdentifiers_kept {s0 : State} {s : State} (h : Kept s0 s) : KeptR s0 (execPldmQueryDeviceIdentifiers s) := by
  unfold execPldmQueryDeviceIdentifiers
  repeat' with_reducible first | assumption | exact KeptR_fault | apply KeptR_ok | apply sideband_kept | apply pldmOk_kept | fail_if_no_progress (refine Kept_upd rfl rfl rfl rfl rfl rfl rfl rfl rfl rfl rfl rfl rfl ?_) | split | refine Kept_pair (by assumption) ?_ | intro _ _ _ | intro _ _

theorem execPldmGetFirmwareParameters_kept {s0 : State} {s : State} (h : Kept s0 s) : KeptR s0 (execPldmGetFirmwareParameters s) := by
  unfold execPldmGetFirmwareParameters
  repeat' with_reducible first | assumption | exact KeptR_fault | apply KeptR_ok | apply sideband_kept | apply pldmOk_kept | intro _ _ _ | intro _ _

theorem execPldmRequestUpdate_kept {s0 : State} {s : State} (h : Kept s0 s) : KeptR s0 (execPldmRequestUpdate s) := by
  unfold execPldmRequestUpdate
  repeat' with_reducible first | assumption | exact KeptR_fault | apply KeptR_ok | apply sideband_kept | apply pldmErr_kept | apply pldmOk_kept | refine setSec_kept rfl ?_ | fail_if_no_progress (refine Kept_upd rfl rfl rfl rfl rfl rfl rfl rfl rfl rfl rfl rfl rfl ?_) | split | refine Kept_ite ?_ ?_ | refine Kept_ite1 ?_ ?_ | intro _ _ _ | intro _ _

theorem execPldmPassComponentTable_kept {s0 : State} {a1 : List Byte} {s : State} (h : Kept s0 s) : KeptR s0 (execPldmPassComponentTable a1 s) := by
  unfold execPldmPassComponentTable
  repeat' with_reducible first | assumption | exact KeptR_fault | apply KeptR_ok | apply pldmStep_kept | apply beginUpdate_kept | refine setSec_kept rfl ?_ | fail_if_no_progress (refine Kept_upd rfl rfl rfl rfl rfl rfl rfl rfl rfl rfl rfl rfl rfl ?_) | extract_lets | intro _ _ _ | intro _ _

theorem execPldmUpdateComponent_kept {s0 : State} {a1 : Nat} {s : State} (h : Kept s0 s) : KeptR s0 (execPldmUpdateComponent a1 s) := by
  unfold execPldmUpdateComponent
  repeat' with_reducible first | assumption | exact KeptR_fault | apply KeptR_ok | apply pldmStep_kept | apply secError_kept | refine setSec_kept rfl ?_ | fail_if_no_progress (refine Kept_upd rfl rfl rfl rfl rfl rfl rfl rfl rfl rfl rfl rfl rfl ?_) | split | refine Kept_ite ?_ ?_ | refine Kept_ite1 ?_ ?_ | intro _ _ _ | intro _ _

theorem execPldmRequestFirmwareData_kept {s0 : State} {a1 : List Byte} {s : State} (h : Kept s0 s) : KeptR s0 (execPldmRequestFirmwareData a1 s) := by
  unfold execPldmRequestFirmwareData
  repeat' with_reducible first | assumption | exact KeptR_fault | apply KeptR_ok | apply pldmStep_kept | apply secError_kept | apply dataChunk_kept | split | refine Kept_ite ?_ ?_ | refine Kept_ite1 ?_ ?_ | intro _ _ _ | intro _ _

theorem execPldmTransferComplete_kept {s0 : State} {s : State} (h : Kept s0 s) : KeptR s0 (execPldmTransferComplete s) := by
  unfold execPldmTransferComplete
  repeat' with_reducible first | assumption | exact KeptR_fault | apply KeptR_ok | apply pldmStep_kept | refine setSec_kept rfl ?_ | fail_if_no_progress (refine Kept_upd rfl rfl rfl rfl rfl rfl rfl rfl rfl rfl rfl rfl rfl ?_) | intro _ _ _ | intro _ _

theorem execPldmVerifyComplete_kept {s0 : State} {s : State} (h : Kept s0 s) : KeptR s0 (execPldmVerifyComplete s) := by
  unfold execPldmVerifyComplete
  repeat' with_reducible first | assumption | exact KeptR_fault | apply KeptR_ok | apply pldmStep_kept | apply verifyUpdate_kept | intro _ _ _ | intro _ _

theorem execPldmApplyComplete_kept {s0 : State} {s : State} (h : Kept s0 s) : KeptR s0 (execPldmApplyComplete s) := by
  unfold execPldmApplyComplete
  repeat' with_reducible first | assumption | exact KeptR_fault | apply KeptR_ok | apply pldmStep_kept | apply secError_kept | split | refine Kept_ite ?_ ?_ | refine Kept_ite1 ?_ ?_ | intro _ _ _ | intro _ _

theorem execPldmActivateFirmware_kept {s0 : State} {s : State} (h : Kept s0 s) : KeptR s0 (execPldmActivateFirmware s) := by
  unfold execPldmActivateFirmware
  repeat' with_reducible first | assumption | exact KeptR_fault | apply KeptR_ok | apply pldmStep_kept | apply activateUpdate_kept | intro _ _ _ | intro _ _

theorem execPldmGetStatus_kept {s0 : State} {s : State} (h : Kept s0 s) : KeptR s0 (execPldmGetStatus s) := by
  unfold execPldmGetStatus
  repeat' with_reducible first | assumption | exact KeptR_fault | apply KeptR_ok | apply sideband_kept | apply pldmOk_kept | intro _ _ _ | intro _ _

theorem execPldmCancelUpdateComponent_kept {s0 : State} {s : State} (h : Kept s0 s) : KeptR s0 (execPldmCancelUpdateComponent s) := by
  unfold execPldmCancelUpdateComponent
  repeat' with_reducible first | assumption | exact KeptR_fault | apply KeptR_ok | apply pldmStep_kept | apply cancelUpdate_kept | intro _ _ _ | intro _ _

theorem execPldmCancelUpdate_kept {s0 : State} {s : State} (h : Kept s0 s) : KeptR s0 (execPldmCancelUpdate s) := by
  unfold execPldmCancelUpdate
  repeat' with_reducible first | assumption | exact KeptR_fault | apply KeptR_ok | apply pldmStep_kept | apply cancelUpdate_kept | intro _ _ _ | intro _ _

theorem execMctpDiscovery_kept {s0 : State} {s : State} (h : Kept s0 s) : KeptR s0 (execMctpDiscovery s) := by
  unfold execMctpDiscovery
  repeat' with_reducible first | assumption | exact KeptR_fault | apply KeptR_ok | apply ok_kept | apply emit_kept | split

theorem dropIssues_kept {s0 : State} {a1 : Nat → Bool} {s : State} {a3 : Nat} {a4 : Nat} (h : Kept s0 s) : Kept s0 (dropIssues a1 s a3 a4) := by
  unfold dropIssues
  repeat' with_reducible first | assumption | refine Kept_foldl (fun _ _ _ => ?_) _ ?_ | refine Kept_foldl1 (fun _ _ _ => ?_) _ ?_ | apply updTile_kept | apply postNow_kept | fail_if_no_progress (refine Kept_upd rfl rfl rfl rfl rfl rfl rfl rfl rfl rfl rfl rfl rfl ?_) | split

theorem abandonTile_kept {s0 : State} {s : State} {a2 : Nat} {a3 : Nat} (h : Kept s0 s) : Kept s0 (abandonTile s a2 a3) := by
  unfold abandonTile
  repeat' with_reducible first | assumption | apply abandonPce_kept | apply abandonMxa_kept | apply abandonCpt_kept | apply abandonFtu_kept | apply abandonGrn_kept | apply dropIssues_kept

theorem stopPlan_kept {s0 : State} {s : State} {a2 : Nat} (h : Kept s0 s) : Kept s0 (stopPlan s a2) := by
  unfold stopPlan
  repeat' with_reducible first | assumption | apply updTile_kept

theorem resetTile_kept {s0 : State} {s : State} {a2 : Nat} (h : Kept s0 s) : Kept s0 (resetTile s a2) := by
  unfold resetTile; dsimp only
  exact updTile_kept (Kept_cores (fun w => Tab.wf_filter _ w) (resetRegs_kept h))

theorem wipeTile_kept {s0 : State} {s : State} {a2 : Nat} (h : Kept s0 s) : Kept s0 (wipeTile s a2) := by
  unfold wipeTile
  exact Kept_tags (t := { s with mem := memClear s.mem fun a => decide (tileBase a2 ≤ a ∧ a < tileBase a2 + 0x1000000) })
    (fun w => Tab.wf_filter _ w) (Kept_mem (fun w => memWf_clear w) h)

theorem wipeKiln_kept {s0 : State} {s : State} {a2 : Nat} (h : Kept s0 s) : Kept s0 (wipeKiln s a2) := by
  unfold wipeKiln; dsimp only
  exact setKiln_kept (Kept_mem (fun w => memWf_clear w) h)

theorem resetPort_kept {s0 : State} {s : State} {a2 : Nat} (h : Kept s0 s) : Kept s0 (resetPort s a2) := by
  unfold resetPort
  repeat' with_reducible first | assumption | apply resetRegs_kept | apply portOff_kept | apply wr_kept | split

theorem unitsOff_kept {s0 : State} {s : State} (h : Kept s0 s) : Kept s0 (unitsOff s) := by
  exact ⟨h.1, h.2, h.3, fun w => State.wf_iff.2 ⟨rfl, (State.wf_iff.1 (h.4 w)).2.1, rfl, rfl, rfl, rfl, rfl, rfl, rfl⟩, h.5⟩

theorem endUpdate_kept {s0 : State} {s : State} (h : Kept s0 s) : Kept s0 (endUpdate s) := by
  unfold endUpdate
  extract_lets x
  split
  · exact h
  · exact closeUpdate_kept (setSec_kept rfl (wr_kept h))

theorem secReset_kept {s0 : State} {s : State} (h : Kept s0 s) : Kept s0 (secReset s) := by
  unfold secReset
  exact setSec_kept rfl (endUpdate_kept h)

theorem resetM_kept {s0 : State} {s : State} (h : Kept s0 s) : Kept s0 (resetM s) := by
  unfold resetM
  repeat' with_reducible first | assumption | apply wr_kept | apply resetRegs_kept | apply unitsOff_kept | apply secReset_kept | apply wrs_kept | fail_if_no_progress (refine Kept_upd rfl rfl rfl rfl rfl rfl rfl rfl rfl rfl rfl rfl rfl ?_) | split

theorem resetC_kept {s0 : State} {s : State} (h : Kept s0 s) : Kept s0 (resetC s) := by
  unfold resetC
  repeat' with_reducible first | assumption | apply resetRegs_kept | apply unitsOff_kept | apply secReset_kept | fail_if_no_progress (refine Kept_upd rfl rfl rfl rfl rfl rfl rfl rfl rfl rfl rfl rfl rfl ?_)

theorem noService_kept {s0 : State} {s : State} {a2 : Nat} (h : Kept s0 s) : Kept s0 (noService s a2) := by
  unfold noService
  repeat' with_reducible first | assumption | apply wrs_kept | apply linkDown_kept | apply unitsOff_kept | fail_if_no_progress (refine Kept_upd rfl rfl rfl rfl rfl rfl rfl rfl rfl rfl rfl rfl rfl ?_)

theorem checkService_kept {s0 : State} {s : State} (h : Kept s0 s) : Kept s0 (checkService s) := by
  unfold checkService
  repeat' with_reducible first | assumption | apply noService_kept | split

theorem fenceLog_kept {s0 : State} {s : State} {a2 : Nat} {a3 : Nat} (h : Kept s0 s) : Kept s0 (fenceLog s a2 a3) := by
  unfold fenceLog
  repeat' with_reducible first | assumption | apply bump_kept | apply notice_kept | apply wrs_kept

theorem addFence_kept {s0 : State} {s : State} {a2 : Nat} {a3 : Nat} (h : Kept s0 s) : Kept s0 (addFence s a2 a3) := by
  unfold addFence
  repeat' with_reducible first | assumption | fail_if_no_progress (refine Kept_upd rfl rfl rfl rfl rfl rfl rfl rfl rfl rfl rfl rfl rfl ?_)

theorem fenceWork_kept {s0 : State} {s : State} {a2 : Block} {a3 : Nat} (h : Kept s0 s) : Kept s0 (fenceWork s a2 a3) := by
  by_cases hd : ∃ d, a2 = .nwu d
  · obtain ⟨d, rfl⟩ := hd
    exact Kept_lanes (fun w => Tab.risingFrom_filter _ w) h
  · unfold fenceWork
    repeat' with_reducible first | assumption | refine Kept_foldl (fun _ _ _ => ?_) _ ?_ | apply dropIssues_kept | apply abandonCpt_kept | apply abandonKiln_kept | apply updTile_kept | apply postNow_kept | apply portDown_kept | apply abandonCol_kept | apply stopPlan_kept | apply abandonTile_kept | split | extract_lets
    exact absurd ⟨_, rfl⟩ hd

theorem fenceNow_kept {s0 : State} {s : State} {a2 : Nat} {a3 : Nat} (h : Kept s0 s) : Kept s0 (fenceNow s a2 a3) := by
  unfold fenceNow
  repeat' with_reducible first | assumption | apply settle_kept | apply fenceLog_kept | apply addFence_kept | apply fenceWork_kept | fail_if_no_progress (refine Kept_upd rfl rfl rfl rfl rfl rfl rfl rfl rfl rfl rfl rfl rfl ?_) | split

theorem fenceDie_kept {s0 : State} {s : State} {a2 : Nat} {a3 : Nat} (h : Kept s0 s) : Kept s0 (fenceDie s a2 a3) := by
  unfold fenceDie
  repeat' with_reducible first | assumption | refine Kept_foldl (fun _ _ _ => ?_) _ ?_ | refine Kept_foldl1 (fun _ _ _ => ?_) _ ?_ | apply fenceNow_kept | apply fenceLog_kept | fail_if_no_progress (refine Kept_upd rfl rfl rfl rfl rfl rfl rfl rfl rfl rfl rfl rfl rfl ?_) | split

theorem fenceBlock_kept {s0 : State} {a1 : Nat} {s : State} {a3 : Block} (h : Kept s0 s) : Kept s0 (fenceBlock a1 s a3) := by
  unfold fenceBlock
  repeat' with_reducible first | assumption | refine Kept_foldl (fun _ _ _ => ?_) _ ?_ | refine Kept_foldl1 (fun _ _ _ => ?_) _ ?_ | apply fenceDie_kept | apply fenceNow_kept | fail_if_no_progress (refine Kept_upd rfl rfl rfl rfl rfl rfl rfl rfl rfl rfl rfl rfl rfl ?_) | split

theorem liftFence_kept {s0 : State} {s : State} {a2 : Nat} (h : Kept s0 s) : Kept s0 (liftFence s a2) := by
  unfold liftFence
  repeat' with_reducible first | assumption | fail_if_no_progress (refine Kept_upd rfl rfl rfl rfl rfl rfl rfl rfl rfl rfl rfl rfl rfl ?_)

theorem execFenceRequest_kept {s0 : State} {a1 : Block} {s : State} (h : Kept s0 s) : KeptR s0 (execFenceRequest a1 s) := by
  unfold execFenceRequest
  repeat' with_reducible first | assumption | exact KeptR_fault | apply KeptR_ok | apply ok_kept | apply notice_kept | fail_if_no_progress (refine Kept_upd rfl rfl rfl rfl rfl rfl rfl rfl rfl rfl rfl rfl rfl ?_) | split

theorem startReturn_kept {s0 : State} {s : State} {a2 : Block} {a3 : Nat} (h : Kept s0 s) : Kept s0 (startReturn s a2 a3) := by
  unfold startReturn
  repeat' with_reducible first | assumption | apply resetPort_kept | apply notice_kept | apply wipeKiln_kept | fail_if_no_progress (refine Kept_upd rfl rfl rfl rfl rfl rfl rfl rfl rfl rfl rfl rfl rfl ?_) | split

theorem execUnfence_kept {s0 : State} {a1 : Block} {s : State} (h : Kept s0 s) : KeptR s0 (execUnfence a1 s) := by
  unfold execUnfence
  repeat' with_reducible first | assumption | exact KeptR_fault | apply KeptR_ok | apply ok_kept | apply startReturn_kept | fail_if_no_progress (refine Kept_upd rfl rfl rfl rfl rfl rfl rfl rfl rfl rfl rfl rfl rfl ?_) | split

theorem execSelfTestDone_kept {s0 : State} {a1 : Block} {a2 : Bool} {s : State} (h : Kept s0 s) : KeptR s0 (execSelfTestDone a1 a2 s) := by
  unfold execSelfTestDone
  repeat' with_reducible first | assumption | exact KeptR_fault | apply KeptR_ok | apply wr_kept | apply ok_kept | fail_if_no_progress (refine Kept_upd rfl rfl rfl rfl rfl rfl rfl rfl rfl rfl rfl rfl rfl ?_) | split

theorem mmcError_kept {s0 : State} {s : State} {a2 : Nat} (h : Kept s0 s) : Kept s0 (mmcError s a2) := by
  unfold mmcError
  repeat' with_reducible first | assumption | apply pageErrInfo_kept

theorem execRailFault_kept {s0 : State} {a1 : Part} {s : State} (h : Kept s0 s) : KeptR s0 (execRailFault a1 s) := by
  unfold execRailFault
  repeat' with_reducible first | assumption | exact KeptR_fault | apply KeptR_ok | apply ok_kept | apply checkService_kept | apply fenceDie_kept | apply mmcError_kept | apply fenceNow_kept | apply noService_kept | fail_if_no_progress (refine Kept_upd rfl rfl rfl rfl rfl rfl rfl rfl rfl rfl rfl rfl rfl ?_) | split

theorem execThermalTrip_kept {s0 : State} {a1 : Part} {s : State} (h : Kept s0 s) : KeptR s0 (execThermalTrip a1 s) := by
  unfold execThermalTrip
  repeat' with_reducible first | assumption | exact KeptR_fault | apply KeptR_ok | apply ok_kept | apply checkService_kept | apply fenceDie_kept | apply mmcError_kept | apply fenceNow_kept | apply noService_kept | fail_if_no_progress (refine Kept_upd rfl rfl rfl rfl rfl rfl rfl rfl rfl rfl rfl rfl rfl ?_) | split

theorem execHbmPhyLoss_kept {s0 : State} {a1 : Nat} {s : State} (h : Kept s0 s) : KeptR s0 (execHbmPhyLoss a1 s) := by
  unfold execHbmPhyLoss
  repeat' with_reducible first | assumption | exact KeptR_fault | apply KeptR_ok | apply ok_kept | apply checkService_kept | apply fenceNow_kept | split

theorem reroutePair_kept {s0 : State} {s : State} {a2 : Nat} (h : Kept s0 s) : Kept s0 (reroutePair s a2) := by
  unfold reroutePair
  repeat' with_reducible first | assumption | apply notice_kept | apply wr_kept | split

theorem execD2dLinkFailure_kept {s0 : State} {a1 : Nat} {s : State} (h : Kept s0 s) : KeptR s0 (execD2dLinkFailure a1 s) := by
  unfold execD2dLinkFailure
  repeat' with_reducible first | assumption | exact KeptR_fault | apply KeptR_ok | apply ok_kept | apply reroutePair_kept | split

theorem execHubServiceFault_kept {s0 : State} {a1 : Block} {s : State} (h : Kept s0 s) : KeptR s0 (execHubServiceFault a1 s) := by
  unfold execHubServiceFault
  repeat' with_reducible first | assumption | exact KeptR_fault | apply KeptR_ok | apply ok_kept | apply noService_kept | split

theorem mmcNotice_kept {s0 : State} {s : State} {a2 : Fld} {a3 : Bool} (h : Kept s0 s) : Kept s0 (mmcNotice s a2 a3) := by
  unfold mmcNotice
  repeat' with_reducible first | assumption | apply emit_kept | apply notice_kept | split

theorem throttleTurn_kept {s0 : State} {s : State} {a2 : Nat} (h : Kept s0 s) : Kept s0 (throttleTurn s a2) := by
  unfold throttleTurn
  repeat' with_reducible first | assumption | apply mmcNotice_kept | apply bump_kept | fail_if_no_progress (refine Kept_upd rfl rfl rfl rfl rfl rfl rfl rfl rfl rfl rfl rfl rfl ?_) | split

theorem finishStage_kept {s0 : State} {s : State} {a2 : Nat} {a3 : Nat} (h : Kept s0 s) : Kept s0 (finishStage s a2 a3) := by
  unfold finishStage
  repeat' with_reducible first | assumption | apply wr_kept | fail_if_no_progress (refine Kept_upd rfl rfl rfl rfl rfl rfl rfl rfl rfl rfl rfl rfl rfl ?_)

theorem enterStage_kept {s0 : State} {s : State} {a2 : Nat} (h : Kept s0 s) : Kept s0 (enterStage s a2) := by
  unfold enterStage
  repeat' with_reducible first | assumption | apply wr_kept

theorem enterReady_kept {s0 : State} {s : State} {a2 : Nat} (h : Kept s0 s) : Kept s0 (enterReady s a2) := by
  unfold enterReady
  repeat' with_reducible first | assumption | apply wrs_kept | apply finishStage_kept | apply enterStage_kept | apply notice_kept | fail_if_no_progress (refine Kept_upd rfl rfl rfl rfl rfl rfl rfl rfl rfl rfl rfl rfl rfl ?_)

theorem enterFabric_kept {s0 : State} {s : State} (h : Kept s0 s) : Kept s0 (enterFabric s) := by
  unfold enterFabric
  repeat' with_reducible first | assumption | refine Kept_foldl (fun _ _ _ => ?_) _ ?_ | refine Kept_foldl1 (fun _ _ _ => ?_) _ ?_ | apply wr_kept | apply enterStage_kept

theorem originCoords_kept {s0 : State} {s : State} (h : Kept s0 s) : Kept s0 (originCoords s) := by
  unfold originCoords
  repeat' with_reducible first | assumption | apply trainOrigin_kept | apply takeCoords_kept | apply wr_kept | split | extract_lets

theorem execColdReset_kept {s0 : State} {s : State} (h : Kept s0 s) : KeptR s0 (execColdReset s) := by
  unfold execColdReset
  repeat' with_reducible first | assumption | exact KeptR_fault | apply KeptR_ok | apply ok_kept | apply resetC_kept

theorem execStagePower_kept {s0 : State} {a1 : Nat} {s : State} (h : Kept s0 s) : KeptR s0 (execStagePower a1 s) := by
  unfold execStagePower
  repeat' with_reducible first | assumption | exact KeptR_fault | apply KeptR_ok | apply ok_kept | apply enterStage_kept | apply finishStage_kept | split

theorem bootOtherMmc_kept {s0 : State} {s : State} (h : Kept s0 s) : Kept s0 (bootOtherMmc s) := by
  unfold bootOtherMmc
  repeat' with_reducible first | assumption | refine setSec_kept rfl ?_

theorem execStageMmc_kept {s0 : State} {a1 : Nat} {a2 : Nat} {s : State} (h : Kept s0 s) : KeptR s0 (execStageMmc a1 a2 s) := by
  unfold execStageMmc
  repeat' with_reducible first | assumption | exact KeptR_fault | apply KeptR_ok | apply ok_kept | apply enterStage_kept | apply finishStage_kept | apply bootOtherMmc_kept | fail_if_no_progress (refine Kept_upd rfl rfl rfl rfl rfl rfl rfl rfl rfl rfl rfl rfl rfl ?_) | split

theorem bootOther_kept {s0 : State} {s : State} (h : Kept s0 s) : Kept s0 (bootOther s) := by
  unfold bootOther
  repeat' with_reducible first | assumption | refine writeRecord_kept ?_ (fun _ => ⟨Nat.le_refl _, id⟩)

theorem execStageSec_kept {s0 : State} {a1 : Nat} {a2 : Nat} {s : State} (h : Kept s0 s) : KeptR s0 (execStageSec a1 a2 s) := by
  unfold execStageSec
  repeat' with_reducible first | assumption | exact KeptR_fault | apply KeptR_ok | apply ok_kept | apply noService_kept | apply bootOther_kept | apply notice_kept | apply logEvent_kept | apply measureFloors_kept | apply enterStage_kept | apply finishStage_kept | fail_if_no_progress (refine Kept_upd rfl rfl rfl rfl rfl rfl rfl rfl rfl rfl rfl rfl rfl ?_) | split

theorem execStageRails_kept {s0 : State} {a1 : Nat} {a2 : Bool} {s : State} (h : Kept s0 s) : KeptR s0 (execStageRails a1 a2 s) := by
  unfold execStageRails
  repeat' with_reducible first | assumption | exact KeptR_fault | apply KeptR_ok | apply ok_kept | apply noService_kept | apply mmcError_kept | apply enterStage_kept | apply finishStage_kept | fail_if_no_progress (refine Kept_upd rfl rfl rfl rfl rfl rfl rfl rfl rfl rfl rfl rfl rfl ?_) | split

theorem execStageHub_kept {s0 : State} {a1 : Nat} {a2 : List Block} {s : State} (h : Kept s0 s) : KeptR s0 (execStageHub a1 a2 s) := by
  unfold execStageHub
  repeat' with_reducible first | assumption | exact KeptR_fault | apply KeptR_ok | refine Kept_foldl (fun _ _ _ => ?_) _ ?_ | refine Kept_foldl1 (fun _ _ _ => ?_) _ ?_ | apply ok_kept | apply noService_kept | apply enterStage_kept | apply finishStage_kept | apply throttleTurn_kept | apply fenceBlock_kept | fail_if_no_progress (refine Kept_upd rfl rfl rfl rfl rfl rfl rfl rfl rfl rfl rfl rfl rfl ?_) | split | extract_lets

theorem passStage_kept {s0 : State} {s : State} {a2 : Nat} {a3 : Nat} (h : Kept s0 s) : Kept s0 (passStage s a2 a3) := by
  unfold passStage
  repeat' with_reducible first | assumption | apply enterStage_kept | apply finishStage_kept | apply noService_kept | split

theorem execStageHbm_kept {s0 : State} {a1 : Nat} {a2 : List Nat} {s : State} (h : Kept s0 s) : KeptR s0 (execStageHbm a1 a2 s) := by
  unfold execStageHbm
  repeat' with_reducible first | assumption | exact KeptR_fault | apply KeptR_ok | refine Kept_foldl (fun _ _ _ => ?_) _ ?_ | refine Kept_foldl1 (fun _ _ _ => ?_) _ ?_ | apply ok_kept | apply passStage_kept | apply fenceNow_kept | split

theorem execStageCompute_kept {s0 : State} {a1 : Nat} {a2 : List Block} {a3 : List Nat} {s : State} (h : Kept s0 s) : KeptR s0 (execStageCompute a1 a2 a3 s) := by
  unfold execStageCompute
  repeat' with_reducible first | assumption | exact KeptR_fault | apply KeptR_ok | refine Kept_foldl (fun _ _ _ => ?_) _ ?_ | refine Kept_foldl1 (fun _ _ _ => ?_) _ ?_ | apply fenceBlock_kept | apply reroutePair_kept | apply ok_kept | apply passStage_kept | fail_if_no_progress (refine Kept_upd rfl rfl rfl rfl rfl rfl rfl rfl rfl rfl rfl rfl rfl ?_) | split

theorem execStageCxl_kept {s0 : State} {a1 : Nat} {s : State} (h : Kept s0 s) : KeptR s0 (execStageCxl a1 s) := by
  unfold execStageCxl
  repeat' with_reducible first | assumption | exact KeptR_fault | apply KeptR_ok | apply finishStage_kept | apply ok_kept | apply enterReady_kept | apply enterFabric_kept | split | extract_lets

theorem fabTimeout_kept {s0 : State} {s : State} {a2 : Nat} (h : Kept s0 s) : Kept s0 (fabTimeout s a2) := by
  unfold fabTimeout
  repeat' with_reducible first | assumption | refine Kept_foldl (fun _ _ _ => ?_) _ ?_ | refine Kept_foldl1 (fun _ _ _ => ?_) _ ?_ | apply notice_kept | apply originCoords_kept | apply enterReady_kept | apply finishStage_kept

theorem fabStage_kept {s0 s : State} {ms : Nat} {f : State → State} (h : Kept s0 s) (hf : ∀ s, Kept s0 s → Kept s0 (f s)) :
    Kept s0 (fabStage s ms f) := by
  unfold fabStage
  split
  · exact fabTimeout_kept h
  · exact hf s h

theorem execStageFabric_kept {s0 : State} {a1 : Nat} {s : State} (h : Kept s0 s) : KeptR s0 (execStageFabric a1 s) := by
  unfold execStageFabric
  repeat' with_reducible first | assumption | exact KeptR_fault | apply KeptR_ok | apply ok_kept | apply fabStage_kept | apply originCoords_kept | apply enterStage_kept | apply finishStage_kept | split | refine Kept_ite ?_ ?_ | refine Kept_ite1 ?_ ?_ | intro _ _ _ | intro _ _

theorem execStageCoord_kept {s0 : State} {a1 : Nat} {s : State} (h : Kept s0 s) : KeptR s0 (execStageCoord a1 s) := by
  unfold execStageCoord
  repeat' with_reducible first | assumption | exact KeptR_fault | apply KeptR_ok | apply ok_kept | apply fabStage_kept | apply enterStage_kept | apply finishStage_kept | split | refine Kept_ite ?_ ?_ | refine Kept_ite1 ?_ ?_ | intro _ _ _ | intro _ _

theorem execStageLock_kept {s0 : State} {a1 : Nat} {s : State} (h : Kept s0 s) : KeptR s0 (execStageLock a1 s) := by
  unfold execStageLock
  repeat' with_reducible first | assumption | exact KeptR_fault | apply KeptR_ok | apply ok_kept | apply fabStage_kept | apply enterReady_kept | apply finishStage_kept | split | refine Kept_ite ?_ ?_ | refine Kept_ite1 ?_ ?_ | intro _ _ _ | intro _ _

theorem execFabricGo_kept {s0 : State} {s : State} (h : Kept s0 s) : KeptR s0 (execFabricGo s) := by
  unfold execFabricGo
  repeat' with_reducible first | assumption | exact KeptR_fault | apply KeptR_ok | apply ok_kept | apply wr_kept | apply enterFabric_kept | fail_if_no_progress (refine Kept_upd rfl rfl rfl rfl rfl rfl rfl rfl rfl rfl rfl rfl rfl ?_) | split

theorem execSolo_kept {s0 : State} {s : State} (h : Kept s0 s) : KeptR s0 (execSolo s) := by
  unfold execSolo
  repeat' with_reducible first | assumption | exact KeptR_fault | apply KeptR_ok | apply ok_kept | apply wr_kept | apply enterReady_kept | split

theorem execFabTimeout_kept {s0 : State} {a1 : Nat} {s : State} (h : Kept s0 s) : KeptR s0 (execFabTimeout a1 s) := by
  unfold execFabTimeout
  repeat' with_reducible first | assumption | exact KeptR_fault | apply KeptR_ok | apply ok_kept | apply fabTimeout_kept | split

theorem execModuleResetCommand_kept {s0 : State} {s : State} (h : Kept s0 s) : KeptR s0 (execModuleResetCommand s) := by
  unfold execModuleResetCommand
  repeat' with_reducible first | assumption | exact KeptR_fault | apply KeptR_ok | apply ok_kept | apply resetM_kept | split

theorem execPerstAssert_kept {s0 : State} {s : State} (h : Kept s0 s) : KeptR s0 (execPerstAssert s) := by
  unfold execPerstAssert
  repeat' with_reducible first | assumption | exact KeptR_fault | apply KeptR_ok | apply ok_kept | apply resetM_kept | fail_if_no_progress (refine Kept_upd rfl rfl rfl rfl rfl rfl rfl rfl rfl rfl rfl rfl rfl ?_) | split

theorem execPerstDeassert_kept {s0 : State} {s : State} (h : Kept s0 s) : KeptR s0 (execPerstDeassert s) := by
  unfold execPerstDeassert
  repeat' with_reducible first | assumption | exact KeptR_fault | apply KeptR_ok | apply ok_kept | apply resetM_kept | fail_if_no_progress (refine Kept_upd rfl rfl rfl rfl rfl rfl rfl rfl rfl rfl rfl rfl rfl ?_) | split

theorem execKResetRequest_kept {s0 : State} {s : State} (h : Kept s0 s) : KeptR s0 (execKResetRequest s) := by
  unfold execKResetRequest
  repeat' with_reducible first | assumption | exact KeptR_fault | apply KeptR_ok | apply ok_kept | apply notice_kept | apply wr_kept | split

theorem execTResetRequest_kept {s0 : State} {a1 : Nat} {s : State} (h : Kept s0 s) : KeptR s0 (execTResetRequest a1 s) := by
  unfold execTResetRequest
  repeat' with_reducible first | assumption | exact KeptR_fault | apply KeptR_ok | apply ok_kept | apply notice_kept | fail_if_no_progress (refine Kept_upd rfl rfl rfl rfl rfl rfl rfl rfl rfl rfl rfl rfl rfl ?_) | split

theorem execPortSoftReset_kept {s0 : State} {a1 : Nat} {s : State} (h : Kept s0 s) : KeptR s0 (execPortSoftReset a1 s) := by
  unfold execPortSoftReset
  repeat' with_reducible first | assumption | exact KeptR_fault | apply KeptR_ok | apply ok_kept | apply resetPort_kept | apply wr_kept | split

theorem execModulePwrWrite_kept {s0 : State} {a1 : BitVec 64} {s : State} (h : Kept s0 s) : KeptR s0 (execModulePwrWrite a1 s) := by
  unfold execModulePwrWrite
  repeat' with_reducible first | assumption | exact KeptR_fault | apply KeptR_ok | apply ok_kept | apply wr_kept | apply notice_kept | apply wrs_kept | split | extract_lets

theorem execPowerTransitionDone_kept {s0 : State} {s : State} (h : Kept s0 s) : KeptR s0 (execPowerTransitionDone s) := by
  unfold execPowerTransitionDone
  repeat' with_reducible first | assumption | exact KeptR_fault | apply KeptR_ok | apply wrs_kept | apply ok_kept | apply wr_kept | fail_if_no_progress (refine Kept_upd rfl rfl rfl rfl rfl rfl rfl rfl rfl rfl rfl rfl rfl ?_) | split

theorem computeReset_kept {s0 : State} {s : State} (h : Kept s0 s) : Kept s0 (computeReset s) := by
  unfold computeReset
  repeat' with_reducible first | assumption | refine Kept_foldl (fun _ _ _ => ?_) _ ?_ | refine Kept_foldl1 (fun _ _ _ => ?_) _ ?_ | apply wipeTile_kept | apply resetTile_kept | apply wipeKiln_kept | apply resetRegs_kept | fail_if_no_progress (refine Kept_upd rfl rfl rfl rfl rfl rfl rfl rfl rfl rfl rfl rfl rfl ?_)

theorem leaveP2_kept {s0 : State} {s : State} (h : Kept s0 s) : Kept s0 (leaveP2 s) := by
  unfold leaveP2
  generalize 0x60000 = k
  generalize 0x80000 = l
  extract_lets d s1 s2
  have h2 : Kept s0 s2 := wrs_kept (resetRegs_kept (computeReset_kept h))
  clear_value s2
  exact Kept_lanes (m := []) (fun _ => rfl) (Kept_pcq (m := []) (fun _ => rfl)
    (Kept_upd rfl rfl rfl rfl rfl rfl rfl rfl rfl rfl rfl rfl rfl h2 :
      Kept s0 { s2 with boot := { s2.boot with moving := none } }))

theorem execP2ExitDone_kept {s0 : State} {a1 : List Block} {s : State} (h : Kept s0 s) : KeptR s0 (execP2ExitDone a1 s) := by
  unfold execP2ExitDone
  repeat' with_reducible first | assumption | exact KeptR_fault | apply KeptR_ok | refine Kept_foldl (fun _ _ _ => ?_) _ ?_ | refine Kept_foldl1 (fun _ _ _ => ?_) _ ?_ | apply ok_kept | apply checkService_kept | apply fenceBlock_kept | apply leaveP2_kept | fail_if_no_progress (refine Kept_upd rfl rfl rfl rfl rfl rfl rfl rfl rfl rfl rfl rfl rfl ?_) | split

theorem execKResetEnd_kept {s0 : State} {s : State} (h : Kept s0 s) : KeptR s0 (execKResetEnd s) := by
  unfold execKResetEnd
  repeat' with_reducible first | assumption | exact KeptR_fault | apply KeptR_ok | apply wrs_kept | apply settleTo_kept | apply ok_kept | fail_if_no_progress (refine Kept_upd rfl rfl rfl rfl rfl rfl rfl rfl rfl rfl rfl rfl rfl ?_) | split

theorem execHotSwapOpen_kept {s0 : State} {s : State} (h : Kept s0 s) : KeptR s0 (execHotSwapOpen s) := by
  unfold execHotSwapOpen
  repeat' with_reducible first | assumption | exact KeptR_fault | apply KeptR_ok | apply ok_kept | apply resetC_kept | fail_if_no_progress (refine Kept_upd rfl rfl rfl rfl rfl rfl rfl rfl rfl rfl rfl rfl rfl ?_) | split

theorem execMmcSample_kept {s0 : State} {a1 : Sample} {s : State} (h : Kept s0 s) : KeptR s0 (execMmcSample a1 s) := by
  unfold execMmcSample
  repeat' with_reducible first | assumption | exact KeptR_fault | apply KeptR_ok | refine Kept_foldl (fun _ _ _ => ?_) _ ?_ | refine Kept_foldl1 (fun _ _ _ => ?_) _ ?_ | apply ok_kept | apply wrs_kept | apply mmcNotice_kept | fail_if_no_progress (refine Kept_upd rfl rfl rfl rfl rfl rfl rfl rfl rfl rfl rfl rfl rfl ?_) | split

theorem execCablePresenceChange_kept {s0 : State} {a1 : Nat} {a2 : Bool} {s : State} (h : Kept s0 s) : KeptR s0 (execCablePresenceChange a1 a2 s) := by
  unfold execCablePresenceChange
  repeat' with_reducible first | assumption | exact KeptR_fault | apply KeptR_ok | apply ok_kept | apply wr_kept | apply portOff_kept | apply portDownWith_kept | fail_if_no_progress (refine Kept_upd rfl rfl rfl rfl rfl rfl rfl rfl rfl rfl rfl rfl rfl ?_) | split

theorem tsqRecord_kept {s0 : State} {s : State} {a2 : Nat} {a3 : Nat} {a4 : Nat} {a5 : Nat} {a6 : Nat} {a7 : Nat} (h : Kept s0 s) : Kept s0 (tsqRecord s a2 a3 a4 a5 a6 a7) := by
  unfold tsqRecord
  repeat' with_reducible first | assumption | apply pageErr_kept | apply post_kept

theorem rejectTrn_kept {s0 : State} {s : State} (h : Kept s0 s) : Kept s0 (rejectTrn s) := by
  unfold rejectTrn
  repeat' with_reducible first | assumption | apply pageErr_kept | apply notice_kept | apply post_kept

theorem nextRd_kept {s0 : State} {s : State} {a2 : Nat} (h : Kept s0 s) : Kept s0 (nextRd s a2) := by
  unfold nextRd
  repeat' with_reducible first | assumption | apply wr_kept

theorem skipEntries_kept {s0 : State} {s : State} {a2 : Nat} (h : Kept s0 s) : Kept s0 (skipEntries s a2) := by
  unfold skipEntries
  repeat' with_reducible first | assumption | apply wr_kept | fail_if_no_progress (refine Kept_upd rfl rfl rfl rfl rfl rfl rfl rfl rfl rfl rfl rfl rfl ?_) | split

theorem execTsqPlanWrWrite_kept {s0 : State} {a1 : Nat} {a2 : BitVec 32} {s : State} (h : Kept s0 s) : KeptR s0 (execTsqPlanWrWrite a1 a2 s) := by
  unfold execTsqPlanWrWrite
  repeat' with_reducible first | assumption | exact KeptR_fault | apply KeptR_ok | apply ok_kept | apply notice_kept | apply wr_kept | apply skipEntries_kept | split | extract_lets

theorem notPresent_kept {s0 : State} {s : State} {a2 : Nat} {a3 : Entry} {a4 : Nat} (h : Kept s0 s) : Kept s0 (notPresent s a2 a3 a4) := by
  unfold notPresent
  repeat' with_reducible first | assumption | apply post_kept | apply postLater_kept | fail_if_no_progress (refine Kept_upd rfl rfl rfl rfl rfl rfl rfl rfl rfl rfl rfl rfl rfl ?_) | split

theorem issueEntry_kept {s0 : State} {s : State} {a2 : Nat} {a3 : Entry} (h : Kept s0 s) : Kept s0 (issueEntry s a2 a3) := by
  unfold issueEntry
  repeat' with_reducible first | assumption | apply setKiln_kept | apply bump_kept | apply nextRd_kept | apply updTile_kept | apply notPresent_kept | fail_if_no_progress (refine Kept_upd rfl rfl rfl rfl rfl rfl rfl rfl rfl rfl rfl rfl rfl ?_) | split | extract_lets | refine Kept_ite ?_ ?_

theorem actHead_kept {s0 : State} {s : State} {a2 : Nat} (h : Kept s0 s) : KeptR s0 (actHead s a2) := by
  unfold actHead
  repeat' with_reducible first | assumption | exact KeptR_fault | apply KeptR_ok | apply ok_kept | apply updTile_kept | apply nextRd_kept | apply tsqRecord_kept | apply issueEntry_kept | fail_if_no_progress (refine Kept_upd rfl rfl rfl rfl rfl rfl rfl rfl rfl rfl rfl rfl rfl ?_) | split | extract_lets

theorem execPlanEntryIssue_kept {s0 : State} {a1 : Nat} {s : State} (h : Kept s0 s) : KeptR s0 (execPlanEntryIssue a1 s) := by
  unfold execPlanEntryIssue
  repeat' with_reducible first | assumption | exact KeptR_fault | apply KeptR_ok | refine driveDue_kept (by assumption) ?_ | apply settle_kept | apply actHead_kept | fail_if_no_progress (refine Kept_upd rfl rfl rfl rfl rfl rfl rfl rfl rfl rfl rfl rfl rfl ?_) | split

theorem loadCtx_kept {s0 : State} {s : State} {a2 : Nat} {a3 : Nat} {a4 : List Byte} (h : Kept s0 s) : Kept s0 (loadCtx s a2 a3 a4) := by
  · unfold loadCtx
    extract_lets s1
    have h1 : Kept s0 s1 := Kept_mem (fun w => memWf_write w) h
    repeat' with_reducible first | assumption | refine Kept_foldl (fun _ _ _ => ?_) _ ?_ | apply wrs_kept | apply updTile_kept | apply setCore_kept

theorem carrySave_kept {s0 : State} {s : State} {a2 : Nat} {a3 : Option Nat} {a4 : Nat} (h : Kept s0 s) : Kept s0 (carrySave s a2 a3 a4).1 := by
  unfold carrySave
  repeat' with_reducible first | assumption | apply carry_kept | fail_if_no_progress (refine Kept_upd rfl rfl rfl rfl rfl rfl rfl rfl rfl rfl rfl rfl rfl ?_) | split

theorem startSwitch_kept {s0 : State} {s : State} {a2 : Nat} {a3 : Nat} (h : Kept s0 s) : Kept s0 (startSwitch s a2 a3) := by
  unfold startSwitch
  repeat' with_reducible first | assumption | apply carrySave_kept | apply requestShares_kept | apply carry_kept | apply updTile_kept | apply tsqRecord_kept | fail_if_no_progress (refine Kept_upd rfl rfl rfl rfl rfl rfl rfl rfl rfl rfl rfl rfl rfl ?_) | split | extract_lets | refine Kept_ite ?_ ?_

theorem endSwitch_kept {s0 : State} {s : State} {a2 : Nat} (h : Kept s0 s) : Kept s0 (endSwitch s a2) := by
  unfold endSwitch
  repeat' with_reducible first | assumption | apply countStreams_kept | apply store_kept | apply loadCtx_kept | apply updTile_kept | fail_if_no_progress (refine Kept_upd rfl rfl rfl rfl rfl rfl rfl rfl rfl rfl rfl rfl rfl ?_) | split

theorem execContextSwitchEnd_kept {s0 : State} {a1 : Nat} {s : State} (h : Kept s0 s) : KeptR s0 (execContextSwitchEnd a1 s) := by
  unfold execContextSwitchEnd
  repeat' with_reducible first | assumption | exact KeptR_fault | apply KeptR_ok | refine driveDue_kept (by assumption) ?_ | apply ok_kept | apply endSwitch_kept | fail_if_no_progress (refine Kept_upd rfl rfl rfl rfl rfl rfl rfl rfl rfl rfl rfl rfl rfl ?_) | split

theorem overrun_kept {s0 : State} {s : State} {a2 : Nat} {a3 : Nat} (h : Kept s0 s) : Kept s0 (overrun s a2 a3) := by
  unfold overrun
  repeat' with_reducible first | assumption | apply bump_kept | apply notice_kept | apply tsqRecord_kept | apply wr_kept | apply wrs_kept | fail_if_no_progress (refine Kept_upd rfl rfl rfl rfl rfl rfl rfl rfl rfl rfl rfl rfl rfl ?_) | split | extract_lets

theorem reachEnd_kept {s0 : State} {s : State} {a2 : Nat} (h : Kept s0 s) : Kept s0 (reachEnd s a2) := by
  unfold reachEnd
  repeat' with_reducible first | assumption | apply updTile_kept | apply nextRd_kept | fail_if_no_progress (refine Kept_upd rfl rfl rfl rfl rfl rfl rfl rfl rfl rfl rfl rfl rfl ?_) | split | extract_lets

theorem guardTile_kept {s0 : State} {a1 : Nat} {s : State} {a3 : Nat} (h : Kept s0 s) : Kept s0 (guardTile a1 s a3) := by
  unfold guardTile
  repeat' with_reducible first | assumption | apply reachEnd_kept | apply endSwitch_kept | apply overrun_kept | apply stopPlan_kept | apply abandonTile_kept | split

theorem guardBand_kept {s0 : State} {s : State} (h : Kept s0 s) : Kept s0 (guardBand s) := by
  unfold guardBand
  repeat' with_reducible first | assumption | refine Kept_foldl (fun _ _ _ => ?_) _ ?_ | refine Kept_foldl1 (fun _ _ _ => ?_) _ ?_ | apply settleTo_kept | apply guardTile_kept | fail_if_no_progress (refine Kept_upd rfl rfl rfl rfl rfl rfl rfl rfl rfl rfl rfl rfl rfl ?_)

theorem execGuardBandStart_kept {s0 : State} {s : State} (h : Kept s0 s) : KeptR s0 (execGuardBandStart s) := by
  unfold execGuardBandStart
  repeat' with_reducible first | assumption | exact KeptR_fault | apply KeptR_ok | apply ok_kept | apply guardBand_kept | split

theorem execRefreshSlotStart_kept {s0 : State} {s : State} (h : Kept s0 s) : KeptR s0 (execRefreshSlotStart s) := by
  unfold execRefreshSlotStart
  repeat' with_reducible first | assumption | exact KeptR_fault | apply KeptR_ok | apply settleTo_kept | apply ok_kept | fail_if_no_progress (refine Kept_upd rfl rfl rfl rfl rfl rfl rfl rfl rfl rfl rfl rfl rfl ?_) | split | extract_lets

theorem execRefreshSlotEnd_kept {s0 : State} {s : State} (h : Kept s0 s) : KeptR s0 (execRefreshSlotEnd s) := by
  unfold execRefreshSlotEnd
  repeat' with_reducible first | assumption | exact KeptR_fault | apply KeptR_ok | apply settleTo_kept | apply ok_kept | fail_if_no_progress (refine Kept_upd rfl rfl rfl rfl rfl rfl rfl rfl rfl rfl rfl rfl rfl ?_) | split

theorem sendBeacon_kept {s0 : State} {s : State} {a2 : Option Nat} {a3 : Nat} {a4 : Nat} {a5 : Nat} {a6 : Nat} (h : Kept s0 s) : Kept s0 (sendBeacon s a2 a3 a4 a5 a6) := by
  unfold sendBeacon
  repeat' with_reducible first | assumption | refine Kept_foldl (fun _ _ _ => ?_) _ ?_ | refine Kept_foldl1 (fun _ _ _ => ?_) _ ?_ | apply portTx_kept

theorem acquire_kept {s0 : State} {s : State} {a2 : Nat} {a3 : Nat} {a4 : Nat} {a5 : Nat} (h : Kept s0 s) : Kept s0 (acquire s a2 a3 a4 a5) := by
  unfold acquire
  repeat' with_reducible first | assumption | apply wrs_kept | fail_if_no_progress (refine Kept_upd rfl rfl rfl rfl rfl rfl rfl rfl rfl rfl rfl rfl rfl ?_)

theorem track_kept {s0 : State} {s : State} {a2 : Nat} {a3 : Nat} {a4 : Nat} {a5 : Nat} (h : Kept s0 s) : Kept s0 (track s a2 a3 a4 a5) := by
  unfold track
  repeat' with_reducible first | assumption | apply wr_kept | apply notice_kept | fail_if_no_progress (refine Kept_upd rfl rfl rfl rfl rfl rfl rfl rfl rfl rfl rfl rfl rfl ?_) | split

theorem execBeacon_kept {s0 : State} {a1 : Nat} {a2 : Nat} {a3 : Nat} {a4 : Nat} {a5 : Nat} {s : State} (h : Kept s0 s) : KeptR s0 (execBeacon a1 a2 a3 a4 a5 s) := by
  unfold execBeacon
  repeat' with_reducible first | assumption | exact KeptR_fault | apply KeptR_ok | apply ok_kept | apply bump_kept | apply fritDrop_kept | apply portDown_kept | apply notice_kept | apply sendBeacon_kept | apply acquire_kept | apply track_kept | fail_if_no_progress (refine Kept_upd rfl rfl rfl rfl rfl rfl rfl rfl rfl rfl rfl rfl rfl ?_) | split | extract_lets

theorem enterHoldover_kept {s0 : State} {s : State} (h : Kept s0 s) : Kept s0 (enterHoldover s) := by
  unfold enterHoldover
  repeat' with_reducible first | assumption | apply wr_kept | fail_if_no_progress (refine Kept_upd rfl rfl rfl rfl rfl rfl rfl rfl rfl rfl rfl rfl rfl ?_)

theorem execHoldoverEntry_kept {s0 : State} {s : State} (h : Kept s0 s) : KeptR s0 (execHoldoverEntry s) := by
  unfold execHoldoverEntry
  repeat' with_reducible first | assumption | exact KeptR_fault | apply KeptR_ok | apply ok_kept | apply enterHoldover_kept | split | extract_lets

theorem execLockLost_kept {s0 : State} {s : State} (h : Kept s0 s) : KeptR s0 (execLockLost s) := by
  unfold execLockLost
  repeat' with_reducible first | assumption | exact KeptR_fault | apply KeptR_ok | apply notice_kept | apply ok_kept | fail_if_no_progress (refine Kept_upd rfl rfl rfl rfl rfl rfl rfl rfl rfl rfl rfl rfl rfl ?_) | split

theorem execTrnLenWrite_kept {s0 : State} {a1 : BitVec 32} {s : State} (h : Kept s0 s) : KeptR s0 (execTrnLenWrite a1 s) := by
  unfold execTrnLenWrite
  repeat' with_reducible first | assumption | exact KeptR_fault | apply KeptR_ok | apply ok_kept | apply rejectTrn_kept | apply wr_kept | split | extract_lets

theorem execTrnGuardWrite_kept {s0 : State} {a1 : BitVec 32} {s : State} (h : Kept s0 s) : KeptR s0 (execTrnGuardWrite a1 s) := by
  unfold execTrnGuardWrite
  repeat' with_reducible first | assumption | exact KeptR_fault | apply KeptR_ok | apply ok_kept | apply rejectTrn_kept | apply wr_kept | split | extract_lets

theorem execTrnApplyWrite_kept {s0 : State} {a1 : BitVec 64} {s : State} (h : Kept s0 s) : KeptR s0 (execTrnApplyWrite a1 s) := by
  unfold execTrnApplyWrite
  repeat' with_reducible first | assumption | exact KeptR_fault | apply KeptR_ok | apply ok_kept | apply rejectTrn_kept | apply wr_kept | fail_if_no_progress (refine Kept_upd rfl rfl rfl rfl rfl rfl rfl rfl rfl rfl rfl rfl rfl ?_) | split | extract_lets

theorem execTrnCtxbaseWrite_kept {s0 s : State} {v : BitVec 64} (h : Kept s0 s) : KeptR s0 (execTrnCtxbaseWrite v s) := by
  unfold execTrnCtxbaseWrite
  generalize 0x2000000 = k
  dsimp only
  split
  · exact KeptR_ok h
  · split
    · exact KeptR_ok (rejectTrn_kept h)
    · exact KeptR_ok (wr_kept h)

theorem execTrnWheelWrite_kept {s0 : State} {a1 : Nat} {a2 : BitVec 128} {s : State} (h : Kept s0 s) : KeptR s0 (execTrnWheelWrite a1 a2 s) := by
  unfold execTrnWheelWrite
  repeat' with_reducible first | assumption | exact KeptR_fault | apply KeptR_ok | apply ok_kept | apply rejectTrn_kept | apply wrs_kept | fail_if_no_progress (refine Kept_upd rfl rfl rfl rfl rfl rfl rfl rfl rfl rfl rfl rfl rfl ?_) | split | extract_lets

theorem execTrnWheelCtlWrite_kept {s0 : State} {a1 : BitVec 32} {s : State} (h : Kept s0 s) : KeptR s0 (execTrnWheelCtlWrite a1 s) := by
  unfold execTrnWheelCtlWrite
  repeat' with_reducible first | assumption | exact KeptR_fault | apply KeptR_ok | apply ok_kept | apply rejectTrn_kept | apply wr_kept | fail_if_no_progress (refine Kept_upd rfl rfl rfl rfl rfl rfl rfl rfl rfl rfl rfl rfl rfl ?_) | split | extract_lets

theorem setStep_kept {s0 : State} {s : State} {a2 : Fld} {a3 : Nat} (h : Kept s0 s) : Kept s0 (setStep s a2 a3) := by
  unfold setStep
  repeat' with_reducible first | assumption | apply wr_kept

theorem execModuleStepApplyWrite_kept {s0 : State} {a1 : Nat} {a2 : BitVec 64} {s : State} (h : Kept s0 s) : KeptR s0 (execModuleStepApplyWrite a1 a2 s) := by
  unfold execModuleStepApplyWrite
  repeat' with_reducible first | assumption | exact KeptR_fault | apply KeptR_ok | apply ok_kept | apply setStep_kept | apply wrs_kept | split | extract_lets

theorem stepTurn_kept {s0 : State} {a1 : Nat} {s : State} {a3 : Nat} (h : Kept s0 s) : Kept s0 (stepTurn a1 s a3) := by
  unfold stepTurn
  repeat' with_reducible first | assumption | apply bump_kept | apply setStep_kept | apply wr_kept | apply wrs_kept | fail_if_no_progress (refine Kept_upd rfl rfl rfl rfl rfl rfl rfl rfl rfl rfl rfl rfl rfl ?_) | split | extract_lets

theorem stepsTurn_kept {s0 : State} {s : State} {a2 : Nat} (h : Kept s0 s) : Kept s0 (stepsTurn s a2) := by
  unfold stepsTurn
  repeat' with_reducible first | assumption | refine Kept_foldl (fun _ _ _ => ?_) _ ?_ | refine Kept_foldl1 (fun _ _ _ => ?_) _ ?_ | apply stepTurn_kept | fail_if_no_progress (refine Kept_upd rfl rfl rfl rfl rfl rfl rfl rfl rfl rfl rfl rfl rfl ?_)

theorem applyLength_kept {s0 : State} {s : State} {a2 : Nat} (h : Kept s0 s) : Kept s0 (applyLength s a2) := by
  unfold applyLength
  repeat' with_reducible first | assumption | apply wrs_kept | fail_if_no_progress (refine Kept_upd rfl rfl rfl rfl rfl rfl rfl rfl rfl rfl rfl rfl rfl ?_) | split | extract_lets

theorem startTimer_kept {s0 : State} {s : State} {a2 : Nat} {a3 : Nat} (h : Kept s0 s) : Kept s0 (startTimer s a2 a3) := by
  unfold startTimer
  repeat' with_reducible first | assumption | apply applyLength_kept | apply wr_kept | apply advance_kept | apply keepSpans_kept | fail_if_no_progress (refine Kept_upd rfl rfl rfl rfl rfl rfl rfl rfl rfl rfl rfl rfl rfl ?_)

theorem holdTurn_kept {s0 : State} {s : State} (h : Kept s0 s) : Kept s0 (holdTurn s) := by
  unfold holdTurn
  repeat' with_reducible first | assumption | apply enterHoldover_kept | split | extract_lets

theorem wheelTurn_kept {s0 : State} {s : State} {a2 : Nat} (h : Kept s0 s) : Kept s0 (wheelTurn s a2) := by
  unfold wheelTurn
  repeat' with_reducible first | assumption | refine Kept_foldl (fun _ _ _ => ?_) _ ?_ | refine Kept_foldl1 (fun _ _ _ => ?_) _ ?_ | fail_if_no_progress (refine Kept_upd rfl rfl rfl rfl rfl rfl rfl rfl rfl rfl rfl rfl rfl ?_)

theorem stopOwn_kept {s0 : State} {a1 : Nat} {a2 : Nat} {s : State} {a4 : Nat} (h : Kept s0 s) : Kept s0 (stopOwn a1 a2 s a4) := by
  unfold stopOwn
  repeat' with_reducible first | assumption | refine Kept_foldl (fun _ _ _ => ?_) _ ?_ | refine Kept_foldl1 (fun _ _ _ => ?_) _ ?_ | apply haltCopy_kept

theorem startK_kept {s0 : State} {s : State} {a2 : Nat} (h : Kept s0 s) : Kept s0 (startK s a2) := by
  unfold startK
  repeat' with_reducible first | assumption | refine Kept_foldl (fun _ _ _ => ?_) _ ?_ | refine Kept_foldl1 (fun _ _ _ => ?_) _ ?_ | apply fenceWork_kept | apply stopPlan_kept | apply abandonTile_kept | apply stopOwn_kept | apply endOp_kept | apply failOp_kept | apply computeReset_kept | apply wr_kept | apply wrs_kept | fail_if_no_progress (refine Kept_upd rfl rfl rfl rfl rfl rfl rfl rfl rfl rfl rfl rfl rfl ?_) | split

theorem startT_kept {s0 : State} {a1 : Nat} {s : State} {a3 : Nat} (h : Kept s0 s) : Kept s0 (startT a1 s a3) := by
  unfold startT
  repeat' with_reducible first | assumption | apply resetTile_kept | apply abandonTile_kept | fail_if_no_progress (refine Kept_upd rfl rfl rfl rfl rfl rfl rfl rfl rfl rfl rfl rfl rfl ?_)

theorem startTest_kept {s0 : State} {s : State} {a2 : Nat} (h : Kept s0 s) : Kept s0 (startTest s a2) := by
  unfold startTest
  repeat' with_reducible first | assumption | apply updTile_kept | apply dropFiles_kept | apply resetRegs_kept | apply wipeTile_kept | apply resetTile_kept | fail_if_no_progress (refine Kept_upd rfl rfl rfl rfl rfl rfl rfl rfl rfl rfl rfl rfl rfl ?_) | split

theorem resetsTurn_kept {s0 : State} {s : State} {a2 : Nat} (h : Kept s0 s) : Kept s0 (resetsTurn s a2) := by
  unfold resetsTurn
  repeat' with_reducible first | assumption | refine Kept_foldl (fun _ _ _ => ?_) _ ?_ | refine Kept_foldl1 (fun _ _ _ => ?_) _ ?_ | apply liftFence_kept | apply fenceNow_kept | apply notice_kept | apply startK_kept | apply startT_kept | apply startTest_kept | fail_if_no_progress (refine Kept_upd rfl rfl rfl rfl rfl rfl rfl rfl rfl rfl rfl rfl rfl ?_) | split | extract_lets

theorem enterP2_kept {s0 : State} {s : State} {a2 : Nat} (h : Kept s0 s) : Kept s0 (enterP2 s a2) := by
  unfold enterP2
  repeat' with_reducible first | assumption | refine Kept_foldl (fun _ _ _ => ?_) _ ?_ | refine Kept_foldl1 (fun _ _ _ => ?_) _ ?_ | apply fenceWork_kept | apply stopPlan_kept | apply abandonTile_kept | apply stopOwn_kept | apply endOp_kept | apply endRequest_kept | apply postNow_kept | fail_if_no_progress (refine Kept_upd rfl rfl rfl rfl rfl rfl rfl rfl rfl rfl rfl rfl rfl ?_) | split

theorem enterP3_kept {s0 : State} {s : State} {a2 : Nat} (h : Kept s0 s) : Kept s0 (enterP3 s a2) := by
  unfold enterP3
  repeat' with_reducible first | assumption | refine Kept_foldl (fun _ _ _ => ?_) _ ?_ | refine Kept_foldl1 (fun _ _ _ => ?_) _ ?_ | apply linkDown_kept | apply unitsOff_kept | apply endUpdate_kept | apply wr_kept | apply wrs_kept | fail_if_no_progress (refine Kept_upd rfl rfl rfl rfl rfl rfl rfl rfl rfl rfl rfl rfl rfl ?_)

theorem powerTurn_kept {s0 : State} {s : State} {a2 : Nat} {a3 : Nat} (h : Kept s0 s) : Kept s0 (powerTurn s a2 a3) := by
  unfold powerTurn
  repeat' with_reducible first | assumption | apply wr_kept | apply enterP3_kept | apply enterP2_kept | fail_if_no_progress (refine Kept_upd rfl rfl rfl rfl rfl rfl rfl rfl rfl rfl rfl rfl rfl ?_) | split | extract_lets

theorem firmwareTurn_kept {s0 : State} {s : State} {a2 : Nat} (h : Kept s0 s) : Kept s0 (firmwareTurn s a2) := by
  unfold firmwareTurn
  repeat' with_reducible first | assumption | apply beginSwitch_kept | split

theorem writeMirror_kept {s0 s : State} {t prog : Nat} (h : Kept s0 s) : Kept s0 (writeMirror s t prog) := by
  unfold writeMirror
  generalize tileBase t + 0x93FFC0 = k
  exact Kept_mem (fun w => memWf_write w) h

theorem startPlan_kept {s0 : State} {s : State} {a2 : Nat} (h : Kept s0 s) : Kept s0 (startPlan s a2) := by
  unfold startPlan
  repeat' with_reducible first | assumption | apply startSwitch_kept | apply skipEntries_kept | apply updTile_kept | fail_if_no_progress (refine Kept_upd rfl rfl rfl rfl rfl rfl rfl rfl rfl rfl rfl rfl rfl ?_) | split | extract_lets

theorem tileTurn_kept {s0 : State} {s : State} {a2 : Nat} (h : Kept s0 s) : Kept s0 (tileTurn s a2) := by
  unfold tileTurn
  repeat' with_reducible first | assumption | apply dropFiles_kept | apply dropBanks_kept | apply updTile_kept | apply startPlan_kept | apply writeMirror_kept | fail_if_no_progress (refine Kept_upd rfl rfl rfl rfl rfl rfl rfl rfl rfl rfl rfl rfl rfl ?_) | split | extract_lets

theorem originBeacon_kept {s0 : State} {s : State} {a2 : Nat} (h : Kept s0 s) : Kept s0 (originBeacon s a2) := by
  unfold originBeacon
  repeat' with_reducible first | assumption | apply sendBeacon_kept | split

theorem execTurnStart_kept {s0 : State} {s : State} (h : Kept s0 s) : KeptR s0 (execTurnStart s) := by
  unfold execTurnStart
  split
  · exact KeptR_fault
  · extract_lets s1 c old n s2 s3 s4 s5 s6 s7
    have h1 : Kept s0 s1 := by
      show Kept s0 (if s.turn.inGuard then s else guardBand s)
      split
      · exact h
      · exact guardBand_kept h
    have h4 : Kept s0 s4 := powerTurn_kept (resetsTurn_kept (startTimer_kept (kilnTurn_kept (holdTurn_kept (settleTo_kept h1)))))
    clear_value s4
    split
    · exact KeptR_ok h4
    · exact KeptR_ok (originBeacon_kept (Kept_foldl (fun _ _ h => tileTurn_kept h) _
        (colTurn_kept (firmwareTurn_kept (throttleTurn_kept (stepsTurn_kept (wheelTurn_kept h4)))))))

theorem execTResetEnd_kept {s0 : State} {a1 : Nat} {s : State} (h : Kept s0 s) : KeptR s0 (execTResetEnd a1 s) := by
  unfold execTResetEnd
  repeat' with_reducible first | assumption | exact KeptR_fault | apply KeptR_ok | apply wr_kept | apply settleTo_kept | apply ok_kept | apply writeMirror_kept | fail_if_no_progress (refine Kept_upd rfl rfl rfl rfl rfl rfl rfl rfl rfl rfl rfl rfl rfl ?_) | split

theorem setEnable_kept {s0 : State} {s : State} {a2 : Block} {a3 : Bool} (h : Kept s0 s) : Kept s0 (setEnable s a2 a3) := by
  unfold setEnable
  repeat' with_reducible first | assumption | apply settleTo_kept | apply wr_kept | split

theorem execBlockEnableWrite_kept {s0 : State} {a1 : Nat} {a2 : Bool} {s : State} (h : Kept s0 s) : KeptR s0 (execBlockEnableWrite a1 a2 s) := by
  unfold execBlockEnableWrite
  repeat' with_reducible first | assumption | exact KeptR_fault | apply KeptR_ok | apply ok_kept | apply setEnable_kept | fail_if_no_progress (refine Kept_upd rfl rfl rfl rfl rfl rfl rfl rfl rfl rfl rfl rfl rfl ?_) | split

theorem effect_kept {s0 s : State} {r : Res} (h : Kept s0 s) (hr : KeptR s0 r) : Kept s0 (effect s r) := by
  unfold effect
  split
  · have k := hr _ rfl; exact ⟨k.1, k.2, k.3, k.4, k.5⟩
  · exact h

theorem writeField_kept {s0 : State} {a1 : Nat} {a2 : RegW} {s : State} {a4 : RField} (h : Kept s0 s) : Kept s0 (writeField a1 a2 s a4) := by
  unfold writeField
  repeat' with_reducible first | assumption | apply wr_kept | fail_if_no_progress (refine Kept_upd rfl rfl rfl rfl rfl rfl rfl rfl rfl rfl rfl rfl rfl ?_) | split

theorem writePlain_kept {s0 : State} {s : State} {a2 : RRow} {a3 : Nat} {a4 : RegW} (h : Kept s0 s) : Kept s0 (writePlain s a2 a3 a4) := by
  unfold writePlain
  repeat' with_reducible first | assumption | refine Kept_foldl (fun _ _ _ => ?_) _ ?_ | refine Kept_foldl1 (fun _ _ _ => ?_) _ ?_ | apply wr_kept | apply writeField_kept | split

theorem writeBlkctl_kept {s0 : State} {s : State} {a2 : Block} {a3 : RegW} (h : Kept s0 s) : Kept s0 (writeBlkctl s a2 a3) := by
  unfold writeBlkctl
  repeat' with_reducible first | assumption | apply setEnable_kept | apply effect_kept | apply execFenceRequest_kept | apply execUnfence_kept | apply execPortSoftReset_kept | apply execKilnSoftReset_kept | apply execTResetRequest_kept | fail_if_no_progress (refine Kept_upd rfl rfl rfl rfl rfl rfl rfl rfl rfl rfl rfl rfl rfl ?_) | split

theorem writeNonzero_kept {s0 : State} {s : State} {a2 : Fld} {a3 : Fld} {a4 : Nat} (h : Kept s0 s) : Kept s0 (writeNonzero s a2 a3 a4) := by
  unfold writeNonzero
  repeat' with_reducible first | assumption | apply notice_kept | apply wr_kept | split

theorem writeBootCtl_kept {s0 : State} {s : State} {a2 : RegW} (h : Kept s0 s) : Kept s0 (writeBootCtl s a2) := by
  unfold writeBootCtl
  repeat' with_reducible first | assumption | apply notice_kept | apply wr_kept | apply effect_kept | apply execFabricGo_kept | apply execSolo_kept | split

theorem writeRingCtl_kept {s0 : State} {s : State} {a2 : Nat} {a3 : Nat} (h : Kept s0 s) : Kept s0 (writeRingCtl s a2 a3) := by
  unfold writeRingCtl
  repeat' with_reducible first | assumption | apply notice_kept | apply wr_kept | apply wrs_kept | split

theorem writeExt_kept {s0 : State} {s : State} {a2 : Nat} (h : Kept s0 s) : Kept s0 (writeExt s a2) := by
  unfold writeExt
  repeat' with_reducible first | assumption | apply notice_kept | apply wrs_kept | fail_if_no_progress (refine Kept_upd rfl rfl rfl rfl rfl rfl rfl rfl rfl rfl rfl rfl rfl ?_) | split | extract_lets

theorem writePlimit_kept {s0 : State} {s : State} {a2 : Nat} (h : Kept s0 s) : Kept s0 (writePlimit s a2) := by
  unfold writePlimit
  repeat' with_reducible first | assumption | apply mmcNotice_kept | apply wrs_kept | split | extract_lets

theorem writeQcmd_kept {s0 : State} {s : State} {a2 : Nat} (h : Kept s0 s) : Kept s0 (writeQcmd s a2) := by
  unfold writeQcmd
  repeat' with_reducible first | assumption | apply effect_kept | apply execQDrop_kept | apply execQFlush_kept | apply notice_kept | fail_if_no_progress (refine Kept_upd rfl rfl rfl rfl rfl rfl rfl rfl rfl rfl rfl rfl rfl ?_) | split

theorem writeSpecial_kept {s0 : State} {s : State} {a2 : Block} {a3 : Nat} {a4 : Nat} {a5 : RegW} (h : Kept s0 s) : KeptO s0 (writeSpecial s a2 a3 a4 a5) := by
  unfold writeSpecial
  repeat' with_reducible first | assumption | exact KeptO_none | apply KeptO_some | apply effect_kept | apply execModuleStepApplyWrite_kept | apply writeBootCtl_kept | apply execKResetRequest_kept | apply execModulePwrWrite_kept | apply execTrnLenWrite_kept | apply execTrnGuardWrite_kept | apply execTrnApplyWrite_kept | apply rejectTrn_kept | apply wr_kept | apply execTrnWheelCtlWrite_kept | apply execTrnCtxbaseWrite_kept | apply execTrnWheelWrite_kept | apply execTsqPlanWrWrite_kept | apply execSieveCtlWrite_kept | apply execSieveTselWrite_kept | apply tagCommand_kept | apply execNwuCtlWrite_kept | apply execKlnRdyclrWrite_kept | apply writeExt_kept | apply writeNonzero_kept | apply execColGcmdWrite_kept | apply execColPoolWrite_kept | apply writeQcmd_kept | apply wrs_kept | apply writeRingCtl_kept | apply writeHead_kept | apply writeTail_kept | apply writePlimit_kept | apply mbCmdWrite_kept | fail_if_no_progress (refine Kept_upd rfl rfl rfl rfl rfl rfl rfl rfl rfl rfl rfl rfl rfl ?_) | split

theorem writeReg_kept {s0 : State} {s : State} {a2 : Block} {a3 : RRow} {a4 : Nat} {a5 : Nat} {a6 : Nat} {a7 : Nat} (h : Kept s0 s) : Kept s0 (writeReg s a2 a3 a4 a5 a6 a7) := by
  unfold writeReg
  extract_lets p a x
  split
  · exact writeBlkctl_kept h
  · exact wr_kept (wr_kept h)
  split
  · exact Kept_opt (by assumption) (writeSpecial_kept h)
  · exact writePlain_kept h

theorem writePage_kept {s0 : State} {s : State} {a2 : Block} {a3 : Nat} {a4 : Nat} {a5 : Nat} (h : Kept s0 s) : Kept s0 (writePage s a2 a3 a4 a5) := by
  unfold writePage
  repeat' with_reducible first | assumption | refine Kept_foldl (fun _ _ _ => ?_) _ ?_ | refine Kept_foldl1 (fun _ _ _ => ?_) _ ?_ | apply effect_kept | apply execSieveTwinWrite_kept | apply writeReg_kept | fail_if_no_progress (refine Kept_upd rfl rfl rfl rfl rfl rfl rfl rfl rfl rfl rfl rfl rfl ?_) | split

theorem writeQueueCfg_kept {s0 : State} {s : State} {a2 : Nat} {a3 : Nat} {a4 : Nat} (h : Kept s0 s) : Kept s0 (writeQueueCfg s a2 a3 a4) := by
  unfold writeQueueCfg
  repeat' with_reducible first | assumption | refine Kept_foldl (fun _ _ _ => ?_) _ ?_ | refine Kept_foldl1 (fun _ _ _ => ?_) _ ?_ | apply effect_kept | apply execQmuQcfgWrite_kept | apply writePlain_kept | apply execQmuQtoWrite_kept | fail_if_no_progress (refine Kept_upd rfl rfl rfl rfl rfl rfl rfl rfl rfl rfl rfl rfl rfl ?_) | split

theorem writeMsix_kept {s0 : State} {s : State} {a2 : Nat} {a3 : Nat} {a4 : Nat} (h : Kept s0 s) : Kept s0 (writeMsix s a2 a3 a4) := by
  unfold writeMsix
  repeat' with_reducible first | assumption | refine Kept_foldl (fun _ _ _ => ?_) _ ?_ | refine Kept_foldl1 (fun _ _ _ => ?_) _ ?_ | apply setMsixWord_kept

theorem writeWindow_kept {s0 : State} {s : State} {a2 : Nat} {a3 : Nat} {a4 : Nat} (h : Kept s0 s) : Kept s0 (writeWindow s a2 a3 a4) := by
  unfold writeWindow
  repeat' with_reducible first | assumption | refine Kept_foldl (fun _ _ _ => ?_) _ ?_ | refine Kept_foldl1 (fun _ _ _ => ?_) _ ?_ | refine setSec_kept rfl ?_

theorem writeAt_kept {s0 : State} {s : State} {a2 : Nat} {a3 : Nat} {a4 : Nat} (h : Kept s0 s) : Kept s0 (writeAt s a2 a3 a4) := by
  unfold writeAt
  repeat' with_reducible first | assumption | apply writeQueueCfg_kept | apply writeMsix_kept | apply writeWindow_kept | apply writePage_kept | fail_if_no_progress (refine Kept_upd rfl rfl rfl rfl rfl rfl rfl rfl rfl rfl rfl rfl rfl ?_) | split

theorem execRegisterWrite_kept {s0 : State} {a1 : Nat} {a2 : Nat} {a3 : BitVec 64} {a4 : Bool} {s : State} (h : Kept s0 s) : KeptR s0 (execRegisterWrite a1 a2 a3 a4 s) := by
  unfold execRegisterWrite
  repeat' with_reducible first | assumption | exact KeptR_fault | apply KeptR_ok | apply ok_kept | apply emit_kept | apply writeAt_kept | apply barAccess_kept | split

theorem tick_kept {s0 : State} {s : State} (h : Kept s0 s) : KeptR s0 (tick s) :=
  KeptR_next (settle_kept ⟨h.1, h.2, Nat.le_succ_of_le h.3, h.4, h.5⟩)

end Sys2Proof.Machine
end

