-- ==== Sys2Proof/Tests/Slice0.lean ====
section
/-! SUPPORT. Tests: ill-formed commands that WellFormed refuses, worked values of the rules, and for every statement a concrete state and
operands that meet its hypotheses (theorems named wit_<statement>, one conjunct for each clause, at a boundary of its range where it has
one). The uninterpreted functions of Config have no values, so a hypothesis on one of them stays a hypothesis here. -/

namespace Sys2Proof.Tests
set_option Elab.async false
open Sys2Proof.Machine

/-! States that the witnesses start from. -/

/-- A module that has gone through bring-up, in service, with its link up, its BARs decoded and MSI-X enabled. -/
def up : State :=
  { State.reset with regs := (wr State.reset Fd.moduleStateReady 1).regs
                     boot := { bootInit with perst := false, pwrGood := true, linkUp := true, stagesDone := List.range 12, verified := true }
                     hif := { hifInit with cfg := { cfgInit with decode := true, msixOn := true } } }

/-- up with these register fields at these values. -/
def upR (l : List (Fld × Nat)) : State := wrs up l

/-- up with tile 5 as given. -/
def upT (x : Tile) : State := { up with tiles := [(5, x)] }

/-- A dispatch of core 3. -/
def disp : Dispatch :=
  { tag := 7, acc := 0, place := 0, late := 0, waited := 0, cores := [3], live := [3], stores := 0, stall := 0, flags := 0, gfault := none, lastEnd := 0, num := 0 }

/-- Core 3 of tile 5 runs alone and is to execute the word w from address 0. -/
def grainState (k : Core) (w : Nat) : State :=
  { upT { tileInit with dispatches := [disp] } with cores := [(163, { k with pc := 0, waiting := none })],
                                                    mem := memWrite [] (imemBase 5 3) (leBytes 4 w) }

/-- That core, for the words that the theorems below name. -/
theorem member_grainState (k : Core) (w : Nat) (h : readLE (grainState k w) (imemBase 5 3) 4 = w) : Member (grainState k w) 5 3 disp w :=
  { tile := by decide, core := by decide, live := rfl, runs := rfl, word := h }

/-- The core reads back the word. -/
def reads (w : Nat) : Bool := readLE (grainState coreInit w) (imemBase 5 3) 4 == w

/-- A grain word from its fields, high bits first: pairs of a value and the lowest bit of its field. -/
def word (l : List (Nat × Nat)) : Nat := (l.map fun p => p.1 * 2 ^ p.2).sum
/-! Ill-formed commands, one for each check, beside the boundary that passes. -/

/-- A cell at the top of every field. -/
def wfCell : FabCell :=
  { domain := 65535, typ := 15, vc := 3, alt := true, rty := false, dst := 4095, src := 4095, offset := 2 ^ 40 - 16, stream := 255,
    seq := 65535, hops := 63, sync := true, status := 255, data := List.replicate 112 0 }

theorem test_wf_units : (Instr.sweep 63).wf = true ∧ (Instr.sweep 64).wf = false ∧ (Instr.addi 0 31).wf = true ∧ (Instr.addi 0 32).wf = false ∧
    (Instr.copy 131).wf = true ∧ (Instr.copy 132).wf = false ∧ (Instr.kFact 3).wf = true ∧ (Instr.kFact 4).wf = false ∧
    (Instr.portSoftReset 11).wf = true ∧ (Instr.portSoftReset 12).wf = false ∧ (Instr.hbmPhyLoss 15).wf = true ∧
    (Instr.hbmPhyLoss 16).wf = false ∧ (Instr.nwuCtlWrite 4 0).wf = false ∧ (Instr.moduleStepApplyWrite 8 0).wf = false ∧
    (Instr.d2dLinkFailure 4).wf = false ∧ (Instr.stageSec 0 4).wf = false ∧ (Instr.prepareAnswer 7 true).wf = false := by decide +kernel

theorem test_wf_numbers : (Instr.qDrop 4095).wf = true ∧ (Instr.qDrop 4096).wf = false ∧ (Instr.enqueue 77 0 []).wf = true ∧
    (Instr.enqueue 78 0 []).wf = false ∧ (Instr.dequeue 78 0 []).wf = false ∧ (Instr.collectiveOpStart 1023).wf = true ∧
    (Instr.collectiveOpStart 1024).wf = false ∧ (Instr.chunkComplete 0 65535).wf = true ∧ (Instr.chunkComplete 0 65536).wf = false ∧
    (Instr.chunkAdmit 4).wf = false ∧ (Instr.dequeue 77 0 [1048576]).wf = false ∧ (Instr.stageMmc 0 3).wf = false ∧ (Instr.reorderGapTimeout 4096 0).wf = false ∧ (Instr.ackTimeout 256).wf = false ∧
    (Instr.sieveTwinWrite 0 127 []).wf = true ∧ (Instr.sieveTwinWrite 0 128 []).wf = false ∧ (Instr.ringDrain 63).wf = true ∧
    (Instr.ringDrain 64).wf = false ∧ (Instr.hubCopyItem 4).wf = false ∧ (Instr.trnWheelWrite 64 0).wf = false := by decide +kernel

theorem test_wf_cell : (Instr.dataCell wfCell).wf = true ∧
    [{ wfCell with domain := 65536 }, { wfCell with typ := 16 }, { wfCell with vc := 4 }, { wfCell with dst := 4096 }, { wfCell with src := 4096 },
     { wfCell with offset := 2 ^ 40 }, { wfCell with offset := 8 }, { wfCell with stream := 256 }, { wfCell with seq := 65536 },
     { wfCell with hops := 64 }, { wfCell with status := 256 }, { wfCell with data := List.replicate 113 0 }].all
       (fun c => !(Instr.dataCell c).wf) = true := by decide +kernel

theorem test_wf_blocks : (Instr.unfence (.pce 63 1)).wf = true ∧ (Instr.unfence (.pce 63 2)).wf = false ∧ (Instr.unfence (.mem 16)).wf = false ∧
    (Instr.unfence (.tsq 64)).wf = false ∧ (Instr.unfence (.port 12)).wf = false ∧ (Instr.unfence (.kln 4)).wf = false ∧
    (Instr.railFault .hub).wf = true ∧ (Instr.railFault (.stack 16)).wf = false := by decide +kernel
/-! Worked examples of the manual. -/

/-- The element example after R48: code 0x5B under S8 0x7A is 22 * 2^-5 = 0.6875 = 11 * 2^-4. -/
theorem test_e4m3_scaled : (((e4m3.decode 0x5B).scaled 0x7A).dy.sub ⟨11, -4⟩).n = 0 := by decide +kernel

/-- The example after R61: FP32 0x3E99999A to E4M3 by RNE, and by SR with two draws. -/
theorem test_narrow_rounding : (e4m3.narrow8 .rne false 0 (fp32.decode 0x3E99999A)).1 = 0x2A ∧
    (e4m3.narrow8 (.sr 0x800000) false 0 (fp32.decode 0x3E99999A)).1 = 0x2A ∧
    (e4m3.narrow8 (.sr 0x300000) false 0 (fp32.decode 0x3E99999A)).1 = 0x29 := by decide +kernel

/-- The Sieve example: scales for magnitudes 1.75, 9.0 (capped at REF 121) and 2^-10, with DYN 20, and REF from H * 2. -/
theorem test_sieve_scales : blockExp ⟨7, -2⟩ (qOf 3) 121 20 = 119 ∧ exOf ⟨9, 0⟩ (qOf 3) = 122 ∧ blockExp ⟨9, 0⟩ (qOf 3) 121 20 = 121 ∧
    blockExp ⟨1, -10⟩ (qOf 3) 121 20 = 109 ∧ exOf ⟨6, 0⟩ (qOf 3) = 121 := by decide +kernel

/-- The same example: 9.0, -8.0 and 7.5 at scale 2^-6 saturate. -/
theorem test_sieve_clip : [(⟨0x4110, 0⟩ : Nat × Nat), (0xC100, 0), (0x40F0, 0)].map
    (fun p => e4m3.narrow8 .rne false 6 (bf16.decode p.1)) = [(0x7E, Fl.clip ||| Fl.inx), (0xFE, Fl.clip ||| Fl.inx), (0x7E, Fl.clip ||| Fl.inx)] := by
  decide +kernel

/-- Row 0 of A and column 0 of B of the worked FP64 example of 05_split_precision.md. -/
def lineA : Line := splitLine 53 53 ([0x3FF000010000100C, 0xBFE4000000100000, 0x3EB0000000001000].map fp64.decode)
def lineB : Line := splitLine 53 53 ([0x3FE8000000000000, 0x3FE0000000060000, 0xBFD0000000000000].map fp64.decode)

/-- Its pieces and lost bits. -/
theorem test_split_pieces : lineA.exp = 1 ∧ lineB.exp = 0 ∧ lineA.pieces = [⟨[65536, 16384, 4108], false, 0⟩, ⟨[-40960, -2, 0], false, 0⟩,
      ⟨[0, 16384, 0], true, 20⟩] ∧
    lineB.pieces = [⟨[98304, 0, 0], false, 0⟩, ⟨[65536, 2, -131072], false, 0⟩, ⟨[-32768, 0, 0], false, 0⟩] := by decide +kernel

/-- Its block value in P3/9 and in P3/6. -/
theorem test_split_value : combineBlock 11 false lineA lineB 0 = (0x3FDC0001FFE8B024, 0) ∧
    combineBlock 10 false lineA lineB 0 = (0x3FDC0001FFE8B024, 0) := by decide +kernel

/-- The order example of 14_collectives.md: 1.0 + 2^24 + 1.0 - 2^24 in child order is +0, in the order 3, 2, 1 it is 2.0. -/
theorem test_collective_order :
    ([0x4B800000, 0x3F800000, 0xCB800000].foldl (fun a v => (combine32 0 a v).1) 0x3F800000) = 0 ∧
    ([0xCB800000, 0x3F800000, 0x4B800000].foldl (fun a v => (combine32 0 a v).1) 0x3F800000) = 0x40000000 := by decide +kernel
/-! The block. -/

theorem wit_StepRunsFront : ({ up with pending := [Instr.mctpDiscovery, .turnStart] } : State).pending = [.mctpDiscovery, .turnStart] ∧
    up.pending = [] ∧ Quiet up :=
  ⟨rfl, rfl, ⟨by decide, by decide, by decide, by decide, by decide, by decide, by decide, by decide⟩⟩

/-- A command that answers a next state, in a state in canonical form. -/
theorem wit_CommandsKeepQueueAndClock : (∃ s', exec .mctpDiscovery up = .next s') ∧ up.wf = true ∧
    ∃ s', step { up with pending := [.mctpDiscovery] } = .next s' := ⟨⟨_, rfl⟩, by decide +kernel, ⟨_, rfl⟩⟩

/-! Grain cores. The words are the encodings of R128 and R129, field by field. -/

/-- A scalar word: OP, xd 2, xa 1, xb 4 and the low bits. -/
def sc (op low : Nat) : Nat := word [(op, 26), (2, 21), (1, 16), (4, 11), (low, 0)]
/-- A core with x1 and x4. -/
def coreX (x1 x4 : Nat) : Core := { coreInit with x := [(1, x1), (4, x4)] }

theorem wit_GrainScalarResultsAndFaults_words : ((List.range 9).map fun o => sc o 0).all reads = true ∧
    (∀ o ∈ List.range 9, bits (sc o 0) 31 26 = o) ∧ (∀ fn ∈ List.range 12, bits (sc 2 fn) 31 26 = 2 ∧ bits (sc 2 fn) 10 0 = fn) ∧
    (∀ n ∈ List.range 7, bits (word [(7, 26), (2, 21), (n, 0)]) 15 0 = n ∧ bits (word [(8, 26), (1, 16), (n, 0)]) 15 0 = n) ∧
    (coreX 9 63).rx 4 = 63 ∧ (coreX 9 64).rx 4 = 64 ∧ (grainState coreInit 0).turn.guardAt = 1745920 := by decide +kernel

/-- The cycle of an instruction has come in every such state: its clock is at 0, and no register is waited for. -/
theorem wit_GrainScalarResultsAndFaults_time (k : Core) (w : Nat) (h : k.issueAt [] = 0) : At (grainState k w) (k.issueAt []) :=
  ⟨h ▸ Nat.le_refl 0, rfl⟩

theorem wit_GrainScalarResultsAndFaults_faults : [9 * 2 ^ 26, 1, sc 2 12, word [(7, 26), (7, 0)], word [(8, 26), (1, 0)], word [(8, 26), (4, 0)],
      word [(8, 26), (7, 0)], word [(4, 26), (1, 16), (1, 0)], word [(5, 26), (0x2000, 0)]].all reads = true ∧
    grainOp (bits (9 * 2 ^ 26) 31 26) = false ∧ bits 1 31 26 = 0 ∧ bits (sc 2 12) 10 0 = 12 ∧ (coreX 9 0).rx 0 = 0 ∧
    ofSigned 64 ((coreInit.rx 1 : Int) + toSigned 16 1) % 8 ≠ 0 ∧
    coreAddr 5 3 (ofSigned 64 ((coreInit.rx 0 : Int) + toSigned 16 0x2000)) 8 = none := by decide +kernel

/-- The last word of the local data memory, and the last of OPC, where an access may lose cycles. -/
theorem wit_GrainMemoryResults_scalar : [word [(4, 26), (2, 21), (1, 16)], word [(5, 26), (2, 21), (1, 16)]].all reads = true ∧
    bits (word [(4, 26), (2, 21), (1, 16)]) 31 26 = 4 ∧ bits (word [(5, 26), (2, 21), (1, 16)]) 31 26 = 5 ∧
    ofSigned 64 (((coreX 0x1FF8 0).rx 1 : Int) + toSigned 16 0) = 0x1FF8 ∧ coreAddr 5 3 0x1FF8 8 = some (ldmBase 5 3 + 0x1FF8) ∧
    ofSigned 64 (((coreX 0x13FFF8 0).rx 1 : Int) + toSigned 16 0) = 0x13FFF8 ∧ coreAddr 5 3 0x13FFF8 8 = some (opcBase 5 + 0x3FFF8) ∧
    inOpc 0x13FFF8 = true := by decide +kernel

/-- Format M with a group of eight registers of 32-bit elements at 0x1F80, the last 128 bytes of the local data memory. -/
def wm (op : Nat) : Nat := word [(op, 26), (8, 21), (1, 16), (0, 13), (3, 11), (2, 8)]
/-- Format V: OP, vd 8, va 16, vb 24, p0, TYPE, G and SUB. -/
def wv (op ty g sub : Nat) : Nat := word [(op, 26), (8, 21), (16, 16), (24, 11), (ty, 5), (g, 3), (sub, 0)]

theorem wit_GrainMemoryResults_vector : [wm 0x10, wm 0x11].all reads = true ∧ bits (wm 0x10) 31 26 = 0x10 ∧ bits (wm 0x11) 31 26 = 0x11 ∧
    (fmtM (wm 0x10)).bad [(fmtM (wm 0x10)).d] = false ∧ vmemBad 5 3 0x1F80 (fmtM (wm 0x10)) (coreX 0x1F80 0) = false ∧
    ofSigned 64 (((coreX 0x1F80 0).rx 1 : Int) + toSigned 7 (bits (wm 0x10) 6 0) * 16) = 0x1F80 ∧
    vmemBad 5 3 0x13FF80 (fmtM (wm 0x11)) (coreX 0x13FF80 0) = false ∧ inOpc 0x13FF80 = true ∧
    (fmtM (wm 0x11)).active (coreX 0x13FF80 0) ≠ [] := by decide +kernel

/-- Indexed elements: base x16 is 0x1FC0, four indices 0 to 3. -/
theorem wit_GrainMemoryResults_indexed :
    let k : Core := { coreInit with x := [(16, 0x1FC0)], v := [(24, 0x00000003000000020000000100000000)] }
    let f := fmtV (wv 0x12 2 0 0)
    [wv 0x12 2 0 0, wv 0x13 2 0 0].all reads = true ∧ bits (wv 0x12 2 0 0) 31 26 = 0x12 ∧ bits (wv 0x13 2 0 0) 31 26 = 0x13 ∧
    f.bad [f.d] = false ∧ f.b % f.idxRegs = 0 ∧ f.sub = 0 ∧
    (∀ j ∈ f.active k, ofSigned 64 ((k.rx f.a : Int) + toSigned 32 (k.elem f.b 4 j) * f.sz) % f.sz = 0 ∧
      coreAddr 5 3 (ofSigned 64 ((k.rx f.a : Int) + toSigned 32 (k.elem f.b 4 j) * f.sz)) f.sz ≠ none) := by decide +kernel

theorem wit_GrainPredicateAndMoveResults_predicates : (∀ fn ∈ List.range 8, bits (word [(0x18, 26), (1, 23), (2, 20), (3, 17), (fn, 14)]) 16 14 = fn ∧
      reads (word [(0x18, 26), (1, 23), (2, 20), (3, 17), (fn, 14)]) = true ∧
      bits (word [(0x18, 26), (1, 23), (2, 20), (3, 17), (fn, 14)]) 13 11 ≠ 7) ∧
    [word [(0x19, 26), (6, 10)], word [(0x1A, 26), (31, 18), (6, 10)], word [(0x1B, 26), (3, 9)], wv 0x26 6 3 2].all reads = true ∧
    bits (word [(0x19, 26), (6, 10)]) 31 26 = 0x19 ∧ bits (word [(0x19, 26), (6, 10)]) 12 10 ≠ 7 ∧
    bits (word [(0x19, 26), (6, 10)]) 7 0 = 0 ∧
    bits (word [(0x1A, 26), (31, 18), (6, 10)]) 31 26 = 0x1A ∧ bits (word [(0x1A, 26), (31, 18), (6, 10)]) 12 10 ≠ 7 ∧
    bits (word [(0x1A, 26), (31, 18), (6, 10)]) 7 0 = 0 ∧ bits (word [(0x1A, 26), (31, 18), (6, 10)]) 17 13 = 0 ∧
    bits (word [(0x1B, 26), (3, 9)]) 31 26 = 0x1B ∧ bits (word [(0x1B, 26), (3, 9)]) 12 10 ≠ 7 ∧
    bits (word [(0x1B, 26), (3, 9)]) 7 0 = 0 ∧
    bits (wv 0x26 6 3 2) 31 26 = 0x26 ∧ (fmtV (wv 0x26 6 3 2)).bad [16, 24] = false ∧ bits (fmtV (wv 0x26 6 3 2)).d 4 3 ≠ 0 ∧
    bits (fmtV (word [(0x26, 26), (7, 21), (16, 16), (24, 11), (6, 5), (3, 3)])).d 4 3 = 0 := by decide +kernel

theorem wit_GrainPredicateAndMoveResults_moves : [wv 0x14 6 3 0, wv 0x15 0 3 0, wv 0x27 2 3 0].all reads = true ∧
    (∀ p ∈ [(0x14, 0), (0x23, 0), (0x23, 1), (0x23, 2), (0x23, 3), (0x24, 0), (0x24, 1), (0x24, 2), (0x27, 0)],
      let w := wv p.1 3 3 p.2
      bits w 31 26 = p.1 ∧ reads w = true ∧ (fmtV w).bad [(fmtV w).d, (fmtV w).a, (fmtV w).b] = false ∧ (fmtV w).ty ≤ 3 ∧ (fmtV w).sub = p.2) ∧
    (let w := wv 0x15 0 3 0
     bits w 31 26 = 0x15 ∧ (fmtV w).bad [(fmtV w).a] = false ∧ (fmtV w).sub = 0 ∧
       ({ coreInit with x := [(24, 127)] } : Core).rx (fmtV w).b < (fmtV w).n ∧ (fmtV w).act coreInit 127 = true ∧
       (fmtV (w + 2 ^ 8)).act coreInit 127 = false) := by decide +kernel

/-- Every operation of the arithmetic words on an integer and a floating type. -/
theorem wit_GrainArithmeticResults : (∀ p ∈ [(0x20, 0), (0x20, 1), (0x20, 2), (0x21, 0), (0x21, 1), (0x21, 2), (0x22, 0), (0x22, 1), (0x22, 2),
        (0x25, 0), (0x25, 1)], ∀ ty ∈ [0, 3, 4, 6], let w := wv p.1 ty 3 p.2
      bits w 31 26 = p.1 ∧ reads w = true ∧ (fmtV w).bad [(fmtV w).d, (fmtV w).a, (fmtV w).b] = false ∧ (fmtV w).sub = p.2 ∧
        tyIsFp (fmtV w).ty = decide (4 ≤ ty)) ∧
    -- an element whose absolute value is stated, one short of the one whose is not (log entry 9)
    toSigned 8 0x81 ≠ -((2 ^ 7 : Nat) : Int) := by decide +kernel

/-- Every conversion word at 64-bit elements; the greatest FRAC that each takes. -/
theorem wit_GrainConvertAndReduceResults_convert : (∀ kd ∈ List.range 10, let w := word [(0x28 + kd, 26), (8, 21), (16, 16), (24, 11), (3, 5), (3, 3)]
      let f := fmtV w
      let sg := max 1 (f.g * f.sz / max f.sz (cvtSize kd))
      let dg := max 1 (f.g * cvtSize kd / max f.sz (cvtSize kd))
      let x := cvtX ((if kd = 9 then 38 else 63) * 256)
      bits w 31 26 = 0x28 + kd ∧ reads w = true ∧ f.ty ≠ 7 ∧ f.a % sg = 0 ∧ f.d % dg = 0 ∧ f.sub = 0 ∧ x.rsv = 0 ∧ x.k ≠ -128 ∧
        (kd = 9 → x.frac ≤ 38) ∧ (4 ≤ kd → kd ≤ 8 → tyIsFp f.ty = false → f.sub ≤ 1 → x.frac ≤ 63)) ∧
    -- a stochastic narrowing to FP8, and a SUB above 1 of an INT8 source
    (fmtV (word [(0x28, 26), (4, 5), (1, 0)])).sub = 1 ∧ (fmtV (word [(0x2C, 26), (0, 5), (3, 0)])).sub = 3 ∧
    (fmtV (word [(0x2C, 26), (0, 5), (3, 0)])).ty = 0 := by decide +kernel

/-- Format R: OP, d 8, va 16, FN, ps, TYPE, G and X. -/
def wr_ (op fn ps ty g x : Nat) : Nat := word [(op, 26), (8, 21), (16, 16), (fn, 13), (ps, 10), (ty, 4), (g, 2), (x, 0)]

theorem wit_GrainConvertAndReduceResults_reduce : (∀ fn ∈ List.range 8, ∀ ty ∈ [0, 4, 6], let w := wr_ 0x38 fn 0 ty 3 0
      bits w 31 26 = 0x38 ∧ reads w = true ∧ (fmtR w).f.bad [(fmtR w).f.a] = false ∧ (fmtR w).fn = fn ∧ (fmtR w).x = false) ∧
    (∀ ty ∈ [0, 2, 4], let w := wr_ 0x38 0 0 ty 3 1
      (fmtR w).x = true ∧ ((fmtR w).fn = 0 && ((fmtR w).f.ty = 4 || (fmtR w).f.ty ≤ 2)) = true) ∧
    (∀ x ∈ [0, 1], let w := wr_ 0x39 5 2 3 3 x
      bits w 31 26 = 0x39 ∧ reads w = true ∧ (fmtR w).f.bad [(fmtR w).f.d, (fmtR w).f.a] = false ∧ (fmtR w).fn ≤ 5) := by decide +kernel

/-- Tile 5 with one RUN issued, whose descriptor has the words a and b and ARG 9. -/
def runAt (a b : Nat) : State :=
  { upT { tileInit with issued := [⟨1, 0x40, 3, 500⟩] } with
      mem := memWrite [] (tileBase 5 + 0x40) (leBytes 4 a ++ leBytes 4 b ++ leBytes 8 9) }

theorem wit_RunAndHalt_run : (tile (settle (runAt 0 0)) 5).issued.find? (fun i => i.unit == 1) = some ⟨1, 0x40, 3, 500⟩ ∧
    (let d (a b : Nat) := runD (readBytes (runAt a b) (tileBase 5 + 0x40) 32)
     (d 0x10000FFF 0xFFFFFFFF).rsv = false ∧ (d 0x10000FFF 0xFFFFFFFF).op = 1 ∧ (d 0x10000FFF 0xFFFFFFFF).cores ≠ 0 ∧
     (d 0x10000FFF 0xFFFFFFFF).blocked (tile (settle (runAt 0 0)) 5) = false ∧ (d 0x10001000 1).rsv = true ∧ (d 0x20000000 1).op ≠ 1 ∧
     (d 0x10000000 0).rsv = false ∧ (d 0x10000000 0).cores = 0) := by decide +kernel

/-- The last member of its dispatch, and one of two. -/
theorem wit_RunAndHalt_halt : let s := grainState coreInit 0
    reads 0 = true ∧ (∀ b ∈ (tile s 5).dispatches, b.acc = disp.acc → b = disp) ∧ (coreOf s 5 3).ready < s.turn.guardAt ∧
    disp.live.erase 3 = [] ∧ ({ disp with live := [3, 31] } : Dispatch).live.erase 3 ≠ [] ∧ (coreOf s 5 3).ready ≤ s.now ∧
    s.settled = s.now ∧ dispatchOf (settleTo s 0) 5 3 = some disp ∧ (∀ b ∈ (tile (settleTo s 0) 5).dispatches, b.acc = disp.acc → b = disp) := by
  decide +kernel

/-- An ADDI whose source is ready at cycle 50 only. -/
theorem wit_RecordsAndDueCycles_grain : let k : Core := { coreX 9 0 with rdy := [(kx 1, 50)] }
    let s := grainState k (sc 1 7)
    let g := grainOut (· == 0x01) fun i => scalarGo i [(kx (fA i.w), 0)] (fD i.w) (addImm (i.k.rx (fA i.w)) (imm16 i.w)) 1
    dispatchOf s 5 3 = some disp ∧ (coreOf s 5 3).waiting = none ∧ (g (grainIn s 5 3 disp)).t0 = 50 ∧ 50 < s.turn.guardAt ∧ s.now < 50 ∧
    dispatchOf (settleTo s 50) 5 3 = some disp ∧ (coreOf (settleTo s 50) 5 3).waiting = none ∧
    (g (grainIn (settleTo s 50) 5 3 disp)).t0 ≤ 50 := by decide +kernel

theorem wit_TileInstructionsWaitAndJoin_wait : let s := grainState coreInit 0
    [wr_ 0x3A 5 1 6 3 1, wr_ 0x3B 5 0 6 3 0, 0x3C * 2 ^ 26].all reads = true ∧
    bits (wr_ 0x3A 5 1 6 3 1) 31 26 = 0x3A ∧ (fmtR (wr_ 0x3A 5 1 6 3 1)).f.bad [8, 16] = false ∧ (fmtR (wr_ 0x3A 5 1 6 3 1)).fn ≤ 5 ∧
    bits (wr_ 0x3B 5 0 6 3 0) 31 26 = 0x3B ∧ (fmtR (wr_ 0x3B 5 0 6 3 0)).f.bad [8, 16] = false ∧ (fmtR (wr_ 0x3B 5 0 6 3 0)).x = false ∧
    bits (0x3C * 2 ^ 26) 31 26 = 0x3C ∧ bits (0x3C * 2 ^ 26) 25 0 = 0 ∧ (coreOf s 5 3).issueAt [] < s.turn.guardAt ∧
    (coreOf s 5 3).issueAt [] ≤ s.now ∧ s.settled = s.now ∧
    (∀ w ∈ [wr_ 0x3A 5 1 6 3 1, wr_ 0x3B 5 0 6 3 0], let r := fmtR w
      (coreOf s 5 3).issueAt ([(kp r.f.pg, 0), (kp r.ps, 0)] ++ srcGroup r.f.a r.f.g 0) = 0) := by decide +kernel

/-- Cores 3 and 4 of one dispatch wait, with these words. -/
def joinAt (a b : Nat) : State :=
  { upT { tileInit with dispatches := [{ disp with cores := [3, 4], live := [3, 4] }], netFree := 200 } with
      cores := [(163, { coreInit with waiting := some a, ready := 100 }), (164, { coreInit with waiting := some b, ready := 187 })] }

/-- A matching pair that waits 13 cycles for the scan network and is first at it, and a mismatch of FN. -/
theorem wit_TileInstructionsWaitAndJoin_join : let d : Dispatch := { disp with cores := [3, 4], live := [3, 4] }
    let a := 0x3C * 2 ^ 26
    (∀ s ∈ [joinAt a a, joinAt (wr_ 0x3A 0 0 2 0 0) (wr_ 0x3A 1 0 2 0 0)], dispatchOf s 5 3 = some d ∧
      (∀ p ∈ d.live, p < 32 ∧ (coreOf s 5 p).waiting ≠ none)) ∧
    (d.live.filterMap fun p => (coreOf (joinAt a a) 5 p).waiting).head? = some a ∧
    max (joinStart (joinAt a a) 5 d) (tile (joinAt a a) 5).netFree + 13 + (fmtR a).f.g < (joinAt a a).turn.guardAt ∧
    joinStart (joinAt a a) 5 d + 13 = (tile (joinAt a a) 5).netFree ∧ netFirst (joinAt a a) 5 d = true ∧ joinKey a = joinKey a ∧
    joinKey (wr_ 0x3A 1 0 2 0 0) ≠ joinKey (wr_ 0x3A 0 0 2 0 0) ∧ joined (joinAt a a) 5 d = true ∧
    d.waited < min 200 (netGrant (joinAt a a) 5 d) - joinStart (joinAt a a) 5 d := by decide +kernel
/-! The queue manager. -/

/-- A cell and an item of it at the priority p, readable from cycle 0. -/
def cell (i : Nat) : QCell := ⟨i, List.replicate 64 7, i⟩
def item (p n : Nat) (l : List Nat) : QItem := ⟨p, l.map cell, n, 0⟩

/-- Queue 9 is x, and its settings and limit are these. -/
def queueAt (qcfg : Nat) (limit : Nat) (x : Queue) : State :=
  let s := upR [(Fd.qmuQcfgEn 9, bits qcfg 31 31), (Fd.qmuQcfgHost 9, bits qcfg 30 30), (Fd.qmuQcfgHpktm1 9, bits qcfg 15 10),
    (Fd.qmuQcfgHprio 9, bits qcfg 7 5), (Fd.qmuQcfgDefprio 9, bits qcfg 2 0), (Fd.qmuQlimLimit 9, limit)]
  { s with qmu := { qmuInit with queues := [(9, x)], used := [0, 1] } }

/-- One item of two cells. -/
def oneItem : Queue := { queueInit with items := [item 3 2 [0, 1]] }

/-- The records that a RUN turned away by its checks and a done plan descriptor post. -/
def badRun : Posting := { grnPosting 5 3 St.badDesc 500 510 10 0 0 with notices := [Fd.nGrnReject 5], stop := some (Fd.nGrnAbandon 5) }
def donePlan : Posting := { planPosting 5 3 St.done 500 520 1 with counts := [Fd.qmuStalesCount] }

theorem wit_RecordsAndDueCycles : badRun.notices = [Fd.nGrnReject 5] ∧ badRun.counts = [] ∧ (Fd.nGrnReject 5).wid = 1 ∧
    (badRun.errs.map fun b =>
      ([(Fd.nGrnReject 5).key, (Fd.flagsReg badRun.flagPage).key, (Fd.errcntCount b).key, (Fd.firstErrInfo b).key].Nodup : Bool)) = [true] ∧
    (∀ b ∈ badRun.errs, rd up (Fd.errcntCount b) = 0) ∧
    (Fd.nGrnReject 5).key ≠ Fd.trnTurnNoTurn.key ∧ (Fd.flagsReg badRun.flagPage).key ≠ Fd.trnTurnNoTurn.key ∧
    donePlan.notices = [] ∧ donePlan.counts = [Fd.qmuStalesCount] ∧ donePlan.errs = [] ∧ Fd.qmuStalesCount.wid = 32 ∧
    Fd.qmuStalesCount.key ≠ (Fd.flagsReg donePlan.flagPage).key ∧ up.soon = [] ∧ up.now < badRun.rec_.cyc ∧
    badRun.rec_.cyc ≤ ({ up with now := 510 } : State).now ∧ badRun.stop = some (Fd.nGrnAbandon 5) := by decide +kernel

/-- A cycle that has come, one that has not, and one that a tile's guard band comes before. -/
theorem wit_RecordsAndDueCycles_due : (fun _ => some up.turn.guardAt : State → Option Nat) up = some up.turn.guardAt ∧
    up.turn.guardAt ≤ up.turn.guardAt ∧ up.now < up.turn.guardAt ∧ up.turn.guardAt < up.turn.guardAt + 1 ∧
    (fun _ => none : State → Option Nat) up = none := by decide +kernel

/-- Cells of an engine and of the host for queue 9. -/
def ask (producer kind : Nat) : EnqReq := ⟨producer, 9, 0, List.replicate 64 7, 0, kind, 0⟩

/-- Two producers ask: the one behind the pointer is the last in turn. -/
theorem wit_EnqueueResults : (∀ s ∈ [queueAt (2 ^ 31) 3 oneItem, queueAt (2 ^ 31) 2 oneItem, queueAt 0 0 oneItem,
        queueAt (2 ^ 31) 0 { oneItem with broken := true }], rd s (Fd.qmuQcfgHpktm1 9) = 0 ∧
        (queue s 9).hostDrop = 0 ∧ (queue s 9).hostCount = 0 ∧ ∀ p ∈ (queue s 9).parts, p.src ≠ srcHost) ∧
    (accepts (queueAt (2 ^ 31) 3 oneItem) 9 = true ∧ roomIn (queueAt (2 ^ 31) 3 oneItem) 9 = true) ∧
    (accepts (queueAt (2 ^ 31) 2 oneItem) 9 = true ∧ roomIn (queueAt (2 ^ 31) 2 oneItem) 9 = false) ∧
    accepts (queueAt 0 0 oneItem) 9 = false ∧ accepts (queueAt (2 ^ 31) 0 { oneItem with broken := true }) 9 = false ∧
    77 ≠ prodHif ∧ 77 < 78 ∧ (ask 3 0).kind = 0 ∧ (ask prodHif 1).kind = 1 ∧
    (let s := queueAt (2 ^ 31) 3 oneItem
     let s := { s with qmu := { s.qmu with waiting := [ask 3 0, ask 77 0], enqPtr := 4 } }
     let l := (enqHeads s.qmu.waiting).filter fun w => w.ready s && decide (w.since ≤ 0)
     let turn (w : EnqReq) : Nat := (w.producer + 78 - s.qmu.enqPtr % 78) % 78
     l = [ask 3 0, ask 77 0] ∧ (∀ v ∈ l, v ≠ ask 77 0 → turn (ask 77 0) < turn v)) ∧ enqHeads up.qmu.waiting = [] := by decide +kernel

/-- A first cell of two, a last cell, an empty queue, a broken one, and a link that fails its parity check before the cell. -/
theorem wit_DequeueCell : let s := grantDeq (queueAt (2 ^ 31) 0 oneItem) 75
    (queue s 9).broken = false ∧ (queue s 9).next s.now = some (item 3 2 [0, 1]) ∧ (item 3 2 [0, 1]).cells = [cell 0, cell 1] ∧
    reaches s.qmu.badLinks (queue s 9).list (cell 0) = true ∧
    { oneItem with inprog := some (item 3 2 [1]) }.next s.now = some (item 3 2 [1]) ∧ (item 3 2 [1]).cells = [cell 1] ∧
    (queue s 10).next s.now = none ∧ (queue s 10).broken = false ∧
    (queue (grantDeq (queueAt 0 0 { oneItem with broken := true }) 75) 9).broken = true ∧
    (let q := queueAt (2 ^ 31) 0 { queueInit with items := [item 3 1 [1], item 1 1 [0]] }
     let links := ([0].filter fun i => q.qmu.used.contains i).foldl insertNat q.qmu.badLinks
     let s0 := grantDeq { q with qmu := { q.qmu with badLinks := links } } 75
     (queue s0 9).next s0.now = some (item 3 1 [1]) ∧ reaches s0.qmu.badLinks (queue s0 9).list (cell 1) = false) := by
  decide +kernel

theorem wit_EmptyDequeue : let g (s : State) := grantDeq s prodHif
    (queue (g (queueAt (2 ^ 31) 0 queueInit)) 9).broken = false ∧
    (queue (g (queueAt (2 ^ 31) 0 queueInit)) 9).next (g (queueAt (2 ^ 31) 0 queueInit)).now = none ∧
    (queue (g (queueAt 0 0 { oneItem with broken := true })) 9).broken = true := by decide +kernel

/-- A step on a state of canonical form: a DEQUEUE waits at the front. -/
theorem wit_StepKeepsForm : let s := { queueAt (2 ^ 31) 0 oneItem with pending := [.dequeue 75 9 []] }
    s.wf = true ∧ (match step s with | .next s' => (queue s' 9).items == [] && s'.pending == [] | _ => false) = true := by decide +kernel

theorem wit_QueueCommandsAndSettings_commands : let s := queueAt (2 ^ 31) 0 { oneItem with inprog := some (item 3 2 [1]) }
    let t := { wr s (Fd.qmuQtoUnits 9) 1 with now := 1 }
    let u := settleTo t ((queue t 9).since + 1024)
    4 ∈ s.boot.stagesDone ∧ 4 ∉ State.reset.boot.stagesDone ∧ s.qmu.badLinks = [] ∧
    (queue s 10).inprog = none ∧ (queue s 9).inprog = some (item 3 2 [1]) ∧ (queue s 9).broken = false ∧
    (∀ c ∈ (item 3 2 [1]).cells, reaches s.qmu.badLinks (queue s 9).list c = true) ∧
    (∃ c ∈ (item 3 2 [1]).cells, reaches [0] (queueInit.list ++ [cell 0, cell 1]) c = false) ∧
    (queue (queueAt 0 0 { oneItem with broken := true }) 9).broken = true ∧
    rd t (Fd.qmuQtoUnits 9) = 1 ∧ (queue t 9).depth (max t.now (queue t 9).since) ≠ 0 ∧ (queue t 9).reported = false ∧
    (queue u 9).depth u.now ≠ 0 ∧ (queue u 9).since = (queue t 9).since := by decide +kernel

/-- A host packet of two that is half there, and a write that changes its length. -/
theorem wit_QueueCommandsAndSettings_settings : let s := queueAt (2 ^ 31 + 2 ^ 10) 0 { queueInit with parts := [⟨srcHost, 0, [cell 0]⟩], hostCount := 1 }
    4 ∈ s.boot.stagesDone ∧ (queue s 9).hostCount ≠ 0 ∧ (queue s 10).hostCount = 0 ∧ bits (2 ^ 31) 15 10 ≠ rd s (Fd.qmuQcfgHpktm1 9) := by
  decide +kernel

/-- Tile 5 has a plan descriptor of the queue manager issued: its first word and its source address. -/
def planAt (w src : Nat) : State :=
  { upT { tileInit with issued := [⟨9, 0x40, 3, 500⟩] } with mem := memWrite [] (tileBase 5 + 0x40) (leBytes 4 w ++ leBytes 4 src) }

theorem wit_PlanEnqueue_accept : (∀ s ∈ [planAt 0x10400009 0x7FF000, planAt 0x10410009 0, planAt 0x20010009 0, planAt 0x10000009 0,
        planAt 0x10010009 0x20, planAt 0x10020009 0x7FFFC0], (tile s 5).issued.find? (fun i => i.unit == 9) = some ⟨9, 0x40, 3, 500⟩) ∧
    (let d (s : State) := readBytes s (tileBase 5 + 0x40) 32
     let rsv (s : State) : Bool := bits (dword (d s) 0) 31 28 != 1 || bit (dword (d s) 0) 23 || bits (dword (d s) 0) 15 12 != 0 ||
       bits (dword (d s) 1) 31 23 != 0 || fieldLE (d s) 8 24 != 0
     let p (s : State) : PlanEnq :=
       { tile := 5, tag := 3, place := 0x40, desc := d s, acc := 500, sent := 0, good := 0, read := some 510, lost := [], bad := false, due := 0 }
     (rsv (planAt 0x10400009 0x7FF000) = false ∧ (p (planAt 0x10400009 0x7FF000)).ncell = 64 ∧
       (p (planAt 0x10400009 0x7FF000)).src + 64 * 64 = 0x800000 ∧ (p (planAt 0x10400009 0x7FF000)).src % 64 = 0) ∧
     64 < (p (planAt 0x10410009 0)).ncell ∧ rsv (planAt 0x20010009 0) = true ∧
     (rsv (planAt 0x10000009 0) = false ∧ (p (planAt 0x10000009 0)).ncell = 0) ∧
     (rsv (planAt 0x10010009 0x20) = false ∧ (p (planAt 0x10010009 0x20)).src % 64 ≠ 0 ∧ (p (planAt 0x10010009 0x20)).ncell = 1) ∧
     (rsv (planAt 0x10020009 0x7FFFC0) = false ∧ 0x800000 < (p (planAt 0x10020009 0x7FFFC0)).src + 64 * (p (planAt 0x10020009 0x7FFFC0)).ncell)) := by decide +kernel

/-- A descriptor of one cell for queue 9, whose cell is read at cycle 10. -/
def planRun : PlanEnq :=
  { tile := 5, tag := 3, place := 0x40, desc := leBytes 4 0x10010009 ++ List.replicate 28 0, acc := 0, sent := 0, good := 0, read := some 10,
    lost := [], bad := false, due := 0 }

theorem wit_PlanEnqueue_complete : let s := { queueAt (2 ^ 31) 0 queueInit with qmu := { qmuInit with plans := [planRun] } }
    s.qmu.plans.find? (fun p => p.tile == 5) = some planRun ∧ planRun.readAt = some 10 ∧ planOf s 5 0 = some planRun ∧ planRun.pkt = false ∧
    (∀ i ∈ (queue s planRun.queue).parts, i.src ≠ planRun.part) ∧
    accepts (queueAt (2 ^ 31) 0 queueInit) 9 = true ∧ accepts (queueAt 0 0 queueInit) 9 = false ∧
    (planOf (drivePlan 5 0 240 s) 5 0).map (fun p => p.sent == p.ncell) = some true := by
  decide +kernel
/-! The turn. -/

/-- A module that follows a beacon. -/
def follows : State := upR [(Fd.trnStateRole, 2)]

theorem wit_TurnRegisters : hubUp up = true ∧ hubUp State.reset = false ∧ follower up = false ∧ follower follows = true ∧ hubUp follows = true ∧
    (2 * rd up Fd.trnGuardCc ≤ 16 * 1024 ∧ 16 ≤ 16 ∧ bits 16 19 0 = 16) ∧ bits 15 19 0 < 16 ∧ 524288 < bits 524289 19 0 ∧
    16 * 1024 < 2 * rd (upR [(Fd.trnGuardCc, 0x4000)]) Fd.trnGuardCc ∧
    parOk (rd up Fd.trnLenUnits) 65536 = true ∧ parOk (rd up Fd.trnLenUnits) 1024 = true ∧ parOk (rd up Fd.trnLenUnits) 1025 = false ∧
    turnNo up + 2 ≤ bits 2 47 0 ∧ bits 1 47 0 < turnNo up + 2 ∧
    bits 0xBFFE000000 39 16 * 0x10000 + 0x2000000 ≤ 0xC000000000 ∧
    0xC000000000 < bits 0xBFFE010000 39 16 * 0x10000 + 0x2000000 ∧ bits (2 ^ 63) 63 0 = 2 ^ 63 ∧ capTile up.variant 63 = true ∧
    capTile ({ up with variant := .s } : State).variant 32 = false ∧ bits 64 6 0 ≤ 64 ∧ 64 < bits 65 6 0 := by decide +kernel

/-- R193: no resynchronisation is due, and the stage of program 7 is armed for turn 2, and is not. -/
theorem wit_StepStaging : let s := upR [(Fd.moduleStepApplyArmed 7, 1), (Fd.moduleStepApplyTurn 7, 2), (Fd.moduleStepNextStep 7, 99)]
    blockUp s .module = true ∧ hubUp s = true ∧ hostUp s = true ∧ rd s Fd.hifLinkIde ≠ 3 ∧ s.hif.cfg.decode = true ∧ s.turn.resync.find? (fun r => r.1 == 7) = none ∧
    rdb s (Fd.moduleStepApplyArmed 7) = true ∧ rd s (Fd.moduleStepApplyTurn 7) = 2 ∧ rdb up (Fd.moduleStepApplyArmed 7) = false := by
  decide +kernel

theorem wit_TurnStartGuardAndSlots_start : hubUp up = true ∧ up.turn.inGuard = false ∧ up.turn.nextPar = none ∧ follower up = false ∧
    ({ up.turn with arm := some 5 } : Turn).arm = some 5 ∧ up.turn.arm ≠ some 5 ∧ follower follows = true ∧
    ({ up.turn with nextPar := some (16, 1024) } : Turn).nextPar = some (16, 1024) := by decide +kernel

/-- A slot can start at the start of a turn; inside a slot the next one begins at once. -/
theorem wit_TurnStartGuardAndSlots : hubUp up = true ∧ up.turn.inGuard = false ∧ up.turn.slotOpen = false ∧
    (if slotEnd up up.now ≠ up.now then up.now else nextSlot up up.now) = 0 ∧ 0 < up.turn.stop ∧
    (let s := { up with now := 128 }
     (if slotEnd s s.now ≠ s.now then s.now else nextSlot s s.now) = 6816) ∧
    ({ up.turn with slotOpen := true } : Turn).slotOpen = true := by decide +kernel

/-- Port 11 is up, and the registers as given. -/
def linked (l : List (Fld × Nat)) : State := upR ((Fd.portStateState 11, 2) :: l)

theorem wit_BeaconsAndLock : portUp (linked []) 11 = true ∧ fencedPage (linked []) fritPage = false ∧ parOk 16 8192 = true ∧
    parOk 15 1024 = false ∧ (linked []).turn.beaconIn = false ∧ (linked []).fma.origin = false ∧
    ({ (linked []).fma with origin := true } : Fma).origin = true ∧ rd (linked []) Fd.trnStateLock = 0 ∧
    rd (linked [(Fd.trnStateLock, 3)]) Fd.trnStateLock ≠ 0 ∧
    (let s := { linked [(Fd.trnStateLock, 2)] with turn := { up.turn with inGuard := true } }
     rd s Fd.trnStateLock = 2 ∧ s.turn.beaconIn = false ∧ s.turn.inGuard = true) ∧
    (let s := { linked [(Fd.trnStateLock, 3)] with turn := { up.turn with held := rd up Fd.trnHoldTurns } }
     rd s Fd.trnStateLock = 3 ∧ s.turn.lost = false ∧ rd s Fd.trnHoldTurns ≤ s.turn.held) ∧
    ({ (linked []).turn with beaconIn := true } : Turn).beaconIn = true ∧ (linked []).boot.p3 = false ∧ portUp up 11 = false ∧
    rdb (linked []) Fd.moduleBootCtlSolo = false ∧ rdb (linked [(Fd.moduleBootCtlSolo, 1)]) Fd.moduleBootCtlSolo = true := by decide +kernel

/-- Tile 5 with one entry at the head of its ring, and the TSQ fields as given. -/
def ringAt (entry : List Nat) (l : List (Fld × Nat)) : State :=
  { wrs (upT { tileInit with running := true }) ((Fd.tsqPlanWr 5, 1) :: l) with
      mem := memWrite [] (planBase 5) (entry.flatMap (leBytes 4)) }

/-- The state in which the TSQ of tile 5 acts. -/
def acts (s : State) : Option State := driveDue false (fun s => headDue s 5) (2 ^ 20) (settle s)

theorem wit_PlansAndPointers_issue : (∀ s ∈ [ringAt [0x20000000, 0, 0, 9] [], ringAt [0, 10, 0, 9] [], ringAt [100, 0, 0x40, 9] [],
      ringAt [100, 7, 0x40, 9] [], { ringAt [100, 6, 0x40, 9] [] with variant := .s }],
      tsqRuns s 5 = true ∧ ((acts s).any fun s0 => decide (s0.now < s0.turn.guardAt)) = true) ∧
    ((acts (ringAt [0x20000000, 0, 0, 9] [])).any fun s => (headEntry s 5).isEnd) = true ∧
    ((acts (ringAt [0, 10, 0, 9] [])).any fun s => !(headEntry s 5).isEnd && badEntry s (headEntry s 5)) = true ∧
    ((acts (ringAt [100, 0, 0x40, 9] [])).any fun s => !(headEntry s 5).isEnd && !badEntry s (headEntry s 5) && unitState s 5 0 == 0 &&
      s.now == 100) = true ∧
    ((acts (ringAt [100, 7, 0x40, 9] [])).any fun s => !badEntry s (headEntry s 5) && unitState s 5 7 == 0 && kilnGrants s 0 100 5) = true ∧
    ((acts { ringAt [100, 6, 0x40, 9] [] with variant := .s }).any fun s => !badEntry s (headEntry s 5) && unitState s 5 6 != 0) = true := by
  decide +kernel

/-- An entry that is due at once, and one that is due after the clock. -/
theorem wit_PlansAndPointers_due : (let s := settle (ringAt [0, 0, 0x40, 9] [])
      headDue s 5 = some 0 ∧ 0 ≤ s.turn.guardAt ∧ 0 ≤ s.now) ∧
    (let s := settle (ringAt [100, 0, 0x40, 9] [])
     let s1 := settleTo s 100
     headDue s 5 = some 100 ∧ 100 ≤ s.turn.guardAt ∧ s.now < 100 ∧ headDue s1 5 = some 100 ∧ 100 ≤ s1.turn.guardAt ∧ 100 ≤ s1.now) ∧
    acceptFrom (ringAt [100, 0, 0x40, 9] []) 5 0 0x40 = some 0 := by decide +kernel

/-- A pointer that takes an entry away and one that adds one; with SKIP an END to go up to and none. -/
theorem wit_PlansAndPointers_pointer : let s := ringAt [0x20000000, 0, 0, 9] []
    let k := ringAt [0x20000000, 0, 0, 9] [(Fd.tsqPlanSkip 5, 1)]
    tileUp s 5 = true ∧ tileUp State.reset 5 = false ∧ ringCount s 5 = 1 ∧
    ¬ ringCount s 5 ≤ (bits 0 26 16 + 2048 - rd s (Fd.tsqPlanRd 5)) % 2048 ∧
    ringCount s 5 ≤ (bits 0x20000 26 16 + 2048 - rd s (Fd.tsqPlanRd 5)) % 2048 ∧ rdb s (Fd.tsqPlanSkip 5) = false ∧
    rdb k (Fd.tsqPlanSkip 5) = true ∧ ringKept k = false ∧ ringKept (wr k Fd.modulePwrState 1) = true ∧ ((loaded (wr k (Fd.tsqPlanWr 5) 2) 5).find? (fun p => p.2.isEnd)).map Prod.fst = some 0 ∧
    ∀ p ∈ loaded (wr (ringAt [100, 0, 0x40, 9] [(Fd.tsqPlanSkip 5, 1)]) (Fd.tsqPlanWr 5) 2) 5, p.2.isEnd = false := by decide +kernel

/-- A switch to program 7 whose end has come. -/
def switched : State := { upT { tileInit with switching := some 7 } with now := 3072 }

/-- A switch to program 7 whose end has come, in service and on the first turn after a reset. -/
theorem wit_ContextSwitch : (tile switched 5).switching = some 7 ∧ switched.boot.firstTurn.contains 5 = false ∧ [5].contains 5 = true := by
  decide +kernel

/-- A stream without shares is complete at once. -/
theorem streamTimes_none (s : State) (e side : Nat) (d : Side) (n : Nat) : ∀ x ∈ streamTimes s e [] side d n, x = (0, 0) := by
  unfold streamTimes
  suffices h : ∀ (cs : List (Nat × Nat × Nat × Nat)) (l : List (Nat × Nat)), (∀ x ∈ l, x = (0, 0)) →
      ∀ x ∈ cs.foldl (fun (l : List (Nat × Nat)) c =>
        let t := match ([] : List Share).find? fun sh => sh.stack == c.2.1 && sh.pc == c.2.2.1 with
          | some sh => chunkTime s e sh c.2.2.2
          | none => (0, 0)
        if c.1 < l.length then l.modify c.1 fun x => (max x.1 t.1, max x.2 t.2) else l ++ [t]) l, x = (0, 0) from
    h _ [] (by simp)
  intro cs
  induction cs with
  | nil => intro l hl; simpa using hl
  | cons c cs ih =>
    intro l hl
    refine ih _ ?_
    intro x hx
    dsimp only [List.find?_nil] at hx
    split at hx
    · obtain ⟨i, hi, rfl⟩ := List.getElem_of_mem hx
      rw [List.getElem_modify]
      have h0 := hl _ (List.getElem_mem (l := l) (n := i) (by simpa using hi))
      split <;> simp [h0]
    · simp at hx
      rcases hx with hx | rfl
      · exact hl _ hx
      · rfl

/-- The last cycle of such a stream is 0. -/
theorem foldl_max_zero (l : List (Nat × Nat)) (h : ∀ x ∈ l, x = (0, 0)) : l.foldl (fun m x => max m x.1) 0 = 0 := by
  induction l with
  | nil => rfl
  | cons a l ih => simp [h a (by simp), ih fun x hx => h x (by simp [hx])]

/-- A switch without streams ends with its fixed part. -/
theorem ctxSwitchEnd_noStreams (s : State) (t prog : Nat) (h : (tile s t).switchShares = []) (hl : (tile s t).switchLag = 0) :
    ctxSwitchEnd s t prog = s.turn.start + 3072 := by
  unfold ctxSwitchEnd
  rw [h, hl]
  have := foldl_max_zero _ (streamTimes_none s (2 * t) 1 ⟨ctxAt s prog t, 65536, 0, 0, 1⟩ 65536)
  dsimp only at this ⊢
  omega

/-- An operation whose cycle has come is met at once. -/
theorem driveDue_here (due : State → Option Nat) (n d : Nat) (s : State) (h : due s = some d) (hd : d ≤ s.now) (hg : d ≤ s.turn.guardAt) :
    driveDue false due (n + 1) s = some s := by
  simp only [driveDue, h]
  rw [if_neg (by simp; omega), if_pos hd]

theorem switched_end : ctxSwitchEnd switched 5 7 = 3072 := by
  rw [ctxSwitchEnd_noStreams switched 5 7 (by decide +kernel) (by decide +kernel)]; rfl

/-- Its cycle, and that its command meets it. -/
theorem wit_ContextSwitch_cycle : ctxSwitchEnd switched 5 7 ≤ switched.now ∧ ctxSwitchEnd switched 5 7 ≤ switched.turn.guardAt ∧
    driveDue false (fun s => (tile s 5).switching.map (ctxSwitchEnd s 5)) (2 ^ 20) switched = some switched := by
  have h : (tile switched 5).switching.map (ctxSwitchEnd switched 5) = some 3072 := by
    rw [show (tile switched 5).switching = some 7 by decide +kernel]; exact congrArg some switched_end
  refine ⟨by rw [switched_end]; decide +kernel, by rw [switched_end]; decide +kernel, ?_⟩
  obtain ⟨n, hn⟩ : ∃ n, (2 : Nat) ^ 20 = n + 1 := ⟨1048575, by decide⟩
  rw [hn]
  exact driveDue_here _ n _ _ h (by decide +kernel) (by decide +kernel)
/-! Bring-up, resets, fences, power. -/

/-- up with bring-up, fence, reset and power state changed. -/
def upB (f : Boot → Boot) : State := { up with boot := f up.boot }

/-- Bring-up stands at stage k, with the stages before it ended and the fields given. -/
def stageAt (k : Nat) (l : List (Fld × Nat)) : State :=
  wrs { up with boot := { up.boot with stagesDone := List.range k } } ((Fd.moduleStateStage, k) :: (Fd.moduleStateReady, 0) :: l)

theorem wit_ResetsLeave : up.boot.powered = true ∧ 1 ∈ up.boot.stagesDone ∧ up.boot.perst = false ∧ up.boot.p3 = false ∧
    rdb up Fd.moduleStateNoservice = false ∧ hubUp up = true ∧ up.sec.phase = 0 ∧
    (upB fun b => { b with perst := true, p3 := true }).boot.p3 = true ∧ (upB fun b => { b with perst := true }).boot.perst = true ∧
    hubUp (upB fun b => { b with stagesDone := [0, 1, 2, 3] }) = false ∧
    up.boot.verified = true ∧ (upB fun b => { b with verified := false }).boot.verified = false ∧ bringUp up = false ∧
    (let s := { stageAt 5 [] with boot := { (stageAt 5 []).boot with cRun := true } }
     bringUp s = true ∧ s.boot.p3 = false ∧ s.boot.cRun = true) ∧
    rdb (upR [(Fd.moduleStateNoservice, 1)]) Fd.moduleStateNoservice = true := by decide +kernel

theorem wit_BringUpStages : (∀ k ∈ List.range 11, inStage (stageAt k []) k = true) ∧ serviceWith up [] = true ∧
    (let s := stageAt 7 []
     s.boot.linkUp = true ∧ rdb s Fd.moduleBootCtlSolo = false ∧ rdb s Fd.moduleBootCtlFabricGo = false) ∧
    inStage (stageAt 7 [(Fd.moduleBootCtlSolo, 1)]) 7 = true ∧ rdb (stageAt 7 [(Fd.moduleBootCtlSolo, 1)]) Fd.moduleBootCtlSolo = true ∧
    rdb (stageAt 7 [(Fd.moduleBootCtlFabricGo, 1)]) Fd.moduleBootCtlFabricGo = true ∧
    rdb (stageAt 7 [(Fd.moduleBootCtlFabricGo, 1)]) Fd.moduleBootCtlSolo = false ∧
    (let s := stageAt 8 ((List.range 12).map fun p => (Fd.portStateState p, 2))
     inStage s 8 = true ∧ (∀ p, p < 12 → availPort s p = true → 2 ≤ rd s (Fd.portStateState p)) ∧ rdb s Fd.frtDomainOrigin = false) ∧
    coordValid (stageAt 9 [(Fd.frtCoordValid, 1)]) = true ∧ inStage (stageAt 9 [(Fd.frtCoordValid, 1)]) 9 = true ∧
    (let s := stageAt 10 [(Fd.trnStateLock, 2)]
     inStage s 10 = true ∧ rd s Fd.trnStateLock = 2) ∧
    (let s := stageAt 8 ((Fd.frtDomainOrigin, 1) :: (List.range 12).map fun p => (Fd.portStateState p, 2))
     inStage s 8 = true ∧ rdb s Fd.frtDomainOrigin = true ∧ coordValid s = false) ∧
    0 ≤ fabLimit (stageAt 8 []) ∧ fabLimit (stageAt 10 []) < 2 ^ 32 ∧ (∀ s ∈ [stageAt 8 [], stageAt 9 [(Fd.frtCoordValid, 1)]], fabLimit s < 2 ^ 32) ∧
    isOrigin { stageAt 10 [(Fd.frtCoordValid, 1)] with fma := { fmaInit with origin := true } } = true := by decide +kernel

/-- A module with another set to boot, whose banks are all good and at the floors. -/
def otherSet : State :=
  let s := stageAt 2 []
  { s with sec := { s.sec with prior := some [], slotB := components.map fun c => (c, { bankInit with valid := true }) } }

theorem wit_BringUpStages_fail : (∀ s ∈ [stageAt 1 [], otherSet], s.mmc.rom = none) ∧ inStage (stageAt 1 []) 1 = true ∧
    (bankB otherSet 1).valid = true ∧ (bankB (stageAt 1 []) 1).valid = false ∧ serviceWith up [] = true ∧
    serviceWith (upB fun b => { b with fences := (List.range 64).map fun t => ⟨tilePage t 0, 1⟩ }) [] = false ∧ railOn State.reset 5 = false ∧
    inStage (stageAt 2 []) 2 = true ∧ otherSetOk (stageAt 2 []) = false ∧ inStage otherSet 2 = true ∧
    otherSetOk otherSet = true ∧ inStage (stageAt 3 []) 3 = true ∧ inStage (stageAt 4 []) 4 = true ∧
    (∃ b ∈ [Block.col, .qmu], b ∈ [Block.hif, .fma, .trn, .qmu]) ∧ inStage (stageAt 5 []) 5 = true ∧ capStack up.variant 15 = true ∧
    inStage (stageAt 6 []) 6 = true ∧ stage6Block up (.tsq 63) = true ∧ stage6Block up (.die 3) = true ∧
    (3 < 4 ∧ capDie up.variant 3 = true ∧ capDie up.variant ((3 + 1) % 4) = true) ∧ railOn up 5 = true := by decide +kernel

theorem wit_ReadyPaths : hubUp State.reset = false ∧ hubUp up = true ∧
    rdb (upR [(Fd.moduleBootCtlFabricGo, 1)]) Fd.moduleBootCtlFabricGo = true ∧ rdb up Fd.moduleBootCtlFabricGo = false ∧
    rd up Fd.moduleStateStage ≠ 7 ∧ stageEnded (stageAt 7 []) 7 = false ∧
    (let s := stageAt 8 [(Fd.moduleStateStage, 7)]
     hubUp s = true ∧ stageEnded s 7 = true ∧ rd s Fd.moduleStateStage = 7 ∧ rdb s Fd.moduleBootCtlSolo = false) ∧
    rdb (stageAt 8 [(Fd.moduleStateStage, 7), (Fd.moduleBootCtlSolo, 1)]) Fd.moduleBootCtlSolo = true ∧
    inStage (stageAt 9 []) 9 = true ∧ fabLimit (stageAt 9 []) ≤ 2 ^ 32 ∧ 0 < fabLimit (stageAt 9 [(Fd.moduleBootCtlFabTo, 1)]) := by decide +kernel

/-- up with one page fenced, and with one in its test. -/
def fencedAt (b : Block) : State := upB fun x => { x with fences := [⟨blockPage b, 1⟩] }

theorem wit_Fences : fenceScope .qmu = none ∧ fenceScope (.mxa 63) = some (tilePage 63 0) ∧ fenceScope (.mem 15) = some (blockPage (.mem 15)) ∧
    blockUp State.reset (.tsq 63) = false ∧ blockUp up (.tsq 63) = true ∧ fencedPage up (tilePage 63 0) = false ∧
    serviceWith up [tilePage 63 0] = true ∧
    -- with every other tile fenced or about to be, the last one is not given up
    serviceWith (upB fun b => { b with fenceReq := (List.range 63).map fun t => tilePage t 0 })
      (tilePage 63 0 :: (List.range 63).map fun t => tilePage t 0) = false ∧
    (∀ b ∈ [Block.tsq 63, .cpt 63, .kln 3, .nwu 3, .frt, .col, .frit, .mem 15, .port 11],
      fenceScope b = some (blockPage b) ∧ blockUp (fencedAt b) b = true ∧ fencedPage (fencedAt b) (blockPage b) = true ∧
        onFencedDie (fencedAt b) b = false) ∧
    onFencedDie (upB fun b => { b with fences := [⟨blockPage (.tsq 63), 2⟩], dies := [3] }) (.tsq 63) = true ∧
    inP2 (upR [(Fd.modulePwrState, 2)]) = true ∧ inP2 up = false ∧ up.boot.kRun = none ∧ bringUp up = false ∧ bringUp (stageAt 5 []) = true ∧
    asksReset (.tsq 63) = true ∧ asksReset (.nwu 3) = false ∧ (portX (fencedAt (.port 11)) 11).wait = [] ∧
    (upB fun b => { b with kRun := some 9 }).boot.kRun ≠ none ∧
    (upB fun b => { b with testing := [blockPage (.cpt 63)] }).boot.testing = [blockPage (.cpt 63)] := by decide +kernel

theorem wit_PartFaultsAndSamples : capDie up.variant 3 = true ∧ railOn up 6 = true ∧ capStack up.variant 15 = true ∧ railOn up 3 = true ∧
    capDie up.variant ((3 + 1) % 4) = true ∧ rd up Fd.moduleStateReroute < 16 ∧ up.boot.powered = true ∧ 1 ∈ up.boot.stagesDone ∧
    railOn State.reset 3 = false ∧ railOn State.reset 6 = false ∧ capDie up.variant 0 = true ∧ State.reset.boot.stagesDone = [] ∧
    ([95, 92] : List Nat)[1]? = some 92 ∧ capPort up.variant 11 = true ∧ 2 ≤ rd (linked []) (Fd.portStateState 11) := by decide +kernel

theorem wit_ResetsAndPower : bringUp up = false ∧ bringUp (stageAt 5 []) = true ∧ up.boot.kRun = none ∧ (portX up 11).wait = [] ∧
    stage6Block up (.tsq 63) = true ∧ hubUp State.reset = false ∧ hubUp up = true ∧ inP2 up = false ∧ inP2 (upR [(Fd.modulePwrState, 2)]) = true ∧
    hubUp (upR [(Fd.modulePwrState, 2)]) = true ∧ (upB fun b => { b with kRun := some 9 }).boot.kRun = some 9 ∧
    blockUp up (.tsq 63) = true ∧ blockUp State.reset (.tsq 63) = false ∧
    (upB fun b => { b with tRun := [(63, 9)] }).boot.tRun.find? (fun p => p.1 == 63) = some (63, 9) ∧ blockUp up (.port 11) = true ∧
    blockUp State.reset (.port 11) = false ∧
    (bits (2 ^ 58) 47 0 = rd up Fd.modulePwrTurn ∧ bits 1 47 0 ≠ rd up Fd.modulePwrTurn ∧ bits 1 47 0 < turnNo up + 2 ∧
      turnNo up + 2 ≤ bits (2 ^ 58 + 2) 47 0) ∧
    (upB fun b => { b with moving := some 2 }).boot.moving = some 2 ∧ (upB fun b => { b with moving := some 3 }).boot.moving = some 3 ∧
    (let s := { upR [(Fd.modulePwrState, 2)] with boot := { up.boot with moving := some 1 } }
     s.boot.moving = some 1 ∧ rd s Fd.modulePwrState = 2) := by decide +kernel

theorem wit_RegisterWrites : ¬ ((3 = 1 ∨ 3 = 2 ∨ 3 = 4 ∨ 3 = 8) ∧ 0 % 3 = 0) ∧ 4 % 8 ≠ 0 ∧
    pageBlock (0x4000 - 0x4000 % 0x1000) = none ∧ pageBlock (0x30000 - 0x30000 % 0x1000) = some .qmu ∧ blockUp State.reset .qmu = false ∧
    (∀ b ∈ [Block.module, .dbg, .sec, .mrv 63, .pce 63 1], pageBlock (blockPage b) = some b ∧ blockUp up b = true) ∧
    (hostUp up = true ∧ rd up Fd.hifLinkIde ≠ 3 ∧ up.hif.cfg.decode = true) ∧ rd (upR [(Fd.hifLinkIde, 3)]) Fd.hifLinkIde = 3 ∧
    ({ up with hif := hifInit } : State).hif.cfg.decode = false ∧
    hubUp up = true ∧ follower up = false ∧ 2 * rd up Fd.trnGuardCc ≤ bits 16 19 0 * 1024 ∧ hasEnable (.mxa 63) = true ∧
    pageBlock (blockPage (.mxa 63)) = some (.mxa 63) ∧ hasEnable .qmu = false ∧ bringUp up = false ∧ inP2 up = false := by decide +kernel

/-- TRN_CQ, a register of one field that is read and written. -/
theorem wit_RegisterWrites_field : (match hits (RegRows.every ++ blockRows .trn) 0x74 4 with
      | [(r, i)] => 0x1074 == blockPage .trn + r.off + r.stride * i && 8 * 4 == r.width && r.off != 8 && r.off != 0x18 &&
          (writeSpecial up .trn r.off i (regW up r 0x1074 0x1074 4 5)).isNone
      | _ => false) = true ∧ pageBlock (0x1074 - 0x1074 % 0x1000) = some .trn ∧ blockUp up .trn = true ∧ 0x1074 % 4 = 0 ∧
    bit 1 0 = true ∧ bit 2 0 = false := by decide +kernel

theorem wit_RegisterWrites_enable : Quiet up :=
  ⟨by decide, by decide, by decide, by decide, by decide, by decide, by decide, by decide⟩

theorem wit_StateReadsBack : (Fd.trnGuardCc).key ≠ (Fd.trnLenUnits).key ∧ Fd.qmuLostCount.wid = 32 ∧ (Fd.grnRetiredCount 63).wid = 64 ∧
    (255 : Nat) < 256 ^ 1 ∧ memWf up.mem = true ∧ (List.replicate (16 / tySize 0 * 8) 5).length = 16 / tySize 0 * 8 ∧
    fencedPage (fencedAt (.kln 3)) (blockPage (.kln 3)) = true := by decide +kernel
/-! The matrix array, the code-product tables and the function tables. -/

/-- Tile 5 with one descriptor of this unit issued, its 32-bit words as given (word 0 first). -/
def descAt (unit : Nat) (ws : List Nat) : State :=
  { upT { tileInit with issued := [⟨unit, 0x40, 3, 500⟩] } with mem := memWrite [] (tileBase 5 + 0x40) (ws.flatMap (leBytes 4)) }

/-- FP8 sweeps of 4 x 4 bricks: with READOUT into the last bricks of Marver, and one that continues without. -/
def sweepWords : List Nat := [0x10008000, 0x44000, 1, 0, 0, 0, 0, 0, 0x400, 0, 0, 0, 0, 0x7F0000, 0, 0]
def chainWords : List Nat := [0x10020000, 0x44000, 1, 0, 0, 0, 0, 0, 0x400, 0, 0, 0, 0, 0, 0, 0]
/-- A C4 lookup of one group for eight columns, with READOUT, and its continuation. -/
def lookWords : List Nat := [0x1C500000, 0x10001, 0, 0, 0, 0x2000, 0x2100, 0x2400, 0, 0x7FC000]
def lookMore : List Nat := [0x1D100000, 0x10001, 0, 0, 0, 0x2000, 0x2100, 0x2400, 0, 0]
/-- Table 9 over two FP32 bricks, with a multiplier. -/
def applyWords : List Nat := [0x19700002, 0, 0x2000, 0x7FE000]

theorem wit_UnitsAccept : (∀ u ∈ [0, 2, 6], (tile (settle (descAt u [])) 5).issued.find? (fun i => i.unit == u) = some ⟨u, 0x40, 3, 500⟩) ∧
    (let d (ws : List Nat) := sweepD (readBytes (descAt 0 ws) (tileBase 5 + 0x40) 64)
     (d sweepWords).check none = none ∧ (d sweepWords).check (some ⟨0, 4, 4⟩) = none ∧ (d sweepWords).start ≠ 2 ∧
     (d chainWords).check (some ⟨0, 4, 4⟩) = none ∧ (d chainWords).check none = some St.badDesc ∧
     (d (sweepWords.set 13 0x7F0400)).check none = some St.badAddr ∧ (d (sweepWords.set 2 0)).check none = some St.doneEmpty) ∧
    (let d (ws : List Nat) := lookD (readBytes (descAt 6 ws) (tileBase 5 + 0x40) 64)
     (d lookWords).check none = none ∧ (d lookMore).check (some ⟨0, 8, 4⟩) = none ∧ (d lookMore).check none = some St.badDesc ∧
     (d (lookWords.set 9 0x7FC400)).check none = some St.badAddr) ∧
    (let d (ws : List Nat) := applyD (readBytes (descAt 2 ws) (tileBase 5 + 0x40) 32)
     (d applyWords).check = none ∧ (d (applyWords.set 3 0x7FE400)).check = some St.badAddr ∧
     (d (applyWords.set 0 0x1A700002)).check = some St.badDesc) ∧ (tile (settle (descAt 0 [])) 5).sweeps = [] ∧
    (tile (settle (descAt 0 [])) 5).lookups = [] ∧ isReject St.badDesc = true ∧ isReject St.doneEmpty = false := by decide +kernel

/-- Tile 5 with one sweep, one lookup and one application running, accepted without and with lost Marver cycles. -/
def sweepRun (l : List Nat) : Sweep :=
  Sweep.plan { newSweep tileInit (sweepWords.flatMap (leBytes 4)) 3 500 0 0 0x40 with lost := l } 0 0
def lookRun (l : List Nat) : Lookup :=
  Lookup.plan { desc := lookWords.flatMap (leBytes 4), place := 0x40, tag := 3, acc := 500, first := 0, last := 0, num := 0, lost := l, after := 0,
                ends := [], due := 0, file := 0, held0 := none, written := 0, looked := 0, snap := [] } 0
def applyRun (l : List Nat) : Apply :=
  { desc := applyWords.flatMap (leBytes 4), place := 0x40, tag := 3, acc := 500, num := 0, lost := l, written := 0, flags := 0, nonfin := 0,
    snap := [] }
def unitsRun (l : List Nat) : State := upT { tileInit with sweeps := [sweepRun l], lookups := [lookRun l], applies := [applyRun l] }
/-- The same at clock cycle c. -/
def unitsAt (l : List Nat) (c : Nat) : State := { unitsRun l with now := c }

/-- An output brick of the sweep that is due first. -/
theorem wit_TileUnitsComplete_brick (s : State) (t : Nat) (w : Sweep) (h : w.desc = (sweepRun []).desc) :
    ∃ b, (sweepOuts (sweepD w.desc) w.num (accsOf s t w).accs)[0]? = some b := by
  have h0 : (sweepD (sweepRun []).desc).positions[0]? = some (0, 0) := by decide +kernel
  exact ⟨_, by rw [sweepOuts, List.getElem?_map, h, h0]; rfl⟩

theorem wit_TileUnitsComplete : (∀ l ∈ [[], [509, 510]], let s := unitsRun l
      (tile s 5).sweeps.find? (fun v => v.acc == 500) = some (sweepRun l) ∧ (sweepRun l).written = 0 ∧
      firstDue Sweep.due (tile s 5).sweeps = some (sweepRun l) ∧ (sweepRun l).due ≤ s.turn.guardAt ∧
      (tile s 5).lookups.find? (fun v => v.acc == 500) = some (lookRun l) ∧ (lookD (lookRun l).desc).b ≤ 32 ∧
      firstDue Lookup.due (tile s 5).lookups = some (lookRun l) ∧ (lookRun l).due ≤ s.turn.guardAt ∧
      inMarver (lookD (lookRun l).desc).cOut ((0 + 1) * (1024 * (lookD (lookRun l).desc).outSize)) = true ∧
      (tile s 5).applies.find? (fun v => v.acc == 500) = some (applyRun l) ∧
      firstDue Apply.due (tile s 5).applies = some (applyRun l) ∧ (applyRun l).due ≤ s.turn.guardAt ∧
      inMarver (applyD (applyRun l).desc).yAddr ((0 + 1) * (1024 * (applyD (applyRun l).desc).outSize)) = true) ∧
    (sweepRun []).due < (sweepRun [509, 510]).due ∧ (lookRun []).due < (lookRun [509, 510]).due ∧
    (applyRun []).due < (applyRun [509, 510]).due := by
  decide +kernel

/-- Each of them completes where the clock has come to its cycle. -/
theorem wit_TileUnitsComplete_due :
    ((driveDue false (fun s => dueOf Sweep.due (tile s 5).sweeps) (2 ^ 20) (unitsAt [] (sweepRun []).due)).any fun s =>
      firstDue Sweep.due (tile s 5).sweeps == some (sweepRun [])) = true ∧
    ((driveDue false (fun s => dueOf Lookup.due (tile s 5).lookups) (2 ^ 20) (unitsAt [] (lookRun []).due)).any fun s =>
      firstDue Lookup.due (tile s 5).lookups == some (lookRun [])) = true ∧
    ((driveDue false (fun s => dueOf Apply.due (tile s 5).applies) (2 ^ 20) (unitsAt [] (applyRun []).due)).any fun s =>
      firstDue Apply.due (tile s 5).applies == some (applyRun [])) = true := by decide +kernel
/-! The numerics watch and the Sieve's tags. -/

theorem wit_WatchAndTagWrites : capDie up.variant 3 = true ∧ up.boot.stagesDone.contains 6 = true ∧
    State.reset.boot.stagesDone.contains 6 = false ∧
    (let bad (n : Nat) : Prop := bits n 20 16 < 4 ∨ 20 < bits n 20 16 ∨ bits n 15 12 = 0 ∨ bits n 11 8 = 0 ∨ bits n 7 4 = 0
     bad 0x3FFF0 ∧ bad 0x15FFF0 ∧ bad 0x40FF0 ∧ ¬ bad 0x4FFF0 ∧ ¬ bad 0x141110) ∧
    tileUp up 63 = true ∧ tileUp State.reset 63 = false ∧ rd (upR [(Fd.sieveTselTag 63, 1023)]) (Fd.sieveTselTag 63) < 1024 ∧
    (tile (upT { tileInit with staged := [.cmd 3 1], sieve := 2 }) 5).staged ≠ [] ∧
    (tile (upT { tileInit with staged := [.cmd 3 1], sieve := 2 }) 5).sieve ≠ 0 ∧ (tile up 5).staged = [] ∧ (tile up 5).sieve = 0 ∧
    bits 0x80000000 15 0 = 0 ∧ bits 1 15 0 ≠ 0 ∧ [1].take (20 - 20) = ([] : List Nat) ∧ [1].take (20 - 19) ≠ ([] : List Nat) := by
  decide +kernel
/-! The copy engines. -/

/-- Descriptors within the Marver of tile 5: a COPY, a FILL, an HDUMP and an HLOAD of one block of 128 bytes. -/
def copyWords (op : Nat) : List Nat :=
  let a : List Nat := [0x05000000, 0xC0]
  let b : List Nat := [0x05000400, 0xC0]
  match op with
  | 1 => [0x13000000, 2, 0x10001, 0] ++ a ++ b
  | 2 => [0x21000000, 2, 0x10001, 0, 7, 7] ++ b
  | 3 => [0x31000000, 1023 * 2 ^ 22 + 2, 0x10001, 0, 0, 0] ++ b
  | _ => [0x42000000, 1023 * 2 ^ 22 + 2, 0x10001, 0] ++ a ++ [0, 0]
def copyBytes (op : Nat) : List Byte := ((copyWords op ++ List.replicate 16 0).take 16).flatMap (leBytes 4)

/-- A copy under way on engine 10 (tile 5). -/
def copyRun (op : Nat) : Copy :=
  { id := 4, desc := copyBytes op, place := none, tag := 3, acc := 500, start := some 500, readLag := 0, since := 509, going := true,
    hasSieve := decide (3 ≤ op), sieveAt := 510, sieveWait := 0, ref := 0, cold := false, step := 0, entry := 0, extra := 0, extraLag := 0,
    shares := [], sent := 0, creditWait := none, creditLag := 0, crossR := 0, crossW := 0, linkLag := 0, pass := false, buf := [], came := [],
    heard := 0, lost := [], counted := 0, prog := copyProgInit, retried := false }

/-- A copy that has yet to start or to be checked, its descriptor in memory or its own. -/
def copyHeld (op : Nat) (place : Option Nat) (start : Option Nat) : Copy :=
  { copyRun op with place := place, start := start, going := false, hasSieve := false }

/-- Engine e has these copies. -/
def engAt (e : Nat) (l : List Copy) (s : State) : State := { s with engines := [(e, ⟨l, 0, 5⟩)] }

/-- A queue item for hub engine 3: queue 9 holds the descriptor in one cell. -/
def hubItem (desc : List Byte) (n : Nat) : State :=
  let s := upR [(Fd.qmuQcfgEn 9, 1), (Fd.fmaHpceEn 3, 1), (Fd.fmaHpceSq 3, 9)]
  { s with qmu := { qmuInit with queues := [(9, { queueInit with items := [⟨0, [⟨0, desc, 0⟩], n, 0⟩] })], used := [0] } }

theorem wit_CopyAccepted_tile : (∀ op ∈ [1, 2, 3, 4], let s := settle (descAt 3 (copyWords op))
      (tile s 5).issued.find? (fun i => i.unit == 3 + 10 % 2) = some ⟨3, 0x40, 3, 500⟩ ∧
      (copyD (readBytes s (tileBase 5 + 0x40) 64)).op = op) ∧
    (let s := settle (descAt 4 ((copyWords 1).set 0 0x53000000))
     (tile s 5).issued.find? (fun i => i.unit == 3 + 11 % 2) = some ⟨4, 0x40, 3, 500⟩ ∧ (copyD (readBytes s (tileBase 5 + 0x40) 64)).op = 5) := by
  decide +kernel

theorem wit_CopyAccepted_hub : let s := hubItem (copyBytes 1) 1
    let r := engineDeq s prodFma (rd s (Fd.fmaHpceSq 3))
    rdb s (Fd.fmaHpceEn (131 - 128)) = true ∧ hubHeld s (131 - 128) < 2 ∧ bit r.2.2 63 = true ∧ bit r.2.2 61 = true ∧
    hubHeld (engAt 131 [copyRun 1] s) 3 < 2 := by decide +kernel

/-- A copy at its checks, in the cycle that they end, with its descriptor in Marver. -/
def atChecks (op : Nat) (ws : List Nat) (l : List Nat) : State :=
  engAt 10 [{ copyHeld op (some (tileBase 5 + 0x40)) (some 500) with lost := l }] { descAt 3 ws with now := moved l 509 }

theorem wit_CopyAccepted_checks : (∀ l ∈ [[], [501, 503]], let s := atChecks 1 (copyWords 1) l
      let c := { copyHeld 1 (some (tileBase 5 + 0x40)) (some 500) with lost := l }
      (engine s 10).copies.find? (fun x => x.id == c.id) = some c ∧ c.going = false ∧ s.now = moved c.lost (c.start.getD 0 + 9) ∧
      (copyD (readBytes s (tileBase 5 + 0x40) 64)).check s 10 = none) ∧
    (let s := atChecks 1 ((copyWords 1).set 0 0x53000000) []
     (copyD (readBytes s (tileBase 5 + 0x40) 64)).check s 10 = some St.badDesc) ∧
    (let s := atChecks 3 ((copyWords 3).set 1 (1023 * 2 ^ 22 + 4)) []
     let d := copyD (readBytes s (tileBase 5 + 0x40) 64)
     d.check s 10 = some St.badDesc ∧ d.histBad = true) := by decide +kernel

/-- Engine 10 has a copy that its release point lets go, or one behind another that is about to reach it. -/
theorem wit_CopyAccepted_start :
    (let s := engAt 10 [copyHeld 1 none none] { up with now := 600 }
     driveDue (engHub 10) (fun s => (startOf s 10).map Prod.snd) (2 ^ 20) s = some s ∧ startOf s 10 = some (copyHeld 1 none none, 500)) ∧
    (let c := { copyHeld 1 none none with id := 5 }
     let s := engAt 10 [copyRun 1, c] { up with now := 600 }
     driveDue (engHub 10) (fun s => (startOf s 10).map Prod.snd) (2 ^ 20) s = some s ∧ (startOf s 10).map Prod.fst = some c) := by
  decide +kernel

/-- A converting COPY of one brick from FP32 to E4M3 within the Marver of tile 5, to the destination with these words. -/
def convRun (dst : List Nat) : Copy :=
  { copyRun 1 with desc := ([0x17200000, 64, 0x10001, 0, 0x05000000, 0xC0] ++ dst ++ [0, 0, 0, 0, 0, 0, 0x05004000, 0xC0]).flatMap (leBytes 4) }
/-- The tag entry of that pair, with this many history entries. -/
def convTag (hcount : Nat) : BitVec 1024 := BitVec.ofNat 1024 (2 ^ 60 + 3 * 2 ^ 56 + 2 ^ 46 + hcount * 2 ^ 216)
/-- The copy is about to take the Sieve, its tag having this entry. -/
def sieveReady (c : Copy) (entry : BitVec 1024) : State :=
  { engAt 10 [{ c with hasSieve := false }] { up with now := 510 } with tags := [(5120 + c.d.stag, entry)] }

/-- That state meets what CopyTakesSieve asks of every clause. -/
def takesSieve (c : Copy) (entry : BitVec 1024) : Bool :=
  let s := sieveReady c entry
  let s1 := settleTo s (tile s 5).sieveFrom
  ((engine s 10).copies.find? fun c => !c.going && c.start.isSome) == none && (tile s 5).sieve == 0 &&
  (engine s1 10).copies.find? (fun c => c.going && c.d.needsSieve && !c.hasSieve) == some { c with hasSieve := false } &&
  tagOf s1 5 c.d.stag == entry

theorem wit_CopyRunsAndCompletes_history : ∀ op ∈ [3, 4], takesSieve (copyRun op) 0 = true ∧ (copyRun op).d.conv ≠ 1 := by decide +kernel

theorem wit_CopyRunsAndCompletes_converting : (∀ n ∈ [0, 1, 33], takesSieve (convRun [0x05002000, 0xC0]) (convTag n) = true) ∧
    (convRun [0x05002000, 0xC0]).d.conv = 1 ∧ (tagE (convTag 33)).bad = true ∧
    (∀ n ∈ [0, 1], let c := convRun [0x05002000, 0xC0]
      let g := tagE (convTag n)
      g.bad = false ∧ c.d.scl = false ∧ c.d.se = 0 ∧ c.d.brick = g.brick ∧ c.d.blen * 64 % g.srcBytes = 0 ∧
      convStatus up { c with entry := convTag n } = none ∧ (pairOf g.sf g.df).scaled = true ∧ (g.hcount == 0 || g.srcsel) = decide (n = 0)) ∧
    ({ convRun [0x05002000, 0xC0] with entry := convTag 1 } : Copy).tagRef up 10 ≠ none ∧
    takesSieve (convRun [0x057FFC00, 0xD0]) (convTag 0) = true ∧
    convStatus up { convRun [0x057FFC00, 0xD0] with entry := convTag 0 } = some St.badAddr := by decide +kernel

/-- A share behind an earlier request of engine 9. -/
theorem wit_CopyRunsAndCompletes_share : let sh : Share := { side := 1, stack := 15, pc := 31, chunks := 2, base := 500, arrive := 510, started := false }
    let s := { engAt 10 [{ copyRun 1 with shares := [sh] }] up with pcq := [(511, [⟨500, 9, 0, 490, 20⟩, ⟨510, 10, 1, 500, 2⟩])] }
    ((engine s 10).copies.findSome? fun c => c.shares.find? fun b => !b.started && b.stack == 15 && b.pc == 31 && shareMoved s 10 b != 0) = some sh ∧
    ((engine (settleTo s (shareOrigin s 10 sh)) 10).copies.find? (fun c => c.shares.contains sh)).isSome = true := by decide +kernel

/-- The state and the copy at the record of the front copy of engine 10. -/
def drivenBy (c : Copy) (p : State → Copy → Bool) : Bool :=
  (driveCopy 10 (2 * dueCount) (settle (engAt 10 [c] up))).any fun r => p r.1 r.2

theorem wit_CopyRunsAndCompletes : (∀ op ∈ [1, 2, 3, 4], drivenBy (copyRun op) (fun s c =>
      c.prog.err == none && (c.due s 10).isSome && decide (s.now ≤ up.turn.guardAt)) = true) ∧
    drivenBy { copyRun 1 with lost := [510, 511] } (fun s c => (c.due s 10).isSome) = true ∧
    drivenBy { copyRun 1 with prog := { copyProgInit with err := some St.badAddr, errAt := 530 } } (fun _ c => c.prog.err == some St.badAddr) =
      true ∧ (copyRun 1).hasSieve = false ∧ (copyRun 3).hasSieve = true := by decide +kernel

theorem wit_CopyMovesBytes : ∀ c ∈ [copyRun 1, copyRun 2, copyRun 3, copyRun 4, { convRun [0x05002000, 0xC0] with hasSieve := true }],
    let s := engAt 10 [c] { up with tags := [(5120, convTag 1)] }
    (engine s 10).copies = [c] ∧ (∀ p ∈ s.engines, p.1 = 10 ∨ p.2.copies = []) ∧ c.going = true ∧ c.prog = copyProgInit ∧ c.pass = false ∧
    c.creditWait = none ∧ c.dstRemote s = false ∧ (tile s (engTile 10)).staged = [] ∧ c.d.check s 10 = none := by decide +kernel
/-! The kilns. -/

/-- A job of one instance with eight output bytes; its budget. -/
def jobWords (budget : Nat) : List Nat := [0x10100000, 5, budget, 7, 0, 0, 0, 0, 8, 0x2000, 0, 0x3000, 0, 0]
def jobBytes (budget : Nat) : List Byte := ((jobWords budget ++ List.replicate 16 0).take 16).flatMap (leBytes 4)
def job : KJob := { desc := jobBytes 1000, tag := 7, acc := 500, dt := 0, slot := none, step := 0 }

/-- The header of an image of eight words at 4096, a warm vector of n values at 0x100 and its classes at 1024. -/
def header (n : Nat) : List Byte :=
  leBytes 8 1 ++ [0, 8, 0, n, 0x100, 1024, 0, 0, 4096].flatMap (leBytes 4) ++ List.replicate 20 0

/-- Kiln 3 with these jobs and this run, its image in place with these words. -/
def kilnWith (jobs : List KJob) (run : Option KRun) (n : Nat) (words : List (List Nat)) : State :=
  { up with now := 529, settled := 529, kilns := [(3, ⟨jobs, run, 0, 0, 0, []⟩)],
            mem := memWrite (memWrite [] (kilnBase 3 + valueEnd) (header n)) (kilnBase 3 + valueEnd + 4096)
              (words.flatMap fun w => ((w ++ List.replicate 8 0).take 8).flatMap (leBytes 4)) }

/-- A run at word 0 of that image. -/
def run0 : KRun :=
  { slot := 505, t0 := 505, hdr := header 0, classes := List.replicate 256 (0, 0), cl := 2, inst := 0, word := 0, cyc := 529, begun := true,
    miss := 1504, scal := [], fracs := [], loop := none, cur := kinstInit, done := [], waitIn := 0, waitPort := 0, imp := none, commit := none, doomed := 0 }

/-- The word of an operation on one element, to instance-relative index d. -/
def kw (op sub n a d imm : Nat) : List Nat := [op * 2 ^ 26 + sub * 2 ^ 22 + 2 ^ 18, 0, n, a, 0, 0, d, imm]

/-- What KilnAt asks, for the word w of a kiln whose image holds it, in its cycle. -/
def atWord (op : Nat) (w : List Nat) : Bool :=
  let s := kilnWith [job] (some run0) 0 [w]
  let s1 := settleTo s 529
  let k := wordAt s1 3 (jobD job.desc) run0 0
  (kiln s 3).jobs.head? == some job && (kiln s 3).run == some run0 && (kiln s1 3).jobs.head? == some job && (kiln s1 3).run == some run0 &&
    decide (0 < hdrWords run0.hdr) && k.op == op && k.subs != 0 && !k.bad

/-- What KilnAlone asks of the kiln of these tests, as one test. -/
def restsBut (s : State) : Bool :=
  (s.tiles.all fun p => p.2.sweeps == [] && p.2.lookups == [] && p.2.applies == [] && p.2.dispatches == [] && p.2.opc == []) &&
  (s.engines.all fun p => p.2.copies == []) && (s.lanes.all fun p => p.2.seen == none) && s.col.ops == [] && s.col.streams == [] &&
  (s.fma.ports.all fun p => p.2.wait == []) && s.fma.selfNacks == [] && s.fma.aqWait == none && s.qmu.waiting == [] && s.qmu.plans == [] &&
  s.soon == [] && (s.kilns.all fun p => p.1 == 3 || p.2.run == none) && (kiln s 3).ext == []

theorem kilnAlone_of_rests (s : State) (h : restsBut s = true) : KilnAlone s 3 := by
  simp [restsBut] at h
  obtain ⟨⟨⟨⟨⟨⟨⟨⟨⟨⟨⟨⟨ht, he⟩, hl⟩, ho⟩, hs⟩, hp⟩, hn⟩, ha⟩, hw⟩, hq⟩, hr⟩, hk⟩, hx⟩ := h
  exact ⟨{ tiles := fun p m => by { have := ht p.1 p.2 m; simp [this] }, engines := fun p m => he p.1 p.2 m, lanes := fun p m => hl p.1 p.2 m,
           kilns := fun p m => by { cases (show p ∈ ([] : List (Nat × Kiln)) from m) }, col := ⟨ho, hs⟩,
           fabric := ⟨fun p m => hp p.1 p.2 m, hn, ha⟩, queues := ⟨hw, hq⟩, records := hr },
         fun p m n => (hk p.1 p.2 m).resolve_left n, hx⟩

/-- FACT takes an instance-relative A and no destination. -/
def factWord : List Nat := [0x11 * 2 ^ 26 + 2 ^ 21, 0, 0, 0, 0, 0, 0, 0]

/-- Kiln 3 is alone, with and without a run, at a word of its run, and as a clock that moves on finds it. -/
theorem wit_KilnAlone : restsBut (settleTo (kilnWith [job] (some run0) 0 [factWord]) 529) = true ∧
    restsBut (kilnWith [job] none 0 []) = true ∧ restsBut (kilnWith [job] (some { run0 with commit := some 600 }) 0 []) = true := by
  decide +kernel

theorem wit_KilnAccepts : capKiln up.variant 3 = true ∧ (kiln up 3).jobs.length < 8 ∧ 63 / 16 = 3 ∧
    (jobD (jobBytes 1)).check (1024 * rd up Fd.trnCurUnits) = none ∧
    (jobD (jobBytes 0)).check (1024 * rd up Fd.trnCurUnits) = some St.badDesc ∧
    (let s := upT { tileInit with issued := [⟨7, 0x40, 3, 500⟩] }
     (tile s 5).issued.find? (fun i => i.unit == 7) = some ⟨7, 0x40, 3, 500⟩) ∧
    (∀ f ∈ [[], [⟨kilnPage 3, 1⟩]], let s := { hubItem (jobBytes 1) 1 with boot := { up.boot with fences := f } }
      let s := wrs s [(Fd.klnSqEn 3, 1), (Fd.klnSqQueue 3, 9)]
      let e := engineDeq (settleTo s (kiln s 3).nextAcc) (prodKiln 3) (rd s (Fd.klnSqQueue 3))
      rdb s (Fd.klnSqEn 3) = true ∧ memoryHeld s = false ∧ bit e.2.2 63 = true ∧ bit e.2.2 61 = true ∧ e.1.qmu.waiting = [] ∧
        e.1.qmu.plans = [] ∧ (jobD e.2.1).check (1024 * rd s Fd.trnCurUnits) = none ∧
        kilnGrants s 3 s.now 16 = true ∧ availKiln e.1 3 = f.isEmpty ∧ rdb s (Fd.blkctlEnable (kilnPage 3)) = true) ∧
    up.boot.stagesDone.contains 6 = true ∧ State.reset.boot.stagesDone.contains 6 = false := by decide +kernel

/-- An image that passes, with no warm vector and with one of three values; one that fails; a job whose slot is in a later turn. -/
theorem wit_KilnStarts_job : (∀ n ∈ [0, 3], let s := kilnWith [job] none n [kw 0 0 0 0 0 0]
      let s0 := settleTo s 529
      let d := jobD job.desc
      let h := readBytes s0 (kilnBase 3 + valueEnd + d.sched) 64
      let cl := (List.range 256).map fun c => classEntry (readLE s0 (kilnBase 3 + valueEnd + d.sched + hdrClassOff h + 8 * c) 8)
      (kiln s 3).run = none ∧ (kiln s 3).jobs = [job] ∧ startSlot s job = some 5 ∧ imageCheck d (valueEnd + d.sched) h cl = none) ∧
    (let s := kilnWith [job] none 0 []
     startSlot s { job with dt := 1 } = none ∧ imageCheck (jobD job.desc) valueEnd [] [] = some St.badDesc ∧
     s.sec.switching = [] ∧ (kiln s 3).jobs = [job]) := by decide +kernel

/-- An instance that has yet to be filled: with no warm vector, with one that does not match, and past the cycle of its deadline. -/
theorem wit_KilnStarts_fill : ∀ n ∈ [0, 3], let r := { run0 with hdr := header n, begun := false, cyc := 553 }
    let s := kilnWith [{ job with desc := (jobBytes 1000).set 3 0x1C }] (some r) n []
    let d := jobD ((jobBytes 1000).set 3 0x1C)
    let s0 := settleTo s r.cyc
    (kiln s 3).jobs = [{ job with desc := (jobBytes 1000).set 3 0x1C }] ∧ (kiln s 3).run = some r ∧ r.begun = false ∧ r.commit = none ∧
    r.cyc < min 560 r.miss ∧ min 553 r.miss ≤ r.cyc ∧ (n = 0 ∨ d.area r.inst + 5 * hdrWsScr r.hdr + 5 * n ≤ valueEnd) ∧ r.imp = none ∧
    restsBut s0 = true := by decide +kernel

theorem wit_KilnWordsAndValues : ([(0x02, kw 0x02 1 1 0 0 0), (0x08, kw 0x08 11 1 0 0 15), (0x09, kw 0x09 0 1 0 0 15), (0x0A, kw 0x0A 0 1 0 0 15),
      (0x0B, kw 0x0B 1 1 0 0 0), (0x0C, kw 0x0C 0 1 0 0 15), (0x10, kw 0x10 3 0 0 0 0), (0x11, factWord), (0x12, kw 0x12 15 0 0 0 0)].all
      fun p => atWord p.1 p.2) = true ∧
    -- the last value of value memory, and one beyond it
    (let x := kcOf (kilnWith [job] (some run0) 0 []) 3 (jobD job.desc) run0
     let e (w : List Nat) := x.eff (kword (w.flatMap (leBytes 4)))
     let ends (r : KRes) : Bool := match r with | .ok e => decide (run0.cyc + e.cost ≤ run0.miss) | .error _ => false
     let fails (r : KRes) : Bool := match r with | .ok _ => false | .error st => st == St.badAddr
     (∀ p ∈ [(0x02, 1), (0x08, 0), (0x08, 9), (0x08, 11), (0x09, 0), (0x0A, 0), (0x0B, 0), (0x0B, 1), (0x0C, 0)],
       ends (e (kw p.1 p.2 1 0 0 0)) = true) ∧
     (valueEnd = 0x1800000 ∧ ends (e (kw 0x08 0 1 5033163 0 0)) = true ∧ fails (e (kw 0x08 0 1 5033164 0 0)) = true)) := by decide +kernel

/-- A run of that job inside a loop of three passes. -/
def loopRun (p : Nat) : KRun := { run0 with loop := some (0, p, 3) }
def kilnLoop (r : KRun) : State := kilnWith [job] (some r) 0 [kw 0x18 0 0 0 0 3, kw 0x19 0 0 0 0 0]

theorem wit_KilnControl : ([(0x18, kw 0x18 0 0 0 0 255), (0x19, kw 0x19 0 0 0 0 0), (0x1A, kw 0x1A 1 0 0 0 0x3210), (0x00, kw 0x00 0 0 0 0 0),
      (0x01, kw 0x01 1 1 0 0 0)].all fun p => atWord p.1 p.2) = true ∧
    (let s := kilnLoop run0
     findEndloop s 3 (jobD job.desc) run0 1 = some 1 ∧ run0.loop = none ∧ (loopRun 2).loop = some (0, 2, 3) ∧
     (loopRun 3).loop = some (0, 3, 3) ∧ run0.cyc + 3 ≤ run0.miss ∧ restsBut (settleTo s run0.cyc) = true) ∧
    -- TEST leaves at equality of zero scalars, and does not when the first lies above the second
    ((Dy.zero).le Dy.zero = true ∧ (⟨1, 0⟩ : Dy).le Dy.zero = false) ∧
    (run0.inst + 1 = (jobD job.desc).ni ∧ ({ run0 with inst := 1 } : KRun).inst + 1 ≠ (jobD job.desc).ni ∧ hdrWsLen run0.hdr = 0) := by decide +kernel

/-- An IMPORT of one source unit whose KiB is ready, is not, and has become ready while it waits. -/
def importAt (r : KRun) (ready now : Nat) : State :=
  { kilnWith [job] (some r) 0 [kw 0x01 1 128 0 8192 0] with now := now, settled := now, kilns := [(3, ⟨[job], some r, 0, ready, 0, []⟩)] }
def waits (wake : Option Nat) (seen : Nat) : KRun := { run0 with waitIn := seen, imp := some ⟨0, 0, 0, 529, seen, wake⟩ }

theorem wit_KilnControl_import : (let s := importAt run0 1 529
     let s1 := settleTo s 529
     let w := wordAt s1 3 (jobD job.desc) run0 0
     atWord 0x01 (kw 0x01 1 128 0 8192 0) = true ∧ ceilDiv w.n 128 = 1 ∧ w.ia = false ∧ w.id = true ∧ 8 * w.a + 8 * w.n ≤ valueEnd ∧
     (jobD job.desc).area 0 + 5 * w.d + 5 * w.n ≤ valueEnd ∧ (kiln s1 3).readyAll 0 0 = true ∧ restsBut s1 = true ∧ 529 + 8 + 2 ≤ run0.miss) ∧
    (let s1 := settleTo (importAt run0 0 529) 529
     (kiln (settleTo s1 529) 3).readyAll 0 0 = false) ∧
    (let s := importAt (waits none 0) 0 529
     (kiln (settleTo s s.now) 3).run = some (waits none 0)) := by decide +kernel

/-- The wait ends at 541, with and without its deadline there. -/
theorem wit_KilnControl_resume : ∀ miss ∈ [541, 1504], let r := { waits (some 541) 11 with miss := miss }
    let s := importAt r 1 540
    let s2 := settleTo s 541
    (kiln s 3).run = some r ∧ (kiln s2 3).jobs.head? = some job ∧ (kiln s2 3).readyAll 0 0 = true ∧ restsBut s2 = true ∧
    ((kiln s2 3).run.any fun x => x == { r with waitIn := x.waitIn, imp := x.imp }) = true ∧
    ((kiln s2 3).run.any fun x => x.imp.any fun i => { i with seen := 11 } == ⟨0, 0, 0, 529, 11, some 541⟩) = true := by decide +kernel

def commits (c : Nat) : KRun := { run0 with commit := some c, done := [kinstInit] }

theorem wit_KilnEnds : (let s := kilnWith [job, job] (some (commits 500)) 0 []
     let p := commitRun s 3 (commits 500) 500
     capKiln s.variant 3 = true ∧ (kiln s 3).jobs = [job, job] ∧ (kiln s 3).run = some (commits 500) ∧
     (commits 500).doomed = 0 ∧ p.1.sec.switching = [] ∧ (kiln p.1 3).jobs = [job, job] ∧ 500 + (commits 500).cl + p.2 ≤ p.1.now ∧ restsBut s = true ∧
     (jobD job.desc).sts 0 + 16 ≤ valueEnd ∧ (jobD job.desc).out 0 + (jobD job.desc).outLen ≤ valueEnd ∧
     (jobD job.desc).out 0 + (jobD job.desc).outLen ≤ (jobD job.desc).sts 0 ∧ s.boot.stagesDone.contains 6 = true) ∧
    (let r := { run0 with miss := 530 }
     let s := kilnWith [job] (some r) 0 []
     let s0 := settleTo s 530
     (kiln s 3).run = some r ∧ (kiln s0 3).run = some r ∧ r.begun = true ∧ r.commit = none ∧ (kiln s0 3).jobs = [job] ∧ s0.sec.switching = [] ∧
     restsBut s0 = true) ∧
    (kiln (kilnWith [job] none 0 []) 3).run = none ∧ State.reset.boot.stagesDone.contains 6 = false := by decide +kernel
/-! The fabric. -/

/-- Every port trained in domain 77. -/
def trained : Fma := { fmaInit with ports := (List.range 12).map fun p => (p, { portInit with tag := 77 }) }

/-- Module 0 of a ring of two in X, every port up; the fields as given. -/
def fab (l : List (Fld × Nat)) : State :=
  { upR (((List.range 12).map fun p => (Fd.portStateState p, 2)) ++
      [(Fd.moduleStateFabric, 1), (Fd.frtCoordValid, 1), (Fd.frtExtXext, 2), (Fd.frtExtYext, 1), (Fd.frtExtZext, 1), (Fd.frtDomainTag, 77)] ++ l) with fma := trained }

/-- A cell of module 1 to module d. -/
def fcell (typ d offset stream seq : Nat) (data : List Byte) : FabCell :=
  { domain := 77, typ := typ, vc := 0, alt := false, rty := false, dst := d, src := 1, offset := offset, stream := stream, seq := seq,
    hops := 0, sync := false, status := 0, data := data }

/-- Port 11 trained in domain 77, with one cell in its retry buffer after n failed retries. -/
def port (n : Nat) : PortX := { portInit with tag := 77, buf := [⟨0, 0, 9, fcell 0 1 0 5 0 []⟩], fails := n }

/-- A state with the fabric memory agent as given. -/
def fabF (f : Fma → Fma) : State := { fab [] with fma := f trained }

theorem wit_PortsAndCoordinates : availPort up 11 = true ∧ rd (upR [(Fd.portStateState 11, 1)]) (Fd.portStateState 11) = 1 ∧
    up.boot.testing.contains (portPage 11) = false ∧ portUp (fab []) 11 = true ∧ 2 ≤ rd (fab []) (Fd.portStateState 11) ∧
    rdb (fab [(Fd.frtDomainOrigin, 1)]) Fd.frtDomainOrigin = true ∧ rdb (fab []) Fd.frtDomainOrigin = false ∧ coordValid (fab []) = true ∧
    ((fab []).boot.stagesDone.contains 8 = true ∧ ownNo (fab []) = 0 ∧ State.reset.boot.stagesDone.contains 8 = false ∧
     ¬ (coordValid (linked [(Fd.frtDomainOrigin, 1)]) = true ∧ ownNo (linked [(Fd.frtDomainOrigin, 1)]) = 0)) ∧
    (fab []).fma.origin = false ∧ (fabF fun f => { f with origin := true }).fma.origin = true ∧
    impliedCoords 11 0 0 0 1 1 1 = (0, 0, 0) ∧ impliedCoords 10 0 0 0 8 8 64 = (0, 0, 1) ∧ (ownX (fab []), ownY (fab []), ownZ (fab [])) = (0, 0, 0) ∧
    coordValid (linked []) = false ∧ portUp (linked []) 11 = true ∧
    (∀ n ∈ [6, 7], 0 < (portX (fabF fun f => { f with ports := [(11, port n)] }) 11).buf.length) ∧ (port 6).fails + 1 < 8 ∧
    8 ≤ (port 7).fails + 1 ∧
    -- a cell from port 3 waits at port 10 and can go by port 11
    (let w : PortCell := ⟨3, 3, 9, fcell 0 1 0 5 0 []⟩
     let s := fabF fun f => { f with ports := f.ports.map fun p => if p.1 = 10 then (10, { p.2 with wait := [w] }) else p }
     w.cell.domain = (portX s 10).tag ∧ (portX s 10).wait = [w] ∧
     (routeOf (portOff (wr s (Fd.portStateState 10) 0) 10 true []) w.cell).any (fun r => r.1 != 10) = true) := by decide +kernel

theorem wit_RouterForwards : wfCell.wf = true ∧
    -- the FMA's cell, granted when the slot of port 11 is free
    (let x := { port 0 with wait := [⟨12, 12, 700, fcell 4 1 0 5 0 []⟩], free := 25 * 800 }
     x.next = some (25 * 800, ⟨12, 12, 700, fcell 4 1 0 5 0 []⟩) ∧ x.hold = false) ∧
    availPort (fab []) 11 = true ∧ 2 ≤ rd (fab []) (Fd.portStateState 11) ∧ (fab []).boot.p3 = false ∧ rd up (Fd.portStateState 11) < 2 ∧
    coordValid (fab []) = true ∧ coordValid (linked []) = false ∧
    (fcell 0 0 0 5 0 []).domain = (portX (fabF fun f => { f with ports := [(11, port 0)] }) 11).tag ∧
    (fcell 0 0 0 5 0 []).dst = ownNo (fab []) ∧ (fcell 0 1 0 5 0 []).dst ≠ ownNo (fab []) ∧ 9 < 10 ∧ 10 < 11 ∧
    fieldLE (leBytes 1 5) 0 1 ≤ 5 ∧ 5 < fieldLE (leBytes 1 6) 0 1 ∧ fieldLE (leBytes 1 0) 0 1 = 0 ∧
    (routeOf (fab []) { fcell 0 1 0 5 0 [] with hops := 62 }).isSome = true ∧ (62 : Nat) ≤ 62 ∧
    ({ fcell 0 1 0 5 0 [] with domain := 78 } : FabCell).domain ≠ (port 0).tag ∧
    transitPort (fab []) { fcell 0 1 0 5 0 [] with domain := 78, hops := 62 } = none ∧
    transitPort (fabF fun f => { f with ports := [(11, { portInit with tag := 78 })] })
      { fcell 0 1 0 5 0 [] with domain := 78, hops := 62 } = none ∧
    transitPort (fab [(Fd.frtTransitEn 63, 1), (Fd.frtTransitDomain 63, 78), (Fd.frtTransitPorts 63, 2048)])
      { fcell 0 1 0 5 0 [] with domain := 78, hops := 62 } = some 11 := by decide +kernel

theorem wit_RequestsTakeEffect : (∀ t ∈ [0, 1, 2, 6], delivered (fab []) (fcell t 0 0xC005000000 5 65535 []) = true) ∧
    (let s := fab []
     let k := srcKey (fcell 1 0 0 5 0 [])
     Tab.find s.fma.expect k = none ∧ heldOf s k = [] ∧ s.fma.refused.contains k = false ∧
     accessStatus s 0xC0057FFFF0 16 = none ∧ accessStatus s 0xC005F00000 16 = some St.badAddr ∧
     (∀ i, i < 64 → reachable s (0xC0057FFC00 + 16 * i) = true) ∧
     (routeOf s (mkCell s 3 1 0xC0057FFC00 5 0 false 0 [])).isSome = true ∧ faddTarget 0xC0057FFFF8 = true ∧ 0xC0057FFFF8 % 8 = 0 ∧
     accessStatus s 0xC0057FFFF8 8 = none) ∧
    (let s := fabF fun f => { f with refused := [srcKey (fcell 1 0 0 5 0 [])] }
     s.fma.refused.contains (srcKey (fcell 1 0 0 5 0 [])) = true) ∧
    (let s := fabF fun f => { f with expect := [(srcKey (fcell 1 0 0 5 0 []), 65535)] }
     Tab.find s.fma.expect (srcKey (fcell 1 0 0 5 0 [])) = some 65535 ∧ seqAhead 32766 65535 < 32768 ∧ s.fma.held.length < reorderCells) ∧
    (let s := fabF fun f => { f with gapAt := [(256 * 1 + 5, 9)] }
     Tab.find s.fma.gapAt (256 * 1 + 5) = some 9) := by decide +kernel

/-- A unit of engine 10 to module 1 that waits for its answer. -/
def pend (kind stream : Nat) : Pend :=
  { kind := kind, stream := stream, copy := 4, dst := 1, first := 0, last := 1, unit := 7, base := 0, key := 0xC005000000,
    parts := [(0, 0, 16)], skip := 0, want := 16, got := [], sentAt := 9, acc := 5 }

/-- A copy of engine 10 that writes to module 1, or reads from it. -/
def remoteRun (read : Bool) : Copy :=
  let ws : List Nat := if read then [0x11000000, 2, 0x10001, 0, 0, 0x100, 0x05000400, 0xC0]
    else [0x12000000, 2, 0x10001, 0, 0x05000000, 0xC0, 0, 0x100]
  { copyRun 1 with desc := ws.flatMap (leBytes 4) ++ List.replicate 32 0 }

/-- Engine 10 has that copy in a module of the fabric; the fields and the agent as given. -/
def remoteAt (read : Bool) (l : List (Fld × Nat)) (f : Fma → Fma) : State := engAt 10 [remoteRun read] { fab l with fma := f trained }

theorem wit_RemoteUnitsAreSent : (∀ read ∈ [true, false], let s := remoteAt read [] id
      let c := remoteRun read
      copyOf s 10 c.id = some c ∧ c.d.op ≠ 4 ∧ c.dstRemote s = !read ∧ c.srcRemote s = read ∧ remoteBlocked s 1 10 = none ∧
      c.d.dst / 2 ^ 40 = (if read then 0 else 1) ∧ c.d.src / 2 ^ 40 = (if read then 1 else 0) ∧ s.fma.pend.length + 2 ≤ 4096 ∧
      s.fma.pend.length + (joinReads (c.readPieces c.sent)).length ≤ 4096) ∧
    (∀ read ∈ [true, false], remoteBlocked (remoteAt read [(Fd.moduleStateFabric, 0)] id) 1 10 = some St.unreachable ∧
      remoteBlocked (remoteAt read ((List.range 12).map fun p => (Fd.portStateState p, 0)) id) 1 10 = some St.linkDown) ∧
    (let s := remoteAt false [] fun f => { f with pend := List.replicate 4096 (pend 0 9) }
     remoteBlocked s 1 10 = none ∧ 4096 < s.fma.pend.length + 1) := by decide +kernel

theorem wit_AnswersArrive : (∀ t ∈ [3, 4, 5, 7], delivered (fab []) (fcell t 0 0 10 1 []) = true) ∧ (fab []).fma.pend = [] ∧
    (let s := remoteAt false [] fun f => { f with pend := [pend 0 10] }
     s.fma.pend.find? (fun p => p.kind == 0 && p.fits (fcell 4 0 0 10 1 []) && p.last == 1) = some (pend 0 10) ∧
     s.fma.pend.find? (fun p => p.fits (fcell 5 0 0 10 0 [])) = some (pend 0 10) ∧ (pend 0 10).kind ≠ 2 ∧
     copyOf s (pend 0 10).stream (pend 0 10).copy = some (remoteRun false)) ∧
    (let s := remoteAt true [] fun f => { f with pend := [pend 1 10] }
     let got (l : List Byte) := assemble ((pend 1 10).got.length + 1) ((pend 1 10).got ++ [(0 - (pend 1 10).base, l)]) []
     s.fma.pend.find? (fun p => p.kind == 1 && p.fits (fcell 3 0 0 10 0 [])) = some (pend 1 10) ∧
     copyOf s (pend 1 10).stream (pend 1 10).copy = some (remoteRun true) ∧
     (got (List.replicate 15 1)).length < 16 ∧ 16 ≤ (got (List.replicate 16 1)).length) ∧
    10 ≠ colStream ∧
    (let s := fabF fun f => { f with pend := [pend 2 10] }
     s.fma.pend.find? (fun p => p.fits (fcell 5 0 0 10 0 [])) = some (pend 2 10) ∧
     s.fma.pend.find? (fun p => p.kind == 2 && p.fits (fcell 7 0 0 10 0 [])) = some (pend 2 10) ∧
     accessStatus s (pend 2 10).key 8 = none) ∧
    (let p := { pend 2 10 with key := 0xFFFFFFFFF8 }
     let s := fabF fun f => { f with pend := [p] }
     s.fma.pend.find? (fun p => p.kind == 2 && p.fits (fcell 7 0 0 10 0 [])) = some p ∧ accessStatus s p.key 8 ≠ none) := by decide +kernel

/-- A fetch-add item of queue 9: the word's address, 5, RESULT and the tag. -/
def faddItem (a res : Nat) (f : Fma → Fma) : State :=
  let s := { hubItem (leBytes 8 a ++ leBytes 8 5 ++ leBytes 8 res ++ leBytes 8 3 ++ List.replicate 32 0) 1 with fma := f trained }
  wrs s (((List.range 12).map fun p => (Fd.portStateState p, 2)) ++
    [(Fd.moduleStateFabric, 1), (Fd.fmaAqEn, 1), (Fd.fmaAqSq, 9), (Fd.frtCoordValid, 1), (Fd.frtExtXext, 2), (Fd.frtExtYext, 1), (Fd.frtExtZext, 1),
     (Fd.frtDomainTag, 77)])

/-- A unit that has waited for its answer long enough, of the atomic unit and of a copy. -/
theorem wit_SourceOperations_timeout : (∀ kind ∈ [0, 2], let s0 := remoteAt false [(Fd.fmaAckToCycles, 500)] fun f => { f with pend := [pend kind 10] }
      let s := { s0 with now := 509, settled := 509 }
      (ackDue 10 (s.fma.pend.length + 4) s).any (fun r => r.2 == pend kind 10 && decide (r.1.now = 509) &&
        (kind == 2 || copyOf r.1 10 4 == some (remoteRun false))) = true) ∧
    (fabF fun f => { f with pend := [pend 2 132] }).fma.pend.find? (fun p => p.stream == 132) = some (pend 2 132) := by decide +kernel

/-- Module 0 of that ring with its fetch-add waiting for room, at rest otherwise. -/
theorem wit_SourceOperations_quiet : Quiet (fabF fun f => { f with pend := [pend 2 132] }) :=
  { tiles := fun _ h => by { cases (show _ ∈ ([] : List (Nat × Tile)) from h) }
    engines := fun _ h => by { cases (show _ ∈ ([] : List (Nat × Engine)) from h) }
    lanes := fun _ h => by { cases (show _ ∈ ([] : List (Nat × Lane)) from h) }
    kilns := fun _ h => by { cases (show _ ∈ ([] : List (Nat × Kiln)) from h) }
    col := ⟨rfl, rfl⟩, fabric := ⟨by decide, rfl, rfl⟩, queues := ⟨rfl, rfl⟩, records := rfl }

/-- The item of a fetch-add to module 1. -/
def faddWait : List Byte := leBytes 8 0x1C005000000 ++ leBytes 8 5 ++ leBytes 8 0xC005000000 ++ leBytes 8 3

theorem wit_SourceOperations_room : (∀ n ∈ [0, 4096], let s := fabF fun f => { f with pend := List.replicate n (pend 0 9), aqWait := some (faddWait, 5, 7) }
      s.fma.aqWait = some (faddWait, 5, 7) ∧ creditFree s = decide (n = 0) ∧
      remoteBlocked { s with fma := { s.fma with aqWait := none } } (fieldLE faddWait 0 8 / 2 ^ 40) 132 = none) ∧
    remoteBlocked (fab [(Fd.moduleStateFabric, 0)]) (fieldLE faddWait 0 8 / 2 ^ 40) 132 = some St.unreachable ∧
    (settle (fabF fun f => { f with aqWait := some (faddWait, 5, 7) })).fma.aqWait.isSome = true ∧
    (let x := { remoteRun false with creditWait := some 9 }
     let s := engAt 10 [x] { fab [] with now := 20, settled := 20 }
     ((engine (settle s) 10).copies.find? fun c => c.creditWait.isSome).isSome = true ∧ creditFree (settle s) = true ∧
     copyOf s 10 x.id = some x ∧ x.d.needsSieve = false) := by decide +kernel

theorem wit_SourceOperations_items : (∀ s ∈ [faddItem 0xC0057FFFF8 0xC005000000 id, faddItem 0x1C005000000 0xC005000000 id, faddItem 1 0xC005000000 id],
      let r := engineDeq s prodFma (rd s Fd.fmaAqSq)
      rdb s Fd.fmaAqEn = true ∧ s.fma.aqWait = none ∧ bit r.2.2 63 = true ∧ bit r.2.2 61 = true) ∧
    (let it (s : State) := (engineDeq s prodFma (rd s Fd.fmaAqSq)).2.1.take 32
     let a := faddItem 0xC0057FFFF8 0xC005000000 id
     let b := faddItem 0x1C005000000 0xC005000000 id
     let c := faddItem 1 0xC005000000 id
     faddCheck a (it a) = none ∧ sideLocal a false (fieldLE (it a) 0 8) = true ∧ 0xC005000000 + 8 ≤ off40 (fieldLE (it a) 0 8) ∧
     faddCheck b (it b) = none ∧ sideLocal b false (fieldLE (it b) 0 8) = false ∧ creditFree b = true ∧
     faddCheck c (it c) = some St.badAddr) ∧
    creditFree (faddItem 0x1C005000000 0xC005000000 fun f => { f with pend := List.replicate 4096 (pend 0 10) }) = false := by decide +kernel
/-! Collectives. -/

/-- Group 9 of modules 0 and 1. -/
def grp : Grp :=
  { gen := 3, nmemb := 2, probation := false, zfmt := 0, failTurns := 0, members := 3, opseq := 1, first := false, removed := false, late := [],
    reforms := [], opens := [], ups := [] }

/-- A descriptor for group 9: OP and the fields below it, the root, bricks. -/
def colWords (w0 root nbrk : Nat) : List Nat := [w0, root * 2 ^ 16 + 9, nbrk, 500, 0, 0, 0, 0, 0x10000, 0, 0x20000, 0, 0x30000, 0, 0, 7]
def colBytes (w0 root nbrk : Nat) : List Byte := (colWords w0 root nbrk).flatMap (leBytes 4)

/-- One constituent with its child 1, or its parent. -/
def sub (root : Nat) (kids : List CChild) (chunks : List CChunk) (waits : Option Nat) : CSub :=
  { i := 0, root := root, opened := true, ownOut := none, cut := false, kids := kids, waitSince := none, lagMod := 0, lagCc := 0, claimed := 0,
    freed := 0, have_ := 0, chunks := chunks, waits := waits, got := [], hdr := chdrInit, closed := false }
def kid : CChild := { mod := 1, ready := 0, out := none, sent := 0 }
def chunk0 : CChunk :=
  { c := 0, slots := 1, kids := 0, granted := true, got := [], acc := [], hdr := chdrInit, reading := false, entered := [], fed := 0, kidEnd := 0,
    last := some 700, leaving := none, done := false }

/-- An operation of group 9. -/
def cop (desc : List Byte) (start : Option Nat) (subs : List CSub) : COp :=
  { group := 9, gen := 3, seq := 0, tag := 7, acc := 500, desc := desc, step := 0, prog := 0, dt := 0, dl := none, start := start,
    overdue := false, checkEnd := none, checked := false,
    badOwn := 0, subs := subs, begun := 1, closed := 0, bricks := 0, admWait := 0, nexcl := 0, flags := 0, heard := 500,
    mismatch := false, wake := none, down := none, ringGo := false, ringOwn := false, ringReady := false, ringSent := 0, ringHave := 0, ringGot := [], fOut := [], fUps := [], fSent := false }

/-- Module 0 with that group and these operations. -/
def colAt (x : Grp) (ops : List COp) : State := { fab [] with col := { colInit with groups := [(9, x)], ops := ops } }

/-- The same with a descriptor in queue 9, or issued by tile 5. -/
def colItem (desc : List Byte) : State :=
  { wrs (hubItem desc 1) ([(Fd.colSqEn, 1), (Fd.colSqQueue, 9), (Fd.frtCoordValid, 1), (Fd.frtExtXext, 2), (Fd.frtExtYext, 1), (Fd.frtExtZext, 1)]) with
      col := { colInit with groups := [(9, grp)] } }

theorem wit_CollectivesAccepted : (∀ op ∈ [1, 2, 3, 4, 5, 6, 7, 8], let w := op * 2 ^ 28 + (if op = 7 then 2 ^ 15 else 0)
      let s := colItem (colBytes w 0 4)
      let r := engineDeq s prodCol (rd s Fd.colSqQueue)
      let d := colD r.2.1
      rdb s Fd.colSqEn = true ∧ rdb s (Fd.blkctlEnable colPage) = true ∧ bit r.2.2 63 = true ∧ bit r.2.2 61 = true ∧ d.op = op ∧
        d.check r.1 = none ∧ colGrp r.1 d.group = some grp ∧ firstOp r.1 d.group = none ∧ colHeld s < 64) ∧
    colHeld (colAt grp (List.replicate 64 (cop [] none []))) = 64 ∧
    (colD (colBytes 0x10000000 2 4)).check (colAt grp []) = some St.badDesc ∧
    (fencedPage (fencedAt .col) colPage || fencedPage (fencedAt .col) fritPage) = true ∧
    (fencedPage (colAt grp []) colPage || fencedPage (colAt grp []) fritPage) = false ∧
    firstOp (colAt grp [cop (colBytes 0x10000000 0 4) none []]) 9 = some (cop (colBytes 0x10000000 0 4) none []) ∧
    (cop (colBytes 0x10000000 0 4) none []).seq ≠ grp.opseq ∧ bit (engineDeq (queueAt (2 ^ 31) 0 oneItem) prodCol 9).2.2 61 = false ∧
    (let s := upT { tileInit with issued := [⟨8, 0x40, 3, 500⟩] }
     (tile s 5).issued.find? (fun i => i.unit == 8) = some ⟨8, 0x40, 3, 500⟩) := by decide +kernel

theorem wit_CollectivesAccepted_registers : 4 ∉ State.reset.boot.stagesDone ∧ 4 ∈ up.boot.stagesDone ∧ bits 1 47 0 < turnNo up + 2 ∧ turnNo up + 2 ≤ bits 2 47 0 ∧
    (let p (n i : Nat) : Nat := bits n (16 * i + 11) (16 * i)
     let sized (n : Nat) : Prop := 64 ≤ p n 0 ∧ 64 ≤ p n 1 ∧ 64 ≤ p n 2 ∧ 64 ≤ p n 3 ∧ p n 0 + p n 1 + p n 2 + p n 3 ≤ 3072
     sized 0x0300030003000300 ∧ sized 0x0040004000400B40 ∧ ¬ sized 0x0040004000400B41 ∧ ¬ sized 0x004000400040003F) ∧ noSlots up = true ∧
    noSlots (colAt grp [cop (colBytes 0x10000000 0 4) (some 500) [sub 0 [kid] [chunk0] none]]) = false ∧
    ({ up.col with poolNext := true } : Col).poolNext = true := by decide +kernel

/-- A control cell of group 9. -/
def ctl (kind gen opseq : Nat) : ColCtl :=
  { kind := kind, reason := 0, group := 9, gen := gen, opseq := opseq, chunk := 0, step := 0, nbrk := 4, word0 := 0, modno := 0, lag := 0 }

/-- A control cell of module 1 with that body. -/
def ctlCell (m : ColCtl) : FabCell := fcell 9 0 0 colStream 0 (ctlBytes m)

theorem wit_CollectiveCells : (∀ kind ∈ [0, 1, 2, 3, 4], let c := ctlCell (ctl kind 3 0)
      c.typ = 9 ∧ c.stream = colStream ∧ isCtl c = true ∧ delivered (colAt grp []) c = true ∧ ctlOf c.data = ctl kind 3 0 ∧
      heldOf (colAt grp []) (srcKey c) = [] ∧ c.sync = false ∧ Tab.find (colAt grp []).fma.expect (srcKey c) = none) ∧
    colGrp (fab []) 9 = none ∧ colGrp (colAt grp []) 9 = some grp ∧ grp.gen ≠ (ctl 0 4 0).gen ∧ grp.gen = (ctl 0 3 0).gen ∧
    findOp (colAt grp []) 9 3 1 = none ∧ grp.opseq ≤ (ctl 0 3 1).opseq ∧ (ctl 1 3 0).opseq < grp.opseq ∧ findOp (colAt grp []) 9 3 0 = none ∧
    (∀ w ∈ [0x70000000, 0x10000000, 0x60000000], ∀ st ∈ [none, some 500], let o := cop (colBytes w 0 4) st [sub 0 [kid] [] none]
      findOp (colAt grp [o]) 9 3 0 = some o ∧ o.start = st ∧ o.d.frit = decide (w = 0x70000000) ∧ (o.d.op = 6 ↔ w = 0x60000000)) ∧
    -- OPEN of a ring from the next member of the ring; that of another operation
    nextMember (colAt grp []) 9 = 1 ∧ nextMember (colAt grp []) 9 ≠ 2 ∧ bits (ctl 0 3 0).word0 31 28 = 0 ∧ bits 0x10000000 31 28 ≠ 0 ∧
    -- a chunk of no constituent; a child that takes part, one that is excluded
    (cop (colBytes 0x10000000 0 4) (some 500) []).subAt 0 = none ∧
    (∀ k ∈ [kid, { kid with out := some (3, 0) }], let o := cop (colBytes 0x10000000 0 4) (some 500) [sub 0 [k] [] none]
     o.subAt 0 = some (sub 0 [k] [] none) ∧ (sub 0 [k] [] none).kids.find? (fun k => k.mod == 1) = some k ∧ (sub 0 [k] [] none).parent (colAt grp [o]) o = none) ∧
    kid.out = none ∧
    -- a chunk with slots, and one without, that the parent grants
    (∀ n ∈ [0, 1], let x := { chunk0 with done := true, slots := n, granted := false }
     let u := sub 1 [] [x] none
     let o := cop (colBytes 0x10000000 1 4) (some 500) [u]
     o.subAt 0 = some u ∧ u.chunks.find? (fun x => x.c == o.chunkAt 0 && x.done && !x.granted) = some x ∧
     u.parent (colAt grp [o]) o = some 1 ∧ o.ownOut u = none) := by decide +kernel

/-- Operations of the kinds that the clauses of CollectiveRuns are about: waiting for its start and for slots, with a chunk at the root, with one
at a member, and one whose parts are still read. -/
def waitOp : COp := cop (colBytes 0x10000000 0 4) none [sub 0 [kid] [] (some 600)]
def rootOp : COp := cop (colBytes 0x10000000 0 4) (some 500) [sub 0 [kid] [chunk0] none]
def leafOp : COp := cop (colBytes 0x10000000 1 4) (some 500) [sub 1 [] [chunk0] none]

/-- colAt at clock cycle 764. -/
def colNow (x : Grp) (ops : List COp) : State := { colAt x ops with now := 764, settled := 764 }

theorem wit_CollectiveRuns_start : firstOp (colAt grp [waitOp]) 9 = some waitOp ∧ waitOp.start = none ∧ colGrp (colAt grp [waitOp]) 9 = some grp ∧
    firstOp (colAt grp [rootOp]) 9 = some rootOp ∧ rootOp.start ≠ none ∧
    (∀ e ∈ [none, some 520], let o := { rootOp with checkEnd := e }
     let s := colAt grp [o]
     s.col.ops.find? (fun o => o.group == 9 && !o.checked) = some o ∧
     driveOp 9 o.seq (fun _ o => o.checkEnd.isSome) dueCount s = s ∧ s.col.ops.find? (fun x => x.group == 9 && x.seq == o.seq) = some o) ∧
    (∀ n ∈ [768, 0], let s := { colAt grp [waitOp] with col := { colInit with groups := [(9, grp)], ops := [waitOp], pools := [n, 0, 0, 0] } }
     (waitingAt s 0).find? (fun w => !(waitingAt s 0).any fun v => before3 (v.1.place v.2) (w.1.place w.2)) =
       some (waitOp, sub 0 [kid] [] (some 600)) ∧
     (waitOp.slotsOf (sub 0 [kid] [] (some 600)) 0 ≤ freeSlots s 0 ↔ n = 768) ∧ waitOp.inWork < 4) := by decide +kernel

theorem wit_CollectiveRuns_chunk : (∀ o ∈ [rootOp, leafOp], let s := colNow grp [o]
      let s0 := settleTo s (700 + 64)
      firstOp s 9 = some o ∧ (o.subs.head?).isSome = true ∧ (o.subAt 0).any (fun u => u.chunks.find? (fun x => x.c == o.chunkAt 0 && !x.done) == some chunk0 &&
        decide (u.root = ownNo s0 ↔ o = rootOp)) = true ∧ chunk0.last = some 700 ∧ firstOp s0 9 = some o) ∧
    rootOp.d.ofmt ≠ 2 ∧ accessStatus (colNow grp [rootOp]) 0x10000 (dataBytes 0 4) = none ∧
    colRange (colNow grp [rootOp]) 0x10000 (dataBytes 0 4) = true ∧ (rootOp.dstAt (sub 0 [kid] [chunk0] none) 0).1 = 0x10000 ∧
    accessStatus { colNow grp [rootOp] with boot := { up.boot with fences := (fencedAt (.mem 0)).boot.fences } } 0x10000 (dataBytes 0 4) =
      some St.badAddr := by decide +kernel

theorem wit_CollectiveRuns_late : (let s := colNow grp [leafOp]
      deadlineOf s leafOp = some 500 ∧ leafOp.start ≠ none ∧ firstOp (settleTo s 500) 9 = some leafOp ∧ lateKids leafOp = [] ∧ leafOp.d.frit = false ∧
      leafOp.d.root ≠ ownNo s) ∧
    lateKids rootOp ≠ [] ∧ ({ grp with probation := true } : Grp).probation = true ∧
    firstOp (settleTo (colNow { grp with probation := true } [rootOp]) 500) 9 = some rootOp ∧
    (let s0 := colNow grp [leafOp]
     let s := { s0 with regs := (wr s0 Fd.colOptoCycles 264).regs }
     firstOp s 9 = some leafOp ∧ deadlineOf s leafOp = some 500 ∧ firstOp (settleTo s (max 500 leafOp.heard + rd s Fd.colOptoCycles)) 9 = some leafOp) ∧
    firstOp (colAt grp [waitOp]) 9 = some waitOp ∧ waitOp.start = none := by decide +kernel

/-- A data cell, and a header cell, of group 9: their 36-bit OFFSET. -/
def dataCell (typ off : Nat) (data : List Byte) : FabCell := fcell 9 0 (16 * (9 * 2 ^ 26 + typ * 2 ^ 20 + off)) colStream 0 data

theorem wit_CollectiveData_cells : let c := dataCell 0 0 (List.replicate 112 1)
    c.typ = 9 ∧ isCtl c = false ∧
    delivered (fab []) c = true ∧ heldOf (fab []) (srcKey c) = [] ∧ c.sync = false ∧ Tab.find (fab []).fma.expect (srcKey c) = none ∧
    bits (c.offset / 16) 35 26 = 9 ∧ firstOp (fab []) 9 = none ∧
    (let x := { chunk0 with last := none }
     let o := cop (colBytes 0x10000000 0 4) (some 500) [sub 0 [kid] [x] none]
     (o.subs.findSome? fun u => (upChunk o u c.src (cellResidue c)).map fun x => (u, x)) = some (sub 0 [kid] [x] none, x)) ∧
    -- an operation that has not started, one of the frit path, and a ring, from its previous member and for a chunk of another residue
    ((cop (colBytes 0x10000000 0 4) none []).start = none ∧ (cop (colBytes 0x70000000 0 4) (some 500) []).d.frit = true ∧
     (let o := cop (colBytes 0x60000000 0 4) (some 500) []
      firstOp (colAt grp [o]) 9 = some o ∧ o.d.op = 6 ∧ prevMember (colAt grp [o]) 9 = c.src ∧ o.ringHave < o.ringTotal (colAt grp [o]) ∧
      o.ringHave % 4 = cellResidue c ∧
      (gathered (o.ringGot ++ [pieceOf c]) 0).length < dataBytes o.d.ofmt (o.d.bricksOf (o.ringHave % o.d.nch)) ∧
      ({ o with ringHave := 1 } : COp).ringHave % 4 ≠ cellResidue c)) := by decide +kernel

theorem wit_CollectiveData_down : let c := dataCell 0 0 (List.replicate 112 1)
    let u := { sub 1 [] [] none with got := [(0, 0, List.replicate 1936 1)] }
    let o := cop (colBytes 0x20A00000 1 1) (some 500) [u]
    let s := colAt grp [o]
    (o.subs.findSome? fun u => (upChunk o u c.src (cellResidue c)).map fun x => (u, x)) = none ∧ o.d.ofmt ≠ 2 ∧
    o.subs.find? (fun u => fromParent s o u c.src (cellResidue c) (pieceOf c).1) = some u ∧ (pieceOf c).1 ≠ 1 ∧
    (gathered (u.got ++ [pieceOf (dataCell 0 1936 (List.replicate 112 1))]) 0).length = dataBytes o.d.ofmt (o.d.bricksOf 0) ∧
    0 < dataBytes o.d.ofmt (o.d.bricksOf 0) ∧ accessStatus s (o.dstAt u 0).1 (dataBytes o.d.ofmt (o.d.bricksOf 0)) = none ∧
    colRange s (o.dstAt u 0).1 (dataBytes o.d.ofmt (o.d.bricksOf 0)) = true ∧
    accessStatus { s with boot := { up.boot with fences := (fencedAt (.mem 0)).boot.fences } } (o.dstAt u 0).1
      (dataBytes o.d.ofmt (o.d.bricksOf 0)) = some St.badAddr ∧
    (gathered ((sub 1 [] [] none).got ++ [pieceOf c]) 0).length < dataBytes o.d.ofmt (o.d.bricksOf 0) := by decide +kernel

/-- The child whose turn it is, with its header in, with own parts still read, and before its GRANT. -/
theorem wit_CollectiveData_child : ∀ x ∈ [{ chunk0 with last := none, got := [(1, 0, List.replicate 1024 0)] }, { chunk0 with last := none, reading := true },
      { chunk0 with last := none, granted := false }], let u := sub 0 [kid] [x] none
    let o := cop (colBytes 0x10000000 0 4) (some 500) [u]
    let s := colAt grp [o]
    o ∈ s.col.ops ∧ u ∈ o.subs ∧ x ∈ u.chunks ∧ x.last = none ∧ x.leaving = none ∧ u.kids[x.kids]? = some kid ∧ kid.out = none ∧
    remoteBlocked s kid.mod colStream = none ∧ (x.granted = true → x.reading = false → 1024 ≤ (gathered x.got 1).length) ∧
    (hdrOf (gathered x.got 1)).contrib = 0 := by decide +kernel

/-- A stream of two KiB for each use, from a Marver, and from HBM before its bytes have crossed to the hub die. -/
def colStr (a : Nat) (use : ColUse) : ColStream :=
  { id := 3, group := 9, seq := 0, base := 500, addr := a, len := 2048, shares := [], done := 0, lag := 0, crossed := true, buf := [], use := use }
theorem wit_CollectiveData_streams : (∀ use ∈ [ColUse.check 0, .own 0 0 0, .send 1 0 [], .copy none 0 0xC005001000],
      let x := colStr 0xC005000000 use
      let s0 := colAt grp [rootOp]
      let s := { s0 with col := { s0.col with streams := [x] } }
      s.col.streams.find? (fun y => y.id == x.id) = some x ∧ streamOp s x = some rootOp ∧ accessStatus s x.addr 1024 = none ∧ x.done + 1 < x.kibs ∧
      accessStatus s 0xC005001000 1024 = none ∧ colRange s 0xC005001000 1024 = true) ∧
    accessStatus (fencedAt (.mem 0)) 0 1024 = some St.badAddr ∧
    (let s := { fab [] with fma := { trained with outs := (List.range 16).map fun l => (l, 25 * 600) }, now := 500 }
     0 < (carry s 0 4 hubCol 1024 500).2) := by decide +kernel

/-- A message of group 9 for a FRED of one value, or a BARRIER. -/
def frit (gen opseq : Nat) : FritMsg :=
  { group := 9, gen := gen, opseq := opseq, fn := 0, typ := 0, nval := 1, step := 0, ncontrib := 1, nexcl := 0, reasons := 0, lagMod := 0, vals := [5],
    excl := [] }

/-- Operations that take no DOWN, and one that does. -/
theorem wit_FritMessages_down : (∀ o ∈ [cop (colBytes 0x70008000 0 1) (some 500) [], cop (colBytes 0x10000000 1 1) (some 500) [],
      cop (colBytes 0x70008000 1 1) none [], { cop (colBytes 0x70008000 1 1) (some 500) [] with down := some (frit 3 0) }],
      findOp (colAt grp [o]) 9 3 0 = some o ∧ (o.d.frit = false ∨ o.start = none ∨ o.d.root = ownNo (colAt grp [o]) ∨ o.down ≠ none)) ∧
    (let o := cop (colBytes 0x70008000 1 1) (some 500) []
     findOp (colAt grp [o]) 9 3 0 = some o ∧ o.d.frit = true ∧ o.start ≠ none ∧ o.d.root ≠ ownNo (colAt grp [o]) ∧ o.down = none ∧ o.wake = none) ∧
    (∀ m ∈ [none, some (frit 3 0)], let o := { cop (colBytes 0x70008000 1 1) (some 500) [] with down := m }
     (colAt grp [o]).col.ops.find? (fun x => x.group == o.group && x.seq == o.seq) = some o ∧ o.d.frit = true ∧
     accessStatus (colAt grp [o]) o.d.hdr 128 = none ∧ colRange (colAt grp [o]) o.d.hdr 128 = true ∧
     accessStatus { colAt grp [o] with boot := (fencedAt (.mem 0)).boot } o.d.hdr 128 = some St.badAddr) := by decide +kernel

theorem wit_FritMessages : let o := cop (colBytes 0x70008000 0 1) (some 500) []
    let l := cop (colBytes 0x70008000 1 1) (some 500) []
    colGrp (fab []) 9 = none ∧ grp.gen ≠ (frit 4 0).gen ∧ findOp (colAt grp []) 9 3 1 = none ∧ grp.opseq ≤ (frit 3 1).opseq ∧
    (findOp (colAt grp [o]) 9 3 0 = some o ∧ o.d.frit = true ∧ o.fSent = false ∧ o.start ≠ none ∧
      (childrenOf grp.members o.d.root (ownNo (colAt grp [o]))).contains 1 = true ∧ upFault o (frit 3 0) = none ∧
      (upFault o { frit 3 0 with nval := 2 }).isSome = true ∧ ({ o with start := none } : COp).start = none) ∧
    (findOp (colAt grp [l]) 9 3 0 = some l ∧ l.d.frit = true ∧ l.d.root ≠ ownNo (colAt grp [l])) ∧
    colGrp (colAt grp []) 9 = some grp ∧ 3 ≤ grp.gen ∧ grp.gen < 4 ∧ (grp.reforms.any fun r => r.1 == 4) = false ∧
    ({ grp with probation := true } : Grp).probation = true ∧ grp.members.testBit 1 = true ∧
    (∀ k ∈ memberList grp.members, ownNo (colAt grp []) ≤ k) ∧ grp.failTurns = 0 ∧ grp.reforms = [] ∧
    Tab.find ({ grp with late := [(1, 2, 8)] } : Grp).late 1 = some (2, 8) ∧ (9 : Nat) = 8 + 1 ∧ (2 ^ 64 - 1 : Nat) < 2 ^ 64 := by decide +kernel
/-! The host attachment. -/

/-- up with fields of the host interface's own state. -/
def upH (f : Hif → Hif) : State := { up with hif := f up.hif }

theorem wit_HostAttachment : rateOk 3 4 1 = true ∧ rateOk 1 16 0 = true ∧ rateOk 4 16 0 = false ∧
    (let s := upB fun b => { b with linkUp := false }
     s.boot.linkUp = false ∧ s.boot.perst = false ∧ stageEnded s 4 = true ∧ rdb s Fd.moduleStateNoservice = false ∧ s.boot.p3 = false) ∧
    up.boot.linkUp = true ∧ hostUp up = true ∧ stageEnded up 6 = true ∧ stageEnded (stageAt 6 []) 6 = false ∧ hostUp (stageAt 6 []) = true ∧
    rdb up Fd.secMbStsBusy = false ∧ rdb (upR [(Fd.secMbStsBusy, 1)]) Fd.secMbStsBusy = true ∧
    (let s := upR [(Fd.nModuleReject, 1), (Fd.noticeEnEn 0, 2 ^ 32 - 1), (Fd.hifCtlNarm, 1), (Fd.hifCtlNvec, 2047)]
     noticeEvent s = true ∧ rdb s Fd.hifCtlNarm = true ∧ hostUp s = true ∧ vecMasked s 2047 = true ∧
     vecMasked { s with hif := { s.hif with msix := [(4 * 2047 + 3, 0)] } } 2047 = false) ∧
    noticeEvent (upR [(Fd.nModuleReject, 1), (Fd.noticeEnEn 0, 2 ^ 32 - 1)]) = true ∧
    rdb (upR [(Fd.nModuleReject, 1), (Fd.noticeEnEn 0, 2 ^ 32 - 1), (Fd.hifCtlNarm, 0)]) Fd.hifCtlNarm = false ∧
    rd (upR [(Fd.hifLinkIde, 2)]) Fd.hifLinkIde = 2 ∧ rd (upR [(Fd.hifLinkIde, 3)]) Fd.hifLinkIde = 3 ∧ rd up Fd.hifLinkIde ≠ 3 ∧
    bit 3 1 = true ∧ bit 1 1 = false ∧ (settle up).qmu.badLinks = [] ∧ bringUp up = false ∧ bringUp (upR [(Fd.moduleStateReady, 0)]) = true ∧
    hostUp (upR [(Fd.moduleStateReady, 0)]) = true ∧ (5 ≠ 0 ∨ ((0 : Nat) ≠ 6 ∧ (0 : Nat) ≠ 7)) ∧ rdb (upR [(Fd.moduleStateNoservice, 1)]) Fd.moduleStateNoservice = true := by decide +kernel

/-- The last line of the memory, a hole, lines that the host holds, and a line of its own that the module caches. -/
theorem wit_HostMemory : cxlUp up = true ∧ 0xBFFFFFFFC0 / 64 = (0xBFFFFFFFC0 + 64 - 1) / 64 ∧ 0xBFFFFFFFC0 + 64 ≤ hdmSize up ∧
    hdmOk up 0xBFFFFFFFC0 = true ∧ hdmOk (fencedAt (.mem 15)) 0xBFFFFFFFC0 = false ∧ cxlUp (fencedAt (.mem 15)) = true ∧
    rd up Fd.hifLinkIde ≠ 3 ∧ cxlUp (upR [(Fd.hifLinkIde, 3)]) = true ∧ rd (upR [(Fd.hifLinkIde, 3)]) Fd.hifLinkIde = 3 ∧ cxlUp State.reset = false ∧
    Tab.find up.hif.lines (0xBFFFFFFFC0 / 64) = none ∧ up.hif.lines.length = 0 ∧
    (let s := upH fun h => { h with lines := [(5, ⟨0, some 9, true⟩)], dcoh := [(7, false)] }
     Tab.find s.hif.lines 5 = some ⟨0, some 9, true⟩ ∧ hdmOk s 320 = true ∧ 320 / 64 = 5 ∧ s.hif.dcoh.any (fun p => p.1 == 7) = true ∧
     s.hif.held = [] ∧ (settleTo s (9 + rd s Fd.hifBiToCycles)).hif.held = []) := by
  decide +kernel

/-- A snoop filter that is full with lines of which one is snooped, and a read of line 7 that waits. -/
def fullFilter (n : Nat) : State := upH fun h => { h with lines := List.replicate n (5, ⟨0, some 9, false⟩), held := [(448, 64)] }

theorem wit_HostMemory_filter : filterRoom up = true ∧ filterRoom (fullFilter (max 1 Config.snoopLines)) = false ∧
    (∀ n, Tab.find (fullFilter n).hif.lines 7 = none) ∧
    (let s := fullFilter 1
     Tab.find s.hif.lines 5 = some ⟨0, some 9, false⟩ ∧ s.hif.held = [(448, 64)] ∧ hdmOk s 448 = true ∧
     filterRoom { s with hif := { s.hif with lines := Tab.erase s.hif.lines 5 } } = true) := by
  refine ⟨?_, ?_, fun n => ?_, by decide +kernel, rfl, by decide +kernel, ?_⟩
  · exact decide_eq_true (Nat.lt_of_lt_of_le (by decide) (Nat.le_max_left 1 Config.snoopLines))
  · exact decide_eq_false (by rw [show (fullFilter (max 1 Config.snoopLines)).hif.lines.length = _ from List.length_replicate]; omega)
  · show Tab.find (List.replicate n (5, _)) 7 = none
    induction n with
    | zero => rfl
    | succ n ih => simpa [Tab.find, List.replicate_succ] using ih
  · exact decide_eq_true (Nat.lt_of_lt_of_le (by decide) (Nat.le_max_left 1 Config.snoopLines))

/-- Ring 63 of four entries: its fields, for queue 9 with the settings given. -/
def ringUp (dir head tail : Nat) (s : State) : State :=
  wrs s [(Fd.hifRingCtlEn 63, 1), (Fd.hifRingCtlDir 63, dir), (Fd.hifRingCtlLog2 63, 2), (Fd.hifRingCtlQueue 63, 9),
    (Fd.hifRingCtlVec 63, 5), (Fd.hifRingHeadIndex 63, head), (Fd.hifRingTailIndex 63, tail)]

/-- The window of queue 4095: its enqueue and dequeue places, and the edges of the ranges around them. -/
theorem wit_HostQueuesAndRings_windows : BarOpen up ∧ 0x10000 * 4095 + 0xFFFF < 2 ^ 28 ∧ (0x3F : Nat) < 0x40 ∧ (0x40 : Nat) ≤ 0x40 ∧
    (List.replicate 64 (0 : Byte)).length = 64 ∧ (List.replicate 63 (0 : Byte)).length < 64 ∧ rd (upR [(Fd.hifLinkIde, 3)]) Fd.hifLinkIde = 3 ∧
    ({ up with hif := hifInit } : State).hif.cfg.decode = false ∧ rd up Fd.hifLinkIde ≠ 3 :=
  ⟨⟨by decide +kernel, by decide +kernel, rfl⟩, by decide, by decide, by decide, rfl, by decide, by decide +kernel, rfl, by decide +kernel⟩

theorem wit_HostQueuesAndRings : hostUp up = true ∧ cxlUp up = true ∧ up.qmu.waiting = [] ∧ up.qmu.plans = [] ∧
    (let s := ringUp 0 (2 ^ 31 - 2) 2 (queueAt (2 ^ 31) 0 oneItem)
     rdb s (Fd.hifRingCtlEn 63) = true ∧ rdb s (Fd.hifRingCtlDir 63) = false ∧ ringUsed s 63 = ringSize s 63 ∧
      bit (deqCell s prodHif (rd s (Fd.hifRingCtlQueue 63))).2.2 63 = true) ∧
    (let s := ringUp 0 (2 ^ 31 - 1) 2 (queueAt (2 ^ 31) 0 oneItem)
     ringUsed s 63 ≠ ringSize s 63 ∧ bit (deqCell s prodHif (rd s (Fd.hifRingCtlQueue 63))).2.2 63 = true) ∧
    (let waits (s : State) : Bool :=
       let b := settle { s with hif := { s.hif with dcoh := [(ringEntry s 63 (2 ^ 31 - 1) / 64, false)] } }
       accepts b 9 && !roomIn b 9 && (queue b 9).hostDrop == 0
     let s := ringUp 1 (2 ^ 31 - 1) 0 (queueAt (2 ^ 31) 2 oneItem)
     let t := ringUp 1 (2 ^ 31 - 1) 0 (queueAt (2 ^ 31) 3 oneItem)
     cxlUp s = true ∧ rd s Fd.hifLinkIde ≠ 3 ∧ s.hif.dcoh = [] ∧ rd s (Fd.hifRingHeadIndex 63) = 2 ^ 31 - 1 ∧
     rdb s (Fd.hifRingCtlDir 63) = true ∧ ringUsed s 63 ≠ 0 ∧ waits s = true ∧ waits t = false ∧ ringUsed t 63 ≠ 0) ∧
    (let s := ringUp 0 (2 ^ 31 - 1) 2 up
     let ahead (v : Nat) := (v % 2 ^ 31 + 2 ^ 31 - rd s (Fd.hifRingHeadIndex 63)) % 2 ^ 31
     stageEnded s 4 = true ∧ stageEnded State.reset 4 = false ∧ ringUsed s 63 = 3 ∧ ringUsed s 63 < ahead 3 ∧ ahead 2 ≤ ringUsed s 63 ∧
     (rd s (Fd.hifRingTailIndex 63) + 2 ^ 31 - 2) % 2 ^ 31 = 0 ∧ (rd s (Fd.hifRingTailIndex 63) + 2 ^ 31 - 1) % 2 ^ 31 ≠ 0 ∧
     vecMasked { s with hif := { s.hif with msix := [(23, 0)] } } 5 = false) ∧
    (let s := ringUp 1 (2 ^ 31 - 1) 0 up
     let ahead (v : Nat) := (v % 2 ^ 31 + 2 ^ 31 - rd s (Fd.hifRingHeadIndex 63)) % 2 ^ 31
     rdb s (Fd.hifRingCtlDir 63) = true ∧ ringSize s 63 < ahead 4 ∧ ahead 3 ≤ ringSize s 63) := by decide +kernel
/-! The security controller. Whether a manifest's signature, its key and its digests pass is not the model's to say (log entry 7): those
hypotheses of SecUpdates, PldmUpdates and FloorsNeverFall stand here as they are. -/

/-- up with the security controller's own state, and fields. -/
def upS (f : Sec → Sec) (l : List (Fld × Nat)) : State := { wrs up l with sec := f up.sec }

/-- A well-formed manifest for PYK-1616-F: every image of one byte at SVN 4, from record versions 1 to 1, digests 0. -/
def manifest : List Byte :=
  let head := leBytes 4 0x4D465950 ++ leBytes 2 1 ++ leBytes 1 6 ++ [1] ++ leBytes 4 9 ++ leBytes 2 1 ++ [0, 0] ++ leBytes 4 640
  let entry (c : Nat) := leBytes 1 c ++ [0] ++ leBytes 2 1 ++ leBytes 2 1 ++ leBytes 2 4 ++ leBytes 4 9 ++ leBytes 4 1 ++ List.replicate 48 0
  head ++ List.replicate 44 0 ++ components.flatMap entry ++ List.replicate 192 0

/-- The fields that BEGIN checks pass; an empty manifest has none of them. -/
theorem wit_SecUpdates_begin : manifest.length = 640 ∧ fieldLE manifest 0 4 = 0x4D465950 ∧ fieldLE manifest 4 2 = 1 ∧ fieldLE manifest 6 1 = 6 ∧
    fieldLE manifest 16 4 = 640 ∧ fieldLE manifest 20 44 = 0 ∧ bit (fieldLE manifest 12 2) 0 = true ∧
    (∀ c ∈ components, entryField manifest c 0 1 = c ∧ entrySame manifest c = false ∧ 1 ≤ entrySize manifest c ∧
      entrySize manifest c ≤ bankBytes c ∧ entrySrecMin manifest c ≤ 1 ∧ 1 ≤ entrySrec manifest c) := by decide +kernel

theorem wit_SecUpdates_fault : manifestFault up (windowBytes up 640) = some 0x11 := by
  unfold manifestFault
  exact if_pos (Or.inl (by decide +kernel))

theorem wit_SecUpdates_mailbox : secUp up = true ∧ secBusy up = false ∧ owner up = 0 ∧ secBusy (upR [(Fd.secMbStsBusy, 1)]) = true ∧
    owner (upS (fun x => { x with phase := 1 }) [(Fd.secMbStsOwner, 2)]) = 2 ∧ owner (upS (fun x => { x with phase := 1 }) [(Fd.secMbStsOwner, 1)]) = 1 ∧
    up.sec.phase = 0 ∧ secUp State.reset = false ∧ (upS (fun x => { x with phase := 4 }) []).sec.phase = 4 ∧ up.sec.phase < 3 ∧ 3 ≤ (upS (fun x => { x with phase := 3 }) []).sec.phase ∧ up.sec.phase ≠ 1 ∧ up.sec.switched = false ∧
    (let s := upS (fun x => { x with phase := 1, manifest := manifest }) [(Fd.secMbStsOwner, 1), (Fd.secMbCmdComp, 6), (Fd.secMbCmdLen, 1)]
     s.sec.phase = 1 ∧ rd s Fd.secMbCmdComp = 6 ∧ rd s Fd.secMbCmdLen = 1 ∧ entrySame manifest 6 = false ∧
     16 * rd s Fd.secMbCmdOff = (bankB s 6).written ∧ (bankB s 6).written + 1 ≤ entrySize manifest 6) ∧
    (let s := upS (fun x => { x with phase := 2 }) [(Fd.secActTurn, 2)]
     s.sec.phase = 2 ∧ turnNo s + 2 ≤ rd s Fd.secActTurn ∧ rd up Fd.secActTurn < turnNo up + 2) ∧
    (upS (fun x => { x with switched := true }) []).sec.switched = true ∧
    (upS (fun x => { x with cmd := some ⟨2, 6, [1], 1, 0⟩ }) []).sec.cmd = some ⟨2, 6, [1], 1, 0⟩ := by decide +kernel

/-- A command VERIFY under way, with every image written; its digests are left to the hash. -/
theorem wit_SecUpdates_verify :
    let banks := components.map fun c => (c, (⟨[7], 1, false⟩ : Bank))
    let s := upS (fun x => { x with phase := 1, manifest := manifest, cmd := some ⟨3, 0, [], 1, 0⟩, slotB := banks, floors := [(6, 4)] }) []
    s.sec.cmd = some ⟨3, 0, [], 1, 0⟩ ∧ (∀ d ∈ components, entrySame manifest d = false ∧ (bankB s d).written = entrySize manifest d) ∧
    (∀ d ∈ components, floorOf s d ≤ entrySvn manifest d) ∧
    (∃ d ∈ components, entrySvn manifest d < floorOf { s with sec := { s.sec with floors := [(6, 5)] } } d) := by
  decide +kernel

/-- Armed for turn 2, with one answer missing; the same when a power transition is under way. -/
theorem wit_SecUpdates_ready : let s := upS (fun x => { x with phase := 3, turn := 2, manifest := manifest, running := some manifest, ready := [1, 2, 3, 4, 5] }) []
    s.sec.phase = 3 ∧ 6 ∉ s.sec.ready ∧ turnNo s < s.sec.turn ∧ ¬ (turnNo s + 1 = s.sec.turn ∧ s.turn.guardAt ≤ s.now) ∧
    entrySrecMin s.sec.manifest 6 ≤ entrySrec (runningManifest s) 6 ∧ entrySrec (runningManifest s) 6 ≤ entrySrec s.sec.manifest 6 ∧
    6 ≤ (insertNat s.sec.ready 6).length ∧ (insertNat [1, 2, 3, 4] 6).length < 6 ∧ (heldUp s && spansTurn s 2) = false ∧
    (let p := { wrs s [(Fd.modulePwrBusy, 1), (Fd.modulePwrState, 2)] with boot := { s.boot with moving := some 2 } }
     heldUp p && spansTurn p p.sec.turn) = true ∧ (heldUp (wr s Fd.modulePwrBusy 1) && spansTurn (wr s Fd.modulePwrBusy 1) 2) = false ∧ ({ s.sec with turn := 1 } : Sec).turn ≤ turnNo s + 1 := by decide +kernel

theorem wit_PldmUpdates_rom : (∀ l ∈ [none, some [(7 : Byte)]], let s := { State.reset with boot := { up.boot with stagesDone := [] }, mmc := { mmcInit with rom := l } }
      s.boot.powered = true ∧ stageEnded s 1 = false ∧ s.mmc.rom = l) ∧ ([7] : List Byte) ≠ [] ∧ [(7 : Byte)].length + 1024 ≤ bankBytes 1 := by decide +kernel

theorem wit_PldmUpdates : up.boot.powered = true ∧ up.mmc.rom = none ∧ stageEnded up 1 = true ∧ secUp up = true ∧ owner up ≠ 1 ∧
    owner (upS (fun x => { x with phase := 1 }) [(Fd.secMbStsOwner, 1)]) = 1 ∧ up.sec.pldmOpen = false ∧
    (let s := upS (fun x => { x with phase := 1, manifest := manifest, pldmOpen := true, pldmComp := 6 }) [(Fd.secMbStsOwner, 2)]
     s.sec.pldmOpen = true ∧ secBusy s = false ∧ owner s = 2 ∧ s.sec.phase = 1 ∧ s.sec.pldmComp = 6 ∧ entrySame manifest 6 = false ∧
     (bankB s 6).written + 1 ≤ entrySize manifest 6 ∧ s.sec.switched = false ∧ secBusy (wr s Fd.secMbStsBusy 1) = true) ∧
    (List.replicate 1024 (0 : Nat)).length = 1024 ∧ 1024 < (List.replicate 1025 (0 : Nat)).length ∧
    (upS (fun x => { x with phase := 2 }) []).sec.phase = 2 := by decide +kernel

theorem wit_SpdmMessages : (∀ t ∈ [Transport.doe, .mctp], trUp up t = true ∧ negoOf up t = 0 ∧ sessionOf up t = none ∧
      (∀ n ∈ [1, 2, 3], negoOf (upS (fun x => { x with nego := ⟨n, n⟩ }) []) t = n) ∧
      (∀ st ∈ [1, 2], sessionOf (upS (fun x => { x with sessions := [⟨t, st, 0⟩] }) []) t = some ⟨t, st, 0⟩)) ∧
    up.sec.sessions.length < 2 ∧ (∀ a ∈ [5, 6], 5 ≤ a) ∧ (∃ a ∈ [9, 4], a < 5) ∧ up.hif.held = [] ∧ up.hif.lines = [] ∧
    secBusy (upR [(Fd.secMbStsBusy, 1)]) = true ∧ trUp (upR [(Fd.secMbStsBusy, 1)]) .doe = true ∧ rd (upR [(Fd.hifLinkIde, 1)]) Fd.hifLinkIde = 1 := by decide +kernel

/-- R329, R373 and the step: EmptyDequeue rests on wit_DequeueCell, FloorsNeverFall on wit_SecUpdates_verify. The reset floors are 0. -/
theorem wit_FloorsNeverFall : (∀ c ∈ components, floorOf State.reset c = 0) ∧ (3 : Nat) ≠ 2 := by decide +kernel

end Sys2Proof.Tests
end

/-! Register writes as Sets says them: what a write of several fields leaves as it was, and a command that ends with one. -/

namespace Sys2Proof.Machine

theorem rd_wrs_other {f : Fld} : ∀ {l : List (Fld × Nat)} {s : State}, (∀ p ∈ l, f.key ≠ p.1.key) → rd (wrs s l) f = rd s f
  | [], _, _ => rfl
  | p :: l, s, h => by
    obtain ⟨hp, hl⟩ := List.forall_mem_cons.1 h
    exact (rd_wrs_other (s := wr s p.1 p.2) hl).trans (rd_wr_other hp)

/-- Fields with keys of their own, written with values in their widths, read back so. -/
theorem rd_wrs_mem {l : List (Fld × Nat)} : ∀ {s : State}, l.Pairwise (fun p q => p.1.key ≠ q.1.key) → (∀ p ∈ l, p.2 < 2 ^ p.1.wid) →
    ∀ p ∈ l, rd (wrs s l) p.1 = p.2 := by
  induction l with
  | nil => simp
  | cons q l ih =>
    intro s hd hv p hp
    obtain ⟨hq, hl⟩ := List.pairwise_cons.1 hd
    obtain ⟨hqv, hlv⟩ := List.forall_mem_cons.1 hv
    rcases List.mem_cons.1 hp with rfl | hp
    · calc rd (wrs s (p :: l)) p.1 = rd (wr s p.1 p.2) p.1 := rd_wrs_other (s := wr s p.1 p.2) hq
        _ = p.2 := by rw [rd_wr_same, Nat.mod_eq_of_lt hqv]
    · exact ih (s := wr s q.1 q.2) hl hlv p hp

theorem wrs_eq_regs : ∀ {l : List (Fld × Nat)} {s : State}, wrs s l = { s with regs := (wrs s l).regs }
  | [], _ => rfl
  | p :: l, s => wrs_eq_regs (l := l) (s := wr s p.1 p.2)

@[simp] theorem wrs_turn {l : List (Fld × Nat)} {s : State} : (wrs s l).turn = s.turn := by rw [wrs_eq_regs]

/-- A command that writes such fields and nothing else completes as Sets says. -/
theorem completes_wrs {i : Instr} {s : State} {l : List (Fld × Nat)} (hi : exec i s = ok (wrs s l))
    (hd : l.Pairwise fun p q => p.1.key ≠ q.1.key) (hv : ∀ p ∈ l, p.2 < 2 ^ p.1.wid) : Completes i s fun s' => Sets s s' l :=
  ⟨_, hi, rd_wrs_mem (s := s) hd hv, fun _ hf => rd_wrs_other (s := s) hf, by rw [wrs_eq_regs]⟩

/-- A command that writes one field and nothing else completes as Sets says. -/
theorem completes_wr {i : Instr} {s : State} {f : Fld} {v : Nat} (hi : exec i s = ok (wr s f v)) :
    Completes i s fun s' => Sets s s' [(f, v % 2 ^ f.wid)] := by
  refine completes_wrs ?_ (List.pairwise_singleton _ _) (by simpa using Nat.mod_lt v (Nat.two_pow_pos f.wid))
  simpa [wrs, wr] using hi

/-! A host write that overlaps one read-write register (R314). -/

/-- The host's write of an aligned access to the MODULE page, with the page up and the BAR decoded. -/
theorem execRegisterWrite_module {s : State} {o size : Nat} {v : BitVec 64} (hup : blockUp s .module = true) (hbar : BarOpen s)
    (ho : o < 0x1000) (hsize : size = 1 ∨ size = 2 ∨ size = 4 ∨ size = 8) (hal : o % size = 0) :
    execRegisterWrite o size v false s = ok (writePage s .module o size v.toNat) := by
  obtain ⟨hlink, hide, hdec⟩ := hbar
  have hpage : o - o % 0x1000 = 0 := by omega
  have hat : writeAt s o size v.toNat = writePage s .module o size v.toNat := by
    unfold writeAt
    rw [if_neg (by omega), if_neg (by omega), if_neg (by omega), hpage, show pageBlock 0 = some .module from rfl]
    simp only [hup, if_true, Nat.mod_eq_of_lt ho]
  simp [execRegisterWrite, barAccess, fromHost, ideStopped, hlink, hide, hdec, hsize, hal, hat]

/-- The row of MODULE_STEP_NEXT in the map of the MODULE page. -/
def stepNextRow : RRow := ⟨"MODULE_STEP_NEXT", 0x120, 4, 8, 32, false, [⟨31, 0, .rw, 0x0⟩]⟩

/-- An aligned 32-bit access at MODULE_STEP_NEXT p overlaps that register alone. -/
theorem hits_stepNext {p : Nat} (hp : p < 8) : hits (RegRows.every ++ blockRows .module) (0x120 + 4 * p) 4 = [(stepNextRow, p)] := by
  revert p
  decide +kernel

/-- A whole write of a 32-bit register at its own address: every bit is written and none is kept. -/
theorem regW_whole {s : State} {r : RRow} {a v : Nat} (hw : r.width = 32) : (regW s r a a 4 v).whole = v % 2 ^ 32 := by
  simp [regW, hw]

theorem writePage_stepNext {s : State} {p v : Nat} (hp : p < 8) :
    writePage s .module (0x120 + 4 * p) 4 v = wr s (Fd.moduleStepNextStep p) (v % 2 ^ 32) := by
  have hrow : writeReg s .module stepNextRow p (0x120 + 4 * p) 4 v =
      wr s (Fd.moduleStepNextStep p) (bits (regW s stepNextRow (0x120 + 4 * p) (0x120 + 4 * p) 4 v).whole 31 0) := by
    simp [writeReg, stepNextRow, writeSpecial, writePlain, writeField, blockPage, RField.fld, Fd.moduleStepNextStep]
  simp only [writePage, hits_stepNext hp, List.foldl_cons, List.foldl_nil, blockPage, Nat.zero_add, hrow, regW_whole (r := stepNextRow) rfl]
  simp [bits]

/-- R193, first step: the write of MODULE_STEP_NEXT p. -/
theorem stepNextWrite_sets {s : State} {p : Nat} (v : BitVec 64) (hp : p < 8) (hup : blockUp s .module = true) (hbar : BarOpen s) :
    Completes (.registerWrite (0x120 + 4 * p) 4 v false) s fun s' => Sets s s' [(Fd.moduleStepNextStep p, v.toNat % 2 ^ 32)] := by
  have h : exec (.registerWrite (0x120 + 4 * p) 4 v false) s = ok (wr s (Fd.moduleStepNextStep p) (v.toNat % 2 ^ 32)) :=
    (execRegisterWrite_module hup hbar (by omega) (by simp) (by omega)).trans (by rw [writePage_stepNext hp])
  simpa [Fd.moduleStepNextStep] using completes_wr h

/-! The stage (R193). -/

theorem execModuleStepApplyWrite_armed {s : State} {p : Nat} {v : BitVec 64} (hp : p < 8) (hup : hubUp s = true)
    (hn : turnNo s + 2 ≤ bits v.toNat 47 0) : execModuleStepApplyWrite p v s =
      ok (wrs s [(Fd.moduleStepApplyTurn p, bits v.toNat 47 0), (Fd.moduleStepApplyArmed p, 1)]) := by
  simp [execModuleStepApplyWrite, hup, Nat.not_le.2 hp, Nat.not_lt.2 hn]

theorem execModuleStepApplyWrite_rejected {s : State} {p : Nat} {v : BitVec 64} (hp : p < 8) (hup : hubUp s = true)
    (hn : bits v.toNat 47 0 < turnNo s + 2) : execModuleStepApplyWrite p v s = ok (setStep s Fd.moduleStepStsReject p) := by
  simp [execModuleStepApplyWrite, hup, Nat.not_le.2 hp, hn]

/-- R193, second step: the write of MODULE_STEP_APPLY p with a turn at least two ahead. -/
theorem stepApplyWrite_arms {s : State} {p : Nat} {v : BitVec 64} (hp : p < 8) (hup : hubUp s = true)
    (hn : turnNo s + 2 ≤ bits v.toNat 47 0) : Completes (.moduleStepApplyWrite p v) s fun s' =>
      Sets s s' [(Fd.moduleStepApplyTurn p, bits v.toNat 47 0), (Fd.moduleStepApplyArmed p, 1)] := by
  refine completes_wrs (execModuleStepApplyWrite_armed hp hup hn) ?_ ?_
  · simp [Fd.moduleStepApplyTurn, Fd.moduleStepApplyArmed, Fld.key]
  · have hlt : bits v.toNat 47 0 < 2 ^ 48 := Nat.mod_lt _ (by decide)
    simpa [Fd.moduleStepApplyTurn, Fd.moduleStepApplyArmed] using hlt

/-- R193: the write of MODULE_STEP_APPLY p with a turn less than two ahead. -/
theorem stepApplyWrite_rejects {s : State} {p : Nat} {v : BitVec 64} (hp : p < 8) (hup : hubUp s = true)
    (hn : bits v.toNat 47 0 < turnNo s + 2) : Completes (.moduleStepApplyWrite p v) s fun s' =>
      Sets s s' [(Fd.moduleStepStsReject, (rd s Fd.moduleStepStsReject ||| 2 ^ p) % 256)] :=
  completes_wr (execModuleStepApplyWrite_rejected hp hup hn)

/-! The turn start (R193, R194). -/

/-- The register fields that the turn start may write for program q. -/
def stepWritten (q : Nat) : List Fld :=
  [Fd.moduleStepStep q, Fd.moduleStepApplyArmed q, Fd.moduleStepStsResync, Fd.moduleStepResyncsCount, Fd.moduleStepStsDropped]

/-- The register fields of program p that its stage is made of. -/
def stepStage (p : Nat) : List Fld :=
  [Fd.moduleStepStep p, Fd.moduleStepNextStep p, Fd.moduleStepApplyArmed p, Fd.moduleStepApplyTurn p]

theorem rd_stepTurn_other {s : State} {n q : Nat} {f : Fld} (hf : ∀ g ∈ stepWritten q, f.key ≠ g.key) :
    rd (stepTurn n s q) f = rd s f := by
  simp only [stepWritten, List.forall_mem_cons, List.not_mem_nil, false_implies, implies_true, and_true] at hf
  obtain ⟨hstep, harmed, hresync, hcount, hdropped⟩ := hf
  unfold stepTurn
  split <;> dsimp only <;> split
  · simp only [setStep, rd_wr_other hdropped, rd_wr_other harmed, rd_bump_other hcount, rd_wr_other hresync, rd_wr_other hstep]
  · simp only [setStep, rd_bump_other hcount, rd_wr_other hresync, rd_wr_other hstep]
  · exact rd_wrs_other (by simp [hstep, harmed])
  · rfl

@[simp] theorem stepTurn_turn {s : State} {n q : Nat} : (stepTurn n s q).turn = s.turn := by
  unfold stepTurn
  split <;> dsimp only <;> split <;> simp [setStep]

/-- The stage of a program shares no field with what another program's step word may write. -/
theorem stepStage_key_ne {p q : Nat} (hp : p < 8) (hq : q < 8) (hpq : q ≠ p) :
    ∀ f ∈ stepStage p, ∀ g ∈ stepWritten q, f.key ≠ g.key := by
  have hall : ∀ p < 8, ∀ q < 8, q ≠ p → ∀ f ∈ stepStage p, ∀ g ∈ stepWritten q, f.key ≠ g.key := by decide +kernel
  exact hall p hp q hq hpq

/-- The step words of other programs leave the stage of program p as it was. -/
theorem rd_foldl_stepTurn {n p : Nat} {f : Fld} (hp : p < 8) (hf : f ∈ stepStage p) {l : List Nat} :
    ∀ {s : State}, (∀ q ∈ l, q < 8 ∧ q ≠ p) → rd (l.foldl (stepTurn n) s) f = rd s f := by
  induction l with
  | nil => exact fun _ => rfl
  | cons q l ih =>
    intro s h
    obtain ⟨⟨hq, hpq⟩, hl⟩ := List.forall_mem_cons.1 h
    rw [List.foldl_cons, ih hl]
    exact rd_stepTurn_other (stepStage_key_ne hp hq hpq f hf)

theorem foldl_stepTurn_turn {n : Nat} {l : List Nat} : ∀ {s : State}, (l.foldl (stepTurn n) s).turn = s.turn := by
  induction l with
  | nil => exact rfl
  | cons q l ih =>
    intro s
    rw [List.foldl_cons, ih, stepTurn_turn]

/-- The eight programs, split at program p. -/
theorem range_eight_split {p : Nat} (hp : p < 8) :
    ∃ l r, List.range 8 = l ++ p :: r ∧ (∀ q ∈ l, q < 8 ∧ q ≠ p) ∧ ∀ q ∈ r, q < 8 ∧ q ≠ p := by
  obtain ⟨l, r, hlr⟩ := List.append_of_mem (List.mem_range.2 hp)
  have hnot : p ∉ l ++ r := (List.nodup_middle.1 (hlr ▸ List.nodup_range)).notMem
  have hother : ∀ q ∈ l ++ r, q < 8 ∧ q ≠ p := fun q hq =>
    ⟨List.mem_range.1 (hlr ▸ List.perm_middle.mem_iff.2 (List.mem_cons_of_mem p hq)), fun e => hnot (e ▸ hq)⟩
  exact ⟨l, r, hlr, (List.forall_mem_append.1 hother).1, (List.forall_mem_append.1 hother).2⟩

/-- At the start of turn n the stage of program p changes as its own step word says, from a state that shows the same stage. -/
theorem stepsTurn_eq_stepTurn {s : State} {n p : Nat} (hp : p < 8) : ∃ s1 : State, s1.turn = s.turn ∧
    (∀ f ∈ stepStage p, rd s1 f = rd s f) ∧ ∀ f ∈ stepStage p, rd (stepsTurn s n) f = rd (stepTurn n s1 p) f := by
  obtain ⟨l, r, hlr, hl, hr⟩ := range_eight_split hp
  refine ⟨l.foldl (stepTurn n) s, foldl_stepTurn_turn, fun f hf => rd_foldl_stepTurn hp hf hl, fun f hf => ?_⟩
  calc rd (stepsTurn s n) f = rd (r.foldl (stepTurn n) (stepTurn n (l.foldl (stepTurn n) s) p)) f := by
        rw [stepsTurn, hlr, List.foldl_append, List.foldl_cons]
        simp only [rd]
    _ = rd (stepTurn n (l.foldl (stepTurn n) s) p) f := rd_foldl_stepTurn hp hf hr

/-- The step word of a program with no resynchronisation due, whose stage is armed for turn n. -/
theorem stepTurn_armed {s : State} {n p : Nat} (hres : s.turn.resync.find? (fun r => r.1 == p) = none)
    (harmed : rdb s (Fd.moduleStepApplyArmed p) = true) (hturn : rd s (Fd.moduleStepApplyTurn p) = n) :
    stepTurn n s p = wrs s [(Fd.moduleStepStep p, rd s (Fd.moduleStepNextStep p)), (Fd.moduleStepApplyArmed p, 0)] := by
  simp [stepTurn, hres, harmed, hturn]

/-- The same with the stage not armed for turn n. -/
theorem stepTurn_unarmed {s : State} {n p : Nat} (hres : s.turn.resync.find? (fun r => r.1 == p) = none)
    (hn : rdb s (Fd.moduleStepApplyArmed p) = false ∨ rd s (Fd.moduleStepApplyTurn p) ≠ n) : stepTurn n s p = s := by
  rcases hn with h | h <;> simp [stepTurn, hres, h]

/-- R193: at the start of the armed turn STEP takes the value of NEXT, ARMED clears and NEXT stays. -/
theorem stepsTurn_armed {s : State} {n p : Nat} (hp : p < 8) (hres : s.turn.resync.find? (fun r => r.1 == p) = none)
    (harmed : rdb s (Fd.moduleStepApplyArmed p) = true) (hturn : rd s (Fd.moduleStepApplyTurn p) = n) :
    rd (stepsTurn s n) (Fd.moduleStepStep p) = rd s (Fd.moduleStepNextStep p) % 2 ^ 32 ∧
    rd (stepsTurn s n) (Fd.moduleStepApplyArmed p) = 0 ∧
    rd (stepsTurn s n) (Fd.moduleStepNextStep p) = rd s (Fd.moduleStepNextStep p) := by
  obtain ⟨s1, hs1, hstage, hrd⟩ := stepsTurn_eq_stepTurn (s := s) (n := n) hp
  simp only [stepStage, List.forall_mem_cons, List.not_mem_nil, false_implies, implies_true, and_true] at hstage hrd
  obtain ⟨-, hnext1, harmed1, hturn1⟩ := hstage
  obtain ⟨hstep, hnext, harmed', -⟩ := hrd
  rw [stepTurn_armed (hs1 ▸ hres) (by rw [rdb, harmed1]; exact harmed) (hturn1.trans hturn)] at hstep hnext harmed'
  have hkeys : (Fd.moduleStepStep p).key ≠ (Fd.moduleStepApplyArmed p).key ∧ (Fd.moduleStepNextStep p).key ≠ (Fd.moduleStepStep p).key ∧
      (Fd.moduleStepNextStep p).key ≠ (Fd.moduleStepApplyArmed p).key := by
    simp only [Fld.key, Fd.moduleStepStep, Fd.moduleStepApplyArmed, Fd.moduleStepNextStep]
    omega
  obtain ⟨hsa, hns, hna⟩ := hkeys
  refine ⟨hstep.trans ?_, harmed'.trans ?_, hnext.trans ?_⟩
  · simp only [wrs, List.foldl_cons, List.foldl_nil, rd_wr_other hsa, rd_wr_same, hnext1]
    rfl
  · simp only [wrs, List.foldl_cons, List.foldl_nil, rd_wr_same, Nat.zero_mod]
  · rw [rd_wrs_other (by simp [hns, hna]), hnext1]

/-- R193: at the start of a turn that a stage is not armed for, the stage stays. -/
theorem stepsTurn_unarmed {s : State} {n p : Nat} (hp : p < 8) (hres : s.turn.resync.find? (fun r => r.1 == p) = none)
    (hn : rdb s (Fd.moduleStepApplyArmed p) = false ∨ rd s (Fd.moduleStepApplyTurn p) ≠ n) :
    ∀ f ∈ stepStage p, rd (stepsTurn s n) f = rd s f := by
  obtain ⟨s1, hs1, hstage, hrd⟩ := stepsTurn_eq_stepTurn (s := s) (n := n) hp
  have hn1 : rdb s1 (Fd.moduleStepApplyArmed p) = false ∨ rd s1 (Fd.moduleStepApplyTurn p) ≠ n := by
    rwa [rdb, hstage _ (by simp [stepStage]), hstage _ (by simp [stepStage])]
  intro f hf
  rw [hrd f hf, stepTurn_unarmed (hs1 ▸ hres) hn1, hstage f hf]

/-- Settles O22: each write sets the fields of its own register, and the turn start goes through the programs one by one, where no
program's step word touches another's stage. -/
theorem stepStaging : Obligations.StepStaging := by
  unfold Obligations.StepStaging
  intro s p hp
  refine ⟨fun v hup hbar => stepNextWrite_sets v hp hup hbar,
    fun v hup => ⟨fun hn => stepApplyWrite_arms hp hup hn, fun hn => stepApplyWrite_rejects hp hup hn⟩, fun n hres => ?_⟩
  by_cases harmed : rdb s (Fd.moduleStepApplyArmed p) = true ∧ rd s (Fd.moduleStepApplyTurn p) = n
  · obtain ⟨hstep, hclear, hnext⟩ := stepsTurn_armed hp hres harmed.1 harmed.2
    exact ⟨fun _ _ => ⟨hstep, hclear⟩, fun hn => absurd harmed (by simpa [or_iff_not_imp_left] using hn), hnext⟩
  · have hn : rdb s (Fd.moduleStepApplyArmed p) = false ∨ rd s (Fd.moduleStepApplyTurn p) ≠ n := by
      simpa [or_iff_not_imp_left] using harmed
    have hkept := stepsTurn_unarmed hp hres hn
    exact ⟨fun ha ht => absurd ⟨ha, ht⟩ harmed, fun _ => ⟨hkept _ (by simp [stepStage]), hkept _ (by simp [stepStage])⟩,
      hkept _ (by simp [stepStage])⟩

end Sys2Proof.Machine

/-! The clock through settling: what was due happens in its own cycle, and the clock then stands where it stood. -/

namespace Sys2Proof.Machine

theorem foldl_now {α : Type} {f : State → α → State} (hf : ∀ s a, (f s a).now = s.now) {l : List α} :
    ∀ {s : State}, (l.foldl f s).now = s.now := by
  induction l with
  | nil => exact rfl
  | cons a l ih =>
    intro s
    rw [List.foldl_cons, ih, hf]

@[simp] theorem countSweepBy_now {c t : Nat} {s : State} {w : Sweep} : (countSweepBy c t s w).now = s.now := rfl

@[simp] theorem countLookupBy_now {c t : Nat} {s : State} {l : Lookup} : (countLookupBy c t s l).now = s.now := rfl

@[simp] theorem countNet_now {c t : Nat} {s : State} {d : Dispatch} : (countNet c t s d).now = s.now := by
  unfold countNet
  dsimp only
  split <;> rfl

@[simp] theorem countTile_now {c t : Nat} {s : State} : (countTile c s t).now = s.now := by
  unfold countTile
  dsimp only
  rw [foldl_now fun _ _ => countLookupBy_now, foldl_now fun _ _ => countNet_now, foldl_now fun _ _ => countSweepBy_now]

@[simp] theorem countImport_now {c k : Nat} {s : State} : (countImport c s k).now = s.now := by
  unfold countImport
  dsimp only
  split
  · split
    · split <;> rfl
    · rfl
  · rfl

@[simp] theorem countAqWait_now {s : State} : (countAqWait s).now = s.now := by
  unfold countAqWait
  split <;> rfl

@[simp] theorem setCopy_now {s : State} {e : Nat} {c : Copy} : (setCopy s e c).now = s.now := rfl

@[simp] theorem countWaits_now {e : Nat} {s : State} {c : Copy} : (countWaits e s c).now = s.now := by
  unfold countWaits
  split <;> simp only [apply_ite State.now, bump_now, setCopy_now, ite_self]

@[simp] theorem countAllWaits_now {s : State} : (countAllWaits s).now = s.now := by
  unfold countAllWaits
  dsimp only
  rw [foldl_now fun s p => foldl_now fun s c => ?_, countAqWait_now]
  split
  · exact countWaits_now
  · exact rfl

@[simp] theorem setPort_now {s : State} {p : Nat} {x : PortX} : (setPort s p x).now = s.now := rfl

@[simp] theorem markSent_now {s : State} {c : FabCell} {at_ : Nat} : (markSent s c at_).now = s.now := rfl

@[simp] theorem sendCell_now {s : State} {p t : Nat} {w : PortCell} : (sendCell s p t w).now = s.now := by
  unfold sendCell
  dsimp only
  simp only [emit_now, apply_ite State.now, markSent_now, setPort_now, bump_now, ite_self]

@[simp] theorem drainPort_now {p n : Nat} : ∀ {s : State}, (drainPort p n s).now = s.now := by
  induction n with
  | zero => exact rfl
  | succ n ih =>
    intro s
    unfold drainPort
    split
    · exact rfl
    · split
      · rw [ih, sendCell_now]
      · exact rfl

@[simp] theorem drainPorts_now {s : State} : (drainPorts s).now = s.now :=
  foldl_now fun _ _ => drainPort_now

@[simp] theorem countEnqWait_now {s : State} {c : Nat} : (countEnqWait s c).now = s.now := by
  unfold countEnqWait
  dsimp only
  split <;> rfl

@[simp] theorem settle_now {s : State} : (settle s).now = s.now := by
  unfold settle
  dsimp only
  rw [countEnqWait_now, drainPorts_now, countAllWaits_now, foldl_now fun _ _ => countImport_now, foldl_now fun _ _ => countTile_now]

@[simp] theorem settleTo_now {s : State} {c : Nat} : (settleTo s c).now = max s.now c := settle_now

/-! Dequeues that take no cell (R329). -/

/-- The grant comes in the first cycle in which the dequeue port is free. -/
@[simp] theorem grantDeq_now {s : State} {consumer : Nat} : (grantDeq s consumer).now = max s.now s.qmu.deqFree := by
  simp [grantDeq]

/-- The data word of an empty read, field by field. -/
theorem emptyWord_fields {q : Nat} (hq : q < 4096) (err : Bool) :
    bits (emptyWord q err) 63 63 = 0 ∧ bits (emptyWord q err) 62 61 = 0 ∧ bits (emptyWord q err) 60 60 = b2n err ∧
    bits (emptyWord q err) 59 56 = 0 ∧ bits (emptyWord q err) 55 44 = q ∧ bits (emptyWord q err) 43 0 = 0 := by
  have herr : b2n err < 2 := by cases err <;> decide
  simp only [bits, emptyWord, Nat.shiftRight_eq_div_pow]
  omega

theorem deqCell_broken {s : State} {consumer q : Nat} (h : (queue (grantDeq s consumer) q).broken = true) :
    deqCell s consumer q = (grantDeq s consumer, List.replicate 64 0, emptyWord q true) := by
  simp only [deqCell, h, if_true]

theorem deqCell_none {s : State} {consumer q : Nat} (hb : (queue (grantDeq s consumer) q).broken = false)
    (hn : (queue (grantDeq s consumer) q).next (grantDeq s consumer).now = none) :
    deqCell s consumer q = (grantDeq s consumer, List.replicate 64 0, emptyWord q false) := by
  simp only [deqCell, hb, hn, Bool.false_eq_true, if_false]

/-- The pool cells of a list that are in use have bad link pointers from now on (R337). -/
def failLinks (s : State) (bad : List Nat) : State :=
  { s with qmu := { s.qmu with badLinks := (bad.filter fun i => s.qmu.used.contains i).foldl insertNat s.qmu.badLinks } }

/-- The payload bytes of a dequeue as its consumer gets them: the host has the data word in the last eight. -/
def givenBytes (consumer : Nat) (pay : List Byte) (word : Nat) : List Byte :=
  if consumer = prodHif then pay.take 56 ++ leBytes 8 word else pay

theorem exec_dequeue {s : State} {consumer q : Nat} (bad : List Nat) (hc : consumer < 76) (hq : q < 4096) {s0 : State} {pay : List Byte}
    {word : Nat} (h : deqCell (failLinks s bad) consumer q = (s0, pay, word)) :
    exec (.dequeue consumer q bad) s = ok (emit s0 (.dequeued consumer (givenBytes consumer pay word) word)) := by
  have hex : exec (.dequeue consumer q bad) s = execDequeue consumer q bad s := rfl
  have hunit : ¬ (prodMmc ≤ consumer ∨ 4096 ≤ q) := by simp only [prodMmc]; omega
  rw [failLinks] at h
  rw [hex, execDequeue, if_neg hunit]
  simp only [h, givenBytes]

/-- The payload of an empty read is 0; the host's last eight bytes are the data word. -/
theorem givenBytes_zero {consumer word : Nat} : (givenBytes consumer (List.replicate 64 0) word).take 56 = List.replicate 56 0 ∧
    (givenBytes consumer (List.replicate 64 0) word).drop 56 = if consumer = prodHif then leBytes 8 word else List.replicate 8 0 := by
  unfold givenBytes
  split <;> simp

/-- Settles O23: a read that takes no cell leaves the state of the grant but for the message to its consumer. -/
theorem emptyDequeue : Obligations.EmptyDequeue := by
  unfold Obligations.EmptyDequeue
  intro s consumer q bad hc hq links s0 empty
  have hnow : s0.now = max s.now s.qmu.deqFree := grantDeq_now
  have hbroken : (queue s0 q).broken = true → deqCell (failLinks s bad) consumer q = (s0, List.replicate 64 0, emptyWord q true) :=
    deqCell_broken
  have hnone : (queue s0 q).broken = false → (queue s0 q).next s0.now = none →
      deqCell (failLinks s bad) consumer q = (s0, List.replicate 64 0, emptyWord q false) := deqCell_none
  clear_value s0
  have hempty : ∀ err, deqCell (failLinks s bad) consumer q = (s0, List.replicate 64 0, emptyWord q err) → empty (b2n err) := by
    intro err h
    obtain ⟨hvalid, hsopEop, herr, hprio, hqueue, hrest⟩ := emptyWord_fields hq err
    obtain ⟨hpay, hlast⟩ := givenBytes_zero (consumer := consumer) (word := emptyWord q err)
    exact ⟨_, exec_dequeue bad hc hq h, _, _, rfl, hvalid, hsopEop, herr, hprio, hqueue, hrest, hpay, hlast, fun _ => rfl, rfl, hnow⟩
  exact ⟨fun hb hn => hempty false (hnone hb hn), fun hb => hempty true (hbroken hb)⟩

end Sys2Proof.Machine

/-! The security controller through settling: what happens as the clock passes belongs to other units, so each of its operations leaves
the state of the security controller as it was. One lemma for each operation that settle can reach, in the order of the model. -/

namespace Sys2Proof.Machine

variable {s : State}

/-- A fold changes nothing that its step leaves alone. -/
theorem foldl_frame {σ α β : Type} {π : σ → β} {f : σ → α → σ} (hf : ∀ s a, π (f s a) = π s) {l : List α} :
    ∀ {s : σ}, π (l.foldl f s) = π s := by
  induction l with
  | nil => exact rfl
  | cons a t ih => exact ih.trans (hf _ a)

theorem foldl_sec {α : Type} {f : State → α → State} (hf : ∀ s a, (f s a).sec = s.sec) {l : List α} : (l.foldl f s).sec = s.sec :=
  foldl_frame (π := State.sec) hf

theorem foldl_fst_sec {α β : Type} {f : State × β → α → State × β} (hf : ∀ r a, (f r a).1.sec = r.1.sec) {l : List α}
    {r : State × β} : (l.foldl f r).1.sec = r.1.sec :=
  foldl_frame (π := fun r : State × β => r.1.sec) hf

/-! The shared operations. -/

@[simp] theorem wrs_sec {l} : (wrs s l).sec = s.sec := by
  unfold wrs
  exact foldl_sec fun _ _ => by simp

@[simp] theorem takeOut_sec {o n c f} : (takeOut s o n c f).1.sec = s.sec := rfl

@[simp] theorem crossLink_sec {l dir n c} : (crossLink s l dir n c).1.sec = s.sec := rfl

@[simp] theorem carry_sec {d e unit n c} : (carry s d e unit n c).1.sec = s.sec := by
  unfold carry
  dsimp only
  repeat' split
  · rfl
  · exact foldl_fst_sec fun _ _ => by simp
  · exact takeOut_sec.trans (foldl_fst_sec fun _ _ => by simp)

@[simp] theorem pageErrBy_sec {b idx tag info} : (pageErrBy s b idx tag info).sec = s.sec := by
  unfold pageErrBy
  split <;> rfl

@[simp] theorem pageErrInfo_sec {b info} : (pageErrInfo s b info).sec = s.sec := by simp [pageErrInfo]

@[simp] theorem pageErr_sec {b idx tag status} : (pageErr s b idx tag status).sec = s.sec := by simp [pageErr]

@[simp] theorem pageFlags_sec {b f} : (pageFlags s b f).sec = s.sec := rfl

@[simp] theorem allocCell_sec {pay} : (allocCell s pay).1.sec = s.sec := rfl

@[simp] theorem freeCells_sec {l} : (freeCells s l).sec = s.sec := rfl

@[simp] theorem addItem_sec {q i} : (addItem s q i).sec = s.sec := rfl

@[simp] theorem askEnq_sec {producer q prio c pay kind plan} : (askEnq s producer q prio c pay kind plan).sec = s.sec := rfl

@[simp] theorem enqCell_sec {producer q prio c pay} : (enqCell s producer q prio c pay).sec = s.sec := rfl

@[simp] theorem post_sec {producer q r} : (post s producer q r).sec = s.sec := rfl

@[simp] theorem postNow_sec {p} : (postNow s p).sec = s.sec := by
  unfold postNow
  rw [post_sec, foldl_sec fun _ _ => pageErr_sec, pageFlags_sec, foldl_sec fun _ _ => bump_sec, foldl_sec fun _ _ => notice_sec]

@[simp] theorem postLater_sec {p} : (postLater s p).sec = s.sec := rfl

@[simp] theorem postAt_sec {p} : (postAt s p).sec = s.sec := by
  unfold postAt
  split <;> simp

/-! Operand reads. -/

@[simp] theorem saveReads_sec {t a n} : (saveReads s t a n).sec = s.sec := by
  unfold saveReads
  dsimp only
  split <;> simp

@[simp] theorem snoopLines_sec {a n} : (snoopLines s a n).sec = s.sec := by
  unfold snoopLines
  exact foldl_sec fun _ _ => by simp

@[simp] theorem store_sec {a bs} : (store s a bs).sec = s.sec := by
  unfold store
  repeat' split
  all_goals simp

@[simp] theorem touchKiln_sec {c a n} : (touchKiln s c a n).sec = s.sec := by
  unfold touchKiln
  dsimp only
  repeat' split
  all_goals simp

@[simp] theorem storeUnit_sec {a bs} : (storeUnit s a bs).sec = s.sec := by
  unfold storeUnit
  dsimp only
  repeat' split
  all_goals simp

/-! The fabric memory agent. -/

@[simp] theorem setPort_sec {p x} : (setPort s p x).sec = s.sec := rfl

@[simp] theorem portTx_sec {req p at_ c} : (portTx s req p at_ c).sec = s.sec := rfl

@[simp] theorem markSent_sec {c at_} : (markSent s c at_).sec = s.sec := rfl

@[simp] theorem sendCell_sec {p t w} : (sendCell s p t w).sec = s.sec := by
  unfold sendCell
  split <;> simp

@[simp] theorem drainPort_sec {p n} : ∀ {s : State}, (drainPort p n s).sec = s.sec := by
  induction n with
  | zero => intro s; rfl
  | succ n ih =>
    intro s
    unfold drainPort
    repeat' split
    all_goals simp [ih]

@[simp] theorem drainPorts_sec : (drainPorts s).sec = s.sec := by
  unfold drainPorts
  exact foldl_sec fun _ _ => by simp

@[simp] theorem frtDrop_sec {f} : (frtDrop s f).sec = s.sec := by simp [frtDrop]

@[simp] theorem routeCell_sec {req at_ c} : (routeCell s req at_ c).sec = s.sec := by
  unfold routeCell
  dsimp only
  repeat' split
  all_goals simp

@[simp] theorem sendReq_sec {req at_ typ dst offset stream data} : (sendReq s req at_ typ dst offset stream data).sec = s.sec := by simp [sendReq]

@[simp] theorem sendWrite_sec {at_ dst stream l} : (sendWrite s at_ dst stream l).sec = s.sec := by
  unfold sendWrite
  exact foldl_sec fun _ _ => by simp

@[simp] theorem markSync_sec {stream dst} : (markSync s stream dst).sec = s.sec := rfl

@[simp] theorem addPend_sec {p} : (addPend s p).sec = s.sec := rfl

@[simp] theorem dropPends_sec {f} : (dropPends s f).sec = s.sec := rfl

/-! The code-product tables. -/

@[simp] theorem updLookup_sec {t l f} : (updLookup s t l f).sec = s.sec := rfl

@[simp] theorem countLookup_sec {t l n} : (countLookup s t l n).sec = s.sec := rfl

@[simp] theorem countLookupBy_sec {c t l} : (countLookupBy c t s l).sec = s.sec := rfl

@[simp] theorem writeLookup_sec {t l} : (writeLookup s t l).sec = s.sec := by simp [writeLookup]

/-! The numerics watch. -/

@[simp] theorem watchCompare_sec {t tag d num c due l codes} : (watchCompare s t tag d num c due l codes).sec = s.sec := by
  unfold watchCompare
  split <;> simp [foldl_sec, apply_ite State.sec]

@[simp] theorem freeLaneNow_sec {k l} : (freeLaneNow s k l).sec = s.sec := by
  unfold freeLaneNow
  split <;> simp

theorem eachLane_sec {t chain p f} (hf : ∀ (s : State) k l, (f s k l).sec = s.sec) : (eachLane s t chain p f).sec = s.sec := by
  unfold eachLane
  refine foldl_sec fun s i => ?_
  dsimp only
  repeat' split
  all_goals simp [hf]

@[simp] theorem watchBrick_sec {t sw d i c codes} : (watchBrick s t sw d i c codes).sec = s.sec :=
  eachLane_sec fun _ _ _ => rfl

/-! The Sieve. -/

@[simp] theorem setTag_sec {t n e} : (setTag s t n e).sec = s.sec := rfl

@[simp] theorem applyTagWrite_sec {t a} : (applyTagWrite t s a).sec = s.sec := by
  unfold applyTagWrite
  split <;> rfl

@[simp] theorem releaseSieve_sec {t c} : (releaseSieve s t c).sec = s.sec := by
  unfold releaseSieve
  exact foldl_sec fun _ _ => by simp

/-! The pseudo-channels. -/

@[simp] theorem hbmAccess_sec {stack c} : (hbmAccess s stack c).1.sec = s.sec := by
  unfold hbmAccess
  dsimp only
  split <;> simp

@[simp] theorem memAccess_sec {a c} : (memAccess s a c).1.sec = s.sec := by
  unfold memAccess
  split <;> simp

@[simp] theorem requestPc_sec {k r} : (requestPc s k r).sec = s.sec := rfl

@[simp] theorem requestShares_sec {e l} : (requestShares s e l).sec = s.sec := by
  unfold requestShares
  rw [foldl_sec fun s k => by split <;> rfl, foldl_sec fun _ _ => requestPc_sec]

@[simp] theorem countStreams_sec {e shares limit} : (countStreams s e shares limit).sec = s.sec := by
  unfold countStreams
  exact foldl_sec fun _ _ => by simp

/-! The copy engines. -/

@[simp] theorem loadTags_sec {t first data} : (loadTags s t first data).sec = s.sec := by
  unfold loadTags
  exact foldl_sec fun _ _ => by simp

@[simp] theorem setCopy_sec {e c} : (setCopy s e c).sec = s.sec := rfl

@[simp] theorem leave_sec {e id release} : (leave s e id release).sec = s.sec := rfl

@[simp] theorem requestStream_sec {e b side d n} : (requestStream s e b side d n).1.sec = s.sec := by simp [requestStream]

@[simp] theorem askSource_sec {e b side c} : (askSource s e b side c).1.sec = s.sec := by
  unfold askSource
  split <;> simp

@[simp] theorem beginMove_sec {e b c} : (beginMove s e b c).sec = s.sec := by
  unfold beginMove
  split <;> simp

@[simp] theorem endPass_sec {e c} : (endPass s e c).sec = s.sec := by simp [endPass]

@[simp] theorem sendWriteUnit_sec {e id dst i at_ l} : (sendWriteUnit s e id dst i at_ l).sec = s.sec := by
  unfold sendWriteUnit
  split <;> simp

@[simp] theorem sendReadUnit_sec {e id dst i at_ g} : (sendReadUnit s e id dst i at_ g).sec = s.sec := by simp [sendReadUnit]

@[simp] theorem countKib_sec {e id} : (countKib s e id).sec = s.sec := by
  unfold countKib
  repeat' split
  all_goals simp

@[simp] theorem endCopy_sec {e c release sieveEnd limit} : (endCopy s e c release sieveEnd limit).sec = s.sec := by
  unfold endCopy
  split <;> simp

@[simp] theorem stopCopy_sec {e c status cyc rec_ tagErr} : (stopCopy s e c status cyc rec_ tagErr).sec = s.sec := by simp [stopCopy]

@[simp] theorem failCopy_sec {e id status} : (failCopy s e id status).sec = s.sec := by
  unfold failCopy
  split <;> simp

@[simp] theorem carryAll_sec {e towards c l} : (carryAll s e towards c l).1.sec = s.sec := by
  unfold carryAll
  refine foldl_fst_sec fun r g => ?_
  split <;> simp

@[simp] theorem noteInvalid_sec {e c k g} : (noteInvalid s e c k g).sec = s.sec := by
  unfold noteInvalid
  split <;> rfl

@[simp] theorem commitUnits_sec {e c k cyc us} : (commitUnits s e c k cyc us).sec = s.sec := by
  unfold commitUnits
  dsimp only
  repeat' split
  all_goals simp [foldl_sec]

@[simp] theorem commitNext_sec {e c} : (commitNext s e c).sec = s.sec := by
  unfold commitNext
  dsimp only
  repeat' split
  all_goals simp

@[simp] theorem takeNext_sec {e c} : (takeNext s e c).sec = s.sec := by
  unfold takeNext
  dsimp only
  repeat' split
  all_goals simp [foldl_sec]

@[simp] theorem askNext_sec {e c} : (askNext s e c).sec = s.sec := by
  unfold askNext
  dsimp only
  repeat' split
  all_goals simp [foldl_sec]

@[simp] theorem checkCopy_sec {e c} : (checkCopy s e c).sec = s.sec := by
  unfold checkCopy
  dsimp only
  repeat' split
  all_goals simp

@[simp] theorem copyStep_sec {e id kind} : (copyStep s e id kind).sec = s.sec := by
  unfold copyStep
  repeat' split
  all_goals simp

@[simp] theorem countWaits_sec {e c} : (countWaits e s c).sec = s.sec := by
  unfold countWaits
  dsimp only
  repeat' split
  all_goals simp

/-! Collectives: groups, operations and their messages. -/

@[simp] theorem setGrp_sec {g x} : (setGrp s g x).sec = s.sec := rfl

@[simp] theorem setOp_sec {o} : (setOp s o).sec = s.sec := rfl

@[simp] theorem sendCtlAt_sec {c dst m} : (sendCtlAt s c dst m).sec = s.sec := by simp [sendCtlAt]

@[simp] theorem sendCtl_sec {dst m} : (sendCtl s dst m).sec = s.sec := by simp [sendCtl]

@[simp] theorem sendFrit_sec {c dst body} : (sendFrit s c dst body).sec = s.sec := by simp [sendFrit]

@[simp] theorem sendReform_sec {dst g gen turn n} : ∀ {s : State} {l}, (sendReform s dst g gen turn n l).sec = s.sec := by
  induction n with
  | zero => intros; rfl
  | succ n ih =>
    intro s l
    unfold sendReform
    dsimp only
    split <;> simp [ih]

@[simp] theorem removeMember_sec {g m} : (removeMember s g m).sec = s.sec := by
  unfold removeMember
  repeat' split
  all_goals simp [foldl_sec]

@[simp] theorem keeperMiss_sec {g reason m turn} : (keeperMiss s g reason m turn).sec = s.sec := by
  unfold keeperMiss
  dsimp only
  repeat' split
  all_goals simp

@[simp] theorem takeMiss_sec {g reason m turn} : (takeMiss s g reason m turn).sec = s.sec := by simp [takeMiss, foldl_sec]

@[simp] theorem reportMiss_sec {g reason m} : (reportMiss s g reason m).sec = s.sec := by
  unfold reportMiss
  repeat' split
  all_goals simp

@[simp] theorem admPut_sec {o u} : (admPut s o u).sec = s.sec := rfl

@[simp] theorem admTake_sec {o u} : (admTake s o u).sec = s.sec := by
  unfold admTake
  dsimp only
  repeat' split
  all_goals simp

@[simp] theorem admEnd_sec {o u} : (admEnd s o u).sec = s.sec := by
  unfold admEnd
  split <;> simp

@[simp] theorem startStream_sec {o a n use} : (startStream s o a n use).sec = s.sec := by simp [startStream]

@[simp] theorem setStream_sec {x} : (setStream s x).sec = s.sec := rfl

@[simp] theorem endStream_sec {x} : (endStream s x).sec = s.sec := by simp [endStream]

@[simp] theorem endStreams_sec {p} : (endStreams s p).sec = s.sec := by
  unfold endStreams
  exact foldl_sec fun _ _ => by simp

@[simp] theorem dropOp_sec {o} : (dropOp s o).sec = s.sec := by
  unfold dropOp
  dsimp only
  split <;> simp [foldl_sec]

@[simp] theorem endOp_sec {o status} : (endOp s o status).sec = s.sec := by
  unfold endOp
  dsimp only
  split <;> simp

@[simp] theorem failOp_sec {o status except} : (failOp s o status except).sec = s.sec := by
  unfold failOp
  split <;> simp [foldl_sec]

@[simp] theorem checkPart_sec {o p} : (checkPart s o p).sec = s.sec := by simp [checkPart]

/-! Collectives: constituents, chunks and streams. -/

@[simp] theorem putSub_sec {o u} : (putSub s o u).sec = s.sec := rfl

@[simp] theorem excludeKid_sec {o u k reason c} : (excludeKid s o u k reason c).1.sec = s.sec := by
  unfold excludeKid
  split <;> simp

@[simp] theorem lateSub_sec {o u} : (lateSub s o u).1.sec = s.sec := foldl_fst_sec fun _ _ => excludeKid_sec

theorem colStore_sec {a bs g} (h : colStore s a bs = .ok g) : g.1.sec = s.sec := by
  unfold colStore at h
  repeat' split at h
  all_goals cases h
  all_goals simp

@[simp] theorem pipeIn_sec {c} : (pipeIn s c).1.sec = s.sec := rfl

theorem enterSlot_sec {r : State × CChunk} {t j} : (enterSlot t r j).1.sec = r.1.sec := by
  unfold enterSlot
  split <;> simp

@[simp] theorem enterSlots_sec {x t n} : (enterSlots s x t n).1.sec = s.sec := foldl_fst_sec fun _ _ => enterSlot_sec

@[simp] theorem putChunk_sec {o u x} : (putChunk s o u x).sec = s.sec := rfl

@[simp] theorem ownPart_sec {o u c p} : (ownPart s o u c p).sec = s.sec := by simp [ownPart]

@[simp] theorem sendFrom_sec {c dst group g typ off bs} : (sendFrom s c dst group g typ off bs).sec = s.sec := by simp [sendFrom, foldl_sec]

@[simp] theorem sendCells_sec {dst group g typ bs} : (sendCells s dst group g typ bs).sec = s.sec := by simp [sendCells]

@[simp] theorem markLeaving_sec {o u x p} : (markLeaving s o u x p).sec = s.sec := rfl

@[simp] theorem leafUp_sec {o u p x data} : (leafUp s o u p x data).sec = s.sec := by
  unfold leafUp
  split <;> simp

@[simp] theorem streamDown_sec {o u k c} : (streamDown s o u k c).sec = s.sec := by simp [streamDown]

@[simp] theorem resyncTo_sec {p step} : (resyncTo s p step).sec = s.sec := rfl

@[simp] theorem stepSeen_sec {o step} : (stepSeen s o step).sec = s.sec := by
  unfold stepSeen
  split
  · rfl
  · rw [resyncTo_sec, wr_sec, bump_sec]

@[simp] theorem lagSeen_sec {m cc} : (lagSeen s m cc).sec = s.sec := rfl

@[simp] theorem closeSub_sec {o u raw} : (closeSub s o u raw).sec = s.sec := by
  unfold closeSub
  dsimp only
  split
  · simp
  next h => simpa using colStore_sec h

@[simp] theorem sendReady_sec {o u c} : (sendReady s o u c).sec = s.sec := by
  unfold sendReady
  split <;> simp

@[simp] theorem sendOpen_sec {o u step} : (sendOpen s o u step).1.sec = s.sec := by
  unfold sendOpen
  refine foldl_fst_sec fun r k => ?_
  split <;> simp

@[simp] theorem takeOpen_sec {o u m} : (takeOpen s o u m).sec = s.sec := by
  unfold takeOpen
  dsimp only
  repeat' split
  all_goals simp

@[simp] theorem claim_sec {o u slots} : (claim s o u slots).sec = s.sec := by
  unfold claim
  dsimp only
  repeat' split
  all_goals simp

@[simp] theorem absorbUp_sec {o u x} : (absorbUp s o u x).sec = s.sec := by
  unfold absorbUp
  dsimp only
  split <;> simp

theorem actChunk_sec {o u x} : ∀ s' ∈ actChunk s o u x, s'.sec = s.sec := by
  unfold actChunk
  repeat' split
  all_goals simp

theorem actKid_sec {o u k} : ∀ s' ∈ actKid s o u k, s'.sec = s.sec := by
  unfold actKid
  dsimp only
  repeat' split
  all_goals simp

/-- The first action of a list that can be taken, where each of them leaves the security controller alone. -/
theorem sec_of_findSome {α : Type} {f : α → Option State} {l : List α} {s' : State} (hf : ∀ a, ∀ s' ∈ f a, s'.sec = s.sec)
    (h : l.findSome? f = some s') : s'.sec = s.sec := by
  obtain ⟨a, _, ha⟩ := List.exists_of_findSome?_eq_some h
  exact hf a s' ha

theorem actSub_sec {o u} : ∀ s' ∈ actSub s o u, s'.sec = s.sec := by
  unfold actSub
  dsimp only
  repeat' split
  all_goals simp
  next h => exact sec_of_findSome (fun _ => actChunk_sec) h
  next h => exact sec_of_findSome (fun _ => actKid_sec) h

theorem actRing_sec {o} : ∀ s' ∈ actRing s o, s'.sec = s.sec := by
  unfold actRing
  dsimp only
  repeat' split
  all_goals simp
  next h => exact colStore_sec h

@[simp] theorem takeDown_sec {o m c} : (takeDown s o m c).sec = s.sec := by simp [takeDown, foldl_sec]

@[simp] theorem writeDown_sec {o m} : (writeDown s o m).sec = s.sec := by
  unfold writeDown
  dsimp only
  split
  · simp
  next h => (repeat' split) <;> simp [colStore_sec h]

theorem actFrit_sec {o} : ∀ s' ∈ actFrit s o, s'.sec = s.sec := by
  unfold actFrit
  dsimp only
  repeat' split
  all_goals simp

@[simp] theorem adopt_sec {o m} : (adopt s o m).sec = s.sec := by simp [adopt]

theorem actOp_sec {o} : ∀ s' ∈ actOp s o, s'.sec = s.sec := by
  unfold actOp
  dsimp only
  repeat' split
  all_goals simp
  · exact actFrit_sec
  · exact actRing_sec
  next h => exact sec_of_findSome (fun _ => actSub_sec) h

@[simp] theorem progressLoop_sec {g n} : ∀ {s : State}, (progressLoop g n s).sec = s.sec := by
  induction n with
  | zero => intro s; rfl
  | succ n ih =>
    intro s
    unfold progressLoop
    repeat' split
    · rfl
    · rfl
    next h _ => exact ih.trans (actOp_sec _ h)
    next h _ => exact actOp_sec _ h

@[simp] theorem progress_sec {g} : (progress s g).sec = s.sec := by simp [progress]

@[simp] theorem opWake_sec {g seq} : (opWake s g seq).sec = s.sec := by
  unfold opWake
  dsimp only
  repeat' split
  all_goals simp

@[simp] theorem kibIn_sec {o x p bs} : (kibIn s o x p bs).sec = s.sec := by
  unfold kibIn
  dsimp only
  repeat' split
  all_goals simp
  next h => exact colStore_sec h

@[simp] theorem ownIn_sec {o i c p data} : (ownIn s o i c p data).sec = s.sec := by
  unfold ownIn
  dsimp only
  repeat' split
  all_goals simp

@[simp] theorem checkIn_sec {o p data} : (checkIn s o p data).sec = s.sec := by
  unfold checkIn
  dsimp only
  split <;> simp

@[simp] theorem copyIn_sec {o sub c} : (copyIn s o sub c).sec = s.sec := by
  unfold copyIn
  dsimp only
  repeat' split
  all_goals simp
  next h => exact colStore_sec h
  next h => exact colStore_sec h

@[simp] theorem streamIn_sec {o x} : (streamIn s o x).sec = s.sec := by
  unfold streamIn
  repeat' split
  all_goals simp

@[simp] theorem colKib_sec {id} : (colKib s id).sec = s.sec := by
  unfold colKib
  dsimp only
  repeat' split
  all_goals simp

@[simp] theorem releaseSent_sec : (releaseSent s).sec = s.sec := by
  unfold releaseSent
  exact foldl_sec fun _ _ => by simp

@[simp] theorem orphan_sec : (orphan s).sec = s.sec := rfl

@[simp] theorem updCopy_sec {p f} : (updCopy s p f).sec = s.sec := by
  unfold updCopy
  split <;> rfl

@[simp] theorem markRetried_sec {p c} : (markRetried s p c).sec = s.sec := by
  unfold markRetried
  split <;> simp

@[simp] theorem endRequest_sec {p status f} : (endRequest s p status f).sec = s.sec := by
  unfold endRequest
  split <;> simp

@[simp] theorem collNack_sec {n} : (collNack s n).sec = s.sec := by
  unfold collNack
  dsimp only
  split
  · rfl
  refine foldl_sec fun s o => ?_
  split
  · simp
  rw [progress_sec]
  refine foldl_sec fun s u => ?_
  repeat' split
  all_goals simp

@[simp] theorem nacked_sec {c} : (nacked s c).sec = s.sec := by
  unfold nacked
  dsimp only
  repeat' split
  all_goals simp

@[simp] theorem takeSelfNack_sec : (takeSelfNack s).sec = s.sec := by
  unfold takeSelfNack
  split <;> simp

/-! The enqueue port. -/

@[simp] theorem dropPart_sec {q src} : (dropPart s q src).sec = s.sec := rfl

@[simp] theorem addPart_sec {q src prio n g pay} : (addPart s q src prio n g pay).sec = s.sec := by
  unfold addPart
  dsimp only
  split <;> simp

@[simp] theorem setPlan_sec {p} : (setPlan s p).sec = s.sec := rfl

@[simp] theorem readPlan_sec {p} : (readPlan s p).sec = s.sec := by
  unfold readPlan
  split <;> rfl

@[simp] theorem planMeets_sec {p g pay} : (planMeets s p g pay).sec = s.sec := by
  unfold planMeets
  repeat' split
  all_goals simp

@[simp] theorem hostMeets_sec {q g pay} : (hostMeets s q g pay).sec = s.sec := by
  unfold hostMeets
  dsimp only
  repeat' split
  all_goals simp

@[simp] theorem countEnqWait_sec {c} : (countEnqWait s c).sec = s.sec := by
  unfold countEnqWait
  dsimp only
  split <;> simp

@[simp] theorem meetQueue_sec {w g} : (meetQueue s w g).sec = s.sec := by
  unfold meetQueue
  repeat' split
  all_goals simp

@[simp] theorem grantEnq_sec {c} : (grantEnq s c).sec = s.sec := by
  unfold grantEnq
  dsimp only
  repeat' split
  all_goals simp

/-! The function table unit. -/

@[simp] theorem updApply_sec {t a f} : (updApply s t a f).sec = s.sec := rfl

@[simp] theorem writeApply_sec {t a} : (writeApply s t a).sec = s.sec := by simp [writeApply]

/-! The matrix array. -/

@[simp] theorem updSweep_sec {t sw f} : (updSweep s t sw f).sec = s.sec := rfl

@[simp] theorem countSweep_sec {t sw n} : (countSweep s t sw n).sec = s.sec := rfl

@[simp] theorem countSweepBy_sec {c t sw} : (countSweepBy c t s sw).sec = s.sec := rfl

@[simp] theorem writeSweep_sec {t sw} : (writeSweep s t sw).sec = s.sec := by simp [writeSweep]

/-! Events, and the clock carried forward. -/

@[simp] theorem losePosting_sec {t p} : (losePosting s t p).sec = s.sec := by
  unfold losePosting
  dsimp only
  split <;> simp

@[simp] theorem loseDispatch_sec {t d} : (loseDispatch s t d).sec = s.sec := by
  unfold loseDispatch
  exact foldl_sec fun _ _ => by simp

@[simp] theorem loseOne_sec {t a} : (loseOne t s a).sec = s.sec := by
  unfold loseOne
  dsimp only
  repeat' split
  all_goals simp

@[simp] theorem loseCycle_sec {t k} : (loseCycle s t k).sec = s.sec := by
  unfold loseCycle
  exact foldl_sec fun _ _ => by simp

@[simp] theorem loseOpc_sec {t a} : (loseOpc t s a).sec = s.sec := rfl

@[simp] theorem opcCycle_sec {t k} : (opcCycle s t k).sec = s.sec := by
  unfold opcCycle
  exact foldl_sec fun _ _ => by simp

@[simp] theorem countNet_sec {c t d} : (countNet c t s d).sec = s.sec := by
  unfold countNet
  dsimp only
  split <;> simp

@[simp] theorem countImport_sec {c k} : (countImport c s k).sec = s.sec := by
  unfold countImport
  dsimp only
  repeat' split
  all_goals simp

@[simp] theorem runDue_sec {d} : (runDue s d).sec = s.sec := by
  unfold runDue
  repeat' split
  all_goals simp

@[simp] theorem runDues_sec {c n} : ∀ {s : State}, (runDues c n s).sec = s.sec := by
  induction n with
  | zero => intro s; rfl
  | succ n ih =>
    intro s
    unfold runDues
    repeat' split
    all_goals simp [ih]

@[simp] theorem countTile_sec {c t} : (countTile c s t).sec = s.sec := by
  unfold countTile
  rw [foldl_sec fun _ _ => countLookupBy_sec, foldl_sec fun _ _ => countNet_sec, foldl_sec fun _ _ => countSweepBy_sec]

@[simp] theorem countAqWait_sec : (countAqWait s).sec = s.sec := by
  unfold countAqWait
  split <;> rfl

@[simp] theorem countAllWaits_sec : (countAllWaits s).sec = s.sec := by
  unfold countAllWaits
  refine (foldl_sec fun s p => foldl_sec fun s c => ?_).trans countAqWait_sec
  split <;> simp

/-- Nothing that happens as the clock passes touches the security controller. -/
@[simp] theorem settle_sec : (settle s).sec = s.sec := by
  unfold settle
  rw [countEnqWait_sec, drainPorts_sec, countAllWaits_sec, foldl_sec fun _ _ => countImport_sec, foldl_sec fun _ _ => countTile_sec]
  exact runDues_sec

@[simp] theorem settleTo_sec {c} : (settleTo s c).sec = s.sec := settle_sec

end Sys2Proof.Machine

namespace Sys2Proof.Machine

variable {s : State}

/-! What a step does to the floors (R373): nothing lowers one. -/

/-- Every command keeps what Kept says: the floors among it. -/
theorem exec_kept {s0 s : State} (i : Instr) (h : Kept s0 s) : KeptR s0 (exec i s) := by
  unfold exec
  cases i with
  | turnStart => exact execTurnStart_kept h
  | contextSwitchEnd => exact execContextSwitchEnd_kept h
  | p2ExitDone => exact execP2ExitDone_kept h
  | refreshSlotStart => exact execRefreshSlotStart_kept h
  | refreshSlotEnd => exact execRefreshSlotEnd_kept h
  | guardBandStart => exact execGuardBandStart_kept h
  | beacon => exact execBeacon_kept h
  | holdoverEntry => exact execHoldoverEntry_kept h
  | lockLost => exact execLockLost_kept h
  | trnLenWrite => exact execTrnLenWrite_kept h
  | trnGuardWrite => exact execTrnGuardWrite_kept h
  | trnApplyWrite => exact execTrnApplyWrite_kept h
  | trnCtxbaseWrite => exact execTrnCtxbaseWrite_kept h
  | trnWheelWrite => exact execTrnWheelWrite_kept h
  | trnWheelCtlWrite => exact execTrnWheelCtlWrite_kept h
  | tsqPlanWrWrite => exact execTsqPlanWrWrite_kept h
  | planEntryIssue => exact execPlanEntryIssue_kept h
  | sweep => exact execSweep_kept h
  | sweepDone => exact execSweepDone_kept h
  | lookup => exact execLookup_kept h
  | lookupDone => exact execLookupDone_kept h
  | run => exact execRun_kept h
  | halt => exact execHalt_kept h
  | addi => exact execAddi_kept h
  | alu => exact execAlu_kept h
  | lui => exact execLui_kept h
  | ldx => exact execLdx_kept h
  | stx => exact execStx_kept h
  | br => exact execBr_kept h
  | csrr => exact execCsrr_kept h
  | csrw => exact execCsrw_kept h
  | vld => exact execVld_kept h
  | vst => exact execVst_kept h
  | vgath => exact execVgath_kept h
  | vscat => exact execVscat_kept h
  | vbcast => exact execVbcast_kept h
  | vmovx => exact execVmovx_kept h
  | plogic => exact execPlogic_kept h
  | ptail => exact execPtail_kept h
  | pflg => exact execPflg_kept h
  | pcnt => exact execPcnt_kept h
  | varith => exact execVarith_kept h
  | vfma => exact execVfma_kept h
  | vminmax => exact execVminmax_kept h
  | vlogic => exact execVlogic_kept h
  | vshift => exact execVshift_kept h
  | vdiv => exact execVdiv_kept h
  | vcmp => exact execVcmp_kept h
  | vsel => exact execVsel_kept h
  | vcvt => exact execVcvt_kept h
  | vred => exact execVred_kept h
  | vscan => exact execVscan_kept h
  | tscan => exact execTscan_kept h
  | tred => exact execTred_kept h
  | tbar => exact execTbar_kept h
  | tileInstructionJoin => exact execTileInstructionJoin_kept h
  | ftuApply => exact execFtuApply_kept h
  | ftuApplyDone => exact execFtuApplyDone_kept h
  | copy => exact execCopy_kept h
  | fill => exact execFill_kept h
  | hdump => exact execHdump_kept h
  | hload => exact execHload_kept h
  | copyStart => exact execCopyStart_kept h
  | sieveTake => exact execSieveTake_kept h
  | pcShareStart => exact execPcShareStart_kept h
  | copyComplete => exact execCopyComplete_kept h
  | sieveTwinWrite => exact execSieveTwinWrite_kept h
  | sieveTselWrite => exact execSieveTselWrite_kept h
  | sieveCtlWrite => exact execSieveCtlWrite_kept h
  | tagDefault => exact execTagDefault_kept h
  | tagClrstat => exact execTagClrstat_kept h
  | tagCold => exact execTagCold_kept h
  | moduleStepApplyWrite => exact execModuleStepApplyWrite_kept h
  | nwuCtlWrite => exact execNwuCtlWrite_kept h
  | hclr => exact execHclr_kept h
  | kilnRun => exact execKilnRun_kept h
  | jobStart => exact execJobStart_kept h
  | kEnd => exact execKEnd_kept h
  | kImport => exact execKImport_kept h
  | importResume => exact execImportResume_kept h
  | kExport => exact execKExport_kept h
  | kVop => exact execKVop_kept h
  | kDot => exact execKDot_kept h
  | kNorm => exact execKNorm_kept h
  | kRecip => exact execKRecip_kept h
  | kSload => exact execKSload_kept h
  | kSpmv => exact execKSpmv_kept h
  | kFact => exact execKFact_kept h
  | kSolve => exact execKSolve_kept h
  | kLoop => exact execKLoop_kept h
  | kEndloop => exact execKEndloop_kept h
  | kTest => exact execKTest_kept h
  | deadlineMiss => exact execDeadlineMiss_kept h
  | kilnCommitDone => exact execKilnCommitDone_kept h
  | klnRdyclrWrite => exact execKlnRdyclrWrite_kept h
  | kilnSoftReset => exact execKilnSoftReset_kept h
  | neighbourHandshake => exact execNeighbourHandshake_kept h
  | coordMessage => exact execCoordMessage_kept h
  | cellForward => exact execCellForward_kept h
  | cellWrite => exact execCellWrite_kept h
  | cellWriteEnd => exact execCellWriteEnd_kept h
  | cellRead => exact execCellRead_kept h
  | dataCell => exact execDataCell_kept h
  | cellAck => exact execCellAck_kept h
  | cellNack => exact execCellNack_kept h
  | cellFadd => exact execCellFadd_kept h
  | cellFaddResult => exact execCellFaddResult_kept h
  | fecUncorrectable => exact execFecUncorrectable_kept h
  | linkRetryRequest => exact execLinkRetryRequest_kept h
  | reorderGapTimeout => exact execReorderGapTimeout_kept h
  | ackTimeout => exact execAckTimeout_kept h
  | requestCreditGrant => exact execRequestCreditGrant_kept h
  | fetchAdd => exact execFetchAdd_kept h
  | hubCopyItem => exact execHubCopyItem_kept h
  | colReduce => exact execColReduce_kept h
  | colBcast => exact execColBcast_kept h
  | colAllreduce => exact execColAllreduce_kept h
  | colRedscat => exact execColRedscat_kept h
  | colAllgather => exact execColAllgather_kept h
  | colRingpass => exact execColRingpass_kept h
  | colFred => exact execColFred_kept h
  | colBarrier => exact execColBarrier_kept h
  | collectiveOpStart => exact execCollectiveOpStart_kept h
  | finiteCheckDone => exact execFiniteCheckDone_kept h
  | colOpen => exact execColOpen_kept h
  | colReady => exact execColReady_kept h
  | colGrant => exact execColGrant_kept h
  | colExcl => exact execColExcl_kept h
  | colFail => exact execColFail_kept h
  | collData => exact execCollData_kept h
  | chunkAdmit => exact execChunkAdmit_kept h
  | chunkComplete => exact execChunkComplete_kept h
  | collectiveDeadline => exact execCollectiveDeadline_kept h
  | collectiveOpTimeout => exact execCollectiveOpTimeout_kept h
  | fritUp => exact execFritUp_kept h
  | fritDown => exact execFritDown_kept h
  | fritMiss => exact execFritMiss_kept h
  | fritReform => exact execFritReform_kept h
  | fritFail => exact execFritFail_kept h
  | colGcmdWrite => exact execColGcmdWrite_kept h
  | colPoolWrite => exact execColPoolWrite_kept h
  | colPoolApply => exact execColPoolApply_kept h
  | cxlLinkUp => exact execCxlLinkUp_kept h
  | linkRetrain => exact execLinkRetrain_kept h
  | perstAssert => exact execPerstAssert_kept h
  | perstDeassert => exact execPerstDeassert_kept h
  | doeRequest => exact execDoeRequest_kept h
  | windowEnqueue => exact execWindowEnqueue_kept h
  | windowDequeue => exact execWindowDequeue_kept h
  | hdmRead => exact execHdmRead_kept h
  | hdmWrite => exact execHdmWrite_kept h
  | birsp => exact execBirsp_kept h
  | biTimeout => exact execBiTimeout_kept h
  | ringDrain => exact execRingDrain_kept h
  | ringFill => exact execRingFill_kept h
  | hifRingHeadWrite => exact execHifRingHeadWrite_kept h
  | hifRingTailWrite => exact execHifRingTailWrite_kept h
  | msixNoticeEvent => exact execMsixNoticeEvent_kept h
  | ideIntegrityFailure => exact execIdeIntegrityFailure_kept h
  | flr => exact execFlr_kept h
  | enqueue => exact execEnqueue_kept h
  | dequeue => exact execDequeue_kept h
  | qDrop => exact execQDrop_kept h
  | qFlush => exact execQFlush_kept h
  | staleTimeout => exact execStaleTimeout_kept h
  | qmuQtoWrite => exact execQmuQtoWrite_kept h
  | qmuQcfgWrite => exact execQmuQcfgWrite_kept h
  | planEnq => exact execPlanEnq_kept h
  | planEnqComplete => exact execPlanEnqComplete_kept h
  | coldReset => exact execColdReset_kept h
  | stagePower => exact execStagePower_kept h
  | stageMmc => exact execStageMmc_kept h
  | stageSec => exact execStageSec_kept h
  | stageRails => exact execStageRails_kept h
  | stageHub => exact execStageHub_kept h
  | stageHbm => exact execStageHbm_kept h
  | stageCompute => exact execStageCompute_kept h
  | stageCxl => exact execStageCxl_kept h
  | stageFabric => exact execStageFabric_kept h
  | stageCoord => exact execStageCoord_kept h
  | stageLock => exact execStageLock_kept h
  | fabricGo => exact execFabricGo_kept h
  | solo => exact execSolo_kept h
  | fabTimeout => exact execFabTimeout_kept h
  | fenceRequest => exact execFenceRequest_kept h
  | unfence => exact execUnfence_kept h
  | selfTestDone => exact execSelfTestDone_kept h
  | railFault => exact execRailFault_kept h
  | thermalTrip => exact execThermalTrip_kept h
  | hbmPhyLoss => exact execHbmPhyLoss_kept h
  | d2dLinkFailure => exact execD2dLinkFailure_kept h
  | kResetRequest => exact execKResetRequest_kept h
  | kResetEnd => exact execKResetEnd_kept h
  | tResetRequest => exact execTResetRequest_kept h
  | tResetEnd => exact execTResetEnd_kept h
  | portSoftReset => exact execPortSoftReset_kept h
  | moduleResetCommand => exact execModuleResetCommand_kept h
  | modulePwrWrite => exact execModulePwrWrite_kept h
  | hotSwapOpen => exact execHotSwapOpen_kept h
  | mmcSample => exact execMmcSample_kept h
  | blockEnableWrite => exact execBlockEnableWrite_kept h
  | registerWrite => exact execRegisterWrite_kept h
  | secBegin => exact execSecBegin_kept h
  | secData => exact execSecData_kept h
  | secVerify => exact execSecVerify_kept h
  | secActivate => exact execSecActivate_kept h
  | secCancel => exact execSecCancel_kept h
  | prepareAnswer => exact execPrepareAnswer_kept h
  | activationTimeout => exact execActivationTimeout_kept h
  | spdmGetVersion => exact execSpdmGetVersion_kept h
  | spdmGetCapabilities => exact execSpdmGetCapabilities_kept h
  | spdmNegotiateAlgorithms => exact execSpdmNegotiateAlgorithms_kept h
  | spdmGetDigests => exact execSpdmGetDigests_kept h
  | spdmGetCertificate => exact execSpdmGetCertificate_kept h
  | spdmChallenge => exact execSpdmChallenge_kept h
  | spdmGetMeasurements => exact execSpdmGetMeasurements_kept h
  | spdmKeyExchange => exact execSpdmKeyExchange_kept h
  | spdmFinish => exact execSpdmFinish_kept h
  | spdmHeartbeat => exact execSpdmHeartbeat_kept h
  | spdmKeyUpdate => exact execSpdmKeyUpdate_kept h
  | spdmEndSession => exact execSpdmEndSession_kept h
  | ideKm => exact execIdeKm_kept h
  | pldmQueryDeviceIdentifiers => exact execPldmQueryDeviceIdentifiers_kept h
  | pldmGetFirmwareParameters => exact execPldmGetFirmwareParameters_kept h
  | pldmRequestUpdate => exact execPldmRequestUpdate_kept h
  | pldmPassComponentTable => exact execPldmPassComponentTable_kept h
  | pldmUpdateComponent => exact execPldmUpdateComponent_kept h
  | pldmRequestFirmwareData => exact execPldmRequestFirmwareData_kept h
  | pldmTransferComplete => exact execPldmTransferComplete_kept h
  | pldmVerifyComplete => exact execPldmVerifyComplete_kept h
  | pldmApplyComplete => exact execPldmApplyComplete_kept h
  | pldmActivateFirmware => exact execPldmActivateFirmware_kept h
  | pldmGetStatus => exact execPldmGetStatus_kept h
  | pldmCancelUpdateComponent => exact execPldmCancelUpdateComponent_kept h
  | pldmCancelUpdate => exact execPldmCancelUpdate_kept h
  | mctpDiscovery => exact execMctpDiscovery_kept h
  | cxlLinkDrop => exact execCxlLinkDrop_kept h
  | configurationRequest => exact execConfigurationRequest_kept h
  | hostSnoop => exact execHostSnoop_kept h
  | hubServiceFault => exact execHubServiceFault_kept h
  | powerTransitionDone => exact execPowerTransitionDone_kept h
  | mbCommandComplete => exact execMbCommandComplete_kept h
  | cablePresenceChange => exact execCablePresenceChange_kept h

/-- A table filled in from a list of keys reads as the filling there, and elsewhere as it did. -/
theorem get_foldl_put {g : Nat → Nat} {l : List Nat} {c : Nat} : ∀ {f : List (Nat × Nat)},
    Tab.get 0 (l.foldl (fun f a => Tab.put 0 f a (g a)) f) c = if c ∈ l then g c else Tab.get 0 f c := by
  induction l with
  | nil => simp
  | cons a t ih =>
    intro f
    rw [List.foldl_cons, ih]
    by_cases hc : c = a
    · simp [hc, Tab.get_put_same]
    · simp [hc, Tab.get_put_other hc]

/-- The commit raises each floor to the security version number of the new entry where that is larger. -/
theorem floorOf_commitUpdate {c : Nat} (hc : c ∈ components) :
    floorOf (commitUpdate s) c = max (floorOf s c) (entrySvn s.sec.manifest c) :=
  get_foldl_put.trans (if_pos hc)

/-! The end of VERIFY (R373, R374). -/

@[simp] theorem serveDoe_sec : (serveDoe s).sec = s.sec := by
  unfold serveDoe
  exact foldl_sec fun _ _ => emit_sec

@[simp] theorem rd_serveDoe {f : Fld} : rd (serveDoe s) f = rd s f := by
  unfold serveDoe
  exact foldl_frame (π := fun s => rd s f) fun _ _ => rd_emit

@[simp] theorem secError_sec {st : Nat} : (secError s st).sec = s.sec := pageErr_sec

theorem rd_pageErr_other {f : Fld} {b idx tag st : Nat} (hcount : f.key ≠ (Fd.errcntCount b).key) (hinfo : f.key ≠ (Fd.firstErrInfo b).key) :
    rd (pageErr s b idx tag st) f = rd s f := by
  unfold pageErr pageErrBy
  rw [rd_bump_other hcount]
  split
  · exact rd_wr_other hinfo
  · rfl

/-- An update command that ends in an error shows it in STATE. -/
theorem rd_secError_state {st : Nat} (hst : st < 256) : rd (secError s st) Fd.secMbStsState = st := by
  unfold secError
  rw [rd_pageErr_other (by decide) (by decide), rd_wr_same]
  exact Nat.mod_eq_of_lt hst

/-- The bank of component d as VERIFY reads it: the running image where the manifest says SAME (R372). -/
def verifyBank (s : State) (d : Nat) : Bank :=
  if entrySame s.sec.manifest d then { bytes := imageA s d, written := entrySize s.sec.manifest d, valid := false } else bankB s d

/-- Every image is written whole and has the digest of its entry. -/
def ImagesMatch (s : State) : Prop :=
  ∀ d ∈ components, (verifyBank s d).written = entrySize s.sec.manifest d ∧
    Config.sha384 ((verifyBank s d).bytes.take (entrySize s.sec.manifest d)) = entryDigest s.sec.manifest d

theorem verifyImages_all (himg : ImagesMatch s) :
    ((components.map fun d => (d, verifyBank s d)).all fun p => p.2.written == entrySize s.sec.manifest p.1 &&
      Config.sha384 (p.2.bytes.take (entrySize s.sec.manifest p.1)) == entryDigest s.sec.manifest p.1) = true := by
  simpa [ImagesMatch] using himg

/-- The slot B banks as VERIFY leaves them. -/
def withVerifyBanks (s : State) : State := setSec s { s.sec with slotB := components.map fun d => (d, verifyBank s d) }

@[simp] theorem withVerifyBanks_phase : (withVerifyBanks s).sec.phase = s.sec.phase := rfl

theorem verifyResult_rollback (himg : ImagesMatch s) (hlow : ∃ d ∈ components, entrySvn s.sec.manifest d < floorOf s d) :
    verifyResult s = secError (withVerifyBanks s) 0x15 := by
  have hlow' : (components.any fun d => decide (entrySvn s.sec.manifest d < floorOf s d)) = true := by simpa using hlow
  exact (if_neg (not_not.2 (verifyImages_all himg))).trans (if_pos hlow')

theorem verifyResult_verified (himg : ImagesMatch s) (hfloor : ∀ d ∈ components, floorOf s d ≤ entrySvn s.sec.manifest d) :
    verifyResult s = wr (setSec (withVerifyBanks s) { (withVerifyBanks s).sec with phase := 2 }) Fd.secMbStsState 2 := by
  have hlow : ¬ (components.any fun d => decide (entrySvn s.sec.manifest d < floorOf s d)) = true := by simpa using hfloor
  exact (if_neg (not_not.2 (verifyImages_all himg))).trans (if_neg hlow)

/-- The state in which a command VERIFY ends: the cycles of its hashing have passed, and the security controller is free again. -/
def afterHash (s : State) (x : SecCmd) : State :=
  setSec (wr (settleTo s (x.since + hashCycles (components.map (entrySize s.sec.manifest)).sum)) Fd.secMbStsBusy 0) { s.sec with cmd := none }

@[simp] theorem afterHash_sec {x : SecCmd} : (afterHash s x).sec = { s.sec with cmd := none } := rfl

@[simp] theorem floorOf_afterHash {x : SecCmd} {d : Nat} : floorOf (afterHash s x) d = floorOf s d := by simp [floorOf]

@[simp] theorem verifyBank_afterHash {x : SecCmd} {d : Nat} : verifyBank (afterHash s x) d = verifyBank s d := by
  unfold verifyBank imageA bankB
  rw [afterHash_sec]

theorem imagesMatch_afterHash {x : SecCmd} : ImagesMatch (afterHash s x) ↔ ImagesMatch s := by simp [ImagesMatch]

theorem endCommand_verify {x : SecCmd} (hcmd : s.sec.cmd = some x) (hx : x.cmd ≠ 2) :
    endCommand s = serveDoe (verifyResult (afterHash s x)) := by
  unfold endCommand
  simp only [hcmd, if_neg hx, wr_sec, settleTo_sec, afterHash]

theorem exec_mbCommandComplete_verify {x : SecCmd} (hcmd : s.sec.cmd = some x) (hx : x.cmd ≠ 2) :
    exec .mbCommandComplete s = ok (serveDoe (verifyResult (afterHash s x))) := by
  have hexec : exec .mbCommandComplete s = execMbCommandComplete s := rfl
  rw [hexec, execMbCommandComplete, hcmd, endCommand_verify hcmd hx]
  rfl

/-- The command VERIFY ends with this STATE and in this phase when its check of the images and floors does. -/
theorem completes_verify {x : SecCmd} {t : State} {st ph : Nat} (hcmd : s.sec.cmd = some x) (hx : x.cmd ≠ 2)
    (hres : verifyResult (afterHash s x) = t) (hst : rd t Fd.secMbStsState = st) (hph : t.sec.phase = ph) :
    Completes .mbCommandComplete s fun s' => rd s' Fd.secMbStsState = st ∧ s'.sec.phase = ph := by
  have hexec := exec_mbCommandComplete_verify hcmd hx
  have hstate : rd (serveDoe t) Fd.secMbStsState = st := rd_serveDoe.trans hst
  have hphase : (serveDoe t).sec.phase = ph := (congrArg Sec.phase serveDoe_sec).trans hph
  rw [hres] at hexec
  generalize serveDoe t = u at hexec hstate hphase
  exact ⟨_, hexec, hstate, hphase⟩

/-- A VERIFY of good images ends with ROLLBACK where an entry lies below its floor; the update stays in its phase. -/
theorem verify_rollback {x : SecCmd} (hcmd : s.sec.cmd = some x) (hx : x.cmd ≠ 2) (himg : ImagesMatch s)
    (hlow : ∃ d ∈ components, entrySvn s.sec.manifest d < floorOf s d) :
    Completes .mbCommandComplete s fun s' => rd s' Fd.secMbStsState = 0x15 ∧ s'.sec.phase = s.sec.phase :=
  completes_verify hcmd hx (verifyResult_rollback (imagesMatch_afterHash.2 himg) (by simpa using hlow)) (rd_secError_state (by decide)) (by simp)

/-- A VERIFY of good images with no entry below its floor ends in VERIFIED. -/
theorem verify_verified {x : SecCmd} (hcmd : s.sec.cmd = some x) (hx : x.cmd ≠ 2) (himg : ImagesMatch s)
    (hfloor : ∀ d ∈ components, floorOf s d ≤ entrySvn s.sec.manifest d) :
    Completes .mbCommandComplete s fun s' => rd s' Fd.secMbStsState = 2 ∧ s'.sec.phase = 2 :=
  completes_verify hcmd hx (verifyResult_verified (imagesMatch_afterHash.2 himg) (by simpa using hfloor)) rd_wr_same rfl

/-- Settles O24: a step lowers no floor (exec_kept); VERIFY reads the floors and the manifest that it was given, for nothing that happens
while it hashes touches the security controller (settleTo_sec). -/
theorem floorsNeverFall : Obligations.FloorsNeverFall := by
  unfold Obligations.FloorsNeverFall
  refine ⟨fun _ => rfl, fun i s s' h => (exec_kept i (Kept.refl s) s' h).floors, ?_, fun s c => floorOf_commitUpdate⟩
  intro s x hcmd hx m himg
  refine ⟨fun hlow => ?_, verify_verified hcmd hx himg⟩
  rw [settleTo_sec]
  exact verify_rollback hcmd hx himg hlow

end Sys2Proof.Machine
